-- ==== Sys2Proof/Word.lean ====
section
/-! DEFINITION. The word types of the host bus and of the utility line (R209). -/

namespace Sys2Proof

/-- One byte of host memory or of a parcel. -/
abbrev Byte := BitVec 8

/-- One 32-bit window word (R182). -/
abbrev Word := BitVec 32

end Sys2Proof
end

