-- ==== Sys2Proof/Syntax.lean ====
section
/-! DEFINITION. The commands of the block: one constructor for each row of spec/opcode_table.json. -/

namespace Sys2Proof

/-- The eight counters (00_scope.md, "Counters, rings and holders"). -/
inductive Counter where
  | c0 | c1 | c2 | c3 | c4 | c5 | c6 | c7
  deriving DecidableEq, Repr

/-- A holder: a counter or OFFICE (00_scope.md). Rings 0 to 7 belong to C0 to C7 and ring 8 to the office, so the same
type names a ring, a vend context and an owner of token jobs. -/
inductive Holder where
  | counter (c : Counter)
  | office
  deriving DecidableEq, Repr

/-- The seven blocks with an attention status word (00_scope.md, "Status words"). -/
inductive Block where
  | ring | vend | float | tariff | time | till | link
  deriving DecidableEq, Repr

/-- The three locations of the register window (R182). -/
inductive WindowPort where
  | index | data | summary
  deriving DecidableEq, Repr

/-- The commands. An operand is what reaches the part from outside or which of several like things the event is about;
everything else a command needs is in the state (log entry 11). -/
inductive Instr where
  /-- POWER_LOSS (R204). -/
  | powerLoss
  /-- RESET_N_LOW (R204). -/
  | resetNLow
  /-- PART_START (R205), with the level of the CLEAR strap. -/
  | partStart (clearStrap : Bool)
  /-- CLEAR_END (R206). -/
  | clearEnd
  /-- RECOVERY_DONE (R69). -/
  | recoveryDone
  /-- VBAK_LOSS (R207). -/
  | vbakLoss
  /-- WINDOW_WRITE (R182, R183): a write of one window location. -/
  | windowWrite (port : WindowPort) (value : Word)
  /-- INIT (R185), with the ring mask the CONTROL write carries. -/
  | init (mask : BitVec 9)
  /-- START (R184). -/
  | start (mask : BitVec 9)
  /-- STOP (R187). -/
  | stop (mask : BitVec 9)
  /-- DEMAND (R184, R188). -/
  | demand (mask : BitVec 9)
  /-- RING_FAULT_CLEAR (R192). -/
  | ringFaultClear (ring : Holder)
  /-- BUS_FAULT_CLEAR (R194). -/
  | busFaultClear
  /-- STATUS_WRITE (R198). -/
  | statusWrite (block : Block) (value : Word)
  /-- ENABLE_WRITE (R199). -/
  | enableWrite (block : Block) (value : Word)
  /-- SUMMARY_ENABLE_WRITE (R201). -/
  | summaryEnableWrite (value : Word)
  /-- CANCEL (R112), with the word written. -/
  | cancel (value : Word)
  /-- LINK_ENABLE (R159), with the word written. -/
  | linkEnable (value : Word)
  /-- FLOAT_LOWWATER_READ (R59). -/
  | floatLowwaterRead
  /-- RING_RESET (R196). -/
  | ringReset
  /-- ENGINE_RESET (R78). -/
  | engineReset
  /-- ENGINE_RUN (R79). -/
  | engineRun
  /-- LINK_RESET (R180). -/
  | linkReset
  /-- LINES_RESET (R155). -/
  | linesReset
  /-- INIT_BLOCK_READ_DONE (R186), with the 128 bytes read. -/
  | initBlockReadDone (bytes : List Byte)
  /-- POLL_TIMER_EXPIRY (R188). -/
  | pollTimerExpiry (ring : Holder)
  /-- RING_LOOK (R188, R189), with the 96 bytes of the descriptor at the cursor. -/
  | ringLook (ring : Holder) (descriptor : List Byte)
  /-- VEND (R96). -/
  | vend (counter : Counter)
  /-- QUOTE (R119). -/
  | quote (counter : Counter)
  /-- REPRINT (R27). -/
  | reprint (counter : Counter)
  /-- LOOKUP (R26). -/
  | lookup (ring : Holder)
  /-- REFER_SET (R28). -/
  | referSet
  /-- REFER_CLEAR (R28). -/
  | referClear
  /-- ENGINEER (R131). -/
  | engineer
  /-- KEYROLL_ONLY (R130). -/
  | keyrollOnly
  /-- TILL_OPEN (R139). -/
  | tillOpen
  /-- TILL_PAUSE (R140). -/
  | tillPause
  /-- TILL_RESUME (R140). -/
  | tillResume
  /-- TILL_CLOSE (R141). -/
  | tillClose
  /-- TILL_READ (R143). -/
  | tillRead
  /-- OUTCOME_TAKE (R145). -/
  | outcomeTake
  /-- LINE_SET (R152). -/
  | lineSet
  /-- LINE_READ (R153). -/
  | lineRead
  /-- CLOCK_SET (R90). -/
  | clockSet
  /-- CLOCK_READ (R90). -/
  | clockRead
  /-- BAD_REQUEST_KIND (R189). -/
  | badRequestKind (ring : Holder)
  /-- REPLY_WRITTEN (R190). -/
  | replyWritten (ring : Holder)
  /-- BUS_FAULT (R193). -/
  | busFault
  /-- RING_FAULT (R192). -/
  | ringFault (ring : Holder)
  /-- HOLD_GRANT_DONE (R98). -/
  | holdGrantDone (holder : Holder)
  /-- RESERVE_DONE (R101). -/
  | reserveDone (counter : Counter)
  /-- JOB_COMPLETE (R76). -/
  | jobComplete
  /-- SEAL_DONE (R104). -/
  | sealDone (counter : Counter)
  /-- RECORD_PART_APPLIED (R105). -/
  | recordPartApplied (counter : Counter)
  /-- FLOAT_PART_APPLIED (R105). -/
  | floatPartApplied (counter : Counter)
  /-- TILL_PART_APPLIED (R106). -/
  | tillPartApplied (counter : Counter)
  /-- FREE_DONE (R106). -/
  | freeDone (counter : Counter)
  /-- RELEASE_DONE (R12): the release write of this releasing holder completes. -/
  | releaseDone (holder : Holder)
  /-- OFFICE_COMMIT_DONE (R132). -/
  | officeCommitDone
  /-- HOLD_TIMEOUT (R111). -/
  | holdTimeout (holder : Holder)
  /-- CLOCK_ADVANCE (R87). -/
  | clockAdvance
  /-- MINUTES_SINCE_UP_TICK (R91). -/
  | minutesSinceUpTick
  /-- DRW_IN_CHANGE (R149), with the new pin level. -/
  | drwInChange (counter : Counter) (level : Bool)
  /-- LEVEL_COUNTED (R149). -/
  | levelCounted (counter : Counter)
  /-- PULSE_END (R150). -/
  | pulseEnd (counter : Counter)
  /-- STUCK_TIMER_EXPIRY (R151). -/
  | stuckTimerExpiry (counter : Counter)
  /-- LONG_TIMER_EXPIRY (R151). -/
  | longTimerExpiry (counter : Counter)
  /-- RATE_WINDOW_END (R156), with the LCLK cycles counted in the window. -/
  | rateWindowEnd (cycles : Nat)
  /-- CARRIER_LOSS (R157, R160). -/
  | carrierLoss
  /-- CARRIER_GAIN (R157, R160). -/
  | carrierGain
  /-- PARCEL_RECEIVE (R165), with the bytes of the parcel, its flags among them. -/
  | parcelReceive (bytes : List Byte)
  /-- SERVICE_MODE_WRITTEN (R166). -/
  | serviceModeWritten
  /-- TRAINING_TIMEOUT (R161). -/
  | trainingTimeout
  /-- SILENCE_TIMEOUT (R162). -/
  | silenceTimeout
  /-- SLIP_TIMEOUT (R163). -/
  | slipTimeout
  /-- IDLE_PARCEL_SEND (R169). -/
  | idleParcelSend
  /-- UPWARD_ENTRY_SENT (R169). -/
  | upwardEntrySent
  /-- FLOAT_REPORT_QUEUE (R172). -/
  | floatReportQueue
  /-- SWEEP_PAGE_BEGIN (R177). -/
  | sweepPageBegin
  /-- SWEEP_PAGE_WRITE (R177). -/
  | sweepPageWrite
  /-- SWEEP_END (R178). -/
  | sweepEnd
  /-- ANSWER_WRITE (R174). -/
  | answerWrite
  /-- ENROL (R19). -/
  | enrol
  /-- AMEND (R21). -/
  | amend
  /-- RETIRE (R23). -/
  | retire
  /-- KEYROLL (R124). -/
  | keyroll
  /-- GRANT (R54). -/
  | grant
  /-- RECALL (R55). -/
  | recall
  /-- FLOAT_TERMS (R57). -/
  | floatTerms
  /-- TARIFF (R33). -/
  | tariff
  /-- ARM (R35). -/
  | arm
  /-- DISARM (R38). -/
  | disarm
  /-- MONTHS (R41). -/
  | months
  /-- TIME (R89). -/
  | time
  /-- HOLDOVER (R164). -/
  | holdover
  /-- SWEEP (R176). -/
  | sweep
  /-- FLOAT_QUERY (R175). -/
  | floatQuery
  /-- UNKNOWN_INSTRUCTION (R173). -/
  | unknownInstruction
  /-- VBAK_RETURN (R207). -/
  | vbakReturn
  /-- INIT_BLOCK_READ_ERROR (R185). -/
  | initBlockReadError
  /-- RESERVATION_RELEASED (R62). -/
  | reservationReleased (counter : Counter)
  deriving DecidableEq, Repr

end Sys2Proof
end

