-- ==== Sys2Proof/Config.lean ====
section
/-! DEFINITION. The free values of the model: constants with no body, so that nothing can be proved about
what they are (log entry 4). Each is applied to a counter that State holds and the step advances. -/

namespace Sys2Proof.Config

/-- A choice the spec leaves open, drawn afresh each time (log entries 4, 7, 8 and 9). -/
opaque freeBit : Nat → Bool

/-- The key TKE would get for a key reference whose record or roll is not there; the spec rules the case out
(R75, the owner's hold keeps the keys fixed) and states no value (log entry 4). -/
opaque freeKey : Nat → BitVec 60

end Sys2Proof.Config
end

