-- ==== Sys2Proof/Machine/State.lean ====
section
/-! DEFINITION. The state of the DV-3120: every piece of state the spec gives its nine blocks, as plain data, and the
state right after reset (INVENTORY.md, "State"). -/

namespace Sys2Proof.Machine

/-! ## Things there are eight or nine of -/

/-- One thing for each of the counters C0 to C7. -/
structure PerCounter (α : Type) where
  c0 : α
  c1 : α
  c2 : α
  c3 : α
  c4 : α
  c5 : α
  c6 : α
  c7 : α
  deriving DecidableEq, Repr

/-- The same value for every counter. -/
def PerCounter.fill {α : Type} (a : α) : PerCounter α := ⟨a, a, a, a, a, a, a, a⟩

/-- One thing for each of the nine rings, contexts or holders: C0 to C7 and the office. -/
structure PerHolder (α : Type) where
  counters : PerCounter α
  office : α
  deriving DecidableEq, Repr

/-- The same value for every holder. -/
def PerHolder.fill {α : Type} (a : α) : PerHolder α := ⟨PerCounter.fill a, a⟩

/-- One thing for each of the two tariff banks A and B. -/
structure PerBank (α : Type) where
  a : α
  b : α
  deriving DecidableEq, Repr

/-- One thing for each block that has a status word. -/
structure PerBlock (α : Type) where
  ring : α
  vend : α
  float : α
  tariff : α
  time : α
  till : α
  link : α
  deriving DecidableEq, Repr

/-- The same value for every block. -/
def PerBlock.fill {α : Type} (a : α) : PerBlock α := ⟨a, a, a, a, a, a, a⟩

/-! ## Results, answers and replies -/

/-- The result codes of a descriptor reply (00_scope.md, "Results and answers"; 11.4). -/
inductive ResultCode where
  | done | noMeter | meterSuspended | meterRetired | referOffice | tillClosed | tillPaused | drawerOpen
  | outcomePending | salesHalted | overCap | linkStale | clockUnset | monthUnknown | classClosed | tooSmall
  | amountRange | floatShort | stampAhead | stampExhausted | holdTimeout | cancelled | engineReset | badRequest
  | counterBusy | notPermitted
  deriving DecidableEq, Repr

/-- A reply as RGI writes it: the result and the reply fields from byte 8 of the descriptor (R210). -/
structure Reply where
  code : ResultCode
  fields : List Byte
  deriving DecidableEq, Repr

/-- The answer codes of an ANSWER parcel (00_scope.md; 11.6). -/
inductive AnswerCode where
  | accepted | duplicate | outOfOrder | overCeiling | exists_ | absent | recordBusy | storeFull | badField
  | incomplete | notArmed | staleGeneration
  deriving DecidableEq, Repr

/-! ## Tokens -/

/-- The token kinds (R72). -/
inductive TokenKind where
  | credit | allowance | clearTamper | setLimit | keyroll1 | keyroll2
  deriving DecidableEq, Repr

/-- The key a token block is scrambled under (R72). -/
inductive KeyRef where
  | current | pending
  deriving DecidableEq, Repr

/-- A finished token: its kind, its stamp and the scrambled 60-bit output whose 19-digit rendering is the token (R86). -/
structure Token where
  kind : TokenKind
  stamp : Nat
  value : BitVec 60
  deriving DecidableEq, Repr

/-- A planned token: kind, key reference and payload (R93, R100): tenths, watts or the new generation. -/
structure PlannedToken where
  kind : TokenKind
  ref : KeyRef
  payload : Nat
  deriving DecidableEq, Repr

/-! ## ADIR -/

/-- A record's status (R9). -/
inductive MeterStatus where
  | active | suspended | retiring
  deriving DecidableEq, Repr

/-- A pending key roll (R123). -/
structure KeyRoll where
  generation : Nat
  key : BitVec 60
  deriving DecidableEq, Repr

/-- A record's arrears (R22). -/
structure Arrears where
  balance : Nat
  percent : Nat
  deriving DecidableEq, Repr

/-- The last vend copy (R6). -/
structure VendCopy where
  serial : Nat
  counter : Counter
  money : Nat
  net : Nat
  arrears : Nat
  units : Nat
  allowance : Nat
  tokens : List Token
  reprints : Nat
  deriving DecidableEq, Repr

/-- A meter record (01_meter_accounts.md 1.2). Its slot is the key it stands under in the meter table. -/
structure MeterRecord where
  number : Nat
  status : MeterStatus
  refer : Option Nat
  supplyClass : Nat
  keyGeneration : Nat
  key : BitVec 60
  roll : Option KeyRoll
  lastStamp : Nat
  monthNumber : Nat
  monthUnits : Nat
  allowanceMonth : Option Nat
  arrears : Option Arrears
  carry : Nat
  totalUnits : Nat
  totalAllowance : Nat
  totalMoney : Nat
  vendCount : Nat
  copy : Option VendCopy
  hold : Option Holder
  enrolledMinute : Nat
  deriving DecidableEq, Repr

/-- The record writes that complete at a row of their own (R10, R12, R15, R17). A release that hands the hold over names
the next holder. -/
inductive RecordWriteKind where
  | grant
  | release (next : Option Holder)
  | recordPart
  | officeCommit
  deriving DecidableEq, Repr

/-- A record write under way: which it is, for whom, and the content it replaces, which a power cut may leave (R204).
`settled` is set once a later claim on the record has been taken: the write had then completed (R2; log entry 5). -/
structure RecordWrite where
  kind : RecordWriteKind
  holder : Holder
  slot : Nat
  old : MeterRecord
  settled : Bool
  deriving DecidableEq, Repr

/-- What a hold claim is answered (R10). -/
inductive HoldAnswer where
  | refused (r : Reply)
  | busy (slot : Nat) (holder : Holder)
  | granted (slot : Nat) (record : MeterRecord)
  deriving DecidableEq, Repr

/-- A hold claim that waits for the writes of its record under way (R2), with the answer that those writes and the claims
before it leave for it (R10). `behind` is the number of writes still to complete. -/
structure HoldWait where
  holder : Holder
  meter : Nat
  behind : Nat
  answer : HoldAnswer
  deriving DecidableEq, Repr

/-- The Account Directory: the meter table as a list of (slot, record) with strictly rising slots (R1), the record writes
under way and the hold claims that wait for them, oldest first. `before` is, while a recovery pass runs, the table as the
pass found it, which a power cut goes back to (R70; log entry 6). -/
structure Adir where
  table : List (Nat × MeterRecord)
  writes : List RecordWrite
  waiting : List HoldWait
  before : Option (List (Nat × MeterRecord))
  deriving DecidableEq, Repr

/-! ## TFU -/

/-- The two banks (R30). -/
inductive Bank where
  | a | b
  deriving DecidableEq, Repr

/-- A price block: its price and, but for the last block, its upper threshold (R31). -/
structure PriceBlock where
  price : Nat
  upper : Option Nat
  deriving DecidableEq, Repr

/-- A class entry (R31). -/
structure ClassEntry where
  isOpen : Bool
  blocks : List PriceBlock
  allowance : Nat
  deriving DecidableEq, Repr

/-- An arm (R30, R35). -/
structure Arm where
  generation : Nat
  minute : Nat
  deriving DecidableEq, Repr

/-- The bank state record (R30): active pointer, generations, loaded flags (bit c for class c) and the arm. -/
structure BankState where
  active : Bank
  generation : PerBank Nat
  loaded : PerBank (BitVec 16)
  arm : Option Arm
  deriving DecidableEq, Repr

/-- A month entry of the calendar (R39). -/
structure MonthEntry where
  number : Nat
  start : Nat
  deriving DecidableEq, Repr

/-- The 34 store records of TFU: the bank state, the class entries and the calendar (R30, R31, R39). -/
structure TfuStore where
  bank : BankState
  entries : PerBank (List ClassEntry)
  calendar : List MonthEntry
  deriving DecidableEq, Repr

/-- The Tariff Unit. `before` is, in RECOVERING, its store records as the start looks found them, until a clock event has
been taken after them (R36, R40; log entry 6). -/
structure Tfu where
  bank : BankState
  entries : PerBank (List ClassEntry)
  calendar : List MonthEntry
  before : Option TfuStore
  deriving DecidableEq, Repr

/-! ## FLU -/

/-- The float record (R50). -/
structure FloatRecord where
  granted : Nat
  recalled : Nat
  consumed : Nat
  ceiling : Nat
  lowMark : Nat
  vendCap : Nat
  nextGrant : Nat
  nextSerial : Nat
  lastConsumed : PerCounter Nat
  deriving DecidableEq, Repr

/-- The fields of an ISSUING reservation entry (R60); the counter is the entry's place. -/
structure Sale where
  slot : Nat
  meter : Nat
  tag : Word
  money : Nat
  arrears : Nat
  net : Nat
  units : Nat
  allowanceDue : Bool
  allowance : Nat
  month : Nat
  generation : Nat
  carry : Nat
  monthUnits : Nat
  plan : List PlannedToken
  deriving DecidableEq, Repr

/-- The commit image (R64): the serial, the sale and the issued tokens; the record and till values are read off them. -/
structure Image where
  serial : Nat
  sale : Sale
  tokens : List Token
  deriving DecidableEq, Repr

/-- A reservation entry (R60). -/
inductive Entry where
  | free
  | issuing (sale : Sale)
  | sealed (image : Image)
  deriving DecidableEq, Repr

/-- The claims on FLU that may need a store write (R52). -/
inductive FloatClaim where
  | reserve (c : Counter) (sale : Sale)
  | release (c : Counter)
  | seal (c : Counter) (tokens : List Token)
  | floatPart (c : Counter)
  | free (c : Counter)
  | grant (n a : Nat)
  | recall (n a : Nat)
  | terms (ceiling lowMark vendCap : Nat)
  deriving DecidableEq, Repr

/-- The store records of FLU: the float record and the reservation entries (R50, R60). -/
structure FloatStore where
  record : FloatRecord
  entries : PerCounter Entry
  deriving DecidableEq, Repr

/-- The Float Unit. `before` is, while a recovery pass runs, its store records as the pass found them (R70; log entry
6). -/
structure Flu where
  record : FloatRecord
  entries : PerCounter Entry
  nextSerial : Nat
  lowWater : Nat
  writing : Option FloatClaim
  queue : List FloatClaim
  before : Option FloatStore
  deriving DecidableEq, Repr

/-- The float level (R58). -/
inductive FloatLevel where
  | ok | low | empty
  deriving DecidableEq, Repr

/-! ## TKE -/

/-- A token job (R72). -/
structure Job where
  owner : Holder
  kind : TokenKind
  meter : Nat
  ref : KeyRef
  stamp : Nat
  payload : Nat
  deriving DecidableEq, Repr

/-- The job in work, with the key and key half TKE took for it (R75) and its discard mark (R77). -/
structure Work where
  job : Job
  key : BitVec 60
  half : BitVec 30
  discard : Bool
  deriving DecidableEq, Repr

/-- The engine states (R74). -/
inductive EngineState where
  | idle | working | halted
  deriving DecidableEq, Repr

/-- The Token Engine and time base. -/
structure Tke where
  queue : List Job
  engine : EngineState
  work : Option Work
  clockValid : Bool
  minute : Nat
  sinceUp : Nat
  counting : Bool
  deriving DecidableEq, Repr

/-! ## VNC -/

/-- The context states (R93, R95). -/
inductive CtxState where
  | idle | parked | issuing | sealed | committing | replying
  deriving DecidableEq, Repr

/-- What a context's request asks for: a VEND, or an office issue (R93, R129). -/
inductive Task where
  | vend
  | keyrollOnly
  | clearTamper
  | setLimit (watts : Nat)
  deriving DecidableEq, Repr

/-- A context's request (R93). `money` is 0 for the office issues, which carry none. -/
structure CtxRequest where
  tag : Word
  meter : Nat
  money : Nat
  task : Task
  deriving DecidableEq, Repr

/-- The record view that ADIR gives with a hold (R98, R110). -/
structure RecordView where
  number : Nat
  slot : Nat
  status : MeterStatus
  refer : Option Nat
  supplyClass : Nat
  arrears : Option Arrears
  monthNumber : Nat
  monthUnits : Nat
  allowanceMonth : Option Nat
  carry : Nat
  lastStamp : Nat
  rollGeneration : Option Nat
  deriving DecidableEq, Repr

/-- A PRICED result (R43). -/
structure PriceResult where
  month : Nat
  generation : Nat
  arrears : Nat
  net : Nat
  allowance : Nat
  units : Nat
  carry : Nat
  monthUnits : Nat
  deriving DecidableEq, Repr

/-- The stop marks (R93). -/
inductive StopMark where
  | cancel | engineReset
  deriving DecidableEq, Repr

/-- The claim a context has outstanding, whose row completes it (R115). `hold` is a hold claim that waits for a write of its
record under way (R2). -/
inductive Await where
  | nothing | hold | grant | handover | reserve | tokens | release | seal | recordPart | floatPart | tillPart | free
  | officeCommit
  deriving DecidableEq, Repr

/-- A vend context (R93), the office context among them (R95). -/
structure Ctx where
  state : CtxState
  request : Option CtxRequest
  slot : Option Nat
  view : Option RecordView
  price : Option PriceResult
  stamps : List Nat
  plan : List PlannedToken
  returns : List Token
  serial : Option Nat
  stop : Option StopMark
  reply : Option Reply
  await : Await
  attached : Bool
  replyPending : Bool
  releasePending : Bool
  deriving DecidableEq, Repr

/-- The IDLE context: every field absent (R93). -/
def Ctx.idle : Ctx where
  state := .idle
  request := none
  slot := none
  view := none
  price := none
  stamps := []
  plan := []
  returns := []
  serial := none
  stop := none
  reply := none
  await := .nothing
  attached := false
  replyPending := false
  releasePending := false

/-- A park list entry (R108). Its 30 s timer runs while it stands in the list (R109). -/
structure ParkEntry where
  holder : Holder
  slot : Nat
  minute : Nat
  holderAtParking : Holder
  deriving DecidableEq, Repr

/-- The Vend Controller. -/
structure Vnc where
  ctxs : PerHolder Ctx
  park : List ParkEntry
  deriving DecidableEq, Repr

/-! ## TLU -/

/-- The till states (R137). -/
inductive TillState where
  | closed | opened | paused
  deriving DecidableEq, Repr

/-- An outcome's result (R144). -/
inductive OutcomeResult where
  | done | abandoned
  deriving DecidableEq, Repr

/-- An undelivered outcome (R144). -/
structure Outcome where
  result : OutcomeResult
  serial : Nat
  tag : Word
  meter : Nat
  money : Nat
  generation : Nat
  tokens : List Token
  deriving DecidableEq, Repr

/-- A till record (R137). -/
structure Till where
  state : TillState
  clerk : Nat
  openedMinute : Nat
  vends : Nat
  cash : Nat
  units : Nat
  allowance : Nat
  arrears : Nat
  lastSerial : Nat
  outcome : Option Outcome
  deriving DecidableEq, Repr

/-- A till part write under way: the record it replaces, and whether it found the till CLOSED (R142). `settled` as for
`RecordWrite`. -/
structure TillPartWrite where
  old : Till
  late : Bool
  settled : Bool
  deriving DecidableEq, Repr

/-- The functions of a line pair (R147). -/
inductive LineFunction where
  | general | drawer
  deriving DecidableEq, Repr

/-- The four settings of a line (R147). -/
structure LineSettings where
  output : Bool
  data : Bool
  pullUp : Bool
  floating : Bool
  deriving DecidableEq, Repr

/-- The drawer states (R147). -/
inductive DrawerState where
  | shut | released | opened
  deriving DecidableEq, Repr

/-- A counter's line state (R147): function, settings, drawer state, whether its pulse and its two timers run, the
counted level of DRW_IN, and the filter: the pin level, whether the 20 ms run, and whether no level has been counted since
the filter restarted (R149). `outside` is the level that something outside last put on DRW_IN, and none before the first
(R148; log entry 8). -/
structure LinePair where
  function : LineFunction
  out : LineSettings
  inp : LineSettings
  drawer : DrawerState
  pulse : Bool
  stuck : Bool
  long : Bool
  counted : Bool
  pin : Bool
  outside : Option Bool
  timing : Bool
  fresh : Bool
  deriving DecidableEq, Repr

/-- The write of an outcome's store in a till, which may be under way (R144, R146; log entry 6): the outcome that it
replaces, whether something has found it completed, and whether a read has found it not completed. -/
structure OutcomeStore where
  old : Option Outcome
  settled : Bool
  readOld : Bool
  deriving DecidableEq, Repr

/-- The Till Unit. `part` is the till part write under way; `closing` is, while a TILL_CLOSE write is under way, the state
the till had before it (R141; log entry 7); `removing` is, while an outcome's removal may be under way, that outcome (R145);
`storing` is, for the tills in which the last event to store several outcomes stored one, that write (R146; log entry 6);
`before` is, while a recovery pass runs, the tills as the pass found them (R70; log entry 6). -/
structure Tlu where
  tills : PerCounter Till
  part : PerCounter (Option TillPartWrite)
  closing : PerCounter (Option TillState)
  removing : PerCounter (Option Outcome)
  storing : PerCounter (Option OutcomeStore)
  lines : PerCounter LinePair
  before : Option (PerCounter Till)
  deriving DecidableEq, Repr

/-! ## ULC -/

/-- The line states (R158). -/
inductive LineState where
  | off | detect | train | up | slip
  deriving DecidableEq, Repr

/-- The detected rates (R156). -/
inductive Rate where
  | none | r2400 | r4800 | r9600 | r19200 | outOfRange
  deriving DecidableEq, Repr

/-- The service modes (R166). -/
inductive ServiceMode where
  | normal | capped | halt
  deriving DecidableEq, Repr

/-- An entry of the upward queue, with its body as built (R170). A SWEEP_PAGE holds its summaries of 88 bytes; each is sent
as one parcel (R212). -/
inductive UpEntry where
  | answer (body : List Byte)
  | floatReport (body : List Byte)
  | sweepPage (next remaining : Nat) (summaries : List (List Byte))
  | sweepEnd (next sent : Nat)
  deriving DecidableEq, Repr

/-- An instruction taken from the line: its kind byte and its body (R173). -/
structure LineInstr where
  kind : Nat
  body : List Byte
  deriving DecidableEq, Repr

/-- Where a dispatched instruction stands: waiting for its owner to decide it, waiting at its owner for a write under way,
or answered (R174). -/
inductive DispatchPhase where
  | waiting
  | claimed
  | answered (code : AnswerCode) (echo detail : List Byte)
  deriving DecidableEq, Repr

/-- The instruction handed to its owner; `dropAnswer` is set by a give-up (R159). -/
structure Dispatched where
  instr : LineInstr
  phase : DispatchPhase
  dropAnswer : Bool
  deriving DecidableEq, Repr

/-- A sweep page under construction (R177): the summaries read for it and the slot after the last one examined. -/
structure SweepPage where
  summaries : List (List Byte)
  after : Nat
  deriving DecidableEq, Repr

/-- The sweep (R176 to R178). `placed` says that the arbiter has reserved the place of its page or of its SWEEP_END
(R172). -/
structure Sweep where
  active : Bool
  next : Nat
  remaining : Nat
  page : Option SweepPage
  sent : Nat
  placed : Bool
  deriving DecidableEq, Repr

/-- No sweep: inactive (R181), its numbers 0 by choice, at a start (log entry 3) and after a cancel (log entry 36). -/
def Sweep.inactive : Sweep := ⟨false, 0, 0, none, 0, false⟩

/-- The office number and the up-nibble that an upward parcel carries, as they stood when its transmission began (R168). -/
structure Heading where
  office : Nat
  nibble : BitVec 4
  deriving DecidableEq, Repr

/-- A transmission under way: the heading of the parcel being sent, and those of the parts of its sweep page that have been
sent before it, oldest first (R212). -/
structure Transmission where
  now : Heading
  sent : List Heading
  deriving DecidableEq, Repr

/-- A claim on ULC's store record that waits for a write of it (R166, R164). -/
inductive RecordClaim where
  | mode (m : ServiceMode)
  | holdover (limit : Nat)
  deriving DecidableEq, Repr

/-- The Utility Link Controller. `reportPlaced` says that the arbiter has given the owed report a place, which it takes when
it joins the queue (R172). `noneTold` says that a parcel begun since the last removal of an outcome has told that no till
holds one (R145, R168; log entry 6). -/
structure Ulc where
  line : LineState
  linkEnable : Bool
  rate : Rate
  carrier : Bool
  good : Nat
  bad : Nat
  lastNibble : Option (BitVec 4)
  office : Option Nat
  mode : ServiceMode
  holdover : Nat
  recordWrite : Option ServiceMode
  recordClaims : List RecordClaim
  queue : List UpEntry
  reserved : Nat
  list : List LineInstr
  dispatched : Option Dispatched
  reportOwed : Bool
  reportPlaced : Bool
  sweep : Sweep
  assembly : List Byte
  tx : Option Transmission
  lastSent : List (List Byte)
  noneTold : Bool
  deriving DecidableEq, Repr

/-! ## RGI -/

/-- The ring states (R184). -/
inductive RingState where
  | stopped | initialising | ready | running | stopping | faulted
  deriving DecidableEq, Repr

/-- The INIT_FAULT reasons (R186, 11.2). -/
inductive InitReason where
  | none | office | window | blockOutside | poll | count | ringOutside | overlap | blockRead
  deriving DecidableEq, Repr

/-- A ring's place in host memory (R185). -/
structure RingPlace where
  base : Nat
  count : Nat
  deriving DecidableEq, Repr

/-- The init copy (R185, 11.3). The window base and size are in units of 4 KB. -/
structure InitCopy where
  office : Nat
  poll : Nat
  windowBase : Nat
  windowSize : Nat
  rings : PerHolder RingPlace
  deriving DecidableEq, Repr

/-- A request as RGI took it from a descriptor: its ring, kind byte, tag and the 88-byte area (11.4). -/
structure Request where
  ring : Holder
  kind : Byte
  tag : Word
  area : List Byte
  deriving DecidableEq, Repr

/-- Who is told when a reply has been written or is undeliverable (R190): the ring's vend context, TLU for an OUTCOME_TAKE
or a TILL_CLOSE, or nobody. -/
inductive ReplyOwner where
  | nobody
  | context
  | outcome (c : Counter) (o : Outcome)
  | closing (c : Counter)
  deriving DecidableEq, Repr

/-- Where a request in service stands: waiting for its owner to take it, at its owner, or its reply being written. -/
inductive ServicePhase where
  | waiting
  | atOwner
  | replying (owner : ReplyOwner) (reply : Reply)
  deriving DecidableEq, Repr

/-- A request in service (R189). -/
structure Service where
  request : Request
  phase : ServicePhase
  deriving DecidableEq, Repr

/-- A ring (09_request_rings.md, the list at its head). -/
structure Ring where
  cursor : Nat
  halted : Bool
  fault : Bool
  poll : Bool
  service : Option Service
  deriving DecidableEq, Repr

/-- The ring right after reset (R197). -/
def Ring.reset : Ring := ⟨0, false, false, false, none⟩

/-- An access waiting for the host bus (R191). A look stands for its owner read and the fetch that follows it (log entry
12); the init block read stands for its 32 word reads. -/
inductive Access where
  | look (ring : Holder)
  | reply (ring : Holder)
  | initBlock
  deriving DecidableEq, Repr

/-- A reply written to host memory: the descriptor's address and its 96 bytes (R190, R210). -/
structure HostWrite where
  address : Nat
  bytes : List Byte
  deriving DecidableEq, Repr

/-- The Ring Interface. -/
structure Rgi where
  state : RingState
  windowIndex : Word
  initAddr : Word
  mask : BitVec 9
  initWaiting : Bool
  faultReason : InitReason
  faultRing : Nat
  copy : Option InitCopy
  rings : PerHolder Ring
  bus : List Access
  orphans : List Request
  lastWrite : Option HostWrite
  readData : Word
  deriving DecidableEq, Repr

/-! ## ATC -/

/-- The start phases (R205). -/
inductive StartPhase where
  | clearing | recovering | inService
  deriving DecidableEq, Repr

/-- The commissioning mark (R205). -/
inductive Mark where
  | clearing | commissioned
  deriving DecidableEq, Repr

/-- The part held in reset (R204); `supplyLost` says that the main supply was lost since the part was last running. -/
structure Held where
  supplyLost : Bool
  deriving DecidableEq, Repr

/-- The Attention Controller, the block status and enable words, and the control inputs. -/
structure Atc where
  status : PerBlock Word
  enable : PerBlock Word
  summaryEnable : Word
  phase : StartPhase
  clearRun : Bool
  backupLost : Bool
  mark : Mark
  held : Option Held
  vbakUp : Bool
  vbakHeld : Bool
  deriving DecidableEq, Repr

/-! ## The whole part -/

/-- The state of the part, the commands waiting (first in, first out), and the count of free values drawn (log entry 4). -/
structure State where
  adir : Adir
  tfu : Tfu
  flu : Flu
  tke : Tke
  vnc : Vnc
  tlu : Tlu
  ulc : Ulc
  rgi : Rgi
  atc : Atc
  draws : Nat
  pending : List Instr
  deriving DecidableEq, Repr

/-- Why a step stops. -/
inductive Fault where
  /-- Raised by the meanings of RING_LOOK, INIT_BLOCK_READ_DONE and PARCEL_RECEIVE for an operand that is not a thing the
  spec has (a descriptor that is not 96 bytes, an init block that is not 128 bytes, a parcel of no bytes or of more bytes
  than a parcel holds). Safe: no such event reaches the part. -/
  | illFormed
  deriving DecidableEq, Repr

/-- Why a command has no meaning. -/
inductive Refusal where
  /-- Raised by an arm of exec whose command has no meaning yet. Safe: the model stops where the part goes on. -/
  | notModelled (mnemonic : String)
  deriving DecidableEq, Repr

/-! ## The state right after reset -/

/-- The closed class entry of a commissioning clear (R49): one block of price 1, allowance 0. -/
def ClassEntry.cleared : ClassEntry := ⟨false, [⟨1, none⟩], 0⟩

/-- TFU after a commissioning clear (R49). -/
def Tfu.cleared : Tfu where
  bank := ⟨.a, ⟨0, 0⟩, ⟨0, 0⟩, none⟩
  entries := ⟨List.replicate 16 ClassEntry.cleared, List.replicate 16 ClassEntry.cleared⟩
  calendar := []
  before := none

/-- FLU after a commissioning clear (R71). -/
def Flu.cleared : Flu where
  record := ⟨0, 0, 0, 0, 0, 0, 1, 1, PerCounter.fill 0⟩
  entries := PerCounter.fill .free
  nextSerial := 1
  lowWater := 0
  writing := none
  queue := []
  before := none

/-- A till after a commissioning clear (R146). -/
def Till.cleared : Till := ⟨.closed, 1, 0, 0, 0, 0, 0, 0, 0, none⟩

/-- The reset settings of a line (R155). -/
def LineSettings.reset : LineSettings := ⟨false, true, true, false⟩

/-- A line pair after a reset (R155, R149): every filter starts afresh and every counted level is high. DRW_IN is an input
with its pull-up on, so its pin is at the level that something outside puts on it, or high. -/
def LinePair.reset (outside : Option Bool) : LinePair where
  function := .general
  out := LineSettings.reset
  inp := LineSettings.reset
  drawer := .shut
  pulse := false
  stuck := false
  long := false
  counted := true
  pin := outside.getD true
  outside := outside
  timing := true
  fresh := true

/-- TLU after a commissioning clear (R146, R155). -/
def Tlu.cleared : Tlu where
  tills := PerCounter.fill Till.cleared
  part := PerCounter.fill none
  closing := PerCounter.fill none
  removing := PerCounter.fill none
  storing := PerCounter.fill none
  lines := PerCounter.fill (LinePair.reset none)
  before := none

/-- VNC after every reset (R121). -/
def Vnc.reset : Vnc := ⟨PerHolder.fill Ctx.idle, []⟩

/-- TKE after a commissioning clear (R79, R88, R91). -/
def Tke.cleared : Tke := ⟨[], .idle, none, false, 0, 16777215, true⟩

/-- ULC after a commissioning clear (R181). -/
def Ulc.cleared : Ulc where
  line := .off
  linkEnable := false
  rate := .none
  carrier := false
  good := 0
  bad := 0
  lastNibble := none
  office := none
  mode := .normal
  holdover := 4320
  recordWrite := none
  recordClaims := []
  queue := []
  reserved := 0
  list := []
  dispatched := none
  reportOwed := false
  reportPlaced := false
  sweep := Sweep.inactive
  assembly := []
  tx := none
  lastSent := []
  noneTold := false

/-- RGI after power-up and the RESET pin (R197). -/
def Rgi.reset : Rgi where
  state := .stopped
  windowIndex := 0
  initAddr := 0
  mask := 0
  initWaiting := false
  faultReason := .none
  faultRing := 0
  copy := none
  rings := PerHolder.fill Ring.reset
  bus := []
  orphans := []
  lastWrite := none
  readData := 0

/-- ATC at the start of RECOVERING after a commissioning clear (R208): every status word is 0, then TARIFF status
CALENDAR_LOW (bit 2) is set (R49). -/
def Atc.cleared : Atc where
  status := { PerBlock.fill (0 : Word) with tariff := 4 }
  enable := PerBlock.fill 0
  summaryEnable := 0
  phase := .recovering
  clearRun := true
  backupLost := false
  mark := .commissioned
  held := none
  vbakUp := true
  vbakHeld := true

/-- The machine right after reset: the start of RECOVERING after a commissioning clear taken at the RESET pin (log entries
2 and 3). The next step of the part is RECOVERY_DONE. -/
def State.reset : State where
  adir := ⟨[], [], [], some []⟩
  tfu := { Tfu.cleared with before := some ⟨Tfu.cleared.bank, Tfu.cleared.entries, Tfu.cleared.calendar⟩ }
  flu := { Flu.cleared with before := some ⟨Flu.cleared.record, Flu.cleared.entries⟩ }
  tke := Tke.cleared
  vnc := Vnc.reset
  tlu := { Tlu.cleared with before := some Tlu.cleared.tills }
  ulc := Ulc.cleared
  rgi := Rgi.reset
  atc := Atc.cleared
  draws := 0
  pending := []

end Sys2Proof.Machine
end

