-- ==== Sys2Proof/Machine/Ops.lean ====
section
/-! DEFINITION. The shared operations: limits, access to the things there are eight or nine of, one update per unit of the
state, byte order, free values, and the phases in which the part takes events. -/

namespace Sys2Proof

/-! ## Names of the eight counters and nine holders -/

/-- C0 to C7 in order. -/
def Counter.all : List Counter := [.c0, .c1, .c2, .c3, .c4, .c5, .c6, .c7]

/-- The holders, rings or contexts in order: C0 to C7, then the office. -/
def Holder.all : List Holder := Counter.all.map Holder.counter ++ [.office]

/-- The number of a counter. -/
def Counter.index : Counter → Nat
  | .c0 => 0 | .c1 => 1 | .c2 => 2 | .c3 => 3 | .c4 => 4 | .c5 => 5 | .c6 => 6 | .c7 => 7

/-- The number of a holder or ring: 0 to 7, and 8 for the office (11.2, 11.5). -/
def Holder.index : Holder → Nat
  | .counter c => c.index
  | .office => 8

/-- The counter of a number (R138: a number above 7 names none). -/
def Counter.numbered : Nat → Option Counter
  | 0 => some .c0 | 1 => some .c1 | 2 => some .c2 | 3 => some .c3
  | 4 => some .c4 | 5 => some .c5 | 6 => some .c6 | 7 => some .c7
  | _ => none

/-- The holder of a number (11.2, CANCEL: 8 is OFFICE, and a larger number names none). -/
def Holder.numbered (n : Nat) : Option Holder :=
  if n = 8 then some .office else (Counter.numbered n).map Holder.counter

end Sys2Proof

namespace Sys2Proof.Machine

/-- What one step answers. -/
abbrev Out := Host.Outcome State Fault Refusal

/-! ## Limits (R1, R4, R50, R87, R137) -/

/-- The largest minute and the largest stamp (R72, R87). -/
def maxMinute : Nat := 16777215

/-- The number of meter slots (R1). -/
def slotCount : Nat := 16384

/-- The largest 32-bit number (R4, R50). -/
def max32 : Nat := 4294967295

/-- The largest 64-bit number (R137). -/
def max64 : Nat := 18446744073709551615

/-- The largest meter number (01_meter_accounts.md 1.2). -/
def maxMeter : Nat := 99999999999

/-- The largest credited amount (R47). -/
def maxUnits : Nat := 131071

/-- The largest vend serial and grant number given out (R56, R63). -/
def maxSerial : Nat := 4294967294

/-- A meter number in range (R19). -/
def meterOk (m : Nat) : Bool := decide (1 ≤ m) && decide (m ≤ maxMeter)

/-! ## Counters, holders, banks, blocks -/

/-- What a counter has. -/
def PerCounter.get {α : Type} (p : PerCounter α) : Counter → α
  | .c0 => p.c0 | .c1 => p.c1 | .c2 => p.c2 | .c3 => p.c3
  | .c4 => p.c4 | .c5 => p.c5 | .c6 => p.c6 | .c7 => p.c7

/-- Give a counter another one. -/
def PerCounter.set {α : Type} (p : PerCounter α) (c : Counter) (a : α) : PerCounter α :=
  match c with
  | .c0 => { p with c0 := a } | .c1 => { p with c1 := a } | .c2 => { p with c2 := a } | .c3 => { p with c3 := a }
  | .c4 => { p with c4 := a } | .c5 => { p with c5 := a } | .c6 => { p with c6 := a } | .c7 => { p with c7 := a }

/-- Change every counter's. -/
def PerCounter.map {α β : Type} (f : α → β) (p : PerCounter α) : PerCounter β :=
  ⟨f p.c0, f p.c1, f p.c2, f p.c3, f p.c4, f p.c5, f p.c6, f p.c7⟩

/-- All eight, in counter order. -/
def PerCounter.toList {α : Type} (p : PerCounter α) : List α := [p.c0, p.c1, p.c2, p.c3, p.c4, p.c5, p.c6, p.c7]

/-- What a holder has. -/
def PerHolder.get {α : Type} (p : PerHolder α) : Holder → α
  | .counter c => p.counters.get c
  | .office => p.office

/-- Give a holder another one. -/
def PerHolder.set {α : Type} (p : PerHolder α) (h : Holder) (a : α) : PerHolder α :=
  match h with
  | .counter c => { p with counters := p.counters.set c a }
  | .office => { p with office := a }

/-- Change every holder's. -/
def PerHolder.map {α β : Type} (f : α → β) (p : PerHolder α) : PerHolder β := ⟨p.counters.map f, f p.office⟩

/-- All nine, in order. -/
def PerHolder.toList {α : Type} (p : PerHolder α) : List α := p.counters.toList ++ [p.office]

/-- The other bank. -/
def Bank.other : Bank → Bank
  | .a => .b
  | .b => .a

/-- What a bank has. -/
def PerBank.get {α : Type} (p : PerBank α) : Bank → α
  | .a => p.a
  | .b => p.b

/-- Give a bank another one. -/
def PerBank.set {α : Type} (p : PerBank α) (k : Bank) (x : α) : PerBank α :=
  match k with
  | .a => { p with a := x }
  | .b => { p with b := x }

/-- A block's word. -/
def PerBlock.get {α : Type} (p : PerBlock α) : Block → α
  | .ring => p.ring | .vend => p.vend | .float => p.float | .tariff => p.tariff
  | .time => p.time | .till => p.till | .link => p.link

/-- Give a block another word. -/
def PerBlock.set {α : Type} (p : PerBlock α) (b : Block) (x : α) : PerBlock α :=
  match b with
  | .ring => { p with ring := x } | .vend => { p with vend := x } | .float => { p with float := x }
  | .tariff => { p with tariff := x } | .time => { p with time := x } | .till => { p with till := x }
  | .link => { p with link := x }

/-! ## One update per unit of the state -/

/-- Change ADIR. -/
def State.mapAdir (s : State) (f : Adir → Adir) : State := { s with adir := f s.adir }
/-- Change TFU. -/
def State.mapTfu (s : State) (f : Tfu → Tfu) : State := { s with tfu := f s.tfu }
/-- Change FLU. -/
def State.mapFlu (s : State) (f : Flu → Flu) : State := { s with flu := f s.flu }
/-- Change TKE. -/
def State.mapTke (s : State) (f : Tke → Tke) : State := { s with tke := f s.tke }
/-- Change VNC. -/
def State.mapVnc (s : State) (f : Vnc → Vnc) : State := { s with vnc := f s.vnc }
/-- Change TLU. -/
def State.mapTlu (s : State) (f : Tlu → Tlu) : State := { s with tlu := f s.tlu }
/-- Change ULC. -/
def State.mapUlc (s : State) (f : Ulc → Ulc) : State := { s with ulc := f s.ulc }
/-- Change RGI. -/
def State.mapRgi (s : State) (f : Rgi → Rgi) : State := { s with rgi := f s.rgi }
/-- Change ATC. -/
def State.mapAtc (s : State) (f : Atc → Atc) : State := { s with atc := f s.atc }

/-- A holder's context. -/
def State.ctx (s : State) (h : Holder) : Ctx := s.vnc.ctxs.get h

/-- Change a holder's context. -/
def State.mapCtx (s : State) (h : Holder) (f : Ctx → Ctx) : State :=
  s.mapVnc fun v => { v with ctxs := v.ctxs.set h (f (v.ctxs.get h)) }

/-- A ring. -/
def State.ring (s : State) (r : Holder) : Ring := s.rgi.rings.get r

/-- Change a ring. -/
def State.mapRing (s : State) (r : Holder) (f : Ring → Ring) : State :=
  s.mapRgi fun g => { g with rings := g.rings.set r (f (g.rings.get r)) }

/-- A counter's till record. -/
def State.till (s : State) (c : Counter) : Till := s.tlu.tills.get c

/-- Change a counter's till record. -/
def State.mapTill (s : State) (c : Counter) (f : Till → Till) : State :=
  s.mapTlu fun t => { t with tills := t.tills.set c (f (t.tills.get c)) }

/-- A counter's line pair. -/
def State.lines (s : State) (c : Counter) : LinePair := s.tlu.lines.get c

/-- Change a counter's line pair. -/
def State.mapLines (s : State) (c : Counter) (f : LinePair → LinePair) : State :=
  s.mapTlu fun t => { t with lines := t.lines.set c (f (t.lines.get c)) }

/-- Apply a change for each holder in order. -/
def forHolders (f : Holder → State → State) (s : State) : State := Holder.all.foldl (fun s h => f h s) s

/-- Apply a change for each counter in order. -/
def forCounters (f : Counter → State → State) (s : State) : State := Counter.all.foldl (fun s c => f c s) s

/-! ## Free values -/

/-- Draw a free bit (log entry 4). -/
def State.freeBit (s : State) : Bool := Config.freeBit s.draws

/-- The state after a draw. -/
def State.drawn (s : State) : State := { s with draws := s.draws + 1 }

/-! ## Byte order (R209) -/

/-- A little-endian number. -/
def leNat : List Byte → Nat
  | [] => 0
  | b :: rest => b.toNat + 256 * leNat rest

/-- A big-endian number. -/
def beNat (bytes : List Byte) : Nat := leNat bytes.reverse

/-- The n low bytes of a number, least significant first. -/
def leBytes : Nat → Nat → List Byte
  | 0, _ => []
  | n + 1, v => BitVec.ofNat 8 v :: leBytes n (v / 256)

/-- The n low bytes of a number, most significant first. -/
def beBytes (n v : Nat) : List Byte := (leBytes n v).reverse

/-- The bytes `off` to `off + n - 1`. -/
def slice (bytes : List Byte) (off n : Nat) : List Byte := (bytes.drop off).take n

/-- The byte at an offset; 0 past the end. -/
def byteAt (bytes : List Byte) (off : Nat) : Nat := (bytes.getD off 0).toNat

/-- Fill with zero bytes up to a length (R210). -/
def padTo (n : Nat) (bytes : List Byte) : List Byte := bytes ++ List.replicate (n - bytes.length) 0

/-- A bit as a number. -/
def bit (b : Bool) : Nat := if b then 1 else 0

/-! ## Phases -/

/-- The part runs and is past CLEARING: its window is served, its timers and its blocks act (R204, R205). -/
def State.live (s : State) : Bool := s.atc.held.isNone && decide (s.atc.phase ≠ .clearing)

/-- The recovery pass has ended: ADIR, FLU and TLU take their claims (R2, R52, R137, R205). -/
def State.inService (s : State) : Bool := s.atc.held.isNone && decide (s.atc.phase = .inService)

/-- An event that the part takes once it is past CLEARING. Held in reset or CLEARING, it has no effect (R204, R205). -/
def whenLive (f : State → State) (s : State) : Out := .next (if s.live then f s else s)

/-- An event that the part takes once the recovery pass has ended. -/
def whenInService (f : State → State) (s : State) : Out := .next (if s.inService then f s else s)

end Sys2Proof.Machine
end

