-- ==== Sys2Proof/Machine/Flags.lean ====
section
/-! DEFINITION. The block status and enable words, the attention summary and ATTN (Chapter 10, 11.2). -/

namespace Sys2Proof

/-- The position of a block in the summary and in SUMMARY_ENABLE (11.2). -/
def Block.pos : Block → Nat
  | .ring => 0 | .vend => 1 | .float => 2 | .tariff => 3 | .time => 4 | .till => 5 | .link => 6

/-- The seven blocks. -/
def Block.all : List Block := [.ring, .vend, .float, .tariff, .time, .till, .link]

end Sys2Proof

namespace Sys2Proof.Machine

/-- The status bits (the table of 10.1). -/
inductive Status where
  | initDone | initFault | stopped | writeRefused | busFault | ringFault (r : Holder)
  | cancelLate | outcomeStored
  | grantTaken | floatLow | floatEmpty | recoveryDone
  | disarmed | applied | calendarLow | monthChanged | monthLost
  | clockValid | clockBack | clockEnd | engineHalted | holdoverPassed
  | drawerStuck (c : Counter) | drawerLong (c : Counter) | drawerForced (c : Counter) | lateCount (c : Counter)
  | enteredOff | enteredDetect | enteredTrain | enteredUp | enteredSlip | backlog | serviceChanged
  deriving DecidableEq, Repr

/-- The block that owns a status bit (10.1). -/
def Status.block : Status → Block
  | .initDone | .initFault | .stopped | .writeRefused | .busFault | .ringFault _ => .ring
  | .cancelLate | .outcomeStored => .vend
  | .grantTaken | .floatLow | .floatEmpty | .recoveryDone => .float
  | .disarmed | .applied | .calendarLow | .monthChanged | .monthLost => .tariff
  | .clockValid | .clockBack | .clockEnd | .engineHalted | .holdoverPassed => .time
  | .drawerStuck _ | .drawerLong _ | .drawerForced _ | .lateCount _ => .till
  | .enteredOff | .enteredDetect | .enteredTrain | .enteredUp | .enteredSlip | .backlog | .serviceChanged => .link

/-- The bit position of a status bit in its word (11.2). -/
def Status.pos : Status → Nat
  | .initDone => 0 | .initFault => 1 | .stopped => 2 | .writeRefused => 3 | .busFault => 4
  | .ringFault r => 8 + r.index
  | .cancelLate => 0 | .outcomeStored => 1
  | .grantTaken => 0 | .floatLow => 1 | .floatEmpty => 2 | .recoveryDone => 3
  | .disarmed => 0 | .applied => 1 | .calendarLow => 2 | .monthChanged => 3 | .monthLost => 4
  | .clockValid => 0 | .clockBack => 1 | .clockEnd => 2 | .engineHalted => 3 | .holdoverPassed => 4
  | .drawerStuck c => 4 * c.index | .drawerLong c => 4 * c.index + 1
  | .drawerForced c => 4 * c.index + 2 | .lateCount c => 4 * c.index + 3
  | .enteredOff => 0 | .enteredDetect => 1 | .enteredTrain => 2 | .enteredUp => 3 | .enteredSlip => 4
  | .backlog => 5 | .serviceChanged => 6

/-- A status bit as a mask of its word. -/
def Status.mask (b : Status) : Word := 1#32 <<< b.pos

/-- The positions of a block's word that name a status (R198, 11.2). -/
def namedBits : Block → Word
  | .ring => 0x0001FF1F
  | .vend => 0x00000003
  | .float => 0x0000000F
  | .tariff => 0x0000001F
  | .time => 0x0000001F
  | .till => 0xFFFFFFFF
  | .link => 0x0000007F

/-- Set a status bit; a bit already set stays set (R198). -/
def State.raise (s : State) (b : Status) : State :=
  s.mapAtc fun a => { a with status := a.status.set b.block (a.status.get b.block ||| b.mask) }

/-- Set a status bit when a condition holds. -/
def State.raiseIf (s : State) (p : Bool) (b : Status) : State := if p then s.raise b else s

/-- Clear the bits of a block's status word that a write carries as 1 (R198). -/
def State.clearBits (s : State) (b : Block) (v : Word) : State :=
  s.mapAtc fun a => { a with status := a.status.set b (a.status.get b &&& ~~~v) }

/-- Whether a status bit is set. -/
def State.has (s : State) (b : Status) : Bool := (s.atc.status.get b.block).getLsbD b.pos

/-- A block's bit of the attention summary (R200). -/
def State.summaryBit (s : State) (b : Block) : Bool :=
  decide (s.atc.status.get b &&& s.atc.enable.get b ≠ 0)

/-- ATTN (R201): inactive in reset and in CLEARING, else active while a summary bit is 1 with its SUMMARY_ENABLE bit 1. -/
def State.attn (s : State) : Bool :=
  s.live && Block.all.any fun b => s.summaryBit b && s.atc.summaryEnable.getLsbD b.pos

/-- What a read of ATTENTION_SUMMARY returns (R200, 11.2); none while the part is held in reset and answers no access
(R204). In CLEARING a read returns 0 (R205). -/
def State.attentionWord (s : State) : Option Word :=
  if s.atc.held.isSome then none
  else if s.atc.phase = .clearing then some 0
  else some
    (Block.all.foldl (fun w b => if s.summaryBit b then w ||| (1#32 <<< b.pos) else w) 0 |||
      (if s.attn then 0x80000000 else 0))

/-- Replace a block's enable word; positions that name no status are ignored (R199). -/
def State.setEnable (s : State) (b : Block) (v : Word) : State :=
  s.mapAtc fun a => { a with enable := a.enable.set b (v &&& namedBits b) }

/-- Replace SUMMARY_ENABLE; positions that name no block are ignored (R201). -/
def State.setSummaryEnable (s : State) (v : Word) : State := s.mapAtc fun a => { a with summaryEnable := v &&& 0x7F }

/-- RING status WRITE_REFUSED (R183). -/
def State.refuse (s : State) : State := s.raise .writeRefused

/-! ## Codes (11.4, 11.6) -/

/-- The code of a result (11.4). -/
def ResultCode.code : ResultCode → Nat
  | .done => 0 | .noMeter => 1 | .meterSuspended => 2 | .meterRetired => 3 | .referOffice => 4 | .tillClosed => 5
  | .tillPaused => 6 | .drawerOpen => 7 | .outcomePending => 8 | .salesHalted => 9 | .overCap => 10 | .linkStale => 11
  | .clockUnset => 12 | .monthUnknown => 13 | .classClosed => 14 | .tooSmall => 15 | .amountRange => 16
  | .floatShort => 17 | .stampAhead => 18 | .stampExhausted => 19 | .holdTimeout => 20 | .cancelled => 21
  | .engineReset => 22 | .badRequest => 23 | .counterBusy => 24 | .notPermitted => 25

/-- The code of an answer (11.6). -/
def AnswerCode.code : AnswerCode → Nat
  | .accepted => 0 | .duplicate => 1 | .outOfOrder => 2 | .overCeiling => 3 | .exists_ => 4 | .absent => 5
  | .recordBusy => 6 | .storeFull => 7 | .badField => 8 | .incomplete => 9 | .notArmed => 10 | .staleGeneration => 11

/-- A reply with no reply fields (R210). -/
def Reply.plain (c : ResultCode) : Reply := ⟨c, []⟩

end Sys2Proof.Machine
end

