-- ==== Sys2Proof/Machine/Operands.lean ====
section
/-! DEFINITION. The forms of what reaches the part: request descriptors, the init block, and instruction bodies; and the
forms shared by what it writes (Chapter 11). -/

namespace Sys2Proof.Machine

/-! ## Request descriptors (11.4) -/

/-- The eighteen request kinds (R189). -/
inductive ReqKind where
  | vend | quote | reprint | lookup | referSet | referClear | engineer | keyrollOnly | tillOpen | tillPause
  | tillResume | tillClose | tillRead | outcomeTake | lineSet | lineRead | clockSet | clockRead
  deriving DecidableEq, Repr

/-- The kind codes (11.4). -/
def ReqKind.code : ReqKind → Nat
  | .vend => 0x01 | .quote => 0x02 | .reprint => 0x03 | .lookup => 0x04 | .referSet => 0x05 | .referClear => 0x06
  | .engineer => 0x07 | .keyrollOnly => 0x08 | .tillOpen => 0x09 | .tillPause => 0x0A | .tillResume => 0x0B
  | .tillClose => 0x0C | .tillRead => 0x0D | .outcomeTake => 0x0E | .lineSet => 0x0F | .lineRead => 0x10
  | .clockSet => 0x11 | .clockRead => 0x12

/-- The kinds in the order of their codes. -/
def ReqKind.all : List ReqKind :=
  [.vend, .quote, .reprint, .lookup, .referSet, .referClear, .engineer, .keyrollOnly, .tillOpen, .tillPause,
   .tillResume, .tillClose, .tillRead, .outcomeTake, .lineSet, .lineRead, .clockSet, .clockRead]

/-- The rings a kind is allowed on (R189). -/
def ReqKind.allowedOn : ReqKind → Holder → Bool
  | .vend, r | .quote, r | .reprint, r => decide (r ≠ .office)
  | .lookup, _ => true
  | _, r => decide (r = .office)

/-- A request is of a kind, on a ring the kind is allowed on. -/
def Request.is (q : Request) (k : ReqKind) : Bool := decide (q.kind.toNat = k.code) && k.allowedOn q.ring

/-- A request whose kind is not in the table, or not allowed on its ring (R189). -/
def Request.bad (q : Request) : Bool := ReqKind.all.all fun k => !q.is k

/-- The owner value PART (11.4). -/
def ownerPart : Byte := 0x01

/-- The request in a descriptor fetched from a ring (11.4). -/
def Request.parse (ring : Holder) (bytes : List Byte) : Request where
  ring := ring
  kind := bytes.getD 1 0
  tag := BitVec.ofNat 32 (leNat (slice bytes 4 4))
  area := slice bytes 8 88

/-- The meter number of a request: the first five bytes of its area. -/
def Request.meter (q : Request) : Nat := leNat (slice q.area 0 5)

/-- The money of a VEND or a QUOTE. -/
def Request.money (q : Request) : Nat := leNat (slice q.area 5 4)

/-- The counter byte of the till, outcome and line requests; a number above 7 names no counter (R138). -/
def Request.counter (q : Request) : Option Counter := Counter.numbered (byteAt q.area 0)

/-- The descriptor as a reply write leaves it (R190, R210): owner HOST, the kind byte as it was, the result, the echoed tag,
and the reply fields with every other byte of the area 0. -/
def Reply.descriptor (q : Request) (r : Reply) : List Byte :=
  [0x00, q.kind, BitVec.ofNat 8 r.code.code, 0x00] ++ leBytes 4 q.tag.toNat ++ padTo 88 r.fields

/-! ## Tokens in replies (11.4, 11.5) -/

/-- The code of a token kind (R82, R83). -/
def TokenKind.code : TokenKind → Nat
  | .credit => 0 | .allowance => 1 | .clearTamper => 2 | .setLimit => 3 | .keyroll1 => 4 | .keyroll2 => 5

/-- A token entry of a reply: 12 bytes. -/
def Token.entry (t : Token) : List Byte :=
  BitVec.ofNat 8 t.kind.code :: (leBytes 3 t.stamp ++ leBytes 8 t.value.toNat)

/-- An unused token entry: kind 0xFF. -/
def unusedEntry : List Byte := padTo 12 [0xFF]

/-- Reply fields that carry tokens: the head padded to byte 32 of the descriptor, then four token entries in issue order,
the unused places last. -/
def withTokens (head : List Byte) (tokens : List Token) : List Byte :=
  padTo 24 head ++ (tokens.take 4).flatMap Token.entry ++
    (List.replicate (4 - tokens.length) unusedEntry).flatten

/-! ## The init block (R185, R186, 11.3) -/

/-- The ring place in an init block. -/
def ringPlaceOf (bytes : List Byte) (r : Holder) : RingPlace where
  base := leNat (slice bytes (12 + 8 * r.index) 4)
  count := leNat (slice bytes (16 + 8 * r.index) 2)

/-- The init block read. -/
def InitCopy.parse (bytes : List Byte) : InitCopy where
  office := leNat (slice bytes 0 2)
  poll := byteAt bytes 2
  windowBase := leNat (slice bytes 4 4)
  windowSize := leNat (slice bytes 8 4)
  rings :=
    let p := fun c => ringPlaceOf bytes (.counter c)
    ⟨⟨p .c0, p .c1, p .c2, p .c3, p .c4, p .c5, p .c6, p .c7⟩, ringPlaceOf bytes .office⟩

/-- The host address space (R185): 32-bit addresses. -/
def hostTop : Nat := 4294967296

/-- The bytes `a` to `a + n - 1` all lie in the access window (R191). -/
def InitCopy.inWindow (k : InitCopy) (a n : Nat) : Bool :=
  decide (k.windowBase * 4096 ≤ a) && decide (a + n ≤ (k.windowBase + k.windowSize) * 4096)

/-- Ring places that share a byte. -/
def RingPlace.shares (p q : RingPlace) : Bool :=
  decide (p.base < q.base + q.count * 96) && decide (q.base < p.base + p.count * 96)

/-- The rings after a ring, in order. -/
def holdersAfter (r : Holder) : List Holder := Holder.all.filter fun x => decide (r.index < x.index)

/-- A ring shares a byte with a later one. -/
def InitCopy.sharesLater (k : InitCopy) (r : Holder) : Bool :=
  (holdersAfter r).any fun x => (k.rings.get r).shares (k.rings.get x)

/-- A ring's count is from 2 to 64. -/
def InitCopy.countOk (k : InitCopy) (r : Holder) : Bool :=
  decide (2 ≤ (k.rings.get r).count) && decide ((k.rings.get r).count ≤ 64)

/-- A ring's base is a multiple of 4 and its descriptors lie in the window. -/
def InitCopy.placeOk (k : InitCopy) (r : Holder) : Bool :=
  decide ((k.rings.get r).base % 4 = 0) && k.inWindow (k.rings.get r).base ((k.rings.get r).count * 96)

/-- The checks of R186 in order: none when every check passes, else the reason and the ring number it has (0 where it has
none). The pairs of rings are searched by their lower ring, from C0 up (log entry 25). -/
def InitCopy.fault (k : InitCopy) (initAddr : Nat) : Option (InitReason × Nat) :=
  if k.office = 0 then some (.office, 0)
  else if k.windowSize = 0 ∨ 1048576 < k.windowSize ∨ hostTop < (k.windowBase + k.windowSize) * 4096 then
    some (.window, 0)
  else if k.inWindow initAddr 128 = false then some (.blockOutside, 0)
  else if k.poll = 0 then some (.poll, 0)
  else match Holder.all.find? fun r => !k.countOk r with
  | some r => some (.count, r.index)
  | none =>
    match Holder.all.find? fun r => !k.placeOk r with
    | some r => some (.ringOutside, r.index)
    | none => (Holder.all.find? fun r => k.sharesLater r).map fun r => (.overlap, r.index)

/-! ## Instructions of the utility line (11.6) -/

/-- The instruction kinds (R173). -/
inductive LineKind where
  | enrol | amend | retire | keyroll | grant | recall | floatTerms | tariff | arm | disarm | months | time | holdover
  | sweep | floatQuery
  deriving DecidableEq, Repr

/-- The kind codes (11.6). -/
def LineKind.code : LineKind → Nat
  | .enrol => 0x01 | .amend => 0x02 | .retire => 0x03 | .keyroll => 0x04 | .grant => 0x05 | .recall => 0x06
  | .floatTerms => 0x07 | .tariff => 0x08 | .arm => 0x09 | .disarm => 0x0A | .months => 0x0B | .time => 0x0C
  | .holdover => 0x0D | .sweep => 0x0E | .floatQuery => 0x0F

/-- The kinds in the order of their codes. -/
def LineKind.all : List LineKind :=
  [.enrol, .amend, .retire, .keyroll, .grant, .recall, .floatTerms, .tariff, .arm, .disarm, .months, .time,
   .holdover, .sweep, .floatQuery]

/-- The length the table of 11.6 gives a body of a kind, TARIFF and MONTHS by the count they carry (R211). -/
def LineKind.length (k : LineKind) (body : List Byte) : Nat :=
  match k with
  | .enrol => 26
  | .amend => 13
  | .retire => 5
  | .keyroll => 14
  | .grant => 8
  | .recall => 8
  | .floatTerms => 12
  | .tariff => 7 + 6 * byteAt body 6
  | .arm => 6
  | .disarm => 0
  | .months => 1 + 6 * byteAt body 0
  | .time => 4
  | .holdover => 2
  | .sweep => 3
  | .floatQuery => 0

/-- An instruction is of a kind and its body has the form of the kind (R211). -/
def LineInstr.is (i : LineInstr) (k : LineKind) : Bool :=
  decide (i.kind = k.code) && decide (i.body.length = k.length i.body)

/-- An instruction of an unknown kind, or whose body has not the form of its kind (R173, R211). -/
def LineInstr.bad (i : LineInstr) : Bool := LineKind.all.all fun k => !i.is k

/-- A big-endian field of a body. -/
def LineInstr.field (i : LineInstr) (off n : Nat) : Nat := beNat (slice i.body off n)

/-- The 60-bit key in an 8-byte key field, whose top 4 bits are reserved (11.6). -/
def keyOf (n : Nat) : BitVec 60 := BitVec.ofNat 60 n

/-- The body of an ANSWER (11.6): the instruction's kind byte, the code, 8 echo bytes and the detail. -/
def answerBody (kind : Nat) (code : AnswerCode) (echo detail : List Byte) : List Byte :=
  [BitVec.ofNat 8 kind, BitVec.ofNat 8 code.code] ++ padTo 8 echo ++ detail

end Sys2Proof.Machine
end

