-- ==== Sys2Proof/Machine/Accounts.lean ====
section
/-! DEFINITION. The Account Directory: the meter table, the record writes under way, and what each claim does to a record
(Chapters 1 and 6). -/

namespace Sys2Proof.Machine

/-! ## The meter table (R1) -/

/-- The record in a slot. -/
def tableGet (t : List (Nat × MeterRecord)) (slot : Nat) : Option MeterRecord :=
  (t.find? fun p => decide (p.1 = slot)).map Prod.snd

/-- Put a record into a slot, whatever the slot held. -/
def tableSet : List (Nat × MeterRecord) → Nat → MeterRecord → List (Nat × MeterRecord)
  | [], slot, r => [(slot, r)]
  | p :: rest, slot, r =>
    if slot < p.1 then (slot, r) :: p :: rest
    else if slot = p.1 then (slot, r) :: rest
    else p :: tableSet rest slot r

/-- Free a slot. -/
def tableDrop (t : List (Nat × MeterRecord)) (slot : Nat) : List (Nat × MeterRecord) :=
  t.filter fun p => decide (p.1 ≠ slot)

/-- The map from meter number to slot (R1), with the record. -/
def tableFind (t : List (Nat × MeterRecord)) (meter : Nat) : Option (Nat × MeterRecord) :=
  t.find? fun p => decide (p.2.number = meter)

/-- Put a number into a rising list. -/
def insertRising (n : Nat) : List Nat → List Nat
  | [] => [n]
  | m :: rest => if n < m then n :: m :: rest else if n = m then m :: rest else m :: insertRising n rest

/-- The lowest number from `n` up that a rising list does not hold. -/
def lowestNotIn (n : Nat) : List Nat → Nat
  | [] => n
  | m :: rest => if m = n then lowestNotIn (n + 1) rest else n

/-- The meter table's canonical form: strictly rising slots below 16,384, and no meter number twice (R1). -/
def tableOk (t : List (Nat × MeterRecord)) : Bool :=
  decide ((t.map Prod.fst).Pairwise (· < ·)) && t.all (fun p => decide (p.1 < slotCount)) &&
    decide ((t.map fun p => p.2.number).Nodup)

/-! ## Claims and writes under way (R2, R204; log entry 5) -/

/-- The record in a slot. -/
def State.record (s : State) (slot : Nat) : Option MeterRecord := tableGet s.adir.table slot

/-- The slot and record of a meter number. -/
def State.find (s : State) (meter : Nat) : Option (Nat × MeterRecord) := tableFind s.adir.table meter

/-- Write a record. -/
def State.putRecord (s : State) (slot : Nat) (r : MeterRecord) : State :=
  s.mapAdir fun a => { a with table := tableSet a.table slot r }

/-- Remove a record. -/
def State.dropRecord (s : State) (slot : Nat) : State :=
  s.mapAdir fun a => { a with table := tableDrop a.table slot }

/-- A claim on the record of a slot is taken: every write of it under way has completed (R2). -/
def State.settleSlot (s : State) (slot : Nat) : State :=
  s.mapAdir fun a =>
    { a with writes := a.writes.map fun w => if w.slot = slot then { w with settled := true } else w }

/-- A claim on a meter number is taken: every write of its record under way has completed (R2). -/
def State.settleMeter (s : State) (meter : Nat) : State :=
  s.mapAdir fun a =>
    { a with writes := a.writes.map fun w => if w.old.number = meter then { w with settled := true } else w }

/-- Every slot from `lo` to before `hi` is examined by a sweep read: every write under way of its record, a removal among
them, has completed (R2, R8, R177). -/
def State.settleRange (s : State) (lo hi : Nat) : State :=
  s.mapAdir fun a =>
    { a with
      writes := a.writes.map fun w => if lo ≤ w.slot ∧ w.slot < hi then { w with settled := true } else w }

/-- The writes of a meter's record that have not had their row. -/
def Adir.writesOn (a : Adir) (meter : Nat) : List RecordWrite :=
  a.writes.filter fun w => decide (w.old.number = meter)

/-- A write of a meter's record is under way: a claim on the record waits for it (R2). -/
def Adir.busyOn (a : Adir) (meter : Nat) : Bool := (a.writesOn meter).any fun w => !w.settled

/-- A write with a row of its own begins: it replaces `old`. -/
def State.beginWrite (s : State) (kind : RecordWriteKind) (h : Holder) (slot : Nat) (old : MeterRecord) : State :=
  s.mapAdir fun a => { a with writes := a.writes ++ [⟨kind, h, slot, old, false⟩] }

/-- The first write under way that satisfies `p`, if no earlier write of its slot is under way. -/
def State.dueWrite (s : State) (p : RecordWrite → Bool) : Option RecordWrite :=
  match s.adir.writes.find? p with
  | none => none
  | some w =>
    if s.adir.writes.find? (fun x => decide (x.slot = w.slot)) = some w then some w else none

/-- A write completes. -/
def State.endWrite (s : State) (p : RecordWrite → Bool) : State :=
  s.mapAdir fun a => { a with writes := a.writes.eraseP p }

/-- The slots that an unfinished removal still occupies: its write is under way and no later claim has waited for it. -/
def Adir.removing (a : Adir) : List Nat :=
  (a.writes.filter fun w => !w.settled && (tableGet a.table w.slot).isNone).map RecordWrite.slot

/-- The occupied slots, in order. -/
def Adir.occupied (a : Adir) : List Nat := a.removing.foldl (fun l n => insertRising n l) (a.table.map Prod.fst)

/-- A power cut meets a record write under way: a free choice leaves the old content or the new (R204). -/
def State.cutWrite (s : State) (w : RecordWrite) : State :=
  if w.settled then s
  else if s.freeBit then s.drawn.putRecord w.slot w.old else s.drawn

/-- A power cut meets every record write under way; the claims that waited are lost with their contexts. -/
def State.cutWrites (s : State) : State :=
  (s.adir.writes.reverse.foldl State.cutWrite s).mapAdir fun a => { a with writes := [], waiting := [] }

/-! ## Holds (R10 to R12) -/

/-- The record checks of a check set but for the hold (R10, R110): SALE for a counter, OFFICE for the office. -/
def checkRecord (h : Holder) (status : MeterStatus) (refer : Option Nat) : Option Reply :=
  if status = .retiring then some (Reply.plain .meterRetired)
  else match h with
  | .office => none
  | .counter _ =>
    if status = .suspended then some (Reply.plain .meterSuspended)
    else refer.map fun code => ⟨.referOffice, leBytes 1 code⟩

/-- R10: the first line of its table that applies. -/
def holdDecision (t : List (Nat × MeterRecord)) (h : Holder) (meter : Nat) : HoldAnswer :=
  match tableFind t meter with
  | none => .refused (Reply.plain .noMeter)
  | some (slot, r) =>
    match checkRecord h r.status r.refer with
    | some reply => .refused reply
    | none =>
      match r.hold with
      | some other => .busy slot other
      | none => .granted slot r

/-- The record view ADIR gives with a hold (R98, R110). -/
def MeterRecord.view (r : MeterRecord) (slot : Nat) : RecordView where
  number := r.number
  slot := slot
  status := r.status
  refer := r.refer
  supplyClass := r.supplyClass
  arrears := r.arrears
  monthNumber := r.monthNumber
  monthUnits := r.monthUnits
  allowanceMonth := r.allowanceMonth
  carry := r.carry
  lastStamp := r.lastStamp
  rollGeneration := r.roll.map KeyRoll.generation

/-! ## Commits (R15 to R17) -/

/-- The size of the lifetime unit and money counts (R4). -/
def lifetimeModulus : Nat := 1099511627776

/-- The size of the lifetime vend count (R4). -/
def countModulus : Nat := 4294967296

/-- The stamp of the last token of a list. -/
def lastStampOf (tokens : List Token) (default : Nat) : Nat :=
  match tokens.getLast? with
  | some t => t.stamp
  | none => default

/-- The generation a list of tokens rolls the key to: the payload of KEYROLL_1 (R16, R100). -/
def rollOf (plan : List PlannedToken) : Option Nat :=
  (plan.find? fun p => decide (p.kind = .keyroll1)).map PlannedToken.payload

/-- The key switch (R16): made if the pending roll has the generation. -/
def MeterRecord.switchKey (r : MeterRecord) (generation : Option Nat) : MeterRecord :=
  match generation, r.roll with
  | some g, some roll =>
    if roll.generation = g then { r with keyGeneration := roll.generation, key := roll.key, roll := none } else r
  | _, _ => r

/-- Collect arrears (R15): the part is removed if the balance reaches 0. -/
def collect (a : Option Arrears) (d : Nat) : Option Arrears :=
  match a with
  | none => none
  | some x => if x.balance ≤ d then none else some { x with balance := x.balance - d }

/-- The last vend copy of a sealed sale (R6). -/
def Image.copy (i : Image) (c : Counter) : VendCopy where
  serial := i.serial
  counter := c
  money := i.sale.money
  net := i.sale.net
  arrears := i.sale.arrears
  units := i.sale.units
  allowance := i.sale.allowance
  tokens := i.tokens
  reprints := 0

/-- The record part has already been applied (R15). -/
def MeterRecord.hasSerial (r : MeterRecord) (serial : Nat) : Bool :=
  match r.copy with
  | some k => decide (k.serial = serial)
  | none => false

/-- The record part of a commit, when it is not skipped (R15). -/
def MeterRecord.commit (r : MeterRecord) (c : Counter) (i : Image) : MeterRecord :=
  ({ r with
      lastStamp := lastStampOf i.tokens r.lastStamp
      monthNumber := i.sale.month
      monthUnits := min i.sale.monthUnits max32
      allowanceMonth := if i.sale.allowanceDue then some i.sale.month else r.allowanceMonth
      arrears := collect r.arrears i.sale.arrears
      carry := i.sale.carry
      totalUnits := (r.totalUnits + i.sale.units) % lifetimeModulus
      totalAllowance := (r.totalAllowance + i.sale.allowance) % lifetimeModulus
      totalMoney := (r.totalMoney + i.sale.money) % lifetimeModulus
      vendCount := (r.vendCount + 1) % countModulus
      copy := some (i.copy c) } : MeterRecord).switchKey (rollOf i.sale.plan)

/-- Apply the record part of a commit to a slot: written, or skipped by the serial mark (R15). -/
def State.applyRecordPart (s : State) (c : Counter) (i : Image) : State :=
  match s.record i.sale.slot with
  | none => s
  | some r => if r.hasSerial i.serial then s else s.putRecord i.sale.slot (r.commit c i)

/-- The office commit (R17, R132): the last stamp, and for a KEYROLL_ONLY the key switch. -/
def MeterRecord.officeCommit (r : MeterRecord) (tokens : List Token) (generation : Option Nat) : MeterRecord :=
  ({ r with lastStamp := lastStampOf tokens r.lastStamp } : MeterRecord).switchKey generation

/-! ## The summary (R8, 11.5) -/

/-- The code of a status. -/
def MeterStatus.code : MeterStatus → Nat
  | .active => 1 | .suspended => 2 | .retiring => 3

/-- The four bytes of a copy token in a summary: its kind and stamp, in the byte order given. -/
def Token.brief (num : Nat → Nat → List Byte) (t : Token) : List Byte :=
  BitVec.ofNat 8 t.kind.code :: num 3 t.stamp

/-- The summary of a record, 88 bytes; `num` gives the byte order: `leBytes` in a LOOKUP reply, `beBytes` in a parcel
(R209). Of a record without arrears or without a last vend copy, 11.5 gives the balance 0, the serial 0 and the token kind
0xFF; the percent, the copy's other fields and the stamp bytes of an unused token are 0 by choice (log entry 16). -/
def MeterRecord.summary (r : MeterRecord) (slot : Nat) (num : Nat → Nat → List Byte) : List Byte :=
  let n := fun (size : Nat) (f : VendCopy → Nat) => num size ((r.copy.map f).getD 0)
  let tokens := (r.copy.map VendCopy.tokens).getD []
  num 5 r.number ++ num 2 slot ++ num 1 r.status.code ++ num 1 ((r.hold.map Holder.index).getD 0xFF) ++
    num 1 (r.refer.getD 0) ++ num 1 (r.supplyClass + 16 * r.keyGeneration) ++
    num 1 ((r.roll.map KeyRoll.generation).getD 0) ++ num 3 r.lastStamp ++ num 2 r.monthNumber ++
    num 4 r.monthUnits ++ num 2 (r.allowanceMonth.getD 0) ++ num 4 ((r.arrears.map Arrears.balance).getD 0) ++
    num 1 ((r.arrears.map Arrears.percent).getD 0) ++ num 2 r.carry ++ num 5 r.totalUnits ++
    num 5 r.totalAllowance ++ num 5 r.totalMoney ++ num 4 r.vendCount ++ num 3 r.enrolledMinute ++
    n 4 VendCopy.serial ++ n 1 (fun k => k.counter.index) ++ n 3 VendCopy.money ++ n 3 VendCopy.net ++
    n 3 VendCopy.arrears ++ n 3 VendCopy.units ++ n 2 VendCopy.allowance ++ n 1 VendCopy.reprints ++
    (tokens.take 4).flatMap (Token.brief num) ++ (List.replicate (4 - tokens.length) (padTo 4 [0xFF])).flatten

/-! ## Counter and office requests (R26 to R28) -/

/-- LOOKUP (R26). -/
def lookupReply (t : List (Nat × MeterRecord)) (meter : Nat) : Reply :=
  if meterOk meter = false then Reply.plain .badRequest
  else match tableFind t meter with
  | none => Reply.plain .noMeter
  | some (slot, r) => ⟨.done, r.summary slot leBytes⟩

/-- The reply of a REPRINT that carries a copy (R27, 11.4). -/
def VendCopy.reply (k : VendCopy) : Reply :=
  ⟨.done, withTokens (leBytes 4 k.serial ++ leBytes 1 k.counter.index ++ leBytes 3 k.money ++ leBytes 3 k.net ++
    leBytes 3 k.arrears ++ leBytes 3 k.units ++ leBytes 2 k.allowance ++ leBytes 1 k.reprints ++
    leBytes 1 k.tokens.length) k.tokens⟩

/-- The copy after a REPRINT (R6, R27): the count rises by 1 and stays at 255. -/
def VendCopy.reprinted (k : VendCopy) : VendCopy := { k with reprints := min (k.reprints + 1) 255 }

/-- REPRINT (R27): the reply, and the record it writes, if any. -/
def reprintDecision (t : List (Nat × MeterRecord)) (meter : Nat) : Reply × Option (Nat × MeterRecord) :=
  if meterOk meter = false then (Reply.plain .badRequest, none)
  else match tableFind t meter with
  | none => (Reply.plain .noMeter, none)
  | some (slot, r) =>
    match r.copy with
    | none => (Reply.plain .notPermitted, none)
    | some k => (k.reprinted.reply, some (slot, { r with copy := some k.reprinted }))

/-- REFER_SET and REFER_CLEAR (R28): the reply, and the record written, if any. `mark` is the new refer mark. -/
def referDecision (t : List (Nat × MeterRecord)) (meter : Nat) (mark : Option Nat) :
    Reply × Option (Nat × MeterRecord) :=
  if meterOk meter = false then (Reply.plain .badRequest, none)
  else match tableFind t meter with
  | none => (Reply.plain .noMeter, none)
  | some (slot, r) =>
    if r.status = .retiring then (Reply.plain .meterRetired, none)
    else (Reply.plain .done, some (slot, { r with refer := mark }))

/-- Write the record of a decision, if it writes one. -/
def State.putDecided (s : State) : Option (Nat × MeterRecord) → State
  | none => s
  | some (slot, r) => s.putRecord slot r

/-! ## Utility instructions (R19 to R24, R124) -/

/-- What ADIR answers an instruction. -/
structure Answer where
  code : AnswerCode
  echo : List Byte
  detail : List Byte
  deriving DecidableEq, Repr

/-- The status a status byte names (R19, R21). -/
def statusOfByte (n : Nat) : Option MeterStatus :=
  if n = 1 then some .active else if n = 2 then some .suspended else none

/-- Arrears in range (R19, R22). -/
def arrearsOk (balance percent : Nat) : Bool :=
  decide (1 ≤ balance) && decide (balance ≤ 99999999) && decide (1 ≤ percent) && decide (percent ≤ 50)

/-- The record an ENROL carries (R19, R20), if every field is in range. -/
def enrolRecord (i : LineInstr) (minute : Nat) : Option MeterRecord :=
  let present := i.field 20 1
  match statusOfByte (i.field 6 1) with
  | none => none
  | some status =>
    if meterOk (i.field 0 5) && decide (i.field 5 1 ≤ 15) && decide (1 ≤ i.field 7 1) && decide (i.field 7 1 ≤ 15) &&
        decide (i.field 16 4 ≤ maxMinute) && decide (present ≤ 1) &&
        (decide (present = 0) || arrearsOk (i.field 21 4) (i.field 25 1)) then
      some
        { number := i.field 0 5, status := status, refer := none, supplyClass := i.field 5 1,
          keyGeneration := i.field 7 1, key := keyOf (i.field 8 8), roll := none, lastStamp := i.field 16 4,
          monthNumber := 0, monthUnits := 0, allowanceMonth := none,
          arrears := if present = 1 then some ⟨i.field 21 4, i.field 25 1⟩ else none,
          carry := 0, totalUnits := 0, totalAllowance := 0, totalMoney := 0, vendCount := 0, copy := none,
          hold := none, enrolledMinute := minute }
    else none

/-- ENROL (R19, R20): the answer, and the record written, if any. -/
def enrolDecision (a : Adir) (i : LineInstr) (minute : Nat) : Answer × Option (Nat × MeterRecord) :=
  let echo := slice i.body 0 5
  match enrolRecord i minute with
  | none => (⟨.badField, echo, []⟩, none)
  | some r =>
    if (tableFind a.table r.number).isSome then (⟨.exists_, echo, []⟩, none)
    else if slotCount ≤ lowestNotIn 0 a.occupied then (⟨.storeFull, echo, []⟩, none)
    else (⟨.accepted, echo, beBytes 2 (lowestNotIn 0 a.occupied)⟩, some (lowestNotIn 0 a.occupied, r))

/-- The changes an AMEND carries (R21): status, class and arrears, each if flagged. None when a field is out of range or
no change is present. -/
def amendChanges (i : LineInstr) : Option (MeterRecord → MeterRecord) :=
  let flags := BitVec.ofNat 8 (i.field 5 1)
  let status := statusOfByte (i.field 6 1)
  let supplyClass := i.field 7 1
  let balance := i.field 8 4
  let percent := i.field 12 1
  if (flags.getLsbD 0 || flags.getLsbD 1 || flags.getLsbD 2) && (!flags.getLsbD 0 || status.isSome) &&
      (!flags.getLsbD 1 || decide (supplyClass ≤ 15)) &&
      (!flags.getLsbD 2 || decide (balance = 0) || arrearsOk balance percent) then
    some fun r =>
      { r with
        status := if flags.getLsbD 0 then status.getD r.status else r.status
        supplyClass := if flags.getLsbD 1 then supplyClass else r.supplyClass
        arrears := if flags.getLsbD 2 then (if balance = 0 then none else some ⟨balance, percent⟩) else r.arrears }
  else none

/-- AMEND (R21, R22): the answer, and the record written, if any. -/
def amendDecision (t : List (Nat × MeterRecord)) (i : LineInstr) : Answer × Option (Nat × MeterRecord) :=
  let echo := slice i.body 0 5
  match amendChanges i with
  | none => (⟨.badField, echo, []⟩, none)
  | some change =>
    match tableFind t (i.field 0 5) with
    | none => (⟨.absent, echo, []⟩, none)
    | some (slot, r) =>
      if r.hold.isSome then (⟨.recordBusy, echo, []⟩, none)
      else (⟨.accepted, echo, []⟩, some (slot, change r))

/-- What a RETIRE does (R23, R24): nothing, a removal, or a move to RETIRING. -/
inductive RetireEffect where
  | none
  | remove (slot : Nat)
  | retiring (slot : Nat) (record : MeterRecord)
  deriving DecidableEq, Repr

/-- RETIRE (R23, R24). -/
def retireDecision (t : List (Nat × MeterRecord)) (i : LineInstr) : Answer × RetireEffect :=
  let echo := slice i.body 0 5
  match tableFind t (i.field 0 5) with
  | none => (⟨.absent, echo, []⟩, .none)
  | some (slot, r) =>
    if r.status = .retiring then (⟨.duplicate, echo, []⟩, .none)
    else if r.hold.isSome then (⟨.accepted, echo, beBytes 1 2⟩, .retiring slot { r with status := .retiring })
    else (⟨.accepted, echo, beBytes 1 1⟩, .remove slot)

/-- The generations an ANSWER to a KEYROLL carries (R124): the record's and the pending roll's, 0 for none. -/
def keyrollDetail (r : MeterRecord) : List Byte :=
  beBytes 1 r.keyGeneration ++ beBytes 1 ((r.roll.map KeyRoll.generation).getD 0)

/-- KEYROLL (R124, R125): the answer, and the record written, if any. -/
def keyrollDecision (t : List (Nat × MeterRecord)) (i : LineInstr) : Answer × Option (Nat × MeterRecord) :=
  let echo := slice i.body 0 5
  let g := i.field 5 1
  if meterOk (i.field 0 5) = false ∨ g < 1 ∨ 15 < g then (⟨.badField, echo, []⟩, none)
  else match tableFind t (i.field 0 5) with
  | none => (⟨.absent, echo, []⟩, none)
  | some (slot, r) =>
    if r.hold.isSome then (⟨.recordBusy, echo, keyrollDetail r⟩, none)
    else if g ≤ r.keyGeneration then (⟨.staleGeneration, echo, keyrollDetail r⟩, none)
    else
      let pending := (r.roll.map KeyRoll.generation).getD 0
      if g < pending then (⟨.staleGeneration, echo, keyrollDetail r⟩, none)
      else if g = pending then (⟨.duplicate, echo, keyrollDetail r⟩, none)
      else
        let r' := { r with roll := some ⟨g, keyOf (i.field 6 8)⟩ }
        (⟨.accepted, echo, keyrollDetail r'⟩, some (slot, r'))

/-! ## After the recovery pass (R14) -/

/-- Remove every RETIRING record and every hold. -/
def clearHolds (t : List (Nat × MeterRecord)) : List (Nat × MeterRecord) :=
  (t.filter fun p => decide (p.2.status ≠ .retiring)).map fun p => (p.1, { p.2 with hold := none })

/-- The one write of that work on a slot (R14). -/
def State.clearHold (s : State) (slot : Nat) : State :=
  match s.record slot with
  | none => s
  | some r => if r.status = .retiring then s.dropRecord slot else s.putRecord slot { r with hold := none }

/-- A power cut meets that work: each record is already done or still to do, by a free choice (R14; log entry 4). -/
def State.cutHolds (s : State) : State :=
  s.adir.table.foldl (fun t p => if t.freeBit then t.drawn.clearHold p.1 else t.drawn) s

end Sys2Proof.Machine
end

