-- ==== Sys2Proof/Machine/Float.lean ====
section
/-! DEFINITION. The Float Unit: the figures, the levels, the reservation table and what each completed write does to them
(Chapter 3). -/

namespace Sys2Proof.Machine

/-! ## Figures (R51, R58) -/

/-- The money of an entry that is counted in reserved, given its counter's last consumed serial (R51). -/
def Entry.counted (e : Entry) (last : Nat) : Nat :=
  match e with
  | .free => 0
  | .issuing sale => sale.money
  | .sealed i => if i.serial = last then 0 else i.sale.money

/-- Reserved (R51). -/
def Flu.reserved (f : Flu) : Nat :=
  (Counter.all.map fun c => (f.entries.get c).counted (f.record.lastConsumed.get c)).sum

/-- Available (R51). -/
def Flu.available (f : Flu) : Nat := f.record.granted - f.record.recalled - f.record.consumed - f.reserved

/-- The float level (R58). -/
def Flu.level (f : Flu) : FloatLevel :=
  if f.available = 0 then .empty else if f.available < f.record.lowMark then .low else .ok

/-- The code of a float level (11.6). -/
def FloatLevel.code : FloatLevel → Nat
  | .ok => 0 | .low => 1 | .empty => 2

/-- The float snapshot, 85 bytes (R53, 11.6). -/
def Flu.snapshot (f : Flu) : List Byte :=
  let r := f.record
  beBytes 4 f.available ++ beBytes 4 f.reserved ++ beBytes 8 r.consumed ++ beBytes 8 r.granted ++
    beBytes 8 r.recalled ++ beBytes 4 r.ceiling ++ beBytes 4 r.lowMark ++ beBytes 4 r.vendCap ++
    beBytes 4 r.nextGrant ++ beBytes 4 f.nextSerial ++
    (r.lastConsumed.toList.flatMap fun n => beBytes 4 n) ++ beBytes 1 f.level.code

/-- Make a completed write of FLU and raise what it causes: the low-water mark (R59), FLOAT_LOW and FLOAT_EMPTY (R58). -/
def watchFloat (f : Flu → Flu) (s : State) : State :=
  let t := s.mapFlu fun u => { f u with lowWater := min u.lowWater (f u).available }
  (t.raiseIf (decide (s.flu.record.lowMark ≤ s.flu.available) && decide (t.flu.available < t.flu.record.lowMark))
      .floatLow).raiseIf
    (decide (0 < s.flu.available) && decide (t.flu.available = 0)) .floatEmpty

/-! ## Decisions (R54 to R57, R61 to R66) -/

/-- The number of ISSUING entries. -/
def Flu.issuing (f : Flu) : Nat :=
  (f.entries.toList.filter fun e => match e with | .issuing _ => true | _ => false).length

/-- R61: the refusal, or none when the claim is RESERVED. -/
def Flu.reserveRefusal (f : Flu) (c : Counter) (sale : Sale) : Option Reply :=
  if f.entries.get c ≠ .free then some (Reply.plain .counterBusy)
  else if f.available < sale.money ∨ maxSerial < f.nextSerial + f.issuing then
    some ⟨.floatShort, leBytes 4 f.available⟩
  else none

/-- The numbering lines of GRANT and RECALL (R54, R55). -/
def FloatRecord.numberRefusal (r : FloatRecord) (n a : Nat) : Option AnswerCode :=
  if n < 1 ∨ maxSerial < n ∨ a < 1 ∨ 100000000 < a then some .badField
  else if n < r.nextGrant then some .duplicate
  else if r.nextGrant < n then some .outOfOrder
  else none

/-- GRANT (R54): the answer code. -/
def Flu.grantCode (f : Flu) (n a : Nat) : AnswerCode :=
  match f.record.numberRefusal n a with
  | some c => c
  | none => if f.record.ceiling < f.available + f.reserved + a then .overCeiling else .accepted

/-- RECALL (R55): the answer code. -/
def Flu.recallCode (f : Flu) (n a : Nat) : AnswerCode := (f.record.numberRefusal n a).getD .accepted

/-- FLOAT_TERMS in range (R57). -/
def termsOk (ceiling lowMark vendCap : Nat) : Bool :=
  decide (ceiling ≤ 100000000) && decide (lowMark ≤ 100000000) && decide (vendCap ≤ 500000)

/-- The SEALED entry of a counter. -/
def Flu.sealedImage (f : Flu) (c : Counter) : Option Image :=
  match f.entries.get c with
  | .sealed i => some i
  | _ => none

/-- The float part of a counter's entry has been applied (R65). -/
def Flu.floatApplied (f : Flu) (c : Counter) : Bool :=
  match f.sealedImage c with
  | some i => decide (i.serial = f.record.lastConsumed.get c)
  | none => false

/-! ## Completed writes -/

/-- Replace an entry. -/
def Flu.setEntry (f : Flu) (c : Counter) (e : Entry) : Flu := { f with entries := f.entries.set c e }

/-- The float part (R65). -/
def Flu.consume (f : Flu) (c : Counter) (i : Image) : Flu :=
  { f with record :=
      { f.record with
        consumed := f.record.consumed + i.sale.money
        lastConsumed := f.record.lastConsumed.set c i.serial
        nextSerial := max f.record.nextSerial (i.serial + 1) } }

/-- The seal (R63): the entry takes the next vend serial and the image, and the working figure rises by 1. -/
def Flu.seal (f : Flu) (c : Counter) (tokens : List Token) : Flu :=
  match f.entries.get c with
  | .issuing sale => { f.setEntry c (.sealed ⟨f.nextSerial, sale, tokens⟩) with nextSerial := f.nextSerial + 1 }
  | _ => f

/-- What the write that a claim makes does when it completes. -/
def Flu.complete (f : Flu) : FloatClaim → Flu
  | .reserve c sale => f.setEntry c (.issuing sale)
  | .release c => f.setEntry c .free
  | .seal c tokens => f.seal c tokens
  | .floatPart c =>
    match f.sealedImage c with
    | some i => f.consume c i
    | none => f
  | .free c => f.setEntry c .free
  | .grant n a => { f with record := { f.record with granted := f.record.granted + a, nextGrant := n + 1 } }
  | .recall n a =>
    { f with record :=
        { f.record with recalled := f.record.recalled + min a f.available, nextGrant := n + 1 } }
  | .terms ceiling lowMark vendCap =>
    { f with record := { f.record with ceiling := ceiling, lowMark := lowMark, vendCap := vendCap } }

/-- The write under way completes: its effect, and the store is free for the next claim. -/
def State.completeFloat (s : State) (k : FloatClaim) : State :=
  watchFloat (fun f => { f.complete k with writing := none }) s

/-- A power cut meets a write of FLU under way: a free choice leaves the old content or the new (R204). Claims that waited
are lost with their contexts. -/
def State.cutFloat (s : State) : State :=
  match s.flu.writing with
  | none => s.mapFlu fun f => { f with queue := [] }
  | some k =>
    let t := if s.freeBit then s.mapFlu fun f => f.complete k else s
    t.drawn.mapFlu fun f => { f with writing := none, queue := [] }

/-! ## The end of the recovery pass (R69) -/

/-- Steps 2 to 5 of the end of the recovery pass. -/
def State.endFloatRecovery (s : State) : State :=
  let t := s.mapFlu fun f => { f with nextSerial := f.record.nextSerial, lowWater := f.available }
  ((t.raise .recoveryDone).raiseIf (decide (t.flu.available < t.flu.record.lowMark)) .floatLow).raiseIf
    (decide (t.flu.available = 0)) .floatEmpty

end Sys2Proof.Machine
end

