-- ==== Sys2Proof/Machine/Tills.lean ====
section
/-! DEFINITION. The Till Unit: till records, outcomes, and the counter lines with their drawer machines (Chapter 7). -/

namespace Sys2Proof.Machine

/-! ## Till records (R137 to R143) -/

/-- The code of a till state (11.4). -/
def TillState.code : TillState → Nat
  | .closed => 0 | .opened => 1 | .paused => 2

/-- The code of an outcome result (11.4). -/
def OutcomeResult.code : OutcomeResult → Nat
  | .done => 1 | .abandoned => 2

/-- A total that would pass its largest value stays at that value (R137). -/
def addTo (limit a b : Nat) : Nat := min limit (a + b)

/-- The till part (R142), when it is not skipped. -/
def Till.count (t : Till) (i : Image) : Till :=
  { t with
    vends := addTo max32 t.vends 1
    cash := addTo max64 t.cash i.sale.money
    units := addTo max64 t.units i.sale.units
    allowance := addTo max64 t.allowance i.sale.allowance
    arrears := addTo max64 t.arrears i.sale.arrears
    lastSerial := i.serial }

/-- The record a TILL_OPEN writes (R139). -/
def Till.opening (t : Till) (clerk minute : Nat) : Till :=
  { t with
    state := .opened, clerk := clerk, openedMinute := minute, vends := 0, cash := 0, units := 0, allowance := 0,
    arrears := 0 }

/-- The reply fields of TILL_READ and TILL_CLOSE (R141, R143, 11.4). An ABANDONED outcome's money is put in its 3 bytes
modulo 2^24 (log entry 33). -/
def Till.fields (t : Till) : List Byte :=
  let n := fun (size : Nat) (f : Outcome → Nat) => leBytes size ((t.outcome.map f).getD 0)
  leBytes 1 t.state.code ++ leBytes 2 t.clerk ++ leBytes 3 t.openedMinute ++ leBytes 4 t.vends ++
    leBytes 8 t.cash ++ leBytes 8 t.units ++ leBytes 8 t.allowance ++ leBytes 8 t.arrears ++ leBytes 4 t.lastSerial ++
    n 1 (fun o => o.result.code) ++ n 4 Outcome.serial ++ n 5 Outcome.meter ++ n 3 Outcome.money ++
    n 1 (fun o => o.tokens.length)

/-- A till part write under way found its till CLOSED and has not completed: LATE_COUNT is due when it does (R142). -/
def State.lateDue (s : State) (c : Counter) : Bool :=
  match s.tlu.part.get c with
  | some p => p.late && !p.settled
  | none => false

/-- The write that stored a till's outcome has completed. -/
def Tlu.stored (t : Tlu) (c : Counter) : Tlu :=
  { t with storing := t.storing.set c ((t.storing.get c).map fun w => { w with settled := true }) }

/-- The write that put or removed a till's outcome has completed (R137, R145). -/
def Tlu.outcomeRead (t : Tlu) (c : Counter) : Tlu := { t.stored c with removing := t.removing.set c none }

/-- A till's outcome is found as it stands. -/
def State.readOutcome (s : State) (c : Counter) : State := s.mapTlu fun t => t.outcomeRead c

/-- Some other till's store by the same event may be the one that had completed (R120; log entry 6). -/
def Tlu.storedElsewhere (t : Tlu) (c : Counter) : Bool :=
  Counter.all.any fun d => decide (d ≠ c) && (t.storing.get d).any fun w => !w.readOld

/-- What a till's outcome was before a write of it that may not have completed (R144, R145; log entry 6). A store that left
the outcome as it was has nothing else to show. -/
def State.outcomeOpen (s : State) (c : Counter) : Option (Option Outcome) :=
  match s.tlu.removing.get c, s.tlu.storing.get c with
  | some o, _ => if s.ulc.noneTold then none else some (some o)
  | none, some w =>
    if !w.settled && s.tlu.storedElsewhere c && decide (w.old ≠ (s.till c).outcome) then some w.old else none
  | none, none => none

/-- The outcome that a read of a till finds: a read does not wait for a write in progress (R97, R137), and whether one is
in progress is a free choice. -/
def State.outcomeSeen (s : State) (c : Counter) : Option Outcome :=
  match s.outcomeOpen c with
  | some old => if s.freeBit then old else (s.till c).outcome
  | none => (s.till c).outcome

/-- A read has found that the store of a till's outcome has not completed. -/
def Tlu.readOld (t : Tlu) (c : Counter) : Tlu :=
  { t with storing := t.storing.set c ((t.storing.get c).map fun w => { w with readOld := true }) }

/-- The state after a till's outcome has been read: one found new has been written. -/
def State.outcomeReadDone (s : State) (c : Counter) : State :=
  match s.outcomeOpen c with
  | some _ =>
    if s.freeBit then (if (s.tlu.removing.get c).isSome then s.drawn else s.drawn.mapTlu fun t => t.readOld c)
    else s.drawn.readOutcome c
  | none => s.readOutcome c

/-- A claim on a till is taken: every write of it under way has completed (R137), which for a late till part sets LATE_COUNT
(R142). -/
def State.settleTill (s : State) (c : Counter) : State :=
  ((s.readOutcome c).mapTlu fun t =>
    { t with
      part := t.part.set c ((t.part.get c).map fun p => { p with settled := true })
      closing := t.closing.set c none }).raiseIf (s.lateDue c) (.lateCount c)

/-- TLU writes the outcome of a till (R144, R145). -/
def State.writeOutcome (s : State) (c : Counter) (o : Option Outcome) : State :=
  s.mapTill c fun t => { t with outcome := o }

/-- TLU removes the outcome of a till (R145). The removals before it have completed if a parcel has told since that no till
holds an outcome; its own may be under way until a claim on the till, a read of the outcome or such a parcel (log entry
6). -/
def State.removeOutcome (s : State) (c : Counter) (o : Outcome) : State :=
  ((s.writeOutcome c none).mapTlu fun t =>
    { t with removing := (if s.ulc.noneTold then PerCounter.fill none else t.removing).set c (some o) }).mapUlc
    fun u => { u with noneTold := false }

/-- The tills whose outcome differs between two states. -/
def State.storedSince (s t : State) : List Counter :=
  Counter.all.filter fun c => decide ((t.till c).outcome ≠ (s.till c).outcome)

/-- From `s` to `t` one event has stored outcomes (R193, R195): where it did so in several tills, one of the writes has
completed, and the others may be under way (R146; log entry 6). -/
def State.markStores (s t : State) : State :=
  if (s.storedSince t).length ≤ 1 then t
  else
    (s.storedSince t).foldl
      (fun u c => u.mapTlu fun l => { l with storing := l.storing.set c (some ⟨(s.till c).outcome, false, false⟩) })
      (t.mapTlu fun l => { l with storing := PerCounter.fill none })

/-- A till part write is under way that no later claim has found completed: the record that it replaces. -/
def State.partOpen (s : State) (c : Counter) : Option Till :=
  match s.tlu.part.get c with
  | some p => if p.settled then none else some p.old
  | none => none

/-- The record a read of a till sees: a read does not wait for a write in progress (R137). -/
def State.tillSeen (s : State) (c : Counter) : Till :=
  match s.partOpen c with
  | some old => old
  | none => { s.till c with outcome := s.outcomeSeen c }

/-- The state after a till has been read. -/
def State.tillSeenDone (s : State) (c : Counter) : State :=
  if (s.partOpen c).isSome then s else s.outcomeReadDone c

/-- A power cut meets the till writes under way of a counter (R146): a free choice leaves the old content or the new. -/
def State.cutTill (c : Counter) (s : State) : State :=
  let s1 :=
    match s.tlu.part.get c with
    | none => s
    | some p => if p.settled then s else if s.freeBit then s.drawn.mapTill c fun _ => p.old else s.drawn
  let s2 :=
    match s1.tlu.closing.get c with
    | none => s1
    | some old => if s1.freeBit then s1.drawn.mapTill c fun t => { t with state := old } else s1.drawn
  let s3 :=
    match s2.tlu.removing.get c with
    | none => s2
    | some o =>
      if s2.ulc.noneTold then s2 else if s2.freeBit then s2.drawn.writeOutcome c (some o) else s2.drawn
  s3.mapTlu fun t =>
    { t with part := t.part.set c none, closing := t.closing.set c none, removing := t.removing.set c none }

/-- A power cut meets an outcome's store that may be under way: a free choice leaves the old outcome or the new. -/
def State.cutStoring (c : Counter) (s : State) : State :=
  match s.tlu.storing.get c with
  | none => s
  | some w => if w.settled then s else if s.freeBit then s.drawn.writeOutcome c w.old else s.drawn

/-- A power cut meets the outcomes that one event stored in several tills (R146): each write leaves the old outcome or the
new, and one of them at least, which no read has found not completed, had completed. -/
def State.cutStores (s : State) : State :=
  let t := forCounters State.cutStoring s
  let kept := Counter.all.any fun c =>
    ((s.tlu.storing.get c).any fun w => !w.readOld) && decide ((t.till c).outcome = (s.till c).outcome)
  (if kept then t else { t with tlu := s.tlu }).mapTlu fun l => { l with storing := PerCounter.fill none }

/-! ## Outcomes (R144, R145) -/

/-- The replacement rule (R144): whether the carried outcome is stored. -/
def storesOutcome (held : Option Outcome) (o : Outcome) : Bool := held.isNone || decide (o.result = .done)

/-- A store-outcome claim (R144, R120). An ABANDONED outcome that a second recovery pass carries again is declined, and sets
nothing, though R70 says that it is stored again (log entry 27). -/
def State.storeOutcome (s : State) (c : Counter) (o : Outcome) : State :=
  let t := s.settleTill c
  if storesOutcome (t.till c).outcome o then
    (t.writeOutcome c (some o)).raise .outcomeStored
  else t

/-- The outcome of a DONE sale (R67, R117). -/
def Image.outcome (i : Image) : Outcome :=
  ⟨.done, i.serial, i.sale.tag, i.sale.meter, i.sale.money, i.sale.generation, i.tokens⟩

/-- An ABANDONED outcome (R68, R117). -/
def abandonedOutcome (tag : Word) (meter money : Nat) : Outcome := ⟨.abandoned, 0, tag, meter, money, 0, []⟩

/-- The reply of an OUTCOME_TAKE (R145, 11.4). An ABANDONED outcome's money is put in its 3 bytes modulo 2^24 (log entry
33). -/
def Outcome.reply (o : Outcome) : Reply :=
  ⟨.done, withTokens (leBytes 1 o.result.code ++ leBytes 4 o.serial ++ leBytes 5 o.meter ++ leBytes 3 o.money ++
    leBytes 1 o.tokens.length ++ leBytes 4 o.tag.toNat ++ leBytes 2 o.generation) o.tokens⟩

/-- Some till holds an outcome: the up-nibble's outcome bit (R144, R145). -/
def State.anyOutcome (s : State) : Bool := s.tlu.tills.toList.any fun t => t.outcome.isSome

/-! ## Lines (R147 to R155) -/

/-- The settings in a settings byte (11.4). -/
def LineSettings.ofByte (n : Nat) : LineSettings :=
  let b := BitVec.ofNat 8 n
  ⟨b.getLsbD 0, b.getLsbD 1, b.getLsbD 2, b.getLsbD 3⟩

/-- The settings byte (11.4). -/
def LineSettings.byte (l : LineSettings) : Nat := bit l.output + 2 * bit l.data + 4 * bit l.pullUp + 8 * bit l.floating

/-- The code of a drawer state (11.4). -/
def DrawerState.code : DrawerState → Nat
  | .shut => 0 | .released => 1 | .opened => 2

/-- The level the part drives on the DRW_IN pin, if it drives it (R147, R148). -/
def LinePair.inDriven (l : LinePair) : Option Bool :=
  if l.function = .general ∧ l.inp.output ∧ !l.inp.floating then some l.inp.data else none

/-- The level the part drives on the DRW_OUT pin, if it drives it (R147, R148). -/
def LinePair.outDriven (l : LinePair) : Option Bool :=
  match l.function with
  | .drawer => some l.pulse
  | .general => if l.out.output ∧ !l.out.floating then some l.out.data else none

/-- The DRW_IN pin takes a level: the 20 ms run again while there is a level to count (R149). -/
def LinePair.pinTo (l : LinePair) (level : Bool) : LinePair :=
  if l.pin = level then l
  else { l with pin := level, timing := l.fresh || decide (level ≠ l.counted) }

/-- The filter restarts (R149). -/
def LinePair.restart (l : LinePair) : LinePair := { l with counted := true, fresh := true, timing := true }

/-- The pull-up acts on DRW_IN: in DRAWER function, and in GENERAL function on an input whose pull-up is on (R147, R148). -/
def LinePair.inPulled (l : LinePair) : Bool :=
  decide (l.function = .drawer) || (!l.inp.output && l.inp.pullUp)

/-- The level of a pin (R148): what the part drives, else what something outside puts on it, else high by the pull-up; with
none of the three it floats, at a free level (log entry 8). -/
def pinLevel (driven outside : Option Bool) (pulled floating : Bool) : Bool :=
  match driven, outside with
  | some level, _ => level
  | none, some level => level
  | none, none => pulled || floating

/-- The level of the DRW_IN pin under the settings. -/
def LinePair.inLevel (l : LinePair) (floating : Bool) : Bool := pinLevel l.inDriven l.outside l.inPulled floating

/-- The pull-up acts on DRW_OUT: in GENERAL function on an input whose pull-up is on (R148). -/
def LinePair.outPulled (l : LinePair) : Bool := decide (l.function = .general) && !l.out.output && l.out.pullUp

/-- The pins take the settings (R148, R152). -/
def LinePair.drive (l : LinePair) (floating : Bool) : LinePair := l.pinTo (l.inLevel floating)

/-- LINE_SET (R152). -/
def LinePair.setTo (l : LinePair) (f : LineFunction) (out inp : LineSettings) (floating : Bool) : LinePair :=
  let l' := { l with function := f, out := out, inp := inp }
  match l.function, f with
  | .drawer, .drawer => l'
  | .drawer, .general =>
    { l' with pulse := false, stuck := false, long := false, drawer := .shut }.restart.drive floating
  | .general, .general => l'.drive floating
  | .general, .drawer => { l' with drawer := .opened, long := true }.restart.drive floating

/-- Something outside puts a level on DRW_IN (R149): the pin takes it unless the part drives the pin. -/
def LinePair.putOutside (l : LinePair) (level : Bool) : LinePair :=
  if l.inDriven.isSome then { l with outside := some level } else { l with outside := some level }.pinTo level

/-- The data read back for DRW_IN (R148). -/
def LinePair.inRead (l : LinePair) : Bool :=
  if l.function = .drawer ∨ l.inp.output then l.inp.data else l.pin

/-- The data read back for DRW_OUT, given the level of its pin (R148). -/
def LinePair.outRead (l : LinePair) (pin : Bool) : Bool :=
  if l.function = .drawer ∨ l.out.output then l.out.data else pin

/-- What LINE_READ returns (R153, 11.4). -/
def LinePair.reply (l : LinePair) (outPin : Bool) : Reply :=
  ⟨.done, leBytes 1 (if l.function = .drawer then 1 else 0) ++ leBytes 1 l.out.byte ++ leBytes 1 l.inp.byte ++
    leBytes 1 (bit (l.outRead outPin)) ++ leBytes 1 (bit l.inRead) ++ leBytes 1 (bit l.counted) ++
    leBytes 1 l.drawer.code ++ leBytes 1 (bit l.pulse)⟩

/-- The level that something outside puts on a DRW_OUT pin, if it does (R148): no row tells it, so both are drawn (log entry
8). -/
def State.outOutside (s : State) : Option Bool := if s.freeBit then some s.drawn.freeBit else none

/-- The level of the DRW_OUT pin at a read (R148). -/
def State.outPin (s : State) (c : Counter) : Bool :=
  pinLevel (s.lines c).outDriven s.outOutside (s.lines c).outPulled s.drawn.drawn.freeBit

/-- The reply of LINE_READ (R153). -/
def State.lineReply (s : State) (c : Counter) : Reply := (s.lines c).reply (s.outPin c)

/-- A drawer opening (R151). -/
def State.drawerOpening (s : State) (c : Counter) : State :=
  match (s.lines c).drawer with
  | .shut => (s.mapLines c fun l => { l with drawer := .opened, long := true }).raise (.drawerForced c)
  | .released => s.mapLines c fun l => { l with drawer := .opened, stuck := false, long := true }
  | .opened => s

/-- A drawer closing (R151). -/
def State.drawerClosing (s : State) (c : Counter) : State :=
  match (s.lines c).drawer with
  | .opened => s.mapLines c fun l => { l with drawer := .shut, long := false }
  | _ => s

/-- The level on the DRW_IN pin has held for 20 ms (R149). -/
def State.countLevel (s : State) (c : Counter) : State :=
  let l := s.lines c
  let t := s.mapLines c fun x => { x with counted := x.pin, timing := false, fresh := false }
  if l.function = .drawer then
    if !l.counted && l.pin then t.drawerOpening c
    else if l.counted && !l.pin then t.drawerClosing c
    else t
  else t

/-- A drawer pulse request (R150). -/
def LinePair.pulseRequest (l : LinePair) : LinePair :=
  match l.function, l.drawer with
  | .general, _ => l
  | .drawer, .opened => l
  | .drawer, _ => { l with drawer := .released, pulse := true, stuck := true }

/-- Take check 3 (R96, R122): the drawer is not SHUT and the function is DRAWER. -/
def LinePair.blocks (l : LinePair) : Bool := decide (l.function = .drawer) && decide (l.drawer ≠ .shut)

end Sys2Proof.Machine
end

