-- ==== Sys2Proof/Machine/Tokens.lean ====
section
/-! DEFINITION. The Token Engine: token blocks, their check, scramble and digits; the job queue and stamps (Chapter 4,
11.7). -/

namespace Sys2Proof.Machine

/-! ## Token blocks (R82 to R86) -/

/-- The bits of a word, most significant first. -/
def bitsOf {n : Nat} (x : BitVec n) : List Bool := (List.range n).map fun i => x.getMsbD i

/-- One step of the CRC-16 (R84). -/
def crcStep (reg : BitVec 16) (b : Bool) : BitVec 16 :=
  if reg.getMsbD 0 ^^ b then (reg <<< 1) ^^^ 0x1021 else reg <<< 1

/-- The CRC-16 of R84 and R165, over bits taken in order. -/
def crc16 (bits : List Bool) : BitVec 16 := bits.foldl crcStep 0xFFFF

/-- The 17-bit amount of a credit-kind block (R82). -/
def blockAmount (kind : TokenKind) (payload : Nat) : Nat :=
  match kind with
  | .setLimit => payload / 2
  | .clearTamper => 0
  | _ => payload

/-- The 44 bits before the check (R82, R83). -/
def blockHead (kind : TokenKind) (stamp payload : Nat) (half : BitVec 30) : BitVec 44 :=
  match kind with
  | .keyroll1 | .keyroll2 =>
    BitVec.ofNat 3 kind.code ++ BitVec.ofNat 4 payload ++ half ++ BitVec.ofNat 7 stamp
  | _ => BitVec.ofNat 3 kind.code ++ BitVec.ofNat 24 stamp ++ BitVec.ofNat 17 (blockAmount kind payload)

/-- The plain block (R82 to R84). -/
def plainBlock (kind : TokenKind) (stamp payload : Nat) (half : BitVec 30) : BitVec 60 :=
  blockHead kind stamp payload half ++ crc16 (bitsOf (blockHead kind stamp payload half))

/-- The high 30 bits. -/
def high30 (x : BitVec 60) : BitVec 30 := x.extractLsb' 30 30

/-- The low 30 bits. -/
def low30 (x : BitVec 60) : BitVec 30 := x.extractLsb' 0 30

/-- The round key of a round (R85). -/
def roundKey (key : BitVec 60) (i : Nat) : BitVec 30 :=
  (low30 key).rotateLeft (5 * i % 30) ^^^ (high30 key).rotateRight (3 * i % 30)

/-- The round function (R85). -/
def roundFn (x k : BitVec 30) : BitVec 30 := (x + k).rotateLeft 7 ^^^ (x >>> 3)

/-- A round on the pair (L, H) (R85). -/
def scrambleRound (key : BitVec 60) (p : BitVec 30 × BitVec 30) (i : Nat) : BitVec 30 × BitVec 30 :=
  (p.2, p.1 ^^^ roundFn p.2 (roundKey key i))

/-- The scramble of a block under a key (R85). -/
def scramble (key block : BitVec 60) : BitVec 60 :=
  let p := [1, 2, 3, 4, 5, 6].foldl (scrambleRound key) (low30 block, high30 block)
  p.2 ++ p.1

/-- The n decimal digits of a number, most significant first. -/
def decimalDigits : Nat → Nat → List Nat
  | 0, _ => []
  | n + 1, v => decimalDigits n (v / 10) ++ [v % 10]

/-- The 19 digits of a token (R86). -/
def Token.digits (t : Token) : List Nat := decimalDigits 19 t.value.toNat

/-- The token a finished job makes (R76). -/
def Work.token (w : Work) : Token where
  kind := w.job.kind
  stamp := w.job.stamp
  value := scramble w.key (plainBlock w.job.kind w.job.stamp w.job.payload w.half)

/-! ## The job queue (R72 to R77) -/

/-- The key and the key half ADIR gives for a job (R75), when the record and the roll it needs are there. -/
def jobKey (t : List (Nat × MeterRecord)) (j : Job) : Option (BitVec 60 × BitVec 30) :=
  match tableFind t j.meter with
  | none => none
  | some (_, r) =>
    let key := match j.ref with
      | .current => some r.key
      | .pending => r.roll.map KeyRoll.key
    let half := match j.kind with
      | .keyroll1 => r.roll.map fun x => high30 x.key
      | .keyroll2 => r.roll.map fun x => low30 x.key
      | _ => some 0
    match key, half with
    | some k, some h => some (k, h)
    | _, _ => none

/-- Take a job into work with a key and a key half (R75). -/
def Tke.takeJob (k : Tke) (j : Job) (rest : List Job) (key : BitVec 60) (half : BitVec 30) : Tke :=
  { k with queue := rest, engine := .working, work := some ⟨j, key, half, false⟩ }

/-- Take the head of the queue into work; with the queue empty the engine is IDLE (R74). A key that is not there, which R75
rules out, is a free value (log entry 4). -/
def State.nextJob (s : State) : State :=
  match s.tke.queue with
  | [] => s.mapTke fun k => { k with engine := .idle, work := none }
  | j :: rest =>
    match jobKey s.adir.table j with
    | some (key, half) => s.mapTke fun k => k.takeJob j rest key half
    | none =>
      s.drawn.mapTke fun k =>
        k.takeJob j rest (Config.freeKey (2 * s.draws)) (low30 (Config.freeKey (2 * s.draws + 1)))

/-- The owner has a job in the queue or in work (R73). -/
def Tke.busyWith (k : Tke) (h : Holder) : Bool :=
  k.queue.any (fun j => decide (j.owner = h)) ||
    (match k.work with | some w => decide (w.job.owner = h) | none => false)

/-- What a submit claim is answered (R73). -/
inductive SubmitAnswer where
  | halted | ownerBusy | queued
  deriving DecidableEq, Repr

/-- R73: the first line that applies. -/
def Tke.submitDecision (k : Tke) (h : Holder) : SubmitAnswer :=
  if k.engine = .halted then .halted else if k.busyWith h then .ownerBusy else .queued

/-- A QUEUED batch joins the tail; an IDLE engine starts at once on the head (R73, R74). -/
def State.queueJobs (s : State) (jobs : List Job) : State :=
  let s' := s.mapTke fun k => { k with queue := k.queue ++ jobs }
  if s.tke.engine = .idle then s'.nextJob else s'

/-- The jobs of a plan with its stamps (R72, R103). -/
def jobsOf (h : Holder) (meter : Nat) (plan : List PlannedToken) (stamps : List Nat) : List Job :=
  (plan.zip stamps).map fun p => ⟨h, p.1.kind, meter, p.1.ref, p.2, p.1.payload⟩

/-- A withdrawal (R77): queued jobs of the owner go, its job in work is marked for discard. -/
def Tke.withdraw (k : Tke) (h : Holder) : Tke :=
  { k with
    queue := k.queue.filter fun j => decide (j.owner ≠ h)
    work := k.work.map fun w => if w.job.owner = h then { w with discard := true } else w }

/-- What TKE answers a withdrawal (R77): the number of jobs removed, and whether a job in work was marked. -/
def Tke.withdrawAnswer (k : Tke) (h : Holder) : Nat × Bool :=
  ((k.queue.filter fun j => decide (j.owner = h)).length, k.work.any fun w => decide (w.job.owner = h))

/-- The engine's part of an ENGINE reset (R78). -/
def Tke.reset (k : Tke) : Tke := { k with queue := [], work := none, engine := .halted }

/-! ## Stamps (R80) -/

/-- The minute clock's value, or 0 while the clock is invalid (R87). -/
def Tke.now (k : Tke) : Nat := if k.clockValid then k.minute else 0

/-- What a stamp claim is answered. -/
inductive StampAnswer where
  | refused (c : ResultCode)
  | stamped (stamps : List Nat)
  deriving DecidableEq, Repr

/-- R80, for the record's last stamp and the number of tokens planned. -/
def Tke.stampDecision (k : Tke) (last n : Nat) : StampAnswer :=
  let f := max k.minute (last + 1)
  if k.clockValid = false then .refused .clockUnset
  else if k.minute + 1440 < f then .refused .stampAhead
  else if maxMinute < f + n - 1 then .refused .stampExhausted
  else .stamped ((List.range n).map fun i => f + i)

end Sys2Proof.Machine
end

