-- ==== Sys2Proof/Machine/Rings.lean ====
section
/-! DEFINITION. The Ring Interface: the bus list, looks, replies, undeliverable replies, faults and detaching (Chapter 9). -/

namespace Sys2Proof.Machine

/-! ## Contexts end (R106, R117) -/

/-- A context in REPLYING with nothing left to wait for returns to IDLE (R106): the reply and the hold release run side by
side, and the drawer pulse is not waited for (R122). -/
def State.finish (s : State) (h : Holder) : State :=
  let x := s.ctx h
  if x.state = .replying ∧ !x.replyPending ∧ !x.releasePending then s.mapCtx h fun _ => Ctx.idle else s

/-- The outcome an undeliverable reply of a counter context becomes (R117). -/
def Ctx.outcome (x : Ctx) (q : CtxRequest) (r : Reply) : Outcome :=
  if r.code = .done then
    ⟨.done, x.serial.getD 0, q.tag, q.meter, q.money, (x.price.map PriceResult.generation).getD 0, x.returns⟩
  else abandonedOutcome q.tag q.meter q.money

/-- The reply of a context is undeliverable: a counter's becomes an outcome, the office's is lost (R117, R135). -/
def State.ctxUndelivered (s : State) (h : Holder) : State :=
  let x := s.ctx h
  let t := match h, x.request, x.reply with
    | .counter c, some q, some r => s.storeOutcome c (x.outcome q r)
    | _, _, _ => s
  (t.mapCtx h fun y => { y with attached := false, replyPending := false }).finish h

/-- The write of a TILL_CLOSE has completed (R141; log entry 7). -/
def State.closeDone (s : State) (c : Counter) : State :=
  s.mapTlu fun t => { t with closing := t.closing.set c none }

/-- RGI reports a reply undeliverable to its owner (R190, R117, R145). -/
def State.undeliver (s : State) (ring : Holder) (owner : ReplyOwner) : State :=
  match owner with
  | .nobody => s
  | .context => s.ctxUndelivered ring
  | .outcome _ _ => s
  | .closing c => s.closeDone c

/-- RGI reports a reply written to its owner (R190, R106, R145). -/
def State.delivered (s : State) (ring : Holder) (owner : ReplyOwner) : State :=
  match owner with
  | .nobody => s
  | .context => (s.mapCtx ring fun x => { x with attached := false, replyPending := false }).finish ring
  | .outcome c o =>
    let t := s.settleTill c
    if (t.till c).outcome = some o then t.removeOutcome c o else t
  | .closing c => s.closeDone c

/-! ## The bus list and faults (R190 to R192) -/

/-- No ring has a request in service. -/
def Rgi.quiet (g : Rgi) : Bool := g.rings.toList.all fun r => r.service.isNone

/-- The interface writes replies: RUNNING and STOPPING (9.2). -/
def Rgi.writes (g : Rgi) : Bool := decide (g.state = .running) || decide (g.state = .stopping)

/-- STOPPED is entered with RING status STOPPED; a look under way ends with no take (R187, R197). -/
def State.enterStopped (s : State) : State :=
  (s.mapRgi fun g => { g with state := .stopped, bus := [] }).raise .stopped

/-- STOPPING ends when no ring has a request in service (R187). -/
def State.checkStopping (s : State) : State :=
  if s.rgi.state = .stopping ∧ s.rgi.quiet then s.enterStopped else s

/-- The host address of the descriptor at a ring's cursor. -/
def Rgi.descriptorAt (g : Rgi) (k : InitCopy) (r : Holder) : Nat := (k.rings.get r).base + 96 * (g.rings.get r).cursor

/-- The window check of an access to the descriptor at a ring's cursor (R191). -/
def Rgi.accessOk (g : Rgi) (r : Holder) : Bool :=
  match g.copy with
  | some k => k.inWindow (g.descriptorAt k r) 96
  | none => false

/-- The cursor advances by 1 and wraps to 0 after the count less 1 (R190). -/
def Rgi.nextCursor (g : Rgi) (r : Holder) : Nat :=
  match g.copy with
  | some k => if (g.rings.get r).cursor + 1 < (k.rings.get r).count then (g.rings.get r).cursor + 1 else 0
  | none => 0

/-- The ring's request in service has ended: the cursor advances. -/
def State.endService (s : State) (r : Holder) : State :=
  s.mapRing r fun x => { x with service := none, cursor := s.rgi.nextCursor r }

/-- A RING_FAULT (R192): the ring halts; a reply whose write failed is undeliverable, and the cursor passes its
descriptor. -/
def State.failAccess (s : State) (r : Holder) : State :=
  let t := (s.mapRing r fun x => { x with halted := true, fault := true, poll := false }).raise (.ringFault r)
  match (s.ring r).service with
  | some ⟨_, .replying owner _⟩ => ((t.endService r).undeliver r owner).checkStopping
  | _ => t

/-- An access joins the bus list if it passes the window check; otherwise it fails as an error response would (R191). -/
def State.access (s : State) (r : Holder) (a : Access) : State :=
  if s.rgi.accessOk r then s.mapRgi fun g => { g with bus := g.bus ++ [a] } else s.failAccess r

/-- A look at a ring (R188): in RUNNING, with the ring not halted, no request in service and no look outstanding. The poll
timer stops. -/
def State.lookAt (r : Holder) (s : State) : State :=
  let x := s.ring r
  if s.rgi.state = .running ∧ !x.halted ∧ x.service.isNone ∧ Access.look r ∉ s.rgi.bus then
    (s.mapRing r fun y => { y with poll := false }).access r (.look r)
  else s

/-- The access at the head of the bus list leaves it. -/
def State.popBus (s : State) : State := s.mapRgi fun g => { g with bus := g.bus.tail }

/-! ## Requests in service (R189, R190) -/

/-- The owner of a request in service answers (R190): the reply write waits for the bus, as one access (log entry 12), or the
reply is undeliverable. -/
def State.putReply (s : State) (r : Holder) (owner : ReplyOwner) (reply : Reply) : State :=
  match (s.ring r).service with
  | none => s.undeliver r owner
  | some sv =>
    if s.rgi.writes then
      (s.mapRing r fun x => { x with service := some { sv with phase := .replying owner reply } }).access r (.reply r)
    else (s.mapRing r fun x => { x with service := none }).undeliver r owner

/-- The oldest request of a kind that a ring has given its owner and that the owner has not taken: one detached meanwhile,
or the one in service (`true`). -/
def State.waiting (s : State) (k : ReqKind) (r : Holder) : Option (Request × Bool) :=
  match s.rgi.orphans.find? fun q => decide (q.ring = r) && q.is k with
  | some q => some (q, false)
  | none =>
    match (s.ring r).service with
    | some ⟨q, .waiting⟩ => if q.is k then some (q, true) else none
    | _ => none

/-- The owner takes a waiting request: a detached one leaves the list, one in service is at its owner. -/
def State.taken (s : State) (q : Request) (attached : Bool) : State :=
  if attached then s.mapRing q.ring fun x => { x with service := some ⟨q, .atOwner⟩ }
  else s.mapRgi fun g => { g with orphans := g.orphans.erase q }

/-- The owner answers a request it has taken: one detached meanwhile has an undeliverable reply (R195). -/
def State.answerRequest (s : State) (q : Request) (attached : Bool) (owner : ReplyOwner) (reply : Reply) : State :=
  if attached then s.putReply q.ring owner reply else s.undeliver q.ring owner

/-- An owner serves the request of a kind that a ring has waiting, in one step; with none waiting the command has no effect
(log entry 1). -/
def State.serve (s : State) (k : ReqKind) (r : Holder) (f : Request → State → State × ReplyOwner × Reply) : State :=
  match s.waiting k r with
  | none => s
  | some (q, attached) =>
    let a := f q (s.taken q attached)
    a.1.answerRequest q attached a.2.1 a.2.2

/-! ## Detaching (R195) -/

/-- Detach the request in service on a ring (R195, R190). -/
def State.detach (r : Holder) (s : State) : State :=
  match (s.ring r).service with
  | none => s
  | some sv =>
    let t := s.mapRing r fun x => { x with service := none }
    match sv.phase with
    | .waiting => t.mapRgi fun g => { g with orphans := g.orphans ++ [sv.request] }
    | .atOwner => t.mapCtx r fun x => { x with attached := false }
    | .replying owner _ => t.undeliver r owner

/-- Every poll timer stops. -/
def State.stopPolls (s : State) : State :=
  s.mapRgi fun g => { g with rings := g.rings.map fun x => { x with poll := false } }

end Sys2Proof.Machine
end

