-- ==== Sys2Proof/Machine/Pricing.lean ====
section
/-! DEFINITION. The current month, the price computation and the token plan (R39, R43 to R48, R100). -/

namespace Sys2Proof.Machine

/-! ## The current month (R39) -/

/-- The month span limit: 31 days (R39). -/
def monthSpan : Nat := 44640

/-- The current month for a calendar and the minute of a valid clock (R39). -/
def currentMonth (calendar : List MonthEntry) (minute : Nat) : Option Nat :=
  match calendar with
  | [] => none
  | head :: rest =>
    if minute < head.start then none
    else if rest.isEmpty && decide (head.start + monthSpan ≤ minute) then none
    else some head.number

/-- The current month (R39): unknown while the clock is invalid. -/
def State.month (s : State) : Option Nat :=
  if s.tke.clockValid then currentMonth s.tfu.calendar s.tke.minute else none

/-! ## The price computation (R43 to R47) -/

/-- The units gained and the budget left by the block walk (R46), for the blocks from the one that covers the position on;
`pos` is the position for the first of them, and the threshold before it for each later one. -/
def blockWalk : List PriceBlock → Nat → Nat → Nat × Nat
  | [], _, budget => (0, budget)
  | b :: rest, pos, budget =>
    match b.upper with
    | none => (budget / b.price, budget % b.price)
    | some upper =>
      if budget / b.price ≤ upper - pos then (budget / b.price, budget % b.price)
      else
        let next := blockWalk rest upper (budget - (upper - pos) * b.price)
        (upper - pos + next.1, next.2)

/-- The blocks from the one that covers a position on (R31, R46). -/
def blocksFrom (blocks : List PriceBlock) (pos : Nat) : List PriceBlock :=
  blocks.dropWhile fun b =>
    match b.upper with
    | none => false
    | some upper => decide (upper ≤ pos)

/-- The arrears deduction (R44). -/
def deduction (arrears : Option Arrears) (money : Nat) : Nat :=
  match arrears with
  | none => 0
  | some a => min a.balance (money * a.percent / 100)

/-- The record's position in a month (R45). -/
def position (v : RecordView) (month : Nat) : Nat := if v.monthNumber = month then v.monthUnits else 0

/-- The allowance is due (R45). -/
def allowanceDue (v : RecordView) (e : ClassEntry) (month : Nat) : Bool :=
  decide (v.monthNumber ≠ month) && decide (0 < e.allowance) && decide (v.allowanceMonth ≠ some month)

/-- What a price claim is answered (R43). -/
inductive PriceAnswer where
  | refused (c : ResultCode)
  | priced (p : PriceResult)
  deriving DecidableEq, Repr

/-- The computation of R44 to R47, whatever its units come to. -/
def priceResult (v : RecordView) (e : ClassEntry) (month generation money : Nat) : PriceResult :=
  let d := deduction v.arrears money
  let walk := blockWalk (blocksFrom e.blocks (position v month)) (position v month) (100 * (money - d) + v.carry)
  { month := month
    generation := generation
    arrears := d
    net := money - d
    allowance := if allowanceDue v e month then e.allowance else 0
    units := walk.1
    carry := walk.2
    monthUnits := min (position v month + walk.1) max32 }

/-- The class entry of a bank for a class. -/
def Tfu.entry (t : Tfu) (k : Bank) (cls : Nat) : ClassEntry := (t.entries.get k).getD cls ClassEntry.cleared

/-- A price claim (R43), for the current month. -/
def priceDecision (t : Tfu) (month : Option Nat) (v : RecordView) (money : Nat) : PriceAnswer :=
  match month with
  | none => .refused .monthUnknown
  | some m =>
    let e := t.entry t.bank.active v.supplyClass
    let p := priceResult v e m (t.bank.generation.get t.bank.active) money
    if e.isOpen = false then .refused .classClosed
    else if p.units = 0 ∧ p.allowance = 0 then .refused .tooSmall
    else if maxUnits < p.units then .refused .amountRange
    else .priced p

/-- The plan of a sale in issue order (R100, R126). -/
def planOf (roll : Option Nat) (p : PriceResult) : List PlannedToken :=
  let ref := if roll.isSome then KeyRef.pending else KeyRef.current
  (match roll with
    | some g => [⟨.keyroll1, .current, g⟩, ⟨.keyroll2, .current, g⟩]
    | none => []) ++
  (if 0 < p.allowance then [⟨.allowance, ref, p.allowance⟩] else []) ++
  (if 0 < p.units then [⟨.credit, ref, p.units⟩] else [])

/-- The reply of a QUOTE (R119, 11.4). -/
def quoteReply (p : PriceResult) (planned : Nat) : Reply :=
  ⟨.done, leBytes 2 p.month ++ leBytes 2 p.generation ++ leBytes 3 p.arrears ++ leBytes 3 p.net ++
    leBytes 2 p.allowance ++ leBytes 3 p.units ++ leBytes 2 p.carry ++ leBytes 4 p.monthUnits ++ leBytes 1 planned⟩

/-- The meter number and the money of a QUOTE are in range (R119). -/
def quoteInRange (meter money : Nat) : Bool := meterOk meter && decide (100 ≤ money) && decide (money ≤ 500000)

/-- A QUOTE (R119, R48). -/
def quoteDecision (s : State) (meter money : Nat) : Reply :=
  if meterOk meter = false then Reply.plain .badRequest
  else if money < 100 ∨ 500000 < money then Reply.plain .amountRange
  else match s.find meter with
  | none => Reply.plain .noMeter
  | some (slot, r) =>
    if r.status = .retiring then Reply.plain .meterRetired
    else match priceDecision s.tfu s.month (r.view slot) money with
    | .refused c => Reply.plain c
    | .priced p => quoteReply p (planOf (r.roll.map KeyRoll.generation) p).length

end Sys2Proof.Machine
end

