-- ==== Sys2Proof/Machine/Tariff.lean ====
section
/-! DEFINITION. The tariff banks and the month calendar: loads, arms, applies, rollovers, and the calendar conditions
(Chapter 2). -/

namespace Sys2Proof.Machine

/-! ## Banks (R30, R33 to R38) -/

/-- The shadow bank (R30). -/
def BankState.shadow (k : BankState) : Bank := k.active.other

/-- The generation of the active bank. -/
def BankState.activeGeneration (k : BankState) : Nat := k.generation.get k.active

/-- Set or clear the loaded flag of a class. -/
def setFlag (flags : BitVec 16) (cls : Nat) (v : Bool) : BitVec 16 :=
  if v then flags ||| (1#16 <<< cls) else flags &&& ~~~(1#16 <<< cls)

/-- One block of a TARIFF body (11.6); the last has no threshold. -/
def carriedBlock (i : LineInstr) (n k : Nat) : PriceBlock :=
  ⟨i.field (7 + 6 * k) 2, if k + 1 = n then none else some (i.field (9 + 6 * k) 4)⟩

/-- The class entry a TARIFF carries. -/
def carriedEntry (i : LineInstr) : ClassEntry where
  isOpen := decide (i.field 3 1 % 2 = 1)
  blocks := (List.range (i.field 6 1)).map (carriedBlock i (i.field 6 1))
  allowance := i.field 4 2

/-- A class entry in range (R31, R33). -/
def ClassEntry.ok (e : ClassEntry) : Bool :=
  decide (1 ≤ e.blocks.length) && decide (e.blocks.length ≤ 4) && decide (e.allowance ≤ 2000) &&
    e.blocks.all (fun b => decide (1 ≤ b.price) && decide (b.price ≤ 65535) &&
      (match b.upper with | none => true | some u => decide (1 ≤ u) && decide (u ≤ max32))) &&
    decide ((e.blocks.filterMap PriceBlock.upper).Pairwise (· < ·))

/-- The bank state after the first write of an accepted TARIFF (R34). -/
def BankState.loadFirst (k : BankState) (g cls : Nat) : BankState :=
  let kept := if k.generation.get k.shadow = g then k.loaded.get k.shadow else 0
  { k with
    arm := none
    generation := k.generation.set k.shadow g
    loaded := k.loaded.set k.shadow (setFlag kept cls false) }

/-- The bank state after the third write (R34). -/
def BankState.loadLast (k : BankState) (cls : Nat) : BankState :=
  { k with loaded := k.loaded.set k.shadow (setFlag (k.loaded.get k.shadow) cls true) }

/-- Write a class entry of a bank. -/
def Tfu.setEntry (t : Tfu) (k : Bank) (cls : Nat) (e : ClassEntry) : Tfu :=
  { t with entries := t.entries.set k ((t.entries.get k).set cls e) }

/-- The three writes of an accepted TARIFF (R34). -/
def Tfu.load (t : Tfu) (g cls : Nat) (e : ClassEntry) : Tfu :=
  { t.setEntry t.bank.shadow cls e with bank := (t.bank.loadFirst g cls).loadLast cls }

/-- The answer of TFU to a TARIFF (R33), and whether it loads. -/
def tariffDecision (t : Tfu) (i : LineInstr) : Answer × Bool :=
  let g := i.field 0 2
  let echo := slice i.body 0 3
  if g < 1 ∨ 65535 < g ∨ 15 < i.field 2 1 ∨ (carriedEntry i).ok = false then (⟨.badField, echo, []⟩, false)
  else if g ≤ t.bank.activeGeneration then (⟨.staleGeneration, echo, []⟩, false)
  else (⟨.accepted, echo, []⟩, true)

/-- The apply is due (R36). -/
def State.applyDue (s : State) : Bool :=
  match s.tfu.bank.arm with
  | some a => s.tke.clockValid && decide (a.minute ≤ s.tke.minute)
  | none => false

/-- The bank state after an apply (R36). -/
def BankState.apply (k : BankState) : BankState :=
  { k with active := k.shadow, loaded := k.loaded.set k.active 0, arm := none }

/-- TFU looks for the apply (R36). -/
def State.applyLook (s : State) : State :=
  if s.applyDue then (s.mapTfu fun t => { t with bank := t.bank.apply }).raise .applied else s

/-- The answer of TFU to an ARM (R35); `true` when it is accepted. -/
def armDecision (t : Tfu) (i : LineInstr) : AnswerCode :=
  let g := i.field 0 2
  if g < 1 ∨ 65535 < g ∨ maxMinute < i.field 2 4 then .badField
  else if t.bank.generation.get t.bank.shadow ≠ g ∨ t.bank.loaded.get t.bank.shadow ≠ 0xFFFF then .incomplete
  else if g ≤ t.bank.activeGeneration then .staleGeneration
  else .accepted

/-! ## The calendar (R39 to R42) -/

/-- The month entries a MONTHS carries (11.6). -/
def carriedMonths (i : LineInstr) : List MonthEntry :=
  (List.range (i.field 0 1)).map fun k => ⟨i.field (1 + 6 * k) 2, i.field (3 + 6 * k) 4⟩

/-- Each entry has the month number of the one before plus 1 and a greater start minute (R39, R41). -/
def monthsFollow : List MonthEntry → Bool
  | a :: b :: rest => decide (b.number = a.number + 1) && decide (a.start < b.start) && monthsFollow (b :: rest)
  | _ => true

/-- The calendar's form (R39). -/
def calendarOk (l : List MonthEntry) : Bool :=
  decide (l.length ≤ 24) && monthsFollow l &&
    l.all fun e => decide (1 ≤ e.number) && decide (e.number ≤ 65535) && decide (e.start ≤ maxMinute)

/-- The answer of TFU to a MONTHS (R41). -/
def monthsDecision (calendar : List MonthEntry) (i : LineInstr) : AnswerCode :=
  let carried := carriedMonths i
  if carried.isEmpty || decide (6 < carried.length) ||
      carried.any (fun e => decide (e.number < 1) || decide (65535 < e.number) || decide (maxMinute < e.start)) then
    .badField
  else if carried.all fun e => decide (e ∈ calendar) then .duplicate
  else if monthsFollow (calendar.getLast?.toList ++ carried) = false then .badField
  else if 24 < calendar.length + carried.length then .storeFull
  else .accepted

/-- Remove from the head every entry whose successor's start minute the clock has reached (R40). -/
def rolled (minute : Nat) : List MonthEntry → List MonthEntry
  | a :: b :: rest => if b.start ≤ minute then rolled minute (b :: rest) else a :: b :: rest
  | l => l

/-- The level CALENDAR_LOW: fewer than 2 entries follow the head (R42). -/
def State.calendarLow (s : State) : Bool := decide (s.tfu.calendar.length < 3)

/-- TFU looks for the rollover (R40). -/
def State.rolloverLook (s : State) : State :=
  if s.tke.clockValid then s.mapTfu fun t => { t with calendar := rolled s.tke.minute t.calendar } else s

/-- Make a change of the clock or the calendar and raise the calendar conditions it causes (R42). -/
def watchMonth (f : State → State) (s : State) : State :=
  let t := f s
  ((t.raiseIf (!s.calendarLow && t.calendarLow) .calendarLow).raiseIf
      (t.month.isSome && decide (t.month ≠ s.month)) .monthChanged).raiseIf
    (s.month.isSome && t.month.isNone) .monthLost

/-- A clock event reaches TFU (R36, R40): the look for the apply, then the look for the rollover. That the apply is made first
is the model's choice (log entry 26). Both writes complete within the row, and the start looks before them have completed. -/
def State.clockEvent (s : State) : State := s.applyLook.rolloverLook.mapTfu fun t => { t with before := none }

/-- The clock set to a minute and marked valid (R89, R90). -/
def Tke.setTo (k : Tke) (minute : Nat) : Tke := { k with clockValid := true, minute := minute }

/-- The clock advances by 1 and stays at its largest value (R87). -/
def Tke.advance (k : Tke) : Tke := { k with minute := min maxMinute (k.minute + 1) }

/-- A change of the clock, and then the clock event that it is (R87), each with the calendar conditions it causes (R42). -/
def moveClock (f : Tke → Tke) (s : State) : State := watchMonth State.clockEvent (watchMonth (fun s => s.mapTke f) s)

/-! ## The store records of TFU -/

/-- The store records of TFU. -/
def Tfu.store (t : Tfu) : TfuStore := ⟨t.bank, t.entries, t.calendar⟩

/-- Put the store records of TFU. -/
def Tfu.putStore (t : Tfu) (x : TfuStore) : Tfu :=
  { t with bank := x.bank, entries := x.entries, calendar := x.calendar }

/-- TFU starts (R36, R40, R42): the looks, then the conditions against an unknown month. -/
def State.startTfu (s : State) : State :=
  let t := s.applyLook.rolloverLook.mapTfu fun t => { t with before := some s.tfu.store }
  (t.raiseIf t.calendarLow .calendarLow).raiseIf t.month.isSome .monthChanged

/-- What the store holds before and between the writes of the start looks (R36, R40). -/
def Tfu.earlier (t : Tfu) : List TfuStore :=
  match t.before with
  | none => []
  | some x => [x, ⟨t.bank, t.entries, x.calendar⟩]

/-- What the store holds after each write of a TARIFF: its three writes (R34). -/
def Tfu.tariffWrites (t : Tfu) (i : LineInstr) : List TfuStore :=
  if (tariffDecision t i).2 then
    let first := t.bank.loadFirst (i.field 0 2) (i.field 2 1)
    let second := (t.setEntry t.bank.shadow (i.field 2 1) (carriedEntry i)).entries
    [⟨first, t.entries, t.calendar⟩, ⟨first, second, t.calendar⟩,
      ⟨first.loadLast (i.field 2 1), second, t.calendar⟩]
  else []

/-- TFU with the arm that an accepted ARM writes (R35). -/
def Tfu.armed (t : Tfu) (i : LineInstr) : Tfu :=
  { t with bank := { t.bank with arm := some ⟨i.field 0 2, i.field 2 4⟩ } }

/-- TFU with the entries that an accepted MONTHS appends (R41). -/
def Tfu.appended (t : Tfu) (i : LineInstr) : Tfu := { t with calendar := t.calendar ++ carriedMonths i }

end Sys2Proof.Machine
end

