-- ==== Sys2Proof/Machine/Vend.lean ====
section
/-! DEFINITION. The Vend Controller: the contexts, take checks, holds and parking, issuing, the commit, wind-backs, and the
claims they make on FLU, with FLU's answers (Chapters 3, 5 and 6). -/

namespace Sys2Proof.Machine

/-! ## Replies of a context (11.4) -/

/-- The DONE reply of a VEND (R106). -/
def Ctx.vendReply (x : Ctx) : Reply :=
  let p := fun (f : PriceResult → Nat) => (x.price.map f).getD 0
  ⟨.done, withTokens (leBytes 4 (x.serial.getD 0) ++ leBytes 3 ((x.request.map CtxRequest.money).getD 0) ++
    leBytes 3 (p PriceResult.arrears) ++ leBytes 3 (p PriceResult.net) ++ leBytes 3 (p PriceResult.units) ++
    leBytes 2 (p PriceResult.allowance) ++ leBytes 2 (p PriceResult.generation) ++ leBytes 1 x.returns.length)
    x.returns⟩

/-- The DONE reply of an office issue (R132): the new key generation for a KEYROLL_ONLY, the limit as applied for a
SET_LIMIT, 0 otherwise. -/
def Ctx.officeReply (x : Ctx) : Reply :=
  let generation := (rollOf x.plan).getD 0
  let limit := match x.request.map CtxRequest.task with
    | some (.setLimit w) => 2 * (w / 2)
    | _ => 0
  ⟨.done, withTokens (leBytes 1 x.returns.length ++ leBytes 1 generation ++ leBytes 2 limit) x.returns⟩

/-- The code of a stop mark (R115). -/
def StopMark.code : StopMark → ResultCode
  | .cancel => .cancelled
  | .engineReset => .engineReset

/-- VNC hands a context's reply to RGI and the context moves to REPLYING (R96, R102, R106). A refusal discards the price
result, the stamps, the plan and the returns (R102, R114). -/
def State.ctxReply (s : State) (h : Holder) (reply : Reply) : State :=
  let t := s.mapCtx h fun x =>
    if reply.code = .done then
      { x with state := .replying, reply := some reply, await := .nothing, stop := none, replyPending := true }
    else
      { x with
        state := .replying, reply := some reply, await := .nothing, stop := none, replyPending := true, price := none,
        stamps := [], plan := [], returns := [] }
  if (s.ctx h).attached then t.putReply h .context reply else t.ctxUndelivered h

/-! ## Holds (R10 to R12, R98, R108, R109) -/

/-- The oldest park list entry for a slot (R12). -/
def Vnc.oldestFor (v : Vnc) (slot : Nat) : Option ParkEntry := v.park.find? fun e => decide (e.slot = slot)

/-- An entry leaves the park list (R109). -/
def State.unpark (s : State) (h : Holder) : State :=
  s.mapVnc fun v => { v with park := v.park.filter fun e => decide (e.holder ≠ h) }

/-- The hold passes to a parked holder (R12, R110): its entry leaves the list, and it waits for the handover write. -/
def State.handOver (s : State) (slot : Nat) (r : MeterRecord) (from_ : Holder) (e : ParkEntry) : State :=
  let r' := { r with hold := some e.holder }
  (((s.putRecord slot r').beginWrite (.release (some e.holder)) from_ slot r).unpark e.holder).mapCtx e.holder
    fun x => { x with state := .issuing, await := .handover, slot := some slot, view := some (r'.view slot) }

/-- A release claim for the hold of a context (R12): removal, handover or release, each one write. A claim from a holder
that does not hold the record changes nothing. -/
def State.releaseHold (s : State) (h : Holder) : State :=
  match (s.ctx h).slot with
  | none => s
  | some slot =>
    match s.record slot with
    | none => s
    | some r =>
      if r.hold = some h then
        let t := (s.settleSlot slot).mapCtx h fun x => { x with releasePending := true }
        if r.status = .retiring then (t.dropRecord slot).beginWrite (.release none) h slot r
        else match s.vnc.oldestFor slot with
        | none => (t.putRecord slot { r with hold := none }).beginWrite (.release none) h slot r
        | some e => t.handOver slot r h e
      else s

/-- Wind a context back: release the hold, if it holds the record, and answer (R102, R114). -/
def State.refuseHeld (s : State) (h : Holder) (reply : Reply) : State := (s.releaseHold h).ctxReply h reply

/-- The answer of a stopped context: the code of its stop mark (R115). -/
def State.stopReply (s : State) (h : Holder) : Reply :=
  Reply.plain ((s.ctx h).stop.map StopMark.code |>.getD .engineReset)

/-- A stopped context winds back and is answered (R115). -/
def State.endStopped (s : State) (h : Holder) : State := s.refuseHeld h (s.stopReply h)

/-- VNC acts on the answer of a hold claim (R98, R108, R115): BUSY parks the request and a refusal answers it. A stopped
context does not park, holds nothing, and its answer is the code of its stop mark. -/
def State.holdAnswered (s : State) (h : Holder) (a : HoldAnswer) : State :=
  if (s.ctx h).stop.isSome then s.ctxReply h (s.stopReply h)
  else match a with
  | .refused reply => s.ctxReply h reply
  | .busy slot other =>
    (s.mapCtx h fun x => { x with state := .parked, slot := some slot, await := .nothing }).mapVnc fun v =>
      { v with park := v.park ++ [⟨h, slot, s.tke.now, other⟩] }
  | .granted _ _ => s

/-- The hold claim of a context in ISSUING (R98, R109, R129). A grant is one write, behind the writes of the record under
way; any other answer is given at once, or when those writes have completed (R2, R10). -/
def State.holdClaim (s : State) (h : Holder) (meter : Nat) : State :=
  match holdDecision s.adir.table h meter with
  | .granted slot r =>
    let r' := { r with hold := some h }
    ((s.putRecord slot r').beginWrite .grant h slot r).mapCtx h fun x =>
      { x with state := .issuing, slot := some slot, view := some (r'.view slot), await := .grant }
  | a =>
    if s.adir.busyOn meter then
      (s.mapCtx h fun x => { x with await := .hold }).mapAdir fun d =>
        { d with waiting := d.waiting ++ [⟨h, meter, (d.writesOn meter).length, a⟩] }
    else s.holdAnswered h a

/-- A write has had its row: the hold claims that waited for it alone leave ADIR. -/
def Adir.countDown (a : Adir) (meter : Nat) : Adir :=
  { a with
    waiting := a.waiting.filterMap fun x =>
      if x.meter = meter then (if x.behind ≤ 1 then none else some { x with behind := x.behind - 1 }) else some x }

/-- The hold claims that wait for one more write of a meter's record and no other. -/
def Adir.dueOn (a : Adir) (meter : Nat) : List HoldWait :=
  a.waiting.filter fun x => decide (x.meter = meter) && decide (x.behind ≤ 1)

/-- Hold claims are answered one after the other. -/
def State.answerEach (s : State) (l : List HoldWait) : State := l.foldl (fun t x => t.holdAnswered x.holder x.answer) s

/-- Hold claims that waited are answered, in the order they came. -/
def State.answerAll (s : State) (l : List HoldWait) : State :=
  if l.length ≤ 1 then s.answerEach l else s.markStores (s.answerEach l)

/-- A write of a record completes (R2): the hold claims that waited for it are answered. -/
def State.answerWaiting (s : State) (meter : Nat) : State :=
  (s.mapAdir fun a => a.countDown meter).answerAll (s.adir.dueOn meter)

/-- The hold claims that wait for the record of some meters are answered. -/
def State.answerHolds (s : State) (p : HoldWait → Bool) : State :=
  (s.mapAdir fun a => { a with waiting := a.waiting.filter fun x => !p x }).answerAll (s.adir.waiting.filter p)

/-- A claim on a meter number is taken (R2): the writes of its record under way have completed, and the hold claims that
came before it have been answered. -/
def State.claimMeter (s : State) (meter : Nat) : State :=
  (s.settleMeter meter).answerHolds fun x => decide (x.meter = meter)

/-- Every slot from `lo` to before `hi` is read by a sweep (R2, R8, R177), behind the writes and the hold claims on its
record. -/
def State.claimRange (s : State) (lo hi : Nat) : State :=
  (s.settleRange lo hi).answerHolds fun x =>
    s.adir.writes.any fun w => decide (w.old.number = x.meter) && decide (lo ≤ w.slot) && decide (w.slot < hi)

/-- A write of a record has its row: it ends, and the claims that waited for it are answered. -/
def State.finishWrite (s : State) (p : RecordWrite → Bool) (w : RecordWrite) : State :=
  (s.endWrite p).answerWaiting w.old.number

/-! ## Rows that may store the outcomes of several undeliverable replies (R117, R146) -/

/-- An event of a running part whose replies may be undeliverable in several tills. -/
def whenStoring (f : State → State) (s : State) : Out := whenInService (fun s => s.markStores (f s)) s

/-! ## Claims on FLU (R52, R61 to R66) -/

/-- A claim reaches FLU and waits its turn (R52). -/
def State.claimFloat (s : State) (k : FloatClaim) : State := s.mapFlu fun f => { f with queue := f.queue ++ [k] }

/-- The free claim (R106). -/
def State.tillPartDone (s : State) (c : Counter) : State :=
  (s.mapCtx (.counter c) fun x => { x with await := .free }).claimFloat (.free c)

/-- The till part claim (R105, R142). -/
def State.tillPartClaim (s : State) (c : Counter) : State :=
  match s.flu.sealedImage c with
  | none => s
  | some i =>
    let t := s.settleTill c
    let old := s.till c
    if old.lastSerial = i.serial then t.tillPartDone c
    else
      ((t.mapTill c fun r => r.count i).mapTlu fun u =>
          { u with part := u.part.set c (some ⟨old, decide (old.state = .closed), false⟩) }).mapCtx (.counter c)
        fun x => { x with await := .tillPart }

/-- The float part claim (R105). -/
def State.recordPartDone (s : State) (c : Counter) : State :=
  (s.mapCtx (.counter c) fun x => { x with await := .floatPart }).claimFloat (.floatPart c)

/-- The record part claim (R105, R15). -/
def State.recordPartClaim (s : State) (c : Counter) : State :=
  match s.flu.sealedImage c with
  | none => s
  | some i =>
    match s.record i.sale.slot with
    | none => s.recordPartDone c
    | some r =>
      let t := s.settleSlot i.sale.slot
      if r.hasSerial i.serial then t.recordPartDone c
      else
        ((t.putRecord i.sale.slot (r.commit c i)).beginWrite .recordPart (.counter c) i.sale.slot r).mapCtx (.counter c)
          fun x => { x with await := .recordPart }

/-- A CANCEL or an ENGINE reset met a sale whose seal was taken first: the mark is cleared, and CANCEL_LATE is set for a
CANCEL (R114, R115). -/
def State.stopTooLate (s : State) (h : Holder) : State :=
  (s.mapCtx h fun x => { x with stop := none }).raiseIf (decide ((s.ctx h).stop = some .cancel)) .cancelLate

/-- ULC's dispatched instruction is answered by its owner (R174). -/
def State.answered (s : State) (code : AnswerCode) (echo detail : List Byte) : State :=
  s.mapUlc fun u => { u with dispatched := u.dispatched.map fun d => { d with phase := .answered code echo detail } }

/-- FLU answers a GRANT (R54). -/
def State.takeGrant (s : State) (n a : Nat) : State :=
  match s.flu.grantCode n a with
  | .accepted =>
    let t := (s.completeFloat (.grant n a)).raise .grantTaken
    t.answered .accepted (beBytes 4 n) (beBytes 4 t.flu.available)
  | code => s.answered code (beBytes 4 n) []

/-- FLU answers a RECALL (R55). -/
def State.takeRecall (s : State) (n a : Nat) : State :=
  match s.flu.recallCode n a with
  | .accepted =>
    (s.completeFloat (.recall n a)).answered .accepted (beBytes 4 n) (beBytes 4 (min a s.flu.available))
  | code => s.answered code (beBytes 4 n) []

/-- FLU answers a FLOAT_TERMS (R57). -/
def State.takeTerms (s : State) (ceiling lowMark vendCap : Nat) : State :=
  if termsOk ceiling lowMark vendCap then
    (s.completeFloat (.terms ceiling lowMark vendCap)).answered .accepted [] []
  else s.answered .badField [] []

/-- FLU takes a claim (R52): it begins the claim's write, or the claim is answered at once. The writes of GRANT, RECALL and
FLOAT_TERMS complete in the step that takes them (log entry 6). -/
def State.takeFloat (s : State) (k : FloatClaim) : State :=
  let start := s.mapFlu fun f => { f with writing := some k }
  match k with
  | .reserve c sale =>
    match s.flu.reserveRefusal c sale with
    | none => start
    | some reply => if (s.ctx (.counter c)).stop.isSome then s.endStopped (.counter c) else s.refuseHeld (.counter c) reply
  | .release c =>
    match s.flu.entries.get c with
    | .issuing _ => start
    | .sealed _ => s.stopTooLate (.counter c)
    | .free => s.endStopped (.counter c)
  | .seal c _ =>
    match s.flu.entries.get c with
    | .issuing _ => start
    | _ => s
  | .floatPart c =>
    match s.flu.sealedImage c with
    | some _ => if s.flu.floatApplied c then s.tillPartClaim c else start
    | none => s
  | .free c => if s.flu.floatApplied c then start else s
  | .grant n a => s.takeGrant n a
  | .recall n a => s.takeRecall n a
  | .terms ceiling lowMark vendCap => s.takeTerms ceiling lowMark vendCap

/-- FLU takes waiting claims, oldest first, until one begins a write. Each claim taken makes at most one more, so twice the
queue is fuel enough. -/
def drainFloat : Nat → State → State
  | 0, s => s
  | n + 1, s =>
    match s.flu.writing, s.flu.queue with
    | none, k :: rest => drainFloat n ((s.mapFlu fun f => { f with queue := rest }).takeFloat k)
    | _, _ => s

/-- FLU takes what it can (R52). -/
def State.pumpFloat (s : State) : State :=
  let t := drainFloat (2 * s.flu.queue.length + 2) s
  if s.flu.queue.length ≤ 1 then t else s.markStores t

/-! ## Take checks (R96, R97, R129) -/

/-- The till state that take check 2 reads (R97): the state before a TILL_CLOSE whose write may not have completed, by a
free choice (log entry 7). -/
def State.tillStateRead (s : State) (c : Counter) : TillState :=
  match s.tlu.closing.get c with
  | some old => if s.freeBit then old else (s.till c).state
  | none => (s.till c).state

/-- The state after take check 2 has read the till: a read of the new state shows that the close write has completed. -/
def State.tillReadDone (s : State) (c : Counter) : State :=
  if (s.tlu.closing.get c).isSome then (if s.freeBit then s.drawn else s.drawn.closeDone c) else s

/-- The link is stale (R97). -/
def State.stale (s : State) : Bool := decide (s.ulc.line ≠ .up) && decide (s.ulc.holdover < s.tke.sinceUp)

/-- Take checks 5 to 7 (R96): service mode, link, clock and month. -/
def State.serviceRefusal (s : State) (money : Nat) : Option ResultCode :=
  if s.ulc.mode = .halt then some .salesHalted
  else if s.ulc.mode = .capped ∧ s.flu.record.vendCap < money then some .overCap
  else if s.stale then some .linkStale
  else if s.tke.clockValid = false then some .clockUnset
  else if s.month.isNone then some .monthUnknown
  else none

/-- The take checks of a VEND before the one that reads the outcome (R96). -/
def State.tillRefusal (s : State) (c : Counter) (meter money : Nat) : Option ResultCode :=
  if meterOk meter = false then some .badRequest
  else if money < 100 ∨ 500000 < money then some .amountRange
  else if s.tillStateRead c = .closed then some .tillClosed
  else if s.tillStateRead c = .paused then some .tillPaused
  else if (s.lines c).blocks then some .drawerOpen
  else none

/-- The take checks of a VEND in order (R96). -/
def State.vendRefusal (s : State) (c : Counter) (meter money : Nat) : Option ResultCode :=
  match s.tillRefusal c meter money with
  | some code => some code
  | none =>
    if ((s.tillReadDone c).outcomeSeen c).isSome then some .outcomePending else s.serviceRefusal money

/-- The take checks of an office issue (R129), but for its engineering kind and limit, which cannot change after the
take. -/
def State.officeRefusal (s : State) (meter : Nat) : Option ResultCode :=
  if meterOk meter = false then some .badRequest
  else if s.tke.clockValid = false then some .clockUnset
  else none

/-- The take checks of a context's request (R96, R110, R129). -/
def State.takeRefusal (s : State) (h : Holder) (q : CtxRequest) : Option ResultCode :=
  match h with
  | .counter c => s.vendRefusal c q.meter q.money
  | .office => s.officeRefusal q.meter

/-- The state after the take checks have read their sources: the till's state, and behind it the outcome. -/
def State.checked (s : State) (h : Holder) (q : CtxRequest) : State :=
  match h with
  | .counter c =>
    if (s.tillRefusal c q.meter q.money).isSome then s.tillReadDone c else (s.tillReadDone c).outcomeReadDone c
  | .office => s

/-! ## Under the hold (R99 to R103, R130, R131) -/

/-- The ISSUING fields of a reserve claim (R60, R101). -/
def saleOf (q : CtxRequest) (v : RecordView) (p : PriceResult) (plan : List PlannedToken) : Sale where
  slot := v.slot
  meter := q.meter
  tag := q.tag
  money := q.money
  arrears := p.arrears
  net := p.net
  units := p.units
  allowanceDue := decide (0 < p.allowance)
  allowance := p.allowance
  month := p.month
  generation := p.generation
  carry := p.carry
  monthUnits := p.monthUnits
  plan := plan

/-- A counter's price, stamp and reserve claims (R99 to R101). -/
def State.priceAndReserve (s : State) (c : Counter) (q : CtxRequest) (v : RecordView) : State :=
  let h := Holder.counter c
  match priceDecision s.tfu s.month v q.money with
  | .refused code => s.refuseHeld h (Reply.plain code)
  | .priced p =>
    let plan := planOf v.rollGeneration p
    match s.tke.stampDecision v.lastStamp plan.length with
    | .refused code => s.refuseHeld h (Reply.plain code)
    | .stamped stamps =>
      (s.mapCtx h fun x => { x with price := some p, plan := plan, stamps := stamps, await := .reserve }).claimFloat
        (.reserve c (saleOf q v p plan))

/-- VNC submits a context's plan to TKE (R103, R130, R131). A refused submit ends the sale as an ENGINE reset ends it; the
office has no reservation to release. OWNER_BUSY, which does not arise in service, is treated as HALTED (log entry 10). -/
def State.submit (s : State) (h : Holder) (meter : Nat) (plan : List PlannedToken) (stamps : List Nat) : State :=
  match s.tke.submitDecision h with
  | .queued => (s.mapCtx h fun x => { x with await := .tokens }).queueJobs (jobsOf h meter plan stamps)
  | _ =>
    match h with
    | .counter c =>
      (s.mapCtx h fun x => { x with stop := some .engineReset, await := .release }).claimFloat (.release c)
    | .office => s.refuseHeld h (Reply.plain .engineReset)

/-- The plan of an office issue (R130, R131); none when a KEYROLL_ONLY finds no roll pending. -/
def officePlan (task : Task) (roll : Option Nat) : Option (List PlannedToken) :=
  match task with
  | .keyrollOnly => roll.map fun g => [⟨.keyroll1, .current, g⟩, ⟨.keyroll2, .current, g⟩]
  | .clearTamper => some [⟨.clearTamper, .current, 0⟩]
  | .setLimit w => some [⟨.setLimit, .current, w⟩]
  | .vend => none

/-- An office issue under the hold (R130, R131). -/
def State.issueOffice (s : State) (q : CtxRequest) (v : RecordView) : State :=
  match officePlan q.task v.rollGeneration with
  | none => s.refuseHeld .office (Reply.plain .notPermitted)
  | some plan =>
    match s.tke.stampDecision v.lastStamp plan.length with
    | .refused code => s.refuseHeld .office (Reply.plain code)
    | .stamped stamps =>
      (s.mapCtx .office fun x => { x with plan := plan, stamps := stamps }).submit .office q.meter plan stamps

/-- The request of a context goes on under the hold (R98, R129). -/
def State.proceed (s : State) (h : Holder) : State :=
  match (s.ctx h).request, (s.ctx h).view with
  | some q, some v =>
    match h with
    | .counter c => s.priceAndReserve c q v
    | .office => s.issueOffice q v
  | _, _ => s

/-- A parked request resumes with the hold (R110). One that was stopped while the handover was written gives the hold back
(log entry 20). -/
def State.resume (s : State) (h : Holder) : State :=
  match (s.ctx h).request, (s.ctx h).view with
  | some q, some v =>
    if (s.ctx h).stop.isSome then s.endStopped h
    else match s.takeRefusal h q with
    | some code => (s.checked h q).refuseHeld h (Reply.plain code)
    | none =>
      match checkRecord h v.status v.refer with
      | some reply => (s.checked h q).refuseHeld h reply
      | none => (s.checked h q).proceed h
  | _, _ => s

/-! ## Taking requests (R94 to R96, R129) -/

/-- An IDLE context takes a request: it leaves IDLE with it (R93). -/
def State.enterCtx (s : State) (h : Holder) (q : CtxRequest) (attached : Bool) : State :=
  s.mapCtx h fun _ => { Ctx.idle with state := .issuing, request := some q, attached := attached }

/-- A context is IDLE: an outcome that its last sale left has been stored (R106). -/
def State.idleSeen (s : State) (h : Holder) : State :=
  match h with
  | .counter c => s.mapTlu fun t => t.stored c
  | .office => s

/-- An IDLE context's take: the take checks, then the hold claim. `bad` is a refusal found before them. -/
def State.takeInCtx (before : State) (h : Holder) (q : CtxRequest) (attached bad : Bool) : State :=
  let s := before.idleSeen h
  let t := s.enterCtx h q attached
  if bad then t.ctxReply h (Reply.plain .badRequest)
  else match s.takeRefusal h q with
  | some code => (t.checked h q).ctxReply h (Reply.plain code)
  | none => (t.checked h q).holdClaim h q.meter

/-- A request that its context is to run (R94, R95): taken if the context is IDLE, else answered COUNTER_BUSY. That reply is
no context's, so it is lost when it is undeliverable (log entry 19). -/
def State.serveInCtx (s : State) (k : ReqKind) (h : Holder) (read : Request → CtxRequest × Bool) : State :=
  match s.waiting k h with
  | none => s
  | some (q, attached) =>
    let t := s.taken q attached
    if (s.ctx h).state = .idle then t.takeInCtx h (read q).1 attached (read q).2
    else t.answerRequest q attached .nobody (Reply.plain .counterBusy)

/-! ## Completions -/

/-- A digits return reaches a context (R103, R104, R132). -/
def State.digitsReturn (s : State) (h : Holder) (t : Token) : State :=
  let x := s.ctx h
  if x.state = .issuing ∧ x.stop = none ∧ x.await = .tokens then
    let returns := x.returns ++ [t]
    if returns.length < x.plan.length then s.mapCtx h fun y => { y with returns := returns }
    else
      match h with
      | .counter c =>
        (s.mapCtx h fun y => { y with returns := returns, await := .seal }).claimFloat (.seal c returns)
      | .office =>
        let u := s.mapCtx h fun y => { y with returns := returns, state := .committing, await := .officeCommit }
        match x.slot with
        | none => u
        | some slot =>
          match s.record slot with
          | none => u
          | some r =>
            if r.hold = some .office then
              ((u.settleSlot slot).putRecord slot (r.officeCommit returns (rollOf x.plan))).beginWrite .officeCommit
                .office slot r
            else u
  else s

/-- The free write has completed (R106): the hold is released, the drawer pulse asked for, and the reply handed to RGI. -/
def State.endSale (s : State) (c : Counter) : State :=
  let h := Holder.counter c
  let x := s.ctx h
  let t := s.releaseHold h
  let money := (x.request.map CtxRequest.money).getD 0
  let u := if 0 < money ∧ (t.lines c).function = .drawer then t.mapLines c LinePair.pulseRequest else t
  u.ctxReply h x.vendReply

/-! ## Stops (R112 to R116, R78) -/

/-- Wind back an ISSUING context with a stop mark (R114, R115): a claim outstanding is waited for; a plan in the engine is
withdrawn and the reservation released. The handover write to a resumed context is waited for like the grant (log entry
20). -/
def State.windBack (s : State) (h : Holder) (mark : StopMark) : State :=
  let x := s.ctx h
  if x.stop.isSome then s
  else
    let t := s.mapCtx h fun y => { y with stop := some mark }
    if x.await = .tokens then
      let u := (t.mapTke fun k => k.withdraw h).mapCtx h fun y => { y with returns := [] }
      match h with
      | .counter c => (u.mapCtx h fun y => { y with await := .release }).claimFloat (.release c)
      | .office => u.endStopped h
    else t

/-- A CANCEL of a holder's context (R112 to R116). -/
def State.cancelCtx (s : State) (h : Holder) : State :=
  match (s.ctx h).state with
  | .idle => s
  | .parked => (s.unpark h).ctxReply h (Reply.plain .cancelled)
  | .issuing => s.windBack h .cancel
  | _ => s.raise .cancelLate

/-- The engine reset notice reaches a context (R78, R115). -/
def State.engineNotice (h : Holder) (s : State) : State :=
  if (s.ctx h).state = .issuing then s.windBack h .engineReset else s

end Sys2Proof.Machine
end

