-- ==== Sys2Proof/Machine/Link.lean ====
section
/-! DEFINITION. The Utility Link Controller: rate, line states, parcels, the nibble, the upward queue, dispatch and sweeps
(Chapter 8). -/

namespace Sys2Proof.Machine

/-! ## Rate (R156) -/

/-- The detected rate for the cycles of a window. -/
def rateOf (cycles : Nat) : Rate :=
  if cycles = 0 then .none
  else if 233 ≤ cycles ∧ cycles ≤ 247 then .r2400
  else if 466 ≤ cycles ∧ cycles ≤ 494 then .r4800
  else if 932 ≤ cycles ∧ cycles ≤ 988 then .r9600
  else if 1863 ≤ cycles ∧ cycles ≤ 1977 then .r19200
  else .outOfRange

/-- A rate in range. -/
def Rate.inRange : Rate → Bool
  | .none | .outOfRange => false
  | _ => true

/-- The code of a rate (11.2). -/
def Rate.code : Rate → Nat
  | .none => 0 | .r2400 => 1 | .r4800 => 2 | .r9600 => 3 | .r19200 => 4 | .outOfRange => 5

/-- The code of a line state (11.2). -/
def LineState.code : LineState → Nat
  | .off => 0 | .detect => 1 | .train => 2 | .up => 3 | .slip => 4

/-- The code of a service mode (11.2). -/
def ServiceMode.code : ServiceMode → Nat
  | .normal => 0 | .capped => 1 | .halt => 2

/-! ## Upward parcels (R165, R168, 11.6) -/

/-- The flag byte. -/
def flag : Byte := 0x7E

/-- The CRC-16 over bytes in order, each most significant bit first (R165). -/
def crcBytes (bytes : List Byte) : BitVec 16 := crc16 (bytes.flatMap bitsOf)

/-- A parcel: flag, header, body, check, flag. -/
def parcel (kind office : Nat) (nibble : BitVec 4) (body : List Byte) : List Byte :=
  let content := [BitVec.ofNat 8 kind] ++ beBytes 2 office ++
    [BitVec.ofNat 8 (nibble.toNat * 16 + body.length / 256), BitVec.ofNat 8 body.length] ++ body
  [flag] ++ content ++ beBytes 2 (crcBytes content).toNat ++ [flag]

/-- The up-nibble as it stands (R168). -/
def State.upNibble (s : State) : BitVec 4 :=
  BitVec.ofNat 4 (s.flu.level.code + 4 * bit s.anyOutcome + 8 * bit s.calendarLow)

/-- The parcels an entry is sent as: one for each summary of a sweep page, else one (R212). -/
def UpEntry.parts : UpEntry → Nat
  | .sweepPage _ _ summaries => summaries.length
  | _ => 1

/-- The parcel of a part of an entry, counted from 1, under its heading (R168, R212, 11.6). -/
def UpEntry.part (e : UpEntry) (k : Nat) (h : Heading) : List Byte :=
  match e with
  | .answer body => parcel 0x40 h.office h.nibble body
  | .floatReport body => parcel 0x41 h.office h.nibble body
  | .sweepPage next remaining summaries =>
    parcel 0x42 h.office h.nibble
      (beBytes 2 next ++ beBytes 1 remaining ++ beBytes 1 (16 * k + summaries.length) ++ summaries.getD (k - 1) [])
  | .sweepEnd next sent => parcel 0x43 h.office h.nibble (beBytes 2 next ++ beBytes 1 sent)

/-- The parcels of an entry's first parts, given the heading of each (R212). -/
def UpEntry.parcels (e : UpEntry) (heads : List Heading) : List (List Byte) :=
  (heads.zip (List.range heads.length)).map fun p => e.part (p.2 + 1) p.1

/-- The line is in a state in which the receiver assembles and the transmitter sends (R158). -/
def LineState.sending : LineState → Bool
  | .off | .detect => false
  | _ => true

/-- What the part puts on TXD. -/
inductive Txd where
  | high | fill | parcel
  deriving DecidableEq, Repr

/-- TXD (R158, R169, R204): held high in reset, in OFF and in DETECT; else a parcel under way, or fill. -/
def State.txd (s : State) : Txd :=
  if !s.live || !s.ulc.line.sending then .high else if s.ulc.tx.isSome then .parcel else .fill

/-- The heading of a parcel whose transmission begins now (R168). -/
def State.heading (s : State) (office : Nat) : Heading := ⟨office, s.upNibble⟩

/-- A parcel begins: since the last removal of an outcome, some parcel has told that no till holds one (R145, R168; log
entry 6). -/
def State.tells (s : State) : Bool := s.ulc.noneTold || !s.anyOutcome

/-- The transmitter begins on the head entry when it may (R168, R169): the office number and the nibble are taken now. -/
def State.startTx (s : State) : State :=
  match s.ulc.tx, s.ulc.office with
  | none, some n =>
    if s.ulc.line.sending && !s.ulc.queue.isEmpty then
      s.mapUlc fun u => { u with tx := some ⟨s.heading n, []⟩, noneTold := s.tells }
    else s
  | _, _ => s

/-- The next part of the sweep page being sent begins (R212): the part before it has been sent. The table has no row for
this, so it is what a step does on an empty queue of commands (log entry 9). -/
def State.nextPart (s : State) : State :=
  match s.ulc.tx, s.ulc.office, s.ulc.queue with
  | some x, some n, e :: _ =>
    if s.live && decide (x.sent.length + 1 < e.parts) then
      s.mapUlc fun u =>
        { u with
          tx := some ⟨s.heading n, x.sent ++ [x.now]⟩, lastSent := e.parcels (x.sent ++ [x.now]), noneTold := s.tells }
    else s
  | _, _, _ => s

/-- The headings of all the parts of an entry that is sent whole: those of the parts begun, and of the others as they begin
now (R168, R212; log entry 9). -/
def State.headings (s : State) (x : Transmission) (e : UpEntry) : List Heading :=
  x.sent ++ [x.now] ++
    List.replicate (e.parts - (x.sent.length + 1)) (s.heading (s.ulc.office.getD x.now.office))

/-! ## Places of the upward queue (R170 to R172) -/

/-- The places in use: entries, reserved places, and the place the arbiter has given an owed report. -/
def Ulc.used (u : Ulc) : Nat := u.queue.length + u.reserved + bit u.reportPlaced

/-- The free places (R170). -/
def Ulc.free (u : Ulc) : Nat := 16 - u.used

/-- An accepted SWEEP whose ANSWER is not written holds its first page back (R176). -/
def Ulc.sweepAnswerDue (u : Ulc) : Bool :=
  match u.dispatched with
  | some ⟨i, .answered .accepted _ _, false⟩ => decide (i.kind = LineKind.sweep.code)
  | _ => false

/-- The arbiter's first step (R172): an owed report is given a place when at least 2 are free. -/
def Ulc.placeReport (u : Ulc) : Ulc :=
  if u.reportOwed && !u.reportPlaced && decide (2 ≤ u.free) then { u with reportPlaced := true } else u

/-- The arbiter's second step (R172): the page or the SWEEP_END of an active sweep is given a place, which is reserved, when
no page is under construction and at least 2 are free. -/
def Ulc.placeSweep (u : Ulc) : Ulc :=
  if u.sweep.active && u.sweep.page.isNone && !u.sweep.placed && !u.sweepAnswerDue && decide (2 ≤ u.free) then
    { u with reserved := u.reserved + 1, sweep := { u.sweep with placed := true } }
  else u

/-- The arbiter of the free places decides (R172). -/
def Ulc.arbitrate (u : Ulc) : Ulc := u.placeReport.placeSweep

/-- The sweep gives back the place of its page or of its SWEEP_END. -/
def Ulc.dropPlace (u : Ulc) : Ulc :=
  if u.sweep.placed then { u with reserved := u.reserved - 1, sweep := { u.sweep with placed := false } } else u

/-- The ANSWER of the dispatched instruction is to be dropped: a give-up met it (R159). -/
def Ulc.dropsAnswer (u : Ulc) : Bool := u.dispatched.any Dispatched.dropAnswer

/-- An entry joins the tail of the queue. -/
def Ulc.push (u : Ulc) (e : UpEntry) : Ulc := { u with queue := u.queue ++ [e] }

/-- ULC hands the head instruction to its owner, if none is dispatched (R174). -/
def Ulc.dispatch (u : Ulc) : Ulc :=
  match u.dispatched, u.list with
  | none, i :: rest => { u with dispatched := some ⟨i, .waiting, false⟩, list := rest }
  | _, _ => u

/-! ## The line state machine (R159 to R163) -/

/-- The consecutive counts go to 0. -/
def Ulc.clearCounts (u : Ulc) : Ulc := { u with good := 0, bad := 0 }

/-- The leaving-UP notice to TKE (R91). -/
def State.leaveUp (s : State) : State :=
  if s.ulc.line = .up then s.mapTke fun k => { k with sinceUp := 0, counting := true } else s

/-- TRAIN is entered (R161). -/
def State.enterTrain (s : State) : State :=
  ((s.mapUlc fun u => { u.clearCounts with line := .train }).raise .enteredTrain).startTx

/-- Carrier present and detected rate in range (R160). -/
def Ulc.usable (u : Ulc) : Bool := u.carrier && u.rate.inRange

/-- In DETECT, ULC looks for the condition and enters TRAIN when it finds it (R160). -/
def State.detectLook (s : State) : State :=
  if s.ulc.line = .detect ∧ s.ulc.usable then s.enterTrain else s

/-- DETECT is entered (R160), and the look is made. -/
def State.enterDetect (s : State) : State :=
  ((s.leaveUp.mapUlc fun u =>
    { u.clearCounts with line := .detect, tx := none, assembly := [], lastNibble := none }).raise
      .enteredDetect).detectLook

/-- UP is entered (R162): the entering-UP notice sets the count to 0 and stops it (R91). -/
def State.enterUp (s : State) : State :=
  ((s.mapUlc fun u => { u.clearCounts with line := .up }).mapTke
    fun k => { k with sinceUp := 0, counting := false }).raise .enteredUp

/-- SLIP is entered from UP (R162, R163). Whether a rate change empties the assembly buffer there is open: it stays (log
entry 21). -/
def State.enterSlip (s : State) : State :=
  (s.leaveUp.mapUlc fun u => { u.clearCounts with line := .slip }).raise .enteredSlip

/-- Steps 5 to 10 of the give-up (R159). The next slot and the remaining count of a cancelled sweep become 0 (R178; log
entry 36). -/
def Ulc.discard (u : Ulc) : Ulc :=
  { u.clearCounts with
    queue := [], reserved := 0, list := [],
    dispatched := u.dispatched.map fun d => { d with dropAnswer := true },
    reportOwed := false, reportPlaced := false, sweep := Sweep.inactive, lastNibble := none }

/-- The give-up (R159), from a state other than OFF. -/
def State.giveUp (s : State) : State :=
  (s.leaveUp.mapUlc fun u => { u.discard with line := .off, tx := none, assembly := [] }).raise .enteredOff

/-- A count that stands at 15 stays at 15 (R161). -/
def bump (n : Nat) : Nat := min 15 (n + 1)

/-- A rate change reaches the line (R161 to R163). -/
def State.rateChanged (s : State) : State :=
  match s.ulc.line with
  | .train | .slip => s.mapUlc fun u => { u with good := 0, assembly := [] }
  | .up => s.enterSlip
  | _ => s

/-! ## The store record of ULC (R166, R164) -/

/-- TKE compares the count with a new limit (R91, R164). -/
def State.setHoldover (s : State) (limit : Nat) : State :=
  (s.mapUlc fun u => { u with holdover := limit }).raiseIf
    (s.tke.counting && decide (s.tke.sinceUp ≤ s.ulc.holdover) && decide (limit < s.tke.sinceUp)) .holdoverPassed

/-- ULC's record takes a waiting claim: a service mode that differs begins a write; a holdover limit is written and
answered. -/
def State.takeRecordClaim (s : State) (k : RecordClaim) : State :=
  match k with
  | .mode m => if m = s.ulc.mode then s else s.mapUlc fun u => { u with recordWrite := some m }
  | .holdover limit => (s.setHoldover limit).answered .accepted [] (beBytes 2 s.ulc.holdover)

/-- ULC's record takes waiting claims, oldest first, until one begins a write. -/
def drainRecord : Nat → State → State
  | 0, s => s
  | n + 1, s =>
    match s.ulc.recordWrite, s.ulc.recordClaims with
    | none, k :: rest => drainRecord n ((s.mapUlc fun u => { u with recordClaims := rest }).takeRecordClaim k)
    | _, _ => s

/-- A claim on ULC's record arrives (R166). -/
def State.claimRecord (s : State) (k : RecordClaim) : State :=
  let t := s.mapUlc fun u => { u with recordClaims := u.recordClaims ++ [k] }
  drainRecord t.ulc.recordClaims.length t

/-- A power cut meets a write of ULC's record under way (R181): a free choice leaves the old content or the new. -/
def State.cutRecord (s : State) : State :=
  match s.ulc.recordWrite with
  | none => s
  | some m => if s.freeBit then s.drawn.mapUlc fun u => { u with mode := m } else s.drawn

/-! ## Downward parcels (R165 to R173) -/

/-- A downward parcel as judged by R165. -/
inductive Judged where
  | bad
  | good (kind office : Nat) (nibble : BitVec 4) (body : List Byte)
  deriving DecidableEq, Repr

/-- What the receiver makes of its assembly buffer: a parcel still incomplete, or one judged and what the buffer then
holds. -/
inductive Scan where
  | incomplete (buffer : List Byte)
  | parcel (p : Judged) (rest : List Byte)
  deriving DecidableEq, Repr

/-- Skip flag bytes. -/
def skipFlags (bytes : List Byte) : List Byte := bytes.dropWhile fun b => decide (b = flag)

/-- Hunt for the start of a parcel (R165): the bytes before the next flag are skipped. The assembly buffer is empty while
the receiver hunts, and begins with a flag byte once one has come. -/
def hunt (bytes : List Byte) : List Byte := bytes.dropWhile fun b => decide (b ≠ flag)

/-- The body length in a header (11.6). -/
def headerLength (header : List Byte) : Nat := byteAt header 3 % 16 * 256 + byteAt header 4

/-- Judge a parcel of the length its header gives (R165): header and body, two check bytes and one more byte. -/
def judge (bytes : List Byte) (len : Nat) : Judged :=
  let content := slice bytes 0 (5 + len)
  if bytes.getD (7 + len) 0 ≠ flag ∨ (crcBytes content).toNat ≠ beNat (slice bytes (5 + len) 2) then .bad
  else .good (byteAt content 0) (beNat (slice content 1 2)) (BitVec.ofNat 4 (byteAt content 3 / 16)) (slice content 5 len)

/-- The receiver reads the bytes after a flag (R165). A body length above 96 ends the parcel at its header. A closing flag
may open the next parcel (log entry 11); after a parcel without one, or of too great a length, the receiver hunts. -/
def scan (buffer : List Byte) : Scan :=
  let bytes := skipFlags buffer
  let len := headerLength bytes
  if buffer.isEmpty then .incomplete []
  else if bytes.length < 5 then .incomplete (flag :: bytes)
  else if 96 < len then .parcel .bad (hunt (bytes.drop 5))
  else if bytes.length < 8 + len then .incomplete (flag :: bytes)
  else if bytes.getD (7 + len) 0 ≠ flag then .parcel .bad (hunt (bytes.drop (8 + len)))
  else .parcel (judge bytes len) (flag :: bytes.drop (8 + len))

/-- The service mode a nibble carries (R166). -/
def modeOf (nibble : BitVec 4) : ServiceMode :=
  match nibble.toNat % 4 with
  | 0 => .normal
  | 1 => .capped
  | _ => .halt

/-- A float report becomes owed (R167). -/
def owesReport (last : Option (BitVec 4)) (nibble : BitVec 4) : Bool :=
  nibble.getLsbD 3 && (match last with | none => true | some n => !n.getLsbD 3)

/-- The downward nibble is taken (R166, R167): it is kept, and its float query taken, at once; its service mode waits for a
write of the record under way (log entry 34). -/
def State.takeNibble (s : State) (nibble : BitVec 4) : State :=
  let kept := s.mapUlc fun u => { u with lastNibble := some nibble }
  (if owesReport s.ulc.lastNibble nibble then kept.mapUlc fun u => Ulc.arbitrate { u with reportOwed := true }
  else kept).claimRecord (.mode (modeOf nibble))

/-- The kind of a parcel is dealt with (R169, R171, R173). -/
def State.takeKind (s : State) (kind : Nat) (body : List Byte) : State :=
  if kind = 0 then s
  else if s.ulc.free = 0 then s.raise .backlog
  else s.mapUlc fun u => Ulc.dispatch { u with reserved := u.reserved + 1, list := u.list ++ [⟨kind, body⟩] }

/-- A good parcel for this office is taken: its nibble, then its kind (R165). -/
def State.takeParcel (s : State) (kind : Nat) (nibble : BitVec 4) (body : List Byte) : State :=
  (s.takeNibble nibble).takeKind kind body

/-- A good parcel for this office is counted, and taken where the line state takes it (R161 to R163). -/
def State.goodParcel (s : State) (kind : Nat) (nibble : BitVec 4) (body : List Byte) : State :=
  let t := s.mapUlc fun u => { u with good := bump u.good, bad := 0 }
  match s.ulc.line with
  | .train => if 3 ≤ t.ulc.good then t.enterUp.takeParcel kind nibble body else t
  | .up => t.takeParcel kind nibble body
  | .slip => if 2 ≤ t.ulc.good then t.enterUp.takeParcel kind nibble body else t.takeParcel kind nibble body
  | _ => s

/-- A bad parcel is counted (R161 to R163). -/
def State.badParcel (s : State) : State :=
  let t := s.mapUlc fun u => { u with good := 0, bad := bump u.bad }
  if s.ulc.line = .up ∧ 8 ≤ t.ulc.bad then t.enterSlip else t

/-- A judged parcel reaches the line state machine (R161, R165). -/
def State.judged (s : State) (p : Judged) : State :=
  match p with
  | .bad => s.badParcel
  | .good kind office nibble body => if s.ulc.office = some office then s.goodParcel kind nibble body else s

/-- The receiver works through the bytes in its assembly buffer. A parcel is at least 5 bytes, so the buffer's length is
fuel enough. -/
def receive : Nat → State → State
  | 0, s => s
  | n + 1, s =>
    if s.ulc.assembly.isEmpty then s
    else match scan s.ulc.assembly with
    | .incomplete buffer => s.mapUlc fun u => { u with assembly := buffer }
    | .parcel p rest => receive n ((s.mapUlc fun u => { u with assembly := rest }).judged p)

/-- Bytes reach the receiver (R158, R165): idle in OFF and DETECT. -/
def State.receiveBytes (s : State) (bytes : List Byte) : State :=
  if s.ulc.line.sending then
    let t := s.mapUlc fun u => { u with assembly := hunt (u.assembly ++ bytes) }
    receive t.ulc.assembly.length t
  else s

/-! ## Sweeps (R176 to R178) -/

/-- The occupied slots from a slot up, with their records. -/
def slotsFrom (t : List (Nat × MeterRecord)) (slot : Nat) : List (Nat × MeterRecord) :=
  t.filter fun p => decide (slot ≤ p.1)

/-- The records a page reads: at most 4 and at most the remaining count (R177). -/
def pageRecords (t : List (Nat × MeterRecord)) (slot remaining : Nat) : List (Nat × MeterRecord) :=
  (slotsFrom t slot).take (min 4 remaining)

/-- The slot after the last one examined: the one after the last record read, or 16,384 when the table ended the page
(R177). -/
def pageAfter (t : List (Nat × MeterRecord)) (slot remaining : Nat) : Nat :=
  let read := pageRecords t slot remaining
  if read.length < min 4 remaining then slotCount
  else match read.getLast? with
  | some p => p.1 + 1
  | none => slotCount

/-- The sweep has the place of a page to build (R172, R177). -/
def Sweep.wantsPage (w : Sweep) : Bool :=
  w.active && w.page.isNone && w.placed && decide (0 < w.remaining) && decide (w.next < slotCount)

/-- The sweep has ended but for its SWEEP_END, and has the place for that (R172, R178). -/
def Sweep.wantsEnd (w : Sweep) : Bool :=
  w.active && w.page.isNone && w.placed && (decide (w.remaining = 0) || decide (slotCount ≤ w.next))

/-- The slots of a page are read (R177), in the place that the arbiter reserved for it. Every slot from the next to the last
examined is read behind the claims on its record (R2, R8). -/
def State.beginPage (s : State) : State :=
  let w := s.ulc.sweep
  let read := pageRecords s.adir.table w.next w.remaining
  let after := pageAfter s.adir.table w.next w.remaining
  (s.claimRange w.next after).mapUlc fun u =>
    { u with
      sweep := { w with
        remaining := w.remaining - read.length, page := some ⟨read.map fun p => p.2.summary p.1 beBytes, after⟩ } }

/-- A page is closed and written, unless it holds no summary (R177). -/
def Ulc.writePage (u : Ulc) (page : SweepPage) : Ulc :=
  let d := u.dropPlace
  let v := { d with sweep := { d.sweep with
    next := page.after, page := none, sent := u.sweep.sent + page.summaries.length } }
  Ulc.arbitrate (if page.summaries.isEmpty then v else v.push (.sweepPage page.after u.sweep.remaining page.summaries))

/-- A running sweep is replaced (R176): its page under construction is dropped with its place, and the new state is set. -/
def Ulc.startSweep (u : Ulc) (start count : Nat) : Ulc := { u.dropPlace with sweep := ⟨true, start, count, none, 0, false⟩ }

/-- The SWEEP_END is written in its place, and the sweep is inactive, its next slot and remaining count unchanged (R178;
log entry 36). -/
def Ulc.endSweep (u : Ulc) : Ulc :=
  let d := u.dropPlace
  Ulc.arbitrate (Ulc.push { d with sweep := { d.sweep with active := false } } (.sweepEnd u.sweep.next u.sweep.sent))

end Sys2Proof.Machine
end

