-- ==== Sys2Proof/WellFormed.lean ====
section
/-! DEFINITION. Which commands are things the spec has: the checks on operands that a type does not make. -/

namespace Sys2Proof

/-- A descriptor is 96 bytes (11_layouts.md 11.4). -/
def descriptorWf (bytes : List Byte) : Bool := bytes.length == 96

/-- The init block is 128 bytes (R185). -/
def initBlockWf (bytes : List Byte) : Bool := bytes.length == 128

/-- The bytes of one parcel, or a part of them: at least one byte and at most the opening flag, the five header bytes, 96
body bytes, two check bytes and one more byte (R165). -/
def parcelWf (bytes : List Byte) : Bool := decide (1 ≤ bytes.length) && decide (bytes.length ≤ 105)

/-- The operand checks of a command. -/
def Instr.wf : Instr → Bool
  | .ringLook _ descriptor => descriptorWf descriptor
  | .initBlockReadDone bytes => initBlockWf bytes
  | .parcelReceive bytes => parcelWf bytes
  | .powerLoss | .resetNLow | .partStart .. | .clearEnd | .recoveryDone | .vbakLoss | .windowWrite .. |
    .init .. | .start .. | .stop .. | .demand .. | .ringFaultClear .. | .busFaultClear | .statusWrite .. |
    .enableWrite .. | .summaryEnableWrite .. | .cancel .. | .linkEnable .. | .floatLowwaterRead |
    .ringReset | .engineReset | .engineRun | .linkReset | .linesReset | .pollTimerExpiry .. | .vend .. |
    .quote .. | .reprint .. | .lookup .. | .referSet | .referClear | .engineer | .keyrollOnly | .tillOpen |
    .tillPause | .tillResume | .tillClose | .tillRead | .outcomeTake | .lineSet | .lineRead | .clockSet |
    .clockRead | .badRequestKind .. | .replyWritten .. | .busFault | .ringFault .. | .holdGrantDone .. |
    .reserveDone .. | .jobComplete | .sealDone .. | .recordPartApplied .. | .floatPartApplied .. |
    .tillPartApplied .. | .freeDone .. | .releaseDone .. | .officeCommitDone | .holdTimeout .. |
    .clockAdvance | .minutesSinceUpTick | .drwInChange .. | .levelCounted .. | .pulseEnd .. |
    .stuckTimerExpiry .. | .longTimerExpiry .. | .rateWindowEnd .. | .carrierLoss | .carrierGain |
    .serviceModeWritten | .trainingTimeout | .silenceTimeout | .slipTimeout | .idleParcelSend |
    .upwardEntrySent | .floatReportQueue | .sweepPageBegin | .sweepPageWrite | .sweepEnd | .answerWrite |
    .enrol | .amend | .retire | .keyroll | .grant | .recall | .floatTerms | .tariff | .arm | .disarm |
    .months | .time | .holdover | .sweep | .floatQuery | .unknownInstruction | .vbakReturn |
    .initBlockReadError | .reservationReleased .. => true

end Sys2Proof
end

