-- ==== Sys2Proof/Machine/Control.lean ====
section
/-! DEFINITION. The register window, the ring controls and faults, and the block control pulses, with their meanings
(Chapters 9 and 10). -/

namespace Sys2Proof.Machine

/-! ## INIT (R184 to R186) -/

/-- An INIT ends in INIT_FAULT (R185, R186): the state returns to STOPPED, and nothing else changes. -/
def State.initFails (s : State) (reason : InitReason) (ring : Nat) : State :=
  (s.mapRgi fun g => { g with state := .stopped, faultReason := reason, faultRing := ring }).raise .initFault

/-- RGI takes an INIT (R185): the init block read begins, unless it runs past the host's address space. -/
def State.beginInit (s : State) : State :=
  if hostTop < s.rgi.initAddr.toNat + 128 then s.initFails .blockRead 0
  else s.mapRgi fun g => { g with state := .initialising, bus := [.initBlock] }

/-- The ring mask of a taken CONTROL write is kept (R183). -/
def State.setMask (s : State) (mask : BitVec 9) : State := s.mapRgi fun g => { g with mask := mask }

/-- The INIT pulse (R184, R185). A second INIT while one waits changes nothing. -/
def State.initPulse (s : State) (mask : BitVec 9) : State :=
  if s.rgi.state = .stopped then
    if s.inService then (s.setMask mask).beginInit
    else if s.rgi.initWaiting then s
    else (s.setMask mask).mapRgi fun g => { g with initWaiting := true }
  else s.refuse

/-- The START pulse (R184, R188). Looks that one event begins join the bus list in the order C0 to C7, OFFICE (log entry
29). -/
def State.startPulse (s : State) (mask : BitVec 9) : State :=
  if s.rgi.state = .ready then
    forHolders State.lookAt ((s.setMask mask).mapRgi fun g => { g with state := .running })
  else s.refuse

/-- The STOP pulse (R184, R187). -/
def State.stopPulse (s : State) (mask : BitVec 9) : State :=
  match s.rgi.state with
  | .running => (((s.setMask mask).stopPolls).mapRgi fun g => { g with state := .stopping }).checkStopping
  | .ready => (s.setMask mask).enterStopped
  | _ => s.refuse

/-- The DEMAND pulse (R184, R188). -/
def State.demandPulse (s : State) (mask : BitVec 9) : State :=
  if s.rgi.state = .running then
    forHolders (fun r s => if mask.getLsbD r.index then s.lookAt r else s) (s.setMask mask)
  else s.refuse

/-- The RING_FAULT bits of RING status. -/
def ringFaultBits : Word := 0x0001FF00

/-- Every check of an init block has passed (R186): the copy, the cursors and the flags, the office number, READY. -/
def State.initPasses (s : State) (k : InitCopy) : State :=
  ((((s.mapRgi fun g =>
      { g with
        state := .ready
        copy := some k
        rings := g.rings.map fun x => { x with cursor := 0, halted := false, fault := false } }).clearBits .ring
      ringFaultBits).mapUlc fun u => { u with office := some k.office }).raise .initDone).startTx

/-! ## Clearing faults (R192, R194) -/

/-- A 1 written to RING_FAULT(n) (R192). Written while the bit is 0 it does nothing (log entry 24). -/
def State.clearRingFault (r : Holder) (s : State) : State :=
  if s.has (.ringFault r) then
    ((s.clearBits .ring (Status.mask (.ringFault r))).mapRing r fun x =>
      { x with fault := false, halted := false }).lookAt r
  else s

/-- A 1 written to BUS_FAULT (R194). -/
def State.clearBusFault (s : State) : State :=
  let t := s.clearBits .ring (Status.mask .busFault)
  if s.rgi.state = .faulted then t.enterStopped else t

/-- A write to a block's status word (R198), with the further effects of clearing BUS_FAULT and RING_FAULT bits. -/
def State.writeStatus (s : State) (b : Block) (v : Word) : State :=
  match b with
  | .ring =>
    let t := forHolders (fun r s => if v.getLsbD (8 + r.index) then s.clearRingFault r else s) s
    let u := if v.getLsbD 4 then t.clearBusFault else t
    if v.getLsbD 2 then
      -- STOPPED that the same write's clearing of BUS_FAULT sets stays set.
      if v.getLsbD 4 && decide (s.rgi.state = .faulted) then u.clearBits .ring (v &&& ~~~Status.mask .stopped)
      else u.clearBits .ring v
    else u.clearBits .ring v
  | _ => s.clearBits b v

/-! ## Block control (R202) -/

/-- The office context is abandoned as a CANCEL in its state (R195, R133). -/
def State.abandonOffice (s : State) (was : CtxState) : State :=
  match was with
  | .committing | .replying => s.raise .cancelLate
  | _ => s.cancelCtx .office

/-- What a RING reset does to the context of a request it has detached (R195): `was` is the context's state before. -/
def State.abandon (s : State) (h : Holder) (was : CtxState) : State :=
  match h with
  | .office => s.abandonOffice was
  | .counter _ => if was = .parked then s.cancelCtx h else s

/-- An ENGINEER or a KEYROLL_ONLY in service that its context has not taken is abandoned at a RING reset before it has done
anything (R195). -/
def State.dropOfficeIssue (s : State) : State :=
  match (s.ring .office).service with
  | some ⟨q, .waiting⟩ =>
    if q.is .engineer || q.is .keyrollOnly then s.mapRing .office fun x => { x with service := none } else s
  | _ => s

/-- RING reset (R196). The office context is reached in any state but IDLE (R133), a counter's while its request is
attached (R195). -/
def State.ringReset (s : State) : State :=
  let reached := Holder.all.filter fun h => (s.ctx h).attached || decide (h = .office)
  let t := forHolders State.detach (s.dropOfficeIssue.mapRgi fun g => { g with bus := [] })
  let u := reached.foldl (fun t h => t.abandon h (s.ctx h).state) t
  s.markStores (((u.mapRgi fun g =>
      { g with
        initWaiting := false
        copy := none
        rings := g.rings.map fun x => { x with cursor := 0, halted := false, fault := false, poll := false } }).clearBits
    .ring (ringFaultBits ||| Status.mask .initDone ||| Status.mask .busFault)).enterStopped.pumpFloat)

/-- ENGINE reset (R78). The notice winds the contexts back in the order C0 to C7, OFFICE (log entry 18). -/
def State.engineReset (s : State) : State :=
  s.markStores (forHolders State.engineNotice ((s.mapTke Tke.reset).raise .engineHalted)).pumpFloat

/-- ENGINE run (R79). -/
def State.engineRun (s : State) : State :=
  if s.tke.engine = .halted then s.mapTke fun k => { k with engine := .idle } else s

/-- LINK reset (R180). -/
def State.linkReset (s : State) : State :=
  let t := s.mapUlc fun u => { u with linkEnable := false }
  if s.ulc.line = .off then t.mapUlc Ulc.discard else t.giveUp

/-- LINES reset (R155). -/
def State.linesReset (s : State) : State :=
  s.mapTlu fun t => { t with lines := t.lines.map fun l => LinePair.reset l.outside }

/-- A write of BLOCK_CONTROL (R202). -/
def State.writeBlockControl (s : State) (v : Word) : State :=
  match v.toNat % 32 with
  | 0 => s
  | 1 => s.ringReset
  | 2 => s.engineReset
  | 4 => s.engineRun
  | 8 => s.linkReset
  | 16 => s.linesReset
  | _ => s.refuse

/-! ## The other window words -/

/-- A write of CANCEL (R112, R183): bits 0 to 3 name the holder. -/
def State.writeCancel (s : State) (v : Word) : State :=
  match Holder.numbered (v.toNat % 16) with
  | some h => s.markStores (s.cancelCtx h).pumpFloat
  | none => s.refuse

/-- A write of LINK_ENABLE (R159, R183). -/
def State.writeLinkEnable (s : State) (v : Word) : State :=
  if v = 1 then
    let t := s.mapUlc fun u => { u with linkEnable := true }
    if s.ulc.line = .off then t.enterDetect else t
  else if v = 0 then
    let t := s.mapUlc fun u => { u with linkEnable := false }
    if s.ulc.line = .off then t else t.giveUp
  else s.refuse

/-- A write of INIT_ADDR (R183). -/
def State.writeInitAddr (s : State) (v : Word) : State :=
  if s.rgi.state = .stopped ∧ v.toNat % 4 = 0 then s.mapRgi fun g => { g with initAddr := v } else s.refuse

/-- A write of CONTROL (R183, R184): more than one pulse is refused, and none changes nothing. -/
def State.writeControl (s : State) (v : Word) : State :=
  let mask := v.extractLsb' 8 9
  match v.toNat % 16 with
  | 0 => s
  | 1 => s.initPulse mask
  | 2 => s.startPulse mask
  | 4 => s.stopPulse mask
  | 8 => s.demandPulse mask
  | _ => s.refuse

/-- A write through WINDOW_DATA, by the index (R183, 11.2): a word that is read-only, or an index that selects none, is
refused. -/
def State.writeWord (s : State) (index : Nat) (v : Word) : State :=
  match index with
  | 0x00 => s.writeControl v
  | 0x01 => s.writeStatus .ring v
  | 0x03 => s.writeInitAddr v
  | 0x04 => s.writeCancel v
  | 0x05 => s.writeLinkEnable v
  | 0x11 => s.writeStatus .vend v
  | 0x12 => s.writeStatus .float v
  | 0x13 => s.writeStatus .tariff v
  | 0x14 => s.writeStatus .time v
  | 0x15 => s.writeStatus .till v
  | 0x16 => s.writeStatus .link v
  | 0x20 => s.setEnable .ring v
  | 0x21 => s.setEnable .vend v
  | 0x22 => s.setEnable .float v
  | 0x23 => s.setEnable .tariff v
  | 0x24 => s.setEnable .time v
  | 0x25 => s.setEnable .till v
  | 0x26 => s.setEnable .link v
  | 0x27 => s.setSummaryEnable v
  | 0x28 => s.writeBlockControl v
  | _ => s.refuse

/-! ## Reads (R182, 11.2) -/

/-- The code of a ring state (11.2). -/
def RingState.code : RingState → Nat
  | .stopped => 0 | .initialising => 1 | .ready => 2 | .running => 3 | .stopping => 4 | .faulted => 5

/-- The code of an INIT_FAULT reason (11.2). -/
def InitReason.code : InitReason → Nat
  | .none => 0 | .office => 1 | .window => 2 | .blockOutside => 3 | .poll => 4 | .count => 5 | .ringOutside => 6
  | .overlap => 7 | .blockRead => 8

/-- The code of a start phase (11.2). -/
def StartPhase.code : StartPhase → Nat
  | .clearing => 0 | .recovering => 1 | .inService => 2

/-- The RING_STATUS fields (R197). -/
def Rgi.fields (g : Rgi) : Nat :=
  g.state.code + 256 * ((Holder.all.map fun r => bit (g.rings.get r).halted * 2 ^ r.index).sum) +
    2 ^ 20 * g.faultReason.code + 2 ^ 24 * g.faultRing + 2 ^ 31 * bit g.initWaiting

/-- LINK_STATE word 0 (R158). -/
def Ulc.stateWord0 (u : Ulc) : Nat :=
  u.line.code + 8 * bit u.carrier + 16 * u.good + 256 * u.bad + 4096 * (u.lastNibble.map BitVec.toNat |>.getD 0) +
    2 ^ 16 * bit u.lastNibble.isSome + 2 ^ 17 * u.mode.code + 2 ^ 19 * bit u.reportOwed + 2 ^ 20 * bit u.office.isSome

/-- LINK_STATE word 1 (R158). -/
def Ulc.stateWord1 (u : Ulc) : Nat := u.queue.length + 256 * u.reserved + 2 ^ 16 * u.holdover

/-- LINK_STATE word 2 (R158). -/
def Ulc.stateWord2 (u : Ulc) : Nat := bit u.sweep.active + 2 * u.sweep.next + 2 ^ 16 * u.sweep.remaining

/-- BLOCK_CONTROL as read (R202). -/
def Atc.controlWord (a : Atc) : Nat := 2 ^ 16 * a.phase.code + 2 ^ 18 * bit a.clearRun + 2 ^ 19 * bit a.backupLost

/-- A word past CLEARING, by the index (11.2). -/
def State.liveWord (s : State) (index : Nat) : Nat :=
  match index with
  | 0x00 => 256 * s.rgi.mask.toNat
  | 0x01 => s.atc.status.ring.toNat
  | 0x02 => s.rgi.fields
  | 0x03 => s.rgi.initAddr.toNat
  | 0x05 => bit s.ulc.linkEnable
  | 0x06 => s.ulc.rate.code
  | 0x07 => s.tke.now + 2 ^ 31 * bit s.tke.clockValid
  | 0x08 => if s.inService then s.flu.available else 0
  | 0x09 => if s.inService then s.flu.lowWater else 0
  | 0x0A => s.ulc.stateWord0
  | 0x0B => s.ulc.stateWord1
  | 0x0C => s.ulc.stateWord2
  | 0x11 => s.atc.status.vend.toNat
  | 0x12 => s.atc.status.float.toNat
  | 0x13 => s.atc.status.tariff.toNat
  | 0x14 => s.atc.status.time.toNat
  | 0x15 => s.atc.status.till.toNat
  | 0x16 => s.atc.status.link.toNat
  | 0x20 => s.atc.enable.ring.toNat
  | 0x21 => s.atc.enable.vend.toNat
  | 0x22 => s.atc.enable.float.toNat
  | 0x23 => s.atc.enable.tariff.toNat
  | 0x24 => s.atc.enable.time.toNat
  | 0x25 => s.atc.enable.till.toNat
  | 0x26 => s.atc.enable.link.toNat
  | 0x27 => s.atc.summaryEnable.toNat
  | 0x28 => s.atc.controlWord
  | _ => 0

/-- What a read through WINDOW_DATA returns for an index; none while the part is held in reset and answers no access (R204).
In CLEARING every word but BLOCK_CONTROL reads 0 (R205). -/
def State.readWord (s : State) (index : Nat) : Option Word :=
  if s.atc.held.isSome then none
  else if s.atc.phase = .clearing ∧ index ≠ 0x28 then some 0
  else some (BitVec.ofNat 32 (s.liveWord index))

/-- What a read of one of the three window locations returns (R182, R200); none while the part is held in reset. In CLEARING
every word but BLOCK_CONTROL reads 0 (R205; log entry 30). A read of FLOAT_LOWWATER has the effect of `execFloatLowwaterRead`. -/
def State.readPort (s : State) (p : WindowPort) : Option Word :=
  match p with
  | .index => if s.atc.held.isSome then none else if s.atc.phase = .clearing then some 0 else some s.rgi.windowIndex
  | .data => s.readWord s.rgi.windowIndex.toNat
  | .summary => s.attentionWord

/-! ## Meanings: the window -/

/-- WINDOW_WRITE (R182, R183): a write of one of the three window locations. In CLEARING every write is ignored, that of
WINDOW_INDEX too (R205; log entry 30). -/
def execWindowWrite (p : WindowPort) (v : Word) (s : State) : Out :=
  whenLive (fun s =>
    match p with
    | .index => s.mapRgi fun g => { g with windowIndex := v }
    | .data => s.writeWord s.rgi.windowIndex.toNat v
    | .summary => s.refuse) s

/-- INIT (R184, R185). -/
def execInit (mask : BitVec 9) (s : State) : Out := whenLive (fun s => s.initPulse mask) s

/-- START (R184, R188). -/
def execStart (mask : BitVec 9) (s : State) : Out := whenLive (fun s => s.startPulse mask) s

/-- STOP (R184, R187). -/
def execStop (mask : BitVec 9) (s : State) : Out := whenLive (fun s => s.stopPulse mask) s

/-- DEMAND (R184, R188). -/
def execDemand (mask : BitVec 9) (s : State) : Out := whenLive (fun s => s.demandPulse mask) s

/-- RING_FAULT_CLEAR (R192). -/
def execRingFaultClear (r : Holder) (s : State) : Out := whenLive (fun s => s.clearRingFault r) s

/-- BUS_FAULT_CLEAR (R194). -/
def execBusFaultClear (s : State) : Out := whenLive (fun s => s.clearBusFault) s

/-- STATUS_WRITE (R198). -/
def execStatusWrite (b : Block) (v : Word) (s : State) : Out := whenLive (fun s => s.writeStatus b v) s

/-- ENABLE_WRITE (R199). -/
def execEnableWrite (b : Block) (v : Word) (s : State) : Out := whenLive (fun s => s.setEnable b v) s

/-- SUMMARY_ENABLE_WRITE (R201). -/
def execSummaryEnableWrite (v : Word) (s : State) : Out := whenLive (fun s => s.setSummaryEnable v) s

/-- CANCEL (R112). -/
def execCancel (v : Word) (s : State) : Out := whenLive (fun s => s.writeCancel v) s

/-- LINK_ENABLE (R159). -/
def execLinkEnable (v : Word) (s : State) : Out := whenLive (fun s => s.writeLinkEnable v) s

/-- FLOAT_LOWWATER_READ (R59, R53): the read returns the mark and resets it to available; before the end of the recovery
pass it returns 0 and changes nothing. -/
def execFloatLowwaterRead (s : State) : Out :=
  .next
    (if s.atc.held.isSome then s
    else if s.inService then
      (s.mapRgi fun g => { g with readData := BitVec.ofNat 32 s.flu.lowWater }).mapFlu
        fun f => { f with lowWater := f.available }
    else s.mapRgi fun g => { g with readData := 0 })

/-- RING_RESET (R196). -/
def execRingReset (s : State) : Out := whenLive State.ringReset s

/-- ENGINE_RESET (R78). -/
def execEngineReset (s : State) : Out := whenLive State.engineReset s

/-- ENGINE_RUN (R79). -/
def execEngineRun (s : State) : Out := whenLive State.engineRun s

/-- LINK_RESET (R180). -/
def execLinkReset (s : State) : Out := whenLive State.linkReset s

/-- LINES_RESET (R155). -/
def execLinesReset (s : State) : Out := whenLive State.linesReset s

/-! ## Meanings: the host bus -/

/-- INIT_BLOCK_READ_DONE (R186): the 32 reads have completed, and the block is checked. -/
def execInitBlockReadDone (bytes : List Byte) (s : State) : Out :=
  if initBlockWf bytes then
    whenInService (fun s =>
      if s.rgi.state = .initialising ∧ s.rgi.bus.head? = some .initBlock then
        match (InitCopy.parse bytes).fault s.rgi.initAddr.toNat with
        | some (reason, ring) => s.popBus.initFails reason ring
        | none => s.popBus.initPasses (InitCopy.parse bytes)
      else s) s
  else .fault .illFormed

/-- INIT_BLOCK_READ_ERROR (R185). -/
def execInitBlockReadError (s : State) : Out :=
  whenInService (fun s =>
    if s.rgi.state = .initialising ∧ s.rgi.bus.head? = some .initBlock then s.popBus.initFails .blockRead 0 else s) s

/-- POLL_TIMER_EXPIRY (R188). -/
def execPollTimerExpiry (r : Holder) (s : State) : Out :=
  whenInService (fun s =>
    if (s.ring r).poll then (s.mapRing r fun x => { x with poll := false }).lookAt r else s) s

/-- RING_LOOK (R188, R189): the look at the head of the bus list completes. In RUNNING a PART-owned descriptor is taken, and
otherwise the poll timer starts; in STOPPING the look ends with no take (R187). -/
def execRingLook (r : Holder) (descriptor : List Byte) (s : State) : Out :=
  if descriptorWf descriptor then
    whenInService (fun s =>
      if s.rgi.bus.head? = some (.look r) then
        if s.rgi.state = .running then
          if descriptor.getD 0 0 = ownerPart then
            s.popBus.mapRing r fun x => { x with service := some ⟨Request.parse r descriptor, .waiting⟩ }
          else s.popBus.mapRing r fun x => { x with poll := true }
        else s.popBus
      else s) s
  else .fault .illFormed

/-- REPLY_WRITTEN (R190): the reply at the head of the bus list has been written; the owner is told, the cursor advances,
and the ring is looked at. -/
def execReplyWritten (r : Holder) (s : State) : Out :=
  whenInService (fun s =>
    match (s.ring r).service, s.rgi.copy with
    | some ⟨q, .replying owner reply⟩, some k =>
      if s.rgi.bus.head? = some (.reply r) then
        let written := ⟨s.rgi.descriptorAt k r, reply.descriptor q⟩
        (((((s.popBus.mapRgi fun g => { g with lastWrite := some written }).endService r).delivered r owner).lookAt
          r).checkStopping)
      else s
    | _, _ => s) s

/-- BUS_FAULT (R193): the access at the head of the bus list has no acknowledge within 1 ms. -/
def execBusFault (s : State) : Out :=
  whenInService (fun s =>
    if s.rgi.bus.isEmpty then s
    else
      s.markStores (forHolders State.detach
        ((s.stopPolls.mapRgi fun g => { g with state := .faulted, bus := [] }).raise .busFault))) s

/-- RING_FAULT (R192): the access at the head of the bus list, which is this ring's, is answered with an error. -/
def execRingFault (r : Holder) (s : State) : Out :=
  whenInService (fun s =>
    if s.rgi.bus.head? = some (.look r) ∨ s.rgi.bus.head? = some (.reply r) then s.popBus.failAccess r else s) s

end Sys2Proof.Machine
end

