-- ==== Sys2Proof/Machine/Events.lean ====
section
/-! DEFINITION. The meanings of the clock's ticks, the counter lines' events, and the utility line's events (Chapters 4, 7 and
8). -/

namespace Sys2Proof.Machine

/-! ## Time (R87, R91) -/

/-- The clock domain has a supply: the main one, or VBAK held through its absence (R204, R207). -/
def Atc.clockPowered (a : Atc) : Bool :=
  match a.held with
  | some h => !h.supplyLost || a.vbakHeld
  | none => true

/-- CLOCK_ADVANCE (R87): 60 s have passed. A running part passes the clock event to TFU; held in reset, the clock goes on by
itself. At 16,777,215 it stays. -/
def execClockAdvance (s : State) : Out :=
  .next
    (if s.tke.clockValid && s.atc.clockPowered && decide (s.tke.minute < maxMinute) then
      if s.live then
        (moveClock Tke.advance s).raiseIf (decide (s.tke.minute + 1 = maxMinute)) .clockEnd
      else s.mapTke Tke.advance
    else s)

/-- MINUTES_SINCE_UP_TICK (R91): 60 s have passed while counting. -/
def execMinutesSinceUpTick (s : State) : Out :=
  .next
    (if s.tke.counting && s.atc.clockPowered then
      let t := s.mapTke fun k => { k with sinceUp := min maxMinute (k.sinceUp + 1) }
      t.raiseIf (s.live && decide (s.tke.sinceUp ≤ s.ulc.holdover) && decide (s.ulc.holdover < t.tke.sinceUp))
        .holdoverPassed
    else s)

/-! ## Counter lines (R149 to R151) -/

/-- DRW_IN_CHANGE (R149): something outside puts a level on the pin, which takes it unless the part drives the pin. Held in
reset or CLEARING the filter does not run. -/
def execDrwInChange (c : Counter) (level : Bool) (s : State) : Out :=
  .next
    (if s.live then s.mapLines c fun l => l.putOutside level
    else s.mapLines c fun l => { l with pin := level, outside := some level })

/-- LEVEL_COUNTED (R149, R151): the level has held for 20 ms. -/
def execLevelCounted (c : Counter) (s : State) : Out :=
  whenLive (fun s => if (s.lines c).timing then s.countLevel c else s) s

/-- PULSE_END (R150). -/
def execPulseEnd (c : Counter) (s : State) : Out :=
  whenLive (fun s => if (s.lines c).pulse then s.mapLines c fun l => { l with pulse := false } else s) s

/-- STUCK_TIMER_EXPIRY (R151). -/
def execStuckTimerExpiry (c : Counter) (s : State) : Out :=
  whenLive (fun s =>
    if (s.lines c).stuck then
      (s.mapLines c fun l => { l with stuck := false, drawer := .shut }).raise (.drawerStuck c)
    else s) s

/-- LONG_TIMER_EXPIRY (R151). -/
def execLongTimerExpiry (c : Counter) (s : State) : Out :=
  whenLive (fun s =>
    if (s.lines c).long then (s.mapLines c fun l => { l with long := false }).raise (.drawerLong c) else s) s

/-! ## The utility line (R156 to R169) -/

/-- RATE_WINDOW_END (R156, R160 to R163). -/
def execRateWindowEnd (cycles : Nat) (s : State) : Out :=
  whenLive (fun s =>
    let t := s.mapUlc fun u => { u with rate := rateOf cycles }
    (if rateOf cycles = s.ulc.rate then t else t.rateChanged).detectLook) s

/-- CARRIER_LOSS (R157, R160). Held in reset or CLEARING, LDET is not examined. -/
def execCarrierLoss (s : State) : Out :=
  let t := s.mapUlc fun u => { u with carrier := false }
  .next (if s.live && s.ulc.carrier && s.ulc.line.sending then t.enterDetect else t)

/-- CARRIER_GAIN (R157, R160). -/
def execCarrierGain (s : State) : Out :=
  let t := s.mapUlc fun u => { u with carrier := true }
  .next (if s.live then t.detectLook else t)

/-- PARCEL_RECEIVE (R165): the bytes of a parcel, flags included, reach the receiver. -/
def execParcelReceive (bytes : List Byte) (s : State) : Out :=
  if parcelWf bytes then whenLive (fun s => s.receiveBytes bytes) s else .fault .illFormed

/-- SERVICE_MODE_WRITTEN (R166): the write completes, and the claims that waited are taken. -/
def execServiceModeWritten (s : State) : Out :=
  whenLive (fun s =>
    match s.ulc.recordWrite with
    | none => s
    | some m =>
      let t := (s.mapUlc fun u => { u with mode := m, recordWrite := none }).raise .serviceChanged
      drainRecord t.ulc.recordClaims.length t) s

/-- TRAINING_TIMEOUT (R161). -/
def execTrainingTimeout (s : State) : Out :=
  whenLive (fun s => if s.ulc.line = .train then s.enterDetect else s) s

/-- SILENCE_TIMEOUT (R162). -/
def execSilenceTimeout (s : State) : Out :=
  whenLive (fun s => if s.ulc.line = .up then s.enterSlip else s) s

/-- SLIP_TIMEOUT (R163). -/
def execSlipTimeout (s : State) : Out :=
  whenLive (fun s => if s.ulc.line = .slip then s.enterDetect else s) s

/-- IDLE_PARCEL_SEND (R169): with an office number present and the queue empty, an IDLE parcel is sent, in one instant (log
entry 23). -/
def execIdleParcelSend (s : State) : Out :=
  whenLive (fun s =>
    match s.ulc.office with
    | some n =>
      if s.ulc.line.sending && s.ulc.queue.isEmpty then
        s.mapUlc fun u => { u with lastSent := [parcel 0x00 n s.upNibble []], noneTold := s.tells }
      else s
    | none => s) s

/-- UPWARD_ENTRY_SENT (R169, R170, R212): the head entry has been sent whole and leaves the queue; the next begins. -/
def execUpwardEntrySent (s : State) : Out :=
  whenLive (fun s =>
    match s.ulc.tx, s.ulc.queue with
    | some x, e :: rest =>
      (s.mapUlc fun u =>
        Ulc.arbitrate { u with
          queue := rest, tx := none, lastSent := e.parcels (s.headings x e)
          noneTold := if x.sent.length + 1 < e.parts then s.tells else u.noneTold }).startTx
    | _, _ => s) s

/-- FLOAT_REPORT_QUEUE (R167, R172): the owed report takes its place with a float snapshot. -/
def execFloatReportQueue (s : State) : Out :=
  whenInService (fun s =>
    if s.ulc.reportPlaced then
      (s.mapUlc fun u =>
        Ulc.arbitrate (Ulc.push { u with reportOwed := false, reportPlaced := false }
          (.floatReport s.flu.snapshot))).startTx
    else s) s

/-- SWEEP_PAGE_BEGIN (R177, R172). -/
def execSweepPageBegin (s : State) : Out :=
  whenInService (fun s =>
    if s.ulc.sweep.wantsPage then s.beginPage else s) s

/-- SWEEP_PAGE_WRITE (R177, R170). -/
def execSweepPageWrite (s : State) : Out :=
  whenInService (fun s =>
    match s.ulc.sweep.page with
    | some page => (s.mapUlc fun u => u.writePage page).startTx
    | none => s) s

/-- SWEEP_END (R178, R172). -/
def execSweepEnd (s : State) : Out :=
  whenInService (fun s =>
    if s.ulc.sweep.wantsEnd then (s.mapUlc Ulc.endSweep).startTx else s) s

end Sys2Proof.Machine
end

