-- ==== Sys2Proof/Machine/Requests.lean ====
section
/-! DEFINITION. The meanings of the requests that the rings carry (Chapters 1, 4, 5, 6 and 7; R189). -/

namespace Sys2Proof.Machine

/-! ## Requests to VNC -/

/-- The sale a VEND asks for (R93, 11.4). -/
def Request.sale (q : Request) : CtxRequest := ⟨q.tag, q.meter, q.money, .vend⟩

/-- VEND (R94, R96): the counter's context takes it, or it is answered COUNTER_BUSY. -/
def execVend (c : Counter) (s : State) : Out :=
  whenInService (fun s => s.serveInCtx .vend (.counter c) fun q => (q.sale, false)) s

/-- QUOTE (R119): priced from a read claim on the record (R48), with no hold and no write. A request refused for its meter
number or its money makes no claim. -/
def execQuote (c : Counter) (s : State) : Out :=
  whenInService (fun s => s.serve .quote (.counter c) fun q s =>
    (if quoteInRange q.meter q.money then s.claimMeter q.meter else s, .nobody, quoteDecision s q.meter q.money)) s

/-- The engineering task of an ENGINEER, and whether its kind or its limit is out of range (R129, 11.4). -/
def Request.engineering (q : Request) : CtxRequest × Bool :=
  let kind := byteAt q.area 5
  let watts := leNat (slice q.area 6 4)
  if kind = 2 then (⟨q.tag, q.meter, 0, .clearTamper⟩, false)
  else (⟨q.tag, q.meter, 0, .setLimit watts⟩, decide (kind ≠ 3) || decide (65535 < watts))

/-- ENGINEER (R129, R131): the office context takes it, or it is answered COUNTER_BUSY (R95). -/
def execEngineer (s : State) : Out := whenInService (fun s => s.serveInCtx .engineer .office Request.engineering) s

/-- KEYROLL_ONLY (R129, R130): the office context takes it, or it is answered COUNTER_BUSY (R95). -/
def execKeyrollOnly (s : State) : Out :=
  whenInService (fun s => s.serveInCtx .keyrollOnly .office fun q => (⟨q.tag, q.meter, 0, .keyrollOnly⟩, false)) s

/-! ## Requests to ADIR -/

/-- REPRINT (R27): the last vend copy, its reprint count raised by one write. -/
def execReprint (c : Counter) (s : State) : Out :=
  whenInService (fun s => s.serve .reprint (.counter c) fun q s =>
    let d := reprintDecision s.adir.table q.meter
    ((s.claimMeter q.meter).putDecided d.2, .nobody, d.1)) s

/-- LOOKUP (R26): the record's summary. -/
def execLookup (r : Holder) (s : State) : Out :=
  whenInService (fun s => s.serve .lookup r fun q s =>
    (s.claimMeter q.meter, .nobody, lookupReply s.adir.table q.meter)) s

/-- REFER_SET (R28): a code outside 1 to 255 is answered BAD_REQUEST before the map is looked at. -/
def execReferSet (s : State) : Out :=
  whenInService (fun s => s.serve .referSet .office fun q s =>
    let code := leNat (slice q.area 5 2)
    if code < 1 ∨ 255 < code then (s, .nobody, Reply.plain .badRequest)
    else
      let d := referDecision s.adir.table q.meter (some code)
      ((s.claimMeter q.meter).putDecided d.2, .nobody, d.1)) s

/-- REFER_CLEAR (R28). -/
def execReferClear (s : State) : Out :=
  whenInService (fun s => s.serve .referClear .office fun q s =>
    let d := referDecision s.adir.table q.meter none
    ((s.claimMeter q.meter).putDecided d.2, .nobody, d.1)) s

/-! ## Requests to TLU -/

/-- Serve a till or line request: a counter above 7 is answered BAD_REQUEST (R138, R152, R153). -/
def State.serveCounter (s : State) (k : ReqKind) (f : Counter → Request → State → State × ReplyOwner × Reply) : State :=
  s.serve k .office fun q s =>
    match q.counter with
    | none => (s, .nobody, Reply.plain .badRequest)
    | some c => f c q s

/-- TILL_OPEN (R139). A clerk out of range is answered BAD_REQUEST at once, whatever state the till is in (log entry
35). -/
def execTillOpen (s : State) : Out :=
  whenInService (fun s => s.serveCounter .tillOpen fun c q s =>
    let clerk := leNat (slice q.area 1 2)
    let t := s.settleTill c
    if clerk < 1 ∨ 9999 < clerk then (s, .nobody, Reply.plain .badRequest)
    else if (s.till c).state ≠ .closed then (t, .nobody, Reply.plain .notPermitted)
    else
      (t.mapTill c fun r => r.opening clerk s.tke.now, .nobody,
        ⟨.done, leBytes 3 s.tke.now ++ leBytes 4 (s.till c).lastSerial⟩)) s

/-- Move a till from one state to another, or answer NOT_PERMITTED (R138, R140). -/
def State.moveTill (s : State) (c : Counter) (a b : TillState) : State × ReplyOwner × Reply :=
  let t := s.settleTill c
  if (s.till c).state = a then (t.mapTill c fun r => { r with state := b }, .nobody, Reply.plain .done)
  else (t, .nobody, Reply.plain .notPermitted)

/-- TILL_PAUSE (R140). -/
def execTillPause (s : State) : Out :=
  whenInService (fun s => s.serveCounter .tillPause fun c _ s => s.moveTill c .opened .paused) s

/-- TILL_RESUME (R140). -/
def execTillResume (s : State) : Out :=
  whenInService (fun s => s.serveCounter .tillResume fun c _ s => s.moveTill c .paused .opened) s

/-- TILL_CLOSE (R141). Its write may still be under way until its reply has left the ring (log entry 7). -/
def execTillClose (s : State) : Out :=
  whenInService (fun s => s.serveCounter .tillClose fun c _ s =>
    let t := s.settleTill c
    let r := s.till c
    if r.state = .closed then (t, .nobody, Reply.plain .notPermitted)
    else if (s.ctx (.counter c)).state ≠ .idle then (t, .nobody, Reply.plain .counterBusy)
    else
      ((t.mapTill c fun r => { r with state := .closed }).mapTlu fun u =>
          { u with closing := u.closing.set c (some r.state) },
        .closing c, ⟨.done, Till.fields { r with state := .closed }⟩)) s

/-- TILL_READ (R143): the record as the last completed write left it. -/
def execTillRead (s : State) : Out :=
  whenInService (fun s => s.serveCounter .tillRead fun c _ s => (s.tillSeenDone c, .nobody, ⟨.done, (s.tillSeen c).fields⟩)) s

/-- OUTCOME_TAKE (R145): the outcome leaves the till when its reply has been written. -/
def execOutcomeTake (s : State) : Out :=
  whenInService (fun s => s.serveCounter .outcomeTake fun c _ s =>
    match (s.till c).outcome with
    | none => (s.settleTill c, .nobody, Reply.plain .notPermitted)
    | some o => (s.settleTill c, .outcome c o, o.reply)) s

/-- The level on an undriven DRW_OUT is drawn when it is read (R148; log entry 8). -/
def State.lineRead (s : State) (c : Counter) : State :=
  if (s.lines c).function = .general ∧ !(s.lines c).out.output then s.drawn.drawn.drawn else s

/-- LINE_SET (R152, R210). A level for a DRW_IN that is left floating is drawn (log entry 8). -/
def execLineSet (s : State) : Out :=
  whenInService (fun s => s.serveCounter .lineSet fun c q s =>
    let out := LineSettings.ofByte (byteAt q.area 2)
    let inp := LineSettings.ofByte (byteAt q.area 3)
    if 1 < byteAt q.area 1 then (s, .nobody, Reply.plain .badRequest)
    else
      let f := if byteAt q.area 1 = 1 then LineFunction.drawer else .general
      let t := s.drawn.mapLines c fun l => l.setTo f out inp s.freeBit
      (t.lineRead c, .nobody, t.lineReply c)) s

/-- LINE_READ (R153). -/
def execLineRead (s : State) : Out :=
  whenInService (fun s => s.serveCounter .lineRead fun c _ s => (s.lineRead c, .nobody, s.lineReply c)) s

/-! ## Requests to TKE -/

/-- Set the clock and mark it valid (R89, R90), and pass the clock event to TFU (R87). -/
def State.setClock (s : State) (minute : Nat) : State := moveClock (fun k => k.setTo minute) s

/-- CLOCK_SET (R90). Reaching 16,777,215 sets CLOCK_END (R87; log entry 15). A minute out of range is answered BAD_REQUEST
while the clock is valid too (log entry 32). -/
def execClockSet (s : State) : Out :=
  whenInService (fun s => s.serve .clockSet .office fun q s =>
    let minute := leNat (slice q.area 0 4)
    if maxMinute < minute then (s, .nobody, Reply.plain .badRequest)
    else if s.tke.clockValid then (s, .nobody, Reply.plain .notPermitted)
    else
      (((s.setClock minute).raise .clockValid).raiseIf (decide (minute = maxMinute)) .clockEnd, .nobody,
        Reply.plain .done)) s

/-- The code of an engine state (11.4). -/
def EngineState.code : EngineState → Nat
  | .idle => 0 | .working => 1 | .halted => 2

/-- CLOCK_READ (R90). -/
def execClockRead (s : State) : Out :=
  whenInService (fun s => s.serve .clockRead .office fun _ s =>
    (s, .nobody, ⟨.done, leBytes 1 (bit s.tke.clockValid) ++ leBytes 3 s.tke.now ++ leBytes 3 s.tke.sinceUp ++
      leBytes 1 s.tke.engine.code⟩)) s

/-! ## Requests of no owner -/

/-- BAD_REQUEST_KIND (R189): RGI itself answers a kind not in the table, or not allowed on its ring. A detached request of
such a kind leaves nothing to write. -/
def execBadRequestKind (r : Holder) (s : State) : Out :=
  whenInService (fun s =>
    match s.rgi.orphans.find? fun q => decide (q.ring = r) && q.bad with
    | some q => s.taken q false
    | none =>
      match (s.ring r).service with
      | some ⟨q, .waiting⟩ => if q.bad then s.putReply r .nobody (Reply.plain .badRequest) else s
      | _ => s) s

end Sys2Proof.Machine
end

