-- ==== Sys2Proof/Machine/Instructions.lean ====
section
/-! DEFINITION. The meanings of the utility's instructions and of their answers (Chapters 1, 2, 3, 4, 6 and 8; R173,
R174). -/

namespace Sys2Proof.Machine

/-- The instruction that ULC has dispatched and its owner has not taken, if `p` holds of it. -/
def State.dispatchedIf (s : State) (p : LineInstr → Bool) : Option LineInstr :=
  match s.ulc.dispatched with
  | some ⟨i, .waiting, _⟩ => if p i then some i else none
  | _ => none

/-- The owner of the dispatched instruction decides it; with no such instruction dispatched the command has no effect (log
entry 1). -/
def ownerTakes (k : LineKind) (f : LineInstr → State → State) (s : State) : Out :=
  whenInService (fun s =>
    match s.dispatchedIf fun i => i.is k with
    | none => s
    | some i => f i s) s

/-- Give ADIR's, TFU's or TKE's answer to ULC. -/
def State.give (s : State) (a : Answer) : State := s.answered a.code a.echo a.detail

/-- The owner has the instruction and waits for a write under way. -/
def State.claimed (s : State) : State :=
  s.mapUlc fun u => { u with dispatched := u.dispatched.map fun d => { d with phase := .claimed } }

/-! ## ADIR -/

/-- ENROL (R19, R20). -/
def execEnrol (s : State) : Out :=
  ownerTakes .enrol (fun i s =>
    let t := s.claimMeter (i.field 0 5)
    let d := enrolDecision t.adir i t.tke.now
    (t.putDecided d.2).give d.1) s

/-- AMEND (R21, R22). -/
def execAmend (s : State) : Out :=
  ownerTakes .amend (fun i s =>
    let t := s.claimMeter (i.field 0 5)
    let d := amendDecision t.adir.table i
    (t.putDecided d.2).give d.1) s

/-- VNC answers METER_RETIRED to every park list entry for a slot (R24), the oldest first (log entry 17). -/
def State.retireParked (s : State) (slot : Nat) : State :=
  (s.vnc.park.filter fun e => decide (e.slot = slot)).foldl
    (fun s e => (s.unpark e.holder).ctxReply e.holder (Reply.plain .meterRetired)) s

/-- RETIRE (R23, R24). -/
def execRetire (s : State) : Out :=
  ownerTakes .retire (fun i s =>
    let t := s.claimMeter (i.field 0 5)
    s.markStores
      (match retireDecision t.adir.table i with
      | (a, .none) => t.give a
      | (a, .remove slot) => (t.dropRecord slot).give a
      | (a, .retiring slot r) => ((t.putRecord slot r).retireParked slot).give a)) s

/-- KEYROLL (R124, R125). -/
def execKeyroll (s : State) : Out :=
  ownerTakes .keyroll (fun i s =>
    let t := s.claimMeter (i.field 0 5)
    let d := keyrollDecision t.adir.table i
    (t.putDecided d.2).give d.1) s

/-! ## FLU -/

/-- GRANT (R54): a claim on FLU, taken when no write is under way (R52). -/
def execGrant (s : State) : Out :=
  ownerTakes .grant (fun i s => (s.claimed.claimFloat (.grant (i.field 0 4) (i.field 4 4))).pumpFloat) s

/-- RECALL (R55). -/
def execRecall (s : State) : Out :=
  ownerTakes .recall (fun i s => (s.claimed.claimFloat (.recall (i.field 0 4) (i.field 4 4))).pumpFloat) s

/-- FLOAT_TERMS (R57). -/
def execFloatTerms (s : State) : Out :=
  ownerTakes .floatTerms (fun i s =>
    (s.claimed.claimFloat (.terms (i.field 0 4) (i.field 4 4) (i.field 8 4))).pumpFloat) s

/-! ## TFU -/

/-- TARIFF (R33, R34): complete with its third write. -/
def execTariff (s : State) : Out :=
  ownerTakes .tariff (fun i s =>
    let d := tariffDecision s.tfu i
    if d.2 then
      ((s.mapTfu fun t => t.load (i.field 0 2) (i.field 2 1) (carriedEntry i)).raiseIf s.tfu.bank.arm.isSome
        .disarmed).give d.1
    else s.give d.1) s

/-- ARM (R35, R36): complete with the write of the arm, or with the apply that it finds due. -/
def execArm (s : State) : Out :=
  ownerTakes .arm (fun i s =>
    let echo := beBytes 2 (i.field 0 2)
    match armDecision s.tfu i with
    | .accepted =>
      let t := s.mapTfu fun t => t.armed i
      let u := t.applyLook
      u.answered .accepted echo (beBytes 1 (if t.applyDue then 2 else 1) ++ beBytes 2 u.tfu.bank.activeGeneration)
    | .badField => s.answered .badField echo []
    | code => s.answered code echo (beBytes 2 s.tfu.bank.activeGeneration)) s

/-- DISARM (R38). -/
def execDisarm (s : State) : Out :=
  ownerTakes .disarm (fun _ s =>
    if s.tfu.bank.arm.isSome then
      (s.mapTfu fun t => { t with bank := { t.bank with arm := none } }).answered .accepted [] []
    else s.answered .notArmed [] []) s

/-- MONTHS (R41, R40, R42): the append and then the rollover it may find due, each with the conditions it causes. -/
def execMonths (s : State) : Out :=
  ownerTakes .months (fun i s =>
    let echo := slice i.body 1 2
    match monthsDecision s.tfu.calendar i with
    | .accepted =>
      (watchMonth State.rolloverLook (watchMonth (fun s => s.mapTfu fun t => t.appended i) s)).answered .accepted echo []
    | code => s.answered code echo []) s

/-! ## TKE -/

/-- TIME (R89). -/
def execTime (s : State) : Out :=
  ownerTakes .time (fun i s =>
    let minute := i.field 0 4
    if maxMinute < minute then s.answered .badField [] []
    else
      ((((s.setClock minute).raiseIf (!s.tke.clockValid) .clockValid).raiseIf
          (s.tke.clockValid && decide (minute < s.tke.minute)) .clockBack).raiseIf
        (decide (minute = maxMinute)) .clockEnd).answered .accepted []
        (beBytes 4 (if s.tke.clockValid then s.tke.minute else max32))) s

/-! ## ULC -/

/-- HOLDOVER (R164): a claim on ULC's store record, taken when no write of it is under way. -/
def execHoldover (s : State) : Out :=
  ownerTakes .holdover (fun i s =>
    if 10080 < i.field 0 2 then s.answered .badField [] []
    else s.claimed.claimRecord (.holdover (i.field 0 2))) s

/-- SWEEP (R176). ULC decided it when it was dispatched, so one that a give-up or a LINK reset met since has had its sweep
cancelled (R159, R178). The slot in the detail of an answer that replaced nothing is 0 by choice (log entry 22). A BAD_FIELD
is ULC's own, so its echo is all zero (R211; log entry 28). -/
def execSweep (s : State) : Out :=
  ownerTakes .sweep (fun i s =>
    let start := i.field 0 2
    let count := i.field 2 1
    let echo := beBytes 2 start
    if slotCount ≤ start ∨ count < 1 ∨ 64 < count then s.answered .badField [] []
    else
      let w := s.ulc.sweep
      let detail := beBytes 1 (bit w.active) ++ beBytes 2 (if w.active then w.next else 0)
      if s.ulc.dropsAnswer then s.answered .accepted echo detail
      else ((s.mapUlc fun u => u.startSweep start count).answered .accepted echo detail).mapUlc Ulc.arbitrate) s

/-- FLOAT_QUERY (R175). -/
def execFloatQuery (s : State) : Out :=
  ownerTakes .floatQuery (fun _ s => s.answered .accepted [] s.flu.snapshot) s

/-- UNKNOWN_INSTRUCTION (R173, R211): ULC answers BAD_FIELD itself, with an all-zero echo and no detail. -/
def execUnknownInstruction (s : State) : Out :=
  whenInService (fun s =>
    match s.dispatchedIf LineInstr.bad with
    | none => s
    | some _ => s.answered .badField [] []) s

/-! ## Answers -/

/-- ANSWER_WRITE (R174, R170): the ANSWER joins the queue and its place is released, unless a give-up has it dropped; the
next instruction is dispatched. -/
def execAnswerWrite (s : State) : Out :=
  whenInService (fun s =>
    match s.ulc.dispatched with
    | some ⟨i, .answered code echo detail, dropped⟩ =>
      (s.mapUlc fun u =>
        let v := { u with dispatched := none }
        Ulc.dispatch
          (if dropped then v
          else Ulc.arbitrate (Ulc.push { v with reserved := v.reserved - 1 }
            (.answer (answerBody i.kind code echo detail))))).startTx
    | _ => s) s

end Sys2Proof.Machine
end

