-- ==== Sys2Proof/Machine/Sales.lean ====
section
/-! DEFINITION. The meanings of the completions and timers of a sale or an office issue (R62, R76, R98 to R111, R132). Each
store write of a sale and each token job has its row, in the order of the table of R122; its times are not counted (log entry
1). -/

namespace Sys2Proof.Machine

/-- A record write of a holder, by kind. -/
def isGrantOf (h : Holder) (w : RecordWrite) : Bool := decide (w.kind = .grant) && decide (w.holder = h)

/-- A release or handover write of a holder. -/
def isReleaseOf (h : Holder) (w : RecordWrite) : Bool :=
  (match w.kind with | .release _ => true | _ => false) && decide (w.holder = h)

/-- A record part write of a holder. -/
def isRecordPartOf (h : Holder) (w : RecordWrite) : Bool := decide (w.kind = .recordPart) && decide (w.holder = h)

/-- An office commit write. -/
def isOfficeCommit (w : RecordWrite) : Bool := decide (w.kind = .officeCommit)

/-- HOLD_GRANT_DONE (R98, R115, R129): the claims that waited are answered, and the context makes its next claims, or is
wound back if it has been stopped. -/
def execHoldGrantDone (h : Holder) (s : State) : Out :=
  whenStoring (fun s =>
    match s.dueWrite (isGrantOf h) with
    | none => s
    | some w =>
      let t := s.finishWrite (isGrantOf h) w
      (if (t.ctx h).stop.isSome then t.endStopped h else t.proceed h).pumpFloat) s

/-- RESERVE_DONE (R101, R61, R115): the plan is submitted, or the reservation of a stopped sale is released. -/
def execReserveDone (c : Counter) (s : State) : Out :=
  whenStoring (fun s =>
    match s.flu.writing with
    | some (.reserve c' sale) =>
      if c' = c then
        let h := Holder.counter c
        let t := s.completeFloat (.reserve c sale)
        (if (t.ctx h).stop.isSome then
          (t.mapCtx h fun x => { x with await := .release }).claimFloat (.release c)
        else t.submit h sale.meter sale.plan (t.ctx h).stamps).pumpFloat
      else s
    | _ => s) s

/-- RESERVATION_RELEASED (R62, R114): the money is back in available, and the wind-back goes on. -/
def execReservationReleased (c : Counter) (s : State) : Out :=
  whenStoring (fun s =>
    match s.flu.writing with
    | some (.release c') =>
      if c' = c then ((s.completeFloat (.release c)).endStopped (.counter c)).pumpFloat else s
    | _ => s) s

/-- JOB_COMPLETE (R76, R74): the digits go to their owner unless the job is marked, and the next job goes into work. -/
def execJobComplete (s : State) : Out :=
  whenStoring (fun s =>
    match s.tke.work with
    | none => s
    | some w => ((if w.discard then s else s.digitsReturn w.job.owner w.token).nextJob).pumpFloat) s

/-- SEAL_DONE (R63, R104, R105, R115): the context has its serial and starts the commit; a stop taken meanwhile is too
late. -/
def execSealDone (c : Counter) (s : State) : Out :=
  whenStoring (fun s =>
    match s.flu.writing with
    | some (.seal c' tokens) =>
      if c' = c then
        let h := Holder.counter c
        let t := (s.completeFloat (.seal c tokens)).stopTooLate h
        ((t.mapCtx h fun x => { x with state := .committing, serial := some s.flu.nextSerial }).recordPartClaim
          c).pumpFloat
      else s
    | _ => s) s

/-- RECORD_PART_APPLIED (R105): the float part claim. -/
def execRecordPartApplied (c : Counter) (s : State) : Out :=
  whenStoring (fun s =>
    match s.dueWrite (isRecordPartOf (.counter c)) with
    | none => s
    | some w => ((s.finishWrite (isRecordPartOf (.counter c)) w).recordPartDone c).pumpFloat) s

/-- FLOAT_PART_APPLIED (R65, R105): consumed rises, and the till part claim follows. -/
def execFloatPartApplied (c : Counter) (s : State) : Out :=
  whenStoring (fun s =>
    match s.flu.writing with
    | some (.floatPart c') =>
      if c' = c then ((s.completeFloat (.floatPart c)).tillPartClaim c).pumpFloat else s
    | _ => s) s

/-- TILL_PART_APPLIED (R106, R142): the free claim; LATE_COUNT if the till was CLOSED, unless a later claim on the till has
already shown the write completed. -/
def execTillPartApplied (c : Counter) (s : State) : Out :=
  whenStoring (fun s =>
    match s.tlu.part.get c with
    | none => s
    | some p =>
      (((s.mapTlu fun t => { t with part := t.part.set c none }).raiseIf (p.late && !p.settled)
        (.lateCount c)).tillPartDone c).pumpFloat) s

/-- FREE_DONE (R66, R106): the hold release, the drawer pulse and the reply. -/
def execFreeDone (c : Counter) (s : State) : Out :=
  whenStoring (fun s =>
    match s.flu.writing with
    | some (.free c') => if c' = c then ((s.completeFloat (.free c)).endSale c).pumpFloat else s
    | _ => s) s

/-- RELEASE_DONE (R12, R106, R110): the releasing context may return to IDLE, and a parked holder resumes. -/
def execReleaseDone (h : Holder) (s : State) : Out :=
  whenStoring (fun s =>
    match s.dueWrite (isReleaseOf h) with
    | none => s
    | some w =>
      let t := ((s.finishWrite (isReleaseOf h) w).mapCtx h fun x => { x with releasePending := false }).finish h
      match w.kind with
      | .release (some n) => (t.resume n).pumpFloat
      | _ => t) s

/-- OFFICE_COMMIT_DONE (R132): the hold is released and the reply handed to RGI. -/
def execOfficeCommitDone (s : State) : Out :=
  whenStoring (fun s =>
    match s.dueWrite isOfficeCommit with
    | none => s
    | some w =>
      let t := s.finishWrite isOfficeCommit w
      (t.releaseHold .office).ctxReply .office (t.ctx .office).officeReply) s

/-- HOLD_TIMEOUT (R111): the entry leaves the park list, and its request is answered with the parking minute and the holder
at parking. -/
def execHoldTimeout (h : Holder) (s : State) : Out :=
  whenInService (fun s =>
    match s.vnc.park.find? fun e => decide (e.holder = h) with
    | none => s
    | some e =>
      (s.unpark h).ctxReply h ⟨.holdTimeout, leBytes 3 e.minute ++ leBytes 1 e.holderAtParking.index⟩) s

end Sys2Proof.Machine
end

