-- ==== Sys2Proof/Machine/Start.lean ====
section
/-! DEFINITION. The control inputs: power cuts, the RESET pin, starts, the commissioning clear and the recovery pass, with
their meanings (R67 to R71, R204 to R208). -/

namespace Sys2Proof.Machine

/-! ## The recovery pass (R67 to R69) -/

/-- The till part of the recovery pass (R67, R142). -/
def State.recoverTill (s : State) (c : Counter) (i : Image) : State :=
  if (s.till c).lastSerial = i.serial then s
  else (s.mapTill c fun r => r.count i).raiseIf (decide ((s.till c).state = .closed)) (.lateCount c)

/-- The float part of the recovery pass (R67, R65). -/
def State.recoverFloat (s : State) (c : Counter) (i : Image) : State :=
  if s.flu.floatApplied c then s else s.mapFlu fun f => f.consume c i

/-- The claims that the recovery pass makes for an entry, in order (R67, R68). -/
inductive PassClaim where
  | record | float | till | outcome | free
  deriving DecidableEq, Repr

/-- The claims for one entry. -/
def PassClaim.all : List PassClaim := [.record, .float, .till, .outcome, .free]

/-- One claim of the recovery pass: one write, or none where its mark shows it done (R67, R68, R70). -/
def State.passClaim (s : State) (c : Counter) (k : PassClaim) : State :=
  match s.flu.entries.get c, k with
  | .free, _ => s
  | .issuing sale, .outcome => s.storeOutcome c (abandonedOutcome sale.tag sale.meter sale.money)
  | .sealed i, .record => s.applyRecordPart c i
  | .sealed i, .float => s.recoverFloat c i
  | .sealed i, .till => s.recoverTill c i
  | .sealed i, .outcome => s.storeOutcome c i.outcome
  | _, .free => s.mapFlu fun f => f.setEntry c .free
  | .issuing _, _ => s

/-- The recovery pass visits one entry (R67, R68). -/
def State.recoverEntry (c : Counter) (s : State) : State := PassClaim.all.foldl (fun s k => s.passClaim c k) s

/-- Every claim of the recovery pass, in order (R67). -/
def passClaims : List (Counter × PassClaim) := Counter.all.flatMap fun c => PassClaim.all.map fun k => (c, k)

/-! ## A cut in the recovery pass (R14, R70; log entry 6) -/

/-- The store records that the pass writes are as it found them. -/
def State.unpass (s : State) : State :=
  let t := s.mapAdir fun a => { a with table := a.before.getD a.table }
  let u := t.mapFlu fun f =>
    { f with
      record := (f.before.map FloatStore.record).getD f.record
      entries := (f.before.map FloatStore.entries).getD f.entries }
  u.mapTlu fun l => { l with tills := l.before.getD l.tills }

/-- The pass makes its claims up to the one that a cut meets, and after the last it may have begun on the holds (R14): free
choices. -/
def cutClaims : List (Counter × PassClaim) → State → State
  | [], s => s.cutHolds
  | p :: rest, s => if s.freeBit then cutClaims rest (s.drawn.passClaim p.1 p.2) else s.drawn

/-- The pass and the start looks are over, or have not begun: nothing is kept of how they found the store. -/
def State.endPass (s : State) : State :=
  (((s.mapAdir fun a => { a with before := none }).mapTfu fun t => { t with before := none }).mapFlu fun f =>
    { f with before := none }).mapTlu fun l => { l with before := none }

/-- A power cut or the RESET pin meets the recovery pass (R70). -/
def State.cutPass (s : State) : State :=
  (if s.atc.phase = .recovering then cutClaims passClaims s.unpass else s).endPass

/-! ## What a power cut leaves of the clock and of TFU's writes (R32, R34, R36, R40, R204; log entry 6)

A row is whole. A cut inside a row of one write leaves what a cut before or after the row leaves; a row that moves the clock
or that makes several writes may be cut between them, and then never comes. -/

/-- The clock and the store records of TFU, as a cut leaves them. -/
structure TfuPoint where
  clockValid : Bool
  minute : Nat
  store : TfuStore
  deriving DecidableEq, Repr

/-- The clock and the store records of TFU as they stand. -/
def State.point (s : State) : TfuPoint := ⟨s.tke.clockValid, s.tke.minute, s.tfu.store⟩

/-- Put the clock and the store records of TFU. -/
def State.putPoint (s : State) (x : TfuPoint) : State :=
  (s.mapTke fun k => { k with clockValid := x.clockValid, minute := x.minute }).mapTfu fun t => t.putStore x.store

/-- The points of a row that sets the clock to a minute, if TFU writes in it: the clock moved, the apply, the rollover. -/
def State.clockPoints (s : State) (minute : Nat) : List TfuPoint :=
  let t := s.mapTke fun k => k.setTo minute
  let u := t.applyLook
  let v := u.rolloverLook
  if v.tfu.store = s.tfu.store then [] else [t.point, u.point, v.point]

/-- The points of the clock's next advance (R87). -/
def State.advancePoints (s : State) : List TfuPoint :=
  if s.live && s.tke.clockValid && decide (s.tke.minute < maxMinute) then s.clockPoints (s.tke.minute + 1) else []

/-- The points of a CLOCK_SET that waits to be taken (R90). -/
def State.clockSetPoints (s : State) : List TfuPoint :=
  match s.waiting .clockSet .office with
  | some (q, _) =>
    let minute := leNat (slice q.area 0 4)
    if s.inService && !s.tke.clockValid && decide (minute ≤ maxMinute) then s.clockPoints minute else []
  | none => []

/-- The points of an instruction that waits for its owner: TARIFF, ARM with the apply it may find due, MONTHS with the
rollover it may find due, and TIME (R34, R36, R40, R89). -/
def State.instructionPoints (s : State) : List TfuPoint :=
  match s.ulc.dispatched with
  | some ⟨i, .waiting, _⟩ =>
    if s.inService = false then []
    else if i.is .tariff then (s.tfu.tariffWrites i).map fun x => { s.point with store := x }
    else if i.is .arm ∧ armDecision s.tfu i = .accepted then
      let t := s.mapTfu fun t => t.armed i
      [t.point, t.applyLook.point]
    else if i.is .months ∧ monthsDecision s.tfu.calendar i = .accepted then
      let t := s.mapTfu fun t => t.appended i
      [t.point, t.rolloverLook.point]
    else if i.is .time ∧ i.field 0 4 ≤ maxMinute then s.clockPoints (i.field 0 4)
    else []
  | _ => []

/-- What a power cut may leave: what the start looks found or half made, what stands, and the points of a row that the cut
fell in. -/
def State.cutPoints (s : State) : List TfuPoint :=
  s.point :: (s.tfu.earlier.map fun x => { s.point with store := x }) ++ s.advancePoints ++ s.clockSetPoints ++
    s.instructionPoints

/-- One of some points, by free choices. -/
def cutThrough : List TfuPoint → State → State
  | [], s => s
  | x :: rest, s =>
    let t := s.drawn.putPoint x
    if s.freeBit then t else cutThrough rest t

/-- A power cut meets TFU's writes. -/
def State.cutTfu (s : State) : State := cutThrough s.cutPoints s

/-! ## Cuts (R204) -/

/-- Every store write under way leaves its record with its old content or its new (R204; log entry 4). -/
def State.cutStore (s : State) : State := (forCounters State.cutTill s.cutWrites.cutTfu.cutFloat.cutStores).cutRecord.cutPass

/-- The volatile state goes to its reset values (R49, R71, R79, R121, R155, R181, R197, R208). -/
def State.wipe (s : State) : State :=
  { s with
    flu := { s.flu with nextSerial := s.flu.record.nextSerial, lowWater := 0, writing := none, queue := [] }
    tke := { s.tke with queue := [], engine := .idle, work := none }
    vnc := Vnc.reset
    tlu := { s.tlu with lines := s.tlu.lines.map fun l => LinePair.reset l.outside }
    ulc := { Ulc.cleared with mode := s.ulc.mode, holdover := s.ulc.holdover, carrier := s.ulc.carrier }
    rgi := Rgi.reset
    atc := { s.atc with status := PerBlock.fill 0, enable := PerBlock.fill 0, summaryEnable := 0 } }

/-- The part is held in reset (R204): the line's leaving UP is noted (R91), the store's writes under way are cut, and the
volatile state is lost. -/
def State.hold (s : State) (supplyLost : Bool) : State :=
  s.leaveUp.cutStore.wipe.mapAtc fun a => { a with held := some ⟨supplyLost⟩ }

/-- The main supply goes: from now on the clock domain notes whether VBAK holds (R207). -/
def State.noteVbak (s : State) : State := s.mapAtc fun a => { a with vbakHeld := a.vbakUp }

/-- POWER_LOSS (R204). -/
def execPowerLoss (s : State) : Out :=
  .next
    (match s.atc.held with
    | none => (s.hold true).noteVbak
    | some h => if h.supplyLost then s else (s.mapAtc fun a => { a with held := some ⟨true⟩ }).noteVbak)

/-- RESET_N_LOW (R204). -/
def execResetNLow (s : State) : Out := .next (if s.atc.held.isNone then s.hold false else s)

/-- VBAK_LOSS (R207): it matters only while the main supply is off, which it is from POWER_LOSS to PART_START (log entry
31). -/
def execVbakLoss (s : State) : Out :=
  .next
    (s.mapAtc fun a =>
      { a with
        vbakUp := false
        vbakHeld := if a.held = some ⟨true⟩ then false else a.vbakHeld })

/-- VBAK_RETURN (R207). -/
def execVbakReturn (s : State) : Out := .next (s.mapAtc fun a => { a with vbakUp := true })

/-! ## The start of RECOVERING and the end of the pass (R69, R205) -/

/-- The recovery pass begins: what it finds is kept until it ends (R70). TFU keeps what its start looks find. -/
def State.beginPass (s : State) : State :=
  ((s.mapAdir fun a => { a with before := some a.table }).mapFlu fun f =>
    { f with before := some ⟨f.record, f.entries⟩ }).mapTlu fun l => { l with before := some l.tills }

/-- RECOVERING is entered (R205): TFU takes its start looks, and the recovery pass visits the entries. -/
def State.enterRecovering (s : State) : State :=
  forCounters State.recoverEntry ((s.mapAtc fun a => { a with phase := .recovering }).startTfu).beginPass

/-- RECOVERY_DONE (R69, R14, R185): the holds and RETIRING records go, the float figures are computed, and a waiting INIT is
taken. -/
def execRecoveryDone (s : State) : Out :=
  .next
    (if s.atc.held.isNone && decide (s.atc.phase = .recovering) then
      let t := (s.mapAdir fun a => { a with table := clearHolds a.table }).endPass.endFloatRecovery.mapAtc
        fun a => { a with phase := .inService }
      if t.rgi.initWaiting then (t.mapRgi fun g => { g with initWaiting := false }).beginInit else t
    else s)

/-! ## Starts (R205 to R207) -/

/-- The clock domain after a loss of VBAK, and after a commissioning clear (R88, R91). -/
def Tke.lost (k : Tke) : Tke := { k with clockValid := false, minute := 0, sinceUp := maxMinute, counting := true }

/-- Every record of the account store is rewritten to its cleared value (R206), and the clock and count with them. -/
def State.eraseStore (s : State) : State :=
  { s with
    adir := ⟨[], [], [], none⟩
    tfu := Tfu.cleared
    flu := Flu.cleared
    tke := s.tke.lost
    tlu := { Tlu.cleared with lines := s.tlu.lines }
    ulc := { s.ulc with mode := .normal, holdover := 4320 } }

/-- VBAK was lost while the main supply was off (R207). -/
def Atc.backupGone (a : Atc) : Bool := decide (a.held = some ⟨true⟩) && !a.vbakHeld

/-- PART_START (R205 to R207), with the CLEAR strap's level. -/
def execPartStart (clearStrap : Bool) (s : State) : Out :=
  .next
    (if s.atc.held.isNone then s
    else
      let lost := s.atc.backupGone
      let clears := clearStrap || decide (s.atc.mark = .clearing)
      let t := (if lost then s.mapTke Tke.lost else s).mapAtc fun a =>
        { a with held := none, backupLost := lost, clearRun := clears }
      if clears then t.eraseStore.mapAtc fun a => { a with phase := .clearing, mark := .clearing }
      else t.enterRecovering)

/-- CLEAR_END (R206): the mark's second write completes, and RECOVERING is entered. -/
def execClearEnd (s : State) : Out :=
  .next
    (if s.atc.held.isNone && decide (s.atc.phase = .clearing) then
      (s.mapAtc fun a => { a with mark := .commissioned }).enterRecovering
    else s)

end Sys2Proof.Machine
end

