-- ==== Sys2Proof/Machine/Dispatch.lean ====
section
/-! DEFINITION. The meaning of every command: one arm per constructor, one direct call each. -/

namespace Sys2Proof.Machine

/-- The effect of a command on everything but the queue. -/
def exec (i : Instr) (s : State) : Host.Outcome State Fault Refusal :=
  match i with
  | .powerLoss => Sys2Proof.Machine.execPowerLoss s
  | .resetNLow => Sys2Proof.Machine.execResetNLow s
  | .partStart clearStrap => Sys2Proof.Machine.execPartStart clearStrap s
  | .clearEnd => Sys2Proof.Machine.execClearEnd s
  | .recoveryDone => Sys2Proof.Machine.execRecoveryDone s
  | .vbakLoss => Sys2Proof.Machine.execVbakLoss s
  | .windowWrite port value => Sys2Proof.Machine.execWindowWrite port value s
  | .init mask => Sys2Proof.Machine.execInit mask s
  | .start mask => Sys2Proof.Machine.execStart mask s
  | .stop mask => Sys2Proof.Machine.execStop mask s
  | .demand mask => Sys2Proof.Machine.execDemand mask s
  | .ringFaultClear ring => Sys2Proof.Machine.execRingFaultClear ring s
  | .busFaultClear => Sys2Proof.Machine.execBusFaultClear s
  | .statusWrite block value => Sys2Proof.Machine.execStatusWrite block value s
  | .enableWrite block value => Sys2Proof.Machine.execEnableWrite block value s
  | .summaryEnableWrite value => Sys2Proof.Machine.execSummaryEnableWrite value s
  | .cancel value => Sys2Proof.Machine.execCancel value s
  | .linkEnable value => Sys2Proof.Machine.execLinkEnable value s
  | .floatLowwaterRead => Sys2Proof.Machine.execFloatLowwaterRead s
  | .ringReset => Sys2Proof.Machine.execRingReset s
  | .engineReset => Sys2Proof.Machine.execEngineReset s
  | .engineRun => Sys2Proof.Machine.execEngineRun s
  | .linkReset => Sys2Proof.Machine.execLinkReset s
  | .linesReset => Sys2Proof.Machine.execLinesReset s
  | .initBlockReadDone bytes => Sys2Proof.Machine.execInitBlockReadDone bytes s
  | .pollTimerExpiry ring => Sys2Proof.Machine.execPollTimerExpiry ring s
  | .ringLook ring descriptor => Sys2Proof.Machine.execRingLook ring descriptor s
  | .vend counter => Sys2Proof.Machine.execVend counter s
  | .quote counter => Sys2Proof.Machine.execQuote counter s
  | .reprint counter => Sys2Proof.Machine.execReprint counter s
  | .lookup ring => Sys2Proof.Machine.execLookup ring s
  | .referSet => Sys2Proof.Machine.execReferSet s
  | .referClear => Sys2Proof.Machine.execReferClear s
  | .engineer => Sys2Proof.Machine.execEngineer s
  | .keyrollOnly => Sys2Proof.Machine.execKeyrollOnly s
  | .tillOpen => Sys2Proof.Machine.execTillOpen s
  | .tillPause => Sys2Proof.Machine.execTillPause s
  | .tillResume => Sys2Proof.Machine.execTillResume s
  | .tillClose => Sys2Proof.Machine.execTillClose s
  | .tillRead => Sys2Proof.Machine.execTillRead s
  | .outcomeTake => Sys2Proof.Machine.execOutcomeTake s
  | .lineSet => Sys2Proof.Machine.execLineSet s
  | .lineRead => Sys2Proof.Machine.execLineRead s
  | .clockSet => Sys2Proof.Machine.execClockSet s
  | .clockRead => Sys2Proof.Machine.execClockRead s
  | .badRequestKind ring => Sys2Proof.Machine.execBadRequestKind ring s
  | .replyWritten ring => Sys2Proof.Machine.execReplyWritten ring s
  | .busFault => Sys2Proof.Machine.execBusFault s
  | .ringFault ring => Sys2Proof.Machine.execRingFault ring s
  | .holdGrantDone holder => Sys2Proof.Machine.execHoldGrantDone holder s
  | .reserveDone counter => Sys2Proof.Machine.execReserveDone counter s
  | .jobComplete => Sys2Proof.Machine.execJobComplete s
  | .sealDone counter => Sys2Proof.Machine.execSealDone counter s
  | .recordPartApplied counter => Sys2Proof.Machine.execRecordPartApplied counter s
  | .floatPartApplied counter => Sys2Proof.Machine.execFloatPartApplied counter s
  | .tillPartApplied counter => Sys2Proof.Machine.execTillPartApplied counter s
  | .freeDone counter => Sys2Proof.Machine.execFreeDone counter s
  | .releaseDone holder => Sys2Proof.Machine.execReleaseDone holder s
  | .officeCommitDone => Sys2Proof.Machine.execOfficeCommitDone s
  | .holdTimeout holder => Sys2Proof.Machine.execHoldTimeout holder s
  | .clockAdvance => Sys2Proof.Machine.execClockAdvance s
  | .minutesSinceUpTick => Sys2Proof.Machine.execMinutesSinceUpTick s
  | .drwInChange counter level => Sys2Proof.Machine.execDrwInChange counter level s
  | .levelCounted counter => Sys2Proof.Machine.execLevelCounted counter s
  | .pulseEnd counter => Sys2Proof.Machine.execPulseEnd counter s
  | .stuckTimerExpiry counter => Sys2Proof.Machine.execStuckTimerExpiry counter s
  | .longTimerExpiry counter => Sys2Proof.Machine.execLongTimerExpiry counter s
  | .rateWindowEnd cycles => Sys2Proof.Machine.execRateWindowEnd cycles s
  | .carrierLoss => Sys2Proof.Machine.execCarrierLoss s
  | .carrierGain => Sys2Proof.Machine.execCarrierGain s
  | .parcelReceive bytes => Sys2Proof.Machine.execParcelReceive bytes s
  | .serviceModeWritten => Sys2Proof.Machine.execServiceModeWritten s
  | .trainingTimeout => Sys2Proof.Machine.execTrainingTimeout s
  | .silenceTimeout => Sys2Proof.Machine.execSilenceTimeout s
  | .slipTimeout => Sys2Proof.Machine.execSlipTimeout s
  | .idleParcelSend => Sys2Proof.Machine.execIdleParcelSend s
  | .upwardEntrySent => Sys2Proof.Machine.execUpwardEntrySent s
  | .floatReportQueue => Sys2Proof.Machine.execFloatReportQueue s
  | .sweepPageBegin => Sys2Proof.Machine.execSweepPageBegin s
  | .sweepPageWrite => Sys2Proof.Machine.execSweepPageWrite s
  | .sweepEnd => Sys2Proof.Machine.execSweepEnd s
  | .answerWrite => Sys2Proof.Machine.execAnswerWrite s
  | .enrol => Sys2Proof.Machine.execEnrol s
  | .amend => Sys2Proof.Machine.execAmend s
  | .retire => Sys2Proof.Machine.execRetire s
  | .keyroll => Sys2Proof.Machine.execKeyroll s
  | .grant => Sys2Proof.Machine.execGrant s
  | .recall => Sys2Proof.Machine.execRecall s
  | .floatTerms => Sys2Proof.Machine.execFloatTerms s
  | .tariff => Sys2Proof.Machine.execTariff s
  | .arm => Sys2Proof.Machine.execArm s
  | .disarm => Sys2Proof.Machine.execDisarm s
  | .months => Sys2Proof.Machine.execMonths s
  | .time => Sys2Proof.Machine.execTime s
  | .holdover => Sys2Proof.Machine.execHoldover s
  | .sweep => Sys2Proof.Machine.execSweep s
  | .floatQuery => Sys2Proof.Machine.execFloatQuery s
  | .unknownInstruction => Sys2Proof.Machine.execUnknownInstruction s
  | .vbakReturn => Sys2Proof.Machine.execVbakReturn s
  | .initBlockReadError => Sys2Proof.Machine.execInitBlockReadError s
  | .reservationReleased counter => Sys2Proof.Machine.execReservationReleased counter s

end Sys2Proof.Machine
end

