-- ==== Sys2Proof/Safety.lean ====
section
/-! DEFINITION. The invariants that every step of the part keeps: the clock's range, the float balance, the places of the
upward queue, and the form of the meter table; and what statements about the part say of a state. -/

namespace Sys2Proof.Machine

/-! ## The clock domain (R87, R88, R91) -/

/-- The minute clock and the minutes-since-up count are in range, and an invalid clock reads 0. -/
def Tke.clockOk (k : Tke) : Prop :=
  k.minute ≤ maxMinute ∧ k.sinceUp ≤ maxMinute ∧ (k.clockValid = false → k.minute = 0)

/-! ## The float (R51) -/

/-- What has been recalled, consumed and reserved has been granted. -/
def Flu.solvent (f : Flu) : Prop := f.record.recalled + f.record.consumed + f.reserved ≤ f.record.granted

/-- The float is solvent, it is so again once the write under way has completed, and it was so when the recovery pass under
way began (R70). -/
def Flu.balanced (f : Flu) : Prop :=
  f.solvent ∧ (∀ k, f.writing = some k → (f.complete k).solvent) ∧
    ∀ b, f.before = some b → ({ f with record := b.record, entries := b.entries } : Flu).solvent

/-- The float is balanced, and FLU has no write under way while the part is held in reset or in CLEARING (R204, R205). -/
def State.floatOk (s : State) : Prop := s.flu.balanced ∧ (s.live = false → s.flu.writing = none)

/-! ## The upward queue (R170) -/

/-- The reserved places that the dispatched instruction holds: none after a give-up. -/
def Ulc.owing (u : Ulc) : Nat :=
  match u.dispatched with
  | some d => bit (!d.dropAnswer)
  | none => 0

/-- The reserved place that a page, or the SWEEP_END, holds. -/
def Ulc.paging (u : Ulc) : Nat := bit u.sweep.placed

/-- Each reserved place is held by an instruction taken and not answered or by the sweep, no more than 16 places are used,
and a page under construction has its place. -/
def Ulc.placesOk (u : Ulc) : Prop :=
  u.reserved = u.list.length + u.owing + u.paging ∧ u.used ≤ 16 ∧ (u.sweep.page.isSome = true → u.sweep.placed = true)

/-! ## The meter table (R1) -/

/-- Where the old content of a write under way may come back after a power cut: its slot exists, and no other slot holds
its meter number, now or by another such write. -/
def Adir.restorable (a : Adir) : Prop :=
  ∀ w ∈ a.writes, w.settled = false →
    w.slot < slotCount ∧ (∀ p ∈ a.table, p.2.number = w.old.number → p.1 = w.slot) ∧
      ∀ v ∈ a.writes, v.settled = false → v.old.number = w.old.number → v.slot = w.slot

/-- The meter table has its form, and a power cut leaves it so, in a recovery pass too (R70). -/
def Adir.ok (a : Adir) : Prop :=
  tableOk a.table = true ∧ a.restorable ∧ ∀ t, a.before = some t → tableOk t = true

/-! ## The recovery pass (R70) -/

/-- While the part runs in RECOVERING it keeps what the recovery pass found, which a power cut goes back to. -/
def State.passKept (s : State) : Prop :=
  s.atc.held = none → s.atc.phase = .recovering →
    s.adir.before.isSome = true ∧ s.flu.before.isSome = true ∧ s.tlu.before.isSome = true

/-! ## Together -/

/-- What every step keeps. -/
def State.inv (s : State) : Prop := s.tke.clockOk ∧ s.floatOk ∧ s.ulc.placesOk ∧ s.adir.ok ∧ s.passKept

/-! ## What statements say of a state -/

/-- No store write is under way, and none that a power cut could undo. -/
def State.storeQuiet (s : State) : Prop :=
  s.adir.writes = [] ∧ s.adir.waiting = [] ∧ s.tfu.before = none ∧ s.flu.writing = none ∧ s.flu.queue = [] ∧
    s.tlu.part = PerCounter.fill none ∧ s.tlu.closing = PerCounter.fill none ∧
    s.tlu.removing = PerCounter.fill none ∧ s.tlu.storing = PerCounter.fill none ∧
    s.ulc.recordWrite = none ∧ s.adir.before = none ∧ s.flu.before = none ∧ s.tlu.before = none

/-- The request `q` of a kind waits in service on ring `r` for its owner, and its reply can be written to the host (R189 to
R191). -/
def State.serving (s : State) (k : ReqKind) (r : Holder) (q : Request) : Prop :=
  s.inService = true ∧ s.waiting k r = some (q, true) ∧ q.ring = r ∧ s.rgi.writes = true ∧ s.rgi.accessOk r = true

/-- RGI with the reply of the request in service on a ring waiting for the bus (R190, R191). -/
def Rgi.replyDue (g : Rgi) (r : Holder) (q : Request) (owner : ReplyOwner) (reply : Reply) : Rgi :=
  { g with
    rings := g.rings.set r { g.rings.get r with service := some ⟨q, .replying owner reply⟩ }
    bus := g.bus ++ [.reply r] }

/-- The instruction `i` of a kind is dispatched and waits for its owner (R174). -/
def State.dispatches (s : State) (k : LineKind) (i : LineInstr) (dropped : Bool) : Prop :=
  s.inService = true ∧ s.ulc.dispatched = some ⟨i, .waiting, dropped⟩ ∧ i.is k = true

/-- ULC with the answer of the dispatched instruction (R174). -/
def Ulc.answering (u : Ulc) (i : LineInstr) (dropped : Bool) (code : AnswerCode) (echo detail : List Byte) : Ulc :=
  { u with dispatched := some ⟨i, .answered code echo detail, dropped⟩ }

/-- A write of FLU's record or entries from `a` to `b` has the effects that the writes have on the level's bits and the
low-water mark (R58, R59): `s` before, `t` after. -/
def floatWatched (s t : State) (b : Flu) : Prop :=
  t.flu = { b with lowWater := min s.flu.lowWater b.available } ∧
    t.atc =
      ((s.raiseIf (decide (s.flu.record.lowMark ≤ s.flu.available) && decide (b.available < b.record.lowMark))
          .floatLow).raiseIf
        (decide (0 < s.flu.available) && decide (b.available = 0)) .floatEmpty).atc

/-- From `s` to `t` the part is cut off: the volatile state is lost, the clock is kept, or moved by a row that the cut fell in
(log entry 6), and a line that was UP has left UP (R49, R71, R79, R91, R121, R155, R181, R197, R204, R208). -/
def volatileLost (s t : State) : Prop :=
  t.vnc = Vnc.reset ∧ t.rgi = Rgi.reset ∧
    t.tke =
      { s.tke with
        queue := [], engine := .idle, work := none, clockValid := t.tke.clockValid, minute := t.tke.minute
        sinceUp := if s.ulc.line = .up then 0 else s.tke.sinceUp
        counting := if s.ulc.line = .up then true else s.tke.counting } ∧
    (∃ x ∈ s.cutPoints, t.tke.clockValid = x.clockValid ∧ t.tke.minute = x.minute) ∧
    t.ulc =
      { Ulc.cleared with mode := t.ulc.mode, holdover := s.ulc.holdover, carrier := s.ulc.carrier } ∧
    (∀ c, t.lines c = LinePair.reset (s.lines c).outside) ∧
    t.atc.status = PerBlock.fill 0 ∧ t.atc.enable = PerBlock.fill 0 ∧ t.atc.summaryEnable = 0 ∧ t.attn = false

/-- From `s` to `t` every store record keeps its content, or goes back to the content that a write under way would have
replaced, or takes the content that it would have written, and the clock and TFU's records stand at a point of a row that
the cut fell in; an outcome whose removal may be under way, with no parcel that has told of it, may be in its till again,
and of the outcomes that one event stored in several tills one at least, which no read has found missing, is there (R204,
R34, R36, R40, R145, R146, R181; log entry 6). -/
def eachOldOrNew (s t : State) : Prop :=
  (∀ slot, t.record slot = s.record slot ∨
      ∃ w ∈ s.adir.writes, w.settled = false ∧ w.slot = slot ∧ t.record slot = some w.old) ∧
    t.point ∈ s.cutPoints ∧
    ((t.flu.record = s.flu.record ∧ t.flu.entries = s.flu.entries) ∨
      ∃ k, s.flu.writing = some k ∧ t.flu.record = (s.flu.complete k).record ∧
        t.flu.entries = (s.flu.complete k).entries) ∧
    (∀ c, ∃ x y z,
      (x = s.till c ∨ ∃ w, s.tlu.storing.get c = some w ∧ w.settled = false ∧ x = { s.till c with outcome := w.old }) ∧
        (y = x ∨ ∃ p, s.tlu.part.get c = some p ∧ p.settled = false ∧ y = p.old) ∧
        (z = y ∨ ∃ old, s.tlu.closing.get c = some old ∧ z = { y with state := old }) ∧
        (t.till c = z ∨
          ∃ o, s.tlu.removing.get c = some o ∧ s.ulc.noneTold = false ∧ t.till c = { z with outcome := some o })) ∧
    ((∀ c, s.tlu.part.get c = none ∧ s.tlu.removing.get c = none) →
        (∃ c w, s.tlu.storing.get c = some w ∧ w.readOld = false) →
      ∃ c w, s.tlu.storing.get c = some w ∧ w.readOld = false ∧ (t.till c).outcome = (s.till c).outcome) ∧
    (t.ulc.mode = s.ulc.mode ∨ s.ulc.recordWrite = some t.ulc.mode) ∧ t.storeQuiet

/-- The recovery pass under way as it stands after its first `n` claims. -/
def State.passAfter (s : State) (n : Nat) : State :=
  (passClaims.take n).foldl (fun t p => t.passClaim p.1 p.2) s.unpass

/-- From `s`, in a recovery pass, to `t` the store is as the pass left it after some of its claims, and once it has made
all of them some records may have lost their hold or, if RETIRING, been removed (R14, R70). -/
def passCut (s t : State) : Prop :=
  ∃ n, n ≤ passClaims.length ∧
    (∀ slot, t.record slot = (s.passAfter n).record slot ∨
      n = passClaims.length ∧ ∃ r, (s.passAfter n).record slot = some r ∧
        t.record slot = (if r.status = .retiring then none else some { r with hold := none })) ∧
    t.flu.record = (s.passAfter n).flu.record ∧ t.flu.entries = (s.passAfter n).flu.entries ∧
    (∀ c, t.till c = (s.passAfter n).till c) ∧ t.point ∈ s.cutPoints ∧ t.storeQuiet

/-- The take checks of a VEND (R96): the first line that applies. -/
def State.saleRefusal (s : State) (c : Counter) (meter money : Nat) : Option ResultCode :=
  if meter < 1 ∨ 99999999999 < meter then some .badRequest
  else if money < 100 ∨ 500000 < money then some .amountRange
  else if (s.till c).state = .closed then some .tillClosed
  else if (s.till c).state = .paused then some .tillPaused
  else if (s.lines c).function = .drawer ∧ (s.lines c).drawer ≠ .shut then some .drawerOpen
  else if (s.till c).outcome ≠ none then some .outcomePending
  else if s.ulc.mode = .halt then some .salesHalted
  else if s.ulc.mode = .capped ∧ s.flu.record.vendCap < money then some .overCap
  else if s.ulc.line ≠ .up ∧ s.ulc.holdover < s.tke.sinceUp then some .linkStale
  else if s.tke.clockValid = false then some .clockUnset
  else if s.month = none then some .monthUnknown
  else none

/-- The block walk of R46, from the block that covers the position on: `Walks blocks pos budget units carry`. -/
inductive Walks : List PriceBlock → Nat → Nat → Nat → Nat → Prop
  | stop (b : PriceBlock) (rest : List PriceBlock) (pos budget : Nat) :
      (∀ upper, b.upper = some upper → budget / b.price ≤ upper - pos) →
      Walks (b :: rest) pos budget (budget / b.price) (budget % b.price)
  | on (b : PriceBlock) (rest : List PriceBlock) (pos budget upper units carry : Nat) :
      b.upper = some upper → upper - pos < budget / b.price →
      Walks rest upper (budget - (upper - pos) * b.price) units carry →
      Walks (b :: rest) pos budget (upper - pos + units) carry

/-- The rollover of a calendar at a minute (R40): every entry leaves the head whose successor's start minute the clock has
reached. -/
def rolledOver (minute : Nat) (old new : List MonthEntry) : Prop :=
  ∃ n, new = old.drop n ∧ (∀ k, 1 ≤ k → k ≤ n → ∃ e, old[k]? = some e ∧ e.start ≤ minute) ∧
    ∀ e, old[n + 1]? = some e → minute < e.start

/-- The month bits that a change of the month and of the calendar from `s` to `u` sets, seen in `t` (R42). -/
def monthBits (s u t : State) : Prop :=
  (u.month ≠ none → u.month ≠ s.month → t.has .monthChanged = true) ∧
    (s.month ≠ none → u.month = none → t.has .monthLost = true) ∧
    (3 ≤ s.tfu.calendar.length → u.tfu.calendar.length < 3 → t.has .calendarLow = true)

/-- From `s` to `t` the clock has been set or advanced to a minute, and the clock event has been taken (R36, R40, R42, R87):
the apply and the rollover that are due are made, and the month bits are those of the clock's change and then of theirs. -/
def clockTaken (s t : State) (minute : Nat) : Prop :=
  (∀ a, s.tfu.bank.arm = some a → a.minute ≤ minute →
      t.tfu.bank =
        ⟨s.tfu.bank.active.other, s.tfu.bank.generation, s.tfu.bank.loaded.set s.tfu.bank.active 0, none⟩ ∧
        t.has .applied = true) ∧
    ((∀ a, s.tfu.bank.arm = some a → minute < a.minute) → t.tfu.bank = s.tfu.bank) ∧
    t.tfu.entries = s.tfu.entries ∧ rolledOver minute s.tfu.calendar t.tfu.calendar ∧
    monthBits s { s with tke := t.tke } t ∧ monthBits { s with tke := t.tke } t t

/-- What the transmitter is sending once an entry stands in the queue: what it was sending, or the head entry, begun with
the office number and the nibble as they stand (R168, R169). -/
def State.sends (s : State) : Option Transmission :=
  match s.ulc.tx, s.ulc.office with
  | none, some n => if s.ulc.line.sending then some ⟨⟨n, s.upNibble⟩, []⟩ else none
  | x, _ => x

/-- The outcome that an undeliverable reply of a counter's context becomes (R117). -/
def outcomeOf (x : Ctx) (q : CtxRequest) (y : Reply) : Outcome :=
  if y.code = .done then
    ⟨.done, x.serial.getD 0, q.tag, q.meter, q.money, (x.price.map PriceResult.generation).getD 0, x.returns⟩
  else ⟨.abandoned, 0, q.tag, q.meter, q.money, 0, []⟩

/-- From `s` to `t` the reply `y` of a counter's context has been undeliverable: its outcome is stored in the till, or
declined, and the context is IDLE, or waits for its hold release alone (R117, R144, R106). -/
def replyLost (s t : State) (c : Counter) (q : CtxRequest) (y : Reply) : Prop :=
  ((s.till c).outcome = none ∨ y.code = .done →
      t.till c = { s.till c with outcome := some (outcomeOf (s.ctx (.counter c)) q y) } ∧ t.has .outcomeStored = true) ∧
    ((s.till c).outcome ≠ none → y.code ≠ .done → t.till c = s.till c) ∧
    t.ctx (.counter c) =
      (if (s.ctx (.counter c)).releasePending then
        { s.ctx (.counter c) with attached := false, replyPending := false }
      else Ctx.idle)

/-- No hold claim waits for the record of a meter number (R2). -/
abbrev State.noneWaitsFor (s : State) (meter : Nat) : Prop := ∀ x ∈ s.adir.waiting, x.meter ≠ meter

/-- No hold claim waits for the record that a write replaces (R2). -/
abbrev State.noneWaits (s : State) (w : RecordWrite) : Prop := s.noneWaitsFor w.old.number

/-- A command that makes a claim on the record of a meter number, other than a hold claim, and can be served (R2): a QUOTE
with its number and money in range, and a REFER_SET with its code in range (R28, R119). -/
def State.claims (s : State) (command : Instr) (meter : Nat) : Prop :=
  (∃ q : Request, q.meter = meter ∧
    ((∃ r, command = .lookup r ∧ s.serving .lookup r q) ∨
      (∃ c, command = .quote c ∧ s.serving .quote (.counter c) q ∧ 1 ≤ meter ∧ meter ≤ 99999999999 ∧ 100 ≤ q.money ∧
        q.money ≤ 500000) ∨
      (∃ c, command = .reprint c ∧ s.serving .reprint (.counter c) q) ∨
      (command = .referSet ∧ s.serving .referSet .office q ∧ 1 ≤ leNat (slice q.area 5 2) ∧
        leNat (slice q.area 5 2) ≤ 255) ∨
      command = .referClear ∧ s.serving .referClear .office q)) ∨
  (∃ (i : LineInstr) (d : Bool) (k : LineKind), i.field 0 5 = meter ∧ s.dispatches k i d ∧
    (k, command) ∈
      [(LineKind.enrol, Instr.enrol), (.amend, .amend), (.retire, .retire), (.keyroll, .keyroll)]) ∨
  command = .sweepPageBegin ∧ s.ulc.sweep.wantsPage = true ∧
    ∃ w ∈ s.adir.writes, w.old.number = meter ∧ s.ulc.sweep.next ≤ w.slot ∧
      w.slot < pageAfter s.adir.table s.ulc.sweep.next s.ulc.sweep.remaining

/-- The bus list after a look at each of some rings, in order: one access for each that is not halted, has no request in
service and no look outstanding. -/
def looksAt (s : State) (rings : List Holder) : List Access :=
  s.rgi.bus ++
    (rings.filter fun r => !(s.ring r).halted && (s.ring r).service.isNone && decide (Access.look r ∉ s.rgi.bus)).map .look

/-- The request `q` of a context stands at its owner, and its reply can be written to the host (R190, R191). -/
def State.atOwner (s : State) (h : Holder) (q : Request) : Prop :=
  (s.ctx h).attached = true ∧ (s.ring h).service = some ⟨q, .atOwner⟩ ∧ s.rgi.writes = true ∧ s.rgi.accessOk h = true

/-- A context holds the record `r` in a slot. -/
def State.holds (s : State) (h : Holder) (slot : Nat) (r : MeterRecord) : Prop :=
  (s.ctx h).slot = some slot ∧ s.record slot = some r ∧ r.hold = some h

/-- A context holds the record `r` in a slot, the record is not RETIRING, and no request is parked for it (R12). -/
def State.holdsAlone (s : State) (h : Holder) (slot : Nat) (r : MeterRecord) : Prop :=
  (s.ctx h).slot = some slot ∧ s.record slot = some r ∧ r.hold = some h ∧ r.status ≠ .retiring ∧
    ∀ e ∈ s.vnc.park, e.slot ≠ slot

end Sys2Proof.Machine
end

