-- ==== Sys2Proof/Certificates/Slice0/Obligations.lean ====
section
/-! DEFINITION. The statements for the provers. The form `∃ t, exec c s = .next t ∧ …` says that the command completes and
what it leaves; an equation `t = { s with unit := t.unit, … }` in it says that every other unit is left as it was. -/

open Sys2Proof Sys2Proof.Machine


/-! ## The step and the whole part -/

/-- A step takes the command at the front of the queue and runs it on the rest. -/
def Obligations.StepRunsTheFront : Prop :=
  ∀ (c : Instr) (s : State) (rest : List Instr), s.pending = c :: rest → step s = exec c { s with pending := rest }

/-- On an empty queue a step leaves the part as it is, unless the next part of a sweep page being sent is due: that part
then begins, with the office number and the nibble as they stand. Both are the model's choice (log entries 1 and 9). A
command never adds to or takes from the queue, and the only stop is the fault of an operand that the part cannot meet: the
model's choice (log entry 1). A parcel that begins while no till holds an outcome shows every removal completed (log entry
6). -/
def Obligations.StepIdlesAndCommandsLeaveTheQueue : Prop :=
  (∀ s : State, s.pending = [] →
     ((∀ x next remaining summaries rest, s.ulc.tx = some x → s.ulc.queue = .sweepPage next remaining summaries :: rest →
         s.live = true → s.ulc.office ≠ none → summaries.length ≤ x.sent.length + 1) →
       step s = .next s) ∧
       (∀ x n next remaining summaries rest, s.ulc.tx = some x → s.ulc.office = some n →
         s.ulc.queue = .sweepPage next remaining summaries :: rest → s.live = true →
         x.sent.length + 1 < summaries.length →
         step s =
           .next { s with ulc := { s.ulc with
             tx := some ⟨⟨n, s.upNibble⟩, x.sent ++ [x.now]⟩
             lastSent := (UpEntry.sweepPage next remaining summaries).parcels (x.sent ++ [x.now])
             noneTold := s.ulc.noneTold || !s.anyOutcome } })) ∧
  (∀ (c : Instr) (s : State),
     (c.wf = true → ∃ t, exec c s = .next t ∧ t.pending = s.pending) ∧ (c.wf = false → exec c s = .fault .illFormed))

/-- Held in reset or in CLEARING, the part takes no window write, no ring event, no request, no instruction and no timer
but those of the clock domain and the pins. That a write of WINDOW_INDEX is among the writes that CLEARING ignores is
the model's choice (log entry 30), and so is that a command whose cause is not present there passes and leaves the state
unchanged (log entry 1). -/
def Obligations.AnIdlePartTakesNothing : Prop :=
  ∀ (c : Instr) (s : State), s.live = false → c.wf = true →
    (match c with
      | .powerLoss | .resetNLow | .partStart _ | .clearEnd | .recoveryDone | .vbakLoss | .vbakReturn
      | .floatLowwaterRead | .clockAdvance | .minutesSinceUpTick | .drwInChange _ _ | .carrierLoss | .carrierGain => False
      | _ => True) →
    exec c s = .next s

/-- The clock and the count stay in range, and an invalid clock stays at 0. -/
def Obligations.EveryStepKeepsTheClockInRange : Prop :=
  ∀ s t : State, s.tke.clockOk → step s = .next t → t.tke.clockOk

/-- The float stays solvent, with a write under way and without one, and as the recovery pass under way found it. -/
def Obligations.EveryStepKeepsTheFloatBalanced : Prop :=
  ∀ s t : State, s.floatOk → step s = .next t → t.floatOk

/-- At most 16 places of the upward queue are used, each reserved one is accounted for, and a page under construction has
its place. -/
def Obligations.EveryStepKeepsTheQueuePlaces : Prop :=
  ∀ s t : State, s.ulc.placesOk → step s = .next t → t.ulc.placesOk

/-- The meter table keeps its form: rising slots below 16,384 and no meter number twice; and a power cut would leave it
so, in a recovery pass too. -/
def Obligations.EveryStepKeepsTheMeterTable : Prop :=
  ∀ s t : State, s.adir.ok → step s = .next t → t.adir.ok

/-- The state after reset has the five invariants, and an empty queue. -/
def Obligations.ResetHasTheInvariants : Prop := State.reset.inv ∧ State.reset.pending = []

/-- The values the rules give after a reset: every unit right after the commissioning clear of a factory part, which is
where the model starts (log entry 2). -/
def Obligations.ResetValues : Prop :=
  let s := State.reset
  s.adir.table = [] ∧ s.tfu.bank = ⟨.a, ⟨0, 0⟩, ⟨0, 0⟩, none⟩ ∧ s.tfu.calendar = [] ∧
    (∀ k n, n < 16 → s.tfu.entry k n = ⟨false, [⟨1, none⟩], 0⟩) ∧
    s.flu.record = ⟨0, 0, 0, 0, 0, 0, 1, 1, PerCounter.fill 0⟩ ∧ (∀ c, s.flu.entries.get c = .free) ∧
    s.tke = ⟨[], .idle, none, false, 0, 16777215, true⟩ ∧ (∀ h, s.ctx h = Ctx.idle) ∧ s.vnc.park = [] ∧
    (∀ c, s.till c = ⟨.closed, 1, 0, 0, 0, 0, 0, 0, 0, none⟩) ∧
    (∀ c, (s.lines c).function = .general ∧ (s.lines c).out = ⟨false, true, true, false⟩ ∧
      (s.lines c).inp = ⟨false, true, true, false⟩ ∧ (s.lines c).drawer = .shut ∧ (s.lines c).pulse = false ∧
      (s.lines c).counted = true) ∧
    s.ulc.line = .off ∧ s.ulc.linkEnable = false ∧ s.ulc.mode = .normal ∧ s.ulc.holdover = 4320 ∧ s.ulc.rate = .none ∧
    s.ulc.queue = [] ∧ s.ulc.reserved = 0 ∧ s.ulc.office = none ∧ s.ulc.lastNibble = none ∧
    s.rgi.state = .stopped ∧ s.rgi.windowIndex = 0 ∧ s.rgi.initAddr = 0 ∧ s.rgi.copy = none ∧
    (∀ r, s.ring r = ⟨0, false, false, false, none⟩) ∧
    s.atc.status = ⟨0, 0, 0, 4, 0, 0, 0⟩ ∧ s.atc.enable = PerBlock.fill 0 ∧ s.atc.summaryEnable = 0 ∧
    s.atc.phase = .recovering ∧ s.atc.clearRun = true ∧ s.atc.mark = .commissioned ∧ s.attn = false


/-! ## Cuts and starts -/

/-- POWER_LOSS and RESET_N_LOW hold a running part in reset: the volatile state is lost and the clock goes on, moved at most
by a row that the cut fell in (log entry 6). A power loss met by a part already held notes the loss of the supply. A loss of
VBAK matters only while the main supply is off, which it is from POWER_LOSS to PART_START by choice (log entry 31); its
return clears nothing. -/
def Obligations.ACutHoldsThePartInReset : Prop :=
  (∀ s : State,
     (s.atc.held = none →
       (∃ t, exec .powerLoss s = .next t ∧ volatileLost s t ∧ t.atc.held = some ⟨true⟩ ∧ t.atc.vbakHeld = s.atc.vbakUp ∧
         t.atc.mark = s.atc.mark) ∧
       ∃ t, exec .resetNLow s = .next t ∧ volatileLost s t ∧ t.atc.held = some ⟨false⟩ ∧ t.atc.mark = s.atc.mark) ∧
     (s.atc.held = some ⟨false⟩ →
       exec .powerLoss s = .next { s with atc := { s.atc with held := some ⟨true⟩, vbakHeld := s.atc.vbakUp } })) ∧
  (∀ s : State,
     exec .vbakLoss s =
         .next { s with atc := { s.atc with
           vbakUp := false
           vbakHeld := if s.atc.held = some ⟨true⟩ then false else s.atc.vbakHeld } } ∧
       exec .vbakReturn s = .next { s with atc := { s.atc with vbakUp := true } })

/-- A cut leaves each store record with its old content or its new content, and a cut of the recovery pass leaves the
store as the pass left it after some of its claims; the outcome that the last OUTCOME_TAKE removed, and those that one
event stored in several tills, are among the writes that a cut may undo; which of them is a free value of the model (log
entry 4), and what can be cut when is in log entry 6. While the part runs in RECOVERING it keeps what the pass found. Of
the apply and the rollover of one clock event or start the apply is made first, by choice (log entry 26). -/
def Obligations.ACutLeavesEachRecordOldOrNew : Prop :=
  (∀ s : State, s.atc.held = none → s.adir.ok →
     (s.atc.phase ≠ .recovering →
       (∃ t, exec .powerLoss s = .next t ∧ eachOldOrNew s t) ∧ ∃ t, exec .resetNLow s = .next t ∧ eachOldOrNew s t) ∧
       (s.atc.phase = .recovering → s.passKept →
         (∃ t, exec .powerLoss s = .next t ∧ passCut s t) ∧ ∃ t, exec .resetNLow s = .next t ∧ passCut s t)) ∧
  (∀ s t : State, s.passKept → step s = .next t → t.passKept)

/-- A start with the strap active, or with the mark at CLEARING, makes the commissioning clear: the store and the clock
domain take their cleared values, CLEAR_RUN is 1, and the part is in CLEARING. A start that does not clear enters
RECOVERING: the clock is kept if VBAK held through a loss of the main supply and is invalid at minute 0 otherwise,
BACKUP_LOST says which, and CLEAR_RUN is 0; TFU takes an apply and a rollover that the clock makes due, CALENDAR_LOW is set
if the level holds, MONTH_CHANGED if the month is then known, and MONTH_LOST is not set. -/
def Obligations.AStartClearsOrRecovers : Prop :=
  (∀ (s : State) (strap : Bool), s.atc.held.isSome = true → (strap = true ∨ s.atc.mark = .clearing) →
     ∃ t, exec (.partStart strap) s = .next t ∧ t.adir = ⟨[], [], [], none⟩ ∧
       t.tfu.bank = ⟨.a, ⟨0, 0⟩, ⟨0, 0⟩, none⟩ ∧ t.tfu.calendar = [] ∧
       (∀ k n, n < 16 → t.tfu.entry k n = ⟨false, [⟨1, none⟩], 0⟩) ∧
       t.flu.record = ⟨0, 0, 0, 0, 0, 0, 1, 1, PerCounter.fill 0⟩ ∧ (∀ c, t.flu.entries.get c = .free) ∧
       t.tke = { s.tke with clockValid := false, minute := 0, sinceUp := 16777215, counting := true } ∧
       (∀ c, t.till c = ⟨.closed, 1, 0, 0, 0, 0, 0, 0, 0, none⟩) ∧
       t.ulc = { s.ulc with mode := .normal, holdover := 4320 } ∧
       t.atc =
         { s.atc with
           held := none, phase := .clearing, mark := .clearing, clearRun := true
           backupLost := decide (s.atc.held = some ⟨true⟩) && !s.atc.vbakHeld } ∧
       t = { s with adir := t.adir, tfu := t.tfu, flu := t.flu, tke := t.tke, tlu := t.tlu, ulc := t.ulc, atc := t.atc } ∧
       t.tlu.lines = s.tlu.lines) ∧
  (∀ s : State, s.atc.held.isSome = true → s.atc.mark = .commissioned →
     ∃ t, exec (.partStart false) s = .next t ∧ t.atc.held = none ∧ t.atc.phase = .recovering ∧ t.atc.clearRun = false ∧
       t.atc.mark = .commissioned ∧
       t.atc.backupLost = (decide (s.atc.held = some ⟨true⟩) && !s.atc.vbakHeld) ∧
       t.tke =
         (if s.atc.held = some ⟨true⟩ ∧ s.atc.vbakHeld = false then
           { s.tke with clockValid := false, minute := 0, sinceUp := 16777215, counting := true }
         else s.tke) ∧
       t.tfu.entries = s.tfu.entries ∧
       (∀ a, s.tfu.bank.arm = some a → t.tke.clockValid = true → a.minute ≤ t.tke.minute →
         t.tfu.bank =
           ⟨s.tfu.bank.active.other, s.tfu.bank.generation, s.tfu.bank.loaded.set s.tfu.bank.active 0, none⟩ ∧
         t.has .applied = true) ∧
       ((∀ a, s.tfu.bank.arm = some a → t.tke.clockValid = false ∨ t.tke.minute < a.minute) →
         t.tfu.bank = s.tfu.bank) ∧
       (t.tke.clockValid = true → rolledOver t.tke.minute s.tfu.calendar t.tfu.calendar) ∧
       (t.tke.clockValid = false → t.tfu.calendar = s.tfu.calendar) ∧
       (t.tfu.calendar.length < 3 → t.has .calendarLow = true) ∧ (t.month ≠ none → t.has .monthChanged = true) ∧
       t.has .monthLost = s.has .monthLost ∧
       (∀ c, t.flu.entries.get c = .free) ∧ t.vnc = s.vnc ∧ t.ulc = s.ulc ∧ t.rgi = s.rgi ∧ t.tlu.lines = s.tlu.lines)

/-- The recovery pass abandons an ISSUING sale: its entry is freed, its money is back, and an ABANDONED outcome is stored
in a till that holds none. The recovery pass finishes a SEALED sale: each part that its serial mark does not show applied
is applied, and a DONE outcome replaces what the till holds. A cut of the pass is made good: what a start after the cut and
the end of its pass leave of the records, the float and the tills is what the pass would have left without the cut. -/
def Obligations.TheRecoveryPassVisitsEachEntry : Prop :=
  (∀ (s : State) (c : Counter) (sale : Sale), s.atc.held.isSome = true → s.atc.mark = .commissioned →
     s.flu.entries.get c = .issuing sale →
     ∃ t, exec (.partStart false) s = .next t ∧ t.flu.entries.get c = .free ∧
       t.till c =
         (if (s.till c).outcome = none then
           { s.till c with outcome := some ⟨.abandoned, 0, sale.tag, sale.meter, sale.money, 0, []⟩ }
         else s.till c) ∧
       t.flu.record.lastConsumed.get c = s.flu.record.lastConsumed.get c ∧
       ((s.till c).outcome = none → t.has .outcomeStored = true)) ∧
  (∀ (s : State) (c : Counter) (i : Image), s.atc.held.isSome = true → s.atc.mark = .commissioned →
     s.flu.entries.get c = .sealed i →
     ∃ t, exec (.partStart false) s = .next t ∧ t.flu.entries.get c = .free ∧
       (∀ r, s.record i.sale.slot = some r →
         (∀ d j, d ≠ c → s.flu.entries.get d = .sealed j → j.sale.slot ≠ i.sale.slot) →
         t.record i.sale.slot =
           some (if r.copy.map VendCopy.serial = some i.serial then r else r.commit c i)) ∧
       t.flu.record.lastConsumed.get c = i.serial ∧
       t.till c =
         { (if (s.till c).lastSerial = i.serial then s.till c
           else
             { s.till c with
               vends := min 4294967295 ((s.till c).vends + 1)
               cash := min 18446744073709551615 ((s.till c).cash + i.sale.money)
               units := min 18446744073709551615 ((s.till c).units + i.sale.units)
               allowance := min 18446744073709551615 ((s.till c).allowance + i.sale.allowance)
               arrears := min 18446744073709551615 ((s.till c).arrears + i.sale.arrears)
               lastSerial := i.serial }) with
           outcome := some ⟨.done, i.serial, i.sale.tag, i.sale.meter, i.sale.money, i.sale.generation, i.tokens⟩ } ∧
       ((s.till c).lastSerial ≠ i.serial → (s.till c).state = .closed → t.has (.lateCount c) = true) ∧
       t.has .outcomeStored = true) ∧
  (∀ s : State, s.atc.held.isSome = true → s.atc.mark = .commissioned →
     ∃ t, exec (.partStart false) s = .next t ∧
       t.flu.record.consumed =
         s.flu.record.consumed +
           (Counter.all.map fun c =>
             match s.flu.entries.get c with
             | .sealed i => if i.serial = s.flu.record.lastConsumed.get c then 0 else i.sale.money
             | _ => 0).sum ∧
       t.flu.record.granted = s.flu.record.granted ∧ t.flu.record.recalled = s.flu.record.recalled ∧
       (∀ c, s.flu.entries.get c = .free → t.till c = s.till c) ∧
       (∀ slot, (∀ c i, s.flu.entries.get c = .sealed i → i.sale.slot ≠ slot) → t.record slot = s.record slot)) ∧
  (∀ (s a b : State) (cut : Instr), s.atc.held.isSome = true → s.atc.mark = .commissioned → s.adir.ok →
     cut = .powerLoss ∨ cut = .resetNLow → exec (.partStart false) s = .next a → exec cut a = .next b →
     ∃ c d e, exec (.partStart false) b = .next c ∧ exec .recoveryDone c = .next d ∧ exec .recoveryDone a = .next e ∧
       (∀ slot, d.record slot = e.record slot) ∧ d.flu.record = e.flu.record ∧ d.flu.entries = e.flu.entries ∧
       ∀ k, d.till k = e.till k)

/-- The clear ends with the mark at COMMISSIONED and the part in RECOVERING, where the empty calendar sets CALENDAR_LOW.
The recovery pass ends: every hold and every RETIRING record is gone, the working figures are taken from the store, the
float bits are set, and a waiting INIT is taken. -/
def Obligations.ClearingAndRecoveringEnd : Prop :=
  (∀ s : State, s.atc.held = none → s.atc.phase = .clearing → s.flu.entries = PerCounter.fill .free →
     s.tfu.calendar = [] → s.tke.clockValid = false →
     exec .clearEnd s =
       .next { s with
         adir := { s.adir with before := some s.adir.table }
         tfu := { s.tfu with before := some s.tfu.store }
         flu := { s.flu with before := some ⟨s.flu.record, s.flu.entries⟩ }
         tlu := { s.tlu with before := some s.tlu.tills }
         atc := { (s.raise .calendarLow).atc with phase := .recovering, mark := .commissioned } }) ∧
  (∀ s : State, s.atc.held = none → s.atc.phase = .recovering → s.adir.ok →
     ∃ t, exec .recoveryDone s = .next t ∧ t.atc.phase = .inService ∧
       (∀ slot, t.record slot =
         match s.record slot with
         | some r => if r.status = .retiring then none else some { r with hold := none }
         | none => none) ∧
       t.flu = { s.flu with nextSerial := s.flu.record.nextSerial, lowWater := s.flu.available, before := none } ∧
       t.tlu = { s.tlu with before := none } ∧ t.tfu = { s.tfu with before := none } ∧
       t.has .recoveryDone = true ∧ (s.flu.available < s.flu.record.lowMark → t.has .floatLow = true) ∧
       (s.flu.available = 0 → t.has .floatEmpty = true) ∧ (s.rgi.initWaiting = false → t.rgi = s.rgi) ∧
       (s.rgi.initWaiting = true → s.rgi.initAddr.toNat + 128 ≤ 4294967296 →
         t.rgi = { s.rgi with initWaiting := false, state := .initialising, bus := [.initBlock] }) ∧
       t = { s with adir := t.adir, tfu := t.tfu, flu := t.flu, tlu := t.tlu, rgi := t.rgi, atc := t.atc })


/-! ## The window and block control -/

/-- A block's status bits are set by events and cleared by the 1s of a write; VEND to LINK have no further effect. A
status bit set changes its own bit of its block's word and nothing else of the part. -/
def Obligations.StatusBitsAreSetByEventsAndClearedByOnes : Prop :=
  (∀ (s : State) (b : Block) (v : Word), s.live = true → b ≠ .ring →
     exec (.statusWrite b v) s =
       .next { s with atc := { s.atc with status := s.atc.status.set b (s.atc.status.get b &&& ~~~v) } }) ∧
  (∀ (s : State) (b : Status),
     (s.raise b).has b = true ∧
       (∀ d n, (d ≠ b.block ∨ n ≠ b.pos) →
         ((s.raise b).atc.status.get d).getLsbD n = (s.atc.status.get d).getLsbD n) ∧
       s.raise b = { s with atc := { s.atc with status := (s.raise b).atc.status } })

/-- A write of RING status clears its 1s; with RING_FAULT bits it lifts their halts and in RUNNING those rings are looked
at, in ring order by choice (log entry 29), and with BUS_FAULT it takes FAULTED to STOPPED. Here with every ring's access
inside the window. That the STOPPED which leaving FAULTED sets outlasts a 1 written to STOPPED by the same write is the
model's choice (log entry 13). Clearing a ring's RING_FAULT lifts its halt, and in RUNNING the ring is looked at at once;
written while the bit is 0 it does nothing, by choice (log entry 24); clearing BUS_FAULT takes FAULTED to STOPPED. -/
def Obligations.ClearingRingStatusLiftsItsFaults : Prop :=
  (∀ (s : State) (v : Word), s.live = true → (∀ r, s.rgi.accessOk r = true) →
     ∃ t, exec (.statusWrite .ring v) s = .next t ∧
       (∀ r, (t.ring r).fault =
         ((s.ring r).fault && !(v.getLsbD (8 + r.index) && s.has (.ringFault r)))) ∧
       (∀ r, (t.ring r).halted =
         ((s.ring r).halted && !(v.getLsbD (8 + r.index) && s.has (.ringFault r)))) ∧
       (s.rgi.state = .running →
         t.rgi.bus =
           s.rgi.bus ++
             (Holder.all.filter fun r =>
               v.getLsbD (8 + r.index) && s.has (.ringFault r) && (s.ring r).service.isNone &&
                 decide (Access.look r ∉ s.rgi.bus)).map .look) ∧
       (∀ r, (t.ring r).service = (s.ring r).service ∧ (t.ring r).cursor = (s.ring r).cursor) ∧
       (v.getLsbD 4 = false → t.rgi.state = s.rgi.state) ∧
       (v.getLsbD 4 = true → s.rgi.state = .faulted → t.rgi.state = .stopped ∧ t.has .stopped = true) ∧
       (∀ n, n ≠ 2 → (t.atc.status.ring).getLsbD n = ((s.atc.status.ring).getLsbD n && !v.getLsbD n)) ∧
       t = { s with rgi := t.rgi, atc := t.atc }) ∧
  (∀ s : State, s.live = true →
     (∀ r, s.has (.ringFault r) = true → s.rgi.accessOk r = true →
       ∃ t, exec (.ringFaultClear r) s = .next t ∧ t.has (.ringFault r) = false ∧ (t.ring r).fault = false ∧
         (t.ring r).halted = false ∧
         t.rgi.bus =
           (if s.rgi.state = .running ∧ (s.ring r).service = none ∧ Access.look r ∉ s.rgi.bus then
             s.rgi.bus ++ [.look r]
           else s.rgi.bus) ∧
         t = { s with rgi := t.rgi, atc := t.atc }) ∧
       (∀ r, s.has (.ringFault r) = false → exec (.ringFaultClear r) s = .next s) ∧
       ∃ t, exec .busFaultClear s = .next t ∧ t.has .busFault = false ∧
         (s.rgi.state = .faulted → t.rgi.state = .stopped ∧ t.has .stopped = true) ∧
         (s.rgi.state ≠ .faulted → t.rgi = s.rgi) ∧ t = { s with rgi := t.rgi, atc := t.atc })

/-- An enable write replaces the whole word; positions that name no status are ignored and read 0. A status bit that is
already set counts toward the summary at once with its enable bit, and the status bits stay. -/
def Obligations.EnableWritesReplaceTheWord : Prop :=
  ∀ (s : State) (b : Block) (v : Word), s.live = true →
    ∃ t, exec (.enableWrite b v) s = .next t ∧
      t = { s with atc := { s.atc with enable := s.atc.enable.set b (v &&& namedBits b) } } ∧
      (∀ n, (namedBits b).getLsbD n = true ↔ ∃ x : Status, x.block = b ∧ x.pos = n) ∧
      t.readWord (0x20 + b.pos) = some (v &&& namedBits b) ∧
      (t.summaryBit b = true ↔ ∃ x : Status, x.block = b ∧ v.getLsbD x.pos = true ∧ s.has x = true) ∧
      ∀ x : Status, t.has x = s.has x ∧ (t.raise x).has x = true

/-- A SUMMARY_ENABLE write replaces the whole word; positions that name no block are ignored and read 0. ATTN is active
while a block has a status bit set with its enable bit and its SUMMARY_ENABLE bit, and inactive otherwise, in reset and in
CLEARING. -/
def Obligations.AttnFollowsTheWords : Prop :=
  ∀ s : State,
    (∀ v : Word, s.live = true →
      exec (.summaryEnableWrite v) s = .next { s with atc := { s.atc with summaryEnable := v &&& 0x7F } } ∧
        ∀ n, (v &&& (0x7F : Word)).getLsbD n = true ↔ v.getLsbD n = true ∧ ∃ b : Block, b.pos = n) ∧
      (s.live = true → s.readWord 0x27 = some s.atc.summaryEnable) ∧
      (∀ b, s.summaryBit b = true ↔
        ∃ n, (s.atc.status.get b).getLsbD n = true ∧ (s.atc.enable.get b).getLsbD n = true) ∧
      (s.live = true →
        (s.attn = true ↔ ∃ b, s.summaryBit b = true ∧ s.atc.summaryEnable.getLsbD b.pos = true)) ∧
      (s.atc.held.isSome = true ∨ s.atc.phase = .clearing → s.attn = false)

/-- A write of one window location: WINDOW_INDEX takes the word, ATTENTION_SUMMARY refuses it, and WINDOW_DATA writes the
word that WINDOW_INDEX selects, which is what the named commands do (log entry 13). INIT_ADDR takes a multiple of 4 in
STOPPED and is refused otherwise; CONTROL and BLOCK_CONTROL with no pulse bit change nothing, and with more than one are
refused, like a write of a read-only word or of an index that selects none. -/
def Obligations.AWindowWriteIsTheNamedCommand : Prop :=
  ∀ (s : State) (v : Word), s.live = true →
    exec (.windowWrite .index v) s = .next { s with rgi := { s.rgi with windowIndex := v } } ∧
      exec (.windowWrite .summary v) s = .next (s.raise .writeRefused) ∧
      (∀ w, s.rgi.windowIndex = w →
        (w = 0x01 → exec (.windowWrite .data v) s = exec (.statusWrite .ring v) s) ∧
        (w = 0x04 → exec (.windowWrite .data v) s = exec (.cancel v) s) ∧
        (w = 0x05 → exec (.windowWrite .data v) s = exec (.linkEnable v) s) ∧
        (w = 0x11 → exec (.windowWrite .data v) s = exec (.statusWrite .vend v) s) ∧
        (w = 0x16 → exec (.windowWrite .data v) s = exec (.statusWrite .link v) s) ∧
        (w = 0x20 → exec (.windowWrite .data v) s = exec (.enableWrite .ring v) s) ∧
        (w = 0x26 → exec (.windowWrite .data v) s = exec (.enableWrite .link v) s) ∧
        (w = 0x27 → exec (.windowWrite .data v) s = exec (.summaryEnableWrite v) s) ∧
        (w = 0x00 → v.toNat % 16 = 1 → exec (.windowWrite .data v) s = exec (.init (v.extractLsb' 8 9)) s) ∧
        (w = 0x00 → v.toNat % 16 = 2 → exec (.windowWrite .data v) s = exec (.start (v.extractLsb' 8 9)) s) ∧
        (w = 0x00 → v.toNat % 16 = 4 → exec (.windowWrite .data v) s = exec (.stop (v.extractLsb' 8 9)) s) ∧
        (w = 0x00 → v.toNat % 16 = 8 → exec (.windowWrite .data v) s = exec (.demand (v.extractLsb' 8 9)) s) ∧
        (w = 0x28 → v.toNat % 32 = 1 → exec (.windowWrite .data v) s = exec .ringReset s) ∧
        (w = 0x28 → v.toNat % 32 = 2 → exec (.windowWrite .data v) s = exec .engineReset s) ∧
        (w = 0x28 → v.toNat % 32 = 4 → exec (.windowWrite .data v) s = exec .engineRun s) ∧
        (w = 0x28 → v.toNat % 32 = 8 → exec (.windowWrite .data v) s = exec .linkReset s) ∧
        (w = 0x28 → v.toNat % 32 = 16 → exec (.windowWrite .data v) s = exec .linesReset s) ∧
        (∀ b : Block, b ≠ .ring → w.toNat = 0x10 + b.pos → exec (.windowWrite .data v) s = exec (.statusWrite b v) s) ∧
        (∀ b : Block, w.toNat = 0x20 + b.pos → exec (.windowWrite .data v) s = exec (.enableWrite b v) s) ∧
        (w = 0x00 → v.toNat % 16 = 0 → exec (.windowWrite .data v) s = .next s) ∧
        (w = 0x00 → v.toNat % 16 ∉ [0, 1, 2, 4, 8] → exec (.windowWrite .data v) s = .next (s.raise .writeRefused)) ∧
        (w = 0x28 → v.toNat % 32 = 0 → exec (.windowWrite .data v) s = .next s) ∧
        (w = 0x28 → v.toNat % 32 ∉ [0, 1, 2, 4, 8, 16] →
          exec (.windowWrite .data v) s = .next (s.raise .writeRefused)) ∧
        (w = 0x03 → s.rgi.state = .stopped → v.toNat % 4 = 0 →
          exec (.windowWrite .data v) s = .next { s with rgi := { s.rgi with initAddr := v } }) ∧
        (w = 0x03 → s.rgi.state ≠ .stopped ∨ v.toNat % 4 ≠ 0 →
          exec (.windowWrite .data v) s = .next (s.raise .writeRefused)) ∧
        (w = 0x02 ∨ 0x06 ≤ w.toNat ∧ w.toNat ≤ 0x10 ∨ 0x17 ≤ w.toNat ∧ w.toNat ≤ 0x1F ∨ 0x29 ≤ w.toNat →
          exec (.windowWrite .data v) s = .next (s.raise .writeRefused)))

/-- INIT in STOPPED begins the block read, or waits for the end of the recovery pass; a block that would run past the
host's address space fails at once (log entry 12). A second INIT while one waits changes nothing. In any other state INIT
is refused. -/
def Obligations.AnInitPulseReadsTheBlock : Prop :=
  ∀ (s : State) (mask : BitVec 9), s.live = true →
    (s.rgi.state = .stopped → s.inService = true → s.rgi.initAddr.toNat + 128 ≤ 4294967296 →
      exec (.init mask) s =
        .next { s with rgi := { s.rgi with mask := mask, state := .initialising, bus := [.initBlock] } }) ∧
      (s.rgi.state = .stopped → s.inService = true → 4294967296 < s.rgi.initAddr.toNat + 128 →
        ∃ t, exec (.init mask) s = .next t ∧ t.rgi.state = .stopped ∧ t.rgi.faultReason = .blockRead ∧
          t.has .initFault = true ∧ t = { s with rgi := t.rgi, atc := t.atc }) ∧
      (s.rgi.state = .stopped → s.inService = false → s.rgi.initWaiting = false →
        exec (.init mask) s = .next { s with rgi := { s.rgi with mask := mask, initWaiting := true } }) ∧
      (s.rgi.state = .stopped → s.inService = false → s.rgi.initWaiting = true → exec (.init mask) s = .next s) ∧
      (s.rgi.state ≠ .stopped → exec (.init mask) s = .next (s.raise .writeRefused))

/-- START in READY enters RUNNING and looks at every ring; DEMAND in RUNNING looks at the rings its mask names; in any
other state they are refused. The looks of one pulse join the bus list in ring order by choice (log entry 29). Here with
every ring's access inside the window. -/
def Obligations.StartAndDemandLookAtRings : Prop :=
  ∀ (s : State) (mask : BitVec 9), s.live = true → (∀ r, s.rgi.accessOk r = true) →
    (s.rgi.state = .ready →
      ∃ t, exec (.start mask) s = .next t ∧ t.rgi.state = .running ∧ t.rgi.mask = mask ∧
        t.rgi.bus = looksAt s Holder.all ∧ t = { s with rgi := t.rgi }) ∧
      (s.rgi.state = .running →
        ∃ t, exec (.demand mask) s = .next t ∧ t.rgi.state = .running ∧ t.rgi.mask = mask ∧
          t.rgi.bus = looksAt s (Holder.all.filter fun r => mask.getLsbD r.index) ∧ t = { s with rgi := t.rgi }) ∧
      (s.rgi.state ≠ .ready → exec (.start mask) s = .next (s.raise .writeRefused)) ∧
      (s.rgi.state ≠ .running → exec (.demand mask) s = .next (s.raise .writeRefused))

/-- STOP: from RUNNING to STOPPING, or to STOPPED at once when no ring has a request in service; from READY to STOPPED; in
any other state it is refused. That every poll timer is off from STOP on, and that the access list is empty in STOPPED, is
the model's choice (log entry 12). -/
def Obligations.AStopPulseLeadsToStopped : Prop :=
  ∀ (s : State) (mask : BitVec 9), s.live = true →
    ∃ t, exec (.stop mask) s = .next t ∧ t = { s with rgi := t.rgi, atc := t.atc } ∧
      (s.rgi.state = .running → s.rgi.quiet = false →
        t.rgi.state = .stopping ∧ t.rgi.bus = s.rgi.bus ∧ t.atc = s.atc ∧ ∀ r, (t.ring r).poll = false) ∧
      (s.rgi.state = .running → s.rgi.quiet = true →
        t.rgi.state = .stopped ∧ t.rgi.bus = [] ∧ t.has .stopped = true) ∧
      (s.rgi.state = .ready → t.rgi.state = .stopped ∧ t.has .stopped = true ∧ t.rgi.copy = s.rgi.copy) ∧
      (s.rgi.state ≠ .running → s.rgi.state ≠ .ready → t = s.raise .writeRefused)

/-- CANCEL by the state of the context it names, which its low four bits name (11.2; log entry 13): no effect on an IDLE
one, CANCEL_LATE past ISSUING, a stop mark on an ISSUING one that waits for an answer, the end of a handover write among
them by choice (log entry 20), and a value that names no holder is refused. CANCEL of a sale whose tokens are in the
engine withdraws its jobs, drops its returns and claims the release of its reservation, which FLU begins at once when no
write is under way. CANCEL of a PARKED context takes its entry from the park list and answers CANCELLED; the record is not
touched. -/
def Obligations.CancelActsByTheContextsState : Prop :=
  (∀ (s : State) (h : Holder) (v : Word), s.live = true → s.flu.queue = [] → v.toNat % 16 = h.index →
     ((s.ctx h).state = .idle → exec (.cancel v) s = .next s) ∧
       ((s.ctx h).state = .sealed ∨ (s.ctx h).state = .committing ∨ (s.ctx h).state = .replying →
         exec (.cancel v) s = .next (s.raise .cancelLate)) ∧
       ((s.ctx h).state = .issuing → (s.ctx h).stop ≠ none → exec (.cancel v) s = .next s) ∧
       ((s.ctx h).state = .issuing → (s.ctx h).stop = none → (s.ctx h).await ≠ .tokens →
         exec (.cancel v) s = .next (s.mapCtx h fun x => { x with stop := some .cancel })) ∧
       (∀ w : Word, 8 < w.toNat % 16 → exec (.cancel w) s = .next (s.raise .writeRefused))) ∧
  (∀ (s : State) (c : Counter) (sale : Sale) (v : Word), s.live = true → v.toNat % 16 = c.index →
     s.flu.queue = [] → s.flu.writing = none → s.flu.entries.get c = .issuing sale →
     (s.ctx (.counter c)).state = .issuing → (s.ctx (.counter c)).stop = none →
     (s.ctx (.counter c)).await = .tokens →
     ∃ t, exec (.cancel v) s = .next t ∧ t.flu = { s.flu with writing := some (.release c) } ∧
       t.tke.queue = (s.tke.queue.filter fun j => decide (j.owner ≠ .counter c)) ∧
       t.tke.work = (s.tke.work.map fun w => if w.job.owner = .counter c then { w with discard := true } else w) ∧
       t.ctx (.counter c) =
         { s.ctx (.counter c) with stop := some .cancel, returns := [], await := .release } ∧
       (∀ h, h ≠ .counter c → t.ctx h = s.ctx h) ∧ t = { s with flu := t.flu, tke := t.tke, vnc := t.vnc }) ∧
  (∀ (s : State) (h : Holder) (q : Request) (v : Word), s.live = true → v.toNat % 16 = h.index → s.flu.queue = [] →
     (s.ctx h).state = .parked → (s.ctx h).attached = true → (s.ring h).service = some ⟨q, .atOwner⟩ →
     s.rgi.writes = true → s.rgi.accessOk h = true →
     ∃ t, exec (.cancel v) s = .next t ∧ t.rgi = s.rgi.replyDue h q .context ⟨.cancelled, []⟩ ∧
       t.vnc.park = (s.vnc.park.filter fun e => decide (e.holder ≠ h)) ∧ (t.ctx h).state = .replying ∧
       (∀ k, k ≠ h → t.ctx k = s.ctx k) ∧ t = { s with rgi := t.rgi, vnc := t.vnc })

/-- LINK_ENABLE: 1 in OFF enters DETECT, and TRAIN at once if the line is usable; 0 in any other state is the give-up; any
other value is refused. A LINK reset clears LINK_ENABLE and makes the give-up; a LINES reset puts every line at its reset
settings and restarts every filter; DRW_IN, an input with its pull-up on, is at the level put on it, or high before any has
been (log entry 8). -/
def Obligations.LinkEnableAndResetsMoveTheLine : Prop :=
  (∀ (s : State), s.live = true →
     (s.ulc.line = .off → s.ulc.usable = false →
       exec (.linkEnable 1) s =
         .next { s with
           ulc := { s.ulc with
             linkEnable := true, line := .detect, tx := none, assembly := [], good := 0, bad := 0, lastNibble := none }
           atc := (s.raise .enteredDetect).atc }) ∧
       (s.ulc.line = .off → s.ulc.usable = true →
         ∃ t, exec (.linkEnable 1) s = .next t ∧ t.ulc.line = .train ∧ t.has .enteredDetect = true ∧
           t.has .enteredTrain = true ∧ t.tke = s.tke ∧ t.ulc.queue = s.ulc.queue) ∧
       (s.ulc.line ≠ .off → exec (.linkEnable 1) s = .next { s with ulc := { s.ulc with linkEnable := true } }) ∧
       (s.ulc.line = .off → exec (.linkEnable 0) s = .next { s with ulc := { s.ulc with linkEnable := false } }) ∧
       (s.ulc.line ≠ .off →
         ∃ t, exec (.linkEnable 0) s = .next t ∧ t.ulc.line = .off ∧ t.ulc.queue = [] ∧ t.ulc.reserved = 0 ∧
           t.ulc.list = [] ∧ t.ulc.reportOwed = false ∧ t.ulc.sweep.active = false ∧ t.ulc.tx = none ∧
           t.ulc.assembly = [] ∧ t.ulc.lastNibble = none ∧ t.ulc.good = 0 ∧ t.ulc.bad = 0 ∧
           t.ulc.linkEnable = false ∧ t.ulc.mode = s.ulc.mode ∧ t.ulc.holdover = s.ulc.holdover ∧
           t.has .enteredOff = true ∧
           t.tke = (if s.ulc.line = .up then { s.tke with sinceUp := 0, counting := true } else s.tke) ∧
           t = { s with ulc := t.ulc, tke := t.tke, atc := t.atc }) ∧
       (∀ v : Word, v ≠ 0 → v ≠ 1 → exec (.linkEnable v) s = .next (s.raise .writeRefused))) ∧
  (∀ s : State, s.live = true →
     (∃ t, exec .linkReset s = .next t ∧ t.ulc.line = .off ∧ t.ulc.linkEnable = false ∧ t.ulc.queue = [] ∧
       t.ulc.reserved = 0 ∧ t.ulc.list = [] ∧ t.ulc.sweep.active = false ∧ t.ulc.reportOwed = false ∧
       t.ulc.mode = s.ulc.mode ∧ t.ulc.holdover = s.ulc.holdover ∧ t.ulc.office = s.ulc.office ∧
       t.ulc.rate = s.ulc.rate ∧ (s.ulc.line ≠ .off → t.has .enteredOff = true) ∧
       (s.ulc.line = .off → t.atc = s.atc) ∧
       t.tke = (if s.ulc.line = .up then { s.tke with sinceUp := 0, counting := true } else s.tke) ∧
       t = { s with ulc := t.ulc, tke := t.tke, atc := t.atc }) ∧
       exec .linesReset s =
         .next { s with tlu := { s.tlu with lines := s.tlu.lines.map fun l =>
           ⟨.general, ⟨false, true, true, false⟩, ⟨false, true, true, false⟩, .shut, false, false, false, true,
             l.outside.getD true, l.outside, true, true⟩ } })

/-- A read of FLOAT_LOWWATER returns the mark and resets it to available. The other window words read as 11.2 lays them
out, RING_STATUS fields and LINK_STATE among them, and no other read changes anything. Held in reset the part answers no
access; in CLEARING every word but BLOCK_CONTROL reads 0, and so does WINDOW_INDEX, whose writes are ignored there by choice
(log entry 30). -/
def Obligations.ReadingTheLowWaterMarkResetsIt : Prop :=
  (∀ s : State, s.inService = true →
     exec .floatLowwaterRead s =
       .next { s with
         flu := { s.flu with lowWater := s.flu.available }
         rgi := { s.rgi with readData := BitVec.ofNat 32 s.flu.lowWater } }) ∧
  (∀ s : State, s.live = true →
     s.readPort .index = some s.rgi.windowIndex ∧ s.readPort .data = s.readWord s.rgi.windowIndex.toNat ∧
       (∀ w, s.readPort .summary = some w →
         (∀ b : Block, w.getLsbD b.pos = s.summaryBit b) ∧ w.getLsbD 31 = s.attn ∧
           ∀ n, 7 ≤ n → n ≠ 31 → w.getLsbD n = false) ∧
       s.readWord 0x00 = some (BitVec.ofNat 32 (256 * s.rgi.mask.toNat)) ∧ s.readWord 0x01 = some s.atc.status.ring ∧
       s.readWord 0x03 = some s.rgi.initAddr ∧ s.readWord 0x04 = some 0 ∧
       s.readWord 0x05 = some (if s.ulc.linkEnable then 1 else 0) ∧
       s.readWord 0x06 =
         some (match s.ulc.rate with | .none => 0 | .r2400 => 1 | .r4800 => 2 | .r9600 => 3 | .r19200 => 4 | .outOfRange => 5) ∧
       (s.tke.clockOk →
         ∃ w, s.readWord 0x07 = some w ∧ w.toNat % 16777216 = s.tke.minute ∧ w.getLsbD 31 = s.tke.clockValid) ∧
       (s.inService = true → s.readWord 0x08 = some (BitVec.ofNat 32 s.flu.available) ∧
         s.readWord 0x09 = some (BitVec.ofNat 32 s.flu.lowWater)) ∧
       (s.inService = false → s.readWord 0x08 = some 0 ∧ s.readWord 0x09 = some 0) ∧
       (∀ b : Block, b ≠ .ring → s.readWord (0x10 + b.pos) = some (s.atc.status.get b)) ∧
       (∀ b : Block, s.readWord (0x20 + b.pos) = some (s.atc.enable.get b)) ∧
       (∃ w, s.readWord 0x02 = some w ∧ w.toNat % 8 = s.rgi.state.code ∧
         (∀ r, w.getLsbD (8 + r.index) = (s.ring r).halted) ∧ w.toNat / 1048576 % 16 = s.rgi.faultReason.code ∧
         (s.rgi.faultRing ≤ 8 →
           w.toNat / 16777216 % 16 = s.rgi.faultRing ∧ w.getLsbD 31 = s.rgi.initWaiting)) ∧
       (s.ulc.good ≤ 15 → s.ulc.bad ≤ 15 →
         ∃ w, s.readWord 0x0A = some w ∧ w.toNat % 8 = s.ulc.line.code ∧ w.getLsbD 3 = s.ulc.carrier ∧
           w.toNat / 16 % 16 = s.ulc.good ∧ w.toNat / 256 % 16 = s.ulc.bad ∧
           w.toNat / 4096 % 16 = (match s.ulc.lastNibble with | some n => n.toNat | none => 0) ∧
           w.getLsbD 16 = s.ulc.lastNibble.isSome ∧
           w.toNat / 131072 % 4 = (match s.ulc.mode with | .normal => 0 | .capped => 1 | .halt => 2) ∧
           w.getLsbD 19 = s.ulc.reportOwed ∧ w.getLsbD 20 = s.ulc.office.isSome) ∧
       (s.ulc.placesOk → s.ulc.holdover ≤ 10080 →
         ∃ w, s.readWord 0x0B = some w ∧ w.toNat % 32 = s.ulc.queue.length ∧ w.toNat / 256 % 32 = s.ulc.reserved ∧
           w.toNat / 65536 = s.ulc.holdover) ∧
       (s.ulc.sweep.next ≤ 16384 → s.ulc.sweep.remaining ≤ 64 →
         ∃ w, s.readWord 0x0C = some w ∧ w.getLsbD 0 = s.ulc.sweep.active ∧
           w.toNat / 2 % 32768 = s.ulc.sweep.next ∧ w.toNat / 65536 = s.ulc.sweep.remaining) ∧
       (∃ w, s.readWord 0x28 = some w ∧
         w.extractLsb' 16 2 = (if s.atc.phase = .inService then 2 else 1) ∧ w.getLsbD 18 = s.atc.clearRun ∧
         w.getLsbD 19 = s.atc.backupLost ∧ w.extractLsb' 0 16 = 0) ∧
       ∀ n, 0x0D ≤ n ∧ n ≤ 0x10 ∨ 0x17 ≤ n ∧ n ≤ 0x1F ∨ 0x29 ≤ n → s.readWord n = some 0) ∧
  (∀ s : State,
     (s.atc.held.isSome = true → (∀ p, s.readPort p = none) ∧ exec .floatLowwaterRead s = .next s) ∧
       (s.atc.held = none → s.atc.phase = .clearing →
         (∀ n, n ≠ 0x28 → s.readWord n = some 0) ∧ s.readPort .index = some 0 ∧ s.readPort .summary = some 0))

/-- A RING reset stops the interface: no access waits, no request is in service, every cursor is 0, every fault and halt
is cleared, and the window's own words are kept. -/
def Obligations.ARingResetStopsTheInterface : Prop :=
  ∀ s : State, s.live = true →
    ∃ t, exec .ringReset s = .next t ∧ t.rgi.state = .stopped ∧ t.rgi.bus = [] ∧ t.rgi.copy = none ∧
      t.rgi.initWaiting = false ∧ (∀ r, t.ring r = ⟨0, false, false, false, none⟩) ∧ t.has .stopped = true ∧
      t.has .initDone = false ∧ t.has .busFault = false ∧ (∀ r, t.has (.ringFault r) = false) ∧
      t.rgi.initAddr = s.rgi.initAddr ∧ t.rgi.windowIndex = s.rgi.windowIndex ∧ t.rgi.mask = s.rgi.mask ∧
      t.rgi.faultReason = s.rgi.faultReason ∧ t.has .initFault = s.has .initFault ∧
      t.has .writeRefused = s.has .writeRefused ∧ t.ulc.office = s.ulc.office ∧ t.tke.engine = s.tke.engine

/-- An ENGINE reset empties the engine and halts it; an ENGINE run takes it from HALTED to IDLE. Here with no context in
ISSUING. An ENGINE reset that finds one sale in ISSUING with its tokens in the engine marks it, drops its returns and
claims the release of its reservation. -/
def Obligations.EngineResetAndRun : Prop :=
  (∀ s : State, s.live = true →
     ((∀ h, (s.ctx h).state ≠ .issuing) → s.flu.queue = [] →
       exec .engineReset s =
         .next { s with
           tke := { s.tke with queue := [], work := none, engine := .halted }
           atc := (s.raise .engineHalted).atc }) ∧
       exec .engineRun s =
         .next { s with tke := { s.tke with engine := if s.tke.engine = .halted then .idle else s.tke.engine } }) ∧
  (∀ (s : State) (c : Counter) (sale : Sale), s.live = true → s.flu.queue = [] → s.flu.writing = none →
     s.flu.entries.get c = .issuing sale → (s.ctx (.counter c)).state = .issuing → (s.ctx (.counter c)).stop = none →
     (s.ctx (.counter c)).await = .tokens → (∀ h, h ≠ .counter c → (s.ctx h).state ≠ .issuing) →
     ∃ t, exec .engineReset s = .next t ∧ t.flu = { s.flu with writing := some (.release c) } ∧
       t.tke = { s.tke with queue := [], work := none, engine := .halted } ∧
       t.ctx (.counter c) =
         { s.ctx (.counter c) with stop := some .engineReset, returns := [], await := .release } ∧
       (∀ h, h ≠ .counter c → t.ctx h = s.ctx h) ∧ t.has .engineHalted = true ∧
       t = { s with flu := t.flu, tke := t.tke, vnc := t.vnc, atc := t.atc })


/-! ## The request rings -/

/-- The checks of an init block, in order: the first that fails gives the reason, and a ring's check gives its number. Of
two rings that overlap the lower is named, C0 before C1, by choice (log entry 25). -/
def Obligations.TheFirstFailedInitCheckGivesTheReason : Prop :=
  ∀ (k : InitCopy) (a : Nat),
    let badWindow := k.windowSize < 1 ∨ 1048576 < k.windowSize ∨ 4294967296 < (k.windowBase + k.windowSize) * 4096
    let blockIn := k.windowBase * 4096 ≤ a ∧ a + 128 ≤ (k.windowBase + k.windowSize) * 4096
    let countOk := fun r => 2 ≤ (k.rings.get r).count ∧ (k.rings.get r).count ≤ 64
    let placeOk := fun r => (k.rings.get r).base % 4 = 0 ∧ k.windowBase * 4096 ≤ (k.rings.get r).base ∧
      (k.rings.get r).base + (k.rings.get r).count * 96 ≤ (k.windowBase + k.windowSize) * 4096
    let share := fun r x => (k.rings.get r).base < (k.rings.get x).base + (k.rings.get x).count * 96 ∧
      (k.rings.get x).base < (k.rings.get r).base + (k.rings.get r).count * 96
    let head := k.office ≠ 0 ∧ ¬badWindow ∧ blockIn ∧ k.poll ≠ 0
    (k.office = 0 → k.fault a = some (.office, 0)) ∧
      (k.office ≠ 0 → badWindow → k.fault a = some (.window, 0)) ∧
      (k.office ≠ 0 → ¬badWindow → ¬blockIn → k.fault a = some (.blockOutside, 0)) ∧
      (k.office ≠ 0 → ¬badWindow → blockIn → k.poll = 0 → k.fault a = some (.poll, 0)) ∧
      (∀ r, head → ¬countOk r → (∀ x, x.index < r.index → countOk x) → k.fault a = some (.count, r.index)) ∧
      (∀ r, head → (∀ x, countOk x) → ¬placeOk r → (∀ x, x.index < r.index → placeOk x) →
        k.fault a = some (.ringOutside, r.index)) ∧
      (∀ r y, head → (∀ x, countOk x ∧ placeOk x) → r.index < y.index → share r y →
        (∀ x z, x.index < r.index → x.index < z.index → ¬share x z) → k.fault a = some (.overlap, r.index)) ∧
      (head → (∀ x, countOk x ∧ placeOk x) → (∀ x z, x.index < z.index → ¬share x z) → k.fault a = none)

/-- The init block read ends: a block that passes its checks becomes the init copy, the cursors are 0, the halts and
faults are lifted, ULC has the office number and the state is READY; one that fails leaves the copy, the cursors and the
office number, with the reason; so does a read that fails. The 32 reads are one access (log entry 12). -/
def Obligations.TheInitBlockReadEnds : Prop :=
  ∀ (s : State) (bytes : List Byte) (rest : List Access), s.inService = true → bytes.length = 128 →
    s.rgi.state = .initialising → s.rgi.bus = .initBlock :: rest →
    ((InitCopy.parse bytes).fault s.rgi.initAddr.toNat = none →
      ∃ t, exec (.initBlockReadDone bytes) s = .next t ∧ t.rgi.state = .ready ∧
        t.rgi.copy = some (InitCopy.parse bytes) ∧ t.rgi.bus = rest ∧
        (∀ r, t.ring r = { s.ring r with cursor := 0, halted := false, fault := false }) ∧
        t.ulc.office = some (leNat (bytes.take 2)) ∧ t.has .initDone = true ∧ (∀ r, t.has (.ringFault r) = false) ∧
        t = { s with rgi := t.rgi, ulc := t.ulc, atc := t.atc }) ∧
      (∀ reason ring, (InitCopy.parse bytes).fault s.rgi.initAddr.toNat = some (reason, ring) →
        exec (.initBlockReadDone bytes) s =
          .next { s with
            rgi := { s.rgi with state := .stopped, bus := rest, faultReason := reason, faultRing := ring }
            atc := (s.raise .initFault).atc }) ∧
      exec .initBlockReadError s =
        .next { s with
          rgi := { s.rgi with state := .stopped, bus := rest, faultReason := .blockRead, faultRing := 0 }
          atc := (s.raise .initFault).atc }

/-- A poll timer that expires looks at its ring, and a look takes a descriptor whose owner is PART, with its kind, tag and
area, or starts the timer again; in STOPPING it takes none. A look is one access for its owner read and its fetch (log
entry 12). -/
def Obligations.ALookTakesAPartOwnedDescriptor : Prop :=
  ∀ (s : State) (r : Holder), s.inService = true →
    ((s.ring r).poll = true → s.rgi.accessOk r = true → s.rgi.state = .running →
      exec (.pollTimerExpiry r) s =
        .next { s with rgi := { s.rgi with
          rings := s.rgi.rings.set r { s.ring r with poll := false }
          bus := looksAt s [r] } }) ∧
      (∀ (d : List Byte) (rest : List Access), d.length = 96 → s.rgi.bus = .look r :: rest →
        (s.rgi.state = .running → d.getD 0 0 = 0x01 →
          exec (.ringLook r d) s =
            .next { s with rgi := { s.rgi with
              bus := rest
              rings := s.rgi.rings.set r { s.ring r with
                service := some ⟨⟨r, d.getD 1 0, BitVec.ofNat 32 (leNat (slice d 4 4)), slice d 8 88⟩, .waiting⟩ } } }) ∧
        (s.rgi.state = .running → d.getD 0 0 ≠ 0x01 →
          exec (.ringLook r d) s =
            .next { s with rgi := { s.rgi with
              bus := rest, rings := s.rgi.rings.set r { s.ring r with poll := true } } }) ∧
        (s.rgi.state ≠ .running → exec (.ringLook r d) s = .next { s with rgi := { s.rgi with bus := rest } }))

/-- A reply written: the descriptor's bytes with the owner HOST, the cursor past it, and the next look; the owner is told.
A taken outcome leaves the till if the till still holds it, and until a claim, a read or a parcel shows it gone a cut may
bring it back (log entry 6); a late till part write that its removal waits for has then completed (log entry 5). Here with
the next descriptor inside the window. In STOPPING there is no next look, and the last reply written, with no other
request in service, leads to STOPPED. That the list of accesses is empty in STOPPED is the model's choice (log entry 12).
-/
def Obligations.AReplyWrittenMovesTheCursor : Prop :=
  (∀ (s : State) (r : Holder) (q : Request) (owner : ReplyOwner) (y : Reply) (k : InitCopy) (rest : List Access),
    s.inService = true → s.rgi.state = .running → s.rgi.bus = .reply r :: rest → Access.look r ∉ rest →
    (s.ring r).halted = false → (s.ring r).service = some ⟨q, .replying owner y⟩ → s.rgi.copy = some k →
    let next := if (s.ring r).cursor + 1 < (k.rings.get r).count then (s.ring r).cursor + 1 else 0
    k.inWindow ((k.rings.get r).base + 96 * next) 96 = true →
    ∃ t, exec (.replyWritten r) s = .next t ∧
      t.rgi =
        { s.rgi with
          bus := rest ++ [.look r]
          rings := s.rgi.rings.set r { s.ring r with cursor := next, service := none, poll := false }
          lastWrite := some
            ⟨(k.rings.get r).base + 96 * (s.ring r).cursor,
              [0x00, q.kind, BitVec.ofNat 8 y.code.code, 0x00] ++ leBytes 4 q.tag.toNat ++ padTo 88 y.fields⟩ } ∧
      (owner = .nobody → t = { s with rgi := t.rgi }) ∧
      (owner = .context → (s.ctx r).state = .replying →
        t.ctx r = (if (s.ctx r).releasePending then { s.ctx r with attached := false, replyPending := false }
          else Ctx.idle) ∧
        (∀ h, h ≠ r → t.ctx h = s.ctx h) ∧ t = { s with rgi := t.rgi, vnc := t.vnc }) ∧
      (∀ c, owner = .closing c →
        t = { s with rgi := t.rgi, tlu := { s.tlu with closing := s.tlu.closing.set c none } }) ∧
      (∀ c o, owner = .outcome c o →
        t.till c = (if (s.till c).outcome = some o then { s.till c with outcome := none } else s.till c) ∧
        (∀ d, d ≠ c → t.till d = s.till d) ∧ t.tlu.lines = s.tlu.lines ∧
        t.atc = (s.raiseIf (s.lateDue c) (.lateCount c)).atc ∧
        ((s.till c).outcome = some o → t.tlu.removing.get c = some o ∧ t.ulc = { s.ulc with noneTold := false }) ∧
        ((s.till c).outcome ≠ some o → t.ulc = s.ulc) ∧
        t = { s with rgi := t.rgi, tlu := t.tlu, ulc := t.ulc, atc := t.atc })) ∧
  (∀ (s : State) (r : Holder) (q : Request) (owner : ReplyOwner) (y : Reply) (k : InitCopy) (rest : List Access),
    s.inService = true → s.rgi.state = .stopping → s.rgi.bus = .reply r :: rest →
    (s.ring r).service = some ⟨q, .replying owner y⟩ → s.rgi.copy = some k →
    ∃ t, exec (.replyWritten r) s = .next t ∧
      t.ring r =
        { s.ring r with
          cursor := if (s.ring r).cursor + 1 < (k.rings.get r).count then (s.ring r).cursor + 1 else 0
          service := none } ∧
      (∀ x, x ≠ r → t.ring x = s.ring x) ∧
      t.rgi.lastWrite = some
        ⟨(k.rings.get r).base + 96 * (s.ring r).cursor,
          [0x00, q.kind, BitVec.ofNat 8 y.code.code, 0x00] ++ leBytes 4 q.tag.toNat ++ padTo 88 y.fields⟩ ∧
      ((∀ x, x ≠ r → (s.ring x).service = none) →
        t.rgi.state = .stopped ∧ t.rgi.bus = [] ∧ t.has .stopped = true) ∧
      ((∃ x, x ≠ r ∧ (s.ring x).service ≠ none) → t.rgi.state = .stopping ∧ t.rgi.bus = rest))

/-- An error response to a ring's access halts that ring alone: a look leaves the cursor, a reply that failed passes its
descriptor and is undeliverable. An access without acknowledge faults the whole interface: no access waits, no ring has a
request in service, every poll timer is stopped, and the copy and the cursors are kept. An undeliverable reply of a
counter's context becomes an outcome: DONE replaces what the till holds, ABANDONED is stored where none is and else
declined, and the context ends; one of the office's context stores nothing; a taken outcome stays in its till. Of the
outcomes that a BUS_FAULT stores in several tills each write may be under way (log entry 6). -/
def Obligations.RingAndBusFaults : Prop :=
  (∀ (s : State) (r : Holder) (rest : List Access), s.inService = true →
     (s.rgi.bus = .look r :: rest → (s.ring r).service = none →
       exec (.ringFault r) s =
         .next { s with
           rgi := { s.rgi with
             bus := rest, rings := s.rgi.rings.set r { s.ring r with halted := true, fault := true, poll := false } }
           atc := (s.raise (.ringFault r)).atc }) ∧
       (∀ q y k owner, s.rgi.bus = .reply r :: rest → (s.ring r).service = some ⟨q, .replying owner y⟩ →
         s.rgi.copy = some k → s.rgi.state = .running →
         ∃ t, exec (.ringFault r) s = .next t ∧
           t.rgi =
             { s.rgi with
               bus := rest
               rings := s.rgi.rings.set r
                 { cursor := if (s.ring r).cursor + 1 < (k.rings.get r).count then (s.ring r).cursor + 1 else 0
                   halted := true, fault := true, poll := false, service := none } } ∧
           t.has (.ringFault r) = true ∧
           (owner = .nobody ∨ (∃ c o, owner = .outcome c o) →
             t = { s with rgi := t.rgi, atc := (s.raise (.ringFault r)).atc }) ∧
           (∀ c, owner = .closing c →
             t = { s with
               rgi := t.rgi, tlu := { s.tlu with closing := s.tlu.closing.set c none }
               atc := (s.raise (.ringFault r)).atc }) ∧
           (∀ c p, owner = .context → r = .counter c → (s.ctx r).state = .replying → (s.ctx r).request = some p →
             (s.ctx r).reply = some y →
             replyLost s t c p y ∧ (∀ d, d ≠ c → t.till d = s.till d) ∧ (∀ h, h ≠ r → t.ctx h = s.ctx h) ∧
               t.vnc.park = s.vnc.park ∧ t.tlu.lines = s.tlu.lines ∧
               t = { s with rgi := t.rgi, atc := t.atc, vnc := t.vnc, tlu := t.tlu }) ∧
           (owner = .context → r = .office → (s.ctx r).state = .replying →
             t.ctx r =
               (if (s.ctx r).releasePending then { s.ctx r with attached := false, replyPending := false }
               else Ctx.idle) ∧
             (∀ h, h ≠ r → t.ctx h = s.ctx h) ∧ t.vnc.park = s.vnc.park ∧
             t = { s with rgi := t.rgi, atc := (s.raise (.ringFault r)).atc, vnc := t.vnc }))) ∧
  (∀ s : State, s.inService = true → s.rgi.bus ≠ [] →
     ∃ t, exec .busFault s = .next t ∧ t.rgi.state = .faulted ∧ t.rgi.bus = [] ∧ t.has .busFault = true ∧
       (∀ r, t.ring r = { s.ring r with poll := false, service := none }) ∧ t.rgi.copy = s.rgi.copy ∧
       (∀ r q, (s.ring r).service = some ⟨q, .atOwner⟩ → (t.ctx r).attached = false) ∧
       (∀ c q y p, (s.ring (.counter c)).service = some ⟨q, .replying .context y⟩ →
         (s.ctx (.counter c)).state = .replying → (s.ctx (.counter c)).request = some p →
         (s.ctx (.counter c)).reply = some y → replyLost s t c p y) ∧
       (∀ c, (∀ q y, (s.ring (.counter c)).service ≠ some ⟨q, .replying .context y⟩) → t.till c = s.till c) ∧
       (∀ q y, (s.ring .office).service = some ⟨q, .replying .context y⟩ → (s.ctx .office).state = .replying →
         t.ctx .office =
           (if (s.ctx .office).releasePending then { s.ctx .office with attached := false, replyPending := false }
           else Ctx.idle)) ∧
       (∀ c d, c ≠ d → (t.till c).outcome ≠ (s.till c).outcome → (t.till d).outcome ≠ (s.till d).outcome →
         t.tlu.storing.get c = some ⟨(s.till c).outcome, false, false⟩) ∧
       t.tlu.lines = s.tlu.lines ∧ t.vnc.park = s.vnc.park ∧
       t = { s with rgi := t.rgi, atc := t.atc, vnc := t.vnc, tlu := t.tlu })

/-- A request whose kind is not in the table, or not allowed on its ring, is answered BAD_REQUEST by RGI. A VEND, an
ENGINEER or a KEYROLL_ONLY that finds its context out of IDLE is answered COUNTER_BUSY; that this reply is no context's, and
is lost when it is undeliverable, is the model's choice (log entry 19). -/
def Obligations.RequestsTurnedAway : Prop :=
  (∀ (s : State) (r : Holder) (q : Request), s.inService = true → s.rgi.orphans = [] → s.rgi.writes = true →
     s.rgi.accessOk r = true → (s.ring r).service = some ⟨q, .waiting⟩ → q.bad = true →
     exec (.badRequestKind r) s = .next { s with rgi := s.rgi.replyDue r q .nobody ⟨.badRequest, []⟩ }) ∧
  (∀ (s : State) (q : Request),
     (∀ c, s.serving .vend (.counter c) q → (s.ctx (.counter c)).state ≠ .idle →
       exec (.vend c) s = .next { s with rgi := s.rgi.replyDue (.counter c) q .nobody ⟨.counterBusy, []⟩ }) ∧
       (s.serving .engineer .office q → (s.ctx .office).state ≠ .idle →
         exec .engineer s = .next { s with rgi := s.rgi.replyDue .office q .nobody ⟨.counterBusy, []⟩ }) ∧
       (s.serving .keyrollOnly .office q → (s.ctx .office).state ≠ .idle →
         exec .keyrollOnly s = .next { s with rgi := s.rgi.replyDue .office q .nobody ⟨.counterBusy, []⟩ }))


/-! ## Requests -/

/-- A VEND that passes every take check is taken by its counter's context, which claims the hold of an ACTIVE record with
no refer mark: granted if the record is free, parked behind its holder if not, at once or, while a write of the record is
under way, when that write has had its row. Here with no removal of the till's outcome under way (log entry 6). A hold
claim that waits so with BUSY is parked before a later claim on its record is taken (R2; log entry 5): the later command
does what it does with the claim parked. -/
def Obligations.ATakenSaleClaimsTheHold : Prop :=
  (∀ (s : State) (c : Counter) (q : Request) (slot : Nat) (rec : MeterRecord),
    s.serving .vend (.counter c) q → (s.ctx (.counter c)).state = .idle →
    1 ≤ q.meter → q.meter ≤ 99999999999 → 100 ≤ q.money → q.money ≤ 500000 →
    s.tlu.closing.get c = none → (s.tlu.removing.get c = none ∨ s.ulc.noneTold = true) →
    (s.till c).state = .opened → (s.till c).outcome = none →
    ((s.lines c).function = .general ∨ (s.lines c).drawer = .shut) →
    (s.ulc.mode = .normal ∨ (s.ulc.mode = .capped ∧ q.money ≤ s.flu.record.vendCap)) →
    (s.ulc.line = .up ∨ s.tke.sinceUp ≤ s.ulc.holdover) → s.tke.clockValid = true → s.month ≠ none →
    tableFind s.adir.table q.meter = some (slot, rec) → rec.status = .active → rec.refer = none →
    ∃ t, exec (.vend c) s = .next t ∧
      t.rgi =
        { s.rgi with rings :=
          s.rgi.rings.set (.counter c) { s.ring (.counter c) with service := some ⟨q, .atOwner⟩ } } ∧
      (∀ h, h ≠ .counter c → t.ctx h = s.ctx h) ∧
      (t.ctx (.counter c)).request = some ⟨q.tag, q.meter, q.money, .vend⟩ ∧
      (rec.hold = none →
        t.adir.table = tableSet s.adir.table slot { rec with hold := some (.counter c) } ∧
        (t.ctx (.counter c)).state = .issuing ∧ (t.ctx (.counter c)).slot = some slot ∧
        (t.ctx (.counter c)).view = some (rec.view slot) ∧ t.vnc.park = s.vnc.park) ∧
      (∀ other, rec.hold = some other → s.adir.busyOn q.meter = false →
        t.adir = s.adir ∧ (t.ctx (.counter c)).state = .parked ∧ (t.ctx (.counter c)).slot = some slot ∧
        t.vnc.park = s.vnc.park ++ [⟨.counter c, slot, s.tke.minute, other⟩]) ∧
      (∀ other, rec.hold = some other → s.adir.busyOn q.meter = true →
        t.adir =
          { s.adir with
            waiting := s.adir.waiting ++
              [⟨.counter c, q.meter, (s.adir.writes.filter fun w => decide (w.old.number = q.meter)).length,
                .busy slot other⟩] } ∧
        (t.ctx (.counter c)).state = .issuing ∧ (t.ctx (.counter c)).await = .hold ∧ t.vnc.park = s.vnc.park) ∧
      t = { s with adir := t.adir, vnc := t.vnc, rgi := t.rgi, tlu := s.tlu.outcomeRead c }) ∧
  (∀ (s : State) (x : HoldWait) (slot : Nat) (other : Holder) (command : Instr),
    s.inService = true → s.adir.waiting = [x] → x.answer = .busy slot other → (s.ctx x.holder).stop = none →
    s.claims command x.meter →
    let answered : State := { s with adir := { s.adir with waiting := [] } }
    let parked : State := answered.mapCtx x.holder fun y => { y with state := .parked, slot := some slot, await := .nothing }
    (∃ t, exec command s = .next t) ∧
      exec command s =
        exec command { parked with vnc := { parked.vnc with
          park := s.vnc.park ++ [⟨x.holder, slot, if s.tke.clockValid then s.tke.minute else 0, other⟩] } })

/-- The first take check that fails answers a VEND, and the context goes to REPLYING with no hold. When every take check
passes, the hold claim's refusal answers it so: NO_METER, METER_RETIRED, METER_SUSPENDED, or REFER_OFFICE with the refer
code. Here with no write of the record under way, so that the claim does not wait. While the removal of the till's outcome
may be under way, a VEND that reaches the check of the outcome is answered OUTCOME_PENDING, or finds the removal completed
and goes on, by a free value of the model (log entries 4 and 6). -/
def Obligations.TheFirstFailedTakeCheckAnswersAVend : Prop :=
  (∀ (s : State) (c : Counter) (q : Request) (y : Reply),
    s.serving .vend (.counter c) q → (s.ctx (.counter c)).state = .idle → s.tlu.closing.get c = none →
    (s.tlu.removing.get c = none ∨ s.ulc.noneTold = true ∨
      y.code ∈ [.badRequest, .amountRange, .tillClosed, .tillPaused, .drawerOpen]) →
    ((∃ code, s.saleRefusal c q.meter q.money = some code ∧ y = ⟨code, []⟩) ∨
      s.saleRefusal c q.meter q.money = none ∧ s.adir.busyOn q.meter = false ∧
        (tableFind s.adir.table q.meter = none ∧ y = ⟨.noMeter, []⟩ ∨
          ∃ slot r, tableFind s.adir.table q.meter = some (slot, r) ∧
            (r.status = .retiring ∧ y = ⟨.meterRetired, []⟩ ∨ r.status = .suspended ∧ y = ⟨.meterSuspended, []⟩ ∨
              ∃ mark, r.status = .active ∧ r.refer = some mark ∧ y = ⟨.referOffice, leBytes 1 mark⟩))) →
    ∃ t, exec (.vend c) s = .next t ∧ t.rgi = s.rgi.replyDue (.counter c) q .context y ∧
      (t.ctx (.counter c)).state = .replying ∧ (∀ h, h ≠ .counter c → t.ctx h = s.ctx h) ∧
      t.vnc.park = s.vnc.park ∧
      (s.saleRefusal c q.meter q.money = none → t.tlu = s.tlu.outcomeRead c) ∧
      (s.saleRefusal c q.meter q.money = some .outcomePending → t.tlu = s.tlu.outcomeRead c) ∧
      (s.saleRefusal c q.meter q.money = some .tillClosed → t.tlu = s.tlu.stored c) ∧
      (t.tlu = s.tlu.stored c ∨ t.tlu = s.tlu.outcomeRead c) ∧
      t = { s with vnc := t.vnc, rgi := t.rgi, tlu := t.tlu }) ∧
  (∀ (s : State) (c : Counter) (q : Request) (o : Outcome),
    s.serving .vend (.counter c) q → (s.ctx (.counter c)).state = .idle → s.tlu.closing.get c = none →
    s.tlu.removing.get c = some o → s.ulc.noneTold = false →
    1 ≤ q.meter → q.meter ≤ 99999999999 → 100 ≤ q.money → q.money ≤ 500000 → (s.till c).state = .opened →
    ((s.lines c).function = .general ∨ (s.lines c).drawer = .shut) →
    ∃ t, exec (.vend c) s = .next t ∧
      (t.rgi = s.rgi.replyDue (.counter c) q .context ⟨.outcomePending, []⟩ ∧ (t.ctx (.counter c)).state = .replying ∧
          t = { s with vnc := t.vnc, rgi := t.rgi, tlu := s.tlu.stored c, draws := s.draws + 1 } ∨
        exec (.vend c) { s with tlu := s.tlu.outcomeRead c, draws := s.draws + 1 } = .next t))

/-- The office context takes an ENGINEER or a KEYROLL_ONLY with the office check set: a free record is held by OFFICE, in
any status but RETIRING. An office issue under the hold plans and stamps its tokens and submits them to the engine. Here
with the engine WORKING on other jobs, so that they join its queue. -/
def Obligations.AnOfficeIssueHoldsThenSubmits : Prop :=
  (∀ (s : State) (q : Request) (slot : Nat) (rec : MeterRecord) (task : Task) (command : Instr),
     (command = .keyrollOnly ∧ s.serving .keyrollOnly .office q ∧ task = .keyrollOnly ∨
       command = .engineer ∧ s.serving .engineer .office q ∧ byteAt q.area 5 = 2 ∧ task = .clearTamper ∨
       command = .engineer ∧ s.serving .engineer .office q ∧ byteAt q.area 5 = 3 ∧
         leNat (slice q.area 6 4) ≤ 65535 ∧ task = .setLimit (leNat (slice q.area 6 4))) →
     (s.ctx .office).state = .idle → 1 ≤ q.meter → q.meter ≤ 99999999999 → s.tke.clockValid = true →
     tableFind s.adir.table q.meter = some (slot, rec) → rec.status ≠ .retiring → rec.hold = none →
     ∃ t, exec command s = .next t ∧
       t.adir.table = tableSet s.adir.table slot { rec with hold := some .office } ∧
       t.rgi = { s.rgi with rings := s.rgi.rings.set .office { s.ring .office with service := some ⟨q, .atOwner⟩ } } ∧
       (t.ctx .office).state = .issuing ∧ (t.ctx .office).request = some ⟨q.tag, q.meter, 0, task⟩ ∧
       (t.ctx .office).slot = some slot ∧ (t.ctx .office).view = some (rec.view slot) ∧
       (∀ h, h ≠ .office → t.ctx h = s.ctx h) ∧ t.vnc.park = s.vnc.park ∧
       t = { s with adir := t.adir, vnc := t.vnc, rgi := t.rgi }) ∧
  (∀ (s : State) (w : RecordWrite) (q : CtxRequest) (v : RecordView) (plan : List PlannedToken) (stamps : List Nat),
     s.inService = true → s.dueWrite (isGrantOf .office) = some w → s.noneWaits w → (s.ctx .office).stop = none →
     (s.ctx .office).request = some q → (s.ctx .office).view = some v → s.flu.queue = [] →
     (q.task = .keyrollOnly ∧
         (∃ g, v.rollGeneration = some g ∧ plan = [⟨.keyroll1, .current, g⟩, ⟨.keyroll2, .current, g⟩]) ∨
       q.task = .clearTamper ∧ plan = [⟨.clearTamper, .current, 0⟩] ∨
       ∃ watts, q.task = .setLimit watts ∧ plan = [⟨.setLimit, .current, watts⟩]) →
     s.tke.stampDecision v.lastStamp plan.length = .stamped stamps → s.tke.engine = .working →
     s.tke.busyWith .office = false →
     ∃ t, exec (.holdGrantDone .office) s = .next t ∧
       t.tke = { s.tke with queue := s.tke.queue ++ jobsOf .office q.meter plan stamps } ∧
       t.ctx .office = { s.ctx .office with plan := plan, stamps := stamps, await := .tokens } ∧
       t.adir.table = s.adir.table ∧ t = { s with adir := t.adir, tke := t.tke, vnc := t.vnc })

/-- LOOKUP answers the record's summary in any status, and changes no record. The hold claims that wait for the record are
here answered BUSY to contexts that have not been stopped: they park first (R2). -/
def Obligations.LookupAnswersTheSummary : Prop :=
  ∀ (s : State) (r : Holder) (q : Request), s.serving .lookup r q → 1 ≤ q.meter → q.meter ≤ 99999999999 →
    (∀ x ∈ s.adir.waiting, x.meter = q.meter →
      (s.ctx x.holder).stop = none ∧ ∃ slot other, x.answer = .busy slot other) →
    ∃ t, exec (.lookup r) s = .next t ∧
      t.rgi = s.rgi.replyDue r q .nobody
        (match tableFind s.adir.table q.meter with
          | none => ⟨.noMeter, []⟩
          | some (slot, rec) => ⟨.done, rec.summary slot leBytes⟩) ∧
      t.adir.table = s.adir.table ∧ (s.noneWaitsFor q.meter → t.vnc = s.vnc) ∧
      t = { s with adir := t.adir, vnc := t.vnc, rgi := t.rgi }

/-- QUOTE is decided by the first line that applies, and writes nothing. REPRINT raises the copy's reprint count by one,
up to 255, and answers the whole copy. REFER_SET sets the refer mark to its code and REFER_CLEAR removes it, on a held
record as on a free one, but not on a RETIRING one. Here with no hold claim waiting for the record. -/
def Obligations.QuoteReprintAndRefer : Prop :=
  (∀ (s : State) (c : Counter) (q : Request), s.serving .quote (.counter c) q → s.noneWaitsFor q.meter →
     ∃ t, exec (.quote c) s = .next t ∧
       t.rgi = s.rgi.replyDue (.counter c) q .nobody
         (if q.meter < 1 ∨ 99999999999 < q.meter then ⟨.badRequest, []⟩
         else if q.money < 100 ∨ 500000 < q.money then ⟨.amountRange, []⟩
         else match tableFind s.adir.table q.meter with
           | none => ⟨.noMeter, []⟩
           | some (slot, rec) =>
             if rec.status = .retiring then ⟨.meterRetired, []⟩
             else match priceDecision s.tfu s.month (rec.view slot) q.money with
               | .refused code => ⟨code, []⟩
               | .priced p => quoteReply p (planOf (rec.roll.map KeyRoll.generation) p).length) ∧
       t.adir.table = s.adir.table ∧ t = { s with adir := t.adir, rgi := t.rgi }) ∧
  (∀ (s : State) (c : Counter) (q : Request), s.serving .reprint (.counter c) q → s.noneWaitsFor q.meter →
     1 ≤ q.meter → q.meter ≤ 99999999999 →
     ∃ t, exec (.reprint c) s = .next t ∧
       (tableFind s.adir.table q.meter = none →
         t.rgi = s.rgi.replyDue (.counter c) q .nobody ⟨.noMeter, []⟩ ∧ t.adir.table = s.adir.table) ∧
       (∀ slot rec, tableFind s.adir.table q.meter = some (slot, rec) → rec.copy = none →
         t.rgi = s.rgi.replyDue (.counter c) q .nobody ⟨.notPermitted, []⟩ ∧ t.adir.table = s.adir.table) ∧
       (∀ slot rec copy, tableFind s.adir.table q.meter = some (slot, rec) → rec.copy = some copy →
         let copy' := { copy with reprints := min (copy.reprints + 1) 255 }
         t.rgi = s.rgi.replyDue (.counter c) q .nobody copy'.reply ∧
         t.adir.table = tableSet s.adir.table slot { rec with copy := some copy' }) ∧
       t = { s with adir := t.adir, rgi := t.rgi }) ∧
  (∀ (s : State) (q : Request) (command : Instr) (mark : Option Nat),
     (command = .referSet ∧ s.serving .referSet .office q ∧ 1 ≤ leNat (slice q.area 5 2) ∧
         leNat (slice q.area 5 2) ≤ 255 ∧ mark = some (leNat (slice q.area 5 2)) ∨
       command = .referClear ∧ s.serving .referClear .office q ∧ mark = none) →
     s.noneWaitsFor q.meter → 1 ≤ q.meter → q.meter ≤ 99999999999 →
     ∃ t, exec command s = .next t ∧
       (tableFind s.adir.table q.meter = none →
         t.rgi = s.rgi.replyDue .office q .nobody ⟨.noMeter, []⟩ ∧ t.adir.table = s.adir.table) ∧
       (∀ slot rec, tableFind s.adir.table q.meter = some (slot, rec) → rec.status = .retiring →
         t.rgi = s.rgi.replyDue .office q .nobody ⟨.meterRetired, []⟩ ∧ t.adir.table = s.adir.table) ∧
       (∀ slot rec, tableFind s.adir.table q.meter = some (slot, rec) → rec.status ≠ .retiring →
         t.rgi = s.rgi.replyDue .office q .nobody ⟨.done, []⟩ ∧
         t.adir.table = tableSet s.adir.table slot { rec with refer := mark }) ∧
       t = { s with adir := t.adir, rgi := t.rgi })

/-- TILL_OPEN, TILL_PAUSE and TILL_RESUME move a till from the one state each starts from, and are NOT_PERMITTED in any
other. A TILL_OPEN with a clerk outside 1 to 9,999 is answered BAD_REQUEST and changes nothing; that this comes first,
at once, on a till that is not CLOSED too is the model's choice (log entry 35). TILL_CLOSE closes an OPEN or PAUSED till
whose counter's context is IDLE, and keeps everything else of its record (log entry 7); an ABANDONED outcome's money
above 16,777,215 stands in its reply modulo 2^24, by choice (log entry 33). A late till part write that the request
waits for sets LATE_COUNT as it completes (log entry 5). -/
def Obligations.TillRequestsMoveTheTill : Prop :=
  (∀ (s : State) (q : Request) (c : Counter), q.counter = some c →
     (s.serving .tillOpen .office q → 1 ≤ leNat (slice q.area 1 2) → leNat (slice q.area 1 2) ≤ 9999 →
       ∃ t, exec .tillOpen s = .next t ∧ t = { s with tlu := t.tlu, rgi := t.rgi, atc := t.atc } ∧
         t.atc = (s.raiseIf (s.lateDue c) (.lateCount c)).atc ∧ t.tlu.lines = s.tlu.lines ∧
         (∀ d, d ≠ c → t.till d = s.till d) ∧
         ((s.till c).state = .closed →
           t.till c =
             { s.till c with
               state := .opened, clerk := leNat (slice q.area 1 2)
               openedMinute := if s.tke.clockValid then s.tke.minute else 0
               vends := 0, cash := 0, units := 0, allowance := 0, arrears := 0 } ∧
           t.rgi = s.rgi.replyDue .office q .nobody
             ⟨.done, leBytes 3 (if s.tke.clockValid then s.tke.minute else 0) ++ leBytes 4 (s.till c).lastSerial⟩) ∧
         ((s.till c).state ≠ .closed →
           t.till c = s.till c ∧ t.rgi = s.rgi.replyDue .office q .nobody ⟨.notPermitted, []⟩)) ∧
       (s.serving .tillOpen .office q → leNat (slice q.area 1 2) < 1 ∨ 9999 < leNat (slice q.area 1 2) →
         exec .tillOpen s = .next { s with rgi := s.rgi.replyDue .office q .nobody ⟨.badRequest, []⟩ }) ∧
       (s.serving .tillPause .office q →
         ∃ t, exec .tillPause s = .next t ∧ t = { s with tlu := t.tlu, rgi := t.rgi, atc := t.atc } ∧
           t.atc = (s.raiseIf (s.lateDue c) (.lateCount c)).atc ∧ t.tlu.lines = s.tlu.lines ∧
           (∀ d, d ≠ c → t.till d = s.till d) ∧
           t.till c = (if (s.till c).state = .opened then { s.till c with state := .paused } else s.till c) ∧
           t.rgi = s.rgi.replyDue .office q .nobody
             ⟨if (s.till c).state = .opened then .done else .notPermitted, []⟩) ∧
       (s.serving .tillResume .office q →
         ∃ t, exec .tillResume s = .next t ∧ t = { s with tlu := t.tlu, rgi := t.rgi, atc := t.atc } ∧
           t.atc = (s.raiseIf (s.lateDue c) (.lateCount c)).atc ∧ t.tlu.lines = s.tlu.lines ∧
           (∀ d, d ≠ c → t.till d = s.till d) ∧
           t.till c = (if (s.till c).state = .paused then { s.till c with state := .opened } else s.till c) ∧
           t.rgi = s.rgi.replyDue .office q .nobody
             ⟨if (s.till c).state = .paused then .done else .notPermitted, []⟩)) ∧
  (∀ (s : State) (q : Request) (c : Counter), q.counter = some c → s.serving .tillClose .office q →
     ∃ t, exec .tillClose s = .next t ∧ t = { s with tlu := t.tlu, rgi := t.rgi, atc := t.atc } ∧
       t.atc = (s.raiseIf (s.lateDue c) (.lateCount c)).atc ∧ t.tlu.lines = s.tlu.lines ∧
       (∀ d, d ≠ c → t.till d = s.till d) ∧
       ((s.till c).state = .closed →
         t.till c = s.till c ∧ t.rgi = s.rgi.replyDue .office q .nobody ⟨.notPermitted, []⟩) ∧
       ((s.till c).state ≠ .closed → (s.ctx (.counter c)).state ≠ .idle →
         t.till c = s.till c ∧ t.rgi = s.rgi.replyDue .office q .nobody ⟨.counterBusy, []⟩) ∧
       ((s.till c).state ≠ .closed → (s.ctx (.counter c)).state = .idle →
         t.till c = { s.till c with state := .closed } ∧
         t.rgi = s.rgi.replyDue .office q (.closing c) ⟨.done, Till.fields { s.till c with state := .closed }⟩))

/-- TILL_READ is answered DONE with the state, the clerk, the opened minute, the five totals and the last counted
serial, and of a held outcome the result, serial, meter number, money and number of tokens; an ABANDONED outcome's money
above 16,777,215 stands in its 3 bytes modulo 2^24, by choice (log entry 33). It writes nothing, and it reads the record
as the last completed write left it, whatever the till and the counter's context do; a till part write under way has
completed when a later claim on the till has been taken (log entry 5), and whether an outcome's removal, or one of
several stores of one event, is still under way when it is read is a free value of the model (log entries 4 and 6). -/
def Obligations.TillReadAnswersTheRecord : Prop :=
  ∀ (s : State) (q : Request) (c : Counter), q.counter = some c → s.serving .tillRead .office q →
    let answer (r : Till) : Rgi := s.rgi.replyDue .office q .nobody
      ⟨.done,
        leBytes 1 (if r.state = .closed then 0 else if r.state = .opened then 1 else 2) ++ leBytes 2 r.clerk ++
          leBytes 3 r.openedMinute ++ leBytes 4 r.vends ++ leBytes 8 r.cash ++ leBytes 8 r.units ++
          leBytes 8 r.allowance ++ leBytes 8 r.arrears ++ leBytes 4 r.lastSerial ++
          (match r.outcome with
            | none => List.replicate 14 0
            | some o =>
              leBytes 1 (if o.result = .done then 1 else 2) ++ leBytes 4 o.serial ++ leBytes 5 o.meter ++
                leBytes 3 o.money ++ leBytes 1 o.tokens.length)⟩
    (∀ p, s.tlu.part.get c = some p → p.settled = false → exec .tillRead s = .next { s with rgi := answer p.old }) ∧
      ((∀ p, s.tlu.part.get c = some p → p.settled = true) →
        (s.outcomeOpen c = none →
          exec .tillRead s = .next { s with tlu := s.tlu.outcomeRead c, rgi := answer (s.till c) }) ∧
        (∀ old, s.outcomeOpen c = some old →
          exec .tillRead s =
              .next { s with tlu := s.tlu.outcomeRead c, rgi := answer (s.till c), draws := s.draws + 1 } ∨
            ∃ t, exec .tillRead s = .next t ∧ t.rgi = answer { s.till c with outcome := old } ∧
              (t.tlu = s.tlu ∨ t.tlu = s.tlu.readOld c) ∧
              t = { s with tlu := t.tlu, rgi := t.rgi, draws := s.draws + 1 }) ∧
        (∀ o, s.tlu.removing.get c = some o → s.ulc.noneTold = false → s.outcomeOpen c = some (some o)))

/-- OUTCOME_TAKE answers with the outcome that the till holds and leaves it there, an ABANDONED outcome's money above
16,777,215 modulo 2^24 by choice (log entry 33); a late till part write that it waits for sets LATE_COUNT as it
completes (log entries 5 and 7). LINE_SET by the function before and after, and LINE_READ, which changes no line. An
input DRW_IN with its pull-up on is at the level put on it, or high before any has been; the level of a floating DRW_IN,
and what something outside puts on DRW_OUT, are free values of the model (log entry 8). The till and line requests
answer a counter above 7 with BAD_REQUEST, and nothing changes. -/
def Obligations.OutcomeTakeLineAndCounterRequests : Prop :=
  (∀ (s : State) (q : Request) (c : Counter), q.counter = some c → s.serving .outcomeTake .office q →
     ∃ t, exec .outcomeTake s = .next t ∧ (∀ d, t.till d = s.till d) ∧ t.tlu.lines = s.tlu.lines ∧
       t.atc = (s.raiseIf (s.lateDue c) (.lateCount c)).atc ∧
       t.rgi =
         (match (s.till c).outcome with
           | none => s.rgi.replyDue .office q .nobody ⟨.notPermitted, []⟩
           | some o => s.rgi.replyDue .office q (.outcome c o) o.reply) ∧
       t = { s with tlu := t.tlu, rgi := t.rgi, atc := t.atc }) ∧
  (∀ (s : State) (q : Request) (c : Counter), q.counter = some c →
     (s.serving .lineSet .office q → byteAt q.area 1 ≤ 1 →
       ∃ t pin, exec .lineSet s = .next t ∧
         t.rgi = s.rgi.replyDue .office q .nobody ((t.lines c).reply pin) ∧
         (t.lines c).function = (if byteAt q.area 1 = 1 then .drawer else .general) ∧
         (t.lines c).out = LineSettings.ofByte (byteAt q.area 2) ∧
         (t.lines c).inp = LineSettings.ofByte (byteAt q.area 3) ∧
         ((s.lines c).function = .drawer → byteAt q.area 1 = 1 →
           (t.lines c).drawer = (s.lines c).drawer ∧ (t.lines c).pulse = (s.lines c).pulse ∧
           (t.lines c).stuck = (s.lines c).stuck ∧ (t.lines c).long = (s.lines c).long) ∧
         ((s.lines c).function = .drawer → byteAt q.area 1 = 0 →
           (t.lines c).drawer = .shut ∧ (t.lines c).pulse = false ∧ (t.lines c).stuck = false ∧
           (t.lines c).long = false ∧ (t.lines c).counted = true) ∧
         ((s.lines c).function = .general → byteAt q.area 1 = 1 →
           (t.lines c).drawer = .opened ∧ (t.lines c).long = true ∧ (t.lines c).counted = true) ∧
         (byteAt q.area 1 = 0 → (t.lines c).inp.output = false → (t.lines c).inp.pullUp = true →
           (t.lines c).pin = (s.lines c).outside.getD true) ∧
         (byteAt q.area 1 = 0 → (t.lines c).inp.output = true → (t.lines c).inp.floating = false →
           (t.lines c).pin = (t.lines c).inp.data) ∧
         (∀ d, d ≠ c → t.lines d = s.lines d) ∧ t.tlu.tills = s.tlu.tills ∧
         t = { s with tlu := t.tlu, rgi := t.rgi, draws := t.draws }) ∧
       (s.serving .lineRead .office q →
         ∃ t pin, exec .lineRead s = .next t ∧
           t.rgi = s.rgi.replyDue .office q .nobody ((s.lines c).reply pin) ∧
           t = { s with rgi := t.rgi, draws := t.draws })) ∧
  (∀ (s : State) (q : Request) (k : ReqKind) (command : Instr), q.counter = none → s.serving k .office q →
     (k, command) ∈
       [(ReqKind.tillOpen, Instr.tillOpen), (.tillPause, .tillPause), (.tillResume, .tillResume),
         (.tillClose, .tillClose), (.tillRead, .tillRead), (.outcomeTake, .outcomeTake), (.lineSet, .lineSet),
         (.lineRead, .lineRead)] →
     exec command s = .next { s with rgi := s.rgi.replyDue .office q .nobody ⟨.badRequest, []⟩ })

/-- CLOCK_SET starts an invalid clock, takes the apply and the rollover that this makes due, and cannot move a valid one;
CLOCK_READ answers the clock, the count and the engine state. That a minute out of range is answered BAD_REQUEST while the
clock is valid too is the model's choice (log entry 32); that the change of the clock and the writes that it makes due are
each watched for the month's bits is its reading of R42 (log entry 14), and so is CLOCK_END for the last minute (log entry
15). -/
def Obligations.ClockRequests : Prop :=
  ∀ (s : State) (q : Request),
    (s.serving .clockSet .office q →
      (16777215 < leNat (slice q.area 0 4) →
        exec .clockSet s = .next { s with rgi := s.rgi.replyDue .office q .nobody ⟨.badRequest, []⟩ }) ∧
      (leNat (slice q.area 0 4) ≤ 16777215 → s.tke.clockValid = true →
        exec .clockSet s = .next { s with rgi := s.rgi.replyDue .office q .nobody ⟨.notPermitted, []⟩ }) ∧
      (leNat (slice q.area 0 4) ≤ 16777215 → s.tke.clockValid = false →
        ∃ t, exec .clockSet s = .next t ∧ t.rgi = s.rgi.replyDue .office q .nobody ⟨.done, []⟩ ∧
          t.tke = { s.tke with clockValid := true, minute := leNat (slice q.area 0 4) } ∧ t.has .clockValid = true ∧
          clockTaken s t (leNat (slice q.area 0 4)) ∧
          (leNat (slice q.area 0 4) = 16777215 → t.has .clockEnd = true) ∧
          t = { s with rgi := t.rgi, tke := t.tke, tfu := t.tfu, atc := t.atc })) ∧
      (s.serving .clockRead .office q →
        exec .clockRead s =
          .next { s with rgi := (s.rgi.replyDue .office q .nobody
            ⟨.done,
              leBytes 1 (if s.tke.clockValid then 1 else 0) ++
                leBytes 3 (if s.tke.clockValid then s.tke.minute else 0) ++ leBytes 3 s.tke.sinceUp ++
                leBytes 1 s.tke.engine.code⟩) })


/-! ## A sale and an office issue -/

/-- A grant written: a counter's request is priced, planned and stamped, and its reserve claim begins the entry's write. A
grant written for a request that has been stopped, or that its price or stamp claim refuses: the hold is released and the
request answered. What a price claim, a plan and a stamp claim come to: the deduction, the position, the allowance and the
block walk decide the price; the first stamp is the larger of the clock's minute and the record's last stamp plus 1. -/
def Obligations.AGrantWrittenPricesAndReservesOrGivesBack : Prop :=
  (∀ (s : State) (c : Counter) (w : RecordWrite) (q : CtxRequest) (v : RecordView) (p : PriceResult) (stamps : List Nat),
     s.inService = true → s.dueWrite (isGrantOf (.counter c)) = some w → s.noneWaits w →
     (s.ctx (.counter c)).stop = none → (s.ctx (.counter c)).request = some q → (s.ctx (.counter c)).view = some v →
     priceDecision s.tfu s.month v q.money = .priced p →
     s.tke.stampDecision v.lastStamp (planOf v.rollGeneration p).length = .stamped stamps →
     s.flu.queue = [] → s.flu.writing = none → s.flu.entries.get c = .free → q.money ≤ s.flu.available →
     s.flu.nextSerial + s.flu.issuing ≤ 4294967294 →
     ∃ t, exec (.holdGrantDone (.counter c)) s = .next t ∧
       t.flu = { s.flu with writing := some (.reserve c
         ⟨v.slot, q.meter, q.tag, q.money, p.arrears, p.net, p.units, decide (0 < p.allowance), p.allowance, p.month,
           p.generation, p.carry, p.monthUnits, planOf v.rollGeneration p⟩) } ∧
       t.ctx (.counter c) =
         { s.ctx (.counter c) with
           price := some p, plan := planOf v.rollGeneration p, stamps := stamps, await := .reserve } ∧
       (∀ h, h ≠ .counter c → t.ctx h = s.ctx h) ∧ t.adir.table = s.adir.table ∧
       t = { s with adir := t.adir, flu := t.flu, vnc := t.vnc }) ∧
  (∀ (s : State) (c : Counter) (w : RecordWrite) (q : Request) (k : CtxRequest) (v : RecordView) (slot : Nat)
     (r : MeterRecord) (code : ResultCode),
     s.inService = true → s.dueWrite (isGrantOf (.counter c)) = some w → s.noneWaits w → s.atOwner (.counter c) q →
     s.holdsAlone (.counter c) slot r → s.flu.queue = [] →
     (s.ctx (.counter c)).request = some k → (s.ctx (.counter c)).view = some v → code ≠ .done →
     ((s.ctx (.counter c)).stop = some .cancel ∧ code = .cancelled ∨
       (s.ctx (.counter c)).stop = some .engineReset ∧ code = .engineReset ∨
       (s.ctx (.counter c)).stop = none ∧ priceDecision s.tfu s.month v k.money = .refused code ∨
       (s.ctx (.counter c)).stop = none ∧
         ∃ p, priceDecision s.tfu s.month v k.money = .priced p ∧
           s.tke.stampDecision v.lastStamp (planOf v.rollGeneration p).length = .refused code) →
     ∃ t, exec (.holdGrantDone (.counter c)) s = .next t ∧ t.rgi = s.rgi.replyDue (.counter c) q .context ⟨code, []⟩ ∧
       t.adir.table = tableSet s.adir.table slot { r with hold := none } ∧
       (t.ctx (.counter c)).state = .replying ∧ (t.ctx (.counter c)).releasePending = true ∧
       (t.ctx (.counter c)).stop = none ∧ (t.ctx (.counter c)).plan = [] ∧
       (∀ h, h ≠ .counter c → t.ctx h = s.ctx h) ∧ t = { s with adir := t.adir, vnc := t.vnc, rgi := t.rgi }) ∧
  (∀ (u : Tfu) (m : Nat) (v : RecordView) (money : Nat),
     let e := u.entry u.bank.active v.supplyClass
     let d := match v.arrears with | none => 0 | some a => min a.balance (money * a.percent / 100)
     let pos := if v.monthNumber = m then v.monthUnits else 0
     let allowance := if v.monthNumber ≠ m ∧ 0 < e.allowance ∧ v.allowanceMonth ≠ some m then e.allowance else 0
     priceDecision u none v money = .refused .monthUnknown ∧
       ((∃ b ∈ e.blocks, b.upper = none) →
         ∃ below covering units carry, e.blocks = below ++ covering ∧
           (∀ b ∈ below, ∃ upper, b.upper = some upper ∧ upper ≤ pos) ∧
           (∀ b rest upper, covering = b :: rest → b.upper = some upper → pos < upper) ∧
           Walks covering pos (100 * (money - d) + v.carry) units carry ∧
           priceDecision u (some m) v money =
             (if e.isOpen = false then .refused .classClosed
             else if units = 0 ∧ allowance = 0 then .refused .tooSmall
             else if 131071 < units then .refused .amountRange
             else .priced
               ⟨m, u.bank.generation.get u.bank.active, d, money - d, allowance, units, carry,
                 min (pos + units) 4294967295⟩))) ∧
  (∀ p : PriceResult,
     let amounts := fun ref => (if 0 < p.allowance then [PlannedToken.mk .allowance ref p.allowance] else []) ++
       (if 0 < p.units then [PlannedToken.mk .credit ref p.units] else [])
     planOf none p = amounts .current ∧
       ∀ g, planOf (some g) p = [⟨.keyroll1, .current, g⟩, ⟨.keyroll2, .current, g⟩] ++ amounts .pending) ∧
  (∀ (k : Tke) (last n : Nat),
     let first := max k.minute (last + 1)
     (k.clockValid = false → k.stampDecision last n = .refused .clockUnset) ∧
       (k.clockValid = true → k.minute + 1440 < first → k.stampDecision last n = .refused .stampAhead) ∧
       (k.clockValid = true → first ≤ k.minute + 1440 → 16777215 < first + n - 1 →
         k.stampDecision last n = .refused .stampExhausted) ∧
       (k.clockValid = true → first ≤ k.minute + 1440 → first + n - 1 ≤ 16777215 →
         ∃ stamps, k.stampDecision last n = .stamped stamps ∧ stamps.length = n ∧
           ∀ i, i < n → stamps[i]? = some (first + i)))

/-- A reservation written: reserved rises by the money and available falls by it, and the plan is submitted to the engine;
a reservation released: the money is back, the hold is released and the request answered by its stop mark. -/
def Obligations.AReservationIsWrittenAndReleased : Prop :=
  ∀ (s : State) (c : Counter), s.inService = true → s.flu.queue = [] →
    (∀ sale, s.flu.writing = some (.reserve c sale) → (s.ctx (.counter c)).stop = none → s.tke.engine = .working →
      s.tke.busyWith (.counter c) = false →
      ∃ t, exec (.reserveDone c) s = .next t ∧
        floatWatched s t { s.flu with entries := s.flu.entries.set c (.issuing sale), writing := none } ∧
        t.tke =
          { s.tke with
            queue := s.tke.queue ++ jobsOf (.counter c) sale.meter sale.plan (s.ctx (.counter c)).stamps } ∧
        t.ctx (.counter c) = { s.ctx (.counter c) with await := .tokens } ∧
        (∀ h, h ≠ .counter c → t.ctx h = s.ctx h) ∧
        t = { s with flu := t.flu, tke := t.tke, vnc := t.vnc, atc := t.atc }) ∧
      (∀ q slot r mark, s.flu.writing = some (.release c) → s.atOwner (.counter c) q →
        s.holdsAlone (.counter c) slot r → (s.ctx (.counter c)).stop = some mark →
        ∃ t, exec (.reservationReleased c) s = .next t ∧
          floatWatched s t { s.flu with entries := s.flu.entries.set c .free, writing := none } ∧
          t.rgi = s.rgi.replyDue (.counter c) q .context ⟨mark.code, []⟩ ∧
          t.adir.table = tableSet s.adir.table slot { r with hold := none } ∧
          (t.ctx (.counter c)).state = .replying ∧ (t.ctx (.counter c)).releasePending = true ∧
          (∀ h, h ≠ .counter c → t.ctx h = s.ctx h) ∧
          t = { s with flu := t.flu, adir := t.adir, vnc := t.vnc, rgi := t.rgi, atc := t.atc })

/-- A job completes: its token joins its owner's returns, the last one leads to the seal claim, or for an office issue
begins the office commit, which is one write of the record; a job marked for discard returns nothing, and the engine takes
the next job or goes IDLE. -/
def Obligations.AJobCompletesWithOneReturn : Prop :=
  ∀ (s : State) (w : Work) (c : Counter), s.inService = true → s.tke.work = some w → s.flu.queue = [] →
    (s.tke.queue = [] →
      ∃ t, exec .jobComplete s = .next t ∧ t.tke = { s.tke with engine := .idle, work := none }) ∧
      (∀ j rest key half, s.tke.queue = j :: rest → jobKey s.adir.table j = some (key, half) →
        w.job.owner = .counter c →
        ∃ t, exec .jobComplete s = .next t ∧
          t.tke = { s.tke with queue := rest, engine := .working, work := some ⟨j, key, half, false⟩ }) ∧
      (w.discard = true → s.tke.queue = [] →
        exec .jobComplete s = .next { s with tke := { s.tke with engine := .idle, work := none } }) ∧
      (w.discard = false → w.job.owner = .counter c → (s.ctx (.counter c)).state = .issuing →
        (s.ctx (.counter c)).stop = none → (s.ctx (.counter c)).await = .tokens → s.flu.writing = none →
        (∃ sale, s.flu.entries.get c = .issuing sale) →
        let token : Token :=
          ⟨w.job.kind, w.job.stamp, scramble w.key (plainBlock w.job.kind w.job.stamp w.job.payload w.half)⟩
        ∃ t, exec .jobComplete s = .next t ∧
          (t.ctx (.counter c)).returns = (s.ctx (.counter c)).returns ++ [token] ∧
          ((s.ctx (.counter c)).returns.length + 1 < (s.ctx (.counter c)).plan.length → t.flu = s.flu) ∧
          ((s.ctx (.counter c)).plan.length ≤ (s.ctx (.counter c)).returns.length + 1 →
            t.flu = { s.flu with writing := some (.seal c ((s.ctx (.counter c)).returns ++ [token])) } ∧
            (t.ctx (.counter c)).await = .seal) ∧
          (∀ h, h ≠ .counter c → t.ctx h = s.ctx h) ∧ t.adir = s.adir) ∧
      (∀ slot r, w.discard = false → w.job.owner = .office → (s.ctx .office).state = .issuing →
        (s.ctx .office).stop = none → (s.ctx .office).await = .tokens → s.holds .office slot r →
        (s.ctx .office).plan.length ≤ (s.ctx .office).returns.length + 1 →
        let token : Token :=
          ⟨w.job.kind, w.job.stamp, scramble w.key (plainBlock w.job.kind w.job.stamp w.job.payload w.half)⟩
        let tokens := (s.ctx .office).returns ++ [token]
        ∃ t, exec .jobComplete s = .next t ∧
          t.ctx .office = { s.ctx .office with returns := tokens, state := .committing, await := .officeCommit } ∧
          t.adir.table = tableSet s.adir.table slot (r.officeCommit tokens (rollOf (s.ctx .office).plan)) ∧
          (∃ old, t.adir.writes = old ++ [⟨.officeCommit, .office, slot, r, false⟩]) ∧ t.flu = s.flu ∧
          (∀ h, h ≠ .office → t.ctx h = s.ctx h))

/-- The seal written: the entry holds the commit image with the working serial, which rises by one, the context is
COMMITTING, and the record part is claimed. The record part's new record: the last stamp, the month position, the
allowance month, the arrears, the carry, the lifetime totals, the last vend copy, and the key switch when the plan rolled
to the pending generation. -/
def Obligations.TheSealAndTheRecordPart : Prop :=
  (∀ (s : State) (c : Counter) (tokens : List Token) (sale : Sale) (r : MeterRecord),
     s.inService = true → s.flu.queue = [] → s.flu.writing = some (.seal c tokens) →
     s.flu.entries.get c = .issuing sale → s.record sale.slot = some r → r.hasSerial s.flu.nextSerial = false →
     s.flu.nextSerial ≠ s.flu.record.lastConsumed.get c →
     ∃ t, exec (.sealDone c) s = .next t ∧
       t.flu =
         { s.flu with
           entries := s.flu.entries.set c (.sealed ⟨s.flu.nextSerial, sale, tokens⟩)
           nextSerial := s.flu.nextSerial + 1, writing := none, lowWater := min s.flu.lowWater s.flu.available } ∧
       t.ctx (.counter c) =
         { s.ctx (.counter c) with
           state := .committing, serial := some s.flu.nextSerial, stop := none, await := .recordPart } ∧
       t.adir.table = tableSet s.adir.table sale.slot (r.commit c ⟨s.flu.nextSerial, sale, tokens⟩) ∧
       ((s.ctx (.counter c)).stop = some .cancel → t.has .cancelLate = true) ∧
       ((s.ctx (.counter c)).stop ≠ some .cancel → t.atc = s.atc) ∧
       (∀ h, h ≠ .counter c → t.ctx h = s.ctx h) ∧
       t = { s with flu := t.flu, adir := t.adir, vnc := t.vnc, atc := t.atc }) ∧
  (∀ (r : MeterRecord) (c : Counter) (i : Image) (last : Token), i.tokens.getLast? = some last →
     let n := r.commit c i
     n.lastStamp = last.stamp ∧ n.monthNumber = i.sale.month ∧ n.monthUnits = min i.sale.monthUnits 4294967295 ∧
       n.allowanceMonth = (if i.sale.allowanceDue then some i.sale.month else r.allowanceMonth) ∧
       n.carry = i.sale.carry ∧ n.totalUnits = (r.totalUnits + i.sale.units) % 1099511627776 ∧
       n.totalAllowance = (r.totalAllowance + i.sale.allowance) % 1099511627776 ∧
       n.totalMoney = (r.totalMoney + i.sale.money) % 1099511627776 ∧
       n.vendCount = (r.vendCount + 1) % 4294967296 ∧
       (r.arrears = none → n.arrears = none) ∧
       (∀ a, r.arrears = some a → a.balance ≤ i.sale.arrears → n.arrears = none) ∧
       (∀ a, r.arrears = some a → i.sale.arrears < a.balance →
         n.arrears = some { a with balance := a.balance - i.sale.arrears }) ∧
       n.copy =
         some ⟨i.serial, c, i.sale.money, i.sale.net, i.sale.arrears, i.sale.units, i.sale.allowance, i.tokens, 0⟩ ∧
       (∀ g roll, r.roll = some roll → rollOf i.sale.plan = some g → roll.generation = g →
         n.keyGeneration = g ∧ n.key = roll.key ∧ n.roll = none) ∧
       (rollOf i.sale.plan = none ∨ r.roll = none ∨
           (∃ g roll, rollOf i.sale.plan = some g ∧ r.roll = some roll ∧ roll.generation ≠ g) →
         n.keyGeneration = r.keyGeneration ∧ n.key = r.key ∧ n.roll = r.roll) ∧
       n.number = r.number ∧ n.status = r.status ∧ n.refer = r.refer ∧ n.hold = r.hold ∧
       n.supplyClass = r.supplyClass ∧ n.enrolledMinute = r.enrolledMinute)

/-- The parts of a commit follow one another: the record part's write ends and the float part begins; the float part's
ends and the till part is counted; the till part's ends, with LATE_COUNT if it found the till CLOSED and no later claim on
the till has waited for it (log entry 5), and the free claim begins. -/
def Obligations.ThePartsOfACommitFollowOneAnother : Prop :=
  ∀ (s : State) (c : Counter) (i : Image), s.inService = true → s.flu.queue = [] → s.flu.entries.get c = .sealed i →
    (∀ w, s.dueWrite (isRecordPartOf (.counter c)) = some w → s.noneWaits w → s.flu.writing = none →
      i.serial ≠ s.flu.record.lastConsumed.get c →
      ∃ t, exec (.recordPartApplied c) s = .next t ∧ t.flu = { s.flu with writing := some (.floatPart c) } ∧
        t.ctx (.counter c) = { s.ctx (.counter c) with await := .floatPart } ∧ t.adir.table = s.adir.table ∧
        (∀ h, h ≠ .counter c → t.ctx h = s.ctx h) ∧ t = { s with adir := t.adir, flu := t.flu, vnc := t.vnc }) ∧
      (s.flu.writing = some (.floatPart c) → i.serial ≠ s.flu.record.lastConsumed.get c →
        (s.till c).lastSerial ≠ i.serial → s.flu.solvent →
        ∃ t, exec (.floatPartApplied c) s = .next t ∧
          t.flu.record =
            { s.flu.record with
              consumed := s.flu.record.consumed + i.sale.money
              lastConsumed := s.flu.record.lastConsumed.set c i.serial
              nextSerial := max s.flu.record.nextSerial (i.serial + 1) } ∧
          t.flu.entries = s.flu.entries ∧ t.flu.writing = none ∧ t.flu.available = s.flu.available ∧
          t.atc = (s.raiseIf (s.lateDue c) (.lateCount c)).atc ∧
          t.till c =
            { s.till c with
              vends := min 4294967295 ((s.till c).vends + 1)
              cash := min 18446744073709551615 ((s.till c).cash + i.sale.money)
              units := min 18446744073709551615 ((s.till c).units + i.sale.units)
              allowance := min 18446744073709551615 ((s.till c).allowance + i.sale.allowance)
              arrears := min 18446744073709551615 ((s.till c).arrears + i.sale.arrears)
              lastSerial := i.serial } ∧
          (∀ d, d ≠ c → t.till d = s.till d) ∧ t.ctx (.counter c) = { s.ctx (.counter c) with await := .tillPart } ∧
          t.tlu.lines = s.tlu.lines ∧ t = { s with flu := t.flu, vnc := t.vnc, tlu := t.tlu, atc := t.atc }) ∧
      (∀ p, s.tlu.part.get c = some p → s.flu.writing = none → i.serial = s.flu.record.lastConsumed.get c →
        ∃ t, exec (.tillPartApplied c) s = .next t ∧ t.flu = { s.flu with writing := some (.free c) } ∧
          (∀ d, t.till d = s.till d) ∧ (p.late = true → p.settled = false → t.has (.lateCount c) = true) ∧
          (p.late = false ∨ p.settled = true → t.atc = s.atc) ∧ t.ctx (.counter c) = { s.ctx (.counter c) with await := .free } ∧
          t = { s with flu := t.flu, vnc := t.vnc, tlu := t.tlu, atc := t.atc })

/-- The free write ends a sale: the entry is FREE, the hold is released, the drawer pulse is asked for and the reply is
due. The release removes a RETIRING record, hands the hold to the oldest request parked for the slot, or leaves the
record free. A release written: the context that waited for it alone is IDLE, and a hold claim that waited for it is
answered; a request to which the hold was handed over goes on under it to pricing, or gives it back when a take check or
a record check now fails. A hold claim that waited is answered then by log entry 5; whether an outcome's write is still
under way when a take check reads it is a free value of the model (log entries 4 and 6). -/
def Obligations.TheFreeWriteAndTheReleaseEndTheSale : Prop :=
  (∀ (s : State) (c : Counter) (q : Request) (k : CtxRequest) (slot : Nat) (r : MeterRecord),
     s.inService = true → s.flu.queue = [] → s.flu.writing = some (.free c) → s.atOwner (.counter c) q →
     s.holds (.counter c) slot r → (s.ctx (.counter c)).request = some k → 0 < k.money →
     (∀ e ∈ s.vnc.park, e.holder ≠ .counter c) →
     ∃ t, exec (.freeDone c) s = .next t ∧
       floatWatched s t { s.flu with entries := s.flu.entries.set c .free, writing := none } ∧
       (r.status = .retiring →
         t.adir.table = (s.adir.table.filter fun p => decide (p.1 ≠ slot)) ∧ t.vnc.park = s.vnc.park ∧
         ∀ h, h ≠ .counter c → t.ctx h = s.ctx h) ∧
       (r.status ≠ .retiring → (∀ e ∈ s.vnc.park, e.slot ≠ slot) →
         t.adir.table = tableSet s.adir.table slot { r with hold := none } ∧ t.vnc.park = s.vnc.park ∧
         ∀ h, h ≠ .counter c → t.ctx h = s.ctx h) ∧
       (∀ e, r.status ≠ .retiring → (s.vnc.park.find? fun e => decide (e.slot = slot)) = some e →
         t.adir.table = tableSet s.adir.table slot { r with hold := some e.holder } ∧
         t.vnc.park = (s.vnc.park.filter fun x => decide (x.holder ≠ e.holder)) ∧
         t.ctx e.holder =
           { s.ctx e.holder with
             state := .issuing, await := .handover, slot := some slot, view := some (r.view slot) } ∧
         (∃ old, t.adir.writes = old ++ [⟨.release (some e.holder), .counter c, slot, r, false⟩]) ∧
         ∀ h, h ≠ .counter c → h ≠ e.holder → t.ctx h = s.ctx h) ∧
       t.rgi = s.rgi.replyDue (.counter c) q .context (s.ctx (.counter c)).vendReply ∧
       (t.ctx (.counter c)).state = .replying ∧ (t.ctx (.counter c)).releasePending = true ∧
       (t.ctx (.counter c)).replyPending = true ∧
       t.lines c =
         (if (s.lines c).function = .drawer ∧ (s.lines c).drawer ≠ .opened then
           { s.lines c with drawer := .released, pulse := true, stuck := true }
         else s.lines c) ∧
       (∀ d, d ≠ c → t.lines d = s.lines d) ∧ t.tlu.tills = s.tlu.tills ∧
       t = { s with flu := t.flu, adir := t.adir, vnc := t.vnc, rgi := t.rgi, tlu := t.tlu, atc := t.atc }) ∧
  (∀ (s : State) (h : Holder) (w : RecordWrite), s.inService = true → s.dueWrite (isReleaseOf h) = some w →
     (w.kind = .release none → (s.ctx h).state = .replying → s.noneWaits w →
       ∃ t, exec (.releaseDone h) s = .next t ∧
         t.ctx h = (if (s.ctx h).replyPending then { s.ctx h with releasePending := false } else Ctx.idle) ∧
         (∀ k, k ≠ h → t.ctx k = s.ctx k) ∧ t.adir.table = s.adir.table ∧ t = { s with adir := t.adir, vnc := t.vnc }) ∧
       (∀ x slot other, w.kind = .release none → (s.ctx h).state = .replying → s.adir.waiting = [x] → x.holder ≠ h →
         x.meter = w.old.number → x.behind = 1 → x.answer = .busy slot other → (s.ctx x.holder).stop = none →
         ∃ t, exec (.releaseDone h) s = .next t ∧ t.adir.waiting = [] ∧ t.adir.table = s.adir.table ∧
           t.ctx x.holder = { s.ctx x.holder with state := .parked, slot := some slot, await := .nothing } ∧
           t.vnc.park = s.vnc.park ++ [⟨x.holder, slot, if s.tke.clockValid then s.tke.minute else 0, other⟩] ∧
           t = { s with adir := t.adir, vnc := t.vnc }) ∧
       (∀ n k v q slot r y, w.kind = .release (some n) → h ≠ n → s.noneWaits w → s.flu.queue = [] →
         (s.ctx n).request = some k → (s.ctx n).view = some v → (s.ctx n).stop = none →
         (∀ c, n = .counter c → s.tlu.closing.get c = none) → s.atOwner n q → s.holdsAlone n slot r →
         (∃ code, s.takeRefusal n k = some code ∧ code ≠ .done ∧ y = ⟨code, []⟩) ∨
           s.takeRefusal n k = none ∧ v.status ≠ .retiring ∧ n ≠ .office ∧
             (v.status = .suspended ∧ y = ⟨.meterSuspended, []⟩ ∨
               ∃ mark, v.status = .active ∧ v.refer = some mark ∧ y = ⟨.referOffice, leBytes 1 mark⟩) →
         ∃ t, exec (.releaseDone h) s = .next t ∧ t.rgi = s.rgi.replyDue n q .context y ∧
           t.adir.table = tableSet s.adir.table slot { r with hold := none } ∧
           (t.ctx n).state = .replying ∧
           (t.tlu = s.tlu ∨ ∃ c, n = .counter c ∧ (t.tlu = s.tlu.outcomeRead c ∨ t.tlu = s.tlu.readOld c)) ∧
           t = { s with adir := t.adir, vnc := t.vnc, rgi := t.rgi, tlu := t.tlu, draws := t.draws }) ∧
       (∀ c k v p stamps, w.kind = .release (some (.counter c)) → h ≠ .counter c → s.noneWaits w →
         s.flu.queue = [] → s.flu.writing = none → (s.ctx (.counter c)).request = some k →
         (s.ctx (.counter c)).view = some v → (s.ctx (.counter c)).stop = none → s.tlu.closing.get c = none →
         (s.outcomeOpen c = none ∨ s.takeRefusal (.counter c) k = none) →
         s.saleRefusal c k.meter k.money = none → v.status = .active → v.refer = none →
         priceDecision s.tfu s.month v k.money = .priced p →
         s.tke.stampDecision v.lastStamp (planOf v.rollGeneration p).length = .stamped stamps →
         s.flu.entries.get c = .free → k.money ≤ s.flu.available →
         s.flu.nextSerial + s.flu.issuing ≤ 4294967294 →
         ∃ t, exec (.releaseDone h) s = .next t ∧
           t.flu = { s.flu with writing := some (.reserve c
             ⟨v.slot, k.meter, k.tag, k.money, p.arrears, p.net, p.units, decide (0 < p.allowance), p.allowance,
               p.month, p.generation, p.carry, p.monthUnits, planOf v.rollGeneration p⟩) } ∧
           t.ctx (.counter c) =
             { s.ctx (.counter c) with
               price := some p, plan := planOf v.rollGeneration p, stamps := stamps, await := .reserve } ∧
           t.adir.table = s.adir.table ∧
           t = { s with adir := t.adir, flu := t.flu, vnc := t.vnc, tlu := s.tlu.outcomeRead c, draws := t.draws }))

/-- The office commit written: the hold is released and the reply due; and a hold timeout answers a parked request with
the parking minute and the holder at parking, and leaves the record. What the office commit writes: the last stamp, and for
a plan that rolls to the pending generation the key switch, and nothing else of the record. -/
def Obligations.OfficeCommitsAndHoldTimeouts : Prop :=
  (∀ (r : MeterRecord) (tokens : List Token) (last : Token) (g : Option Nat), tokens.getLast? = some last →
     (∀ roll, g = some roll.generation → r.roll = some roll →
       r.officeCommit tokens g =
         { r with lastStamp := last.stamp, keyGeneration := roll.generation, key := roll.key, roll := none }) ∧
       ((∀ roll, r.roll = some roll → g ≠ some roll.generation) →
         r.officeCommit tokens g = { r with lastStamp := last.stamp })) ∧
  ∀ (s : State), s.inService = true →
    (∀ w q slot r, s.dueWrite isOfficeCommit = some w → s.noneWaits w → s.atOwner .office q → s.holdsAlone .office slot r →
      ∃ t, exec .officeCommitDone s = .next t ∧
        t.rgi = s.rgi.replyDue .office q .context (s.ctx .office).officeReply ∧
        t.adir.table = tableSet s.adir.table slot { r with hold := none } ∧ (t.ctx .office).state = .replying ∧
        (t.ctx .office).releasePending = true ∧ (∀ h, h ≠ .office → t.ctx h = s.ctx h) ∧
        t = { s with adir := t.adir, vnc := t.vnc, rgi := t.rgi }) ∧
      (∀ h q e, s.atOwner h q → (s.vnc.park.find? fun e => decide (e.holder = h)) = some e →
        ∃ t, exec (.holdTimeout h) s = .next t ∧
          t.rgi = s.rgi.replyDue h q .context
            ⟨.holdTimeout, leBytes 3 e.minute ++ leBytes 1 e.holderAtParking.index⟩ ∧
          t.vnc.park = (s.vnc.park.filter fun e => decide (e.holder ≠ h)) ∧ (t.ctx h).state = .replying ∧
          (∀ k, k ≠ h → t.ctx k = s.ctx k) ∧ t = { s with vnc := t.vnc, rgi := t.rgi })


/-! ## Time and the counter lines -/

/-- A minute of the clock and a minute of the count: each rises by one and stays at its largest value. The clock's advance
takes the apply and the rollover that it makes due, and each change of the month sets its bits. -/
def Obligations.TheClockAndTheCountTick : Prop :=
  ∀ s : State, s.live = true →
    (s.tke.clockValid = true → s.tke.minute < 16777215 →
      ∃ t, exec .clockAdvance s = .next t ∧ t.tke = { s.tke with minute := s.tke.minute + 1 } ∧
        (s.tke.minute + 1 = 16777215 → t.has .clockEnd = true) ∧
        clockTaken s t (s.tke.minute + 1) ∧
        t = { s with tke := t.tke, tfu := t.tfu, atc := t.atc }) ∧
      (s.tke.clockValid = false ∨ s.tke.minute = 16777215 → exec .clockAdvance s = .next s) ∧
      (s.tke.counting = true →
        ∃ t, exec .minutesSinceUpTick s = .next t ∧
          t.tke = { s.tke with sinceUp := min 16777215 (s.tke.sinceUp + 1) } ∧
          (s.tke.sinceUp = s.ulc.holdover → s.ulc.holdover ≤ 10080 → t.has .holdoverPassed = true) ∧
          t = { s with tke := t.tke, atc := t.atc }) ∧
      (s.tke.counting = false → exec .minutesSinceUpTick s = .next s)

/-- A level held for 20 ms is counted: in DRAWER function a rise opens the drawer and a fall closes it, and a drawer that
opens from SHUT was forced. The end of a pulse, the stuck timer and the long timer of a drawer. -/
def Obligations.DrawersFollowLevelsAndTimers : Prop :=
  (∀ (s : State) (c : Counter), s.live = true →
     (∀ level, (s.lines c).function = .drawer → (s.lines c).pin ≠ level → (s.lines c).fresh = false →
       exec (.drwInChange c level) s =
         .next { s with
           tlu :=
             { s.tlu with
               lines :=
                 s.tlu.lines.set c { s.lines c with
                   pin := level, outside := some level, timing := decide (level ≠ (s.lines c).counted) } } }) ∧
       ((s.lines c).timing = true →
         ∃ t, exec (.levelCounted c) s = .next t ∧ (t.lines c).counted = (s.lines c).pin ∧
           (t.lines c).timing = false ∧ (t.lines c).pin = (s.lines c).pin ∧
           (∀ d, d ≠ c → t.lines d = s.lines d) ∧ t.tlu.tills = s.tlu.tills ∧
           ((s.lines c).function = .general → (t.lines c).drawer = (s.lines c).drawer ∧ t.atc = s.atc) ∧
           ((s.lines c).function = .drawer → (s.lines c).counted = false → (s.lines c).pin = true →
             (t.lines c).drawer = .opened ∧ ((s.lines c).drawer ≠ .opened → (t.lines c).long = true) ∧
             ((s.lines c).drawer = .shut → t.has (.drawerForced c) = true) ∧
             ((s.lines c).drawer = .released → (t.lines c).stuck = false ∧ t.atc = s.atc)) ∧
           ((s.lines c).function = .drawer → (s.lines c).counted = true → (s.lines c).pin = false →
             t.atc = s.atc ∧
             (t.lines c).drawer = (if (s.lines c).drawer = .opened then .shut else (s.lines c).drawer) ∧
             ((s.lines c).drawer = .opened → (t.lines c).long = false)) ∧
           t = { s with tlu := t.tlu, atc := t.atc })) ∧
  (∀ (s : State) (c : Counter), s.live = true →
     ((s.lines c).pulse = true →
       exec (.pulseEnd c) s =
         .next { s with tlu := { s.tlu with lines := s.tlu.lines.set c { s.lines c with pulse := false } } }) ∧
       ((s.lines c).stuck = true →
         exec (.stuckTimerExpiry c) s =
           .next { s with
             tlu := { s.tlu with lines := s.tlu.lines.set c { s.lines c with stuck := false, drawer := .shut } }
             atc := (s.raise (.drawerStuck c)).atc }) ∧
       ((s.lines c).long = true →
         exec (.longTimerExpiry c) s =
           .next { s with
             tlu := { s.tlu with lines := s.tlu.lines.set c { s.lines c with long := false } }
             atc := (s.raise (.drawerLong c)).atc }))


/-! ## The utility line -/

/-- The rate of a window, a change of it, and the changes of the carrier: the line enters SLIP, DETECT or TRAIN by them.
The timers of the line: TRAIN and SLIP give way to DETECT, and to TRAIN at once while the line is usable, and UP to SLIP
with the count of minutes from 0; in any other line state a timer's row finds no cause and changes nothing (log entry 1).
-/
def Obligations.RateCarrierAndTimersMoveTheLine : Prop :=
  (∀ (s : State), s.live = true →
     (∀ cycles,
       rateOf cycles =
           (if cycles = 0 then .none
           else if 233 ≤ cycles ∧ cycles ≤ 247 then .r2400
           else if 466 ≤ cycles ∧ cycles ≤ 494 then .r4800
           else if 932 ≤ cycles ∧ cycles ≤ 988 then .r9600
           else if 1863 ≤ cycles ∧ cycles ≤ 1977 then .r19200
           else .outOfRange) ∧
       ∃ t, exec (.rateWindowEnd cycles) s = .next t ∧ t.ulc.rate = rateOf cycles ∧
         (s.ulc.line = .up → s.ulc.rate ≠ rateOf cycles → t.ulc.line = .slip ∧ t.has .enteredSlip = true ∧
           t.tke = { s.tke with sinceUp := 0, counting := true }) ∧
         (s.ulc.line = .detect → s.ulc.carrier = true → (rateOf cycles).inRange = true →
           t.ulc.line = .train ∧ t.has .enteredTrain = true) ∧
         (s.ulc.line = .train ∨ s.ulc.line = .slip → s.ulc.rate ≠ rateOf cycles →
           t.ulc.line = s.ulc.line ∧ t.ulc.good = 0 ∧ t.ulc.assembly = []) ∧
         (s.ulc.rate = rateOf cycles → s.ulc.line ≠ .detect → t = s) ∧
         t = { s with ulc := t.ulc, tke := t.tke, atc := t.atc }) ∧
       (∃ t, exec .carrierLoss s = .next t ∧ t.ulc.carrier = false ∧
         (s.ulc.carrier = true → (s.ulc.line = .train ∨ s.ulc.line = .up ∨ s.ulc.line = .slip) →
           t.ulc.line = .detect ∧ t.ulc.tx = none ∧ t.ulc.assembly = [] ∧ t.ulc.good = 0 ∧ t.ulc.bad = 0 ∧
           t.ulc.lastNibble = none ∧ t.ulc.queue = s.ulc.queue ∧ t.has .enteredDetect = true) ∧
         (s.ulc.line = .off ∨ s.ulc.line = .detect → t = { s with ulc := { s.ulc with carrier := false } }) ∧
         t = { s with ulc := t.ulc, tke := t.tke, atc := t.atc }) ∧
       (∃ t, exec .carrierGain s = .next t ∧ t.ulc.carrier = true ∧
         (s.ulc.line = .detect → s.ulc.rate.inRange = true → t.ulc.line = .train ∧ t.has .enteredTrain = true) ∧
         (s.ulc.line ≠ .detect → t = { s with ulc := { s.ulc with carrier := true } }) ∧
         t = { s with ulc := t.ulc, atc := t.atc })) ∧
  (∀ s : State, s.live = true →
     (∀ command from_, (command, from_) ∈ [(Instr.trainingTimeout, LineState.train), (.slipTimeout, .slip)] →
       (s.ulc.line = from_ → s.ulc.usable = false →
         exec command s =
           .next { s with
             ulc := { s.ulc with
               line := .detect, tx := none, assembly := [], good := 0, bad := 0, lastNibble := none }
             atc := (s.raise .enteredDetect).atc }) ∧
       (s.ulc.line = from_ → s.ulc.usable = true →
         ∃ t, exec command s = .next t ∧
           t.ulc =
             { s.ulc with
               line := .train, tx := t.ulc.tx, assembly := [], good := 0, bad := 0, lastNibble := none,
               noneTold := t.ulc.noneTold } ∧
           (s.ulc.queue = [] ∨ s.ulc.office = none → t.ulc.tx = none) ∧
           (∀ n, s.ulc.queue ≠ [] → s.ulc.office = some n → t.ulc.tx = some ⟨⟨n, s.upNibble⟩, []⟩) ∧
           t.has .enteredDetect = true ∧ t.has .enteredTrain = true ∧ t = { s with ulc := t.ulc, atc := t.atc }) ∧
       (s.ulc.line ≠ from_ → exec command s = .next s)) ∧
       (s.ulc.line = .up →
         exec .silenceTimeout s =
           .next { s with
             ulc := { s.ulc with line := .slip, good := 0, bad := 0 }
             tke := { s.tke with sinceUp := 0, counting := true }
             atc := (s.raise .enteredSlip).atc }) ∧
       (s.ulc.line ≠ .up → exec .silenceTimeout s = .next s))

/-- A good parcel for this office in UP: it is counted, its nibble is kept, and an instruction takes a place and is
dispatched when none is; with no free place it is discarded with BACKLOG. A bad parcel is counted, and the eighth leaves
UP. The third good parcel in TRAIN and the second in SLIP enter UP, which stops the count of minutes at 0, and are taken
there; an earlier one is counted, and in SLIP its nibble is taken. A float query that the nibble before did not carry owes
a report, which has its place at once if two are free; a service mode that differs is written, and in force when its write
completes. A parcel laid out as 11.6 says is good. Here with the receiver hunting and the bytes of one whole parcel; that
its closing flag may open the next is the model's choice (log entry 11). -/
def Obligations.AParcelIsTakenInUp : Prop :=
  (∀ (kind office : Nat) (nibble : BitVec 4) (body : List Byte), kind < 256 → kind ≠ 0x7E → office < 65536 →
     body.length ≤ 96 → scan (parcel kind office nibble body) = .parcel (.good kind office nibble body) [0x7E]) ∧
  (∀ (s : State) (bytes : List Byte) (n kind : Nat) (nibble : BitVec 4) (body : List Byte),
     s.live = true → parcelWf bytes = true → s.ulc.assembly = [] → bytes.head? = some 0x7E → s.ulc.office = some n →
     (scan bytes = .parcel (.good kind n nibble body) [0x7E] → s.ulc.recordWrite = none → s.ulc.recordClaims = [] →
       s.ulc.dispatched = none → s.ulc.list = [] →
       (nibble.getLsbD 3 = false → modeOf nibble = s.ulc.mode → s.ulc.line = .up →
         (kind = 0 →
           exec (.parcelReceive bytes) s =
             .next { s with ulc := { s.ulc with
               good := min 15 (s.ulc.good + 1), bad := 0, lastNibble := some nibble, assembly := [0x7E] } }) ∧
         (kind ≠ 0 → s.ulc.free ≠ 0 →
           exec (.parcelReceive bytes) s =
             .next { s with ulc := { s.ulc with
               good := min 15 (s.ulc.good + 1), bad := 0, lastNibble := some nibble, assembly := [0x7E]
               reserved := s.ulc.reserved + 1, dispatched := some ⟨⟨kind, body⟩, .waiting, false⟩ } }) ∧
         (kind ≠ 0 → s.ulc.free = 0 →
           exec (.parcelReceive bytes) s =
             .next { s with
               ulc := { s.ulc with
                 good := min 15 (s.ulc.good + 1), bad := 0, lastNibble := some nibble, assembly := [0x7E] }
               atc := (s.raise .backlog).atc })) ∧
       (nibble.getLsbD 3 = false → modeOf nibble = s.ulc.mode → kind = 0 →
         (∀ from_ good, (from_, good) ∈ [(LineState.train, 2), (.slip, 1)] → s.ulc.line = from_ → s.ulc.good = good →
           exec (.parcelReceive bytes) s =
             .next { s with
               ulc := { s.ulc with
                 line := .up, good := 0, bad := 0, lastNibble := some nibble, assembly := [0x7E] }
               tke := { s.tke with sinceUp := 0, counting := false }
               atc := (s.raise .enteredUp).atc }) ∧
         (s.ulc.line = .train → s.ulc.good < 2 →
           exec (.parcelReceive bytes) s =
             .next { s with ulc := { s.ulc with good := s.ulc.good + 1, bad := 0, assembly := [0x7E] } }) ∧
         (s.ulc.line = .slip → s.ulc.good = 0 →
           exec (.parcelReceive bytes) s =
             .next { s with ulc := { s.ulc with
               good := 1, bad := 0, lastNibble := some nibble, assembly := [0x7E] } })) ∧
       (s.ulc.line = .up → kind = 0 → nibble.getLsbD 3 = true → modeOf nibble = s.ulc.mode →
         (∀ last, s.ulc.lastNibble = some last → last.getLsbD 3 = false) → s.ulc.reportPlaced = false →
         s.ulc.sweep.active = false →
         exec (.parcelReceive bytes) s =
           .next { s with ulc := { s.ulc with
             good := min 15 (s.ulc.good + 1), bad := 0, lastNibble := some nibble, assembly := [0x7E]
             reportOwed := true, reportPlaced := decide (2 ≤ s.ulc.free) } }) ∧
       (s.ulc.line = .up → kind = 0 → nibble.getLsbD 3 = false → modeOf nibble ≠ s.ulc.mode →
         exec (.parcelReceive bytes) s =
           .next { s with ulc := { s.ulc with
             good := min 15 (s.ulc.good + 1), bad := 0, lastNibble := some nibble, assembly := [0x7E]
             recordWrite := some (modeOf nibble) } })) ∧
       (∀ rest, scan bytes = .parcel .bad rest → rest = [] ∨ rest = [0x7E] → s.ulc.line = .up →
         (s.ulc.bad < 7 →
           exec (.parcelReceive bytes) s =
             .next { s with ulc := { s.ulc with good := 0, bad := s.ulc.bad + 1, assembly := rest } }) ∧
         (s.ulc.bad = 7 →
           exec (.parcelReceive bytes) s =
             .next { s with
               ulc := { s.ulc with line := .slip, good := 0, bad := 0, assembly := rest }
               tke := { s.tke with sinceUp := 0, counting := true }
               atc := (s.raise .enteredSlip).atc }))) ∧
  (∀ (s : State) (m : ServiceMode), s.live = true → s.ulc.recordWrite = some m → s.ulc.recordClaims = [] →
     exec .serviceModeWritten s =
       .next { s with ulc := { s.ulc with mode := m, recordWrite := none }, atc := (s.raise .serviceChanged).atc })

/-- The transmitter: with nothing queued it sends an IDLE parcel of the office and the up-nibble; a head entry sent whole
leaves the queue, with the parcels it was sent as, and the next begins. The upward entries that join the tail: the owed
float report, a sweep page with its records, the SWEEP_END, and the ANSWER of the dispatched instruction, each in its
place; an idle transmitter begins on one at once. A page is here read with no hold claim waiting. The arbiter gives a free
place, while two are free, to the owed report first and then to the page or the SWEEP_END of a sweep. That an IDLE parcel
takes one instant (log entry 23), and that the parts of a page that no idle step has begun have the heading of the instant
at which the page is sent (log entry 9), is the model's choice. A parcel that begins while no till holds an outcome shows
every removal completed (log entry 6). -/
def Obligations.TheTransmitterAndTheUpwardQueue : Prop :=
  (∀ s : State, s.live = true →
     (∀ n, s.ulc.office = some n → s.ulc.line.sending = true → s.ulc.queue = [] →
       exec .idleParcelSend s =
         .next { s with ulc := { s.ulc with
           lastSent := [parcel 0x00 n s.upNibble []], noneTold := s.ulc.noneTold || !s.anyOutcome } }) ∧
       (∀ x e rest, s.ulc.tx = some x → s.ulc.queue = e :: rest →
         ∃ t, exec .upwardEntrySent s = .next t ∧ t.ulc.queue = rest ∧ t = { s with ulc := t.ulc } ∧
           (∀ body, e = .answer body → x.sent = [] →
             t.ulc.lastSent = [parcel 0x40 x.now.office x.now.nibble body]) ∧
           (∀ body, e = .floatReport body → x.sent = [] →
             t.ulc.lastSent = [parcel 0x41 x.now.office x.now.nibble body]) ∧
           (∀ next sent, e = .sweepEnd next sent → x.sent = [] →
             t.ulc.lastSent = [parcel 0x43 x.now.office x.now.nibble (beBytes 2 next ++ beBytes 1 sent)]) ∧
           (∀ next remaining summaries n, e = .sweepPage next remaining summaries → s.ulc.office = some n →
             x.sent.length < summaries.length →
             let heads := x.sent ++ [x.now] ++
               List.replicate (summaries.length - (x.sent.length + 1)) ⟨n, s.upNibble⟩
             t.ulc.lastSent.length = summaries.length ∧
               ∀ k h, heads[k]? = some h →
                 t.ulc.lastSent[k]? =
                   some (parcel 0x42 h.office h.nibble
                     (beBytes 2 next ++ beBytes 1 remaining ++ beBytes 1 (16 * (k + 1) + summaries.length) ++
                       summaries.getD k []))) ∧
           (rest = [] → t.ulc.tx = none) ∧
           (∀ n, rest ≠ [] → s.ulc.office = some n → s.ulc.line.sending = true →
             t.ulc.tx = some ⟨⟨n, s.upNibble⟩, []⟩))) ∧
  (∀ s : State, s.inService = true → s.ulc.placesOk →
     (s.ulc.reportPlaced = true →
       ∃ t, exec .floatReportQueue s = .next t ∧ t.ulc.reportOwed = false ∧ t.ulc.reportPlaced = false ∧
         t.ulc.queue = s.ulc.queue ++ [.floatReport s.flu.snapshot] ∧ t.ulc.tx = s.sends ∧
         t = { s with ulc := t.ulc }) ∧
       (s.ulc.sweep.active = true → s.ulc.sweep.page = none → s.ulc.sweep.placed = true → 0 < s.ulc.sweep.remaining →
         s.ulc.sweep.next < 16384 → s.adir.waiting = [] →
         ∃ t page, exec .sweepPageBegin s = .next t ∧ t.ulc.sweep.page = some page ∧
           t.ulc.reserved = s.ulc.reserved ∧ t.ulc.sweep.placed = true ∧
           page.summaries =
             (((s.adir.table.filter fun p => decide (s.ulc.sweep.next ≤ p.1)).take (min 4 s.ulc.sweep.remaining)).map
               fun p => p.2.summary p.1 beBytes) ∧
           t.ulc.sweep.remaining = s.ulc.sweep.remaining - page.summaries.length ∧ t.adir.table = s.adir.table ∧
           (∀ w ∈ t.adir.writes, s.ulc.sweep.next ≤ w.slot → w.slot < page.after → w.settled = true) ∧
           t = { s with adir := t.adir, ulc := t.ulc }) ∧
       (∀ page, s.ulc.sweep.page = some page →
         ∃ t, exec .sweepPageWrite s = .next t ∧ t.ulc.sweep.page = none ∧ t.ulc.sweep.next = page.after ∧
           t.ulc.sweep.sent = s.ulc.sweep.sent + page.summaries.length ∧
           t.ulc.reserved + 1 = s.ulc.reserved + (if t.ulc.sweep.placed then 1 else 0) ∧
           t.ulc.queue =
             (if page.summaries = [] then s.ulc.queue
             else s.ulc.queue ++ [.sweepPage page.after s.ulc.sweep.remaining page.summaries]) ∧
           t.ulc.tx = (if t.ulc.queue = [] then s.ulc.tx else s.sends) ∧ t = { s with ulc := t.ulc }) ∧
       (s.ulc.sweep.active = true → s.ulc.sweep.page = none → s.ulc.sweep.placed = true →
         (s.ulc.sweep.remaining = 0 ∨ 16384 ≤ s.ulc.sweep.next) →
         ∃ t, exec .sweepEnd s = .next t ∧ t.ulc.sweep.active = false ∧ t.ulc.sweep.placed = false ∧
           t.ulc.reserved + 1 = s.ulc.reserved ∧
           t.ulc.queue = s.ulc.queue ++ [.sweepEnd s.ulc.sweep.next s.ulc.sweep.sent] ∧ t.ulc.tx = s.sends ∧
           t = { s with ulc := t.ulc }) ∧
       (∀ i code echo detail dropped, s.ulc.dispatched = some ⟨i, .answered code echo detail, dropped⟩ →
         ∃ t, exec .answerWrite s = .next t ∧ t = { s with ulc := t.ulc } ∧
           t.ulc.dispatched = (s.ulc.list.head?.map fun i => ⟨i, .waiting, false⟩) ∧ t.ulc.list = s.ulc.list.tail ∧
           (dropped = true → t.ulc.queue = s.ulc.queue ∧ t.ulc.reserved = s.ulc.reserved) ∧
           (dropped = false →
             t.ulc.queue =
               s.ulc.queue ++
                 [.answer ([BitVec.ofNat 8 i.kind, BitVec.ofNat 8 code.code] ++ padTo 8 echo ++ detail)] ∧
             t.ulc.reserved + 1 + (if s.ulc.sweep.placed then 1 else 0) =
               s.ulc.reserved + (if t.ulc.sweep.placed then 1 else 0) ∧
             t.ulc.tx = s.sends))) ∧
  (∀ u : Ulc,
     (u.free < 2 → u.arbitrate = u) ∧
       (u.reportOwed = true → u.reportPlaced = false → 2 ≤ u.free → u.arbitrate.reportPlaced = true) ∧
       (u.reportOwed = false ∨ u.reportPlaced = true → 2 ≤ u.free → u.sweep.active = true → u.sweep.page = none →
         u.sweep.placed = false → u.dispatched = none →
         u.arbitrate = { u with reserved := u.reserved + 1, sweep := { u.sweep with placed := true } }) ∧
       (u.reportOwed = false ∨ u.reportPlaced = true → u.sweep.active = false → u.arbitrate = u))


/-! ## The utility's instructions -/

/-- ENROL: a free slot, the lowest, takes the new record; a number already in the map, or a field out of range, changes
nothing. AMEND, RETIRE and KEYROLL act on a record of the map: each has its refusals, and an accepted one writes the one
record. A RETIRE of a held record answers METER_RETIRED to every request parked for its slot; the order of several is the
model's choice (log entry 17). Here with no hold claim waiting for the record. -/
def Obligations.MeterInstructions : Prop :=
  (∀ (s : State) (i : LineInstr) (d : Bool), s.dispatches .enrol i d → s.noneWaitsFor (i.field 0 5) →
     ∃ t, exec .enrol s = .next t ∧ t = { s with adir := t.adir, ulc := t.ulc } ∧
       (∀ rec, enrolRecord i s.tke.now = some rec → tableFind s.adir.table (i.field 0 5) = none → s.adir.writes = [] →
         tableOk s.adir.table = true → s.adir.table.length < 16384 →
         ∃ slot, slot < 16384 ∧ tableGet s.adir.table slot = none ∧
           (∀ n, n < slot → tableGet s.adir.table n ≠ none) ∧ t.adir.table = tableSet s.adir.table slot rec ∧
           t.ulc = s.ulc.answering i d .accepted (slice i.body 0 5) (beBytes 2 slot)) ∧
       (∀ rec p, enrolRecord i s.tke.now = some rec → tableFind s.adir.table (i.field 0 5) = some p →
         t.adir.table = s.adir.table ∧ t.ulc = s.ulc.answering i d .exists_ (slice i.body 0 5) []) ∧
       (enrolRecord i s.tke.now = none →
         t.adir.table = s.adir.table ∧ t.ulc = s.ulc.answering i d .badField (slice i.body 0 5) [])) ∧
  (∀ (s : State) (i : LineInstr) (d : Bool), s.noneWaitsFor (i.field 0 5) →
     (s.dispatches .amend i d →
       ∃ t, exec .amend s = .next t ∧ t = { s with adir := t.adir, ulc := t.ulc } ∧
         (amendChanges i = none →
           t.adir.table = s.adir.table ∧ t.ulc = s.ulc.answering i d .badField (slice i.body 0 5) []) ∧
         (∀ change, amendChanges i = some change → tableFind s.adir.table (i.field 0 5) = none →
           t.adir.table = s.adir.table ∧ t.ulc = s.ulc.answering i d .absent (slice i.body 0 5) []) ∧
         (∀ change slot r, amendChanges i = some change → tableFind s.adir.table (i.field 0 5) = some (slot, r) →
           t.adir.table = (if r.hold = none then tableSet s.adir.table slot (change r) else s.adir.table) ∧
           t.ulc = s.ulc.answering i d (if r.hold = none then .accepted else .recordBusy) (slice i.body 0 5) [])) ∧
       (s.dispatches .retire i d →
         (tableFind s.adir.table (i.field 0 5) = none →
           ∃ t, exec .retire s = .next t ∧ t.adir.table = s.adir.table ∧
             t.ulc = s.ulc.answering i d .absent (slice i.body 0 5) []) ∧
         (∀ slot r, tableFind s.adir.table (i.field 0 5) = some (slot, r) →
           ∃ t, exec .retire s = .next t ∧
             (r.status = .retiring →
               t.adir.table = s.adir.table ∧ t.ulc = s.ulc.answering i d .duplicate (slice i.body 0 5) []) ∧
             (r.status ≠ .retiring → r.hold = none →
               t.adir.table = (s.adir.table.filter fun p => decide (p.1 ≠ slot)) ∧
               t.ulc = s.ulc.answering i d .accepted (slice i.body 0 5) (beBytes 1 1) ∧
               t = { s with adir := t.adir, ulc := t.ulc }) ∧
             (r.status ≠ .retiring → r.hold ≠ none →
               t.adir.table = tableSet s.adir.table slot { r with status := .retiring } ∧
               t.ulc = s.ulc.answering i d .accepted (slice i.body 0 5) (beBytes 1 2) ∧
               ((∀ e ∈ s.vnc.park, e.slot ≠ slot) → t = { s with adir := t.adir, ulc := t.ulc }) ∧
               (∀ e ∈ t.vnc.park, e.slot ≠ slot) ∧
               (∀ e ∈ s.vnc.park, e.slot = slot → (t.ctx e.holder).state = .replying ∨ t.ctx e.holder = Ctx.idle) ∧
               (∀ e q, (s.vnc.park.filter fun e => decide (e.slot = slot)) = [e] → s.atOwner e.holder q →
                 t.rgi = s.rgi.replyDue e.holder q .context ⟨.meterRetired, []⟩ ∧
                 (t.ctx e.holder).state = .replying ∧ (∀ h, h ≠ e.holder → t.ctx h = s.ctx h) ∧
                 t = { s with adir := t.adir, ulc := t.ulc, vnc := t.vnc, rgi := t.rgi })))) ∧
       (s.dispatches .keyroll i d → 1 ≤ i.field 0 5 → i.field 0 5 ≤ 99999999999 → 1 ≤ i.field 5 1 → i.field 5 1 ≤ 15 →
         ∀ slot r, tableFind s.adir.table (i.field 0 5) = some (slot, r) →
           let pending := (r.roll.map KeyRoll.generation).getD 0
           ∃ t, exec .keyroll s = .next t ∧ t = { s with adir := t.adir, ulc := t.ulc } ∧
             (r.hold = none → r.keyGeneration < i.field 5 1 → pending < i.field 5 1 →
               t.adir.table =
                 tableSet s.adir.table slot { r with roll := some ⟨i.field 5 1, BitVec.ofNat 60 (i.field 6 8)⟩ } ∧
               t.ulc = s.ulc.answering i d .accepted (slice i.body 0 5)
                 (beBytes 1 r.keyGeneration ++ beBytes 1 (i.field 5 1))) ∧
             ((r.hold ≠ none ∨ i.field 5 1 ≤ r.keyGeneration ∨ i.field 5 1 ≤ pending) →
               t.adir.table = s.adir.table ∧
               t.ulc = s.ulc.answering i d
                 (if r.hold ≠ none then .recordBusy
                 else if i.field 5 1 ≤ r.keyGeneration ∨ i.field 5 1 < pending then .staleGeneration else .duplicate)
                 (slice i.body 0 5) (beBytes 1 r.keyGeneration ++ beBytes 1 pending))))

/-- GRANT, decided by the first line that applies: an accepted one raises the granted total, sets GRANT_TAKEN and answers
available after it; one that meets a write under way waits for it. Its own write completes when it is taken (log entry 6).
-/
def Obligations.GrantIsDecidedByItsTable : Prop :=
  ∀ (s : State) (i : LineInstr) (d : Bool), s.dispatches .grant i d → s.flu.queue = [] →
    let n := i.field 0 4
    let a := i.field 4 4
    (∀ k, s.flu.writing = some k →
      exec .grant s =
        .next { s with
          flu := { s.flu with queue := [.grant n a] }
          ulc := { s.ulc with dispatched := some ⟨i, .claimed, d⟩ } }) ∧
      (s.flu.writing = none →
        let code : AnswerCode :=
          if n < 1 ∨ 4294967294 < n ∨ a < 1 ∨ 100000000 < a then .badField
          else if n < s.flu.record.nextGrant then .duplicate
          else if s.flu.record.nextGrant < n then .outOfOrder
          else if s.flu.record.ceiling < s.flu.available + s.flu.reserved + a then .overCeiling
          else .accepted
        (code ≠ .accepted →
          exec .grant s = .next { s with ulc := s.ulc.answering i d code (beBytes 4 n) [] }) ∧
        (code = .accepted → s.flu.solvent →
          ∃ t, exec .grant s = .next t ∧
            t.flu.record =
              { s.flu.record with granted := s.flu.record.granted + a, nextGrant := n + 1 } ∧
            t.flu.available = s.flu.available + a ∧ t.flu.entries = s.flu.entries ∧ t.flu.writing = none ∧
            t.atc = (s.raise .grantTaken).atc ∧
            t.ulc = s.ulc.answering i d .accepted (beBytes 4 n) (beBytes 4 (s.flu.available + a)) ∧
            t = { s with flu := t.flu, ulc := t.ulc, atc := t.atc }))

/-- RECALL removes at most what is available, and FLOAT_TERMS sets the ceiling, the low mark and the vend cap. Here with
no write of FLU under way; their own writes complete when they are taken (log entry 6). -/
def Obligations.RecallAndFloatTerms : Prop :=
  ∀ (s : State) (i : LineInstr) (d : Bool), s.flu.queue = [] → s.flu.writing = none →
    (s.dispatches .recall i d →
      let n := i.field 0 4
      let a := i.field 4 4
      let code : AnswerCode :=
        if n < 1 ∨ 4294967294 < n ∨ a < 1 ∨ 100000000 < a then .badField
        else if n < s.flu.record.nextGrant then .duplicate
        else if s.flu.record.nextGrant < n then .outOfOrder
        else .accepted
      (code ≠ .accepted → exec .recall s = .next { s with ulc := s.ulc.answering i d code (beBytes 4 n) [] }) ∧
      (code = .accepted →
        ∃ t, exec .recall s = .next t ∧
          floatWatched s t
            { s.flu with
              record :=
                { s.flu.record with
                  recalled := s.flu.record.recalled + min a s.flu.available, nextGrant := n + 1 }
              writing := none } ∧
          t.flu.available = s.flu.available - min a s.flu.available ∧
          t.ulc = s.ulc.answering i d .accepted (beBytes 4 n) (beBytes 4 (min a s.flu.available)) ∧
          t = { s with flu := t.flu, ulc := t.ulc, atc := t.atc })) ∧
      (s.dispatches .floatTerms i d →
        (i.field 0 4 ≤ 100000000 → i.field 4 4 ≤ 100000000 → i.field 8 4 ≤ 500000 →
          ∃ t, exec .floatTerms s = .next t ∧
            floatWatched s t
              { s.flu with
                record :=
                  { s.flu.record with ceiling := i.field 0 4, lowMark := i.field 4 4, vendCap := i.field 8 4 }
                writing := none } ∧
            t.ulc = s.ulc.answering i d .accepted [] [] ∧ t = { s with flu := t.flu, ulc := t.ulc, atc := t.atc }) ∧
        (100000000 < i.field 0 4 ∨ 100000000 < i.field 4 4 ∨ 500000 < i.field 8 4 →
          exec .floatTerms s = .next { s with ulc := s.ulc.answering i d .badField [] [] }))

/-- TARIFF and ARM: a class entry is loaded into the shadow bank, and a complete shadow bank is armed or applied at once.
-/
def Obligations.TariffAndArm : Prop :=
  ∀ (s : State) (i : LineInstr) (d : Bool),
    (s.dispatches .tariff i d →
      let g := i.field 0 2
      let shadow := s.tfu.bank.active.other
      let bad := g < 1 ∨ 65535 < g ∨ 15 < i.field 2 1 ∨ (carriedEntry i).ok = false
      (bad →
        exec .tariff s =
          .next { s with ulc := s.ulc.answering i d .badField (slice i.body 0 3) [] }) ∧
      (¬bad → g ≤ s.tfu.bank.generation.get s.tfu.bank.active →
        exec .tariff s =
          .next { s with ulc := s.ulc.answering i d .staleGeneration (slice i.body 0 3) [] }) ∧
      (¬bad → s.tfu.bank.generation.get s.tfu.bank.active < g →
        ∃ t, exec .tariff s = .next t ∧
          t.tfu.entries.get shadow = (s.tfu.entries.get shadow).set (i.field 2 1) (carriedEntry i) ∧
          t.tfu.entries.get s.tfu.bank.active = s.tfu.entries.get s.tfu.bank.active ∧
          t.tfu.bank.active = s.tfu.bank.active ∧ t.tfu.bank.arm = none ∧ t.tfu.bank.generation.get shadow = g ∧
          (t.tfu.bank.loaded.get shadow).getLsbD (i.field 2 1) = true ∧
          (s.tfu.bank.generation.get shadow = g → ∀ n, n ≠ i.field 2 1 →
            (t.tfu.bank.loaded.get shadow).getLsbD n = (s.tfu.bank.loaded.get shadow).getLsbD n) ∧
          (s.tfu.bank.generation.get shadow ≠ g → ∀ n, n ≠ i.field 2 1 →
            (t.tfu.bank.loaded.get shadow).getLsbD n = false) ∧
          (s.tfu.bank.arm ≠ none → t.has .disarmed = true) ∧ (s.tfu.bank.arm = none → t.atc = s.atc) ∧
          t.ulc = s.ulc.answering i d .accepted (slice i.body 0 3) [] ∧
          t = { s with tfu := t.tfu, ulc := t.ulc, atc := t.atc })) ∧
      (s.dispatches .arm i d →
        let g := i.field 0 2
        let shadow := s.tfu.bank.active.other
        1 ≤ g → g ≤ 65535 → i.field 2 4 ≤ 16777215 → s.tfu.bank.generation.get shadow = g →
        s.tfu.bank.loaded.get shadow = 0xFFFF → s.tfu.bank.generation.get s.tfu.bank.active < g →
        ∃ t, exec .arm s = .next t ∧ t = { s with tfu := t.tfu, ulc := t.ulc, atc := t.atc } ∧
          (s.tke.clockValid = true ∧ i.field 2 4 ≤ s.tke.minute →
            t.tfu.bank.active = shadow ∧ t.tfu.bank.arm = none ∧ t.tfu.bank.loaded.get s.tfu.bank.active = 0 ∧
            t.tfu.bank.generation = s.tfu.bank.generation ∧ t.tfu.entries = s.tfu.entries ∧
            t.has .applied = true ∧
            t.ulc = s.ulc.answering i d .accepted (beBytes 2 g) (beBytes 1 2 ++ beBytes 2 g)) ∧
          (s.tke.clockValid = false ∨ s.tke.minute < i.field 2 4 →
            t.tfu.bank = { s.tfu.bank with arm := some ⟨g, i.field 2 4⟩ } ∧ t.atc = s.atc ∧
            t.ulc = s.ulc.answering i d .accepted (beBytes 2 g)
              (beBytes 1 1 ++ beBytes 2 (s.tfu.bank.generation.get s.tfu.bank.active))))

/-- DISARM: with no arm present it is answered NOT_ARMED and changes nothing; with one, the arm is removed and nothing
else of the banks changes. An apply taken first leaves no arm; a DISARM taken first leaves no apply to take. -/
def Obligations.DisarmRemovesTheArm : Prop :=
  ∀ (s : State) (i : LineInstr) (d : Bool), s.dispatches .disarm i d →
    (s.tfu.bank.arm = none →
      exec .disarm s =
        .next { s with ulc := s.ulc.answering i d .notArmed [] [] }) ∧
      (s.tfu.bank.arm ≠ none →
        exec .disarm s =
          .next { s with
            tfu := { s.tfu with bank := { s.tfu.bank with arm := none } }
            ulc := s.ulc.answering i d .accepted [] [] }) ∧
      i.body = [] ∧ (∀ t, exec .disarm s = .next t → t.applyDue = false) ∧
      (s.applyDue = true →
        s.applyLook.tfu.bank.arm = none ∧ s.applyLook.tfu.bank.active = s.tfu.bank.active.other)

/-- MONTHS is decided by the first line of its table that applies, and an accepted one appends its entries; TIME sets the
clock whatever it read; each takes what it makes due and sets the month's bits. HOLDOVER sets the limit and answers the
one it replaced; SWEEP replaces a running sweep, the slot in its answer being 0 by choice when it replaces none (log entry
22), and the echo of one that ULC answers BAD_FIELD is all zero, as the model reads R211 (log entry 28); FLOAT_QUERY
answers the float snapshot; an unknown instruction is answered BAD_FIELD. That MONTHS and TIME are watched twice for the
month's bits, and that a SWEEP whose ANSWER a give-up or a LINK reset has dropped is answered but starts no sweep, is the
model's reading of R42, R159 and R176 (log entry 14). -/
def Obligations.MonthsTimeHoldoverSweepAndQuery : Prop :=
  (∀ (calendar : List MonthEntry) (i : LineInstr),
     let carried : List MonthEntry :=
       (List.range (i.field 0 1)).map fun k => ⟨i.field (1 + 6 * k) 2, i.field (3 + 6 * k) 4⟩
     let all := calendar.getLast?.toList ++ carried
     let bad := carried = [] ∨ 6 < carried.length ∨
       ∃ e ∈ carried, e.number < 1 ∨ 65535 < e.number ∨ 16777215 < e.start
     let present := ∀ e ∈ carried, e ∈ calendar
     let follow := ∀ k a b, all[k]? = some a → all[k + 1]? = some b → b.number = a.number + 1 ∧ a.start < b.start
     carriedMonths i = carried ∧ (bad → monthsDecision calendar i = .badField) ∧
       (¬bad → present → monthsDecision calendar i = .duplicate) ∧
       (¬bad → ¬present → ¬follow → monthsDecision calendar i = .badField) ∧
       (¬bad → ¬present → follow → 24 < calendar.length + carried.length →
         monthsDecision calendar i = .storeFull) ∧
       (¬bad → ¬present → follow → calendar.length + carried.length ≤ 24 →
         monthsDecision calendar i = .accepted)) ∧
  (∀ (s : State) (i : LineInstr) (d : Bool),
     (s.dispatches .months i d → monthsDecision s.tfu.calendar i = .accepted → s.tke.clockValid = false →
       ∃ t, exec .months s = .next t ∧
         t.tfu = { s.tfu with calendar := s.tfu.calendar ++ carriedMonths i } ∧
         t.ulc = s.ulc.answering i d .accepted (slice i.body 1 2) [] ∧
         t = { s with tfu := t.tfu, ulc := t.ulc, atc := t.atc }) ∧
       (s.dispatches .months i d → monthsDecision s.tfu.calendar i = .accepted → s.tke.clockValid = true →
         ∃ t, exec .months s = .next t ∧
           rolledOver s.tke.minute (s.tfu.calendar ++ carriedMonths i) t.tfu.calendar ∧ t.tfu.bank = s.tfu.bank ∧
           t.tfu.entries = s.tfu.entries ∧
           (∀ u, u = { s with tfu := { s.tfu with calendar := s.tfu.calendar ++ carriedMonths i } } →
             monthBits s u t ∧ monthBits u t t) ∧
           t.ulc = s.ulc.answering i d .accepted (slice i.body 1 2) [] ∧
           t = { s with tfu := t.tfu, ulc := t.ulc, atc := t.atc }) ∧
       (s.dispatches .months i d → monthsDecision s.tfu.calendar i ≠ .accepted →
         exec .months s =
           .next { s with ulc := s.ulc.answering i d (monthsDecision s.tfu.calendar i) (slice i.body 1 2) [] }) ∧
       (s.dispatches .time i d → 16777215 < i.field 0 4 →
         exec .time s = .next { s with ulc := s.ulc.answering i d .badField [] [] }) ∧
       (s.dispatches .time i d → i.field 0 4 ≤ 16777215 →
         ∃ t, exec .time s = .next t ∧ t.tke = { s.tke with clockValid := true, minute := i.field 0 4 } ∧
           (s.tke.clockValid = false → t.has .clockValid = true) ∧
           (s.tke.clockValid = true → i.field 0 4 < s.tke.minute → t.has .clockBack = true) ∧
           clockTaken s t (i.field 0 4) ∧
           t.ulc = s.ulc.answering i d .accepted []
             (beBytes 4 (if s.tke.clockValid then s.tke.minute else 4294967295)) ∧
           t = { s with tke := t.tke, tfu := t.tfu, ulc := t.ulc, atc := t.atc })) ∧
  (∀ (s : State) (i : LineInstr) (d : Bool),
     (s.dispatches .holdover i d →
       (10080 < i.field 0 2 → exec .holdover s = .next { s with ulc := s.ulc.answering i d .badField [] [] }) ∧
       (i.field 0 2 ≤ 10080 → s.ulc.recordWrite = none → s.ulc.recordClaims = [] →
         exec .holdover s =
           .next { s with
             ulc := { s.ulc.answering i d .accepted [] (beBytes 2 s.ulc.holdover) with holdover := i.field 0 2 }
             atc := (s.raiseIf
               (s.tke.counting && decide (s.tke.sinceUp ≤ s.ulc.holdover) && decide (i.field 0 2 < s.tke.sinceUp))
               .holdoverPassed).atc })) ∧
       (s.dispatches .sweep i d →
         (16383 < i.field 0 2 ∨ i.field 2 1 < 1 ∨ 64 < i.field 2 1 →
           exec .sweep s = .next { s with ulc := s.ulc.answering i d .badField [] [] }) ∧
         (i.field 0 2 ≤ 16383 → 1 ≤ i.field 2 1 → i.field 2 1 ≤ 64 → d = true →
           exec .sweep s =
             .next { s with
               ulc := s.ulc.answering i d .accepted (beBytes 2 (i.field 0 2))
                 (beBytes 1 (if s.ulc.sweep.active then 1 else 0) ++
                   beBytes 2 (if s.ulc.sweep.active then s.ulc.sweep.next else 0)) }) ∧
         (i.field 0 2 ≤ 16383 → 1 ≤ i.field 2 1 → i.field 2 1 ≤ 64 → d = false → s.ulc.reportOwed = false →
           exec .sweep s =
             .next { s with
               ulc := {
                 s.ulc.answering i d .accepted (beBytes 2 (i.field 0 2))
                   (beBytes 1 (if s.ulc.sweep.active then 1 else 0) ++
                     beBytes 2 (if s.ulc.sweep.active then s.ulc.sweep.next else 0)) with
                 reserved := if s.ulc.sweep.placed then s.ulc.reserved - 1 else s.ulc.reserved
                 sweep := ⟨true, i.field 0 2, i.field 2 1, none, 0, false⟩ } })) ∧
       (s.dispatches .floatQuery i d →
         exec .floatQuery s = .next { s with ulc := s.ulc.answering i d .accepted [] s.flu.snapshot }) ∧
       (s.inService = true → s.ulc.dispatched = some ⟨i, .waiting, d⟩ → i.bad = true →
         exec .unknownInstruction s = .next { s with ulc := s.ulc.answering i d .badField [] [] }))
end

