-- ==== Sys2Proof/Laws/State.lean ====
section
/-! SUPPORT. What each update of the state leaves of each field: one lemma per field per update, true by definition. -/

namespace Sys2Proof.Machine

variable (s : State)

/-! ### mapAdir -/

@[simp] theorem mapAdir_adir (f : Adir → Adir) : (s.mapAdir f).adir = f s.adir := rfl
@[simp] theorem mapAdir_tfu (f : Adir → Adir) : (s.mapAdir f).tfu = s.tfu := rfl
@[simp] theorem mapAdir_flu (f : Adir → Adir) : (s.mapAdir f).flu = s.flu := rfl
@[simp] theorem mapAdir_tke (f : Adir → Adir) : (s.mapAdir f).tke = s.tke := rfl
@[simp] theorem mapAdir_vnc (f : Adir → Adir) : (s.mapAdir f).vnc = s.vnc := rfl
@[simp] theorem mapAdir_tlu (f : Adir → Adir) : (s.mapAdir f).tlu = s.tlu := rfl
@[simp] theorem mapAdir_ulc (f : Adir → Adir) : (s.mapAdir f).ulc = s.ulc := rfl
@[simp] theorem mapAdir_rgi (f : Adir → Adir) : (s.mapAdir f).rgi = s.rgi := rfl
@[simp] theorem mapAdir_atc (f : Adir → Adir) : (s.mapAdir f).atc = s.atc := rfl
@[simp] theorem mapAdir_draws (f : Adir → Adir) : (s.mapAdir f).draws = s.draws := rfl
@[simp] theorem mapAdir_pending (f : Adir → Adir) : (s.mapAdir f).pending = s.pending := rfl

/-! ### mapTfu -/

@[simp] theorem mapTfu_adir (f : Tfu → Tfu) : (s.mapTfu f).adir = s.adir := rfl
@[simp] theorem mapTfu_tfu (f : Tfu → Tfu) : (s.mapTfu f).tfu = f s.tfu := rfl
@[simp] theorem mapTfu_flu (f : Tfu → Tfu) : (s.mapTfu f).flu = s.flu := rfl
@[simp] theorem mapTfu_tke (f : Tfu → Tfu) : (s.mapTfu f).tke = s.tke := rfl
@[simp] theorem mapTfu_vnc (f : Tfu → Tfu) : (s.mapTfu f).vnc = s.vnc := rfl
@[simp] theorem mapTfu_tlu (f : Tfu → Tfu) : (s.mapTfu f).tlu = s.tlu := rfl
@[simp] theorem mapTfu_ulc (f : Tfu → Tfu) : (s.mapTfu f).ulc = s.ulc := rfl
@[simp] theorem mapTfu_rgi (f : Tfu → Tfu) : (s.mapTfu f).rgi = s.rgi := rfl
@[simp] theorem mapTfu_atc (f : Tfu → Tfu) : (s.mapTfu f).atc = s.atc := rfl
@[simp] theorem mapTfu_draws (f : Tfu → Tfu) : (s.mapTfu f).draws = s.draws := rfl
@[simp] theorem mapTfu_pending (f : Tfu → Tfu) : (s.mapTfu f).pending = s.pending := rfl

/-! ### mapFlu -/

@[simp] theorem mapFlu_adir (f : Flu → Flu) : (s.mapFlu f).adir = s.adir := rfl
@[simp] theorem mapFlu_tfu (f : Flu → Flu) : (s.mapFlu f).tfu = s.tfu := rfl
@[simp] theorem mapFlu_flu (f : Flu → Flu) : (s.mapFlu f).flu = f s.flu := rfl
@[simp] theorem mapFlu_tke (f : Flu → Flu) : (s.mapFlu f).tke = s.tke := rfl
@[simp] theorem mapFlu_vnc (f : Flu → Flu) : (s.mapFlu f).vnc = s.vnc := rfl
@[simp] theorem mapFlu_tlu (f : Flu → Flu) : (s.mapFlu f).tlu = s.tlu := rfl
@[simp] theorem mapFlu_ulc (f : Flu → Flu) : (s.mapFlu f).ulc = s.ulc := rfl
@[simp] theorem mapFlu_rgi (f : Flu → Flu) : (s.mapFlu f).rgi = s.rgi := rfl
@[simp] theorem mapFlu_atc (f : Flu → Flu) : (s.mapFlu f).atc = s.atc := rfl
@[simp] theorem mapFlu_draws (f : Flu → Flu) : (s.mapFlu f).draws = s.draws := rfl
@[simp] theorem mapFlu_pending (f : Flu → Flu) : (s.mapFlu f).pending = s.pending := rfl

/-! ### mapTke -/

@[simp] theorem mapTke_adir (f : Tke → Tke) : (s.mapTke f).adir = s.adir := rfl
@[simp] theorem mapTke_tfu (f : Tke → Tke) : (s.mapTke f).tfu = s.tfu := rfl
@[simp] theorem mapTke_flu (f : Tke → Tke) : (s.mapTke f).flu = s.flu := rfl
@[simp] theorem mapTke_tke (f : Tke → Tke) : (s.mapTke f).tke = f s.tke := rfl
@[simp] theorem mapTke_vnc (f : Tke → Tke) : (s.mapTke f).vnc = s.vnc := rfl
@[simp] theorem mapTke_tlu (f : Tke → Tke) : (s.mapTke f).tlu = s.tlu := rfl
@[simp] theorem mapTke_ulc (f : Tke → Tke) : (s.mapTke f).ulc = s.ulc := rfl
@[simp] theorem mapTke_rgi (f : Tke → Tke) : (s.mapTke f).rgi = s.rgi := rfl
@[simp] theorem mapTke_atc (f : Tke → Tke) : (s.mapTke f).atc = s.atc := rfl
@[simp] theorem mapTke_draws (f : Tke → Tke) : (s.mapTke f).draws = s.draws := rfl
@[simp] theorem mapTke_pending (f : Tke → Tke) : (s.mapTke f).pending = s.pending := rfl

/-! ### mapVnc -/

@[simp] theorem mapVnc_adir (f : Vnc → Vnc) : (s.mapVnc f).adir = s.adir := rfl
@[simp] theorem mapVnc_tfu (f : Vnc → Vnc) : (s.mapVnc f).tfu = s.tfu := rfl
@[simp] theorem mapVnc_flu (f : Vnc → Vnc) : (s.mapVnc f).flu = s.flu := rfl
@[simp] theorem mapVnc_tke (f : Vnc → Vnc) : (s.mapVnc f).tke = s.tke := rfl
@[simp] theorem mapVnc_vnc (f : Vnc → Vnc) : (s.mapVnc f).vnc = f s.vnc := rfl
@[simp] theorem mapVnc_tlu (f : Vnc → Vnc) : (s.mapVnc f).tlu = s.tlu := rfl
@[simp] theorem mapVnc_ulc (f : Vnc → Vnc) : (s.mapVnc f).ulc = s.ulc := rfl
@[simp] theorem mapVnc_rgi (f : Vnc → Vnc) : (s.mapVnc f).rgi = s.rgi := rfl
@[simp] theorem mapVnc_atc (f : Vnc → Vnc) : (s.mapVnc f).atc = s.atc := rfl
@[simp] theorem mapVnc_draws (f : Vnc → Vnc) : (s.mapVnc f).draws = s.draws := rfl
@[simp] theorem mapVnc_pending (f : Vnc → Vnc) : (s.mapVnc f).pending = s.pending := rfl

/-! ### mapTlu -/

@[simp] theorem mapTlu_adir (f : Tlu → Tlu) : (s.mapTlu f).adir = s.adir := rfl
@[simp] theorem mapTlu_tfu (f : Tlu → Tlu) : (s.mapTlu f).tfu = s.tfu := rfl
@[simp] theorem mapTlu_flu (f : Tlu → Tlu) : (s.mapTlu f).flu = s.flu := rfl
@[simp] theorem mapTlu_tke (f : Tlu → Tlu) : (s.mapTlu f).tke = s.tke := rfl
@[simp] theorem mapTlu_vnc (f : Tlu → Tlu) : (s.mapTlu f).vnc = s.vnc := rfl
@[simp] theorem mapTlu_tlu (f : Tlu → Tlu) : (s.mapTlu f).tlu = f s.tlu := rfl
@[simp] theorem mapTlu_ulc (f : Tlu → Tlu) : (s.mapTlu f).ulc = s.ulc := rfl
@[simp] theorem mapTlu_rgi (f : Tlu → Tlu) : (s.mapTlu f).rgi = s.rgi := rfl
@[simp] theorem mapTlu_atc (f : Tlu → Tlu) : (s.mapTlu f).atc = s.atc := rfl
@[simp] theorem mapTlu_draws (f : Tlu → Tlu) : (s.mapTlu f).draws = s.draws := rfl
@[simp] theorem mapTlu_pending (f : Tlu → Tlu) : (s.mapTlu f).pending = s.pending := rfl

/-! ### mapUlc -/

@[simp] theorem mapUlc_adir (f : Ulc → Ulc) : (s.mapUlc f).adir = s.adir := rfl
@[simp] theorem mapUlc_tfu (f : Ulc → Ulc) : (s.mapUlc f).tfu = s.tfu := rfl
@[simp] theorem mapUlc_flu (f : Ulc → Ulc) : (s.mapUlc f).flu = s.flu := rfl
@[simp] theorem mapUlc_tke (f : Ulc → Ulc) : (s.mapUlc f).tke = s.tke := rfl
@[simp] theorem mapUlc_vnc (f : Ulc → Ulc) : (s.mapUlc f).vnc = s.vnc := rfl
@[simp] theorem mapUlc_tlu (f : Ulc → Ulc) : (s.mapUlc f).tlu = s.tlu := rfl
@[simp] theorem mapUlc_ulc (f : Ulc → Ulc) : (s.mapUlc f).ulc = f s.ulc := rfl
@[simp] theorem mapUlc_rgi (f : Ulc → Ulc) : (s.mapUlc f).rgi = s.rgi := rfl
@[simp] theorem mapUlc_atc (f : Ulc → Ulc) : (s.mapUlc f).atc = s.atc := rfl
@[simp] theorem mapUlc_draws (f : Ulc → Ulc) : (s.mapUlc f).draws = s.draws := rfl
@[simp] theorem mapUlc_pending (f : Ulc → Ulc) : (s.mapUlc f).pending = s.pending := rfl

/-! ### mapRgi -/

@[simp] theorem mapRgi_adir (f : Rgi → Rgi) : (s.mapRgi f).adir = s.adir := rfl
@[simp] theorem mapRgi_tfu (f : Rgi → Rgi) : (s.mapRgi f).tfu = s.tfu := rfl
@[simp] theorem mapRgi_flu (f : Rgi → Rgi) : (s.mapRgi f).flu = s.flu := rfl
@[simp] theorem mapRgi_tke (f : Rgi → Rgi) : (s.mapRgi f).tke = s.tke := rfl
@[simp] theorem mapRgi_vnc (f : Rgi → Rgi) : (s.mapRgi f).vnc = s.vnc := rfl
@[simp] theorem mapRgi_tlu (f : Rgi → Rgi) : (s.mapRgi f).tlu = s.tlu := rfl
@[simp] theorem mapRgi_ulc (f : Rgi → Rgi) : (s.mapRgi f).ulc = s.ulc := rfl
@[simp] theorem mapRgi_rgi (f : Rgi → Rgi) : (s.mapRgi f).rgi = f s.rgi := rfl
@[simp] theorem mapRgi_atc (f : Rgi → Rgi) : (s.mapRgi f).atc = s.atc := rfl
@[simp] theorem mapRgi_draws (f : Rgi → Rgi) : (s.mapRgi f).draws = s.draws := rfl
@[simp] theorem mapRgi_pending (f : Rgi → Rgi) : (s.mapRgi f).pending = s.pending := rfl

/-! ### mapAtc -/

@[simp] theorem mapAtc_adir (f : Atc → Atc) : (s.mapAtc f).adir = s.adir := rfl
@[simp] theorem mapAtc_tfu (f : Atc → Atc) : (s.mapAtc f).tfu = s.tfu := rfl
@[simp] theorem mapAtc_flu (f : Atc → Atc) : (s.mapAtc f).flu = s.flu := rfl
@[simp] theorem mapAtc_tke (f : Atc → Atc) : (s.mapAtc f).tke = s.tke := rfl
@[simp] theorem mapAtc_vnc (f : Atc → Atc) : (s.mapAtc f).vnc = s.vnc := rfl
@[simp] theorem mapAtc_tlu (f : Atc → Atc) : (s.mapAtc f).tlu = s.tlu := rfl
@[simp] theorem mapAtc_ulc (f : Atc → Atc) : (s.mapAtc f).ulc = s.ulc := rfl
@[simp] theorem mapAtc_rgi (f : Atc → Atc) : (s.mapAtc f).rgi = s.rgi := rfl
@[simp] theorem mapAtc_atc (f : Atc → Atc) : (s.mapAtc f).atc = f s.atc := rfl
@[simp] theorem mapAtc_draws (f : Atc → Atc) : (s.mapAtc f).draws = s.draws := rfl
@[simp] theorem mapAtc_pending (f : Atc → Atc) : (s.mapAtc f).pending = s.pending := rfl

/-! ### mapCtx -/

@[simp] theorem mapCtx_adir (h : Holder) (f : Ctx → Ctx) : (s.mapCtx h f).adir = s.adir := rfl
@[simp] theorem mapCtx_tfu (h : Holder) (f : Ctx → Ctx) : (s.mapCtx h f).tfu = s.tfu := rfl
@[simp] theorem mapCtx_flu (h : Holder) (f : Ctx → Ctx) : (s.mapCtx h f).flu = s.flu := rfl
@[simp] theorem mapCtx_tke (h : Holder) (f : Ctx → Ctx) : (s.mapCtx h f).tke = s.tke := rfl
@[simp] theorem mapCtx_tlu (h : Holder) (f : Ctx → Ctx) : (s.mapCtx h f).tlu = s.tlu := rfl
@[simp] theorem mapCtx_ulc (h : Holder) (f : Ctx → Ctx) : (s.mapCtx h f).ulc = s.ulc := rfl
@[simp] theorem mapCtx_rgi (h : Holder) (f : Ctx → Ctx) : (s.mapCtx h f).rgi = s.rgi := rfl
@[simp] theorem mapCtx_atc (h : Holder) (f : Ctx → Ctx) : (s.mapCtx h f).atc = s.atc := rfl
@[simp] theorem mapCtx_draws (h : Holder) (f : Ctx → Ctx) : (s.mapCtx h f).draws = s.draws := rfl
@[simp] theorem mapCtx_pending (h : Holder) (f : Ctx → Ctx) : (s.mapCtx h f).pending = s.pending := rfl

/-! ### mapRing -/

@[simp] theorem mapRing_adir (r : Holder) (f : Ring → Ring) : (s.mapRing r f).adir = s.adir := rfl
@[simp] theorem mapRing_tfu (r : Holder) (f : Ring → Ring) : (s.mapRing r f).tfu = s.tfu := rfl
@[simp] theorem mapRing_flu (r : Holder) (f : Ring → Ring) : (s.mapRing r f).flu = s.flu := rfl
@[simp] theorem mapRing_tke (r : Holder) (f : Ring → Ring) : (s.mapRing r f).tke = s.tke := rfl
@[simp] theorem mapRing_vnc (r : Holder) (f : Ring → Ring) : (s.mapRing r f).vnc = s.vnc := rfl
@[simp] theorem mapRing_tlu (r : Holder) (f : Ring → Ring) : (s.mapRing r f).tlu = s.tlu := rfl
@[simp] theorem mapRing_ulc (r : Holder) (f : Ring → Ring) : (s.mapRing r f).ulc = s.ulc := rfl
@[simp] theorem mapRing_atc (r : Holder) (f : Ring → Ring) : (s.mapRing r f).atc = s.atc := rfl
@[simp] theorem mapRing_draws (r : Holder) (f : Ring → Ring) : (s.mapRing r f).draws = s.draws := rfl
@[simp] theorem mapRing_pending (r : Holder) (f : Ring → Ring) : (s.mapRing r f).pending = s.pending := rfl

/-! ### mapTill -/

@[simp] theorem mapTill_adir (c : Counter) (f : Till → Till) : (s.mapTill c f).adir = s.adir := rfl
@[simp] theorem mapTill_tfu (c : Counter) (f : Till → Till) : (s.mapTill c f).tfu = s.tfu := rfl
@[simp] theorem mapTill_flu (c : Counter) (f : Till → Till) : (s.mapTill c f).flu = s.flu := rfl
@[simp] theorem mapTill_tke (c : Counter) (f : Till → Till) : (s.mapTill c f).tke = s.tke := rfl
@[simp] theorem mapTill_vnc (c : Counter) (f : Till → Till) : (s.mapTill c f).vnc = s.vnc := rfl
@[simp] theorem mapTill_ulc (c : Counter) (f : Till → Till) : (s.mapTill c f).ulc = s.ulc := rfl
@[simp] theorem mapTill_rgi (c : Counter) (f : Till → Till) : (s.mapTill c f).rgi = s.rgi := rfl
@[simp] theorem mapTill_atc (c : Counter) (f : Till → Till) : (s.mapTill c f).atc = s.atc := rfl
@[simp] theorem mapTill_draws (c : Counter) (f : Till → Till) : (s.mapTill c f).draws = s.draws := rfl
@[simp] theorem mapTill_pending (c : Counter) (f : Till → Till) : (s.mapTill c f).pending = s.pending := rfl

/-! ### mapLines -/

@[simp] theorem mapLines_adir (c : Counter) (f : LinePair → LinePair) : (s.mapLines c f).adir = s.adir := rfl
@[simp] theorem mapLines_tfu (c : Counter) (f : LinePair → LinePair) : (s.mapLines c f).tfu = s.tfu := rfl
@[simp] theorem mapLines_flu (c : Counter) (f : LinePair → LinePair) : (s.mapLines c f).flu = s.flu := rfl
@[simp] theorem mapLines_tke (c : Counter) (f : LinePair → LinePair) : (s.mapLines c f).tke = s.tke := rfl
@[simp] theorem mapLines_vnc (c : Counter) (f : LinePair → LinePair) : (s.mapLines c f).vnc = s.vnc := rfl
@[simp] theorem mapLines_ulc (c : Counter) (f : LinePair → LinePair) : (s.mapLines c f).ulc = s.ulc := rfl
@[simp] theorem mapLines_rgi (c : Counter) (f : LinePair → LinePair) : (s.mapLines c f).rgi = s.rgi := rfl
@[simp] theorem mapLines_atc (c : Counter) (f : LinePair → LinePair) : (s.mapLines c f).atc = s.atc := rfl
@[simp] theorem mapLines_draws (c : Counter) (f : LinePair → LinePair) : (s.mapLines c f).draws = s.draws := rfl
@[simp] theorem mapLines_pending (c : Counter) (f : LinePair → LinePair) : (s.mapLines c f).pending = s.pending := rfl

/-! ### raise -/

@[simp] theorem raise_adir (b : Status) : (s.raise b).adir = s.adir := rfl
@[simp] theorem raise_tfu (b : Status) : (s.raise b).tfu = s.tfu := rfl
@[simp] theorem raise_flu (b : Status) : (s.raise b).flu = s.flu := rfl
@[simp] theorem raise_tke (b : Status) : (s.raise b).tke = s.tke := rfl
@[simp] theorem raise_vnc (b : Status) : (s.raise b).vnc = s.vnc := rfl
@[simp] theorem raise_tlu (b : Status) : (s.raise b).tlu = s.tlu := rfl
@[simp] theorem raise_ulc (b : Status) : (s.raise b).ulc = s.ulc := rfl
@[simp] theorem raise_rgi (b : Status) : (s.raise b).rgi = s.rgi := rfl
@[simp] theorem raise_draws (b : Status) : (s.raise b).draws = s.draws := rfl
@[simp] theorem raise_pending (b : Status) : (s.raise b).pending = s.pending := rfl

/-! ### clearBits -/

@[simp] theorem clearBits_adir (b : Block) (v : Word) : (s.clearBits b v).adir = s.adir := rfl
@[simp] theorem clearBits_tfu (b : Block) (v : Word) : (s.clearBits b v).tfu = s.tfu := rfl
@[simp] theorem clearBits_flu (b : Block) (v : Word) : (s.clearBits b v).flu = s.flu := rfl
@[simp] theorem clearBits_tke (b : Block) (v : Word) : (s.clearBits b v).tke = s.tke := rfl
@[simp] theorem clearBits_vnc (b : Block) (v : Word) : (s.clearBits b v).vnc = s.vnc := rfl
@[simp] theorem clearBits_tlu (b : Block) (v : Word) : (s.clearBits b v).tlu = s.tlu := rfl
@[simp] theorem clearBits_ulc (b : Block) (v : Word) : (s.clearBits b v).ulc = s.ulc := rfl
@[simp] theorem clearBits_rgi (b : Block) (v : Word) : (s.clearBits b v).rgi = s.rgi := rfl
@[simp] theorem clearBits_draws (b : Block) (v : Word) : (s.clearBits b v).draws = s.draws := rfl
@[simp] theorem clearBits_pending (b : Block) (v : Word) : (s.clearBits b v).pending = s.pending := rfl

/-! ### setEnable -/

@[simp] theorem setEnable_adir (b : Block) (v : Word) : (s.setEnable b v).adir = s.adir := rfl
@[simp] theorem setEnable_tfu (b : Block) (v : Word) : (s.setEnable b v).tfu = s.tfu := rfl
@[simp] theorem setEnable_flu (b : Block) (v : Word) : (s.setEnable b v).flu = s.flu := rfl
@[simp] theorem setEnable_tke (b : Block) (v : Word) : (s.setEnable b v).tke = s.tke := rfl
@[simp] theorem setEnable_vnc (b : Block) (v : Word) : (s.setEnable b v).vnc = s.vnc := rfl
@[simp] theorem setEnable_tlu (b : Block) (v : Word) : (s.setEnable b v).tlu = s.tlu := rfl
@[simp] theorem setEnable_ulc (b : Block) (v : Word) : (s.setEnable b v).ulc = s.ulc := rfl
@[simp] theorem setEnable_rgi (b : Block) (v : Word) : (s.setEnable b v).rgi = s.rgi := rfl
@[simp] theorem setEnable_draws (b : Block) (v : Word) : (s.setEnable b v).draws = s.draws := rfl
@[simp] theorem setEnable_pending (b : Block) (v : Word) : (s.setEnable b v).pending = s.pending := rfl

/-! ### refuse -/

@[simp] theorem refuse_adir  : (s.refuse).adir = s.adir := rfl
@[simp] theorem refuse_tfu  : (s.refuse).tfu = s.tfu := rfl
@[simp] theorem refuse_flu  : (s.refuse).flu = s.flu := rfl
@[simp] theorem refuse_tke  : (s.refuse).tke = s.tke := rfl
@[simp] theorem refuse_vnc  : (s.refuse).vnc = s.vnc := rfl
@[simp] theorem refuse_tlu  : (s.refuse).tlu = s.tlu := rfl
@[simp] theorem refuse_ulc  : (s.refuse).ulc = s.ulc := rfl
@[simp] theorem refuse_rgi  : (s.refuse).rgi = s.rgi := rfl
@[simp] theorem refuse_draws  : (s.refuse).draws = s.draws := rfl
@[simp] theorem refuse_pending  : (s.refuse).pending = s.pending := rfl

/-! ### drawn -/

@[simp] theorem drawn_adir  : (s.drawn).adir = s.adir := rfl
@[simp] theorem drawn_tfu  : (s.drawn).tfu = s.tfu := rfl
@[simp] theorem drawn_flu  : (s.drawn).flu = s.flu := rfl
@[simp] theorem drawn_tke  : (s.drawn).tke = s.tke := rfl
@[simp] theorem drawn_vnc  : (s.drawn).vnc = s.vnc := rfl
@[simp] theorem drawn_tlu  : (s.drawn).tlu = s.tlu := rfl
@[simp] theorem drawn_ulc  : (s.drawn).ulc = s.ulc := rfl
@[simp] theorem drawn_rgi  : (s.drawn).rgi = s.rgi := rfl
@[simp] theorem drawn_atc  : (s.drawn).atc = s.atc := rfl
@[simp] theorem drawn_pending  : (s.drawn).pending = s.pending := rfl

/-! ### raiseIf -/

@[simp] theorem raiseIf_adir (p : Bool) (b : Status) : (s.raiseIf p b).adir = s.adir := by
  unfold State.raiseIf; split <;> rfl
@[simp] theorem raiseIf_tfu (p : Bool) (b : Status) : (s.raiseIf p b).tfu = s.tfu := by
  unfold State.raiseIf; split <;> rfl
@[simp] theorem raiseIf_flu (p : Bool) (b : Status) : (s.raiseIf p b).flu = s.flu := by
  unfold State.raiseIf; split <;> rfl
@[simp] theorem raiseIf_tke (p : Bool) (b : Status) : (s.raiseIf p b).tke = s.tke := by
  unfold State.raiseIf; split <;> rfl
@[simp] theorem raiseIf_vnc (p : Bool) (b : Status) : (s.raiseIf p b).vnc = s.vnc := by
  unfold State.raiseIf; split <;> rfl
@[simp] theorem raiseIf_tlu (p : Bool) (b : Status) : (s.raiseIf p b).tlu = s.tlu := by
  unfold State.raiseIf; split <;> rfl
@[simp] theorem raiseIf_ulc (p : Bool) (b : Status) : (s.raiseIf p b).ulc = s.ulc := by
  unfold State.raiseIf; split <;> rfl
@[simp] theorem raiseIf_rgi (p : Bool) (b : Status) : (s.raiseIf p b).rgi = s.rgi := by
  unfold State.raiseIf; split <;> rfl
@[simp] theorem raiseIf_draws (p : Bool) (b : Status) : (s.raiseIf p b).draws = s.draws := by
  unfold State.raiseIf; split <;> rfl
@[simp] theorem raiseIf_pending (p : Bool) (b : Status) : (s.raiseIf p b).pending = s.pending := by
  unfold State.raiseIf; split <;> rfl

/-! ### The fields an update does change -/

theorem mapCtx_vnc (h : Holder) (f : Ctx → Ctx) :
    (s.mapCtx h f).vnc = { s.vnc with ctxs := s.vnc.ctxs.set h (f (s.vnc.ctxs.get h)) } := rfl

theorem mapRing_rgi (r : Holder) (f : Ring → Ring) :
    (s.mapRing r f).rgi = { s.rgi with rings := s.rgi.rings.set r (f (s.rgi.rings.get r)) } := rfl

theorem mapTill_tlu (c : Counter) (f : Till → Till) :
    (s.mapTill c f).tlu = { s.tlu with tills := s.tlu.tills.set c (f (s.tlu.tills.get c)) } := rfl

theorem mapLines_tlu (c : Counter) (f : LinePair → LinePair) :
    (s.mapLines c f).tlu = { s.tlu with lines := s.tlu.lines.set c (f (s.tlu.lines.get c)) } := rfl

@[simp] theorem drawn_draws : s.drawn.draws = s.draws + 1 := rfl

/-- Setting a status bit changes the status words alone. -/
theorem raise_atc (b : Status) :
    (s.raise b).atc = { s.atc with status := s.atc.status.set b.block (s.atc.status.get b.block ||| b.mask) } := rfl

@[simp] theorem raise_phase (b : Status) : (s.raise b).atc.phase = s.atc.phase := rfl
@[simp] theorem raise_held (b : Status) : (s.raise b).atc.held = s.atc.held := rfl
@[simp] theorem raise_enable (b : Status) : (s.raise b).atc.enable = s.atc.enable := rfl
@[simp] theorem raiseIf_phase (p : Bool) (b : Status) : (s.raiseIf p b).atc.phase = s.atc.phase := by
  unfold State.raiseIf; split <;> rfl
@[simp] theorem raiseIf_held (p : Bool) (b : Status) : (s.raiseIf p b).atc.held = s.atc.held := by
  unfold State.raiseIf; split <;> rfl
@[simp] theorem raiseIf_true (b : Status) : s.raiseIf true b = s.raise b := rfl
@[simp] theorem raiseIf_false (b : Status) : s.raiseIf false b = s := rfl

end Sys2Proof.Machine
end

