-- ==== Sys2Proof/Laws/Frames.lean ====
section
/-! SUPPORT. Which units of the state each shared operation can change: for every other unit, that it is left as it was. -/

set_option linter.unusedTactic false
set_option linter.unnecessarySeqFocus false
set_option linter.unreachableTactic false
set_option linter.unusedSimpArgs false

namespace Sys2Proof.Machine

variable (s : State)

/-! ### settleSlot -/

@[simp] theorem settleSlot_tfu (n : Nat) : (s.settleSlot n).tfu = s.tfu := rfl
@[simp] theorem settleSlot_flu (n : Nat) : (s.settleSlot n).flu = s.flu := rfl
@[simp] theorem settleSlot_tke (n : Nat) : (s.settleSlot n).tke = s.tke := rfl
@[simp] theorem settleSlot_vnc (n : Nat) : (s.settleSlot n).vnc = s.vnc := rfl
@[simp] theorem settleSlot_tlu (n : Nat) : (s.settleSlot n).tlu = s.tlu := rfl
@[simp] theorem settleSlot_ulc (n : Nat) : (s.settleSlot n).ulc = s.ulc := rfl
@[simp] theorem settleSlot_rgi (n : Nat) : (s.settleSlot n).rgi = s.rgi := rfl
@[simp] theorem settleSlot_atc (n : Nat) : (s.settleSlot n).atc = s.atc := rfl
@[simp] theorem settleSlot_pending (n : Nat) : (s.settleSlot n).pending = s.pending := rfl

/-! ### settleMeter -/

@[simp] theorem settleMeter_tfu (n : Nat) : (s.settleMeter n).tfu = s.tfu := rfl
@[simp] theorem settleMeter_flu (n : Nat) : (s.settleMeter n).flu = s.flu := rfl
@[simp] theorem settleMeter_tke (n : Nat) : (s.settleMeter n).tke = s.tke := rfl
@[simp] theorem settleMeter_vnc (n : Nat) : (s.settleMeter n).vnc = s.vnc := rfl
@[simp] theorem settleMeter_tlu (n : Nat) : (s.settleMeter n).tlu = s.tlu := rfl
@[simp] theorem settleMeter_ulc (n : Nat) : (s.settleMeter n).ulc = s.ulc := rfl
@[simp] theorem settleMeter_rgi (n : Nat) : (s.settleMeter n).rgi = s.rgi := rfl
@[simp] theorem settleMeter_atc (n : Nat) : (s.settleMeter n).atc = s.atc := rfl
@[simp] theorem settleMeter_pending (n : Nat) : (s.settleMeter n).pending = s.pending := rfl

/-! ### beginWrite -/

@[simp] theorem beginWrite_tfu (k : RecordWriteKind) (h : Holder) (n : Nat) (r : MeterRecord) : (s.beginWrite k h n r).tfu = s.tfu := rfl
@[simp] theorem beginWrite_flu (k : RecordWriteKind) (h : Holder) (n : Nat) (r : MeterRecord) : (s.beginWrite k h n r).flu = s.flu := rfl
@[simp] theorem beginWrite_tke (k : RecordWriteKind) (h : Holder) (n : Nat) (r : MeterRecord) : (s.beginWrite k h n r).tke = s.tke := rfl
@[simp] theorem beginWrite_vnc (k : RecordWriteKind) (h : Holder) (n : Nat) (r : MeterRecord) : (s.beginWrite k h n r).vnc = s.vnc := rfl
@[simp] theorem beginWrite_tlu (k : RecordWriteKind) (h : Holder) (n : Nat) (r : MeterRecord) : (s.beginWrite k h n r).tlu = s.tlu := rfl
@[simp] theorem beginWrite_ulc (k : RecordWriteKind) (h : Holder) (n : Nat) (r : MeterRecord) : (s.beginWrite k h n r).ulc = s.ulc := rfl
@[simp] theorem beginWrite_rgi (k : RecordWriteKind) (h : Holder) (n : Nat) (r : MeterRecord) : (s.beginWrite k h n r).rgi = s.rgi := rfl
@[simp] theorem beginWrite_atc (k : RecordWriteKind) (h : Holder) (n : Nat) (r : MeterRecord) : (s.beginWrite k h n r).atc = s.atc := rfl
@[simp] theorem beginWrite_pending (k : RecordWriteKind) (h : Holder) (n : Nat) (r : MeterRecord) : (s.beginWrite k h n r).pending = s.pending := rfl

/-! ### endWrite -/

@[simp] theorem endWrite_tfu (p : RecordWrite → Bool) : (s.endWrite p).tfu = s.tfu := rfl
@[simp] theorem endWrite_flu (p : RecordWrite → Bool) : (s.endWrite p).flu = s.flu := rfl
@[simp] theorem endWrite_tke (p : RecordWrite → Bool) : (s.endWrite p).tke = s.tke := rfl
@[simp] theorem endWrite_vnc (p : RecordWrite → Bool) : (s.endWrite p).vnc = s.vnc := rfl
@[simp] theorem endWrite_tlu (p : RecordWrite → Bool) : (s.endWrite p).tlu = s.tlu := rfl
@[simp] theorem endWrite_ulc (p : RecordWrite → Bool) : (s.endWrite p).ulc = s.ulc := rfl
@[simp] theorem endWrite_rgi (p : RecordWrite → Bool) : (s.endWrite p).rgi = s.rgi := rfl
@[simp] theorem endWrite_atc (p : RecordWrite → Bool) : (s.endWrite p).atc = s.atc := rfl
@[simp] theorem endWrite_pending (p : RecordWrite → Bool) : (s.endWrite p).pending = s.pending := rfl

/-! ### putRecord -/

@[simp] theorem putRecord_tfu (n : Nat) (r : MeterRecord) : (s.putRecord n r).tfu = s.tfu := rfl
@[simp] theorem putRecord_flu (n : Nat) (r : MeterRecord) : (s.putRecord n r).flu = s.flu := rfl
@[simp] theorem putRecord_tke (n : Nat) (r : MeterRecord) : (s.putRecord n r).tke = s.tke := rfl
@[simp] theorem putRecord_vnc (n : Nat) (r : MeterRecord) : (s.putRecord n r).vnc = s.vnc := rfl
@[simp] theorem putRecord_tlu (n : Nat) (r : MeterRecord) : (s.putRecord n r).tlu = s.tlu := rfl
@[simp] theorem putRecord_ulc (n : Nat) (r : MeterRecord) : (s.putRecord n r).ulc = s.ulc := rfl
@[simp] theorem putRecord_rgi (n : Nat) (r : MeterRecord) : (s.putRecord n r).rgi = s.rgi := rfl
@[simp] theorem putRecord_atc (n : Nat) (r : MeterRecord) : (s.putRecord n r).atc = s.atc := rfl
@[simp] theorem putRecord_pending (n : Nat) (r : MeterRecord) : (s.putRecord n r).pending = s.pending := rfl

/-! ### dropRecord -/

@[simp] theorem dropRecord_tfu (n : Nat) : (s.dropRecord n).tfu = s.tfu := rfl
@[simp] theorem dropRecord_flu (n : Nat) : (s.dropRecord n).flu = s.flu := rfl
@[simp] theorem dropRecord_tke (n : Nat) : (s.dropRecord n).tke = s.tke := rfl
@[simp] theorem dropRecord_vnc (n : Nat) : (s.dropRecord n).vnc = s.vnc := rfl
@[simp] theorem dropRecord_tlu (n : Nat) : (s.dropRecord n).tlu = s.tlu := rfl
@[simp] theorem dropRecord_ulc (n : Nat) : (s.dropRecord n).ulc = s.ulc := rfl
@[simp] theorem dropRecord_rgi (n : Nat) : (s.dropRecord n).rgi = s.rgi := rfl
@[simp] theorem dropRecord_atc (n : Nat) : (s.dropRecord n).atc = s.atc := rfl
@[simp] theorem dropRecord_pending (n : Nat) : (s.dropRecord n).pending = s.pending := rfl

/-! ### putDecided -/

@[simp] theorem putDecided_tfu (d : Option (Nat × MeterRecord)) : (s.putDecided d).tfu = s.tfu := by
  unfold State.putDecided; try dsimp only
  (repeat' split) <;> first | rfl | simp | simp [watchFloat, watchMonth]
@[simp] theorem putDecided_flu (d : Option (Nat × MeterRecord)) : (s.putDecided d).flu = s.flu := by
  unfold State.putDecided; try dsimp only
  (repeat' split) <;> first | rfl | simp | simp [watchFloat, watchMonth]
@[simp] theorem putDecided_tke (d : Option (Nat × MeterRecord)) : (s.putDecided d).tke = s.tke := by
  unfold State.putDecided; try dsimp only
  (repeat' split) <;> first | rfl | simp | simp [watchFloat, watchMonth]
@[simp] theorem putDecided_vnc (d : Option (Nat × MeterRecord)) : (s.putDecided d).vnc = s.vnc := by
  unfold State.putDecided; try dsimp only
  (repeat' split) <;> first | rfl | simp | simp [watchFloat, watchMonth]
@[simp] theorem putDecided_tlu (d : Option (Nat × MeterRecord)) : (s.putDecided d).tlu = s.tlu := by
  unfold State.putDecided; try dsimp only
  (repeat' split) <;> first | rfl | simp | simp [watchFloat, watchMonth]
@[simp] theorem putDecided_ulc (d : Option (Nat × MeterRecord)) : (s.putDecided d).ulc = s.ulc := by
  unfold State.putDecided; try dsimp only
  (repeat' split) <;> first | rfl | simp | simp [watchFloat, watchMonth]
@[simp] theorem putDecided_rgi (d : Option (Nat × MeterRecord)) : (s.putDecided d).rgi = s.rgi := by
  unfold State.putDecided; try dsimp only
  (repeat' split) <;> first | rfl | simp | simp [watchFloat, watchMonth]
@[simp] theorem putDecided_atc (d : Option (Nat × MeterRecord)) : (s.putDecided d).atc = s.atc := by
  unfold State.putDecided; try dsimp only
  (repeat' split) <;> first | rfl | simp | simp [watchFloat, watchMonth]
@[simp] theorem putDecided_pending (d : Option (Nat × MeterRecord)) : (s.putDecided d).pending = s.pending := by
  unfold State.putDecided; try dsimp only
  (repeat' split) <;> first | rfl | simp | simp [watchFloat, watchMonth]

/-! ### applyRecordPart -/

@[simp] theorem applyRecordPart_tfu (c : Counter) (i : Image) : (s.applyRecordPart c i).tfu = s.tfu := by
  unfold State.applyRecordPart; try dsimp only
  (repeat' split) <;> first | rfl | simp | simp [watchFloat, watchMonth]
@[simp] theorem applyRecordPart_flu (c : Counter) (i : Image) : (s.applyRecordPart c i).flu = s.flu := by
  unfold State.applyRecordPart; try dsimp only
  (repeat' split) <;> first | rfl | simp | simp [watchFloat, watchMonth]
@[simp] theorem applyRecordPart_tke (c : Counter) (i : Image) : (s.applyRecordPart c i).tke = s.tke := by
  unfold State.applyRecordPart; try dsimp only
  (repeat' split) <;> first | rfl | simp | simp [watchFloat, watchMonth]
@[simp] theorem applyRecordPart_vnc (c : Counter) (i : Image) : (s.applyRecordPart c i).vnc = s.vnc := by
  unfold State.applyRecordPart; try dsimp only
  (repeat' split) <;> first | rfl | simp | simp [watchFloat, watchMonth]
@[simp] theorem applyRecordPart_tlu (c : Counter) (i : Image) : (s.applyRecordPart c i).tlu = s.tlu := by
  unfold State.applyRecordPart; try dsimp only
  (repeat' split) <;> first | rfl | simp | simp [watchFloat, watchMonth]
@[simp] theorem applyRecordPart_ulc (c : Counter) (i : Image) : (s.applyRecordPart c i).ulc = s.ulc := by
  unfold State.applyRecordPart; try dsimp only
  (repeat' split) <;> first | rfl | simp | simp [watchFloat, watchMonth]
@[simp] theorem applyRecordPart_rgi (c : Counter) (i : Image) : (s.applyRecordPart c i).rgi = s.rgi := by
  unfold State.applyRecordPart; try dsimp only
  (repeat' split) <;> first | rfl | simp | simp [watchFloat, watchMonth]
@[simp] theorem applyRecordPart_atc (c : Counter) (i : Image) : (s.applyRecordPart c i).atc = s.atc := by
  unfold State.applyRecordPart; try dsimp only
  (repeat' split) <;> first | rfl | simp | simp [watchFloat, watchMonth]
@[simp] theorem applyRecordPart_pending (c : Counter) (i : Image) : (s.applyRecordPart c i).pending = s.pending := by
  unfold State.applyRecordPart; try dsimp only
  (repeat' split) <;> first | rfl | simp | simp [watchFloat, watchMonth]

/-! ### nextJob -/

@[simp] theorem nextJob_adir : (s.nextJob).adir = s.adir := by
  unfold State.nextJob; try dsimp only
  (repeat' split) <;> first | rfl | simp | simp [watchFloat, watchMonth]
@[simp] theorem nextJob_tfu : (s.nextJob).tfu = s.tfu := by
  unfold State.nextJob; try dsimp only
  (repeat' split) <;> first | rfl | simp | simp [watchFloat, watchMonth]
@[simp] theorem nextJob_flu : (s.nextJob).flu = s.flu := by
  unfold State.nextJob; try dsimp only
  (repeat' split) <;> first | rfl | simp | simp [watchFloat, watchMonth]
@[simp] theorem nextJob_vnc : (s.nextJob).vnc = s.vnc := by
  unfold State.nextJob; try dsimp only
  (repeat' split) <;> first | rfl | simp | simp [watchFloat, watchMonth]
@[simp] theorem nextJob_tlu : (s.nextJob).tlu = s.tlu := by
  unfold State.nextJob; try dsimp only
  (repeat' split) <;> first | rfl | simp | simp [watchFloat, watchMonth]
@[simp] theorem nextJob_ulc : (s.nextJob).ulc = s.ulc := by
  unfold State.nextJob; try dsimp only
  (repeat' split) <;> first | rfl | simp | simp [watchFloat, watchMonth]
@[simp] theorem nextJob_rgi : (s.nextJob).rgi = s.rgi := by
  unfold State.nextJob; try dsimp only
  (repeat' split) <;> first | rfl | simp | simp [watchFloat, watchMonth]
@[simp] theorem nextJob_atc : (s.nextJob).atc = s.atc := by
  unfold State.nextJob; try dsimp only
  (repeat' split) <;> first | rfl | simp | simp [watchFloat, watchMonth]
@[simp] theorem nextJob_pending : (s.nextJob).pending = s.pending := by
  unfold State.nextJob; try dsimp only
  (repeat' split) <;> first | rfl | simp | simp [watchFloat, watchMonth]

/-! ### queueJobs -/

@[simp] theorem queueJobs_adir (j : List Job) : (s.queueJobs j).adir = s.adir := by
  unfold State.queueJobs; try dsimp only
  (repeat' split) <;> first | rfl | simp | simp [watchFloat, watchMonth]
@[simp] theorem queueJobs_tfu (j : List Job) : (s.queueJobs j).tfu = s.tfu := by
  unfold State.queueJobs; try dsimp only
  (repeat' split) <;> first | rfl | simp | simp [watchFloat, watchMonth]
@[simp] theorem queueJobs_flu (j : List Job) : (s.queueJobs j).flu = s.flu := by
  unfold State.queueJobs; try dsimp only
  (repeat' split) <;> first | rfl | simp | simp [watchFloat, watchMonth]
@[simp] theorem queueJobs_vnc (j : List Job) : (s.queueJobs j).vnc = s.vnc := by
  unfold State.queueJobs; try dsimp only
  (repeat' split) <;> first | rfl | simp | simp [watchFloat, watchMonth]
@[simp] theorem queueJobs_tlu (j : List Job) : (s.queueJobs j).tlu = s.tlu := by
  unfold State.queueJobs; try dsimp only
  (repeat' split) <;> first | rfl | simp | simp [watchFloat, watchMonth]
@[simp] theorem queueJobs_ulc (j : List Job) : (s.queueJobs j).ulc = s.ulc := by
  unfold State.queueJobs; try dsimp only
  (repeat' split) <;> first | rfl | simp | simp [watchFloat, watchMonth]
@[simp] theorem queueJobs_rgi (j : List Job) : (s.queueJobs j).rgi = s.rgi := by
  unfold State.queueJobs; try dsimp only
  (repeat' split) <;> first | rfl | simp | simp [watchFloat, watchMonth]
@[simp] theorem queueJobs_atc (j : List Job) : (s.queueJobs j).atc = s.atc := by
  unfold State.queueJobs; try dsimp only
  (repeat' split) <;> first | rfl | simp | simp [watchFloat, watchMonth]
@[simp] theorem queueJobs_pending (j : List Job) : (s.queueJobs j).pending = s.pending := by
  unfold State.queueJobs; try dsimp only
  (repeat' split) <;> first | rfl | simp | simp [watchFloat, watchMonth]

/-! ### readOutcome, removeOutcome, markStores -/

@[simp] theorem readOutcome_adir (c : Counter) : (s.readOutcome c).adir = s.adir := rfl
@[simp] theorem readOutcome_tfu (c : Counter) : (s.readOutcome c).tfu = s.tfu := rfl
@[simp] theorem readOutcome_flu (c : Counter) : (s.readOutcome c).flu = s.flu := rfl
@[simp] theorem readOutcome_tke (c : Counter) : (s.readOutcome c).tke = s.tke := rfl
@[simp] theorem readOutcome_vnc (c : Counter) : (s.readOutcome c).vnc = s.vnc := rfl
@[simp] theorem readOutcome_ulc (c : Counter) : (s.readOutcome c).ulc = s.ulc := rfl
@[simp] theorem readOutcome_rgi (c : Counter) : (s.readOutcome c).rgi = s.rgi := rfl
@[simp] theorem readOutcome_atc (c : Counter) : (s.readOutcome c).atc = s.atc := rfl
@[simp] theorem readOutcome_draws (c : Counter) : (s.readOutcome c).draws = s.draws := rfl
@[simp] theorem readOutcome_pending (c : Counter) : (s.readOutcome c).pending = s.pending := rfl
@[simp] theorem readOutcome_tills (c : Counter) : (s.readOutcome c).tlu.tills = s.tlu.tills := rfl
@[simp] theorem readOutcome_part (c : Counter) : (s.readOutcome c).tlu.part = s.tlu.part := rfl
@[simp] theorem readOutcome_closing (c : Counter) : (s.readOutcome c).tlu.closing = s.tlu.closing := rfl
@[simp] theorem readOutcome_lines (c : Counter) : (s.readOutcome c).tlu.lines = s.tlu.lines := rfl
@[simp] theorem readOutcome_before (c : Counter) : (s.readOutcome c).tlu.before = s.tlu.before := rfl
theorem readOutcome_tlu (c : Counter) : (s.readOutcome c).tlu = s.tlu.outcomeRead c := rfl

@[simp] theorem removeOutcome_adir (c : Counter) (o : Outcome) : (s.removeOutcome c o).adir = s.adir := rfl
@[simp] theorem removeOutcome_tfu (c : Counter) (o : Outcome) : (s.removeOutcome c o).tfu = s.tfu := rfl
@[simp] theorem removeOutcome_flu (c : Counter) (o : Outcome) : (s.removeOutcome c o).flu = s.flu := rfl
@[simp] theorem removeOutcome_tke (c : Counter) (o : Outcome) : (s.removeOutcome c o).tke = s.tke := rfl
@[simp] theorem removeOutcome_vnc (c : Counter) (o : Outcome) : (s.removeOutcome c o).vnc = s.vnc := rfl
@[simp] theorem removeOutcome_rgi (c : Counter) (o : Outcome) : (s.removeOutcome c o).rgi = s.rgi := rfl
@[simp] theorem removeOutcome_atc (c : Counter) (o : Outcome) : (s.removeOutcome c o).atc = s.atc := rfl
@[simp] theorem removeOutcome_draws (c : Counter) (o : Outcome) : (s.removeOutcome c o).draws = s.draws := rfl
@[simp] theorem removeOutcome_pending (c : Counter) (o : Outcome) : (s.removeOutcome c o).pending = s.pending := rfl
@[simp] theorem removeOutcome_ulc (c : Counter) (o : Outcome) :
    (s.removeOutcome c o).ulc = { s.ulc with noneTold := false } := rfl
@[simp] theorem removeOutcome_tills (c : Counter) (o : Outcome) :
    (s.removeOutcome c o).tlu.tills = s.tlu.tills.set c { s.till c with outcome := none } := rfl

/-- Marking the stores of one event changes nothing but the marks. -/
theorem markStores_spec (t : State) : ∃ m, s.markStores t = { t with tlu := { t.tlu with storing := m } } := by
  unfold State.markStores
  split
  · exact ⟨t.tlu.storing, rfl⟩
  · have fold : ∀ (l : List Counter) (u : State), (∃ m, u = { t with tlu := { t.tlu with storing := m } }) →
        ∃ m, l.foldl (fun u c => u.mapTlu fun l => { l with storing := l.storing.set c (some ⟨(s.till c).outcome, false, false⟩) }) u =
          { t with tlu := { t.tlu with storing := m } } := by
      intro l
      induction l with
      | nil => exact fun u h => h
      | cons c rest ih =>
        rintro u ⟨m, rfl⟩
        exact ih _ ⟨m.set c (some ⟨(s.till c).outcome, false, false⟩), rfl⟩
    exact fold _ _ ⟨PerCounter.fill none, rfl⟩

/-- An event that leaves every till's outcome, or all but one, has no stores to mark. -/
theorem markStores_of_le (t : State) (h : (s.storedSince t).length ≤ 1) : s.markStores t = t := by
  unfold State.markStores; rw [if_pos h]

/-- An event that leaves the tills as they were has no stores to mark. -/
theorem markStores_of_tills (t : State) (h : t.tlu.tills = s.tlu.tills) : s.markStores t = t := by
  apply markStores_of_le
  have : s.storedSince t = [] := by simp [State.storedSince, State.till, h]
  simp [this]

@[simp] theorem markStores_adir (t : State) : (s.markStores t).adir = t.adir := by
  obtain ⟨m, h⟩ := markStores_spec s t; rw [h]
@[simp] theorem markStores_tfu (t : State) : (s.markStores t).tfu = t.tfu := by
  obtain ⟨m, h⟩ := markStores_spec s t; rw [h]
@[simp] theorem markStores_flu (t : State) : (s.markStores t).flu = t.flu := by
  obtain ⟨m, h⟩ := markStores_spec s t; rw [h]
@[simp] theorem markStores_tke (t : State) : (s.markStores t).tke = t.tke := by
  obtain ⟨m, h⟩ := markStores_spec s t; rw [h]
@[simp] theorem markStores_vnc (t : State) : (s.markStores t).vnc = t.vnc := by
  obtain ⟨m, h⟩ := markStores_spec s t; rw [h]
@[simp] theorem markStores_ulc (t : State) : (s.markStores t).ulc = t.ulc := by
  obtain ⟨m, h⟩ := markStores_spec s t; rw [h]
@[simp] theorem markStores_rgi (t : State) : (s.markStores t).rgi = t.rgi := by
  obtain ⟨m, h⟩ := markStores_spec s t; rw [h]
@[simp] theorem markStores_atc (t : State) : (s.markStores t).atc = t.atc := by
  obtain ⟨m, h⟩ := markStores_spec s t; rw [h]
@[simp] theorem markStores_draws (t : State) : (s.markStores t).draws = t.draws := by
  obtain ⟨m, h⟩ := markStores_spec s t; rw [h]
@[simp] theorem markStores_pending (t : State) : (s.markStores t).pending = t.pending := by
  obtain ⟨m, h⟩ := markStores_spec s t; rw [h]
@[simp] theorem markStores_tills (t : State) : (s.markStores t).tlu.tills = t.tlu.tills := by
  obtain ⟨m, h⟩ := markStores_spec s t; rw [h]
@[simp] theorem markStores_part (t : State) : (s.markStores t).tlu.part = t.tlu.part := by
  obtain ⟨m, h⟩ := markStores_spec s t; rw [h]
@[simp] theorem markStores_closing (t : State) : (s.markStores t).tlu.closing = t.tlu.closing := by
  obtain ⟨m, h⟩ := markStores_spec s t; rw [h]
@[simp] theorem markStores_removing (t : State) : (s.markStores t).tlu.removing = t.tlu.removing := by
  obtain ⟨m, h⟩ := markStores_spec s t; rw [h]
@[simp] theorem markStores_lines (t : State) : (s.markStores t).tlu.lines = t.tlu.lines := by
  obtain ⟨m, h⟩ := markStores_spec s t; rw [h]
@[simp] theorem markStores_before (t : State) : (s.markStores t).tlu.before = t.tlu.before := by
  obtain ⟨m, h⟩ := markStores_spec s t; rw [h]

/-! ### outcomeReadDone, tillSeenDone, idleSeen -/

@[simp] theorem outcomeReadDone_adir (c : Counter) : (s.outcomeReadDone c).adir = s.adir := by
  unfold State.outcomeReadDone; (repeat' split) <;> first | rfl | simp
@[simp] theorem outcomeReadDone_tfu (c : Counter) : (s.outcomeReadDone c).tfu = s.tfu := by
  unfold State.outcomeReadDone; (repeat' split) <;> first | rfl | simp
@[simp] theorem outcomeReadDone_flu (c : Counter) : (s.outcomeReadDone c).flu = s.flu := by
  unfold State.outcomeReadDone; (repeat' split) <;> first | rfl | simp
@[simp] theorem outcomeReadDone_tke (c : Counter) : (s.outcomeReadDone c).tke = s.tke := by
  unfold State.outcomeReadDone; (repeat' split) <;> first | rfl | simp
@[simp] theorem outcomeReadDone_vnc (c : Counter) : (s.outcomeReadDone c).vnc = s.vnc := by
  unfold State.outcomeReadDone; (repeat' split) <;> first | rfl | simp
@[simp] theorem outcomeReadDone_ulc (c : Counter) : (s.outcomeReadDone c).ulc = s.ulc := by
  unfold State.outcomeReadDone; (repeat' split) <;> first | rfl | simp
@[simp] theorem outcomeReadDone_rgi (c : Counter) : (s.outcomeReadDone c).rgi = s.rgi := by
  unfold State.outcomeReadDone; (repeat' split) <;> first | rfl | simp
@[simp] theorem outcomeReadDone_atc (c : Counter) : (s.outcomeReadDone c).atc = s.atc := by
  unfold State.outcomeReadDone; (repeat' split) <;> first | rfl | simp
@[simp] theorem outcomeReadDone_pending (c : Counter) : (s.outcomeReadDone c).pending = s.pending := by
  unfold State.outcomeReadDone; (repeat' split) <;> first | rfl | simp
@[simp] theorem outcomeReadDone_tills (c : Counter) : (s.outcomeReadDone c).tlu.tills = s.tlu.tills := by
  unfold State.outcomeReadDone; (repeat' split) <;> first | rfl | simp
@[simp] theorem outcomeReadDone_part (c : Counter) : (s.outcomeReadDone c).tlu.part = s.tlu.part := by
  unfold State.outcomeReadDone; (repeat' split) <;> first | rfl | simp
@[simp] theorem outcomeReadDone_closing (c : Counter) : (s.outcomeReadDone c).tlu.closing = s.tlu.closing := by
  unfold State.outcomeReadDone; (repeat' split) <;> first | rfl | simp
@[simp] theorem outcomeReadDone_lines (c : Counter) : (s.outcomeReadDone c).tlu.lines = s.tlu.lines := by
  unfold State.outcomeReadDone; (repeat' split) <;> first | rfl | simp
@[simp] theorem outcomeReadDone_before (c : Counter) : (s.outcomeReadDone c).tlu.before = s.tlu.before := by
  unfold State.outcomeReadDone; (repeat' split) <;> first | rfl | simp
@[simp] theorem tillSeenDone_adir (c : Counter) : (s.tillSeenDone c).adir = s.adir := by
  unfold State.tillSeenDone; (repeat' split) <;> first | rfl | simp
@[simp] theorem tillSeenDone_tfu (c : Counter) : (s.tillSeenDone c).tfu = s.tfu := by
  unfold State.tillSeenDone; (repeat' split) <;> first | rfl | simp
@[simp] theorem tillSeenDone_flu (c : Counter) : (s.tillSeenDone c).flu = s.flu := by
  unfold State.tillSeenDone; (repeat' split) <;> first | rfl | simp
@[simp] theorem tillSeenDone_tke (c : Counter) : (s.tillSeenDone c).tke = s.tke := by
  unfold State.tillSeenDone; (repeat' split) <;> first | rfl | simp
@[simp] theorem tillSeenDone_vnc (c : Counter) : (s.tillSeenDone c).vnc = s.vnc := by
  unfold State.tillSeenDone; (repeat' split) <;> first | rfl | simp
@[simp] theorem tillSeenDone_ulc (c : Counter) : (s.tillSeenDone c).ulc = s.ulc := by
  unfold State.tillSeenDone; (repeat' split) <;> first | rfl | simp
@[simp] theorem tillSeenDone_rgi (c : Counter) : (s.tillSeenDone c).rgi = s.rgi := by
  unfold State.tillSeenDone; (repeat' split) <;> first | rfl | simp
@[simp] theorem tillSeenDone_atc (c : Counter) : (s.tillSeenDone c).atc = s.atc := by
  unfold State.tillSeenDone; (repeat' split) <;> first | rfl | simp
@[simp] theorem tillSeenDone_pending (c : Counter) : (s.tillSeenDone c).pending = s.pending := by
  unfold State.tillSeenDone; (repeat' split) <;> first | rfl | simp
@[simp] theorem tillSeenDone_tills (c : Counter) : (s.tillSeenDone c).tlu.tills = s.tlu.tills := by
  unfold State.tillSeenDone; (repeat' split) <;> first | rfl | simp
@[simp] theorem tillSeenDone_part (c : Counter) : (s.tillSeenDone c).tlu.part = s.tlu.part := by
  unfold State.tillSeenDone; (repeat' split) <;> first | rfl | simp
@[simp] theorem tillSeenDone_closing (c : Counter) : (s.tillSeenDone c).tlu.closing = s.tlu.closing := by
  unfold State.tillSeenDone; (repeat' split) <;> first | rfl | simp
@[simp] theorem tillSeenDone_lines (c : Counter) : (s.tillSeenDone c).tlu.lines = s.tlu.lines := by
  unfold State.tillSeenDone; (repeat' split) <;> first | rfl | simp
@[simp] theorem tillSeenDone_before (c : Counter) : (s.tillSeenDone c).tlu.before = s.tlu.before := by
  unfold State.tillSeenDone; (repeat' split) <;> first | rfl | simp
@[simp] theorem idleSeen_adir (h : Holder) : (s.idleSeen h).adir = s.adir := by cases h <;> rfl
@[simp] theorem idleSeen_tfu (h : Holder) : (s.idleSeen h).tfu = s.tfu := by cases h <;> rfl
@[simp] theorem idleSeen_flu (h : Holder) : (s.idleSeen h).flu = s.flu := by cases h <;> rfl
@[simp] theorem idleSeen_tke (h : Holder) : (s.idleSeen h).tke = s.tke := by cases h <;> rfl
@[simp] theorem idleSeen_vnc (h : Holder) : (s.idleSeen h).vnc = s.vnc := by cases h <;> rfl
@[simp] theorem idleSeen_ulc (h : Holder) : (s.idleSeen h).ulc = s.ulc := by cases h <;> rfl
@[simp] theorem idleSeen_rgi (h : Holder) : (s.idleSeen h).rgi = s.rgi := by cases h <;> rfl
@[simp] theorem idleSeen_atc (h : Holder) : (s.idleSeen h).atc = s.atc := by cases h <;> rfl
@[simp] theorem idleSeen_pending (h : Holder) : (s.idleSeen h).pending = s.pending := by cases h <;> rfl
@[simp] theorem idleSeen_draws (h : Holder) : (s.idleSeen h).draws = s.draws := by cases h <;> rfl
@[simp] theorem idleSeen_tills (h : Holder) : (s.idleSeen h).tlu.tills = s.tlu.tills := by cases h <;> rfl
@[simp] theorem idleSeen_part (h : Holder) : (s.idleSeen h).tlu.part = s.tlu.part := by cases h <;> rfl
@[simp] theorem idleSeen_closing (h : Holder) : (s.idleSeen h).tlu.closing = s.tlu.closing := by cases h <;> rfl
@[simp] theorem idleSeen_lines (h : Holder) : (s.idleSeen h).tlu.lines = s.tlu.lines := by cases h <;> rfl
@[simp] theorem idleSeen_before (h : Holder) : (s.idleSeen h).tlu.before = s.tlu.before := by cases h <;> rfl

/-- Where no write of a till's outcome may be under way, a read finds it as it stands. -/
theorem outcomeSeen_of_none (c : Counter) (h : s.outcomeOpen c = none) :
    s.outcomeSeen c = (s.till c).outcome ∧ s.outcomeReadDone c = s.readOutcome c := by
  simp [State.outcomeSeen, State.outcomeReadDone, h]

/-- A till with no removal and no store listed has no write of its outcome under way. -/
theorem outcomeOpen_of_none (c : Counter) (h : s.tlu.removing.get c = none) (k : s.tlu.storing.get c = none) :
    s.outcomeOpen c = none := by simp [State.outcomeOpen, h, k]

/-! ### settleTill -/

@[simp] theorem settleTill_adir (c : Counter) : (s.settleTill c).adir = s.adir := by
  unfold State.settleTill; try dsimp only
  (repeat' split) <;> first | rfl | simp | simp [watchFloat, watchMonth]
@[simp] theorem settleTill_tfu (c : Counter) : (s.settleTill c).tfu = s.tfu := by
  unfold State.settleTill; try dsimp only
  (repeat' split) <;> first | rfl | simp | simp [watchFloat, watchMonth]
@[simp] theorem settleTill_flu (c : Counter) : (s.settleTill c).flu = s.flu := by
  unfold State.settleTill; try dsimp only
  (repeat' split) <;> first | rfl | simp | simp [watchFloat, watchMonth]
@[simp] theorem settleTill_tke (c : Counter) : (s.settleTill c).tke = s.tke := by
  unfold State.settleTill; try dsimp only
  (repeat' split) <;> first | rfl | simp | simp [watchFloat, watchMonth]
@[simp] theorem settleTill_vnc (c : Counter) : (s.settleTill c).vnc = s.vnc := by
  unfold State.settleTill; try dsimp only
  (repeat' split) <;> first | rfl | simp | simp [watchFloat, watchMonth]
@[simp] theorem settleTill_ulc (c : Counter) : (s.settleTill c).ulc = s.ulc := by
  unfold State.settleTill; try dsimp only
  (repeat' split) <;> first | rfl | simp | simp [watchFloat, watchMonth]
@[simp] theorem settleTill_rgi (c : Counter) : (s.settleTill c).rgi = s.rgi := by
  unfold State.settleTill; try dsimp only
  (repeat' split) <;> first | rfl | simp | simp [watchFloat, watchMonth]
@[simp] theorem settleTill_pending (c : Counter) : (s.settleTill c).pending = s.pending := by
  unfold State.settleTill; try dsimp only
  (repeat' split) <;> first | rfl | simp | simp [watchFloat, watchMonth]

/-! ### writeOutcome -/

@[simp] theorem writeOutcome_adir (c : Counter) (o : Option Outcome) : (s.writeOutcome c o).adir = s.adir := rfl
@[simp] theorem writeOutcome_tfu (c : Counter) (o : Option Outcome) : (s.writeOutcome c o).tfu = s.tfu := rfl
@[simp] theorem writeOutcome_flu (c : Counter) (o : Option Outcome) : (s.writeOutcome c o).flu = s.flu := rfl
@[simp] theorem writeOutcome_tke (c : Counter) (o : Option Outcome) : (s.writeOutcome c o).tke = s.tke := rfl
@[simp] theorem writeOutcome_vnc (c : Counter) (o : Option Outcome) : (s.writeOutcome c o).vnc = s.vnc := rfl
@[simp] theorem writeOutcome_ulc (c : Counter) (o : Option Outcome) : (s.writeOutcome c o).ulc = s.ulc := rfl
@[simp] theorem writeOutcome_rgi (c : Counter) (o : Option Outcome) : (s.writeOutcome c o).rgi = s.rgi := rfl
@[simp] theorem writeOutcome_atc (c : Counter) (o : Option Outcome) : (s.writeOutcome c o).atc = s.atc := rfl
@[simp] theorem writeOutcome_pending (c : Counter) (o : Option Outcome) : (s.writeOutcome c o).pending = s.pending := rfl

/-! ### storeOutcome -/

@[simp] theorem storeOutcome_adir (c : Counter) (o : Outcome) : (s.storeOutcome c o).adir = s.adir := by
  unfold State.storeOutcome; try dsimp only
  (repeat' split) <;> first | rfl | simp | simp [watchFloat, watchMonth]
@[simp] theorem storeOutcome_tfu (c : Counter) (o : Outcome) : (s.storeOutcome c o).tfu = s.tfu := by
  unfold State.storeOutcome; try dsimp only
  (repeat' split) <;> first | rfl | simp | simp [watchFloat, watchMonth]
@[simp] theorem storeOutcome_flu (c : Counter) (o : Outcome) : (s.storeOutcome c o).flu = s.flu := by
  unfold State.storeOutcome; try dsimp only
  (repeat' split) <;> first | rfl | simp | simp [watchFloat, watchMonth]
@[simp] theorem storeOutcome_tke (c : Counter) (o : Outcome) : (s.storeOutcome c o).tke = s.tke := by
  unfold State.storeOutcome; try dsimp only
  (repeat' split) <;> first | rfl | simp | simp [watchFloat, watchMonth]
@[simp] theorem storeOutcome_vnc (c : Counter) (o : Outcome) : (s.storeOutcome c o).vnc = s.vnc := by
  unfold State.storeOutcome; try dsimp only
  (repeat' split) <;> first | rfl | simp | simp [watchFloat, watchMonth]
@[simp] theorem storeOutcome_ulc (c : Counter) (o : Outcome) : (s.storeOutcome c o).ulc = s.ulc := by
  unfold State.storeOutcome; try dsimp only
  (repeat' split) <;> first | rfl | simp | simp [watchFloat, watchMonth]
@[simp] theorem storeOutcome_rgi (c : Counter) (o : Outcome) : (s.storeOutcome c o).rgi = s.rgi := by
  unfold State.storeOutcome; try dsimp only
  (repeat' split) <;> first | rfl | simp | simp [watchFloat, watchMonth]
@[simp] theorem storeOutcome_pending (c : Counter) (o : Outcome) : (s.storeOutcome c o).pending = s.pending := by
  unfold State.storeOutcome; try dsimp only
  (repeat' split) <;> first | rfl | simp | simp [watchFloat, watchMonth]

/-! ### drawerOpening -/

@[simp] theorem drawerOpening_adir (c : Counter) : (s.drawerOpening c).adir = s.adir := by
  unfold State.drawerOpening; try dsimp only
  (repeat' split) <;> first | rfl | simp | simp [watchFloat, watchMonth]
@[simp] theorem drawerOpening_tfu (c : Counter) : (s.drawerOpening c).tfu = s.tfu := by
  unfold State.drawerOpening; try dsimp only
  (repeat' split) <;> first | rfl | simp | simp [watchFloat, watchMonth]
@[simp] theorem drawerOpening_flu (c : Counter) : (s.drawerOpening c).flu = s.flu := by
  unfold State.drawerOpening; try dsimp only
  (repeat' split) <;> first | rfl | simp | simp [watchFloat, watchMonth]
@[simp] theorem drawerOpening_tke (c : Counter) : (s.drawerOpening c).tke = s.tke := by
  unfold State.drawerOpening; try dsimp only
  (repeat' split) <;> first | rfl | simp | simp [watchFloat, watchMonth]
@[simp] theorem drawerOpening_vnc (c : Counter) : (s.drawerOpening c).vnc = s.vnc := by
  unfold State.drawerOpening; try dsimp only
  (repeat' split) <;> first | rfl | simp | simp [watchFloat, watchMonth]
@[simp] theorem drawerOpening_ulc (c : Counter) : (s.drawerOpening c).ulc = s.ulc := by
  unfold State.drawerOpening; try dsimp only
  (repeat' split) <;> first | rfl | simp | simp [watchFloat, watchMonth]
@[simp] theorem drawerOpening_rgi (c : Counter) : (s.drawerOpening c).rgi = s.rgi := by
  unfold State.drawerOpening; try dsimp only
  (repeat' split) <;> first | rfl | simp | simp [watchFloat, watchMonth]
@[simp] theorem drawerOpening_pending (c : Counter) : (s.drawerOpening c).pending = s.pending := by
  unfold State.drawerOpening; try dsimp only
  (repeat' split) <;> first | rfl | simp | simp [watchFloat, watchMonth]

/-! ### drawerClosing -/

@[simp] theorem drawerClosing_adir (c : Counter) : (s.drawerClosing c).adir = s.adir := by
  unfold State.drawerClosing; try dsimp only
  (repeat' split) <;> first | rfl | simp | simp [watchFloat, watchMonth]
@[simp] theorem drawerClosing_tfu (c : Counter) : (s.drawerClosing c).tfu = s.tfu := by
  unfold State.drawerClosing; try dsimp only
  (repeat' split) <;> first | rfl | simp | simp [watchFloat, watchMonth]
@[simp] theorem drawerClosing_flu (c : Counter) : (s.drawerClosing c).flu = s.flu := by
  unfold State.drawerClosing; try dsimp only
  (repeat' split) <;> first | rfl | simp | simp [watchFloat, watchMonth]
@[simp] theorem drawerClosing_tke (c : Counter) : (s.drawerClosing c).tke = s.tke := by
  unfold State.drawerClosing; try dsimp only
  (repeat' split) <;> first | rfl | simp | simp [watchFloat, watchMonth]
@[simp] theorem drawerClosing_vnc (c : Counter) : (s.drawerClosing c).vnc = s.vnc := by
  unfold State.drawerClosing; try dsimp only
  (repeat' split) <;> first | rfl | simp | simp [watchFloat, watchMonth]
@[simp] theorem drawerClosing_ulc (c : Counter) : (s.drawerClosing c).ulc = s.ulc := by
  unfold State.drawerClosing; try dsimp only
  (repeat' split) <;> first | rfl | simp | simp [watchFloat, watchMonth]
@[simp] theorem drawerClosing_rgi (c : Counter) : (s.drawerClosing c).rgi = s.rgi := by
  unfold State.drawerClosing; try dsimp only
  (repeat' split) <;> first | rfl | simp | simp [watchFloat, watchMonth]
@[simp] theorem drawerClosing_atc (c : Counter) : (s.drawerClosing c).atc = s.atc := by
  unfold State.drawerClosing; try dsimp only
  (repeat' split) <;> first | rfl | simp | simp [watchFloat, watchMonth]
@[simp] theorem drawerClosing_pending (c : Counter) : (s.drawerClosing c).pending = s.pending := by
  unfold State.drawerClosing; try dsimp only
  (repeat' split) <;> first | rfl | simp | simp [watchFloat, watchMonth]

/-! ### countLevel -/

@[simp] theorem countLevel_adir (c : Counter) : (s.countLevel c).adir = s.adir := by
  unfold State.countLevel; try dsimp only
  (repeat' split) <;> first | rfl | simp | simp [watchFloat, watchMonth]
@[simp] theorem countLevel_tfu (c : Counter) : (s.countLevel c).tfu = s.tfu := by
  unfold State.countLevel; try dsimp only
  (repeat' split) <;> first | rfl | simp | simp [watchFloat, watchMonth]
@[simp] theorem countLevel_flu (c : Counter) : (s.countLevel c).flu = s.flu := by
  unfold State.countLevel; try dsimp only
  (repeat' split) <;> first | rfl | simp | simp [watchFloat, watchMonth]
@[simp] theorem countLevel_tke (c : Counter) : (s.countLevel c).tke = s.tke := by
  unfold State.countLevel; try dsimp only
  (repeat' split) <;> first | rfl | simp | simp [watchFloat, watchMonth]
@[simp] theorem countLevel_vnc (c : Counter) : (s.countLevel c).vnc = s.vnc := by
  unfold State.countLevel; try dsimp only
  (repeat' split) <;> first | rfl | simp | simp [watchFloat, watchMonth]
@[simp] theorem countLevel_ulc (c : Counter) : (s.countLevel c).ulc = s.ulc := by
  unfold State.countLevel; try dsimp only
  (repeat' split) <;> first | rfl | simp | simp [watchFloat, watchMonth]
@[simp] theorem countLevel_rgi (c : Counter) : (s.countLevel c).rgi = s.rgi := by
  unfold State.countLevel; try dsimp only
  (repeat' split) <;> first | rfl | simp | simp [watchFloat, watchMonth]
@[simp] theorem countLevel_pending (c : Counter) : (s.countLevel c).pending = s.pending := by
  unfold State.countLevel; try dsimp only
  (repeat' split) <;> first | rfl | simp | simp [watchFloat, watchMonth]

/-! ### finish -/

@[simp] theorem finish_adir (h : Holder) : (s.finish h).adir = s.adir := by
  unfold State.finish; try dsimp only
  (repeat' split) <;> first | rfl | simp | simp [watchFloat, watchMonth]
@[simp] theorem finish_tfu (h : Holder) : (s.finish h).tfu = s.tfu := by
  unfold State.finish; try dsimp only
  (repeat' split) <;> first | rfl | simp | simp [watchFloat, watchMonth]
@[simp] theorem finish_flu (h : Holder) : (s.finish h).flu = s.flu := by
  unfold State.finish; try dsimp only
  (repeat' split) <;> first | rfl | simp | simp [watchFloat, watchMonth]
@[simp] theorem finish_tke (h : Holder) : (s.finish h).tke = s.tke := by
  unfold State.finish; try dsimp only
  (repeat' split) <;> first | rfl | simp | simp [watchFloat, watchMonth]
@[simp] theorem finish_tlu (h : Holder) : (s.finish h).tlu = s.tlu := by
  unfold State.finish; try dsimp only
  (repeat' split) <;> first | rfl | simp | simp [watchFloat, watchMonth]
@[simp] theorem finish_ulc (h : Holder) : (s.finish h).ulc = s.ulc := by
  unfold State.finish; try dsimp only
  (repeat' split) <;> first | rfl | simp | simp [watchFloat, watchMonth]
@[simp] theorem finish_rgi (h : Holder) : (s.finish h).rgi = s.rgi := by
  unfold State.finish; try dsimp only
  (repeat' split) <;> first | rfl | simp | simp [watchFloat, watchMonth]
@[simp] theorem finish_atc (h : Holder) : (s.finish h).atc = s.atc := by
  unfold State.finish; try dsimp only
  (repeat' split) <;> first | rfl | simp | simp [watchFloat, watchMonth]
@[simp] theorem finish_pending (h : Holder) : (s.finish h).pending = s.pending := by
  unfold State.finish; try dsimp only
  (repeat' split) <;> first | rfl | simp | simp [watchFloat, watchMonth]

/-! ### ctxUndelivered -/

@[simp] theorem ctxUndelivered_adir (h : Holder) : (s.ctxUndelivered h).adir = s.adir := by
  unfold State.ctxUndelivered; try dsimp only
  (repeat' split) <;> first | rfl | simp | simp [watchFloat, watchMonth]
@[simp] theorem ctxUndelivered_tfu (h : Holder) : (s.ctxUndelivered h).tfu = s.tfu := by
  unfold State.ctxUndelivered; try dsimp only
  (repeat' split) <;> first | rfl | simp | simp [watchFloat, watchMonth]
@[simp] theorem ctxUndelivered_flu (h : Holder) : (s.ctxUndelivered h).flu = s.flu := by
  unfold State.ctxUndelivered; try dsimp only
  (repeat' split) <;> first | rfl | simp | simp [watchFloat, watchMonth]
@[simp] theorem ctxUndelivered_tke (h : Holder) : (s.ctxUndelivered h).tke = s.tke := by
  unfold State.ctxUndelivered; try dsimp only
  (repeat' split) <;> first | rfl | simp | simp [watchFloat, watchMonth]
@[simp] theorem ctxUndelivered_ulc (h : Holder) : (s.ctxUndelivered h).ulc = s.ulc := by
  unfold State.ctxUndelivered; try dsimp only
  (repeat' split) <;> first | rfl | simp | simp [watchFloat, watchMonth]
@[simp] theorem ctxUndelivered_rgi (h : Holder) : (s.ctxUndelivered h).rgi = s.rgi := by
  unfold State.ctxUndelivered; try dsimp only
  (repeat' split) <;> first | rfl | simp | simp [watchFloat, watchMonth]
@[simp] theorem ctxUndelivered_pending (h : Holder) : (s.ctxUndelivered h).pending = s.pending := by
  unfold State.ctxUndelivered; try dsimp only
  (repeat' split) <;> first | rfl | simp | simp [watchFloat, watchMonth]

/-! ### closeDone -/

@[simp] theorem closeDone_adir (c : Counter) : (s.closeDone c).adir = s.adir := rfl
@[simp] theorem closeDone_tfu (c : Counter) : (s.closeDone c).tfu = s.tfu := rfl
@[simp] theorem closeDone_flu (c : Counter) : (s.closeDone c).flu = s.flu := rfl
@[simp] theorem closeDone_tke (c : Counter) : (s.closeDone c).tke = s.tke := rfl
@[simp] theorem closeDone_vnc (c : Counter) : (s.closeDone c).vnc = s.vnc := rfl
@[simp] theorem closeDone_ulc (c : Counter) : (s.closeDone c).ulc = s.ulc := rfl
@[simp] theorem closeDone_rgi (c : Counter) : (s.closeDone c).rgi = s.rgi := rfl
@[simp] theorem closeDone_atc (c : Counter) : (s.closeDone c).atc = s.atc := rfl
@[simp] theorem closeDone_pending (c : Counter) : (s.closeDone c).pending = s.pending := rfl

/-! ### undeliver -/

@[simp] theorem undeliver_adir (r : Holder) (o : ReplyOwner) : (s.undeliver r o).adir = s.adir := by
  unfold State.undeliver; try dsimp only
  (repeat' split) <;> first | rfl | simp | simp [watchFloat, watchMonth]
@[simp] theorem undeliver_tfu (r : Holder) (o : ReplyOwner) : (s.undeliver r o).tfu = s.tfu := by
  unfold State.undeliver; try dsimp only
  (repeat' split) <;> first | rfl | simp | simp [watchFloat, watchMonth]
@[simp] theorem undeliver_flu (r : Holder) (o : ReplyOwner) : (s.undeliver r o).flu = s.flu := by
  unfold State.undeliver; try dsimp only
  (repeat' split) <;> first | rfl | simp | simp [watchFloat, watchMonth]
@[simp] theorem undeliver_tke (r : Holder) (o : ReplyOwner) : (s.undeliver r o).tke = s.tke := by
  unfold State.undeliver; try dsimp only
  (repeat' split) <;> first | rfl | simp | simp [watchFloat, watchMonth]
@[simp] theorem undeliver_ulc (r : Holder) (o : ReplyOwner) : (s.undeliver r o).ulc = s.ulc := by
  unfold State.undeliver; try dsimp only
  (repeat' split) <;> first | rfl | simp | simp [watchFloat, watchMonth]
@[simp] theorem undeliver_rgi (r : Holder) (o : ReplyOwner) : (s.undeliver r o).rgi = s.rgi := by
  unfold State.undeliver; try dsimp only
  (repeat' split) <;> first | rfl | simp | simp [watchFloat, watchMonth]
@[simp] theorem undeliver_pending (r : Holder) (o : ReplyOwner) : (s.undeliver r o).pending = s.pending := by
  unfold State.undeliver; try dsimp only
  (repeat' split) <;> first | rfl | simp | simp [watchFloat, watchMonth]

/-! ### delivered -/

@[simp] theorem delivered_adir (r : Holder) (o : ReplyOwner) : (s.delivered r o).adir = s.adir := by
  unfold State.delivered; try dsimp only
  (repeat' split) <;> first | rfl | simp | simp [watchFloat, watchMonth]
@[simp] theorem delivered_tfu (r : Holder) (o : ReplyOwner) : (s.delivered r o).tfu = s.tfu := by
  unfold State.delivered; try dsimp only
  (repeat' split) <;> first | rfl | simp | simp [watchFloat, watchMonth]
@[simp] theorem delivered_flu (r : Holder) (o : ReplyOwner) : (s.delivered r o).flu = s.flu := by
  unfold State.delivered; try dsimp only
  (repeat' split) <;> first | rfl | simp | simp [watchFloat, watchMonth]
@[simp] theorem delivered_tke (r : Holder) (o : ReplyOwner) : (s.delivered r o).tke = s.tke := by
  unfold State.delivered; try dsimp only
  (repeat' split) <;> first | rfl | simp | simp [watchFloat, watchMonth]
/-- A reply written changes nothing of ULC, but that an outcome's removal is not yet told (R145). -/
theorem delivered_ulc (r : Holder) (o : ReplyOwner) :
    (s.delivered r o).ulc = { s.ulc with noneTold := (s.delivered r o).ulc.noneTold } := by
  unfold State.delivered; try dsimp only
  (repeat' split) <;> first | rfl | simp | simp [watchFloat, watchMonth]
@[simp] theorem delivered_rgi (r : Holder) (o : ReplyOwner) : (s.delivered r o).rgi = s.rgi := by
  unfold State.delivered; try dsimp only
  (repeat' split) <;> first | rfl | simp | simp [watchFloat, watchMonth]
@[simp] theorem delivered_pending (r : Holder) (o : ReplyOwner) : (s.delivered r o).pending = s.pending := by
  unfold State.delivered; try dsimp only
  (repeat' split) <;> first | rfl | simp | simp [watchFloat, watchMonth]

/-! ### enterStopped -/

@[simp] theorem enterStopped_adir : (s.enterStopped).adir = s.adir := rfl
@[simp] theorem enterStopped_tfu : (s.enterStopped).tfu = s.tfu := rfl
@[simp] theorem enterStopped_flu : (s.enterStopped).flu = s.flu := rfl
@[simp] theorem enterStopped_tke : (s.enterStopped).tke = s.tke := rfl
@[simp] theorem enterStopped_vnc : (s.enterStopped).vnc = s.vnc := rfl
@[simp] theorem enterStopped_tlu : (s.enterStopped).tlu = s.tlu := rfl
@[simp] theorem enterStopped_ulc : (s.enterStopped).ulc = s.ulc := rfl
@[simp] theorem enterStopped_pending : (s.enterStopped).pending = s.pending := rfl

/-! ### checkStopping -/

@[simp] theorem checkStopping_adir : (s.checkStopping).adir = s.adir := by
  unfold State.checkStopping; try dsimp only
  (repeat' split) <;> first | rfl | simp | simp [watchFloat, watchMonth]
@[simp] theorem checkStopping_tfu : (s.checkStopping).tfu = s.tfu := by
  unfold State.checkStopping; try dsimp only
  (repeat' split) <;> first | rfl | simp | simp [watchFloat, watchMonth]
@[simp] theorem checkStopping_flu : (s.checkStopping).flu = s.flu := by
  unfold State.checkStopping; try dsimp only
  (repeat' split) <;> first | rfl | simp | simp [watchFloat, watchMonth]
@[simp] theorem checkStopping_tke : (s.checkStopping).tke = s.tke := by
  unfold State.checkStopping; try dsimp only
  (repeat' split) <;> first | rfl | simp | simp [watchFloat, watchMonth]
@[simp] theorem checkStopping_vnc : (s.checkStopping).vnc = s.vnc := by
  unfold State.checkStopping; try dsimp only
  (repeat' split) <;> first | rfl | simp | simp [watchFloat, watchMonth]
@[simp] theorem checkStopping_tlu : (s.checkStopping).tlu = s.tlu := by
  unfold State.checkStopping; try dsimp only
  (repeat' split) <;> first | rfl | simp | simp [watchFloat, watchMonth]
@[simp] theorem checkStopping_ulc : (s.checkStopping).ulc = s.ulc := by
  unfold State.checkStopping; try dsimp only
  (repeat' split) <;> first | rfl | simp | simp [watchFloat, watchMonth]
@[simp] theorem checkStopping_pending : (s.checkStopping).pending = s.pending := by
  unfold State.checkStopping; try dsimp only
  (repeat' split) <;> first | rfl | simp | simp [watchFloat, watchMonth]

/-! ### endService -/

@[simp] theorem endService_adir (h : Holder) : (s.endService h).adir = s.adir := rfl
@[simp] theorem endService_tfu (h : Holder) : (s.endService h).tfu = s.tfu := rfl
@[simp] theorem endService_flu (h : Holder) : (s.endService h).flu = s.flu := rfl
@[simp] theorem endService_tke (h : Holder) : (s.endService h).tke = s.tke := rfl
@[simp] theorem endService_vnc (h : Holder) : (s.endService h).vnc = s.vnc := rfl
@[simp] theorem endService_tlu (h : Holder) : (s.endService h).tlu = s.tlu := rfl
@[simp] theorem endService_ulc (h : Holder) : (s.endService h).ulc = s.ulc := rfl
@[simp] theorem endService_atc (h : Holder) : (s.endService h).atc = s.atc := rfl
@[simp] theorem endService_pending (h : Holder) : (s.endService h).pending = s.pending := rfl

/-! ### failAccess -/

@[simp] theorem failAccess_adir (r : Holder) : (s.failAccess r).adir = s.adir := by
  unfold State.failAccess; try dsimp only
  (repeat' split) <;> first | rfl | simp | simp [watchFloat, watchMonth]
@[simp] theorem failAccess_tfu (r : Holder) : (s.failAccess r).tfu = s.tfu := by
  unfold State.failAccess; try dsimp only
  (repeat' split) <;> first | rfl | simp | simp [watchFloat, watchMonth]
@[simp] theorem failAccess_flu (r : Holder) : (s.failAccess r).flu = s.flu := by
  unfold State.failAccess; try dsimp only
  (repeat' split) <;> first | rfl | simp | simp [watchFloat, watchMonth]
@[simp] theorem failAccess_tke (r : Holder) : (s.failAccess r).tke = s.tke := by
  unfold State.failAccess; try dsimp only
  (repeat' split) <;> first | rfl | simp | simp [watchFloat, watchMonth]
@[simp] theorem failAccess_ulc (r : Holder) : (s.failAccess r).ulc = s.ulc := by
  unfold State.failAccess; try dsimp only
  (repeat' split) <;> first | rfl | simp | simp [watchFloat, watchMonth]
@[simp] theorem failAccess_pending (r : Holder) : (s.failAccess r).pending = s.pending := by
  unfold State.failAccess; try dsimp only
  (repeat' split) <;> first | rfl | simp | simp [watchFloat, watchMonth]

/-! ### access -/

@[simp] theorem access_adir (r : Holder) (a : Access) : (s.access r a).adir = s.adir := by
  unfold State.access; try dsimp only
  (repeat' split) <;> first | rfl | simp | simp [watchFloat, watchMonth]
@[simp] theorem access_tfu (r : Holder) (a : Access) : (s.access r a).tfu = s.tfu := by
  unfold State.access; try dsimp only
  (repeat' split) <;> first | rfl | simp | simp [watchFloat, watchMonth]
@[simp] theorem access_flu (r : Holder) (a : Access) : (s.access r a).flu = s.flu := by
  unfold State.access; try dsimp only
  (repeat' split) <;> first | rfl | simp | simp [watchFloat, watchMonth]
@[simp] theorem access_tke (r : Holder) (a : Access) : (s.access r a).tke = s.tke := by
  unfold State.access; try dsimp only
  (repeat' split) <;> first | rfl | simp | simp [watchFloat, watchMonth]
@[simp] theorem access_ulc (r : Holder) (a : Access) : (s.access r a).ulc = s.ulc := by
  unfold State.access; try dsimp only
  (repeat' split) <;> first | rfl | simp | simp [watchFloat, watchMonth]
@[simp] theorem access_pending (r : Holder) (a : Access) : (s.access r a).pending = s.pending := by
  unfold State.access; try dsimp only
  (repeat' split) <;> first | rfl | simp | simp [watchFloat, watchMonth]

/-! ### lookAt -/

@[simp] theorem lookAt_adir (h : Holder) : (State.lookAt h s).adir = s.adir := by
  unfold State.lookAt; try dsimp only
  (repeat' split) <;> first | rfl | simp | simp [watchFloat, watchMonth]
@[simp] theorem lookAt_tfu (h : Holder) : (State.lookAt h s).tfu = s.tfu := by
  unfold State.lookAt; try dsimp only
  (repeat' split) <;> first | rfl | simp | simp [watchFloat, watchMonth]
@[simp] theorem lookAt_flu (h : Holder) : (State.lookAt h s).flu = s.flu := by
  unfold State.lookAt; try dsimp only
  (repeat' split) <;> first | rfl | simp | simp [watchFloat, watchMonth]
@[simp] theorem lookAt_tke (h : Holder) : (State.lookAt h s).tke = s.tke := by
  unfold State.lookAt; try dsimp only
  (repeat' split) <;> first | rfl | simp | simp [watchFloat, watchMonth]
@[simp] theorem lookAt_ulc (h : Holder) : (State.lookAt h s).ulc = s.ulc := by
  unfold State.lookAt; try dsimp only
  (repeat' split) <;> first | rfl | simp | simp [watchFloat, watchMonth]
@[simp] theorem lookAt_pending (h : Holder) : (State.lookAt h s).pending = s.pending := by
  unfold State.lookAt; try dsimp only
  (repeat' split) <;> first | rfl | simp | simp [watchFloat, watchMonth]

/-! ### popBus -/

@[simp] theorem popBus_adir : (s.popBus).adir = s.adir := rfl
@[simp] theorem popBus_tfu : (s.popBus).tfu = s.tfu := rfl
@[simp] theorem popBus_flu : (s.popBus).flu = s.flu := rfl
@[simp] theorem popBus_tke : (s.popBus).tke = s.tke := rfl
@[simp] theorem popBus_vnc : (s.popBus).vnc = s.vnc := rfl
@[simp] theorem popBus_tlu : (s.popBus).tlu = s.tlu := rfl
@[simp] theorem popBus_ulc : (s.popBus).ulc = s.ulc := rfl
@[simp] theorem popBus_atc : (s.popBus).atc = s.atc := rfl
@[simp] theorem popBus_pending : (s.popBus).pending = s.pending := rfl

/-! ### putReply -/

@[simp] theorem putReply_adir (r : Holder) (o : ReplyOwner) (y : Reply) : (s.putReply r o y).adir = s.adir := by
  unfold State.putReply; try dsimp only
  (repeat' split) <;> first | rfl | simp | simp [watchFloat, watchMonth]
@[simp] theorem putReply_tfu (r : Holder) (o : ReplyOwner) (y : Reply) : (s.putReply r o y).tfu = s.tfu := by
  unfold State.putReply; try dsimp only
  (repeat' split) <;> first | rfl | simp | simp [watchFloat, watchMonth]
@[simp] theorem putReply_flu (r : Holder) (o : ReplyOwner) (y : Reply) : (s.putReply r o y).flu = s.flu := by
  unfold State.putReply; try dsimp only
  (repeat' split) <;> first | rfl | simp | simp [watchFloat, watchMonth]
@[simp] theorem putReply_tke (r : Holder) (o : ReplyOwner) (y : Reply) : (s.putReply r o y).tke = s.tke := by
  unfold State.putReply; try dsimp only
  (repeat' split) <;> first | rfl | simp | simp [watchFloat, watchMonth]
@[simp] theorem putReply_ulc (r : Holder) (o : ReplyOwner) (y : Reply) : (s.putReply r o y).ulc = s.ulc := by
  unfold State.putReply; try dsimp only
  (repeat' split) <;> first | rfl | simp | simp [watchFloat, watchMonth]
@[simp] theorem putReply_pending (r : Holder) (o : ReplyOwner) (y : Reply) : (s.putReply r o y).pending = s.pending := by
  unfold State.putReply; try dsimp only
  (repeat' split) <;> first | rfl | simp | simp [watchFloat, watchMonth]

/-! ### taken -/

@[simp] theorem taken_adir (q : Request) (b : Bool) : (s.taken q b).adir = s.adir := by
  unfold State.taken; try dsimp only
  (repeat' split) <;> first | rfl | simp | simp [watchFloat, watchMonth]
@[simp] theorem taken_tfu (q : Request) (b : Bool) : (s.taken q b).tfu = s.tfu := by
  unfold State.taken; try dsimp only
  (repeat' split) <;> first | rfl | simp | simp [watchFloat, watchMonth]
@[simp] theorem taken_flu (q : Request) (b : Bool) : (s.taken q b).flu = s.flu := by
  unfold State.taken; try dsimp only
  (repeat' split) <;> first | rfl | simp | simp [watchFloat, watchMonth]
@[simp] theorem taken_tke (q : Request) (b : Bool) : (s.taken q b).tke = s.tke := by
  unfold State.taken; try dsimp only
  (repeat' split) <;> first | rfl | simp | simp [watchFloat, watchMonth]
@[simp] theorem taken_vnc (q : Request) (b : Bool) : (s.taken q b).vnc = s.vnc := by
  unfold State.taken; try dsimp only
  (repeat' split) <;> first | rfl | simp | simp [watchFloat, watchMonth]
@[simp] theorem taken_tlu (q : Request) (b : Bool) : (s.taken q b).tlu = s.tlu := by
  unfold State.taken; try dsimp only
  (repeat' split) <;> first | rfl | simp | simp [watchFloat, watchMonth]
@[simp] theorem taken_ulc (q : Request) (b : Bool) : (s.taken q b).ulc = s.ulc := by
  unfold State.taken; try dsimp only
  (repeat' split) <;> first | rfl | simp | simp [watchFloat, watchMonth]
@[simp] theorem taken_atc (q : Request) (b : Bool) : (s.taken q b).atc = s.atc := by
  unfold State.taken; try dsimp only
  (repeat' split) <;> first | rfl | simp | simp [watchFloat, watchMonth]
@[simp] theorem taken_pending (q : Request) (b : Bool) : (s.taken q b).pending = s.pending := by
  unfold State.taken; try dsimp only
  (repeat' split) <;> first | rfl | simp | simp [watchFloat, watchMonth]

/-! ### answerRequest -/

@[simp] theorem answerRequest_adir (q : Request) (b : Bool) (o : ReplyOwner) (y : Reply) : (s.answerRequest q b o y).adir = s.adir := by
  unfold State.answerRequest; try dsimp only
  (repeat' split) <;> first | rfl | simp | simp [watchFloat, watchMonth]
@[simp] theorem answerRequest_tfu (q : Request) (b : Bool) (o : ReplyOwner) (y : Reply) : (s.answerRequest q b o y).tfu = s.tfu := by
  unfold State.answerRequest; try dsimp only
  (repeat' split) <;> first | rfl | simp | simp [watchFloat, watchMonth]
@[simp] theorem answerRequest_flu (q : Request) (b : Bool) (o : ReplyOwner) (y : Reply) : (s.answerRequest q b o y).flu = s.flu := by
  unfold State.answerRequest; try dsimp only
  (repeat' split) <;> first | rfl | simp | simp [watchFloat, watchMonth]
@[simp] theorem answerRequest_tke (q : Request) (b : Bool) (o : ReplyOwner) (y : Reply) : (s.answerRequest q b o y).tke = s.tke := by
  unfold State.answerRequest; try dsimp only
  (repeat' split) <;> first | rfl | simp | simp [watchFloat, watchMonth]
@[simp] theorem answerRequest_ulc (q : Request) (b : Bool) (o : ReplyOwner) (y : Reply) : (s.answerRequest q b o y).ulc = s.ulc := by
  unfold State.answerRequest; try dsimp only
  (repeat' split) <;> first | rfl | simp | simp [watchFloat, watchMonth]
@[simp] theorem answerRequest_pending (q : Request) (b : Bool) (o : ReplyOwner) (y : Reply) : (s.answerRequest q b o y).pending = s.pending := by
  unfold State.answerRequest; try dsimp only
  (repeat' split) <;> first | rfl | simp | simp [watchFloat, watchMonth]

/-! ### detach -/

@[simp] theorem detach_adir (h : Holder) : (State.detach h s).adir = s.adir := by
  unfold State.detach; try dsimp only
  (repeat' split) <;> first | rfl | simp | simp [watchFloat, watchMonth]
@[simp] theorem detach_tfu (h : Holder) : (State.detach h s).tfu = s.tfu := by
  unfold State.detach; try dsimp only
  (repeat' split) <;> first | rfl | simp | simp [watchFloat, watchMonth]
@[simp] theorem detach_flu (h : Holder) : (State.detach h s).flu = s.flu := by
  unfold State.detach; try dsimp only
  (repeat' split) <;> first | rfl | simp | simp [watchFloat, watchMonth]
@[simp] theorem detach_tke (h : Holder) : (State.detach h s).tke = s.tke := by
  unfold State.detach; try dsimp only
  (repeat' split) <;> first | rfl | simp | simp [watchFloat, watchMonth]
@[simp] theorem detach_ulc (h : Holder) : (State.detach h s).ulc = s.ulc := by
  unfold State.detach; try dsimp only
  (repeat' split) <;> first | rfl | simp | simp [watchFloat, watchMonth]
@[simp] theorem detach_pending (h : Holder) : (State.detach h s).pending = s.pending := by
  unfold State.detach; try dsimp only
  (repeat' split) <;> first | rfl | simp | simp [watchFloat, watchMonth]

/-! ### stopPolls -/

@[simp] theorem stopPolls_adir : (s.stopPolls).adir = s.adir := rfl
@[simp] theorem stopPolls_tfu : (s.stopPolls).tfu = s.tfu := rfl
@[simp] theorem stopPolls_flu : (s.stopPolls).flu = s.flu := rfl
@[simp] theorem stopPolls_tke : (s.stopPolls).tke = s.tke := rfl
@[simp] theorem stopPolls_vnc : (s.stopPolls).vnc = s.vnc := rfl
@[simp] theorem stopPolls_tlu : (s.stopPolls).tlu = s.tlu := rfl
@[simp] theorem stopPolls_ulc : (s.stopPolls).ulc = s.ulc := rfl
@[simp] theorem stopPolls_atc : (s.stopPolls).atc = s.atc := rfl
@[simp] theorem stopPolls_pending : (s.stopPolls).pending = s.pending := rfl

/-! ### applyLook -/

@[simp] theorem applyLook_adir : (s.applyLook).adir = s.adir := by
  unfold State.applyLook; try dsimp only
  (repeat' split) <;> first | rfl | simp | simp [watchFloat, watchMonth]
@[simp] theorem applyLook_flu : (s.applyLook).flu = s.flu := by
  unfold State.applyLook; try dsimp only
  (repeat' split) <;> first | rfl | simp | simp [watchFloat, watchMonth]
@[simp] theorem applyLook_tke : (s.applyLook).tke = s.tke := by
  unfold State.applyLook; try dsimp only
  (repeat' split) <;> first | rfl | simp | simp [watchFloat, watchMonth]
@[simp] theorem applyLook_vnc : (s.applyLook).vnc = s.vnc := by
  unfold State.applyLook; try dsimp only
  (repeat' split) <;> first | rfl | simp | simp [watchFloat, watchMonth]
@[simp] theorem applyLook_tlu : (s.applyLook).tlu = s.tlu := by
  unfold State.applyLook; try dsimp only
  (repeat' split) <;> first | rfl | simp | simp [watchFloat, watchMonth]
@[simp] theorem applyLook_ulc : (s.applyLook).ulc = s.ulc := by
  unfold State.applyLook; try dsimp only
  (repeat' split) <;> first | rfl | simp | simp [watchFloat, watchMonth]
@[simp] theorem applyLook_rgi : (s.applyLook).rgi = s.rgi := by
  unfold State.applyLook; try dsimp only
  (repeat' split) <;> first | rfl | simp | simp [watchFloat, watchMonth]
@[simp] theorem applyLook_pending : (s.applyLook).pending = s.pending := by
  unfold State.applyLook; try dsimp only
  (repeat' split) <;> first | rfl | simp | simp [watchFloat, watchMonth]

/-! ### rolloverLook -/

@[simp] theorem rolloverLook_adir : (s.rolloverLook).adir = s.adir := by
  unfold State.rolloverLook; try dsimp only
  (repeat' split) <;> first | rfl | simp | simp [watchFloat, watchMonth]
@[simp] theorem rolloverLook_flu : (s.rolloverLook).flu = s.flu := by
  unfold State.rolloverLook; try dsimp only
  (repeat' split) <;> first | rfl | simp | simp [watchFloat, watchMonth]
@[simp] theorem rolloverLook_tke : (s.rolloverLook).tke = s.tke := by
  unfold State.rolloverLook; try dsimp only
  (repeat' split) <;> first | rfl | simp | simp [watchFloat, watchMonth]
@[simp] theorem rolloverLook_vnc : (s.rolloverLook).vnc = s.vnc := by
  unfold State.rolloverLook; try dsimp only
  (repeat' split) <;> first | rfl | simp | simp [watchFloat, watchMonth]
@[simp] theorem rolloverLook_tlu : (s.rolloverLook).tlu = s.tlu := by
  unfold State.rolloverLook; try dsimp only
  (repeat' split) <;> first | rfl | simp | simp [watchFloat, watchMonth]
@[simp] theorem rolloverLook_ulc : (s.rolloverLook).ulc = s.ulc := by
  unfold State.rolloverLook; try dsimp only
  (repeat' split) <;> first | rfl | simp | simp [watchFloat, watchMonth]
@[simp] theorem rolloverLook_rgi : (s.rolloverLook).rgi = s.rgi := by
  unfold State.rolloverLook; try dsimp only
  (repeat' split) <;> first | rfl | simp | simp [watchFloat, watchMonth]
@[simp] theorem rolloverLook_atc : (s.rolloverLook).atc = s.atc := by
  unfold State.rolloverLook; try dsimp only
  (repeat' split) <;> first | rfl | simp | simp [watchFloat, watchMonth]
@[simp] theorem rolloverLook_pending : (s.rolloverLook).pending = s.pending := by
  unfold State.rolloverLook; try dsimp only
  (repeat' split) <;> first | rfl | simp | simp [watchFloat, watchMonth]

/-! ### clockEvent -/

@[simp] theorem clockEvent_adir : (s.clockEvent).adir = s.adir := by
  unfold State.clockEvent; try dsimp only
  (repeat' split) <;> first | rfl | simp | simp [watchFloat, watchMonth]
@[simp] theorem clockEvent_flu : (s.clockEvent).flu = s.flu := by
  unfold State.clockEvent; try dsimp only
  (repeat' split) <;> first | rfl | simp | simp [watchFloat, watchMonth]
@[simp] theorem clockEvent_tke : (s.clockEvent).tke = s.tke := by
  unfold State.clockEvent; try dsimp only
  (repeat' split) <;> first | rfl | simp | simp [watchFloat, watchMonth]
@[simp] theorem clockEvent_vnc : (s.clockEvent).vnc = s.vnc := by
  unfold State.clockEvent; try dsimp only
  (repeat' split) <;> first | rfl | simp | simp [watchFloat, watchMonth]
@[simp] theorem clockEvent_tlu : (s.clockEvent).tlu = s.tlu := by
  unfold State.clockEvent; try dsimp only
  (repeat' split) <;> first | rfl | simp | simp [watchFloat, watchMonth]
@[simp] theorem clockEvent_ulc : (s.clockEvent).ulc = s.ulc := by
  unfold State.clockEvent; try dsimp only
  (repeat' split) <;> first | rfl | simp | simp [watchFloat, watchMonth]
@[simp] theorem clockEvent_rgi : (s.clockEvent).rgi = s.rgi := by
  unfold State.clockEvent; try dsimp only
  (repeat' split) <;> first | rfl | simp | simp [watchFloat, watchMonth]
@[simp] theorem clockEvent_pending : (s.clockEvent).pending = s.pending := by
  unfold State.clockEvent; try dsimp only
  (repeat' split) <;> first | rfl | simp | simp [watchFloat, watchMonth]

/-! ### moveClock -/

@[simp] theorem moveClock_adir (f : Tke → Tke) : (moveClock f s).adir = s.adir := by simp [moveClock, watchMonth]
@[simp] theorem moveClock_tke (f : Tke → Tke) : (moveClock f s).tke = f s.tke := by simp [moveClock, watchMonth]
@[simp] theorem moveClock_flu (f : Tke → Tke) : (moveClock f s).flu = s.flu := by simp [moveClock, watchMonth]
@[simp] theorem moveClock_vnc (f : Tke → Tke) : (moveClock f s).vnc = s.vnc := by simp [moveClock, watchMonth]
@[simp] theorem moveClock_tlu (f : Tke → Tke) : (moveClock f s).tlu = s.tlu := by simp [moveClock, watchMonth]
@[simp] theorem moveClock_ulc (f : Tke → Tke) : (moveClock f s).ulc = s.ulc := by simp [moveClock, watchMonth]
@[simp] theorem moveClock_rgi (f : Tke → Tke) : (moveClock f s).rgi = s.rgi := by simp [moveClock, watchMonth]
@[simp] theorem moveClock_pending (f : Tke → Tke) : (moveClock f s).pending = s.pending := by simp [moveClock, watchMonth]

/-! ### startTfu -/

@[simp] theorem startTfu_adir : (s.startTfu).adir = s.adir := by
  unfold State.startTfu; try dsimp only
  (repeat' split) <;> first | rfl | simp | simp [watchFloat, watchMonth]
@[simp] theorem startTfu_flu : (s.startTfu).flu = s.flu := by
  unfold State.startTfu; try dsimp only
  (repeat' split) <;> first | rfl | simp | simp [watchFloat, watchMonth]
@[simp] theorem startTfu_tke : (s.startTfu).tke = s.tke := by
  unfold State.startTfu; try dsimp only
  (repeat' split) <;> first | rfl | simp | simp [watchFloat, watchMonth]
@[simp] theorem startTfu_vnc : (s.startTfu).vnc = s.vnc := by
  unfold State.startTfu; try dsimp only
  (repeat' split) <;> first | rfl | simp | simp [watchFloat, watchMonth]
@[simp] theorem startTfu_tlu : (s.startTfu).tlu = s.tlu := by
  unfold State.startTfu; try dsimp only
  (repeat' split) <;> first | rfl | simp | simp [watchFloat, watchMonth]
@[simp] theorem startTfu_ulc : (s.startTfu).ulc = s.ulc := by
  unfold State.startTfu; try dsimp only
  (repeat' split) <;> first | rfl | simp | simp [watchFloat, watchMonth]
@[simp] theorem startTfu_rgi : (s.startTfu).rgi = s.rgi := by
  unfold State.startTfu; try dsimp only
  (repeat' split) <;> first | rfl | simp | simp [watchFloat, watchMonth]
@[simp] theorem startTfu_pending : (s.startTfu).pending = s.pending := by
  unfold State.startTfu; try dsimp only
  (repeat' split) <;> first | rfl | simp | simp [watchFloat, watchMonth]

/-! ### completeFloat -/

@[simp] theorem completeFloat_adir (k : FloatClaim) : (s.completeFloat k).adir = s.adir := by
  unfold State.completeFloat; try dsimp only
  (repeat' split) <;> first | rfl | simp | simp [watchFloat, watchMonth]
@[simp] theorem completeFloat_tfu (k : FloatClaim) : (s.completeFloat k).tfu = s.tfu := by
  unfold State.completeFloat; try dsimp only
  (repeat' split) <;> first | rfl | simp | simp [watchFloat, watchMonth]
@[simp] theorem completeFloat_tke (k : FloatClaim) : (s.completeFloat k).tke = s.tke := by
  unfold State.completeFloat; try dsimp only
  (repeat' split) <;> first | rfl | simp | simp [watchFloat, watchMonth]
@[simp] theorem completeFloat_vnc (k : FloatClaim) : (s.completeFloat k).vnc = s.vnc := by
  unfold State.completeFloat; try dsimp only
  (repeat' split) <;> first | rfl | simp | simp [watchFloat, watchMonth]
@[simp] theorem completeFloat_tlu (k : FloatClaim) : (s.completeFloat k).tlu = s.tlu := by
  unfold State.completeFloat; try dsimp only
  (repeat' split) <;> first | rfl | simp | simp [watchFloat, watchMonth]
@[simp] theorem completeFloat_ulc (k : FloatClaim) : (s.completeFloat k).ulc = s.ulc := by
  unfold State.completeFloat; try dsimp only
  (repeat' split) <;> first | rfl | simp | simp [watchFloat, watchMonth]
@[simp] theorem completeFloat_rgi (k : FloatClaim) : (s.completeFloat k).rgi = s.rgi := by
  unfold State.completeFloat; try dsimp only
  (repeat' split) <;> first | rfl | simp | simp [watchFloat, watchMonth]
@[simp] theorem completeFloat_pending (k : FloatClaim) : (s.completeFloat k).pending = s.pending := by
  unfold State.completeFloat; try dsimp only
  (repeat' split) <;> first | rfl | simp | simp [watchFloat, watchMonth]

/-! ### endFloatRecovery -/

@[simp] theorem endFloatRecovery_adir : (s.endFloatRecovery).adir = s.adir := by
  unfold State.endFloatRecovery; try dsimp only
  (repeat' split) <;> first | rfl | simp | simp [watchFloat, watchMonth]
@[simp] theorem endFloatRecovery_tfu : (s.endFloatRecovery).tfu = s.tfu := by
  unfold State.endFloatRecovery; try dsimp only
  (repeat' split) <;> first | rfl | simp | simp [watchFloat, watchMonth]
@[simp] theorem endFloatRecovery_tke : (s.endFloatRecovery).tke = s.tke := by
  unfold State.endFloatRecovery; try dsimp only
  (repeat' split) <;> first | rfl | simp | simp [watchFloat, watchMonth]
@[simp] theorem endFloatRecovery_vnc : (s.endFloatRecovery).vnc = s.vnc := by
  unfold State.endFloatRecovery; try dsimp only
  (repeat' split) <;> first | rfl | simp | simp [watchFloat, watchMonth]
@[simp] theorem endFloatRecovery_tlu : (s.endFloatRecovery).tlu = s.tlu := by
  unfold State.endFloatRecovery; try dsimp only
  (repeat' split) <;> first | rfl | simp | simp [watchFloat, watchMonth]
@[simp] theorem endFloatRecovery_ulc : (s.endFloatRecovery).ulc = s.ulc := by
  unfold State.endFloatRecovery; try dsimp only
  (repeat' split) <;> first | rfl | simp | simp [watchFloat, watchMonth]
@[simp] theorem endFloatRecovery_rgi : (s.endFloatRecovery).rgi = s.rgi := by
  unfold State.endFloatRecovery; try dsimp only
  (repeat' split) <;> first | rfl | simp | simp [watchFloat, watchMonth]
@[simp] theorem endFloatRecovery_pending : (s.endFloatRecovery).pending = s.pending := by
  unfold State.endFloatRecovery; try dsimp only
  (repeat' split) <;> first | rfl | simp | simp [watchFloat, watchMonth]

/-! ### ctxReply -/

@[simp] theorem ctxReply_adir (h : Holder) (y : Reply) : (s.ctxReply h y).adir = s.adir := by
  unfold State.ctxReply; try dsimp only
  (repeat' split) <;> first | rfl | simp | simp [watchFloat, watchMonth]
@[simp] theorem ctxReply_tfu (h : Holder) (y : Reply) : (s.ctxReply h y).tfu = s.tfu := by
  unfold State.ctxReply; try dsimp only
  (repeat' split) <;> first | rfl | simp | simp [watchFloat, watchMonth]
@[simp] theorem ctxReply_flu (h : Holder) (y : Reply) : (s.ctxReply h y).flu = s.flu := by
  unfold State.ctxReply; try dsimp only
  (repeat' split) <;> first | rfl | simp | simp [watchFloat, watchMonth]
@[simp] theorem ctxReply_tke (h : Holder) (y : Reply) : (s.ctxReply h y).tke = s.tke := by
  unfold State.ctxReply; try dsimp only
  (repeat' split) <;> first | rfl | simp | simp [watchFloat, watchMonth]
@[simp] theorem ctxReply_ulc (h : Holder) (y : Reply) : (s.ctxReply h y).ulc = s.ulc := by
  unfold State.ctxReply; try dsimp only
  (repeat' split) <;> first | rfl | simp | simp [watchFloat, watchMonth]
@[simp] theorem ctxReply_pending (h : Holder) (y : Reply) : (s.ctxReply h y).pending = s.pending := by
  unfold State.ctxReply; try dsimp only
  (repeat' split) <;> first | rfl | simp | simp [watchFloat, watchMonth]

/-! ### unpark -/

@[simp] theorem unpark_adir (h : Holder) : (s.unpark h).adir = s.adir := rfl
@[simp] theorem unpark_tfu (h : Holder) : (s.unpark h).tfu = s.tfu := rfl
@[simp] theorem unpark_flu (h : Holder) : (s.unpark h).flu = s.flu := rfl
@[simp] theorem unpark_tke (h : Holder) : (s.unpark h).tke = s.tke := rfl
@[simp] theorem unpark_tlu (h : Holder) : (s.unpark h).tlu = s.tlu := rfl
@[simp] theorem unpark_ulc (h : Holder) : (s.unpark h).ulc = s.ulc := rfl
@[simp] theorem unpark_rgi (h : Holder) : (s.unpark h).rgi = s.rgi := rfl
@[simp] theorem unpark_atc (h : Holder) : (s.unpark h).atc = s.atc := rfl
@[simp] theorem unpark_pending (h : Holder) : (s.unpark h).pending = s.pending := rfl

/-! ### handOver -/

@[simp] theorem handOver_tfu (n : Nat) (r : MeterRecord) (h : Holder) (e : ParkEntry) : (s.handOver n r h e).tfu = s.tfu := rfl
@[simp] theorem handOver_flu (n : Nat) (r : MeterRecord) (h : Holder) (e : ParkEntry) : (s.handOver n r h e).flu = s.flu := rfl
@[simp] theorem handOver_tke (n : Nat) (r : MeterRecord) (h : Holder) (e : ParkEntry) : (s.handOver n r h e).tke = s.tke := rfl
@[simp] theorem handOver_tlu (n : Nat) (r : MeterRecord) (h : Holder) (e : ParkEntry) : (s.handOver n r h e).tlu = s.tlu := rfl
@[simp] theorem handOver_ulc (n : Nat) (r : MeterRecord) (h : Holder) (e : ParkEntry) : (s.handOver n r h e).ulc = s.ulc := rfl
@[simp] theorem handOver_rgi (n : Nat) (r : MeterRecord) (h : Holder) (e : ParkEntry) : (s.handOver n r h e).rgi = s.rgi := rfl
@[simp] theorem handOver_atc (n : Nat) (r : MeterRecord) (h : Holder) (e : ParkEntry) : (s.handOver n r h e).atc = s.atc := rfl
@[simp] theorem handOver_pending (n : Nat) (r : MeterRecord) (h : Holder) (e : ParkEntry) : (s.handOver n r h e).pending = s.pending := rfl

/-! ### releaseHold -/

@[simp] theorem releaseHold_tfu (h : Holder) : (s.releaseHold h).tfu = s.tfu := by
  unfold State.releaseHold; try dsimp only
  (repeat' split) <;> first | rfl | simp | simp [watchFloat, watchMonth]
@[simp] theorem releaseHold_flu (h : Holder) : (s.releaseHold h).flu = s.flu := by
  unfold State.releaseHold; try dsimp only
  (repeat' split) <;> first | rfl | simp | simp [watchFloat, watchMonth]
@[simp] theorem releaseHold_tke (h : Holder) : (s.releaseHold h).tke = s.tke := by
  unfold State.releaseHold; try dsimp only
  (repeat' split) <;> first | rfl | simp | simp [watchFloat, watchMonth]
@[simp] theorem releaseHold_tlu (h : Holder) : (s.releaseHold h).tlu = s.tlu := by
  unfold State.releaseHold; try dsimp only
  (repeat' split) <;> first | rfl | simp | simp [watchFloat, watchMonth]
@[simp] theorem releaseHold_ulc (h : Holder) : (s.releaseHold h).ulc = s.ulc := by
  unfold State.releaseHold; try dsimp only
  (repeat' split) <;> first | rfl | simp | simp [watchFloat, watchMonth]
@[simp] theorem releaseHold_rgi (h : Holder) : (s.releaseHold h).rgi = s.rgi := by
  unfold State.releaseHold; try dsimp only
  (repeat' split) <;> first | rfl | simp | simp [watchFloat, watchMonth]
@[simp] theorem releaseHold_atc (h : Holder) : (s.releaseHold h).atc = s.atc := by
  unfold State.releaseHold; try dsimp only
  (repeat' split) <;> first | rfl | simp | simp [watchFloat, watchMonth]
@[simp] theorem releaseHold_pending (h : Holder) : (s.releaseHold h).pending = s.pending := by
  unfold State.releaseHold; try dsimp only
  (repeat' split) <;> first | rfl | simp | simp [watchFloat, watchMonth]

/-! ### refuseHeld -/

@[simp] theorem refuseHeld_tfu (h : Holder) (y : Reply) : (s.refuseHeld h y).tfu = s.tfu := by
  unfold State.refuseHeld; try dsimp only
  (repeat' split) <;> first | rfl | simp | simp [watchFloat, watchMonth]
@[simp] theorem refuseHeld_flu (h : Holder) (y : Reply) : (s.refuseHeld h y).flu = s.flu := by
  unfold State.refuseHeld; try dsimp only
  (repeat' split) <;> first | rfl | simp | simp [watchFloat, watchMonth]
@[simp] theorem refuseHeld_tke (h : Holder) (y : Reply) : (s.refuseHeld h y).tke = s.tke := by
  unfold State.refuseHeld; try dsimp only
  (repeat' split) <;> first | rfl | simp | simp [watchFloat, watchMonth]
@[simp] theorem refuseHeld_ulc (h : Holder) (y : Reply) : (s.refuseHeld h y).ulc = s.ulc := by
  unfold State.refuseHeld; try dsimp only
  (repeat' split) <;> first | rfl | simp | simp [watchFloat, watchMonth]
@[simp] theorem refuseHeld_pending (h : Holder) (y : Reply) : (s.refuseHeld h y).pending = s.pending := by
  unfold State.refuseHeld; try dsimp only
  (repeat' split) <;> first | rfl | simp | simp [watchFloat, watchMonth]

/-! ### endStopped -/

@[simp] theorem endStopped_tfu (h : Holder) : (s.endStopped h).tfu = s.tfu := by
  unfold State.endStopped; try dsimp only
  (repeat' split) <;> first | rfl | simp | simp [watchFloat, watchMonth]
@[simp] theorem endStopped_flu (h : Holder) : (s.endStopped h).flu = s.flu := by
  unfold State.endStopped; try dsimp only
  (repeat' split) <;> first | rfl | simp | simp [watchFloat, watchMonth]
@[simp] theorem endStopped_tke (h : Holder) : (s.endStopped h).tke = s.tke := by
  unfold State.endStopped; try dsimp only
  (repeat' split) <;> first | rfl | simp | simp [watchFloat, watchMonth]
@[simp] theorem endStopped_ulc (h : Holder) : (s.endStopped h).ulc = s.ulc := by
  unfold State.endStopped; try dsimp only
  (repeat' split) <;> first | rfl | simp | simp [watchFloat, watchMonth]
@[simp] theorem endStopped_pending (h : Holder) : (s.endStopped h).pending = s.pending := by
  unfold State.endStopped; try dsimp only
  (repeat' split) <;> first | rfl | simp | simp [watchFloat, watchMonth]

/-! ### holdAnswered -/

@[simp] theorem holdAnswered_adir (h : Holder) (a : HoldAnswer) : (s.holdAnswered h a).adir = s.adir := by
  unfold State.holdAnswered; try dsimp only
  (repeat' split) <;> first | rfl | simp
@[simp] theorem holdAnswered_tfu (h : Holder) (a : HoldAnswer) : (s.holdAnswered h a).tfu = s.tfu := by
  unfold State.holdAnswered; try dsimp only
  (repeat' split) <;> first | rfl | simp | simp [watchFloat, watchMonth]
@[simp] theorem holdAnswered_flu (h : Holder) (a : HoldAnswer) : (s.holdAnswered h a).flu = s.flu := by
  unfold State.holdAnswered; try dsimp only
  (repeat' split) <;> first | rfl | simp | simp [watchFloat, watchMonth]
@[simp] theorem holdAnswered_tke (h : Holder) (a : HoldAnswer) : (s.holdAnswered h a).tke = s.tke := by
  unfold State.holdAnswered; try dsimp only
  (repeat' split) <;> first | rfl | simp | simp [watchFloat, watchMonth]
@[simp] theorem holdAnswered_ulc (h : Holder) (a : HoldAnswer) : (s.holdAnswered h a).ulc = s.ulc := by
  unfold State.holdAnswered; try dsimp only
  (repeat' split) <;> first | rfl | simp | simp [watchFloat, watchMonth]
@[simp] theorem holdAnswered_pending (h : Holder) (a : HoldAnswer) : (s.holdAnswered h a).pending = s.pending := by
  unfold State.holdAnswered; try dsimp only
  (repeat' split) <;> first | rfl | simp | simp [watchFloat, watchMonth]

/-! ### holdClaim -/

@[simp] theorem holdClaim_tfu (h : Holder) (m : Nat) : (s.holdClaim h m).tfu = s.tfu := by
  unfold State.holdClaim; try dsimp only
  (repeat' split) <;> first | rfl | simp | simp [watchFloat, watchMonth]
@[simp] theorem holdClaim_flu (h : Holder) (m : Nat) : (s.holdClaim h m).flu = s.flu := by
  unfold State.holdClaim; try dsimp only
  (repeat' split) <;> first | rfl | simp | simp [watchFloat, watchMonth]
@[simp] theorem holdClaim_tke (h : Holder) (m : Nat) : (s.holdClaim h m).tke = s.tke := by
  unfold State.holdClaim; try dsimp only
  (repeat' split) <;> first | rfl | simp | simp [watchFloat, watchMonth]
@[simp] theorem holdClaim_ulc (h : Holder) (m : Nat) : (s.holdClaim h m).ulc = s.ulc := by
  unfold State.holdClaim; try dsimp only
  (repeat' split) <;> first | rfl | simp | simp [watchFloat, watchMonth]
@[simp] theorem holdClaim_pending (h : Holder) (m : Nat) : (s.holdClaim h m).pending = s.pending := by
  unfold State.holdClaim; try dsimp only
  (repeat' split) <;> first | rfl | simp | simp [watchFloat, watchMonth]

/-! ### answerEach -/

@[simp] theorem answerEach_adir (l : List HoldWait) : (s.answerEach l).adir = s.adir := by
  unfold State.answerEach
  induction l generalizing s with
  | nil => rfl
  | cons a l ih => rw [List.foldl_cons, ih]; simp
@[simp] theorem answerEach_tfu (l : List HoldWait) : (s.answerEach l).tfu = s.tfu := by
  unfold State.answerEach
  induction l generalizing s with
  | nil => rfl
  | cons a l ih => rw [List.foldl_cons, ih]; simp
@[simp] theorem answerEach_flu (l : List HoldWait) : (s.answerEach l).flu = s.flu := by
  unfold State.answerEach
  induction l generalizing s with
  | nil => rfl
  | cons a l ih => rw [List.foldl_cons, ih]; simp
@[simp] theorem answerEach_tke (l : List HoldWait) : (s.answerEach l).tke = s.tke := by
  unfold State.answerEach
  induction l generalizing s with
  | nil => rfl
  | cons a l ih => rw [List.foldl_cons, ih]; simp
@[simp] theorem answerEach_ulc (l : List HoldWait) : (s.answerEach l).ulc = s.ulc := by
  unfold State.answerEach
  induction l generalizing s with
  | nil => rfl
  | cons a l ih => rw [List.foldl_cons, ih]; simp
@[simp] theorem answerEach_pending (l : List HoldWait) : (s.answerEach l).pending = s.pending := by
  unfold State.answerEach
  induction l generalizing s with
  | nil => rfl
  | cons a l ih => rw [List.foldl_cons, ih]; simp

/-! ### answerAll -/

@[simp] theorem answerAll_adir (l : List HoldWait) : (s.answerAll l).adir = s.adir := by
  unfold State.answerAll; split <;> simp
@[simp] theorem answerAll_tfu (l : List HoldWait) : (s.answerAll l).tfu = s.tfu := by
  unfold State.answerAll; split <;> simp
@[simp] theorem answerAll_flu (l : List HoldWait) : (s.answerAll l).flu = s.flu := by
  unfold State.answerAll; split <;> simp
@[simp] theorem answerAll_tke (l : List HoldWait) : (s.answerAll l).tke = s.tke := by
  unfold State.answerAll; split <;> simp
@[simp] theorem answerAll_ulc (l : List HoldWait) : (s.answerAll l).ulc = s.ulc := by
  unfold State.answerAll; split <;> simp
@[simp] theorem answerAll_pending (l : List HoldWait) : (s.answerAll l).pending = s.pending := by
  unfold State.answerAll; split <;> simp

/-! ### answerWaiting -/

@[simp] theorem answerWaiting_adir (m : Nat) : (s.answerWaiting m).adir = s.adir.countDown m := by
  simp [State.answerWaiting]
@[simp] theorem answerWaiting_tfu (m : Nat) : (s.answerWaiting m).tfu = s.tfu := by simp [State.answerWaiting]
@[simp] theorem answerWaiting_flu (m : Nat) : (s.answerWaiting m).flu = s.flu := by simp [State.answerWaiting]
@[simp] theorem answerWaiting_tke (m : Nat) : (s.answerWaiting m).tke = s.tke := by simp [State.answerWaiting]
@[simp] theorem answerWaiting_ulc (m : Nat) : (s.answerWaiting m).ulc = s.ulc := by simp [State.answerWaiting]
@[simp] theorem answerWaiting_pending (m : Nat) : (s.answerWaiting m).pending = s.pending := by simp [State.answerWaiting]

/-! ### answerHolds -/

@[simp] theorem answerHolds_adir (p : HoldWait → Bool) :
    (s.answerHolds p).adir = { s.adir with waiting := s.adir.waiting.filter fun x => !p x } := by simp [State.answerHolds]

/-- Where no hold claim waits for the records, answering them changes nothing. -/
theorem answerHolds_of_none (p : HoldWait → Bool) (h : ∀ x ∈ s.adir.waiting, p x = false) : s.answerHolds p = s := by
  have h1 : s.adir.waiting.filter p = [] := by simpa [List.filter_eq_nil_iff] using h
  have h2 : (s.adir.waiting.filter fun x => !p x) = s.adir.waiting := by
    rw [List.filter_eq_self]; simpa using h
  simp [State.answerHolds, State.answerAll, State.answerEach, h1, h2, State.mapAdir]
@[simp] theorem answerHolds_tfu (p : HoldWait → Bool) : (s.answerHolds p).tfu = s.tfu := by simp [State.answerHolds]
@[simp] theorem answerHolds_flu (p : HoldWait → Bool) : (s.answerHolds p).flu = s.flu := by simp [State.answerHolds]
@[simp] theorem answerHolds_tke (p : HoldWait → Bool) : (s.answerHolds p).tke = s.tke := by simp [State.answerHolds]
@[simp] theorem answerHolds_ulc (p : HoldWait → Bool) : (s.answerHolds p).ulc = s.ulc := by simp [State.answerHolds]
@[simp] theorem answerHolds_pending (p : HoldWait → Bool) : (s.answerHolds p).pending = s.pending := by simp [State.answerHolds]

/-! ### claimMeter -/

@[simp] theorem claimMeter_adir (m : Nat) :
    (s.claimMeter m).adir =
      { (s.settleMeter m).adir with waiting := s.adir.waiting.filter fun x => !decide (x.meter = m) } := by
  simp [State.claimMeter, State.settleMeter]

/-- A claim that finds no hold claim waiting for its record settles the writes of the record, and no more (R2). -/
theorem claimMeter_of_none (m : Nat) (h : ∀ x ∈ s.adir.waiting, x.meter ≠ m) : s.claimMeter m = s.settleMeter m :=
  answerHolds_of_none _ _ (by simpa [State.settleMeter] using h)
@[simp] theorem claimMeter_tfu (m : Nat) : (s.claimMeter m).tfu = s.tfu := by simp [State.claimMeter]
@[simp] theorem claimMeter_flu (m : Nat) : (s.claimMeter m).flu = s.flu := by simp [State.claimMeter]
@[simp] theorem claimMeter_tke (m : Nat) : (s.claimMeter m).tke = s.tke := by simp [State.claimMeter]
@[simp] theorem claimMeter_ulc (m : Nat) : (s.claimMeter m).ulc = s.ulc := by simp [State.claimMeter]
@[simp] theorem claimMeter_pending (m : Nat) : (s.claimMeter m).pending = s.pending := by simp [State.claimMeter]

/-! ### finishWrite -/

@[simp] theorem finishWrite_tfu (p : RecordWrite → Bool) (w : RecordWrite) : (s.finishWrite p w).tfu = s.tfu := by
  unfold State.finishWrite; try dsimp only
  (repeat' split) <;> first | rfl | simp | simp [watchFloat, watchMonth]
@[simp] theorem finishWrite_flu (p : RecordWrite → Bool) (w : RecordWrite) : (s.finishWrite p w).flu = s.flu := by
  unfold State.finishWrite; try dsimp only
  (repeat' split) <;> first | rfl | simp | simp [watchFloat, watchMonth]
@[simp] theorem finishWrite_tke (p : RecordWrite → Bool) (w : RecordWrite) : (s.finishWrite p w).tke = s.tke := by
  unfold State.finishWrite; try dsimp only
  (repeat' split) <;> first | rfl | simp | simp [watchFloat, watchMonth]
@[simp] theorem finishWrite_ulc (p : RecordWrite → Bool) (w : RecordWrite) : (s.finishWrite p w).ulc = s.ulc := by
  unfold State.finishWrite; try dsimp only
  (repeat' split) <;> first | rfl | simp | simp [watchFloat, watchMonth]
@[simp] theorem finishWrite_pending (p : RecordWrite → Bool) (w : RecordWrite) : (s.finishWrite p w).pending = s.pending := by
  unfold State.finishWrite; try dsimp only
  (repeat' split) <;> first | rfl | simp | simp [watchFloat, watchMonth]

/-! ### claimFloat -/

@[simp] theorem claimFloat_adir (k : FloatClaim) : (s.claimFloat k).adir = s.adir := rfl
@[simp] theorem claimFloat_tfu (k : FloatClaim) : (s.claimFloat k).tfu = s.tfu := rfl
@[simp] theorem claimFloat_tke (k : FloatClaim) : (s.claimFloat k).tke = s.tke := rfl
@[simp] theorem claimFloat_vnc (k : FloatClaim) : (s.claimFloat k).vnc = s.vnc := rfl
@[simp] theorem claimFloat_tlu (k : FloatClaim) : (s.claimFloat k).tlu = s.tlu := rfl
@[simp] theorem claimFloat_ulc (k : FloatClaim) : (s.claimFloat k).ulc = s.ulc := rfl
@[simp] theorem claimFloat_rgi (k : FloatClaim) : (s.claimFloat k).rgi = s.rgi := rfl
@[simp] theorem claimFloat_atc (k : FloatClaim) : (s.claimFloat k).atc = s.atc := rfl
@[simp] theorem claimFloat_pending (k : FloatClaim) : (s.claimFloat k).pending = s.pending := rfl

/-! ### tillPartDone -/

@[simp] theorem tillPartDone_adir (c : Counter) : (s.tillPartDone c).adir = s.adir := rfl
@[simp] theorem tillPartDone_tfu (c : Counter) : (s.tillPartDone c).tfu = s.tfu := rfl
@[simp] theorem tillPartDone_tke (c : Counter) : (s.tillPartDone c).tke = s.tke := rfl
@[simp] theorem tillPartDone_tlu (c : Counter) : (s.tillPartDone c).tlu = s.tlu := rfl
@[simp] theorem tillPartDone_ulc (c : Counter) : (s.tillPartDone c).ulc = s.ulc := rfl
@[simp] theorem tillPartDone_rgi (c : Counter) : (s.tillPartDone c).rgi = s.rgi := rfl
@[simp] theorem tillPartDone_atc (c : Counter) : (s.tillPartDone c).atc = s.atc := rfl
@[simp] theorem tillPartDone_pending (c : Counter) : (s.tillPartDone c).pending = s.pending := rfl

/-! ### tillPartClaim -/

@[simp] theorem tillPartClaim_adir (c : Counter) : (s.tillPartClaim c).adir = s.adir := by
  unfold State.tillPartClaim; try dsimp only
  (repeat' split) <;> first | rfl | simp | simp [watchFloat, watchMonth]
@[simp] theorem tillPartClaim_tfu (c : Counter) : (s.tillPartClaim c).tfu = s.tfu := by
  unfold State.tillPartClaim; try dsimp only
  (repeat' split) <;> first | rfl | simp | simp [watchFloat, watchMonth]
@[simp] theorem tillPartClaim_tke (c : Counter) : (s.tillPartClaim c).tke = s.tke := by
  unfold State.tillPartClaim; try dsimp only
  (repeat' split) <;> first | rfl | simp | simp [watchFloat, watchMonth]
@[simp] theorem tillPartClaim_ulc (c : Counter) : (s.tillPartClaim c).ulc = s.ulc := by
  unfold State.tillPartClaim; try dsimp only
  (repeat' split) <;> first | rfl | simp | simp [watchFloat, watchMonth]
@[simp] theorem tillPartClaim_rgi (c : Counter) : (s.tillPartClaim c).rgi = s.rgi := by
  unfold State.tillPartClaim; try dsimp only
  (repeat' split) <;> first | rfl | simp | simp [watchFloat, watchMonth]
@[simp] theorem tillPartClaim_pending (c : Counter) : (s.tillPartClaim c).pending = s.pending := by
  unfold State.tillPartClaim; try dsimp only
  (repeat' split) <;> first | rfl | simp | simp [watchFloat, watchMonth]

/-! ### recordPartDone -/

@[simp] theorem recordPartDone_adir (c : Counter) : (s.recordPartDone c).adir = s.adir := rfl
@[simp] theorem recordPartDone_tfu (c : Counter) : (s.recordPartDone c).tfu = s.tfu := rfl
@[simp] theorem recordPartDone_tke (c : Counter) : (s.recordPartDone c).tke = s.tke := rfl
@[simp] theorem recordPartDone_tlu (c : Counter) : (s.recordPartDone c).tlu = s.tlu := rfl
@[simp] theorem recordPartDone_ulc (c : Counter) : (s.recordPartDone c).ulc = s.ulc := rfl
@[simp] theorem recordPartDone_rgi (c : Counter) : (s.recordPartDone c).rgi = s.rgi := rfl
@[simp] theorem recordPartDone_atc (c : Counter) : (s.recordPartDone c).atc = s.atc := rfl
@[simp] theorem recordPartDone_pending (c : Counter) : (s.recordPartDone c).pending = s.pending := rfl

/-! ### recordPartClaim -/

@[simp] theorem recordPartClaim_tfu (c : Counter) : (s.recordPartClaim c).tfu = s.tfu := by
  unfold State.recordPartClaim; try dsimp only
  (repeat' split) <;> first | rfl | simp | simp [watchFloat, watchMonth]
@[simp] theorem recordPartClaim_tke (c : Counter) : (s.recordPartClaim c).tke = s.tke := by
  unfold State.recordPartClaim; try dsimp only
  (repeat' split) <;> first | rfl | simp | simp [watchFloat, watchMonth]
@[simp] theorem recordPartClaim_tlu (c : Counter) : (s.recordPartClaim c).tlu = s.tlu := by
  unfold State.recordPartClaim; try dsimp only
  (repeat' split) <;> first | rfl | simp | simp [watchFloat, watchMonth]
@[simp] theorem recordPartClaim_ulc (c : Counter) : (s.recordPartClaim c).ulc = s.ulc := by
  unfold State.recordPartClaim; try dsimp only
  (repeat' split) <;> first | rfl | simp | simp [watchFloat, watchMonth]
@[simp] theorem recordPartClaim_rgi (c : Counter) : (s.recordPartClaim c).rgi = s.rgi := by
  unfold State.recordPartClaim; try dsimp only
  (repeat' split) <;> first | rfl | simp | simp [watchFloat, watchMonth]
@[simp] theorem recordPartClaim_atc (c : Counter) : (s.recordPartClaim c).atc = s.atc := by
  unfold State.recordPartClaim; try dsimp only
  (repeat' split) <;> first | rfl | simp | simp [watchFloat, watchMonth]
@[simp] theorem recordPartClaim_pending (c : Counter) : (s.recordPartClaim c).pending = s.pending := by
  unfold State.recordPartClaim; try dsimp only
  (repeat' split) <;> first | rfl | simp | simp [watchFloat, watchMonth]

/-! ### stopTooLate -/

@[simp] theorem stopTooLate_adir (h : Holder) : (s.stopTooLate h).adir = s.adir := by
  unfold State.stopTooLate; try dsimp only
  (repeat' split) <;> first | rfl | simp | simp [watchFloat, watchMonth]
@[simp] theorem stopTooLate_tfu (h : Holder) : (s.stopTooLate h).tfu = s.tfu := by
  unfold State.stopTooLate; try dsimp only
  (repeat' split) <;> first | rfl | simp | simp [watchFloat, watchMonth]
@[simp] theorem stopTooLate_flu (h : Holder) : (s.stopTooLate h).flu = s.flu := by
  unfold State.stopTooLate; try dsimp only
  (repeat' split) <;> first | rfl | simp | simp [watchFloat, watchMonth]
@[simp] theorem stopTooLate_tke (h : Holder) : (s.stopTooLate h).tke = s.tke := by
  unfold State.stopTooLate; try dsimp only
  (repeat' split) <;> first | rfl | simp | simp [watchFloat, watchMonth]
@[simp] theorem stopTooLate_tlu (h : Holder) : (s.stopTooLate h).tlu = s.tlu := by
  unfold State.stopTooLate; try dsimp only
  (repeat' split) <;> first | rfl | simp | simp [watchFloat, watchMonth]
@[simp] theorem stopTooLate_ulc (h : Holder) : (s.stopTooLate h).ulc = s.ulc := by
  unfold State.stopTooLate; try dsimp only
  (repeat' split) <;> first | rfl | simp | simp [watchFloat, watchMonth]
@[simp] theorem stopTooLate_rgi (h : Holder) : (s.stopTooLate h).rgi = s.rgi := by
  unfold State.stopTooLate; try dsimp only
  (repeat' split) <;> first | rfl | simp | simp [watchFloat, watchMonth]
@[simp] theorem stopTooLate_pending (h : Holder) : (s.stopTooLate h).pending = s.pending := by
  unfold State.stopTooLate; try dsimp only
  (repeat' split) <;> first | rfl | simp | simp [watchFloat, watchMonth]

/-! ### answered -/

@[simp] theorem answered_adir (a : AnswerCode) (e d : List Byte) : (s.answered a e d).adir = s.adir := rfl
@[simp] theorem answered_tfu (a : AnswerCode) (e d : List Byte) : (s.answered a e d).tfu = s.tfu := rfl
@[simp] theorem answered_flu (a : AnswerCode) (e d : List Byte) : (s.answered a e d).flu = s.flu := rfl
@[simp] theorem answered_tke (a : AnswerCode) (e d : List Byte) : (s.answered a e d).tke = s.tke := rfl
@[simp] theorem answered_vnc (a : AnswerCode) (e d : List Byte) : (s.answered a e d).vnc = s.vnc := rfl
@[simp] theorem answered_tlu (a : AnswerCode) (e d : List Byte) : (s.answered a e d).tlu = s.tlu := rfl
@[simp] theorem answered_rgi (a : AnswerCode) (e d : List Byte) : (s.answered a e d).rgi = s.rgi := rfl
@[simp] theorem answered_atc (a : AnswerCode) (e d : List Byte) : (s.answered a e d).atc = s.atc := rfl
@[simp] theorem answered_pending (a : AnswerCode) (e d : List Byte) : (s.answered a e d).pending = s.pending := rfl

/-! ### takeGrant -/

@[simp] theorem takeGrant_adir (n a : Nat) : (s.takeGrant n a).adir = s.adir := by
  unfold State.takeGrant; try dsimp only
  (repeat' split) <;> first | rfl | simp | simp [watchFloat, watchMonth]
@[simp] theorem takeGrant_tfu (n a : Nat) : (s.takeGrant n a).tfu = s.tfu := by
  unfold State.takeGrant; try dsimp only
  (repeat' split) <;> first | rfl | simp | simp [watchFloat, watchMonth]
@[simp] theorem takeGrant_tke (n a : Nat) : (s.takeGrant n a).tke = s.tke := by
  unfold State.takeGrant; try dsimp only
  (repeat' split) <;> first | rfl | simp | simp [watchFloat, watchMonth]
@[simp] theorem takeGrant_vnc (n a : Nat) : (s.takeGrant n a).vnc = s.vnc := by
  unfold State.takeGrant; try dsimp only
  (repeat' split) <;> first | rfl | simp | simp [watchFloat, watchMonth]
@[simp] theorem takeGrant_tlu (n a : Nat) : (s.takeGrant n a).tlu = s.tlu := by
  unfold State.takeGrant; try dsimp only
  (repeat' split) <;> first | rfl | simp | simp [watchFloat, watchMonth]
@[simp] theorem takeGrant_rgi (n a : Nat) : (s.takeGrant n a).rgi = s.rgi := by
  unfold State.takeGrant; try dsimp only
  (repeat' split) <;> first | rfl | simp | simp [watchFloat, watchMonth]
@[simp] theorem takeGrant_pending (n a : Nat) : (s.takeGrant n a).pending = s.pending := by
  unfold State.takeGrant; try dsimp only
  (repeat' split) <;> first | rfl | simp | simp [watchFloat, watchMonth]

/-! ### takeRecall -/

@[simp] theorem takeRecall_adir (n a : Nat) : (s.takeRecall n a).adir = s.adir := by
  unfold State.takeRecall; try dsimp only
  (repeat' split) <;> first | rfl | simp | simp [watchFloat, watchMonth]
@[simp] theorem takeRecall_tfu (n a : Nat) : (s.takeRecall n a).tfu = s.tfu := by
  unfold State.takeRecall; try dsimp only
  (repeat' split) <;> first | rfl | simp | simp [watchFloat, watchMonth]
@[simp] theorem takeRecall_tke (n a : Nat) : (s.takeRecall n a).tke = s.tke := by
  unfold State.takeRecall; try dsimp only
  (repeat' split) <;> first | rfl | simp | simp [watchFloat, watchMonth]
@[simp] theorem takeRecall_vnc (n a : Nat) : (s.takeRecall n a).vnc = s.vnc := by
  unfold State.takeRecall; try dsimp only
  (repeat' split) <;> first | rfl | simp | simp [watchFloat, watchMonth]
@[simp] theorem takeRecall_tlu (n a : Nat) : (s.takeRecall n a).tlu = s.tlu := by
  unfold State.takeRecall; try dsimp only
  (repeat' split) <;> first | rfl | simp | simp [watchFloat, watchMonth]
@[simp] theorem takeRecall_rgi (n a : Nat) : (s.takeRecall n a).rgi = s.rgi := by
  unfold State.takeRecall; try dsimp only
  (repeat' split) <;> first | rfl | simp | simp [watchFloat, watchMonth]
@[simp] theorem takeRecall_pending (n a : Nat) : (s.takeRecall n a).pending = s.pending := by
  unfold State.takeRecall; try dsimp only
  (repeat' split) <;> first | rfl | simp | simp [watchFloat, watchMonth]

/-! ### takeTerms -/

@[simp] theorem takeTerms_adir (a b d : Nat) : (s.takeTerms a b d).adir = s.adir := by
  unfold State.takeTerms; try dsimp only
  (repeat' split) <;> first | rfl | simp | simp [watchFloat, watchMonth]
@[simp] theorem takeTerms_tfu (a b d : Nat) : (s.takeTerms a b d).tfu = s.tfu := by
  unfold State.takeTerms; try dsimp only
  (repeat' split) <;> first | rfl | simp | simp [watchFloat, watchMonth]
@[simp] theorem takeTerms_tke (a b d : Nat) : (s.takeTerms a b d).tke = s.tke := by
  unfold State.takeTerms; try dsimp only
  (repeat' split) <;> first | rfl | simp | simp [watchFloat, watchMonth]
@[simp] theorem takeTerms_vnc (a b d : Nat) : (s.takeTerms a b d).vnc = s.vnc := by
  unfold State.takeTerms; try dsimp only
  (repeat' split) <;> first | rfl | simp | simp [watchFloat, watchMonth]
@[simp] theorem takeTerms_tlu (a b d : Nat) : (s.takeTerms a b d).tlu = s.tlu := by
  unfold State.takeTerms; try dsimp only
  (repeat' split) <;> first | rfl | simp | simp [watchFloat, watchMonth]
@[simp] theorem takeTerms_rgi (a b d : Nat) : (s.takeTerms a b d).rgi = s.rgi := by
  unfold State.takeTerms; try dsimp only
  (repeat' split) <;> first | rfl | simp | simp [watchFloat, watchMonth]
@[simp] theorem takeTerms_pending (a b d : Nat) : (s.takeTerms a b d).pending = s.pending := by
  unfold State.takeTerms; try dsimp only
  (repeat' split) <;> first | rfl | simp | simp [watchFloat, watchMonth]

/-! ### takeFloat -/

@[simp] theorem takeFloat_tfu (k : FloatClaim) : (s.takeFloat k).tfu = s.tfu := by
  unfold State.takeFloat; try dsimp only
  (repeat' split) <;> first | rfl | simp | simp [watchFloat, watchMonth]
@[simp] theorem takeFloat_tke (k : FloatClaim) : (s.takeFloat k).tke = s.tke := by
  unfold State.takeFloat; try dsimp only
  (repeat' split) <;> first | rfl | simp | simp [watchFloat, watchMonth]
@[simp] theorem takeFloat_pending (k : FloatClaim) : (s.takeFloat k).pending = s.pending := by
  unfold State.takeFloat; try dsimp only
  (repeat' split) <;> first | rfl | simp | simp [watchFloat, watchMonth]

/-! ### drainFloat -/

@[simp] theorem drainFloat_tfu (n : Nat) : (drainFloat n s).tfu = s.tfu := by
  induction n generalizing s with
  | zero => rfl
  | succ n ih =>
    unfold drainFloat; split <;> simp [ih]
@[simp] theorem drainFloat_tke (n : Nat) : (drainFloat n s).tke = s.tke := by
  induction n generalizing s with
  | zero => rfl
  | succ n ih =>
    unfold drainFloat; split <;> simp [ih]
@[simp] theorem drainFloat_pending (n : Nat) : (drainFloat n s).pending = s.pending := by
  induction n generalizing s with
  | zero => rfl
  | succ n ih =>
    unfold drainFloat; split <;> simp [ih]

/-! ### pumpFloat -/

/-- What FLU's queue leaves is what taking its claims leaves, but for the marks of stores. -/
theorem pumpFloat_spec : ∃ n m, s.pumpFloat =
    { drainFloat n s with tlu := { (drainFloat n s).tlu with storing := m } } := by
  unfold State.pumpFloat; dsimp only
  split
  · exact ⟨2 * s.flu.queue.length + 2, (drainFloat (2 * s.flu.queue.length + 2) s).tlu.storing, rfl⟩
  · exact ⟨2 * s.flu.queue.length + 2, markStores_spec s (drainFloat (2 * s.flu.queue.length + 2) s)⟩

@[simp] theorem pumpFloat_tfu : (s.pumpFloat).tfu = s.tfu := by
  unfold State.pumpFloat; try dsimp only
  (repeat' split) <;> first | rfl | simp | simp [watchFloat, watchMonth]
@[simp] theorem pumpFloat_tke : (s.pumpFloat).tke = s.tke := by
  unfold State.pumpFloat; try dsimp only
  (repeat' split) <;> first | rfl | simp | simp [watchFloat, watchMonth]
@[simp] theorem pumpFloat_pending : (s.pumpFloat).pending = s.pending := by
  unfold State.pumpFloat; try dsimp only
  (repeat' split) <;> first | rfl | simp | simp [watchFloat, watchMonth]

/-! ### tillReadDone -/

@[simp] theorem tillReadDone_adir (c : Counter) : (s.tillReadDone c).adir = s.adir := by
  unfold State.tillReadDone; try dsimp only
  (repeat' split) <;> first | rfl | simp | simp [watchFloat, watchMonth]
@[simp] theorem tillReadDone_tfu (c : Counter) : (s.tillReadDone c).tfu = s.tfu := by
  unfold State.tillReadDone; try dsimp only
  (repeat' split) <;> first | rfl | simp | simp [watchFloat, watchMonth]
@[simp] theorem tillReadDone_flu (c : Counter) : (s.tillReadDone c).flu = s.flu := by
  unfold State.tillReadDone; try dsimp only
  (repeat' split) <;> first | rfl | simp | simp [watchFloat, watchMonth]
@[simp] theorem tillReadDone_tke (c : Counter) : (s.tillReadDone c).tke = s.tke := by
  unfold State.tillReadDone; try dsimp only
  (repeat' split) <;> first | rfl | simp | simp [watchFloat, watchMonth]
@[simp] theorem tillReadDone_vnc (c : Counter) : (s.tillReadDone c).vnc = s.vnc := by
  unfold State.tillReadDone; try dsimp only
  (repeat' split) <;> first | rfl | simp | simp [watchFloat, watchMonth]
@[simp] theorem tillReadDone_tills (c : Counter) : (s.tillReadDone c).tlu.tills = s.tlu.tills := by
  unfold State.tillReadDone State.closeDone; (repeat' split) <;> simp
@[simp] theorem tillReadDone_lines (c : Counter) : (s.tillReadDone c).tlu.lines = s.tlu.lines := by
  unfold State.tillReadDone State.closeDone; (repeat' split) <;> simp
@[simp] theorem tillReadDone_part (c : Counter) : (s.tillReadDone c).tlu.part = s.tlu.part := by
  unfold State.tillReadDone State.closeDone; (repeat' split) <;> simp
@[simp] theorem tillReadDone_ulc (c : Counter) : (s.tillReadDone c).ulc = s.ulc := by
  unfold State.tillReadDone; try dsimp only
  (repeat' split) <;> first | rfl | simp | simp [watchFloat, watchMonth]
@[simp] theorem tillReadDone_rgi (c : Counter) : (s.tillReadDone c).rgi = s.rgi := by
  unfold State.tillReadDone; try dsimp only
  (repeat' split) <;> first | rfl | simp | simp [watchFloat, watchMonth]
@[simp] theorem tillReadDone_atc (c : Counter) : (s.tillReadDone c).atc = s.atc := by
  unfold State.tillReadDone; try dsimp only
  (repeat' split) <;> first | rfl | simp | simp [watchFloat, watchMonth]
@[simp] theorem tillReadDone_pending (c : Counter) : (s.tillReadDone c).pending = s.pending := by
  unfold State.tillReadDone; try dsimp only
  (repeat' split) <;> first | rfl | simp | simp [watchFloat, watchMonth]

/-! ### checked -/

@[simp] theorem checked_adir (h : Holder) (q : CtxRequest) : (s.checked h q).adir = s.adir := by
  cases h <;> simp only [State.checked] <;> (repeat' split) <;> simp
@[simp] theorem checked_tfu (h : Holder) (q : CtxRequest) : (s.checked h q).tfu = s.tfu := by
  cases h <;> simp only [State.checked] <;> (repeat' split) <;> simp
@[simp] theorem checked_flu (h : Holder) (q : CtxRequest) : (s.checked h q).flu = s.flu := by
  cases h <;> simp only [State.checked] <;> (repeat' split) <;> simp
@[simp] theorem checked_tke (h : Holder) (q : CtxRequest) : (s.checked h q).tke = s.tke := by
  cases h <;> simp only [State.checked] <;> (repeat' split) <;> simp
@[simp] theorem checked_vnc (h : Holder) (q : CtxRequest) : (s.checked h q).vnc = s.vnc := by
  cases h <;> simp only [State.checked] <;> (repeat' split) <;> simp
@[simp] theorem checked_tills (h : Holder) (q : CtxRequest) : (s.checked h q).tlu.tills = s.tlu.tills := by
  cases h <;> simp only [State.checked] <;> (repeat' split) <;> simp
@[simp] theorem checked_lines (h : Holder) (q : CtxRequest) : (s.checked h q).tlu.lines = s.tlu.lines := by
  cases h <;> simp only [State.checked] <;> (repeat' split) <;> simp
@[simp] theorem checked_part (h : Holder) (q : CtxRequest) : (s.checked h q).tlu.part = s.tlu.part := by
  cases h <;> simp only [State.checked] <;> (repeat' split) <;> simp
@[simp] theorem checked_ulc (h : Holder) (q : CtxRequest) : (s.checked h q).ulc = s.ulc := by
  cases h <;> simp only [State.checked] <;> (repeat' split) <;> simp
@[simp] theorem checked_rgi (h : Holder) (q : CtxRequest) : (s.checked h q).rgi = s.rgi := by
  cases h <;> simp only [State.checked] <;> (repeat' split) <;> simp
@[simp] theorem checked_atc (h : Holder) (q : CtxRequest) : (s.checked h q).atc = s.atc := by
  cases h <;> simp only [State.checked] <;> (repeat' split) <;> simp
@[simp] theorem checked_pending (h : Holder) (q : CtxRequest) : (s.checked h q).pending = s.pending := by
  cases h <;> simp only [State.checked] <;> (repeat' split) <;> simp

/-! ### priceAndReserve -/

@[simp] theorem priceAndReserve_tfu (c : Counter) (q : CtxRequest) (v : RecordView) : (s.priceAndReserve c q v).tfu = s.tfu := by
  unfold State.priceAndReserve; try dsimp only
  (repeat' split) <;> first | rfl | simp | simp [watchFloat, watchMonth]
@[simp] theorem priceAndReserve_tke (c : Counter) (q : CtxRequest) (v : RecordView) : (s.priceAndReserve c q v).tke = s.tke := by
  unfold State.priceAndReserve; try dsimp only
  (repeat' split) <;> first | rfl | simp | simp [watchFloat, watchMonth]
@[simp] theorem priceAndReserve_ulc (c : Counter) (q : CtxRequest) (v : RecordView) : (s.priceAndReserve c q v).ulc = s.ulc := by
  unfold State.priceAndReserve; try dsimp only
  (repeat' split) <;> first | rfl | simp | simp [watchFloat, watchMonth]
@[simp] theorem priceAndReserve_pending (c : Counter) (q : CtxRequest) (v : RecordView) : (s.priceAndReserve c q v).pending = s.pending := by
  unfold State.priceAndReserve; try dsimp only
  (repeat' split) <;> first | rfl | simp | simp [watchFloat, watchMonth]

/-! ### submit -/

@[simp] theorem submit_tfu (h : Holder) (m : Nat) (p : List PlannedToken) (l : List Nat) : (s.submit h m p l).tfu = s.tfu := by
  unfold State.submit; try dsimp only
  (repeat' split) <;> first | rfl | simp | simp [watchFloat, watchMonth]
@[simp] theorem submit_ulc (h : Holder) (m : Nat) (p : List PlannedToken) (l : List Nat) : (s.submit h m p l).ulc = s.ulc := by
  unfold State.submit; try dsimp only
  (repeat' split) <;> first | rfl | simp | simp [watchFloat, watchMonth]
@[simp] theorem submit_pending (h : Holder) (m : Nat) (p : List PlannedToken) (l : List Nat) : (s.submit h m p l).pending = s.pending := by
  unfold State.submit; try dsimp only
  (repeat' split) <;> first | rfl | simp | simp [watchFloat, watchMonth]

/-! ### issueOffice -/

@[simp] theorem issueOffice_tfu (q : CtxRequest) (v : RecordView) : (s.issueOffice q v).tfu = s.tfu := by
  unfold State.issueOffice; try dsimp only
  (repeat' split) <;> first | rfl | simp | simp [watchFloat, watchMonth]
@[simp] theorem issueOffice_ulc (q : CtxRequest) (v : RecordView) : (s.issueOffice q v).ulc = s.ulc := by
  unfold State.issueOffice; try dsimp only
  (repeat' split) <;> first | rfl | simp | simp [watchFloat, watchMonth]
@[simp] theorem issueOffice_pending (q : CtxRequest) (v : RecordView) : (s.issueOffice q v).pending = s.pending := by
  unfold State.issueOffice; try dsimp only
  (repeat' split) <;> first | rfl | simp | simp [watchFloat, watchMonth]

/-! ### proceed -/

@[simp] theorem proceed_tfu (h : Holder) : (s.proceed h).tfu = s.tfu := by
  unfold State.proceed; try dsimp only
  (repeat' split) <;> first | rfl | simp | simp [watchFloat, watchMonth]
@[simp] theorem proceed_ulc (h : Holder) : (s.proceed h).ulc = s.ulc := by
  unfold State.proceed; try dsimp only
  (repeat' split) <;> first | rfl | simp | simp [watchFloat, watchMonth]
@[simp] theorem proceed_pending (h : Holder) : (s.proceed h).pending = s.pending := by
  unfold State.proceed; try dsimp only
  (repeat' split) <;> first | rfl | simp | simp [watchFloat, watchMonth]

/-! ### resume -/

@[simp] theorem resume_tfu (h : Holder) : (s.resume h).tfu = s.tfu := by
  unfold State.resume; try dsimp only
  (repeat' split) <;> first | rfl | simp | simp [watchFloat, watchMonth]
@[simp] theorem resume_ulc (h : Holder) : (s.resume h).ulc = s.ulc := by
  unfold State.resume; try dsimp only
  (repeat' split) <;> first | rfl | simp | simp [watchFloat, watchMonth]
@[simp] theorem resume_pending (h : Holder) : (s.resume h).pending = s.pending := by
  unfold State.resume; try dsimp only
  (repeat' split) <;> first | rfl | simp | simp [watchFloat, watchMonth]

/-! ### enterCtx -/

@[simp] theorem enterCtx_adir (h : Holder) (q : CtxRequest) (b : Bool) : (s.enterCtx h q b).adir = s.adir := rfl
@[simp] theorem enterCtx_tfu (h : Holder) (q : CtxRequest) (b : Bool) : (s.enterCtx h q b).tfu = s.tfu := rfl
@[simp] theorem enterCtx_flu (h : Holder) (q : CtxRequest) (b : Bool) : (s.enterCtx h q b).flu = s.flu := rfl
@[simp] theorem enterCtx_tke (h : Holder) (q : CtxRequest) (b : Bool) : (s.enterCtx h q b).tke = s.tke := rfl
@[simp] theorem enterCtx_tlu (h : Holder) (q : CtxRequest) (b : Bool) : (s.enterCtx h q b).tlu = s.tlu := rfl
@[simp] theorem enterCtx_ulc (h : Holder) (q : CtxRequest) (b : Bool) : (s.enterCtx h q b).ulc = s.ulc := rfl
@[simp] theorem enterCtx_rgi (h : Holder) (q : CtxRequest) (b : Bool) : (s.enterCtx h q b).rgi = s.rgi := rfl
@[simp] theorem enterCtx_atc (h : Holder) (q : CtxRequest) (b : Bool) : (s.enterCtx h q b).atc = s.atc := rfl
@[simp] theorem enterCtx_pending (h : Holder) (q : CtxRequest) (b : Bool) : (s.enterCtx h q b).pending = s.pending := rfl

/-! ### takeInCtx -/

@[simp] theorem takeInCtx_tfu (h : Holder) (q : CtxRequest) (a b : Bool) : (s.takeInCtx h q a b).tfu = s.tfu := by
  unfold State.takeInCtx; try dsimp only
  (repeat' split) <;> first | rfl | simp | simp [watchFloat, watchMonth]
@[simp] theorem takeInCtx_flu (h : Holder) (q : CtxRequest) (a b : Bool) : (s.takeInCtx h q a b).flu = s.flu := by
  unfold State.takeInCtx; try dsimp only
  (repeat' split) <;> first | rfl | simp | simp [watchFloat, watchMonth]
@[simp] theorem takeInCtx_tke (h : Holder) (q : CtxRequest) (a b : Bool) : (s.takeInCtx h q a b).tke = s.tke := by
  unfold State.takeInCtx; try dsimp only
  (repeat' split) <;> first | rfl | simp | simp [watchFloat, watchMonth]
@[simp] theorem takeInCtx_ulc (h : Holder) (q : CtxRequest) (a b : Bool) : (s.takeInCtx h q a b).ulc = s.ulc := by
  unfold State.takeInCtx; try dsimp only
  (repeat' split) <;> first | rfl | simp | simp [watchFloat, watchMonth]
@[simp] theorem takeInCtx_pending (h : Holder) (q : CtxRequest) (a b : Bool) : (s.takeInCtx h q a b).pending = s.pending := by
  unfold State.takeInCtx; try dsimp only
  (repeat' split) <;> first | rfl | simp | simp [watchFloat, watchMonth]

/-! ### serveInCtx -/

@[simp] theorem serveInCtx_tfu (k : ReqKind) (h : Holder) (f : Request → CtxRequest × Bool) : (s.serveInCtx k h f).tfu = s.tfu := by
  unfold State.serveInCtx; try dsimp only
  (repeat' split) <;> first | rfl | simp | simp [watchFloat, watchMonth]
@[simp] theorem serveInCtx_flu (k : ReqKind) (h : Holder) (f : Request → CtxRequest × Bool) : (s.serveInCtx k h f).flu = s.flu := by
  unfold State.serveInCtx; try dsimp only
  (repeat' split) <;> first | rfl | simp | simp [watchFloat, watchMonth]
@[simp] theorem serveInCtx_tke (k : ReqKind) (h : Holder) (f : Request → CtxRequest × Bool) : (s.serveInCtx k h f).tke = s.tke := by
  unfold State.serveInCtx; try dsimp only
  (repeat' split) <;> first | rfl | simp | simp [watchFloat, watchMonth]
@[simp] theorem serveInCtx_ulc (k : ReqKind) (h : Holder) (f : Request → CtxRequest × Bool) : (s.serveInCtx k h f).ulc = s.ulc := by
  unfold State.serveInCtx; try dsimp only
  (repeat' split) <;> first | rfl | simp | simp [watchFloat, watchMonth]
@[simp] theorem serveInCtx_pending (k : ReqKind) (h : Holder) (f : Request → CtxRequest × Bool) : (s.serveInCtx k h f).pending = s.pending := by
  unfold State.serveInCtx; try dsimp only
  (repeat' split) <;> first | rfl | simp | simp [watchFloat, watchMonth]

/-! ### digitsReturn -/

@[simp] theorem digitsReturn_tfu (h : Holder) (t : Token) : (s.digitsReturn h t).tfu = s.tfu := by
  unfold State.digitsReturn; try dsimp only
  (repeat' split) <;> first | rfl | simp | simp [watchFloat, watchMonth]
@[simp] theorem digitsReturn_tke (h : Holder) (t : Token) : (s.digitsReturn h t).tke = s.tke := by
  unfold State.digitsReturn; try dsimp only
  (repeat' split) <;> first | rfl | simp | simp [watchFloat, watchMonth]
@[simp] theorem digitsReturn_tlu (h : Holder) (t : Token) : (s.digitsReturn h t).tlu = s.tlu := by
  unfold State.digitsReturn; try dsimp only
  (repeat' split) <;> first | rfl | simp | simp [watchFloat, watchMonth]
@[simp] theorem digitsReturn_ulc (h : Holder) (t : Token) : (s.digitsReturn h t).ulc = s.ulc := by
  unfold State.digitsReturn; try dsimp only
  (repeat' split) <;> first | rfl | simp | simp [watchFloat, watchMonth]
@[simp] theorem digitsReturn_rgi (h : Holder) (t : Token) : (s.digitsReturn h t).rgi = s.rgi := by
  unfold State.digitsReturn; try dsimp only
  (repeat' split) <;> first | rfl | simp | simp [watchFloat, watchMonth]
@[simp] theorem digitsReturn_atc (h : Holder) (t : Token) : (s.digitsReturn h t).atc = s.atc := by
  unfold State.digitsReturn; try dsimp only
  (repeat' split) <;> first | rfl | simp | simp [watchFloat, watchMonth]
@[simp] theorem digitsReturn_pending (h : Holder) (t : Token) : (s.digitsReturn h t).pending = s.pending := by
  unfold State.digitsReturn; try dsimp only
  (repeat' split) <;> first | rfl | simp | simp [watchFloat, watchMonth]

/-! ### endSale -/

@[simp] theorem endSale_tfu (c : Counter) : (s.endSale c).tfu = s.tfu := by
  unfold State.endSale; try dsimp only
  (repeat' split) <;> first | rfl | simp | simp [watchFloat, watchMonth]
@[simp] theorem endSale_flu (c : Counter) : (s.endSale c).flu = s.flu := by
  unfold State.endSale; try dsimp only
  (repeat' split) <;> first | rfl | simp | simp [watchFloat, watchMonth]
@[simp] theorem endSale_tke (c : Counter) : (s.endSale c).tke = s.tke := by
  unfold State.endSale; try dsimp only
  (repeat' split) <;> first | rfl | simp | simp [watchFloat, watchMonth]
@[simp] theorem endSale_ulc (c : Counter) : (s.endSale c).ulc = s.ulc := by
  unfold State.endSale; try dsimp only
  (repeat' split) <;> first | rfl | simp | simp [watchFloat, watchMonth]
@[simp] theorem endSale_pending (c : Counter) : (s.endSale c).pending = s.pending := by
  unfold State.endSale; try dsimp only
  (repeat' split) <;> first | rfl | simp | simp [watchFloat, watchMonth]

/-! ### windBack -/

@[simp] theorem windBack_tfu (h : Holder) (m : StopMark) : (s.windBack h m).tfu = s.tfu := by
  unfold State.windBack; try dsimp only
  (repeat' split) <;> first | rfl | simp | simp [watchFloat, watchMonth]
@[simp] theorem windBack_ulc (h : Holder) (m : StopMark) : (s.windBack h m).ulc = s.ulc := by
  unfold State.windBack; try dsimp only
  (repeat' split) <;> first | rfl | simp | simp [watchFloat, watchMonth]
@[simp] theorem windBack_pending (h : Holder) (m : StopMark) : (s.windBack h m).pending = s.pending := by
  unfold State.windBack; try dsimp only
  (repeat' split) <;> first | rfl | simp | simp [watchFloat, watchMonth]

/-! ### cancelCtx -/

@[simp] theorem cancelCtx_tfu (h : Holder) : (s.cancelCtx h).tfu = s.tfu := by
  unfold State.cancelCtx; try dsimp only
  (repeat' split) <;> first | rfl | simp | simp [watchFloat, watchMonth]
@[simp] theorem cancelCtx_ulc (h : Holder) : (s.cancelCtx h).ulc = s.ulc := by
  unfold State.cancelCtx; try dsimp only
  (repeat' split) <;> first | rfl | simp | simp [watchFloat, watchMonth]
@[simp] theorem cancelCtx_pending (h : Holder) : (s.cancelCtx h).pending = s.pending := by
  unfold State.cancelCtx; try dsimp only
  (repeat' split) <;> first | rfl | simp | simp [watchFloat, watchMonth]

/-! ### engineNotice -/

@[simp] theorem engineNotice_tfu (h : Holder) : (State.engineNotice h s).tfu = s.tfu := by
  unfold State.engineNotice; try dsimp only
  (repeat' split) <;> first | rfl | simp | simp [watchFloat, watchMonth]
@[simp] theorem engineNotice_ulc (h : Holder) : (State.engineNotice h s).ulc = s.ulc := by
  unfold State.engineNotice; try dsimp only
  (repeat' split) <;> first | rfl | simp | simp [watchFloat, watchMonth]
@[simp] theorem engineNotice_pending (h : Holder) : (State.engineNotice h s).pending = s.pending := by
  unfold State.engineNotice; try dsimp only
  (repeat' split) <;> first | rfl | simp | simp [watchFloat, watchMonth]

/-! ### startTx -/

@[simp] theorem startTx_adir : (s.startTx).adir = s.adir := by
  unfold State.startTx; try dsimp only
  (repeat' split) <;> first | rfl | simp | simp [watchFloat, watchMonth]
@[simp] theorem startTx_tfu : (s.startTx).tfu = s.tfu := by
  unfold State.startTx; try dsimp only
  (repeat' split) <;> first | rfl | simp | simp [watchFloat, watchMonth]
@[simp] theorem startTx_flu : (s.startTx).flu = s.flu := by
  unfold State.startTx; try dsimp only
  (repeat' split) <;> first | rfl | simp | simp [watchFloat, watchMonth]
@[simp] theorem startTx_tke : (s.startTx).tke = s.tke := by
  unfold State.startTx; try dsimp only
  (repeat' split) <;> first | rfl | simp | simp [watchFloat, watchMonth]
@[simp] theorem startTx_vnc : (s.startTx).vnc = s.vnc := by
  unfold State.startTx; try dsimp only
  (repeat' split) <;> first | rfl | simp | simp [watchFloat, watchMonth]
@[simp] theorem startTx_tlu : (s.startTx).tlu = s.tlu := by
  unfold State.startTx; try dsimp only
  (repeat' split) <;> first | rfl | simp | simp [watchFloat, watchMonth]
@[simp] theorem startTx_rgi : (s.startTx).rgi = s.rgi := by
  unfold State.startTx; try dsimp only
  (repeat' split) <;> first | rfl | simp | simp [watchFloat, watchMonth]
@[simp] theorem startTx_atc : (s.startTx).atc = s.atc := by
  unfold State.startTx; try dsimp only
  (repeat' split) <;> first | rfl | simp | simp [watchFloat, watchMonth]
@[simp] theorem startTx_pending : (s.startTx).pending = s.pending := by
  unfold State.startTx; try dsimp only
  (repeat' split) <;> first | rfl | simp | simp [watchFloat, watchMonth]

/-! ### leaveUp -/

@[simp] theorem leaveUp_adir : (s.leaveUp).adir = s.adir := by
  unfold State.leaveUp; try dsimp only
  (repeat' split) <;> first | rfl | simp | simp [watchFloat, watchMonth]
@[simp] theorem leaveUp_tfu : (s.leaveUp).tfu = s.tfu := by
  unfold State.leaveUp; try dsimp only
  (repeat' split) <;> first | rfl | simp | simp [watchFloat, watchMonth]
@[simp] theorem leaveUp_flu : (s.leaveUp).flu = s.flu := by
  unfold State.leaveUp; try dsimp only
  (repeat' split) <;> first | rfl | simp | simp [watchFloat, watchMonth]
@[simp] theorem leaveUp_vnc : (s.leaveUp).vnc = s.vnc := by
  unfold State.leaveUp; try dsimp only
  (repeat' split) <;> first | rfl | simp | simp [watchFloat, watchMonth]
@[simp] theorem leaveUp_tlu : (s.leaveUp).tlu = s.tlu := by
  unfold State.leaveUp; try dsimp only
  (repeat' split) <;> first | rfl | simp | simp [watchFloat, watchMonth]
@[simp] theorem leaveUp_ulc : (s.leaveUp).ulc = s.ulc := by
  unfold State.leaveUp; try dsimp only
  (repeat' split) <;> first | rfl | simp | simp [watchFloat, watchMonth]
@[simp] theorem leaveUp_rgi : (s.leaveUp).rgi = s.rgi := by
  unfold State.leaveUp; try dsimp only
  (repeat' split) <;> first | rfl | simp | simp [watchFloat, watchMonth]
@[simp] theorem leaveUp_atc : (s.leaveUp).atc = s.atc := by
  unfold State.leaveUp; try dsimp only
  (repeat' split) <;> first | rfl | simp | simp [watchFloat, watchMonth]
@[simp] theorem leaveUp_pending : (s.leaveUp).pending = s.pending := by
  unfold State.leaveUp; try dsimp only
  (repeat' split) <;> first | rfl | simp | simp [watchFloat, watchMonth]

/-! ### enterTrain -/

@[simp] theorem enterTrain_adir : (s.enterTrain).adir = s.adir := by
  unfold State.enterTrain; try dsimp only
  (repeat' split) <;> first | rfl | simp | simp [watchFloat, watchMonth]
@[simp] theorem enterTrain_tfu : (s.enterTrain).tfu = s.tfu := by
  unfold State.enterTrain; try dsimp only
  (repeat' split) <;> first | rfl | simp | simp [watchFloat, watchMonth]
@[simp] theorem enterTrain_flu : (s.enterTrain).flu = s.flu := by
  unfold State.enterTrain; try dsimp only
  (repeat' split) <;> first | rfl | simp | simp [watchFloat, watchMonth]
@[simp] theorem enterTrain_tke : (s.enterTrain).tke = s.tke := by
  unfold State.enterTrain; try dsimp only
  (repeat' split) <;> first | rfl | simp | simp [watchFloat, watchMonth]
@[simp] theorem enterTrain_vnc : (s.enterTrain).vnc = s.vnc := by
  unfold State.enterTrain; try dsimp only
  (repeat' split) <;> first | rfl | simp | simp [watchFloat, watchMonth]
@[simp] theorem enterTrain_tlu : (s.enterTrain).tlu = s.tlu := by
  unfold State.enterTrain; try dsimp only
  (repeat' split) <;> first | rfl | simp | simp [watchFloat, watchMonth]
@[simp] theorem enterTrain_rgi : (s.enterTrain).rgi = s.rgi := by
  unfold State.enterTrain; try dsimp only
  (repeat' split) <;> first | rfl | simp | simp [watchFloat, watchMonth]
@[simp] theorem enterTrain_pending : (s.enterTrain).pending = s.pending := by
  unfold State.enterTrain; try dsimp only
  (repeat' split) <;> first | rfl | simp | simp [watchFloat, watchMonth]

/-! ### detectLook -/

@[simp] theorem detectLook_adir : (s.detectLook).adir = s.adir := by
  unfold State.detectLook; try dsimp only
  (repeat' split) <;> first | rfl | simp | simp [watchFloat, watchMonth]
@[simp] theorem detectLook_tfu : (s.detectLook).tfu = s.tfu := by
  unfold State.detectLook; try dsimp only
  (repeat' split) <;> first | rfl | simp | simp [watchFloat, watchMonth]
@[simp] theorem detectLook_flu : (s.detectLook).flu = s.flu := by
  unfold State.detectLook; try dsimp only
  (repeat' split) <;> first | rfl | simp | simp [watchFloat, watchMonth]
@[simp] theorem detectLook_tke : (s.detectLook).tke = s.tke := by
  unfold State.detectLook; try dsimp only
  (repeat' split) <;> first | rfl | simp | simp [watchFloat, watchMonth]
@[simp] theorem detectLook_vnc : (s.detectLook).vnc = s.vnc := by
  unfold State.detectLook; try dsimp only
  (repeat' split) <;> first | rfl | simp | simp [watchFloat, watchMonth]
@[simp] theorem detectLook_tlu : (s.detectLook).tlu = s.tlu := by
  unfold State.detectLook; try dsimp only
  (repeat' split) <;> first | rfl | simp | simp [watchFloat, watchMonth]
@[simp] theorem detectLook_rgi : (s.detectLook).rgi = s.rgi := by
  unfold State.detectLook; try dsimp only
  (repeat' split) <;> first | rfl | simp | simp [watchFloat, watchMonth]
@[simp] theorem detectLook_pending : (s.detectLook).pending = s.pending := by
  unfold State.detectLook; try dsimp only
  (repeat' split) <;> first | rfl | simp | simp [watchFloat, watchMonth]

/-! ### enterDetect -/

@[simp] theorem enterDetect_adir : (s.enterDetect).adir = s.adir := by
  unfold State.enterDetect; try dsimp only
  (repeat' split) <;> first | rfl | simp | simp [watchFloat, watchMonth]
@[simp] theorem enterDetect_tfu : (s.enterDetect).tfu = s.tfu := by
  unfold State.enterDetect; try dsimp only
  (repeat' split) <;> first | rfl | simp | simp [watchFloat, watchMonth]
@[simp] theorem enterDetect_flu : (s.enterDetect).flu = s.flu := by
  unfold State.enterDetect; try dsimp only
  (repeat' split) <;> first | rfl | simp | simp [watchFloat, watchMonth]
@[simp] theorem enterDetect_vnc : (s.enterDetect).vnc = s.vnc := by
  unfold State.enterDetect; try dsimp only
  (repeat' split) <;> first | rfl | simp | simp [watchFloat, watchMonth]
@[simp] theorem enterDetect_tlu : (s.enterDetect).tlu = s.tlu := by
  unfold State.enterDetect; try dsimp only
  (repeat' split) <;> first | rfl | simp | simp [watchFloat, watchMonth]
@[simp] theorem enterDetect_rgi : (s.enterDetect).rgi = s.rgi := by
  unfold State.enterDetect; try dsimp only
  (repeat' split) <;> first | rfl | simp | simp [watchFloat, watchMonth]
@[simp] theorem enterDetect_pending : (s.enterDetect).pending = s.pending := by
  unfold State.enterDetect; try dsimp only
  (repeat' split) <;> first | rfl | simp | simp [watchFloat, watchMonth]

/-! ### enterUp -/

@[simp] theorem enterUp_adir : (s.enterUp).adir = s.adir := by
  unfold State.enterUp; try dsimp only
  (repeat' split) <;> first | rfl | simp | simp [watchFloat, watchMonth]
@[simp] theorem enterUp_tfu : (s.enterUp).tfu = s.tfu := by
  unfold State.enterUp; try dsimp only
  (repeat' split) <;> first | rfl | simp | simp [watchFloat, watchMonth]
@[simp] theorem enterUp_flu : (s.enterUp).flu = s.flu := by
  unfold State.enterUp; try dsimp only
  (repeat' split) <;> first | rfl | simp | simp [watchFloat, watchMonth]
@[simp] theorem enterUp_vnc : (s.enterUp).vnc = s.vnc := by
  unfold State.enterUp; try dsimp only
  (repeat' split) <;> first | rfl | simp | simp [watchFloat, watchMonth]
@[simp] theorem enterUp_tlu : (s.enterUp).tlu = s.tlu := by
  unfold State.enterUp; try dsimp only
  (repeat' split) <;> first | rfl | simp | simp [watchFloat, watchMonth]
@[simp] theorem enterUp_rgi : (s.enterUp).rgi = s.rgi := by
  unfold State.enterUp; try dsimp only
  (repeat' split) <;> first | rfl | simp | simp [watchFloat, watchMonth]
@[simp] theorem enterUp_pending : (s.enterUp).pending = s.pending := by
  unfold State.enterUp; try dsimp only
  (repeat' split) <;> first | rfl | simp | simp [watchFloat, watchMonth]

/-! ### enterSlip -/

@[simp] theorem enterSlip_adir : (s.enterSlip).adir = s.adir := by
  unfold State.enterSlip; try dsimp only
  (repeat' split) <;> first | rfl | simp | simp [watchFloat, watchMonth]
@[simp] theorem enterSlip_tfu : (s.enterSlip).tfu = s.tfu := by
  unfold State.enterSlip; try dsimp only
  (repeat' split) <;> first | rfl | simp | simp [watchFloat, watchMonth]
@[simp] theorem enterSlip_flu : (s.enterSlip).flu = s.flu := by
  unfold State.enterSlip; try dsimp only
  (repeat' split) <;> first | rfl | simp | simp [watchFloat, watchMonth]
@[simp] theorem enterSlip_vnc : (s.enterSlip).vnc = s.vnc := by
  unfold State.enterSlip; try dsimp only
  (repeat' split) <;> first | rfl | simp | simp [watchFloat, watchMonth]
@[simp] theorem enterSlip_tlu : (s.enterSlip).tlu = s.tlu := by
  unfold State.enterSlip; try dsimp only
  (repeat' split) <;> first | rfl | simp | simp [watchFloat, watchMonth]
@[simp] theorem enterSlip_rgi : (s.enterSlip).rgi = s.rgi := by
  unfold State.enterSlip; try dsimp only
  (repeat' split) <;> first | rfl | simp | simp [watchFloat, watchMonth]
@[simp] theorem enterSlip_pending : (s.enterSlip).pending = s.pending := by
  unfold State.enterSlip; try dsimp only
  (repeat' split) <;> first | rfl | simp | simp [watchFloat, watchMonth]

/-! ### giveUp -/

@[simp] theorem giveUp_adir : (s.giveUp).adir = s.adir := by
  unfold State.giveUp; try dsimp only
  (repeat' split) <;> first | rfl | simp | simp [watchFloat, watchMonth]
@[simp] theorem giveUp_tfu : (s.giveUp).tfu = s.tfu := by
  unfold State.giveUp; try dsimp only
  (repeat' split) <;> first | rfl | simp | simp [watchFloat, watchMonth]
@[simp] theorem giveUp_flu : (s.giveUp).flu = s.flu := by
  unfold State.giveUp; try dsimp only
  (repeat' split) <;> first | rfl | simp | simp [watchFloat, watchMonth]
@[simp] theorem giveUp_vnc : (s.giveUp).vnc = s.vnc := by
  unfold State.giveUp; try dsimp only
  (repeat' split) <;> first | rfl | simp | simp [watchFloat, watchMonth]
@[simp] theorem giveUp_tlu : (s.giveUp).tlu = s.tlu := by
  unfold State.giveUp; try dsimp only
  (repeat' split) <;> first | rfl | simp | simp [watchFloat, watchMonth]
@[simp] theorem giveUp_rgi : (s.giveUp).rgi = s.rgi := by
  unfold State.giveUp; try dsimp only
  (repeat' split) <;> first | rfl | simp | simp [watchFloat, watchMonth]
@[simp] theorem giveUp_pending : (s.giveUp).pending = s.pending := by
  unfold State.giveUp; try dsimp only
  (repeat' split) <;> first | rfl | simp | simp [watchFloat, watchMonth]

/-! ### rateChanged -/

@[simp] theorem rateChanged_adir : (s.rateChanged).adir = s.adir := by
  unfold State.rateChanged; try dsimp only
  (repeat' split) <;> first | rfl | simp | simp [watchFloat, watchMonth]
@[simp] theorem rateChanged_tfu : (s.rateChanged).tfu = s.tfu := by
  unfold State.rateChanged; try dsimp only
  (repeat' split) <;> first | rfl | simp | simp [watchFloat, watchMonth]
@[simp] theorem rateChanged_flu : (s.rateChanged).flu = s.flu := by
  unfold State.rateChanged; try dsimp only
  (repeat' split) <;> first | rfl | simp | simp [watchFloat, watchMonth]
@[simp] theorem rateChanged_vnc : (s.rateChanged).vnc = s.vnc := by
  unfold State.rateChanged; try dsimp only
  (repeat' split) <;> first | rfl | simp | simp [watchFloat, watchMonth]
@[simp] theorem rateChanged_tlu : (s.rateChanged).tlu = s.tlu := by
  unfold State.rateChanged; try dsimp only
  (repeat' split) <;> first | rfl | simp | simp [watchFloat, watchMonth]
@[simp] theorem rateChanged_rgi : (s.rateChanged).rgi = s.rgi := by
  unfold State.rateChanged; try dsimp only
  (repeat' split) <;> first | rfl | simp | simp [watchFloat, watchMonth]
@[simp] theorem rateChanged_pending : (s.rateChanged).pending = s.pending := by
  unfold State.rateChanged; try dsimp only
  (repeat' split) <;> first | rfl | simp | simp [watchFloat, watchMonth]

/-! ### setHoldover -/

@[simp] theorem setHoldover_adir (n : Nat) : (s.setHoldover n).adir = s.adir := by
  unfold State.setHoldover; try dsimp only
  (repeat' split) <;> first | rfl | simp | simp [watchFloat, watchMonth]
@[simp] theorem setHoldover_tfu (n : Nat) : (s.setHoldover n).tfu = s.tfu := by
  unfold State.setHoldover; try dsimp only
  (repeat' split) <;> first | rfl | simp | simp [watchFloat, watchMonth]
@[simp] theorem setHoldover_flu (n : Nat) : (s.setHoldover n).flu = s.flu := by
  unfold State.setHoldover; try dsimp only
  (repeat' split) <;> first | rfl | simp | simp [watchFloat, watchMonth]
@[simp] theorem setHoldover_tke (n : Nat) : (s.setHoldover n).tke = s.tke := by
  unfold State.setHoldover; try dsimp only
  (repeat' split) <;> first | rfl | simp | simp [watchFloat, watchMonth]
@[simp] theorem setHoldover_vnc (n : Nat) : (s.setHoldover n).vnc = s.vnc := by
  unfold State.setHoldover; try dsimp only
  (repeat' split) <;> first | rfl | simp | simp [watchFloat, watchMonth]
@[simp] theorem setHoldover_tlu (n : Nat) : (s.setHoldover n).tlu = s.tlu := by
  unfold State.setHoldover; try dsimp only
  (repeat' split) <;> first | rfl | simp | simp [watchFloat, watchMonth]
@[simp] theorem setHoldover_rgi (n : Nat) : (s.setHoldover n).rgi = s.rgi := by
  unfold State.setHoldover; try dsimp only
  (repeat' split) <;> first | rfl | simp | simp [watchFloat, watchMonth]
@[simp] theorem setHoldover_pending (n : Nat) : (s.setHoldover n).pending = s.pending := by
  unfold State.setHoldover; try dsimp only
  (repeat' split) <;> first | rfl | simp | simp [watchFloat, watchMonth]

/-! ### takeRecordClaim -/

@[simp] theorem takeRecordClaim_adir (k : RecordClaim) : (s.takeRecordClaim k).adir = s.adir := by
  unfold State.takeRecordClaim; try dsimp only
  (repeat' split) <;> first | rfl | simp | simp [watchFloat, watchMonth]
@[simp] theorem takeRecordClaim_tfu (k : RecordClaim) : (s.takeRecordClaim k).tfu = s.tfu := by
  unfold State.takeRecordClaim; try dsimp only
  (repeat' split) <;> first | rfl | simp | simp [watchFloat, watchMonth]
@[simp] theorem takeRecordClaim_flu (k : RecordClaim) : (s.takeRecordClaim k).flu = s.flu := by
  unfold State.takeRecordClaim; try dsimp only
  (repeat' split) <;> first | rfl | simp | simp [watchFloat, watchMonth]
@[simp] theorem takeRecordClaim_tke (k : RecordClaim) : (s.takeRecordClaim k).tke = s.tke := by
  unfold State.takeRecordClaim; try dsimp only
  (repeat' split) <;> first | rfl | simp | simp [watchFloat, watchMonth]
@[simp] theorem takeRecordClaim_vnc (k : RecordClaim) : (s.takeRecordClaim k).vnc = s.vnc := by
  unfold State.takeRecordClaim; try dsimp only
  (repeat' split) <;> first | rfl | simp | simp [watchFloat, watchMonth]
@[simp] theorem takeRecordClaim_tlu (k : RecordClaim) : (s.takeRecordClaim k).tlu = s.tlu := by
  unfold State.takeRecordClaim; try dsimp only
  (repeat' split) <;> first | rfl | simp | simp [watchFloat, watchMonth]
@[simp] theorem takeRecordClaim_rgi (k : RecordClaim) : (s.takeRecordClaim k).rgi = s.rgi := by
  unfold State.takeRecordClaim; try dsimp only
  (repeat' split) <;> first | rfl | simp | simp [watchFloat, watchMonth]
@[simp] theorem takeRecordClaim_pending (k : RecordClaim) : (s.takeRecordClaim k).pending = s.pending := by
  unfold State.takeRecordClaim; try dsimp only
  (repeat' split) <;> first | rfl | simp | simp [watchFloat, watchMonth]

/-! ### drainRecord -/

@[simp] theorem drainRecord_adir (n : Nat) : (drainRecord n s).adir = s.adir := by
  induction n generalizing s with
  | zero => rfl
  | succ n ih =>
    unfold drainRecord; split <;> simp [ih]
@[simp] theorem drainRecord_tfu (n : Nat) : (drainRecord n s).tfu = s.tfu := by
  induction n generalizing s with
  | zero => rfl
  | succ n ih =>
    unfold drainRecord; split <;> simp [ih]
@[simp] theorem drainRecord_flu (n : Nat) : (drainRecord n s).flu = s.flu := by
  induction n generalizing s with
  | zero => rfl
  | succ n ih =>
    unfold drainRecord; split <;> simp [ih]
@[simp] theorem drainRecord_tke (n : Nat) : (drainRecord n s).tke = s.tke := by
  induction n generalizing s with
  | zero => rfl
  | succ n ih =>
    unfold drainRecord; split <;> simp [ih]
@[simp] theorem drainRecord_vnc (n : Nat) : (drainRecord n s).vnc = s.vnc := by
  induction n generalizing s with
  | zero => rfl
  | succ n ih =>
    unfold drainRecord; split <;> simp [ih]
@[simp] theorem drainRecord_tlu (n : Nat) : (drainRecord n s).tlu = s.tlu := by
  induction n generalizing s with
  | zero => rfl
  | succ n ih =>
    unfold drainRecord; split <;> simp [ih]
@[simp] theorem drainRecord_rgi (n : Nat) : (drainRecord n s).rgi = s.rgi := by
  induction n generalizing s with
  | zero => rfl
  | succ n ih =>
    unfold drainRecord; split <;> simp [ih]
@[simp] theorem drainRecord_pending (n : Nat) : (drainRecord n s).pending = s.pending := by
  induction n generalizing s with
  | zero => rfl
  | succ n ih =>
    unfold drainRecord; split <;> simp [ih]

/-! ### claimRecord -/

@[simp] theorem claimRecord_adir (k : RecordClaim) : (s.claimRecord k).adir = s.adir := by
  unfold State.claimRecord; try dsimp only
  (repeat' split) <;> first | rfl | simp | simp [watchFloat, watchMonth]
@[simp] theorem claimRecord_tfu (k : RecordClaim) : (s.claimRecord k).tfu = s.tfu := by
  unfold State.claimRecord; try dsimp only
  (repeat' split) <;> first | rfl | simp | simp [watchFloat, watchMonth]
@[simp] theorem claimRecord_flu (k : RecordClaim) : (s.claimRecord k).flu = s.flu := by
  unfold State.claimRecord; try dsimp only
  (repeat' split) <;> first | rfl | simp | simp [watchFloat, watchMonth]
@[simp] theorem claimRecord_tke (k : RecordClaim) : (s.claimRecord k).tke = s.tke := by
  unfold State.claimRecord; try dsimp only
  (repeat' split) <;> first | rfl | simp | simp [watchFloat, watchMonth]
@[simp] theorem claimRecord_vnc (k : RecordClaim) : (s.claimRecord k).vnc = s.vnc := by
  unfold State.claimRecord; try dsimp only
  (repeat' split) <;> first | rfl | simp | simp [watchFloat, watchMonth]
@[simp] theorem claimRecord_tlu (k : RecordClaim) : (s.claimRecord k).tlu = s.tlu := by
  unfold State.claimRecord; try dsimp only
  (repeat' split) <;> first | rfl | simp | simp [watchFloat, watchMonth]
@[simp] theorem claimRecord_rgi (k : RecordClaim) : (s.claimRecord k).rgi = s.rgi := by
  unfold State.claimRecord; try dsimp only
  (repeat' split) <;> first | rfl | simp | simp [watchFloat, watchMonth]
@[simp] theorem claimRecord_pending (k : RecordClaim) : (s.claimRecord k).pending = s.pending := by
  unfold State.claimRecord; try dsimp only
  (repeat' split) <;> first | rfl | simp | simp [watchFloat, watchMonth]

/-! ### takeNibble -/

@[simp] theorem takeNibble_adir (b : BitVec 4) : (s.takeNibble b).adir = s.adir := by
  unfold State.takeNibble; try dsimp only
  (repeat' split) <;> first | rfl | simp | simp [watchFloat, watchMonth]
@[simp] theorem takeNibble_tfu (b : BitVec 4) : (s.takeNibble b).tfu = s.tfu := by
  unfold State.takeNibble; try dsimp only
  (repeat' split) <;> first | rfl | simp | simp [watchFloat, watchMonth]
@[simp] theorem takeNibble_flu (b : BitVec 4) : (s.takeNibble b).flu = s.flu := by
  unfold State.takeNibble; try dsimp only
  (repeat' split) <;> first | rfl | simp | simp [watchFloat, watchMonth]
@[simp] theorem takeNibble_tke (b : BitVec 4) : (s.takeNibble b).tke = s.tke := by
  unfold State.takeNibble; try dsimp only
  (repeat' split) <;> first | rfl | simp | simp [watchFloat, watchMonth]
@[simp] theorem takeNibble_vnc (b : BitVec 4) : (s.takeNibble b).vnc = s.vnc := by
  unfold State.takeNibble; try dsimp only
  (repeat' split) <;> first | rfl | simp | simp [watchFloat, watchMonth]
@[simp] theorem takeNibble_tlu (b : BitVec 4) : (s.takeNibble b).tlu = s.tlu := by
  unfold State.takeNibble; try dsimp only
  (repeat' split) <;> first | rfl | simp | simp [watchFloat, watchMonth]
@[simp] theorem takeNibble_rgi (b : BitVec 4) : (s.takeNibble b).rgi = s.rgi := by
  unfold State.takeNibble; try dsimp only
  (repeat' split) <;> first | rfl | simp | simp [watchFloat, watchMonth]
@[simp] theorem takeNibble_pending (b : BitVec 4) : (s.takeNibble b).pending = s.pending := by
  unfold State.takeNibble; try dsimp only
  (repeat' split) <;> first | rfl | simp | simp [watchFloat, watchMonth]

/-! ### takeKind -/

@[simp] theorem takeKind_adir (k : Nat) (b : List Byte) : (s.takeKind k b).adir = s.adir := by
  unfold State.takeKind; try dsimp only
  (repeat' split) <;> first | rfl | simp | simp [watchFloat, watchMonth]
@[simp] theorem takeKind_tfu (k : Nat) (b : List Byte) : (s.takeKind k b).tfu = s.tfu := by
  unfold State.takeKind; try dsimp only
  (repeat' split) <;> first | rfl | simp | simp [watchFloat, watchMonth]
@[simp] theorem takeKind_flu (k : Nat) (b : List Byte) : (s.takeKind k b).flu = s.flu := by
  unfold State.takeKind; try dsimp only
  (repeat' split) <;> first | rfl | simp | simp [watchFloat, watchMonth]
@[simp] theorem takeKind_tke (k : Nat) (b : List Byte) : (s.takeKind k b).tke = s.tke := by
  unfold State.takeKind; try dsimp only
  (repeat' split) <;> first | rfl | simp | simp [watchFloat, watchMonth]
@[simp] theorem takeKind_vnc (k : Nat) (b : List Byte) : (s.takeKind k b).vnc = s.vnc := by
  unfold State.takeKind; try dsimp only
  (repeat' split) <;> first | rfl | simp | simp [watchFloat, watchMonth]
@[simp] theorem takeKind_tlu (k : Nat) (b : List Byte) : (s.takeKind k b).tlu = s.tlu := by
  unfold State.takeKind; try dsimp only
  (repeat' split) <;> first | rfl | simp | simp [watchFloat, watchMonth]
@[simp] theorem takeKind_rgi (k : Nat) (b : List Byte) : (s.takeKind k b).rgi = s.rgi := by
  unfold State.takeKind; try dsimp only
  (repeat' split) <;> first | rfl | simp | simp [watchFloat, watchMonth]
@[simp] theorem takeKind_pending (k : Nat) (b : List Byte) : (s.takeKind k b).pending = s.pending := by
  unfold State.takeKind; try dsimp only
  (repeat' split) <;> first | rfl | simp | simp [watchFloat, watchMonth]

/-! ### takeParcel -/

@[simp] theorem takeParcel_adir (k : Nat) (b : BitVec 4) (l : List Byte) : (s.takeParcel k b l).adir = s.adir := by
  unfold State.takeParcel; try dsimp only
  (repeat' split) <;> first | rfl | simp | simp [watchFloat, watchMonth]
@[simp] theorem takeParcel_tfu (k : Nat) (b : BitVec 4) (l : List Byte) : (s.takeParcel k b l).tfu = s.tfu := by
  unfold State.takeParcel; try dsimp only
  (repeat' split) <;> first | rfl | simp | simp [watchFloat, watchMonth]
@[simp] theorem takeParcel_flu (k : Nat) (b : BitVec 4) (l : List Byte) : (s.takeParcel k b l).flu = s.flu := by
  unfold State.takeParcel; try dsimp only
  (repeat' split) <;> first | rfl | simp | simp [watchFloat, watchMonth]
@[simp] theorem takeParcel_tke (k : Nat) (b : BitVec 4) (l : List Byte) : (s.takeParcel k b l).tke = s.tke := by
  unfold State.takeParcel; try dsimp only
  (repeat' split) <;> first | rfl | simp | simp [watchFloat, watchMonth]
@[simp] theorem takeParcel_vnc (k : Nat) (b : BitVec 4) (l : List Byte) : (s.takeParcel k b l).vnc = s.vnc := by
  unfold State.takeParcel; try dsimp only
  (repeat' split) <;> first | rfl | simp | simp [watchFloat, watchMonth]
@[simp] theorem takeParcel_tlu (k : Nat) (b : BitVec 4) (l : List Byte) : (s.takeParcel k b l).tlu = s.tlu := by
  unfold State.takeParcel; try dsimp only
  (repeat' split) <;> first | rfl | simp | simp [watchFloat, watchMonth]
@[simp] theorem takeParcel_rgi (k : Nat) (b : BitVec 4) (l : List Byte) : (s.takeParcel k b l).rgi = s.rgi := by
  unfold State.takeParcel; try dsimp only
  (repeat' split) <;> first | rfl | simp | simp [watchFloat, watchMonth]
@[simp] theorem takeParcel_pending (k : Nat) (b : BitVec 4) (l : List Byte) : (s.takeParcel k b l).pending = s.pending := by
  unfold State.takeParcel; try dsimp only
  (repeat' split) <;> first | rfl | simp | simp [watchFloat, watchMonth]

/-! ### goodParcel -/

@[simp] theorem goodParcel_adir (k : Nat) (b : BitVec 4) (l : List Byte) : (s.goodParcel k b l).adir = s.adir := by
  unfold State.goodParcel; try dsimp only
  (repeat' split) <;> first | rfl | simp | simp [watchFloat, watchMonth]
@[simp] theorem goodParcel_tfu (k : Nat) (b : BitVec 4) (l : List Byte) : (s.goodParcel k b l).tfu = s.tfu := by
  unfold State.goodParcel; try dsimp only
  (repeat' split) <;> first | rfl | simp | simp [watchFloat, watchMonth]
@[simp] theorem goodParcel_flu (k : Nat) (b : BitVec 4) (l : List Byte) : (s.goodParcel k b l).flu = s.flu := by
  unfold State.goodParcel; try dsimp only
  (repeat' split) <;> first | rfl | simp | simp [watchFloat, watchMonth]
@[simp] theorem goodParcel_vnc (k : Nat) (b : BitVec 4) (l : List Byte) : (s.goodParcel k b l).vnc = s.vnc := by
  unfold State.goodParcel; try dsimp only
  (repeat' split) <;> first | rfl | simp | simp [watchFloat, watchMonth]
@[simp] theorem goodParcel_tlu (k : Nat) (b : BitVec 4) (l : List Byte) : (s.goodParcel k b l).tlu = s.tlu := by
  unfold State.goodParcel; try dsimp only
  (repeat' split) <;> first | rfl | simp | simp [watchFloat, watchMonth]
@[simp] theorem goodParcel_rgi (k : Nat) (b : BitVec 4) (l : List Byte) : (s.goodParcel k b l).rgi = s.rgi := by
  unfold State.goodParcel; try dsimp only
  (repeat' split) <;> first | rfl | simp | simp [watchFloat, watchMonth]
@[simp] theorem goodParcel_pending (k : Nat) (b : BitVec 4) (l : List Byte) : (s.goodParcel k b l).pending = s.pending := by
  unfold State.goodParcel; try dsimp only
  (repeat' split) <;> first | rfl | simp | simp [watchFloat, watchMonth]

/-! ### badParcel -/

@[simp] theorem badParcel_adir : (s.badParcel).adir = s.adir := by
  unfold State.badParcel; try dsimp only
  (repeat' split) <;> first | rfl | simp | simp [watchFloat, watchMonth]
@[simp] theorem badParcel_tfu : (s.badParcel).tfu = s.tfu := by
  unfold State.badParcel; try dsimp only
  (repeat' split) <;> first | rfl | simp | simp [watchFloat, watchMonth]
@[simp] theorem badParcel_flu : (s.badParcel).flu = s.flu := by
  unfold State.badParcel; try dsimp only
  (repeat' split) <;> first | rfl | simp | simp [watchFloat, watchMonth]
@[simp] theorem badParcel_vnc : (s.badParcel).vnc = s.vnc := by
  unfold State.badParcel; try dsimp only
  (repeat' split) <;> first | rfl | simp | simp [watchFloat, watchMonth]
@[simp] theorem badParcel_tlu : (s.badParcel).tlu = s.tlu := by
  unfold State.badParcel; try dsimp only
  (repeat' split) <;> first | rfl | simp | simp [watchFloat, watchMonth]
@[simp] theorem badParcel_rgi : (s.badParcel).rgi = s.rgi := by
  unfold State.badParcel; try dsimp only
  (repeat' split) <;> first | rfl | simp | simp [watchFloat, watchMonth]
@[simp] theorem badParcel_pending : (s.badParcel).pending = s.pending := by
  unfold State.badParcel; try dsimp only
  (repeat' split) <;> first | rfl | simp | simp [watchFloat, watchMonth]

/-! ### judged -/

@[simp] theorem judged_adir (p : Judged) : (s.judged p).adir = s.adir := by
  unfold State.judged; try dsimp only
  (repeat' split) <;> first | rfl | simp | simp [watchFloat, watchMonth]
@[simp] theorem judged_tfu (p : Judged) : (s.judged p).tfu = s.tfu := by
  unfold State.judged; try dsimp only
  (repeat' split) <;> first | rfl | simp | simp [watchFloat, watchMonth]
@[simp] theorem judged_flu (p : Judged) : (s.judged p).flu = s.flu := by
  unfold State.judged; try dsimp only
  (repeat' split) <;> first | rfl | simp | simp [watchFloat, watchMonth]
@[simp] theorem judged_vnc (p : Judged) : (s.judged p).vnc = s.vnc := by
  unfold State.judged; try dsimp only
  (repeat' split) <;> first | rfl | simp | simp [watchFloat, watchMonth]
@[simp] theorem judged_tlu (p : Judged) : (s.judged p).tlu = s.tlu := by
  unfold State.judged; try dsimp only
  (repeat' split) <;> first | rfl | simp | simp [watchFloat, watchMonth]
@[simp] theorem judged_rgi (p : Judged) : (s.judged p).rgi = s.rgi := by
  unfold State.judged; try dsimp only
  (repeat' split) <;> first | rfl | simp | simp [watchFloat, watchMonth]
@[simp] theorem judged_pending (p : Judged) : (s.judged p).pending = s.pending := by
  unfold State.judged; try dsimp only
  (repeat' split) <;> first | rfl | simp | simp [watchFloat, watchMonth]

/-! ### receive -/

@[simp] theorem receive_adir (n : Nat) : (receive n s).adir = s.adir := by
  induction n generalizing s with
  | zero => rfl
  | succ n ih =>
    unfold receive; try dsimp only
    (repeat' split) <;> first | rfl | simp [ih]
@[simp] theorem receive_tfu (n : Nat) : (receive n s).tfu = s.tfu := by
  induction n generalizing s with
  | zero => rfl
  | succ n ih =>
    unfold receive; try dsimp only
    (repeat' split) <;> first | rfl | simp [ih]
@[simp] theorem receive_flu (n : Nat) : (receive n s).flu = s.flu := by
  induction n generalizing s with
  | zero => rfl
  | succ n ih =>
    unfold receive; try dsimp only
    (repeat' split) <;> first | rfl | simp [ih]
@[simp] theorem receive_vnc (n : Nat) : (receive n s).vnc = s.vnc := by
  induction n generalizing s with
  | zero => rfl
  | succ n ih =>
    unfold receive; try dsimp only
    (repeat' split) <;> first | rfl | simp [ih]
@[simp] theorem receive_tlu (n : Nat) : (receive n s).tlu = s.tlu := by
  induction n generalizing s with
  | zero => rfl
  | succ n ih =>
    unfold receive; try dsimp only
    (repeat' split) <;> first | rfl | simp [ih]
@[simp] theorem receive_rgi (n : Nat) : (receive n s).rgi = s.rgi := by
  induction n generalizing s with
  | zero => rfl
  | succ n ih =>
    unfold receive; try dsimp only
    (repeat' split) <;> first | rfl | simp [ih]
@[simp] theorem receive_pending (n : Nat) : (receive n s).pending = s.pending := by
  induction n generalizing s with
  | zero => rfl
  | succ n ih =>
    unfold receive; try dsimp only
    (repeat' split) <;> first | rfl | simp [ih]

/-! ### receiveBytes -/

@[simp] theorem receiveBytes_adir (l : List Byte) : (s.receiveBytes l).adir = s.adir := by
  unfold State.receiveBytes; try dsimp only
  (repeat' split) <;> first | rfl | simp | simp [watchFloat, watchMonth]
@[simp] theorem receiveBytes_tfu (l : List Byte) : (s.receiveBytes l).tfu = s.tfu := by
  unfold State.receiveBytes; try dsimp only
  (repeat' split) <;> first | rfl | simp | simp [watchFloat, watchMonth]
@[simp] theorem receiveBytes_flu (l : List Byte) : (s.receiveBytes l).flu = s.flu := by
  unfold State.receiveBytes; try dsimp only
  (repeat' split) <;> first | rfl | simp | simp [watchFloat, watchMonth]
@[simp] theorem receiveBytes_vnc (l : List Byte) : (s.receiveBytes l).vnc = s.vnc := by
  unfold State.receiveBytes; try dsimp only
  (repeat' split) <;> first | rfl | simp | simp [watchFloat, watchMonth]
@[simp] theorem receiveBytes_tlu (l : List Byte) : (s.receiveBytes l).tlu = s.tlu := by
  unfold State.receiveBytes; try dsimp only
  (repeat' split) <;> first | rfl | simp | simp [watchFloat, watchMonth]
@[simp] theorem receiveBytes_rgi (l : List Byte) : (s.receiveBytes l).rgi = s.rgi := by
  unfold State.receiveBytes; try dsimp only
  (repeat' split) <;> first | rfl | simp | simp [watchFloat, watchMonth]
@[simp] theorem receiveBytes_pending (l : List Byte) : (s.receiveBytes l).pending = s.pending := by
  unfold State.receiveBytes; try dsimp only
  (repeat' split) <;> first | rfl | simp | simp [watchFloat, watchMonth]

/-! ### settleRange -/

@[simp] theorem settleRange_tfu (a b : Nat) : (s.settleRange a b).tfu = s.tfu := rfl
@[simp] theorem settleRange_flu (a b : Nat) : (s.settleRange a b).flu = s.flu := rfl
@[simp] theorem settleRange_tke (a b : Nat) : (s.settleRange a b).tke = s.tke := rfl
@[simp] theorem settleRange_vnc (a b : Nat) : (s.settleRange a b).vnc = s.vnc := rfl
@[simp] theorem settleRange_tlu (a b : Nat) : (s.settleRange a b).tlu = s.tlu := rfl
@[simp] theorem settleRange_ulc (a b : Nat) : (s.settleRange a b).ulc = s.ulc := rfl
@[simp] theorem settleRange_rgi (a b : Nat) : (s.settleRange a b).rgi = s.rgi := rfl
@[simp] theorem settleRange_atc (a b : Nat) : (s.settleRange a b).atc = s.atc := rfl
@[simp] theorem settleRange_pending (a b : Nat) : (s.settleRange a b).pending = s.pending := rfl

/-! ### claimRange -/

@[simp] theorem claimRange_adir (a b : Nat) :
    (s.claimRange a b).adir =
      { (s.settleRange a b).adir with
        waiting := s.adir.waiting.filter fun x =>
          !(s.adir.writes.any fun w => decide (w.old.number = x.meter) && decide (a ≤ w.slot) && decide (w.slot < b)) } := by
  simp [State.claimRange, State.settleRange]

/-- A sweep read that finds no hold claim waiting settles the writes of the slots examined, and no more (R2). -/
theorem claimRange_of_none (a b : Nat) (h : s.adir.waiting = []) : s.claimRange a b = s.settleRange a b :=
  answerHolds_of_none _ _ (by simp [State.settleRange, h])
@[simp] theorem claimRange_tfu (a b : Nat) : (s.claimRange a b).tfu = s.tfu := by simp [State.claimRange]
@[simp] theorem claimRange_flu (a b : Nat) : (s.claimRange a b).flu = s.flu := by simp [State.claimRange]
@[simp] theorem claimRange_tke (a b : Nat) : (s.claimRange a b).tke = s.tke := by simp [State.claimRange]
@[simp] theorem claimRange_ulc (a b : Nat) : (s.claimRange a b).ulc = s.ulc := by simp [State.claimRange]
@[simp] theorem claimRange_pending (a b : Nat) : (s.claimRange a b).pending = s.pending := by simp [State.claimRange]

/-! ### beginPage -/

@[simp] theorem beginPage_tfu : (s.beginPage).tfu = s.tfu := by simp [State.beginPage]
@[simp] theorem beginPage_flu : (s.beginPage).flu = s.flu := by simp [State.beginPage]
@[simp] theorem beginPage_tke : (s.beginPage).tke = s.tke := by simp [State.beginPage]
@[simp] theorem beginPage_pending : (s.beginPage).pending = s.pending := by simp [State.beginPage]

/-! ### initFails -/

@[simp] theorem initFails_adir (a : InitReason) (n : Nat) : (s.initFails a n).adir = s.adir := rfl
@[simp] theorem initFails_tfu (a : InitReason) (n : Nat) : (s.initFails a n).tfu = s.tfu := rfl
@[simp] theorem initFails_flu (a : InitReason) (n : Nat) : (s.initFails a n).flu = s.flu := rfl
@[simp] theorem initFails_tke (a : InitReason) (n : Nat) : (s.initFails a n).tke = s.tke := rfl
@[simp] theorem initFails_vnc (a : InitReason) (n : Nat) : (s.initFails a n).vnc = s.vnc := rfl
@[simp] theorem initFails_tlu (a : InitReason) (n : Nat) : (s.initFails a n).tlu = s.tlu := rfl
@[simp] theorem initFails_ulc (a : InitReason) (n : Nat) : (s.initFails a n).ulc = s.ulc := rfl
@[simp] theorem initFails_pending (a : InitReason) (n : Nat) : (s.initFails a n).pending = s.pending := rfl

/-! ### beginInit -/

@[simp] theorem beginInit_adir : (s.beginInit).adir = s.adir := by
  unfold State.beginInit; try dsimp only
  (repeat' split) <;> first | rfl | simp | simp [watchFloat, watchMonth]
@[simp] theorem beginInit_tfu : (s.beginInit).tfu = s.tfu := by
  unfold State.beginInit; try dsimp only
  (repeat' split) <;> first | rfl | simp | simp [watchFloat, watchMonth]
@[simp] theorem beginInit_flu : (s.beginInit).flu = s.flu := by
  unfold State.beginInit; try dsimp only
  (repeat' split) <;> first | rfl | simp | simp [watchFloat, watchMonth]
@[simp] theorem beginInit_tke : (s.beginInit).tke = s.tke := by
  unfold State.beginInit; try dsimp only
  (repeat' split) <;> first | rfl | simp | simp [watchFloat, watchMonth]
@[simp] theorem beginInit_vnc : (s.beginInit).vnc = s.vnc := by
  unfold State.beginInit; try dsimp only
  (repeat' split) <;> first | rfl | simp | simp [watchFloat, watchMonth]
@[simp] theorem beginInit_tlu : (s.beginInit).tlu = s.tlu := by
  unfold State.beginInit; try dsimp only
  (repeat' split) <;> first | rfl | simp | simp [watchFloat, watchMonth]
@[simp] theorem beginInit_ulc : (s.beginInit).ulc = s.ulc := by
  unfold State.beginInit; try dsimp only
  (repeat' split) <;> first | rfl | simp | simp [watchFloat, watchMonth]
@[simp] theorem beginInit_pending : (s.beginInit).pending = s.pending := by
  unfold State.beginInit; try dsimp only
  (repeat' split) <;> first | rfl | simp | simp [watchFloat, watchMonth]

/-! ### setMask -/

@[simp] theorem setMask_adir (m : BitVec 9) : (s.setMask m).adir = s.adir := rfl
@[simp] theorem setMask_tfu (m : BitVec 9) : (s.setMask m).tfu = s.tfu := rfl
@[simp] theorem setMask_flu (m : BitVec 9) : (s.setMask m).flu = s.flu := rfl
@[simp] theorem setMask_tke (m : BitVec 9) : (s.setMask m).tke = s.tke := rfl
@[simp] theorem setMask_vnc (m : BitVec 9) : (s.setMask m).vnc = s.vnc := rfl
@[simp] theorem setMask_tlu (m : BitVec 9) : (s.setMask m).tlu = s.tlu := rfl
@[simp] theorem setMask_ulc (m : BitVec 9) : (s.setMask m).ulc = s.ulc := rfl
@[simp] theorem setMask_atc (m : BitVec 9) : (s.setMask m).atc = s.atc := rfl
@[simp] theorem setMask_pending (m : BitVec 9) : (s.setMask m).pending = s.pending := rfl

/-! ### initPulse -/

@[simp] theorem initPulse_adir (m : BitVec 9) : (s.initPulse m).adir = s.adir := by
  unfold State.initPulse; try dsimp only
  (repeat' split) <;> first | rfl | simp | simp [watchFloat, watchMonth]
@[simp] theorem initPulse_tfu (m : BitVec 9) : (s.initPulse m).tfu = s.tfu := by
  unfold State.initPulse; try dsimp only
  (repeat' split) <;> first | rfl | simp | simp [watchFloat, watchMonth]
@[simp] theorem initPulse_flu (m : BitVec 9) : (s.initPulse m).flu = s.flu := by
  unfold State.initPulse; try dsimp only
  (repeat' split) <;> first | rfl | simp | simp [watchFloat, watchMonth]
@[simp] theorem initPulse_tke (m : BitVec 9) : (s.initPulse m).tke = s.tke := by
  unfold State.initPulse; try dsimp only
  (repeat' split) <;> first | rfl | simp | simp [watchFloat, watchMonth]
@[simp] theorem initPulse_vnc (m : BitVec 9) : (s.initPulse m).vnc = s.vnc := by
  unfold State.initPulse; try dsimp only
  (repeat' split) <;> first | rfl | simp | simp [watchFloat, watchMonth]
@[simp] theorem initPulse_tlu (m : BitVec 9) : (s.initPulse m).tlu = s.tlu := by
  unfold State.initPulse; try dsimp only
  (repeat' split) <;> first | rfl | simp | simp [watchFloat, watchMonth]
@[simp] theorem initPulse_ulc (m : BitVec 9) : (s.initPulse m).ulc = s.ulc := by
  unfold State.initPulse; try dsimp only
  (repeat' split) <;> first | rfl | simp | simp [watchFloat, watchMonth]
@[simp] theorem initPulse_pending (m : BitVec 9) : (s.initPulse m).pending = s.pending := by
  unfold State.initPulse; try dsimp only
  (repeat' split) <;> first | rfl | simp | simp [watchFloat, watchMonth]

/-! ### clearRingFault -/

@[simp] theorem clearRingFault_adir (r : Holder) : (State.clearRingFault r s).adir = s.adir := by
  unfold State.clearRingFault; try dsimp only
  (repeat' split) <;> first | rfl | simp | simp [watchFloat, watchMonth]
@[simp] theorem clearRingFault_tfu (r : Holder) : (State.clearRingFault r s).tfu = s.tfu := by
  unfold State.clearRingFault; try dsimp only
  (repeat' split) <;> first | rfl | simp | simp [watchFloat, watchMonth]
@[simp] theorem clearRingFault_flu (r : Holder) : (State.clearRingFault r s).flu = s.flu := by
  unfold State.clearRingFault; try dsimp only
  (repeat' split) <;> first | rfl | simp | simp [watchFloat, watchMonth]
@[simp] theorem clearRingFault_tke (r : Holder) : (State.clearRingFault r s).tke = s.tke := by
  unfold State.clearRingFault; try dsimp only
  (repeat' split) <;> first | rfl | simp | simp [watchFloat, watchMonth]
@[simp] theorem clearRingFault_ulc (r : Holder) : (State.clearRingFault r s).ulc = s.ulc := by
  unfold State.clearRingFault; try dsimp only
  (repeat' split) <;> first | rfl | simp | simp [watchFloat, watchMonth]
@[simp] theorem clearRingFault_pending (r : Holder) : (State.clearRingFault r s).pending = s.pending := by
  unfold State.clearRingFault; try dsimp only
  (repeat' split) <;> first | rfl | simp | simp [watchFloat, watchMonth]

/-! ### clearBusFault -/

@[simp] theorem clearBusFault_adir : (s.clearBusFault).adir = s.adir := by
  unfold State.clearBusFault; try dsimp only
  (repeat' split) <;> first | rfl | simp | simp [watchFloat, watchMonth]
@[simp] theorem clearBusFault_tfu : (s.clearBusFault).tfu = s.tfu := by
  unfold State.clearBusFault; try dsimp only
  (repeat' split) <;> first | rfl | simp | simp [watchFloat, watchMonth]
@[simp] theorem clearBusFault_flu : (s.clearBusFault).flu = s.flu := by
  unfold State.clearBusFault; try dsimp only
  (repeat' split) <;> first | rfl | simp | simp [watchFloat, watchMonth]
@[simp] theorem clearBusFault_tke : (s.clearBusFault).tke = s.tke := by
  unfold State.clearBusFault; try dsimp only
  (repeat' split) <;> first | rfl | simp | simp [watchFloat, watchMonth]
@[simp] theorem clearBusFault_vnc : (s.clearBusFault).vnc = s.vnc := by
  unfold State.clearBusFault; try dsimp only
  (repeat' split) <;> first | rfl | simp | simp [watchFloat, watchMonth]
@[simp] theorem clearBusFault_tlu : (s.clearBusFault).tlu = s.tlu := by
  unfold State.clearBusFault; try dsimp only
  (repeat' split) <;> first | rfl | simp | simp [watchFloat, watchMonth]
@[simp] theorem clearBusFault_ulc : (s.clearBusFault).ulc = s.ulc := by
  unfold State.clearBusFault; try dsimp only
  (repeat' split) <;> first | rfl | simp | simp [watchFloat, watchMonth]
@[simp] theorem clearBusFault_pending : (s.clearBusFault).pending = s.pending := by
  unfold State.clearBusFault; try dsimp only
  (repeat' split) <;> first | rfl | simp | simp [watchFloat, watchMonth]

/-! ### initPasses -/

@[simp] theorem initPasses_adir (k : InitCopy) : (s.initPasses k).adir = s.adir := by
  unfold State.initPasses; try dsimp only
  (repeat' split) <;> first | rfl | simp | simp [watchFloat, watchMonth]
@[simp] theorem initPasses_tfu (k : InitCopy) : (s.initPasses k).tfu = s.tfu := by
  unfold State.initPasses; try dsimp only
  (repeat' split) <;> first | rfl | simp | simp [watchFloat, watchMonth]
@[simp] theorem initPasses_flu (k : InitCopy) : (s.initPasses k).flu = s.flu := by
  unfold State.initPasses; try dsimp only
  (repeat' split) <;> first | rfl | simp | simp [watchFloat, watchMonth]
@[simp] theorem initPasses_tke (k : InitCopy) : (s.initPasses k).tke = s.tke := by
  unfold State.initPasses; try dsimp only
  (repeat' split) <;> first | rfl | simp | simp [watchFloat, watchMonth]
@[simp] theorem initPasses_vnc (k : InitCopy) : (s.initPasses k).vnc = s.vnc := by
  unfold State.initPasses; try dsimp only
  (repeat' split) <;> first | rfl | simp | simp [watchFloat, watchMonth]
@[simp] theorem initPasses_tlu (k : InitCopy) : (s.initPasses k).tlu = s.tlu := by
  unfold State.initPasses; try dsimp only
  (repeat' split) <;> first | rfl | simp | simp [watchFloat, watchMonth]
@[simp] theorem initPasses_pending (k : InitCopy) : (s.initPasses k).pending = s.pending := by
  unfold State.initPasses; try dsimp only
  (repeat' split) <;> first | rfl | simp | simp [watchFloat, watchMonth]

/-! ### engineRun -/

@[simp] theorem engineRun_adir : (s.engineRun).adir = s.adir := by
  unfold State.engineRun; try dsimp only
  (repeat' split) <;> first | rfl | simp | simp [watchFloat, watchMonth]
@[simp] theorem engineRun_tfu : (s.engineRun).tfu = s.tfu := by
  unfold State.engineRun; try dsimp only
  (repeat' split) <;> first | rfl | simp | simp [watchFloat, watchMonth]
@[simp] theorem engineRun_flu : (s.engineRun).flu = s.flu := by
  unfold State.engineRun; try dsimp only
  (repeat' split) <;> first | rfl | simp | simp [watchFloat, watchMonth]
@[simp] theorem engineRun_vnc : (s.engineRun).vnc = s.vnc := by
  unfold State.engineRun; try dsimp only
  (repeat' split) <;> first | rfl | simp | simp [watchFloat, watchMonth]
@[simp] theorem engineRun_tlu : (s.engineRun).tlu = s.tlu := by
  unfold State.engineRun; try dsimp only
  (repeat' split) <;> first | rfl | simp | simp [watchFloat, watchMonth]
@[simp] theorem engineRun_ulc : (s.engineRun).ulc = s.ulc := by
  unfold State.engineRun; try dsimp only
  (repeat' split) <;> first | rfl | simp | simp [watchFloat, watchMonth]
@[simp] theorem engineRun_rgi : (s.engineRun).rgi = s.rgi := by
  unfold State.engineRun; try dsimp only
  (repeat' split) <;> first | rfl | simp | simp [watchFloat, watchMonth]
@[simp] theorem engineRun_atc : (s.engineRun).atc = s.atc := by
  unfold State.engineRun; try dsimp only
  (repeat' split) <;> first | rfl | simp | simp [watchFloat, watchMonth]
@[simp] theorem engineRun_pending : (s.engineRun).pending = s.pending := by
  unfold State.engineRun; try dsimp only
  (repeat' split) <;> first | rfl | simp | simp [watchFloat, watchMonth]

/-! ### linesReset -/

@[simp] theorem linesReset_adir : (s.linesReset).adir = s.adir := rfl
@[simp] theorem linesReset_tfu : (s.linesReset).tfu = s.tfu := rfl
@[simp] theorem linesReset_flu : (s.linesReset).flu = s.flu := rfl
@[simp] theorem linesReset_tke : (s.linesReset).tke = s.tke := rfl
@[simp] theorem linesReset_vnc : (s.linesReset).vnc = s.vnc := rfl
@[simp] theorem linesReset_ulc : (s.linesReset).ulc = s.ulc := rfl
@[simp] theorem linesReset_rgi : (s.linesReset).rgi = s.rgi := rfl
@[simp] theorem linesReset_atc : (s.linesReset).atc = s.atc := rfl
@[simp] theorem linesReset_pending : (s.linesReset).pending = s.pending := rfl

/-! ### linkReset -/

@[simp] theorem linkReset_adir : (s.linkReset).adir = s.adir := by
  unfold State.linkReset; try dsimp only
  (repeat' split) <;> first | rfl | simp | simp [watchFloat, watchMonth]
@[simp] theorem linkReset_tfu : (s.linkReset).tfu = s.tfu := by
  unfold State.linkReset; try dsimp only
  (repeat' split) <;> first | rfl | simp | simp [watchFloat, watchMonth]
@[simp] theorem linkReset_flu : (s.linkReset).flu = s.flu := by
  unfold State.linkReset; try dsimp only
  (repeat' split) <;> first | rfl | simp | simp [watchFloat, watchMonth]
@[simp] theorem linkReset_vnc : (s.linkReset).vnc = s.vnc := by
  unfold State.linkReset; try dsimp only
  (repeat' split) <;> first | rfl | simp | simp [watchFloat, watchMonth]
@[simp] theorem linkReset_tlu : (s.linkReset).tlu = s.tlu := by
  unfold State.linkReset; try dsimp only
  (repeat' split) <;> first | rfl | simp | simp [watchFloat, watchMonth]
@[simp] theorem linkReset_rgi : (s.linkReset).rgi = s.rgi := by
  unfold State.linkReset; try dsimp only
  (repeat' split) <;> first | rfl | simp | simp [watchFloat, watchMonth]
@[simp] theorem linkReset_pending : (s.linkReset).pending = s.pending := by
  unfold State.linkReset; try dsimp only
  (repeat' split) <;> first | rfl | simp | simp [watchFloat, watchMonth]

/-! ### dropOfficeIssue -/

@[simp] theorem dropOfficeIssue_adir : (s.dropOfficeIssue).adir = s.adir := by
  unfold State.dropOfficeIssue; try dsimp only
  (repeat' split) <;> first | rfl | simp | simp [watchFloat, watchMonth]
@[simp] theorem dropOfficeIssue_tfu : (s.dropOfficeIssue).tfu = s.tfu := by
  unfold State.dropOfficeIssue; try dsimp only
  (repeat' split) <;> first | rfl | simp | simp [watchFloat, watchMonth]
@[simp] theorem dropOfficeIssue_flu : (s.dropOfficeIssue).flu = s.flu := by
  unfold State.dropOfficeIssue; try dsimp only
  (repeat' split) <;> first | rfl | simp | simp [watchFloat, watchMonth]
@[simp] theorem dropOfficeIssue_tke : (s.dropOfficeIssue).tke = s.tke := by
  unfold State.dropOfficeIssue; try dsimp only
  (repeat' split) <;> first | rfl | simp | simp [watchFloat, watchMonth]
@[simp] theorem dropOfficeIssue_vnc : (s.dropOfficeIssue).vnc = s.vnc := by
  unfold State.dropOfficeIssue; try dsimp only
  (repeat' split) <;> first | rfl | simp | simp [watchFloat, watchMonth]
@[simp] theorem dropOfficeIssue_tlu : (s.dropOfficeIssue).tlu = s.tlu := by
  unfold State.dropOfficeIssue; try dsimp only
  (repeat' split) <;> first | rfl | simp | simp [watchFloat, watchMonth]
@[simp] theorem dropOfficeIssue_ulc : (s.dropOfficeIssue).ulc = s.ulc := by
  unfold State.dropOfficeIssue; try dsimp only
  (repeat' split) <;> first | rfl | simp | simp [watchFloat, watchMonth]
@[simp] theorem dropOfficeIssue_atc : (s.dropOfficeIssue).atc = s.atc := by
  unfold State.dropOfficeIssue; try dsimp only
  (repeat' split) <;> first | rfl | simp | simp [watchFloat, watchMonth]
@[simp] theorem dropOfficeIssue_pending : (s.dropOfficeIssue).pending = s.pending := by
  unfold State.dropOfficeIssue; try dsimp only
  (repeat' split) <;> first | rfl | simp | simp [watchFloat, watchMonth]

/-! ### abandonOffice -/

@[simp] theorem abandonOffice_tfu (w : CtxState) : (s.abandonOffice w).tfu = s.tfu := by
  unfold State.abandonOffice; try dsimp only
  (repeat' split) <;> first | rfl | simp | simp [watchFloat, watchMonth]
@[simp] theorem abandonOffice_ulc (w : CtxState) : (s.abandonOffice w).ulc = s.ulc := by
  unfold State.abandonOffice; try dsimp only
  (repeat' split) <;> first | rfl | simp | simp [watchFloat, watchMonth]
@[simp] theorem abandonOffice_pending (w : CtxState) : (s.abandonOffice w).pending = s.pending := by
  unfold State.abandonOffice; try dsimp only
  (repeat' split) <;> first | rfl | simp | simp [watchFloat, watchMonth]

/-! ### abandon -/

@[simp] theorem abandon_tfu (h : Holder) (w : CtxState) : (s.abandon h w).tfu = s.tfu := by
  unfold State.abandon; try dsimp only
  (repeat' split) <;> first | rfl | simp | simp [watchFloat, watchMonth]
@[simp] theorem abandon_ulc (h : Holder) (w : CtxState) : (s.abandon h w).ulc = s.ulc := by
  unfold State.abandon; try dsimp only
  (repeat' split) <;> first | rfl | simp | simp [watchFloat, watchMonth]
@[simp] theorem abandon_pending (h : Holder) (w : CtxState) : (s.abandon h w).pending = s.pending := by
  unfold State.abandon; try dsimp only
  (repeat' split) <;> first | rfl | simp | simp [watchFloat, watchMonth]

/-! ### nextPart -/

@[simp] theorem nextPart_adir : (s.nextPart).adir = s.adir := by
  unfold State.nextPart; try dsimp only
  (repeat' split) <;> first | rfl | simp | simp [watchFloat, watchMonth]
@[simp] theorem nextPart_tfu : (s.nextPart).tfu = s.tfu := by
  unfold State.nextPart; try dsimp only
  (repeat' split) <;> first | rfl | simp | simp [watchFloat, watchMonth]
@[simp] theorem nextPart_flu : (s.nextPart).flu = s.flu := by
  unfold State.nextPart; try dsimp only
  (repeat' split) <;> first | rfl | simp | simp [watchFloat, watchMonth]
@[simp] theorem nextPart_tke : (s.nextPart).tke = s.tke := by
  unfold State.nextPart; try dsimp only
  (repeat' split) <;> first | rfl | simp | simp [watchFloat, watchMonth]
@[simp] theorem nextPart_vnc : (s.nextPart).vnc = s.vnc := by
  unfold State.nextPart; try dsimp only
  (repeat' split) <;> first | rfl | simp | simp [watchFloat, watchMonth]
@[simp] theorem nextPart_tlu : (s.nextPart).tlu = s.tlu := by
  unfold State.nextPart; try dsimp only
  (repeat' split) <;> first | rfl | simp | simp [watchFloat, watchMonth]
@[simp] theorem nextPart_rgi : (s.nextPart).rgi = s.rgi := by
  unfold State.nextPart; try dsimp only
  (repeat' split) <;> first | rfl | simp | simp [watchFloat, watchMonth]
@[simp] theorem nextPart_atc : (s.nextPart).atc = s.atc := by
  unfold State.nextPart; try dsimp only
  (repeat' split) <;> first | rfl | simp | simp [watchFloat, watchMonth]
@[simp] theorem nextPart_pending : (s.nextPart).pending = s.pending := by
  unfold State.nextPart; try dsimp only
  (repeat' split) <;> first | rfl | simp | simp [watchFloat, watchMonth]

/-! ### retireParked -/

@[simp] theorem retireParked_tfu (n : Nat) : (s.retireParked n).tfu = s.tfu := by
  unfold State.retireParked
  suffices h : ∀ (l : List ParkEntry) (t : State),
      (l.foldl (fun s e => (s.unpark e.holder).ctxReply e.holder (Reply.plain .meterRetired)) t).tfu = t.tfu from h _ _
  intro l
  induction l with
  | nil => exact fun _ => rfl
  | cons a l ih => intro t; rw [List.foldl_cons, ih]; simp
@[simp] theorem retireParked_flu (n : Nat) : (s.retireParked n).flu = s.flu := by
  unfold State.retireParked
  suffices h : ∀ (l : List ParkEntry) (t : State),
      (l.foldl (fun s e => (s.unpark e.holder).ctxReply e.holder (Reply.plain .meterRetired)) t).flu = t.flu from h _ _
  intro l
  induction l with
  | nil => exact fun _ => rfl
  | cons a l ih => intro t; rw [List.foldl_cons, ih]; simp
@[simp] theorem retireParked_tke (n : Nat) : (s.retireParked n).tke = s.tke := by
  unfold State.retireParked
  suffices h : ∀ (l : List ParkEntry) (t : State),
      (l.foldl (fun s e => (s.unpark e.holder).ctxReply e.holder (Reply.plain .meterRetired)) t).tke = t.tke from h _ _
  intro l
  induction l with
  | nil => exact fun _ => rfl
  | cons a l ih => intro t; rw [List.foldl_cons, ih]; simp
@[simp] theorem retireParked_ulc (n : Nat) : (s.retireParked n).ulc = s.ulc := by
  unfold State.retireParked
  suffices h : ∀ (l : List ParkEntry) (t : State),
      (l.foldl (fun s e => (s.unpark e.holder).ctxReply e.holder (Reply.plain .meterRetired)) t).ulc = t.ulc from h _ _
  intro l
  induction l with
  | nil => exact fun _ => rfl
  | cons a l ih => intro t; rw [List.foldl_cons, ih]; simp
@[simp] theorem retireParked_pending (n : Nat) : (s.retireParked n).pending = s.pending := by
  unfold State.retireParked
  suffices h : ∀ (l : List ParkEntry) (t : State),
      (l.foldl (fun s e => (s.unpark e.holder).ctxReply e.holder (Reply.plain .meterRetired)) t).pending = t.pending from h _ _
  intro l
  induction l with
  | nil => exact fun _ => rfl
  | cons a l ih => intro t; rw [List.foldl_cons, ih]; simp

/-! ### claimed -/

@[simp] theorem claimed_adir : (s.claimed).adir = s.adir := rfl
@[simp] theorem claimed_tfu : (s.claimed).tfu = s.tfu := rfl
@[simp] theorem claimed_flu : (s.claimed).flu = s.flu := rfl
@[simp] theorem claimed_tke : (s.claimed).tke = s.tke := rfl
@[simp] theorem claimed_vnc : (s.claimed).vnc = s.vnc := rfl
@[simp] theorem claimed_tlu : (s.claimed).tlu = s.tlu := rfl
@[simp] theorem claimed_rgi : (s.claimed).rgi = s.rgi := rfl
@[simp] theorem claimed_atc : (s.claimed).atc = s.atc := rfl
@[simp] theorem claimed_pending : (s.claimed).pending = s.pending := rfl

/-! ### setClock -/

@[simp] theorem setClock_adir (m : Nat) : (s.setClock m).adir = s.adir := by simp [State.setClock]
@[simp] theorem setClock_tke (m : Nat) : (s.setClock m).tke = s.tke.setTo m := by simp [State.setClock]
@[simp] theorem setClock_flu (m : Nat) : (s.setClock m).flu = s.flu := by simp [State.setClock]
@[simp] theorem setClock_vnc (m : Nat) : (s.setClock m).vnc = s.vnc := by simp [State.setClock]
@[simp] theorem setClock_tlu (m : Nat) : (s.setClock m).tlu = s.tlu := by simp [State.setClock]
@[simp] theorem setClock_ulc (m : Nat) : (s.setClock m).ulc = s.ulc := by simp [State.setClock]
@[simp] theorem setClock_rgi (m : Nat) : (s.setClock m).rgi = s.rgi := by simp [State.setClock]
@[simp] theorem setClock_pending (m : Nat) : (s.setClock m).pending = s.pending := by simp [State.setClock]

/-! ### lineRead -/

@[simp] theorem lineRead_adir (c : Counter) : (s.lineRead c).adir = s.adir := by
  unfold State.lineRead; try dsimp only
  (repeat' split) <;> first | rfl | simp | simp [watchFloat, watchMonth]
@[simp] theorem lineRead_tfu (c : Counter) : (s.lineRead c).tfu = s.tfu := by
  unfold State.lineRead; try dsimp only
  (repeat' split) <;> first | rfl | simp | simp [watchFloat, watchMonth]
@[simp] theorem lineRead_flu (c : Counter) : (s.lineRead c).flu = s.flu := by
  unfold State.lineRead; try dsimp only
  (repeat' split) <;> first | rfl | simp | simp [watchFloat, watchMonth]
@[simp] theorem lineRead_tke (c : Counter) : (s.lineRead c).tke = s.tke := by
  unfold State.lineRead; try dsimp only
  (repeat' split) <;> first | rfl | simp | simp [watchFloat, watchMonth]
@[simp] theorem lineRead_vnc (c : Counter) : (s.lineRead c).vnc = s.vnc := by
  unfold State.lineRead; try dsimp only
  (repeat' split) <;> first | rfl | simp | simp [watchFloat, watchMonth]
@[simp] theorem lineRead_tlu (c : Counter) : (s.lineRead c).tlu = s.tlu := by
  unfold State.lineRead; try dsimp only
  (repeat' split) <;> first | rfl | simp | simp [watchFloat, watchMonth]
@[simp] theorem lineRead_ulc (c : Counter) : (s.lineRead c).ulc = s.ulc := by
  unfold State.lineRead; try dsimp only
  (repeat' split) <;> first | rfl | simp | simp [watchFloat, watchMonth]
@[simp] theorem lineRead_rgi (c : Counter) : (s.lineRead c).rgi = s.rgi := by
  unfold State.lineRead; try dsimp only
  (repeat' split) <;> first | rfl | simp | simp [watchFloat, watchMonth]
@[simp] theorem lineRead_atc (c : Counter) : (s.lineRead c).atc = s.atc := by
  unfold State.lineRead; try dsimp only
  (repeat' split) <;> first | rfl | simp | simp [watchFloat, watchMonth]
@[simp] theorem lineRead_pending (c : Counter) : (s.lineRead c).pending = s.pending := by
  unfold State.lineRead; try dsimp only
  (repeat' split) <;> first | rfl | simp | simp [watchFloat, watchMonth]

/-! ### recoverTill -/

@[simp] theorem recoverTill_adir (c : Counter) (i : Image) : (s.recoverTill c i).adir = s.adir := by
  unfold State.recoverTill; try dsimp only
  (repeat' split) <;> first | rfl | simp | simp [watchFloat, watchMonth]
@[simp] theorem recoverTill_tfu (c : Counter) (i : Image) : (s.recoverTill c i).tfu = s.tfu := by
  unfold State.recoverTill; try dsimp only
  (repeat' split) <;> first | rfl | simp | simp [watchFloat, watchMonth]
@[simp] theorem recoverTill_flu (c : Counter) (i : Image) : (s.recoverTill c i).flu = s.flu := by
  unfold State.recoverTill; try dsimp only
  (repeat' split) <;> first | rfl | simp | simp [watchFloat, watchMonth]
@[simp] theorem recoverTill_tke (c : Counter) (i : Image) : (s.recoverTill c i).tke = s.tke := by
  unfold State.recoverTill; try dsimp only
  (repeat' split) <;> first | rfl | simp | simp [watchFloat, watchMonth]
@[simp] theorem recoverTill_vnc (c : Counter) (i : Image) : (s.recoverTill c i).vnc = s.vnc := by
  unfold State.recoverTill; try dsimp only
  (repeat' split) <;> first | rfl | simp | simp [watchFloat, watchMonth]
@[simp] theorem recoverTill_ulc (c : Counter) (i : Image) : (s.recoverTill c i).ulc = s.ulc := by
  unfold State.recoverTill; try dsimp only
  (repeat' split) <;> first | rfl | simp | simp [watchFloat, watchMonth]
@[simp] theorem recoverTill_rgi (c : Counter) (i : Image) : (s.recoverTill c i).rgi = s.rgi := by
  unfold State.recoverTill; try dsimp only
  (repeat' split) <;> first | rfl | simp | simp [watchFloat, watchMonth]
@[simp] theorem recoverTill_pending (c : Counter) (i : Image) : (s.recoverTill c i).pending = s.pending := by
  unfold State.recoverTill; try dsimp only
  (repeat' split) <;> first | rfl | simp | simp [watchFloat, watchMonth]

/-! ### recoverFloat -/

@[simp] theorem recoverFloat_adir (c : Counter) (i : Image) : (s.recoverFloat c i).adir = s.adir := by
  unfold State.recoverFloat; try dsimp only
  (repeat' split) <;> first | rfl | simp | simp [watchFloat, watchMonth]
@[simp] theorem recoverFloat_tfu (c : Counter) (i : Image) : (s.recoverFloat c i).tfu = s.tfu := by
  unfold State.recoverFloat; try dsimp only
  (repeat' split) <;> first | rfl | simp | simp [watchFloat, watchMonth]
@[simp] theorem recoverFloat_tke (c : Counter) (i : Image) : (s.recoverFloat c i).tke = s.tke := by
  unfold State.recoverFloat; try dsimp only
  (repeat' split) <;> first | rfl | simp | simp [watchFloat, watchMonth]
@[simp] theorem recoverFloat_vnc (c : Counter) (i : Image) : (s.recoverFloat c i).vnc = s.vnc := by
  unfold State.recoverFloat; try dsimp only
  (repeat' split) <;> first | rfl | simp | simp [watchFloat, watchMonth]
@[simp] theorem recoverFloat_tlu (c : Counter) (i : Image) : (s.recoverFloat c i).tlu = s.tlu := by
  unfold State.recoverFloat; try dsimp only
  (repeat' split) <;> first | rfl | simp | simp [watchFloat, watchMonth]
@[simp] theorem recoverFloat_ulc (c : Counter) (i : Image) : (s.recoverFloat c i).ulc = s.ulc := by
  unfold State.recoverFloat; try dsimp only
  (repeat' split) <;> first | rfl | simp | simp [watchFloat, watchMonth]
@[simp] theorem recoverFloat_rgi (c : Counter) (i : Image) : (s.recoverFloat c i).rgi = s.rgi := by
  unfold State.recoverFloat; try dsimp only
  (repeat' split) <;> first | rfl | simp | simp [watchFloat, watchMonth]
@[simp] theorem recoverFloat_atc (c : Counter) (i : Image) : (s.recoverFloat c i).atc = s.atc := by
  unfold State.recoverFloat; try dsimp only
  (repeat' split) <;> first | rfl | simp | simp [watchFloat, watchMonth]
@[simp] theorem recoverFloat_pending (c : Counter) (i : Image) : (s.recoverFloat c i).pending = s.pending := by
  unfold State.recoverFloat; try dsimp only
  (repeat' split) <;> first | rfl | simp | simp [watchFloat, watchMonth]

/-! ### passClaim -/

@[simp] theorem passClaim_tfu (c : Counter) (k : PassClaim) : (s.passClaim c k).tfu = s.tfu := by
  unfold State.passClaim; try dsimp only
  (repeat' split) <;> first | rfl | simp | simp [watchFloat, watchMonth]
@[simp] theorem passClaim_tke (c : Counter) (k : PassClaim) : (s.passClaim c k).tke = s.tke := by
  unfold State.passClaim; try dsimp only
  (repeat' split) <;> first | rfl | simp | simp [watchFloat, watchMonth]
@[simp] theorem passClaim_vnc (c : Counter) (k : PassClaim) : (s.passClaim c k).vnc = s.vnc := by
  unfold State.passClaim; try dsimp only
  (repeat' split) <;> first | rfl | simp | simp [watchFloat, watchMonth]
@[simp] theorem passClaim_ulc (c : Counter) (k : PassClaim) : (s.passClaim c k).ulc = s.ulc := by
  unfold State.passClaim; try dsimp only
  (repeat' split) <;> first | rfl | simp | simp [watchFloat, watchMonth]
@[simp] theorem passClaim_rgi (c : Counter) (k : PassClaim) : (s.passClaim c k).rgi = s.rgi := by
  unfold State.passClaim; try dsimp only
  (repeat' split) <;> first | rfl | simp | simp [watchFloat, watchMonth]
@[simp] theorem passClaim_pending (c : Counter) (k : PassClaim) : (s.passClaim c k).pending = s.pending := by
  unfold State.passClaim; try dsimp only
  (repeat' split) <;> first | rfl | simp | simp [watchFloat, watchMonth]

/-! ### clearHold -/

@[simp] theorem clearHold_tfu (n : Nat) : (s.clearHold n).tfu = s.tfu := by
  unfold State.clearHold; try dsimp only
  (repeat' split) <;> first | rfl | simp | simp [watchFloat, watchMonth]
@[simp] theorem clearHold_flu (n : Nat) : (s.clearHold n).flu = s.flu := by
  unfold State.clearHold; try dsimp only
  (repeat' split) <;> first | rfl | simp | simp [watchFloat, watchMonth]
@[simp] theorem clearHold_tke (n : Nat) : (s.clearHold n).tke = s.tke := by
  unfold State.clearHold; try dsimp only
  (repeat' split) <;> first | rfl | simp | simp [watchFloat, watchMonth]
@[simp] theorem clearHold_vnc (n : Nat) : (s.clearHold n).vnc = s.vnc := by
  unfold State.clearHold; try dsimp only
  (repeat' split) <;> first | rfl | simp | simp [watchFloat, watchMonth]
@[simp] theorem clearHold_tlu (n : Nat) : (s.clearHold n).tlu = s.tlu := by
  unfold State.clearHold; try dsimp only
  (repeat' split) <;> first | rfl | simp | simp [watchFloat, watchMonth]
@[simp] theorem clearHold_ulc (n : Nat) : (s.clearHold n).ulc = s.ulc := by
  unfold State.clearHold; try dsimp only
  (repeat' split) <;> first | rfl | simp | simp [watchFloat, watchMonth]
@[simp] theorem clearHold_rgi (n : Nat) : (s.clearHold n).rgi = s.rgi := by
  unfold State.clearHold; try dsimp only
  (repeat' split) <;> first | rfl | simp | simp [watchFloat, watchMonth]
@[simp] theorem clearHold_atc (n : Nat) : (s.clearHold n).atc = s.atc := by
  unfold State.clearHold; try dsimp only
  (repeat' split) <;> first | rfl | simp | simp [watchFloat, watchMonth]
@[simp] theorem clearHold_pending (n : Nat) : (s.clearHold n).pending = s.pending := by
  unfold State.clearHold; try dsimp only
  (repeat' split) <;> first | rfl | simp | simp [watchFloat, watchMonth]

/-! ### cutHolds -/

@[simp] theorem cutHolds_tfu : (s.cutHolds).tfu = s.tfu := by
  unfold State.cutHolds
  generalize s.adir.table = l
  induction l generalizing s with
  | nil => rfl
  | cons p l ih => rw [List.foldl_cons, ih]; split <;> simp
@[simp] theorem cutHolds_flu : (s.cutHolds).flu = s.flu := by
  unfold State.cutHolds
  generalize s.adir.table = l
  induction l generalizing s with
  | nil => rfl
  | cons p l ih => rw [List.foldl_cons, ih]; split <;> simp
@[simp] theorem cutHolds_tke : (s.cutHolds).tke = s.tke := by
  unfold State.cutHolds
  generalize s.adir.table = l
  induction l generalizing s with
  | nil => rfl
  | cons p l ih => rw [List.foldl_cons, ih]; split <;> simp
@[simp] theorem cutHolds_vnc : (s.cutHolds).vnc = s.vnc := by
  unfold State.cutHolds
  generalize s.adir.table = l
  induction l generalizing s with
  | nil => rfl
  | cons p l ih => rw [List.foldl_cons, ih]; split <;> simp
@[simp] theorem cutHolds_tlu : (s.cutHolds).tlu = s.tlu := by
  unfold State.cutHolds
  generalize s.adir.table = l
  induction l generalizing s with
  | nil => rfl
  | cons p l ih => rw [List.foldl_cons, ih]; split <;> simp
@[simp] theorem cutHolds_ulc : (s.cutHolds).ulc = s.ulc := by
  unfold State.cutHolds
  generalize s.adir.table = l
  induction l generalizing s with
  | nil => rfl
  | cons p l ih => rw [List.foldl_cons, ih]; split <;> simp
@[simp] theorem cutHolds_rgi : (s.cutHolds).rgi = s.rgi := by
  unfold State.cutHolds
  generalize s.adir.table = l
  induction l generalizing s with
  | nil => rfl
  | cons p l ih => rw [List.foldl_cons, ih]; split <;> simp
@[simp] theorem cutHolds_atc : (s.cutHolds).atc = s.atc := by
  unfold State.cutHolds
  generalize s.adir.table = l
  induction l generalizing s with
  | nil => rfl
  | cons p l ih => rw [List.foldl_cons, ih]; split <;> simp
@[simp] theorem cutHolds_pending : (s.cutHolds).pending = s.pending := by
  unfold State.cutHolds
  generalize s.adir.table = l
  induction l generalizing s with
  | nil => rfl
  | cons p l ih => rw [List.foldl_cons, ih]; split <;> simp

/-! ### beginPass -/

@[simp] theorem beginPass_tfu : (s.beginPass).tfu = s.tfu := rfl
@[simp] theorem beginPass_tke : (s.beginPass).tke = s.tke := rfl
@[simp] theorem beginPass_vnc : (s.beginPass).vnc = s.vnc := rfl
@[simp] theorem beginPass_ulc : (s.beginPass).ulc = s.ulc := rfl
@[simp] theorem beginPass_rgi : (s.beginPass).rgi = s.rgi := rfl
@[simp] theorem beginPass_atc : (s.beginPass).atc = s.atc := rfl
@[simp] theorem beginPass_pending : (s.beginPass).pending = s.pending := rfl

/-! ### unpass -/

@[simp] theorem unpass_tfu : (s.unpass).tfu = s.tfu := rfl
@[simp] theorem unpass_tke : (s.unpass).tke = s.tke := rfl
@[simp] theorem unpass_vnc : (s.unpass).vnc = s.vnc := rfl
@[simp] theorem unpass_ulc : (s.unpass).ulc = s.ulc := rfl
@[simp] theorem unpass_rgi : (s.unpass).rgi = s.rgi := rfl
@[simp] theorem unpass_atc : (s.unpass).atc = s.atc := rfl
@[simp] theorem unpass_pending : (s.unpass).pending = s.pending := rfl

/-! ### endPass -/

@[simp] theorem endPass_tke : (s.endPass).tke = s.tke := rfl
@[simp] theorem endPass_vnc : (s.endPass).vnc = s.vnc := rfl
@[simp] theorem endPass_ulc : (s.endPass).ulc = s.ulc := rfl
@[simp] theorem endPass_rgi : (s.endPass).rgi = s.rgi := rfl
@[simp] theorem endPass_atc : (s.endPass).atc = s.atc := rfl
@[simp] theorem endPass_pending : (s.endPass).pending = s.pending := rfl

/-- A change made for every holder leaves `adir` as it was if each of them does. -/
theorem forHolders_adir (f : Holder → State → State) (hf : ∀ h t, (f h t).adir = t.adir) :
    (forHolders f s).adir = s.adir := by
  unfold forHolders
  induction Holder.all generalizing s with
  | nil => rfl
  | cons a l ih => rw [List.foldl_cons, ih, hf]

/-- A change made for every counter leaves `adir` as it was if each of them does. -/
theorem forCounters_adir (f : Counter → State → State) (hf : ∀ c t, (f c t).adir = t.adir) :
    (forCounters f s).adir = s.adir := by
  unfold forCounters
  induction Counter.all generalizing s with
  | nil => rfl
  | cons a l ih => rw [List.foldl_cons, ih, hf]

/-- A change made for every holder leaves `tfu` as it was if each of them does. -/
theorem forHolders_tfu (f : Holder → State → State) (hf : ∀ h t, (f h t).tfu = t.tfu) :
    (forHolders f s).tfu = s.tfu := by
  unfold forHolders
  induction Holder.all generalizing s with
  | nil => rfl
  | cons a l ih => rw [List.foldl_cons, ih, hf]

/-- A change made for every counter leaves `tfu` as it was if each of them does. -/
theorem forCounters_tfu (f : Counter → State → State) (hf : ∀ c t, (f c t).tfu = t.tfu) :
    (forCounters f s).tfu = s.tfu := by
  unfold forCounters
  induction Counter.all generalizing s with
  | nil => rfl
  | cons a l ih => rw [List.foldl_cons, ih, hf]

/-- A change made for every holder leaves `flu` as it was if each of them does. -/
theorem forHolders_flu (f : Holder → State → State) (hf : ∀ h t, (f h t).flu = t.flu) :
    (forHolders f s).flu = s.flu := by
  unfold forHolders
  induction Holder.all generalizing s with
  | nil => rfl
  | cons a l ih => rw [List.foldl_cons, ih, hf]

/-- A change made for every counter leaves `flu` as it was if each of them does. -/
theorem forCounters_flu (f : Counter → State → State) (hf : ∀ c t, (f c t).flu = t.flu) :
    (forCounters f s).flu = s.flu := by
  unfold forCounters
  induction Counter.all generalizing s with
  | nil => rfl
  | cons a l ih => rw [List.foldl_cons, ih, hf]

/-- A change made for every holder leaves `tke` as it was if each of them does. -/
theorem forHolders_tke (f : Holder → State → State) (hf : ∀ h t, (f h t).tke = t.tke) :
    (forHolders f s).tke = s.tke := by
  unfold forHolders
  induction Holder.all generalizing s with
  | nil => rfl
  | cons a l ih => rw [List.foldl_cons, ih, hf]

/-- A change made for every counter leaves `tke` as it was if each of them does. -/
theorem forCounters_tke (f : Counter → State → State) (hf : ∀ c t, (f c t).tke = t.tke) :
    (forCounters f s).tke = s.tke := by
  unfold forCounters
  induction Counter.all generalizing s with
  | nil => rfl
  | cons a l ih => rw [List.foldl_cons, ih, hf]

/-- A change made for every holder leaves `vnc` as it was if each of them does. -/
theorem forHolders_vnc (f : Holder → State → State) (hf : ∀ h t, (f h t).vnc = t.vnc) :
    (forHolders f s).vnc = s.vnc := by
  unfold forHolders
  induction Holder.all generalizing s with
  | nil => rfl
  | cons a l ih => rw [List.foldl_cons, ih, hf]

/-- A change made for every counter leaves `vnc` as it was if each of them does. -/
theorem forCounters_vnc (f : Counter → State → State) (hf : ∀ c t, (f c t).vnc = t.vnc) :
    (forCounters f s).vnc = s.vnc := by
  unfold forCounters
  induction Counter.all generalizing s with
  | nil => rfl
  | cons a l ih => rw [List.foldl_cons, ih, hf]

/-- A change made for every holder leaves `tlu` as it was if each of them does. -/
theorem forHolders_tlu (f : Holder → State → State) (hf : ∀ h t, (f h t).tlu = t.tlu) :
    (forHolders f s).tlu = s.tlu := by
  unfold forHolders
  induction Holder.all generalizing s with
  | nil => rfl
  | cons a l ih => rw [List.foldl_cons, ih, hf]

/-- A change made for every counter leaves `tlu` as it was if each of them does. -/
theorem forCounters_tlu (f : Counter → State → State) (hf : ∀ c t, (f c t).tlu = t.tlu) :
    (forCounters f s).tlu = s.tlu := by
  unfold forCounters
  induction Counter.all generalizing s with
  | nil => rfl
  | cons a l ih => rw [List.foldl_cons, ih, hf]

/-- A change made for every holder leaves `ulc` as it was if each of them does. -/
theorem forHolders_ulc (f : Holder → State → State) (hf : ∀ h t, (f h t).ulc = t.ulc) :
    (forHolders f s).ulc = s.ulc := by
  unfold forHolders
  induction Holder.all generalizing s with
  | nil => rfl
  | cons a l ih => rw [List.foldl_cons, ih, hf]

/-- A change made for every counter leaves `ulc` as it was if each of them does. -/
theorem forCounters_ulc (f : Counter → State → State) (hf : ∀ c t, (f c t).ulc = t.ulc) :
    (forCounters f s).ulc = s.ulc := by
  unfold forCounters
  induction Counter.all generalizing s with
  | nil => rfl
  | cons a l ih => rw [List.foldl_cons, ih, hf]

/-- A change made for every holder leaves `rgi` as it was if each of them does. -/
theorem forHolders_rgi (f : Holder → State → State) (hf : ∀ h t, (f h t).rgi = t.rgi) :
    (forHolders f s).rgi = s.rgi := by
  unfold forHolders
  induction Holder.all generalizing s with
  | nil => rfl
  | cons a l ih => rw [List.foldl_cons, ih, hf]

/-- A change made for every counter leaves `rgi` as it was if each of them does. -/
theorem forCounters_rgi (f : Counter → State → State) (hf : ∀ c t, (f c t).rgi = t.rgi) :
    (forCounters f s).rgi = s.rgi := by
  unfold forCounters
  induction Counter.all generalizing s with
  | nil => rfl
  | cons a l ih => rw [List.foldl_cons, ih, hf]

/-- A change made for every holder leaves `atc` as it was if each of them does. -/
theorem forHolders_atc (f : Holder → State → State) (hf : ∀ h t, (f h t).atc = t.atc) :
    (forHolders f s).atc = s.atc := by
  unfold forHolders
  induction Holder.all generalizing s with
  | nil => rfl
  | cons a l ih => rw [List.foldl_cons, ih, hf]

/-- A change made for every counter leaves `atc` as it was if each of them does. -/
theorem forCounters_atc (f : Counter → State → State) (hf : ∀ c t, (f c t).atc = t.atc) :
    (forCounters f s).atc = s.atc := by
  unfold forCounters
  induction Counter.all generalizing s with
  | nil => rfl
  | cons a l ih => rw [List.foldl_cons, ih, hf]

/-- A change made for every holder leaves `pending` as it was if each of them does. -/
theorem forHolders_pending (f : Holder → State → State) (hf : ∀ h t, (f h t).pending = t.pending) :
    (forHolders f s).pending = s.pending := by
  unfold forHolders
  induction Holder.all generalizing s with
  | nil => rfl
  | cons a l ih => rw [List.foldl_cons, ih, hf]

/-- A change made for every counter leaves `pending` as it was if each of them does. -/
theorem forCounters_pending (f : Counter → State → State) (hf : ∀ c t, (f c t).pending = t.pending) :
    (forCounters f s).pending = s.pending := by
  unfold forCounters
  induction Counter.all generalizing s with
  | nil => rfl
  | cons a l ih => rw [List.foldl_cons, ih, hf]

end Sys2Proof.Machine
end

