-- ==== Sys2Proof/Laws/Clock.lean ====
section
/-! SUPPORT. What the shared operations leave of the clock domain: the clock, its flag, the count and its flag. -/

set_option linter.unusedTactic false
set_option linter.unnecessarySeqFocus false
set_option linter.unreachableTactic false
set_option linter.unusedSimpArgs false

namespace Sys2Proof.Machine

variable (s : State)

/-! ### nextJob -/

@[simp] theorem nextJob_clockValid : (s.nextJob).tke.clockValid = s.tke.clockValid := by
  unfold State.nextJob; try dsimp only
  (repeat' split) <;> first | rfl | simp
@[simp] theorem nextJob_minute : (s.nextJob).tke.minute = s.tke.minute := by
  unfold State.nextJob; try dsimp only
  (repeat' split) <;> first | rfl | simp
@[simp] theorem nextJob_sinceUp : (s.nextJob).tke.sinceUp = s.tke.sinceUp := by
  unfold State.nextJob; try dsimp only
  (repeat' split) <;> first | rfl | simp
@[simp] theorem nextJob_counting : (s.nextJob).tke.counting = s.tke.counting := by
  unfold State.nextJob; try dsimp only
  (repeat' split) <;> first | rfl | simp

/-! ### queueJobs -/

@[simp] theorem queueJobs_clockValid (j : List Job) : (s.queueJobs j).tke.clockValid = s.tke.clockValid := by
  unfold State.queueJobs; try dsimp only
  (repeat' split) <;> first | rfl | simp
@[simp] theorem queueJobs_minute (j : List Job) : (s.queueJobs j).tke.minute = s.tke.minute := by
  unfold State.queueJobs; try dsimp only
  (repeat' split) <;> first | rfl | simp
@[simp] theorem queueJobs_sinceUp (j : List Job) : (s.queueJobs j).tke.sinceUp = s.tke.sinceUp := by
  unfold State.queueJobs; try dsimp only
  (repeat' split) <;> first | rfl | simp
@[simp] theorem queueJobs_counting (j : List Job) : (s.queueJobs j).tke.counting = s.tke.counting := by
  unfold State.queueJobs; try dsimp only
  (repeat' split) <;> first | rfl | simp

/-! ### submit -/

@[simp] theorem submit_clockValid (h : Holder) (m : Nat) (p : List PlannedToken) (l : List Nat) : (s.submit h m p l).tke.clockValid = s.tke.clockValid := by
  unfold State.submit; try dsimp only
  (repeat' split) <;> first | rfl | simp
@[simp] theorem submit_minute (h : Holder) (m : Nat) (p : List PlannedToken) (l : List Nat) : (s.submit h m p l).tke.minute = s.tke.minute := by
  unfold State.submit; try dsimp only
  (repeat' split) <;> first | rfl | simp
@[simp] theorem submit_sinceUp (h : Holder) (m : Nat) (p : List PlannedToken) (l : List Nat) : (s.submit h m p l).tke.sinceUp = s.tke.sinceUp := by
  unfold State.submit; try dsimp only
  (repeat' split) <;> first | rfl | simp
@[simp] theorem submit_counting (h : Holder) (m : Nat) (p : List PlannedToken) (l : List Nat) : (s.submit h m p l).tke.counting = s.tke.counting := by
  unfold State.submit; try dsimp only
  (repeat' split) <;> first | rfl | simp

/-! ### issueOffice -/

@[simp] theorem issueOffice_clockValid (q : CtxRequest) (v : RecordView) : (s.issueOffice q v).tke.clockValid = s.tke.clockValid := by
  unfold State.issueOffice; try dsimp only
  (repeat' split) <;> first | rfl | simp
@[simp] theorem issueOffice_minute (q : CtxRequest) (v : RecordView) : (s.issueOffice q v).tke.minute = s.tke.minute := by
  unfold State.issueOffice; try dsimp only
  (repeat' split) <;> first | rfl | simp
@[simp] theorem issueOffice_sinceUp (q : CtxRequest) (v : RecordView) : (s.issueOffice q v).tke.sinceUp = s.tke.sinceUp := by
  unfold State.issueOffice; try dsimp only
  (repeat' split) <;> first | rfl | simp
@[simp] theorem issueOffice_counting (q : CtxRequest) (v : RecordView) : (s.issueOffice q v).tke.counting = s.tke.counting := by
  unfold State.issueOffice; try dsimp only
  (repeat' split) <;> first | rfl | simp

/-! ### proceed -/

@[simp] theorem proceed_clockValid (h : Holder) : (s.proceed h).tke.clockValid = s.tke.clockValid := by
  unfold State.proceed; try dsimp only
  (repeat' split) <;> first | rfl | simp
@[simp] theorem proceed_minute (h : Holder) : (s.proceed h).tke.minute = s.tke.minute := by
  unfold State.proceed; try dsimp only
  (repeat' split) <;> first | rfl | simp
@[simp] theorem proceed_sinceUp (h : Holder) : (s.proceed h).tke.sinceUp = s.tke.sinceUp := by
  unfold State.proceed; try dsimp only
  (repeat' split) <;> first | rfl | simp
@[simp] theorem proceed_counting (h : Holder) : (s.proceed h).tke.counting = s.tke.counting := by
  unfold State.proceed; try dsimp only
  (repeat' split) <;> first | rfl | simp

/-! ### resume -/

@[simp] theorem resume_clockValid (h : Holder) : (s.resume h).tke.clockValid = s.tke.clockValid := by
  unfold State.resume; try dsimp only
  (repeat' split) <;> first | rfl | simp
@[simp] theorem resume_minute (h : Holder) : (s.resume h).tke.minute = s.tke.minute := by
  unfold State.resume; try dsimp only
  (repeat' split) <;> first | rfl | simp
@[simp] theorem resume_sinceUp (h : Holder) : (s.resume h).tke.sinceUp = s.tke.sinceUp := by
  unfold State.resume; try dsimp only
  (repeat' split) <;> first | rfl | simp
@[simp] theorem resume_counting (h : Holder) : (s.resume h).tke.counting = s.tke.counting := by
  unfold State.resume; try dsimp only
  (repeat' split) <;> first | rfl | simp

@[simp] theorem withdraw_clockValid (k : Tke) (h : Holder) : (k.withdraw h).clockValid = k.clockValid := rfl
@[simp] theorem withdraw_minute (k : Tke) (h : Holder) : (k.withdraw h).minute = k.minute := rfl
@[simp] theorem withdraw_sinceUp (k : Tke) (h : Holder) : (k.withdraw h).sinceUp = k.sinceUp := rfl
@[simp] theorem withdraw_counting (k : Tke) (h : Holder) : (k.withdraw h).counting = k.counting := rfl

/-! ### windBack -/

@[simp] theorem windBack_clockValid (h : Holder) (m : StopMark) : (s.windBack h m).tke.clockValid = s.tke.clockValid := by
  unfold State.windBack; try dsimp only
  (repeat' split) <;> first | rfl | simp
@[simp] theorem windBack_minute (h : Holder) (m : StopMark) : (s.windBack h m).tke.minute = s.tke.minute := by
  unfold State.windBack; try dsimp only
  (repeat' split) <;> first | rfl | simp
@[simp] theorem windBack_sinceUp (h : Holder) (m : StopMark) : (s.windBack h m).tke.sinceUp = s.tke.sinceUp := by
  unfold State.windBack; try dsimp only
  (repeat' split) <;> first | rfl | simp
@[simp] theorem windBack_counting (h : Holder) (m : StopMark) : (s.windBack h m).tke.counting = s.tke.counting := by
  unfold State.windBack; try dsimp only
  (repeat' split) <;> first | rfl | simp

/-! ### cancelCtx -/

@[simp] theorem cancelCtx_clockValid (h : Holder) : (s.cancelCtx h).tke.clockValid = s.tke.clockValid := by
  unfold State.cancelCtx; try dsimp only
  (repeat' split) <;> first | rfl | simp
@[simp] theorem cancelCtx_minute (h : Holder) : (s.cancelCtx h).tke.minute = s.tke.minute := by
  unfold State.cancelCtx; try dsimp only
  (repeat' split) <;> first | rfl | simp
@[simp] theorem cancelCtx_sinceUp (h : Holder) : (s.cancelCtx h).tke.sinceUp = s.tke.sinceUp := by
  unfold State.cancelCtx; try dsimp only
  (repeat' split) <;> first | rfl | simp
@[simp] theorem cancelCtx_counting (h : Holder) : (s.cancelCtx h).tke.counting = s.tke.counting := by
  unfold State.cancelCtx; try dsimp only
  (repeat' split) <;> first | rfl | simp

/-! ### engineNotice -/

@[simp] theorem engineNotice_clockValid (h : Holder) : (State.engineNotice h s).tke.clockValid = s.tke.clockValid := by
  unfold State.engineNotice; try dsimp only
  (repeat' split) <;> first | rfl | simp
@[simp] theorem engineNotice_minute (h : Holder) : (State.engineNotice h s).tke.minute = s.tke.minute := by
  unfold State.engineNotice; try dsimp only
  (repeat' split) <;> first | rfl | simp
@[simp] theorem engineNotice_sinceUp (h : Holder) : (State.engineNotice h s).tke.sinceUp = s.tke.sinceUp := by
  unfold State.engineNotice; try dsimp only
  (repeat' split) <;> first | rfl | simp
@[simp] theorem engineNotice_counting (h : Holder) : (State.engineNotice h s).tke.counting = s.tke.counting := by
  unfold State.engineNotice; try dsimp only
  (repeat' split) <;> first | rfl | simp

/-! ### abandonOffice -/

@[simp] theorem abandonOffice_clockValid (w : CtxState) : (s.abandonOffice w).tke.clockValid = s.tke.clockValid := by
  unfold State.abandonOffice; try dsimp only
  (repeat' split) <;> first | rfl | simp
@[simp] theorem abandonOffice_minute (w : CtxState) : (s.abandonOffice w).tke.minute = s.tke.minute := by
  unfold State.abandonOffice; try dsimp only
  (repeat' split) <;> first | rfl | simp
@[simp] theorem abandonOffice_sinceUp (w : CtxState) : (s.abandonOffice w).tke.sinceUp = s.tke.sinceUp := by
  unfold State.abandonOffice; try dsimp only
  (repeat' split) <;> first | rfl | simp
@[simp] theorem abandonOffice_counting (w : CtxState) : (s.abandonOffice w).tke.counting = s.tke.counting := by
  unfold State.abandonOffice; try dsimp only
  (repeat' split) <;> first | rfl | simp

/-! ### abandon -/

@[simp] theorem abandon_clockValid (h : Holder) (w : CtxState) : (s.abandon h w).tke.clockValid = s.tke.clockValid := by
  unfold State.abandon; try dsimp only
  (repeat' split) <;> first | rfl | simp
@[simp] theorem abandon_minute (h : Holder) (w : CtxState) : (s.abandon h w).tke.minute = s.tke.minute := by
  unfold State.abandon; try dsimp only
  (repeat' split) <;> first | rfl | simp
@[simp] theorem abandon_sinceUp (h : Holder) (w : CtxState) : (s.abandon h w).tke.sinceUp = s.tke.sinceUp := by
  unfold State.abandon; try dsimp only
  (repeat' split) <;> first | rfl | simp
@[simp] theorem abandon_counting (h : Holder) (w : CtxState) : (s.abandon h w).tke.counting = s.tke.counting := by
  unfold State.abandon; try dsimp only
  (repeat' split) <;> first | rfl | simp

/-! ### leaveUp -/

@[simp] theorem leaveUp_clockValid : (s.leaveUp).tke.clockValid = s.tke.clockValid := by
  unfold State.leaveUp; try dsimp only
  (repeat' split) <;> first | rfl | simp
@[simp] theorem leaveUp_minute : (s.leaveUp).tke.minute = s.tke.minute := by
  unfold State.leaveUp; try dsimp only
  (repeat' split) <;> first | rfl | simp

/-! ### enterDetect -/

@[simp] theorem enterDetect_clockValid : (s.enterDetect).tke.clockValid = s.tke.clockValid := by
  unfold State.enterDetect; try dsimp only
  (repeat' split) <;> first | rfl | simp
@[simp] theorem enterDetect_minute : (s.enterDetect).tke.minute = s.tke.minute := by
  unfold State.enterDetect; try dsimp only
  (repeat' split) <;> first | rfl | simp

/-! ### enterUp -/

@[simp] theorem enterUp_clockValid : (s.enterUp).tke.clockValid = s.tke.clockValid := by
  unfold State.enterUp; try dsimp only
  (repeat' split) <;> first | rfl | simp
@[simp] theorem enterUp_minute : (s.enterUp).tke.minute = s.tke.minute := by
  unfold State.enterUp; try dsimp only
  (repeat' split) <;> first | rfl | simp

/-! ### enterSlip -/

@[simp] theorem enterSlip_clockValid : (s.enterSlip).tke.clockValid = s.tke.clockValid := by
  unfold State.enterSlip; try dsimp only
  (repeat' split) <;> first | rfl | simp
@[simp] theorem enterSlip_minute : (s.enterSlip).tke.minute = s.tke.minute := by
  unfold State.enterSlip; try dsimp only
  (repeat' split) <;> first | rfl | simp

/-! ### giveUp -/

@[simp] theorem giveUp_clockValid : (s.giveUp).tke.clockValid = s.tke.clockValid := by
  unfold State.giveUp; try dsimp only
  (repeat' split) <;> first | rfl | simp
@[simp] theorem giveUp_minute : (s.giveUp).tke.minute = s.tke.minute := by
  unfold State.giveUp; try dsimp only
  (repeat' split) <;> first | rfl | simp

/-! ### rateChanged -/

@[simp] theorem rateChanged_clockValid : (s.rateChanged).tke.clockValid = s.tke.clockValid := by
  unfold State.rateChanged; try dsimp only
  (repeat' split) <;> first | rfl | simp
@[simp] theorem rateChanged_minute : (s.rateChanged).tke.minute = s.tke.minute := by
  unfold State.rateChanged; try dsimp only
  (repeat' split) <;> first | rfl | simp

/-! ### goodParcel -/

@[simp] theorem goodParcel_clockValid (k : Nat) (b : BitVec 4) (l : List Byte) : (s.goodParcel k b l).tke.clockValid = s.tke.clockValid := by
  unfold State.goodParcel; try dsimp only
  (repeat' split) <;> first | rfl | simp
@[simp] theorem goodParcel_minute (k : Nat) (b : BitVec 4) (l : List Byte) : (s.goodParcel k b l).tke.minute = s.tke.minute := by
  unfold State.goodParcel; try dsimp only
  (repeat' split) <;> first | rfl | simp

/-! ### badParcel -/

@[simp] theorem badParcel_clockValid : (s.badParcel).tke.clockValid = s.tke.clockValid := by
  unfold State.badParcel; try dsimp only
  (repeat' split) <;> first | rfl | simp
@[simp] theorem badParcel_minute : (s.badParcel).tke.minute = s.tke.minute := by
  unfold State.badParcel; try dsimp only
  (repeat' split) <;> first | rfl | simp

/-! ### judged -/

@[simp] theorem judged_clockValid (p : Judged) : (s.judged p).tke.clockValid = s.tke.clockValid := by
  unfold State.judged; try dsimp only
  (repeat' split) <;> first | rfl | simp
@[simp] theorem judged_minute (p : Judged) : (s.judged p).tke.minute = s.tke.minute := by
  unfold State.judged; try dsimp only
  (repeat' split) <;> first | rfl | simp

/-! ### receive -/

@[simp] theorem receive_clockValid (n : Nat) : (receive n s).tke.clockValid = s.tke.clockValid := by
  induction n generalizing s with
  | zero => rfl
  | succ n ih =>
    unfold receive
    (repeat' split) <;> first | rfl | simp [ih]
@[simp] theorem receive_minute (n : Nat) : (receive n s).tke.minute = s.tke.minute := by
  induction n generalizing s with
  | zero => rfl
  | succ n ih =>
    unfold receive
    (repeat' split) <;> first | rfl | simp [ih]

/-! ### receiveBytes -/

@[simp] theorem receiveBytes_clockValid (l : List Byte) : (s.receiveBytes l).tke.clockValid = s.tke.clockValid := by
  unfold State.receiveBytes; try dsimp only
  (repeat' split) <;> first | rfl | simp
@[simp] theorem receiveBytes_minute (l : List Byte) : (s.receiveBytes l).tke.minute = s.tke.minute := by
  unfold State.receiveBytes; try dsimp only
  (repeat' split) <;> first | rfl | simp

/-! ### linkReset -/

@[simp] theorem linkReset_clockValid : (s.linkReset).tke.clockValid = s.tke.clockValid := by
  unfold State.linkReset; try dsimp only
  (repeat' split) <;> first | rfl | simp
@[simp] theorem linkReset_minute : (s.linkReset).tke.minute = s.tke.minute := by
  unfold State.linkReset; try dsimp only
  (repeat' split) <;> first | rfl | simp

/-! ### engineRun -/

@[simp] theorem engineRun_clockValid : (s.engineRun).tke.clockValid = s.tke.clockValid := by
  unfold State.engineRun; try dsimp only
  (repeat' split) <;> first | rfl | simp
@[simp] theorem engineRun_minute : (s.engineRun).tke.minute = s.tke.minute := by
  unfold State.engineRun; try dsimp only
  (repeat' split) <;> first | rfl | simp
@[simp] theorem engineRun_sinceUp : (s.engineRun).tke.sinceUp = s.tke.sinceUp := by
  unfold State.engineRun; try dsimp only
  (repeat' split) <;> first | rfl | simp
@[simp] theorem engineRun_counting : (s.engineRun).tke.counting = s.tke.counting := by
  unfold State.engineRun; try dsimp only
  (repeat' split) <;> first | rfl | simp

/-! ### The count of minutes since up is set to 0 or left -/

/-- The count is left, or it is 0. -/
def sameOrZero (s t : State) : Prop := t.tke.sinceUp = s.tke.sinceUp ∨ t.tke.sinceUp = 0

theorem sameOrZero.trans {s t u : State} (h : sameOrZero s t) (k : sameOrZero t u) : sameOrZero s u := by
  unfold sameOrZero at *; omega

theorem sameOrZero.of_tke {s t : State} (h : t.tke = s.tke) : sameOrZero s t := Or.inl (by rw [h])

theorem leaveUp_count : sameOrZero s s.leaveUp := by
  unfold sameOrZero State.leaveUp; split <;> simp

theorem enterDetect_count : sameOrZero s s.enterDetect := by
  refine (leaveUp_count s).trans (.of_tke ?_); simp [State.enterDetect]

theorem enterUp_count : sameOrZero s s.enterUp := by simp [sameOrZero, State.enterUp]

theorem enterSlip_count : sameOrZero s s.enterSlip := by
  refine (leaveUp_count s).trans (.of_tke ?_); simp [State.enterSlip]

theorem giveUp_count : sameOrZero s s.giveUp := by
  refine (leaveUp_count s).trans (.of_tke ?_); simp [State.giveUp]

theorem rateChanged_count : sameOrZero s s.rateChanged := by
  unfold State.rateChanged; split
  · exact .of_tke rfl
  · exact .of_tke rfl
  · exact enterSlip_count s
  · exact .of_tke rfl

theorem enterUp_takeParcel_count {r : State} (hr : r.tke = s.tke) (k : Nat) (b : BitVec 4) (l : List Byte) :
    sameOrZero s (r.enterUp.takeParcel k b l) := by
  refine sameOrZero.trans (.of_tke hr) (sameOrZero.trans (enterUp_count r) (.of_tke ?_))
  simp

theorem goodParcel_count (k : Nat) (b : BitVec 4) (l : List Byte) : sameOrZero s (s.goodParcel k b l) := by
  unfold State.goodParcel; dsimp only
  (repeat' split) <;> first
    | exact .of_tke rfl
    | exact .of_tke rfl
    | (refine .of_tke ?_; simp; done)
    | exact enterUp_takeParcel_count s rfl k b l

theorem badParcel_count : sameOrZero s s.badParcel := by
  unfold State.badParcel; dsimp only
  split
  · exact enterSlip_count _
  · exact .of_tke rfl

theorem judged_count (p : Judged) : sameOrZero s (s.judged p) := by
  unfold State.judged
  (repeat' split) <;> first
    | exact badParcel_count s
    | exact goodParcel_count s ..
    | exact .of_tke rfl

theorem receive_count (n : Nat) : sameOrZero s (receive n s) := by
  induction n generalizing s with
  | zero => exact .of_tke rfl
  | succ n ih =>
    unfold receive
    (repeat' split) <;> first
      | exact .of_tke rfl
      | exact sameOrZero.trans (sameOrZero.trans (.of_tke rfl) (judged_count (s.mapUlc _) _)) (ih _)

theorem receiveBytes_count (l : List Byte) : sameOrZero s (s.receiveBytes l) := by
  unfold State.receiveBytes; dsimp only
  split
  · exact receive_count _ _
  · exact .of_tke rfl

theorem linkReset_count : sameOrZero s s.linkReset := by
  unfold State.linkReset; dsimp only
  split
  · exact .of_tke rfl
  · exact giveUp_count _

/-- A clock in range stays so while the clock is left and the count is left or set to 0. -/
theorem clockOk_of_count {s t : State} (h : s.tke.clockOk) (hm : t.tke.minute = s.tke.minute)
    (hv : t.tke.clockValid = s.tke.clockValid) (hc : sameOrZero s t) : t.tke.clockOk := by
  obtain ⟨h1, h2, h3⟩ := h
  refine ⟨hm ▸ h1, ?_, ?_⟩
  · rcases hc with hc | hc <;> rw [hc]
    · exact h2
    · exact Nat.zero_le _
  · rw [hm, hv]; exact h3

/-- Setting the clock to a minute in range keeps it in range (R87). -/
theorem setClock_clockOk (m : Nat) (hm : m ≤ maxMinute) (h : s.tke.clockOk) : (s.setClock m).tke.clockOk := by
  obtain ⟨_, h2, _⟩ := h
  simp [Tke.setTo, Tke.clockOk, hm, h2]

end Sys2Proof.Machine
end

