-- ==== Sys2Proof/Laws/Phase.lean ====
section
/-! SUPPORT. The shared operations leave the reset level and the start phase: an operation that touches ATC sets or clears
status bits. -/

set_option linter.unusedTactic false
set_option linter.unnecessarySeqFocus false
set_option linter.unreachableTactic false
set_option linter.unusedSimpArgs false

namespace Sys2Proof.Machine

variable (s : State)

@[simp] theorem clearBits_held (b : Block) (v : Word) : (s.clearBits b v).atc.held = s.atc.held := rfl
@[simp] theorem setEnable_held (b : Block) (v : Word) : (s.setEnable b v).atc.held = s.atc.held := rfl
@[simp] theorem setSummaryEnable_held (v : Word) : (s.setSummaryEnable v).atc.held = s.atc.held := rfl
@[simp] theorem refuse_held : s.refuse.atc.held = s.atc.held := rfl
@[simp] theorem clearBits_phase (b : Block) (v : Word) : (s.clearBits b v).atc.phase = s.atc.phase := rfl
@[simp] theorem setEnable_phase (b : Block) (v : Word) : (s.setEnable b v).atc.phase = s.atc.phase := rfl
@[simp] theorem setSummaryEnable_phase (v : Word) : (s.setSummaryEnable v).atc.phase = s.atc.phase := rfl
@[simp] theorem refuse_phase : s.refuse.atc.phase = s.atc.phase := rfl

/-! ### settleTill -/

@[simp] theorem settleTill_held (c : Counter) : (s.settleTill c).atc.held = s.atc.held := by
  unfold State.settleTill; try dsimp only
  (repeat' split) <;> first | rfl | simp | simp [watchFloat, watchMonth]
@[simp] theorem settleTill_phase (c : Counter) : (s.settleTill c).atc.phase = s.atc.phase := by
  unfold State.settleTill; try dsimp only
  (repeat' split) <;> first | rfl | simp | simp [watchFloat, watchMonth]

/-! ### storeOutcome -/

@[simp] theorem storeOutcome_held (c : Counter) (o : Outcome) : (s.storeOutcome c o).atc.held = s.atc.held := by
  unfold State.storeOutcome; try dsimp only
  (repeat' split) <;> first | rfl | simp | simp [watchFloat, watchMonth]
@[simp] theorem storeOutcome_phase (c : Counter) (o : Outcome) : (s.storeOutcome c o).atc.phase = s.atc.phase := by
  unfold State.storeOutcome; try dsimp only
  (repeat' split) <;> first | rfl | simp | simp [watchFloat, watchMonth]

/-! ### drawerOpening -/

@[simp] theorem drawerOpening_held (c : Counter) : (s.drawerOpening c).atc.held = s.atc.held := by
  unfold State.drawerOpening; try dsimp only
  (repeat' split) <;> first | rfl | simp | simp [watchFloat, watchMonth]
@[simp] theorem drawerOpening_phase (c : Counter) : (s.drawerOpening c).atc.phase = s.atc.phase := by
  unfold State.drawerOpening; try dsimp only
  (repeat' split) <;> first | rfl | simp | simp [watchFloat, watchMonth]

/-! ### countLevel -/

@[simp] theorem countLevel_held (c : Counter) : (s.countLevel c).atc.held = s.atc.held := by
  unfold State.countLevel; try dsimp only
  (repeat' split) <;> first | rfl | simp | simp [watchFloat, watchMonth]
@[simp] theorem countLevel_phase (c : Counter) : (s.countLevel c).atc.phase = s.atc.phase := by
  unfold State.countLevel; try dsimp only
  (repeat' split) <;> first | rfl | simp | simp [watchFloat, watchMonth]

/-! ### ctxUndelivered -/

@[simp] theorem ctxUndelivered_held (h : Holder) : (s.ctxUndelivered h).atc.held = s.atc.held := by
  unfold State.ctxUndelivered; try dsimp only
  (repeat' split) <;> first | rfl | simp | simp [watchFloat, watchMonth]
@[simp] theorem ctxUndelivered_phase (h : Holder) : (s.ctxUndelivered h).atc.phase = s.atc.phase := by
  unfold State.ctxUndelivered; try dsimp only
  (repeat' split) <;> first | rfl | simp | simp [watchFloat, watchMonth]

/-! ### undeliver -/

@[simp] theorem undeliver_held (r : Holder) (o : ReplyOwner) : (s.undeliver r o).atc.held = s.atc.held := by
  unfold State.undeliver; try dsimp only
  (repeat' split) <;> first | rfl | simp | simp [watchFloat, watchMonth]
@[simp] theorem undeliver_phase (r : Holder) (o : ReplyOwner) : (s.undeliver r o).atc.phase = s.atc.phase := by
  unfold State.undeliver; try dsimp only
  (repeat' split) <;> first | rfl | simp | simp [watchFloat, watchMonth]

/-! ### delivered -/

@[simp] theorem delivered_held (r : Holder) (o : ReplyOwner) : (s.delivered r o).atc.held = s.atc.held := by
  unfold State.delivered; try dsimp only
  (repeat' split) <;> first | rfl | simp | simp [watchFloat, watchMonth]
@[simp] theorem delivered_phase (r : Holder) (o : ReplyOwner) : (s.delivered r o).atc.phase = s.atc.phase := by
  unfold State.delivered; try dsimp only
  (repeat' split) <;> first | rfl | simp | simp [watchFloat, watchMonth]

/-! ### enterStopped -/

@[simp] theorem enterStopped_held : (s.enterStopped).atc.held = s.atc.held := rfl
@[simp] theorem enterStopped_phase : (s.enterStopped).atc.phase = s.atc.phase := rfl

/-! ### checkStopping -/

@[simp] theorem checkStopping_held : (s.checkStopping).atc.held = s.atc.held := by
  unfold State.checkStopping; try dsimp only
  (repeat' split) <;> first | rfl | simp | simp [watchFloat, watchMonth]
@[simp] theorem checkStopping_phase : (s.checkStopping).atc.phase = s.atc.phase := by
  unfold State.checkStopping; try dsimp only
  (repeat' split) <;> first | rfl | simp | simp [watchFloat, watchMonth]

/-! ### failAccess -/

@[simp] theorem failAccess_held (r : Holder) : (s.failAccess r).atc.held = s.atc.held := by
  unfold State.failAccess; try dsimp only
  (repeat' split) <;> first | rfl | simp | simp [watchFloat, watchMonth]
@[simp] theorem failAccess_phase (r : Holder) : (s.failAccess r).atc.phase = s.atc.phase := by
  unfold State.failAccess; try dsimp only
  (repeat' split) <;> first | rfl | simp | simp [watchFloat, watchMonth]

/-! ### access -/

@[simp] theorem access_held (r : Holder) (a : Access) : (s.access r a).atc.held = s.atc.held := by
  unfold State.access; try dsimp only
  (repeat' split) <;> first | rfl | simp | simp [watchFloat, watchMonth]
@[simp] theorem access_phase (r : Holder) (a : Access) : (s.access r a).atc.phase = s.atc.phase := by
  unfold State.access; try dsimp only
  (repeat' split) <;> first | rfl | simp | simp [watchFloat, watchMonth]

/-! ### lookAt -/

@[simp] theorem lookAt_held (h : Holder) : (State.lookAt h s).atc.held = s.atc.held := by
  unfold State.lookAt; try dsimp only
  (repeat' split) <;> first | rfl | simp | simp [watchFloat, watchMonth]
@[simp] theorem lookAt_phase (h : Holder) : (State.lookAt h s).atc.phase = s.atc.phase := by
  unfold State.lookAt; try dsimp only
  (repeat' split) <;> first | rfl | simp | simp [watchFloat, watchMonth]

/-! ### putReply -/

@[simp] theorem putReply_held (r : Holder) (o : ReplyOwner) (y : Reply) : (s.putReply r o y).atc.held = s.atc.held := by
  unfold State.putReply; try dsimp only
  (repeat' split) <;> first | rfl | simp | simp [watchFloat, watchMonth]
@[simp] theorem putReply_phase (r : Holder) (o : ReplyOwner) (y : Reply) : (s.putReply r o y).atc.phase = s.atc.phase := by
  unfold State.putReply; try dsimp only
  (repeat' split) <;> first | rfl | simp | simp [watchFloat, watchMonth]

/-! ### answerRequest -/

@[simp] theorem answerRequest_held (q : Request) (b : Bool) (o : ReplyOwner) (y : Reply) : (s.answerRequest q b o y).atc.held = s.atc.held := by
  unfold State.answerRequest; try dsimp only
  (repeat' split) <;> first | rfl | simp | simp [watchFloat, watchMonth]
@[simp] theorem answerRequest_phase (q : Request) (b : Bool) (o : ReplyOwner) (y : Reply) : (s.answerRequest q b o y).atc.phase = s.atc.phase := by
  unfold State.answerRequest; try dsimp only
  (repeat' split) <;> first | rfl | simp | simp [watchFloat, watchMonth]

/-! ### detach -/

@[simp] theorem detach_held (h : Holder) : (State.detach h s).atc.held = s.atc.held := by
  unfold State.detach; try dsimp only
  (repeat' split) <;> first | rfl | simp | simp [watchFloat, watchMonth]
@[simp] theorem detach_phase (h : Holder) : (State.detach h s).atc.phase = s.atc.phase := by
  unfold State.detach; try dsimp only
  (repeat' split) <;> first | rfl | simp | simp [watchFloat, watchMonth]

/-! ### applyLook -/

@[simp] theorem applyLook_held : (s.applyLook).atc.held = s.atc.held := by
  unfold State.applyLook; try dsimp only
  (repeat' split) <;> first | rfl | simp | simp [watchFloat, watchMonth]
@[simp] theorem applyLook_phase : (s.applyLook).atc.phase = s.atc.phase := by
  unfold State.applyLook; try dsimp only
  (repeat' split) <;> first | rfl | simp | simp [watchFloat, watchMonth]

/-! ### clockEvent -/

@[simp] theorem clockEvent_held : (s.clockEvent).atc.held = s.atc.held := by
  unfold State.clockEvent; try dsimp only
  (repeat' split) <;> first | rfl | simp | simp [watchFloat, watchMonth]
@[simp] theorem clockEvent_phase : (s.clockEvent).atc.phase = s.atc.phase := by
  unfold State.clockEvent; try dsimp only
  (repeat' split) <;> first | rfl | simp | simp [watchFloat, watchMonth]

/-! ### startTfu -/

@[simp] theorem startTfu_held : (s.startTfu).atc.held = s.atc.held := by
  unfold State.startTfu; try dsimp only
  (repeat' split) <;> first | rfl | simp | simp [watchFloat, watchMonth]
@[simp] theorem startTfu_phase : (s.startTfu).atc.phase = s.atc.phase := by
  unfold State.startTfu; try dsimp only
  (repeat' split) <;> first | rfl | simp | simp [watchFloat, watchMonth]

/-! ### completeFloat -/

@[simp] theorem completeFloat_held (k : FloatClaim) : (s.completeFloat k).atc.held = s.atc.held := by
  unfold State.completeFloat; try dsimp only
  (repeat' split) <;> first | rfl | simp | simp [watchFloat, watchMonth]
@[simp] theorem completeFloat_phase (k : FloatClaim) : (s.completeFloat k).atc.phase = s.atc.phase := by
  unfold State.completeFloat; try dsimp only
  (repeat' split) <;> first | rfl | simp | simp [watchFloat, watchMonth]

/-! ### endFloatRecovery -/

@[simp] theorem endFloatRecovery_held : (s.endFloatRecovery).atc.held = s.atc.held := by
  unfold State.endFloatRecovery; try dsimp only
  (repeat' split) <;> first | rfl | simp | simp [watchFloat, watchMonth]
@[simp] theorem endFloatRecovery_phase : (s.endFloatRecovery).atc.phase = s.atc.phase := by
  unfold State.endFloatRecovery; try dsimp only
  (repeat' split) <;> first | rfl | simp | simp [watchFloat, watchMonth]

/-! ### ctxReply -/

@[simp] theorem ctxReply_held (h : Holder) (y : Reply) : (s.ctxReply h y).atc.held = s.atc.held := by
  unfold State.ctxReply; try dsimp only
  (repeat' split) <;> first | rfl | simp | simp [watchFloat, watchMonth]
@[simp] theorem ctxReply_phase (h : Holder) (y : Reply) : (s.ctxReply h y).atc.phase = s.atc.phase := by
  unfold State.ctxReply; try dsimp only
  (repeat' split) <;> first | rfl | simp | simp [watchFloat, watchMonth]

/-! ### refuseHeld -/

@[simp] theorem refuseHeld_held (h : Holder) (y : Reply) : (s.refuseHeld h y).atc.held = s.atc.held := by
  unfold State.refuseHeld; try dsimp only
  (repeat' split) <;> first | rfl | simp | simp [watchFloat, watchMonth]
@[simp] theorem refuseHeld_phase (h : Holder) (y : Reply) : (s.refuseHeld h y).atc.phase = s.atc.phase := by
  unfold State.refuseHeld; try dsimp only
  (repeat' split) <;> first | rfl | simp | simp [watchFloat, watchMonth]

/-! ### endStopped -/

@[simp] theorem endStopped_held (h : Holder) : (s.endStopped h).atc.held = s.atc.held := by
  unfold State.endStopped; try dsimp only
  (repeat' split) <;> first | rfl | simp | simp [watchFloat, watchMonth]
@[simp] theorem endStopped_phase (h : Holder) : (s.endStopped h).atc.phase = s.atc.phase := by
  unfold State.endStopped; try dsimp only
  (repeat' split) <;> first | rfl | simp | simp [watchFloat, watchMonth]

/-! ### holdAnswered -/

@[simp] theorem holdAnswered_held (h : Holder) (a : HoldAnswer) : (s.holdAnswered h a).atc.held = s.atc.held := by
  unfold State.holdAnswered; try dsimp only
  (repeat' split) <;> first | rfl | simp | simp [watchFloat, watchMonth]
@[simp] theorem holdAnswered_phase (h : Holder) (a : HoldAnswer) : (s.holdAnswered h a).atc.phase = s.atc.phase := by
  unfold State.holdAnswered; try dsimp only
  (repeat' split) <;> first | rfl | simp | simp [watchFloat, watchMonth]

/-! ### holdClaim -/

@[simp] theorem holdClaim_held (h : Holder) (m : Nat) : (s.holdClaim h m).atc.held = s.atc.held := by
  unfold State.holdClaim; try dsimp only
  (repeat' split) <;> first | rfl | simp | simp [watchFloat, watchMonth]
@[simp] theorem holdClaim_phase (h : Holder) (m : Nat) : (s.holdClaim h m).atc.phase = s.atc.phase := by
  unfold State.holdClaim; try dsimp only
  (repeat' split) <;> first | rfl | simp | simp [watchFloat, watchMonth]

/-! ### answerEach -/

@[simp] theorem answerEach_held (l : List HoldWait) : (s.answerEach l).atc.held = s.atc.held := by
  unfold State.answerEach
  induction l generalizing s with
  | nil => rfl
  | cons a l ih => rw [List.foldl_cons, ih]; simp
@[simp] theorem answerEach_phase (l : List HoldWait) : (s.answerEach l).atc.phase = s.atc.phase := by
  unfold State.answerEach
  induction l generalizing s with
  | nil => rfl
  | cons a l ih => rw [List.foldl_cons, ih]; simp

/-! ### answerAll -/

@[simp] theorem answerAll_held (l : List HoldWait) : (s.answerAll l).atc.held = s.atc.held := by
  unfold State.answerAll; split <;> simp
@[simp] theorem answerAll_phase (l : List HoldWait) : (s.answerAll l).atc.phase = s.atc.phase := by
  unfold State.answerAll; split <;> simp

/-! ### answerWaiting -/

@[simp] theorem answerWaiting_held (m : Nat) : (s.answerWaiting m).atc.held = s.atc.held := by simp [State.answerWaiting]
@[simp] theorem answerWaiting_phase (m : Nat) : (s.answerWaiting m).atc.phase = s.atc.phase := by simp [State.answerWaiting]

/-! ### answerHolds -/

@[simp] theorem answerHolds_held (p : HoldWait → Bool) : (s.answerHolds p).atc.held = s.atc.held := by simp [State.answerHolds]
@[simp] theorem answerHolds_phase (p : HoldWait → Bool) : (s.answerHolds p).atc.phase = s.atc.phase := by simp [State.answerHolds]

/-! ### claimMeter -/

@[simp] theorem claimMeter_held (m : Nat) : (s.claimMeter m).atc.held = s.atc.held := by simp [State.claimMeter]
@[simp] theorem claimMeter_phase (m : Nat) : (s.claimMeter m).atc.phase = s.atc.phase := by simp [State.claimMeter]

/-! ### claimRange -/

@[simp] theorem claimRange_held (a b : Nat) : (s.claimRange a b).atc.held = s.atc.held := by simp [State.claimRange]
@[simp] theorem claimRange_phase (a b : Nat) : (s.claimRange a b).atc.phase = s.atc.phase := by simp [State.claimRange]

/-! ### finishWrite -/

@[simp] theorem finishWrite_held (p : RecordWrite → Bool) (w : RecordWrite) : (s.finishWrite p w).atc.held = s.atc.held := by
  unfold State.finishWrite; try dsimp only
  (repeat' split) <;> first | rfl | simp | simp [watchFloat, watchMonth]
@[simp] theorem finishWrite_phase (p : RecordWrite → Bool) (w : RecordWrite) : (s.finishWrite p w).atc.phase = s.atc.phase := by
  unfold State.finishWrite; try dsimp only
  (repeat' split) <;> first | rfl | simp | simp [watchFloat, watchMonth]

/-! ### tillPartClaim -/

@[simp] theorem tillPartClaim_held (c : Counter) : (s.tillPartClaim c).atc.held = s.atc.held := by
  unfold State.tillPartClaim; try dsimp only
  (repeat' split) <;> first | rfl | simp | simp [watchFloat, watchMonth]
@[simp] theorem tillPartClaim_phase (c : Counter) : (s.tillPartClaim c).atc.phase = s.atc.phase := by
  unfold State.tillPartClaim; try dsimp only
  (repeat' split) <;> first | rfl | simp | simp [watchFloat, watchMonth]

/-! ### stopTooLate -/

@[simp] theorem stopTooLate_held (h : Holder) : (s.stopTooLate h).atc.held = s.atc.held := by
  unfold State.stopTooLate; try dsimp only
  (repeat' split) <;> first | rfl | simp | simp [watchFloat, watchMonth]
@[simp] theorem stopTooLate_phase (h : Holder) : (s.stopTooLate h).atc.phase = s.atc.phase := by
  unfold State.stopTooLate; try dsimp only
  (repeat' split) <;> first | rfl | simp | simp [watchFloat, watchMonth]

/-! ### takeGrant -/

@[simp] theorem takeGrant_held (n a : Nat) : (s.takeGrant n a).atc.held = s.atc.held := by
  unfold State.takeGrant; try dsimp only
  (repeat' split) <;> first | rfl | simp | simp [watchFloat, watchMonth]
@[simp] theorem takeGrant_phase (n a : Nat) : (s.takeGrant n a).atc.phase = s.atc.phase := by
  unfold State.takeGrant; try dsimp only
  (repeat' split) <;> first | rfl | simp | simp [watchFloat, watchMonth]

/-! ### takeRecall -/

@[simp] theorem takeRecall_held (n a : Nat) : (s.takeRecall n a).atc.held = s.atc.held := by
  unfold State.takeRecall; try dsimp only
  (repeat' split) <;> first | rfl | simp | simp [watchFloat, watchMonth]
@[simp] theorem takeRecall_phase (n a : Nat) : (s.takeRecall n a).atc.phase = s.atc.phase := by
  unfold State.takeRecall; try dsimp only
  (repeat' split) <;> first | rfl | simp | simp [watchFloat, watchMonth]

/-! ### takeTerms -/

@[simp] theorem takeTerms_held (a b d : Nat) : (s.takeTerms a b d).atc.held = s.atc.held := by
  unfold State.takeTerms; try dsimp only
  (repeat' split) <;> first | rfl | simp | simp [watchFloat, watchMonth]
@[simp] theorem takeTerms_phase (a b d : Nat) : (s.takeTerms a b d).atc.phase = s.atc.phase := by
  unfold State.takeTerms; try dsimp only
  (repeat' split) <;> first | rfl | simp | simp [watchFloat, watchMonth]

/-! ### takeFloat -/

@[simp] theorem takeFloat_held (k : FloatClaim) : (s.takeFloat k).atc.held = s.atc.held := by
  unfold State.takeFloat; try dsimp only
  (repeat' split) <;> first | rfl | simp | simp [watchFloat, watchMonth]
@[simp] theorem takeFloat_phase (k : FloatClaim) : (s.takeFloat k).atc.phase = s.atc.phase := by
  unfold State.takeFloat; try dsimp only
  (repeat' split) <;> first | rfl | simp | simp [watchFloat, watchMonth]

/-! ### drainFloat -/

@[simp] theorem drainFloat_held (n : Nat) : (drainFloat n s).atc.held = s.atc.held := by
  induction n generalizing s with
  | zero => rfl
  | succ n ih =>
    unfold drainFloat; try dsimp only
    (repeat' split) <;> first | rfl | simp [ih]
@[simp] theorem drainFloat_phase (n : Nat) : (drainFloat n s).atc.phase = s.atc.phase := by
  induction n generalizing s with
  | zero => rfl
  | succ n ih =>
    unfold drainFloat; try dsimp only
    (repeat' split) <;> first | rfl | simp [ih]

/-! ### pumpFloat -/

@[simp] theorem pumpFloat_held : (s.pumpFloat).atc.held = s.atc.held := by
  unfold State.pumpFloat; try dsimp only
  (repeat' split) <;> first | rfl | simp | simp [watchFloat, watchMonth]
@[simp] theorem pumpFloat_phase : (s.pumpFloat).atc.phase = s.atc.phase := by
  unfold State.pumpFloat; try dsimp only
  (repeat' split) <;> first | rfl | simp | simp [watchFloat, watchMonth]

/-! ### priceAndReserve -/

@[simp] theorem priceAndReserve_held (c : Counter) (q : CtxRequest) (v : RecordView) : (s.priceAndReserve c q v).atc.held = s.atc.held := by
  unfold State.priceAndReserve; try dsimp only
  (repeat' split) <;> first | rfl | simp | simp [watchFloat, watchMonth]
@[simp] theorem priceAndReserve_phase (c : Counter) (q : CtxRequest) (v : RecordView) : (s.priceAndReserve c q v).atc.phase = s.atc.phase := by
  unfold State.priceAndReserve; try dsimp only
  (repeat' split) <;> first | rfl | simp | simp [watchFloat, watchMonth]

/-! ### submit -/

@[simp] theorem submit_held (h : Holder) (m : Nat) (p : List PlannedToken) (l : List Nat) : (s.submit h m p l).atc.held = s.atc.held := by
  unfold State.submit; try dsimp only
  (repeat' split) <;> first | rfl | simp | simp [watchFloat, watchMonth]
@[simp] theorem submit_phase (h : Holder) (m : Nat) (p : List PlannedToken) (l : List Nat) : (s.submit h m p l).atc.phase = s.atc.phase := by
  unfold State.submit; try dsimp only
  (repeat' split) <;> first | rfl | simp | simp [watchFloat, watchMonth]

/-! ### issueOffice -/

@[simp] theorem issueOffice_held (q : CtxRequest) (v : RecordView) : (s.issueOffice q v).atc.held = s.atc.held := by
  unfold State.issueOffice; try dsimp only
  (repeat' split) <;> first | rfl | simp | simp [watchFloat, watchMonth]
@[simp] theorem issueOffice_phase (q : CtxRequest) (v : RecordView) : (s.issueOffice q v).atc.phase = s.atc.phase := by
  unfold State.issueOffice; try dsimp only
  (repeat' split) <;> first | rfl | simp | simp [watchFloat, watchMonth]

/-! ### proceed -/

@[simp] theorem proceed_held (h : Holder) : (s.proceed h).atc.held = s.atc.held := by
  unfold State.proceed; try dsimp only
  (repeat' split) <;> first | rfl | simp | simp [watchFloat, watchMonth]
@[simp] theorem proceed_phase (h : Holder) : (s.proceed h).atc.phase = s.atc.phase := by
  unfold State.proceed; try dsimp only
  (repeat' split) <;> first | rfl | simp | simp [watchFloat, watchMonth]

/-! ### resume -/

@[simp] theorem resume_held (h : Holder) : (s.resume h).atc.held = s.atc.held := by
  unfold State.resume; try dsimp only
  (repeat' split) <;> first | rfl | simp | simp [watchFloat, watchMonth]
@[simp] theorem resume_phase (h : Holder) : (s.resume h).atc.phase = s.atc.phase := by
  unfold State.resume; try dsimp only
  (repeat' split) <;> first | rfl | simp | simp [watchFloat, watchMonth]

/-! ### takeInCtx -/

@[simp] theorem takeInCtx_held (h : Holder) (q : CtxRequest) (a b : Bool) : (s.takeInCtx h q a b).atc.held = s.atc.held := by
  unfold State.takeInCtx; try dsimp only
  (repeat' split) <;> first | rfl | simp | simp [watchFloat, watchMonth]
@[simp] theorem takeInCtx_phase (h : Holder) (q : CtxRequest) (a b : Bool) : (s.takeInCtx h q a b).atc.phase = s.atc.phase := by
  unfold State.takeInCtx; try dsimp only
  (repeat' split) <;> first | rfl | simp | simp [watchFloat, watchMonth]

/-! ### serveInCtx -/

@[simp] theorem serveInCtx_held (k : ReqKind) (h : Holder) (f : Request → CtxRequest × Bool) : (s.serveInCtx k h f).atc.held = s.atc.held := by
  unfold State.serveInCtx; try dsimp only
  (repeat' split) <;> first | rfl | simp | simp [watchFloat, watchMonth]
@[simp] theorem serveInCtx_phase (k : ReqKind) (h : Holder) (f : Request → CtxRequest × Bool) : (s.serveInCtx k h f).atc.phase = s.atc.phase := by
  unfold State.serveInCtx; try dsimp only
  (repeat' split) <;> first | rfl | simp | simp [watchFloat, watchMonth]

/-! ### endSale -/

@[simp] theorem endSale_held (c : Counter) : (s.endSale c).atc.held = s.atc.held := by
  unfold State.endSale; try dsimp only
  (repeat' split) <;> first | rfl | simp | simp [watchFloat, watchMonth]
@[simp] theorem endSale_phase (c : Counter) : (s.endSale c).atc.phase = s.atc.phase := by
  unfold State.endSale; try dsimp only
  (repeat' split) <;> first | rfl | simp | simp [watchFloat, watchMonth]

/-! ### windBack -/

@[simp] theorem windBack_held (h : Holder) (m : StopMark) : (s.windBack h m).atc.held = s.atc.held := by
  unfold State.windBack; try dsimp only
  (repeat' split) <;> first | rfl | simp | simp [watchFloat, watchMonth]
@[simp] theorem windBack_phase (h : Holder) (m : StopMark) : (s.windBack h m).atc.phase = s.atc.phase := by
  unfold State.windBack; try dsimp only
  (repeat' split) <;> first | rfl | simp | simp [watchFloat, watchMonth]

/-! ### cancelCtx -/

@[simp] theorem cancelCtx_held (h : Holder) : (s.cancelCtx h).atc.held = s.atc.held := by
  unfold State.cancelCtx; try dsimp only
  (repeat' split) <;> first | rfl | simp | simp [watchFloat, watchMonth]
@[simp] theorem cancelCtx_phase (h : Holder) : (s.cancelCtx h).atc.phase = s.atc.phase := by
  unfold State.cancelCtx; try dsimp only
  (repeat' split) <;> first | rfl | simp | simp [watchFloat, watchMonth]

/-! ### engineNotice -/

@[simp] theorem engineNotice_held (h : Holder) : (State.engineNotice h s).atc.held = s.atc.held := by
  unfold State.engineNotice; try dsimp only
  (repeat' split) <;> first | rfl | simp | simp [watchFloat, watchMonth]
@[simp] theorem engineNotice_phase (h : Holder) : (State.engineNotice h s).atc.phase = s.atc.phase := by
  unfold State.engineNotice; try dsimp only
  (repeat' split) <;> first | rfl | simp | simp [watchFloat, watchMonth]

/-! ### enterTrain -/

@[simp] theorem enterTrain_held : (s.enterTrain).atc.held = s.atc.held := by
  unfold State.enterTrain; try dsimp only
  (repeat' split) <;> first | rfl | simp | simp [watchFloat, watchMonth]
@[simp] theorem enterTrain_phase : (s.enterTrain).atc.phase = s.atc.phase := by
  unfold State.enterTrain; try dsimp only
  (repeat' split) <;> first | rfl | simp | simp [watchFloat, watchMonth]

/-! ### detectLook -/

@[simp] theorem detectLook_held : (s.detectLook).atc.held = s.atc.held := by
  unfold State.detectLook; try dsimp only
  (repeat' split) <;> first | rfl | simp | simp [watchFloat, watchMonth]
@[simp] theorem detectLook_phase : (s.detectLook).atc.phase = s.atc.phase := by
  unfold State.detectLook; try dsimp only
  (repeat' split) <;> first | rfl | simp | simp [watchFloat, watchMonth]

/-! ### enterDetect -/

@[simp] theorem enterDetect_held : (s.enterDetect).atc.held = s.atc.held := by
  unfold State.enterDetect; try dsimp only
  (repeat' split) <;> first | rfl | simp | simp [watchFloat, watchMonth]
@[simp] theorem enterDetect_phase : (s.enterDetect).atc.phase = s.atc.phase := by
  unfold State.enterDetect; try dsimp only
  (repeat' split) <;> first | rfl | simp | simp [watchFloat, watchMonth]

/-! ### enterUp -/

@[simp] theorem enterUp_held : (s.enterUp).atc.held = s.atc.held := by
  unfold State.enterUp; try dsimp only
  (repeat' split) <;> first | rfl | simp | simp [watchFloat, watchMonth]
@[simp] theorem enterUp_phase : (s.enterUp).atc.phase = s.atc.phase := by
  unfold State.enterUp; try dsimp only
  (repeat' split) <;> first | rfl | simp | simp [watchFloat, watchMonth]

/-! ### enterSlip -/

@[simp] theorem enterSlip_held : (s.enterSlip).atc.held = s.atc.held := by
  unfold State.enterSlip; try dsimp only
  (repeat' split) <;> first | rfl | simp | simp [watchFloat, watchMonth]
@[simp] theorem enterSlip_phase : (s.enterSlip).atc.phase = s.atc.phase := by
  unfold State.enterSlip; try dsimp only
  (repeat' split) <;> first | rfl | simp | simp [watchFloat, watchMonth]

/-! ### giveUp -/

@[simp] theorem giveUp_held : (s.giveUp).atc.held = s.atc.held := by
  unfold State.giveUp; try dsimp only
  (repeat' split) <;> first | rfl | simp | simp [watchFloat, watchMonth]
@[simp] theorem giveUp_phase : (s.giveUp).atc.phase = s.atc.phase := by
  unfold State.giveUp; try dsimp only
  (repeat' split) <;> first | rfl | simp | simp [watchFloat, watchMonth]

/-! ### rateChanged -/

@[simp] theorem rateChanged_held : (s.rateChanged).atc.held = s.atc.held := by
  unfold State.rateChanged; try dsimp only
  (repeat' split) <;> first | rfl | simp | simp [watchFloat, watchMonth]
@[simp] theorem rateChanged_phase : (s.rateChanged).atc.phase = s.atc.phase := by
  unfold State.rateChanged; try dsimp only
  (repeat' split) <;> first | rfl | simp | simp [watchFloat, watchMonth]

/-! ### setHoldover -/

@[simp] theorem setHoldover_held (n : Nat) : (s.setHoldover n).atc.held = s.atc.held := by
  unfold State.setHoldover; try dsimp only
  (repeat' split) <;> first | rfl | simp | simp [watchFloat, watchMonth]
@[simp] theorem setHoldover_phase (n : Nat) : (s.setHoldover n).atc.phase = s.atc.phase := by
  unfold State.setHoldover; try dsimp only
  (repeat' split) <;> first | rfl | simp | simp [watchFloat, watchMonth]

/-! ### takeRecordClaim -/

@[simp] theorem takeRecordClaim_held (k : RecordClaim) : (s.takeRecordClaim k).atc.held = s.atc.held := by
  unfold State.takeRecordClaim; try dsimp only
  (repeat' split) <;> first | rfl | simp | simp [watchFloat, watchMonth]
@[simp] theorem takeRecordClaim_phase (k : RecordClaim) : (s.takeRecordClaim k).atc.phase = s.atc.phase := by
  unfold State.takeRecordClaim; try dsimp only
  (repeat' split) <;> first | rfl | simp | simp [watchFloat, watchMonth]

/-! ### drainRecord -/

@[simp] theorem drainRecord_held (n : Nat) : (drainRecord n s).atc.held = s.atc.held := by
  induction n generalizing s with
  | zero => rfl
  | succ n ih =>
    unfold drainRecord; try dsimp only
    (repeat' split) <;> first | rfl | simp [ih]
@[simp] theorem drainRecord_phase (n : Nat) : (drainRecord n s).atc.phase = s.atc.phase := by
  induction n generalizing s with
  | zero => rfl
  | succ n ih =>
    unfold drainRecord; try dsimp only
    (repeat' split) <;> first | rfl | simp [ih]

/-! ### claimRecord -/

@[simp] theorem claimRecord_held (k : RecordClaim) : (s.claimRecord k).atc.held = s.atc.held := by
  unfold State.claimRecord; try dsimp only
  (repeat' split) <;> first | rfl | simp | simp [watchFloat, watchMonth]
@[simp] theorem claimRecord_phase (k : RecordClaim) : (s.claimRecord k).atc.phase = s.atc.phase := by
  unfold State.claimRecord; try dsimp only
  (repeat' split) <;> first | rfl | simp | simp [watchFloat, watchMonth]

/-! ### takeNibble -/

@[simp] theorem takeNibble_held (b : BitVec 4) : (s.takeNibble b).atc.held = s.atc.held := by
  unfold State.takeNibble; try dsimp only
  (repeat' split) <;> first | rfl | simp | simp [watchFloat, watchMonth]
@[simp] theorem takeNibble_phase (b : BitVec 4) : (s.takeNibble b).atc.phase = s.atc.phase := by
  unfold State.takeNibble; try dsimp only
  (repeat' split) <;> first | rfl | simp | simp [watchFloat, watchMonth]

/-! ### takeKind -/

@[simp] theorem takeKind_held (k : Nat) (b : List Byte) : (s.takeKind k b).atc.held = s.atc.held := by
  unfold State.takeKind; try dsimp only
  (repeat' split) <;> first | rfl | simp | simp [watchFloat, watchMonth]
@[simp] theorem takeKind_phase (k : Nat) (b : List Byte) : (s.takeKind k b).atc.phase = s.atc.phase := by
  unfold State.takeKind; try dsimp only
  (repeat' split) <;> first | rfl | simp | simp [watchFloat, watchMonth]

/-! ### takeParcel -/

@[simp] theorem takeParcel_held (k : Nat) (b : BitVec 4) (l : List Byte) : (s.takeParcel k b l).atc.held = s.atc.held := by
  unfold State.takeParcel; try dsimp only
  (repeat' split) <;> first | rfl | simp | simp [watchFloat, watchMonth]
@[simp] theorem takeParcel_phase (k : Nat) (b : BitVec 4) (l : List Byte) : (s.takeParcel k b l).atc.phase = s.atc.phase := by
  unfold State.takeParcel; try dsimp only
  (repeat' split) <;> first | rfl | simp | simp [watchFloat, watchMonth]

/-! ### goodParcel -/

@[simp] theorem goodParcel_held (k : Nat) (b : BitVec 4) (l : List Byte) : (s.goodParcel k b l).atc.held = s.atc.held := by
  unfold State.goodParcel; try dsimp only
  (repeat' split) <;> first | rfl | simp | simp [watchFloat, watchMonth]
@[simp] theorem goodParcel_phase (k : Nat) (b : BitVec 4) (l : List Byte) : (s.goodParcel k b l).atc.phase = s.atc.phase := by
  unfold State.goodParcel; try dsimp only
  (repeat' split) <;> first | rfl | simp | simp [watchFloat, watchMonth]

/-! ### badParcel -/

@[simp] theorem badParcel_held : (s.badParcel).atc.held = s.atc.held := by
  unfold State.badParcel; try dsimp only
  (repeat' split) <;> first | rfl | simp | simp [watchFloat, watchMonth]
@[simp] theorem badParcel_phase : (s.badParcel).atc.phase = s.atc.phase := by
  unfold State.badParcel; try dsimp only
  (repeat' split) <;> first | rfl | simp | simp [watchFloat, watchMonth]

/-! ### judged -/

@[simp] theorem judged_held (p : Judged) : (s.judged p).atc.held = s.atc.held := by
  unfold State.judged; try dsimp only
  (repeat' split) <;> first | rfl | simp | simp [watchFloat, watchMonth]
@[simp] theorem judged_phase (p : Judged) : (s.judged p).atc.phase = s.atc.phase := by
  unfold State.judged; try dsimp only
  (repeat' split) <;> first | rfl | simp | simp [watchFloat, watchMonth]

/-! ### receive -/

@[simp] theorem receive_held (n : Nat) : (receive n s).atc.held = s.atc.held := by
  induction n generalizing s with
  | zero => rfl
  | succ n ih =>
    unfold receive; try dsimp only
    (repeat' split) <;> first | rfl | simp [ih]
@[simp] theorem receive_phase (n : Nat) : (receive n s).atc.phase = s.atc.phase := by
  induction n generalizing s with
  | zero => rfl
  | succ n ih =>
    unfold receive; try dsimp only
    (repeat' split) <;> first | rfl | simp [ih]

/-! ### receiveBytes -/

@[simp] theorem receiveBytes_held (l : List Byte) : (s.receiveBytes l).atc.held = s.atc.held := by
  unfold State.receiveBytes; try dsimp only
  (repeat' split) <;> first | rfl | simp | simp [watchFloat, watchMonth]
@[simp] theorem receiveBytes_phase (l : List Byte) : (s.receiveBytes l).atc.phase = s.atc.phase := by
  unfold State.receiveBytes; try dsimp only
  (repeat' split) <;> first | rfl | simp | simp [watchFloat, watchMonth]

/-! ### initFails -/

@[simp] theorem initFails_held (a : InitReason) (n : Nat) : (s.initFails a n).atc.held = s.atc.held := rfl
@[simp] theorem initFails_phase (a : InitReason) (n : Nat) : (s.initFails a n).atc.phase = s.atc.phase := rfl

/-! ### beginInit -/

@[simp] theorem beginInit_held : (s.beginInit).atc.held = s.atc.held := by
  unfold State.beginInit; try dsimp only
  (repeat' split) <;> first | rfl | simp | simp [watchFloat, watchMonth]
@[simp] theorem beginInit_phase : (s.beginInit).atc.phase = s.atc.phase := by
  unfold State.beginInit; try dsimp only
  (repeat' split) <;> first | rfl | simp | simp [watchFloat, watchMonth]

/-! ### initPulse -/

@[simp] theorem initPulse_held (m : BitVec 9) : (s.initPulse m).atc.held = s.atc.held := by
  unfold State.initPulse; try dsimp only
  (repeat' split) <;> first | rfl | simp | simp [watchFloat, watchMonth]
@[simp] theorem initPulse_phase (m : BitVec 9) : (s.initPulse m).atc.phase = s.atc.phase := by
  unfold State.initPulse; try dsimp only
  (repeat' split) <;> first | rfl | simp | simp [watchFloat, watchMonth]

/-! ### clearRingFault -/

@[simp] theorem clearRingFault_held (r : Holder) : (State.clearRingFault r s).atc.held = s.atc.held := by
  unfold State.clearRingFault; try dsimp only
  (repeat' split) <;> first | rfl | simp | simp [watchFloat, watchMonth]
@[simp] theorem clearRingFault_phase (r : Holder) : (State.clearRingFault r s).atc.phase = s.atc.phase := by
  unfold State.clearRingFault; try dsimp only
  (repeat' split) <;> first | rfl | simp | simp [watchFloat, watchMonth]

/-! ### clearBusFault -/

@[simp] theorem clearBusFault_held : (s.clearBusFault).atc.held = s.atc.held := by
  unfold State.clearBusFault; try dsimp only
  (repeat' split) <;> first | rfl | simp | simp [watchFloat, watchMonth]
@[simp] theorem clearBusFault_phase : (s.clearBusFault).atc.phase = s.atc.phase := by
  unfold State.clearBusFault; try dsimp only
  (repeat' split) <;> first | rfl | simp | simp [watchFloat, watchMonth]

/-! ### initPasses -/

@[simp] theorem initPasses_held (k : InitCopy) : (s.initPasses k).atc.held = s.atc.held := by
  unfold State.initPasses; try dsimp only
  (repeat' split) <;> first | rfl | simp | simp [watchFloat, watchMonth]
@[simp] theorem initPasses_phase (k : InitCopy) : (s.initPasses k).atc.phase = s.atc.phase := by
  unfold State.initPasses; try dsimp only
  (repeat' split) <;> first | rfl | simp | simp [watchFloat, watchMonth]

/-! ### linkReset -/

@[simp] theorem linkReset_held : (s.linkReset).atc.held = s.atc.held := by
  unfold State.linkReset; try dsimp only
  (repeat' split) <;> first | rfl | simp | simp [watchFloat, watchMonth]
@[simp] theorem linkReset_phase : (s.linkReset).atc.phase = s.atc.phase := by
  unfold State.linkReset; try dsimp only
  (repeat' split) <;> first | rfl | simp | simp [watchFloat, watchMonth]

/-! ### abandonOffice -/

@[simp] theorem abandonOffice_held (w : CtxState) : (s.abandonOffice w).atc.held = s.atc.held := by
  unfold State.abandonOffice; try dsimp only
  (repeat' split) <;> first | rfl | simp | simp [watchFloat, watchMonth]
@[simp] theorem abandonOffice_phase (w : CtxState) : (s.abandonOffice w).atc.phase = s.atc.phase := by
  unfold State.abandonOffice; try dsimp only
  (repeat' split) <;> first | rfl | simp | simp [watchFloat, watchMonth]

/-! ### abandon -/

@[simp] theorem abandon_held (h : Holder) (w : CtxState) : (s.abandon h w).atc.held = s.atc.held := by
  unfold State.abandon; try dsimp only
  (repeat' split) <;> first | rfl | simp | simp [watchFloat, watchMonth]
@[simp] theorem abandon_phase (h : Holder) (w : CtxState) : (s.abandon h w).atc.phase = s.atc.phase := by
  unfold State.abandon; try dsimp only
  (repeat' split) <;> first | rfl | simp | simp [watchFloat, watchMonth]

/-! ### retireParked -/

@[simp] theorem retireParked_held (n : Nat) : (s.retireParked n).atc.held = s.atc.held := by
  unfold State.retireParked
  suffices h : ∀ (l : List ParkEntry) (t : State),
      (l.foldl (fun s e => (s.unpark e.holder).ctxReply e.holder (Reply.plain .meterRetired)) t).atc.held = t.atc.held from h _ _
  intro l
  induction l with
  | nil => exact fun _ => rfl
  | cons a l ih => intro t; rw [List.foldl_cons, ih]; simp
@[simp] theorem retireParked_phase (n : Nat) : (s.retireParked n).atc.phase = s.atc.phase := by
  unfold State.retireParked
  suffices h : ∀ (l : List ParkEntry) (t : State),
      (l.foldl (fun s e => (s.unpark e.holder).ctxReply e.holder (Reply.plain .meterRetired)) t).atc.phase = t.atc.phase from h _ _
  intro l
  induction l with
  | nil => exact fun _ => rfl
  | cons a l ih => intro t; rw [List.foldl_cons, ih]; simp

/-! ### moveClock -/

@[simp] theorem moveClock_held (f : Tke → Tke) : (moveClock f s).atc.held = s.atc.held := by
  simp [moveClock, watchMonth]
@[simp] theorem moveClock_phase (f : Tke → Tke) : (moveClock f s).atc.phase = s.atc.phase := by
  simp [moveClock, watchMonth]

/-! ### setClock -/

@[simp] theorem setClock_held (m : Nat) : (s.setClock m).atc.held = s.atc.held := by simp [State.setClock]
@[simp] theorem setClock_phase (m : Nat) : (s.setClock m).atc.phase = s.atc.phase := by simp [State.setClock]

/-! ### recoverTill -/

@[simp] theorem recoverTill_held (c : Counter) (i : Image) : (s.recoverTill c i).atc.held = s.atc.held := by
  unfold State.recoverTill; try dsimp only
  (repeat' split) <;> first | rfl | simp | simp [watchFloat, watchMonth]
@[simp] theorem recoverTill_phase (c : Counter) (i : Image) : (s.recoverTill c i).atc.phase = s.atc.phase := by
  unfold State.recoverTill; try dsimp only
  (repeat' split) <;> first | rfl | simp | simp [watchFloat, watchMonth]

/-! ### passClaim -/

@[simp] theorem passClaim_held (c : Counter) (k : PassClaim) : (s.passClaim c k).atc.held = s.atc.held := by
  unfold State.passClaim; try dsimp only
  (repeat' split) <;> first | rfl | simp | simp [watchFloat, watchMonth]
@[simp] theorem passClaim_phase (c : Counter) (k : PassClaim) : (s.passClaim c k).atc.phase = s.atc.phase := by
  unfold State.passClaim; try dsimp only
  (repeat' split) <;> first | rfl | simp | simp [watchFloat, watchMonth]

theorem forHolders_held (f : Holder → State → State) (hf : ∀ h t, (f h t).atc.held = t.atc.held) :
    (forHolders f s).atc.held = s.atc.held := by
  unfold forHolders
  induction Holder.all generalizing s with
  | nil => rfl
  | cons a l ih => rw [List.foldl_cons, ih, hf]

theorem forCounters_held (f : Counter → State → State) (hf : ∀ c t, (f c t).atc.held = t.atc.held) :
    (forCounters f s).atc.held = s.atc.held := by
  unfold forCounters
  induction Counter.all generalizing s with
  | nil => rfl
  | cons a l ih => rw [List.foldl_cons, ih, hf]

theorem forHolders_phase (f : Holder → State → State) (hf : ∀ h t, (f h t).atc.phase = t.atc.phase) :
    (forHolders f s).atc.phase = s.atc.phase := by
  unfold forHolders
  induction Holder.all generalizing s with
  | nil => rfl
  | cons a l ih => rw [List.foldl_cons, ih, hf]

theorem forCounters_phase (f : Counter → State → State) (hf : ∀ c t, (f c t).atc.phase = t.atc.phase) :
    (forCounters f s).atc.phase = s.atc.phase := by
  unfold forCounters
  induction Counter.all generalizing s with
  | nil => rfl
  | cons a l ih => rw [List.foldl_cons, ih, hf]

/-- The part is live or not by the reset level and the phase alone. -/
theorem live_of_eq {s t : State} (h : t.atc.held = s.atc.held) (p : t.atc.phase = s.atc.phase) : t.live = s.live := by
  simp [State.live, h, p]

/-- The part is in service or not by the reset level and the phase alone. -/
theorem inService_of_eq {s t : State} (h : t.atc.held = s.atc.held) (p : t.atc.phase = s.atc.phase) :
    t.inService = s.inService := by simp [State.inService, h, p]

/-- A part in service is live. -/
theorem live_of_inService {s : State} (h : s.inService = true) : s.live = true := by
  simp [State.live, State.inService] at *; simp [h]

end Sys2Proof.Machine
end

