-- ==== Sys2Proof/Laws/FloatBalance.lean ====
section
/-! SUPPORT. The float balance: what claims leave of the float record, the entries and the write under way, and that each
completed write keeps the float solvent. -/

set_option linter.unusedTactic false
set_option linter.unnecessarySeqFocus false
set_option linter.unreachableTactic false
set_option linter.unusedSimpArgs false

namespace Sys2Proof.Machine

variable (s : State)

/-! ### claimFloat -/

@[simp] theorem claimFloat_record (k : FloatClaim) : (s.claimFloat k).flu.record = s.flu.record := rfl
@[simp] theorem claimFloat_entries (k : FloatClaim) : (s.claimFloat k).flu.entries = s.flu.entries := rfl
@[simp] theorem claimFloat_writing (k : FloatClaim) : (s.claimFloat k).flu.writing = s.flu.writing := rfl
@[simp] theorem claimFloat_before (k : FloatClaim) : (s.claimFloat k).flu.before = s.flu.before := rfl

/-! ### tillPartDone -/

@[simp] theorem tillPartDone_record (c : Counter) : (s.tillPartDone c).flu.record = s.flu.record := rfl
@[simp] theorem tillPartDone_entries (c : Counter) : (s.tillPartDone c).flu.entries = s.flu.entries := rfl
@[simp] theorem tillPartDone_writing (c : Counter) : (s.tillPartDone c).flu.writing = s.flu.writing := rfl
@[simp] theorem tillPartDone_before (c : Counter) : (s.tillPartDone c).flu.before = s.flu.before := rfl

/-! ### tillPartClaim -/

@[simp] theorem tillPartClaim_record (c : Counter) : (s.tillPartClaim c).flu.record = s.flu.record := by
  unfold State.tillPartClaim; try dsimp only
  (repeat' split) <;> first | rfl | simp
@[simp] theorem tillPartClaim_entries (c : Counter) : (s.tillPartClaim c).flu.entries = s.flu.entries := by
  unfold State.tillPartClaim; try dsimp only
  (repeat' split) <;> first | rfl | simp
@[simp] theorem tillPartClaim_writing (c : Counter) : (s.tillPartClaim c).flu.writing = s.flu.writing := by
  unfold State.tillPartClaim; try dsimp only
  (repeat' split) <;> first | rfl | simp
@[simp] theorem tillPartClaim_before (c : Counter) : (s.tillPartClaim c).flu.before = s.flu.before := by
  unfold State.tillPartClaim; try dsimp only
  (repeat' split) <;> first | rfl | simp

/-! ### recordPartDone -/

@[simp] theorem recordPartDone_record (c : Counter) : (s.recordPartDone c).flu.record = s.flu.record := rfl
@[simp] theorem recordPartDone_entries (c : Counter) : (s.recordPartDone c).flu.entries = s.flu.entries := rfl
@[simp] theorem recordPartDone_writing (c : Counter) : (s.recordPartDone c).flu.writing = s.flu.writing := rfl
@[simp] theorem recordPartDone_before (c : Counter) : (s.recordPartDone c).flu.before = s.flu.before := rfl

/-! ### recordPartClaim -/

@[simp] theorem recordPartClaim_record (c : Counter) : (s.recordPartClaim c).flu.record = s.flu.record := by
  unfold State.recordPartClaim; try dsimp only
  (repeat' split) <;> first | rfl | simp
@[simp] theorem recordPartClaim_entries (c : Counter) : (s.recordPartClaim c).flu.entries = s.flu.entries := by
  unfold State.recordPartClaim; try dsimp only
  (repeat' split) <;> first | rfl | simp
@[simp] theorem recordPartClaim_writing (c : Counter) : (s.recordPartClaim c).flu.writing = s.flu.writing := by
  unfold State.recordPartClaim; try dsimp only
  (repeat' split) <;> first | rfl | simp
@[simp] theorem recordPartClaim_before (c : Counter) : (s.recordPartClaim c).flu.before = s.flu.before := by
  unfold State.recordPartClaim; try dsimp only
  (repeat' split) <;> first | rfl | simp

/-! ### submit -/

@[simp] theorem submit_record (h : Holder) (m : Nat) (p : List PlannedToken) (l : List Nat) : (s.submit h m p l).flu.record = s.flu.record := by
  unfold State.submit; try dsimp only
  (repeat' split) <;> first | rfl | simp
@[simp] theorem submit_entries (h : Holder) (m : Nat) (p : List PlannedToken) (l : List Nat) : (s.submit h m p l).flu.entries = s.flu.entries := by
  unfold State.submit; try dsimp only
  (repeat' split) <;> first | rfl | simp
@[simp] theorem submit_writing (h : Holder) (m : Nat) (p : List PlannedToken) (l : List Nat) : (s.submit h m p l).flu.writing = s.flu.writing := by
  unfold State.submit; try dsimp only
  (repeat' split) <;> first | rfl | simp
@[simp] theorem submit_before (h : Holder) (m : Nat) (p : List PlannedToken) (l : List Nat) : (s.submit h m p l).flu.before = s.flu.before := by
  unfold State.submit; try dsimp only
  (repeat' split) <;> first | rfl | simp

/-! ### priceAndReserve -/

@[simp] theorem priceAndReserve_record (c : Counter) (q : CtxRequest) (v : RecordView) : (s.priceAndReserve c q v).flu.record = s.flu.record := by
  unfold State.priceAndReserve; try dsimp only
  (repeat' split) <;> first | rfl | simp
@[simp] theorem priceAndReserve_entries (c : Counter) (q : CtxRequest) (v : RecordView) : (s.priceAndReserve c q v).flu.entries = s.flu.entries := by
  unfold State.priceAndReserve; try dsimp only
  (repeat' split) <;> first | rfl | simp
@[simp] theorem priceAndReserve_writing (c : Counter) (q : CtxRequest) (v : RecordView) : (s.priceAndReserve c q v).flu.writing = s.flu.writing := by
  unfold State.priceAndReserve; try dsimp only
  (repeat' split) <;> first | rfl | simp
@[simp] theorem priceAndReserve_before (c : Counter) (q : CtxRequest) (v : RecordView) : (s.priceAndReserve c q v).flu.before = s.flu.before := by
  unfold State.priceAndReserve; try dsimp only
  (repeat' split) <;> first | rfl | simp

/-! ### issueOffice -/

@[simp] theorem issueOffice_record (q : CtxRequest) (v : RecordView) : (s.issueOffice q v).flu.record = s.flu.record := by
  unfold State.issueOffice; try dsimp only
  (repeat' split) <;> first | rfl | simp
@[simp] theorem issueOffice_entries (q : CtxRequest) (v : RecordView) : (s.issueOffice q v).flu.entries = s.flu.entries := by
  unfold State.issueOffice; try dsimp only
  (repeat' split) <;> first | rfl | simp
@[simp] theorem issueOffice_writing (q : CtxRequest) (v : RecordView) : (s.issueOffice q v).flu.writing = s.flu.writing := by
  unfold State.issueOffice; try dsimp only
  (repeat' split) <;> first | rfl | simp
@[simp] theorem issueOffice_before (q : CtxRequest) (v : RecordView) : (s.issueOffice q v).flu.before = s.flu.before := by
  unfold State.issueOffice; try dsimp only
  (repeat' split) <;> first | rfl | simp

/-! ### proceed -/

@[simp] theorem proceed_record (h : Holder) : (s.proceed h).flu.record = s.flu.record := by
  unfold State.proceed; try dsimp only
  (repeat' split) <;> first | rfl | simp
@[simp] theorem proceed_entries (h : Holder) : (s.proceed h).flu.entries = s.flu.entries := by
  unfold State.proceed; try dsimp only
  (repeat' split) <;> first | rfl | simp
@[simp] theorem proceed_writing (h : Holder) : (s.proceed h).flu.writing = s.flu.writing := by
  unfold State.proceed; try dsimp only
  (repeat' split) <;> first | rfl | simp
@[simp] theorem proceed_before (h : Holder) : (s.proceed h).flu.before = s.flu.before := by
  unfold State.proceed; try dsimp only
  (repeat' split) <;> first | rfl | simp

/-! ### resume -/

@[simp] theorem resume_record (h : Holder) : (s.resume h).flu.record = s.flu.record := by
  unfold State.resume; try dsimp only
  (repeat' split) <;> first | rfl | simp
@[simp] theorem resume_entries (h : Holder) : (s.resume h).flu.entries = s.flu.entries := by
  unfold State.resume; try dsimp only
  (repeat' split) <;> first | rfl | simp
@[simp] theorem resume_writing (h : Holder) : (s.resume h).flu.writing = s.flu.writing := by
  unfold State.resume; try dsimp only
  (repeat' split) <;> first | rfl | simp
@[simp] theorem resume_before (h : Holder) : (s.resume h).flu.before = s.flu.before := by
  unfold State.resume; try dsimp only
  (repeat' split) <;> first | rfl | simp

/-! ### digitsReturn -/

@[simp] theorem digitsReturn_record (h : Holder) (t : Token) : (s.digitsReturn h t).flu.record = s.flu.record := by
  unfold State.digitsReturn; try dsimp only
  (repeat' split) <;> first | rfl | simp
@[simp] theorem digitsReturn_entries (h : Holder) (t : Token) : (s.digitsReturn h t).flu.entries = s.flu.entries := by
  unfold State.digitsReturn; try dsimp only
  (repeat' split) <;> first | rfl | simp
@[simp] theorem digitsReturn_writing (h : Holder) (t : Token) : (s.digitsReturn h t).flu.writing = s.flu.writing := by
  unfold State.digitsReturn; try dsimp only
  (repeat' split) <;> first | rfl | simp
@[simp] theorem digitsReturn_before (h : Holder) (t : Token) : (s.digitsReturn h t).flu.before = s.flu.before := by
  unfold State.digitsReturn; try dsimp only
  (repeat' split) <;> first | rfl | simp

/-! ### windBack -/

@[simp] theorem windBack_record (h : Holder) (m : StopMark) : (s.windBack h m).flu.record = s.flu.record := by
  unfold State.windBack; try dsimp only
  (repeat' split) <;> first | rfl | simp
@[simp] theorem windBack_entries (h : Holder) (m : StopMark) : (s.windBack h m).flu.entries = s.flu.entries := by
  unfold State.windBack; try dsimp only
  (repeat' split) <;> first | rfl | simp
@[simp] theorem windBack_writing (h : Holder) (m : StopMark) : (s.windBack h m).flu.writing = s.flu.writing := by
  unfold State.windBack; try dsimp only
  (repeat' split) <;> first | rfl | simp
@[simp] theorem windBack_before (h : Holder) (m : StopMark) : (s.windBack h m).flu.before = s.flu.before := by
  unfold State.windBack; try dsimp only
  (repeat' split) <;> first | rfl | simp

/-! ### cancelCtx -/

@[simp] theorem cancelCtx_record (h : Holder) : (s.cancelCtx h).flu.record = s.flu.record := by
  unfold State.cancelCtx; try dsimp only
  (repeat' split) <;> first | rfl | simp
@[simp] theorem cancelCtx_entries (h : Holder) : (s.cancelCtx h).flu.entries = s.flu.entries := by
  unfold State.cancelCtx; try dsimp only
  (repeat' split) <;> first | rfl | simp
@[simp] theorem cancelCtx_writing (h : Holder) : (s.cancelCtx h).flu.writing = s.flu.writing := by
  unfold State.cancelCtx; try dsimp only
  (repeat' split) <;> first | rfl | simp
@[simp] theorem cancelCtx_before (h : Holder) : (s.cancelCtx h).flu.before = s.flu.before := by
  unfold State.cancelCtx; try dsimp only
  (repeat' split) <;> first | rfl | simp

/-! ### engineNotice -/

@[simp] theorem engineNotice_record (h : Holder) : (State.engineNotice h s).flu.record = s.flu.record := by
  unfold State.engineNotice; try dsimp only
  (repeat' split) <;> first | rfl | simp
@[simp] theorem engineNotice_entries (h : Holder) : (State.engineNotice h s).flu.entries = s.flu.entries := by
  unfold State.engineNotice; try dsimp only
  (repeat' split) <;> first | rfl | simp
@[simp] theorem engineNotice_writing (h : Holder) : (State.engineNotice h s).flu.writing = s.flu.writing := by
  unfold State.engineNotice; try dsimp only
  (repeat' split) <;> first | rfl | simp
@[simp] theorem engineNotice_before (h : Holder) : (State.engineNotice h s).flu.before = s.flu.before := by
  unfold State.engineNotice; try dsimp only
  (repeat' split) <;> first | rfl | simp

/-! ### abandonOffice -/

@[simp] theorem abandonOffice_record (w : CtxState) : (s.abandonOffice w).flu.record = s.flu.record := by
  unfold State.abandonOffice; try dsimp only
  (repeat' split) <;> first | rfl | simp
@[simp] theorem abandonOffice_entries (w : CtxState) : (s.abandonOffice w).flu.entries = s.flu.entries := by
  unfold State.abandonOffice; try dsimp only
  (repeat' split) <;> first | rfl | simp
@[simp] theorem abandonOffice_writing (w : CtxState) : (s.abandonOffice w).flu.writing = s.flu.writing := by
  unfold State.abandonOffice; try dsimp only
  (repeat' split) <;> first | rfl | simp
@[simp] theorem abandonOffice_before (w : CtxState) : (s.abandonOffice w).flu.before = s.flu.before := by
  unfold State.abandonOffice; try dsimp only
  (repeat' split) <;> first | rfl | simp

/-! ### abandon -/

@[simp] theorem abandon_record (h : Holder) (w : CtxState) : (s.abandon h w).flu.record = s.flu.record := by
  unfold State.abandon; try dsimp only
  (repeat' split) <;> first | rfl | simp
@[simp] theorem abandon_entries (h : Holder) (w : CtxState) : (s.abandon h w).flu.entries = s.flu.entries := by
  unfold State.abandon; try dsimp only
  (repeat' split) <;> first | rfl | simp
@[simp] theorem abandon_writing (h : Holder) (w : CtxState) : (s.abandon h w).flu.writing = s.flu.writing := by
  unfold State.abandon; try dsimp only
  (repeat' split) <;> first | rfl | simp
@[simp] theorem abandon_before (h : Holder) (w : CtxState) : (s.abandon h w).flu.before = s.flu.before := by
  unfold State.abandon; try dsimp only
  (repeat' split) <;> first | rfl | simp

/-! ### Reserved (R51) -/

/-- Replacing an entry changes reserved by the difference of what the two count. -/
theorem reserved_setEntry (f : Flu) (c : Counter) (e : Entry) :
    (f.setEntry c e).reserved + (f.entries.get c).counted (f.record.lastConsumed.get c) =
      f.reserved + e.counted (f.record.lastConsumed.get c) := by
  cases c <;>
    simp [Flu.reserved, Flu.setEntry, Counter.all, PerCounter.get, PerCounter.set] <;> omega

/-- The figures of a completed float part: consumed rises by the entry's money, and the entry counts nothing more. -/
theorem reserved_consume (f : Flu) (c : Counter) (i : Image) (h : f.entries.get c = .sealed i) :
    (f.consume c i).reserved + (f.entries.get c).counted (f.record.lastConsumed.get c) = f.reserved := by
  have hz : (Entry.sealed i).counted i.serial = 0 := by simp [Entry.counted]
  cases c <;> simp [PerCounter.get] at h <;>
    simp [Flu.reserved, Flu.consume, Counter.all, PerCounter.get, PerCounter.set, h, hz] <;> omega

theorem counted_free (last : Nat) : Entry.free.counted last = 0 := rfl

theorem counted_issuing (sale : Sale) (last : Nat) : (Entry.issuing sale).counted last = sale.money := rfl

theorem counted_sealed_le (i : Image) (last : Nat) : (Entry.sealed i).counted last ≤ i.sale.money := by
  simp only [Entry.counted]; split <;> omega

/-- Reserved depends on the entries and the record alone. -/
theorem reserved_congr {f g : Flu} (he : g.entries = f.entries) (hr : g.record.lastConsumed = f.record.lastConsumed) :
    g.reserved = f.reserved := by simp [Flu.reserved, he, hr]

/-- Solvency depends on the entries and the record alone. -/
theorem solvent_congr {f g : Flu} (hr : g.record = f.record) (he : g.entries = f.entries) (h : f.solvent) :
    g.solvent := by
  have := reserved_congr he (congrArg FloatRecord.lastConsumed hr)
  simp only [Flu.solvent] at *; rw [this, hr]; exact h

/-- Available is what is left of a solvent float. -/
theorem available_of_solvent {f : Flu} (h : f.solvent) :
    f.available + f.reserved + f.record.consumed + f.record.recalled = f.record.granted := by
  simp only [Flu.solvent, Flu.available] at *; omega

/-- An entry that counts less leaves the float solvent. -/
theorem solvent_setEntry {f : Flu} (h : f.solvent) (c : Counter) (e : Entry)
    (hc : e.counted (f.record.lastConsumed.get c) ≤ (f.entries.get c).counted (f.record.lastConsumed.get c)) :
    (f.setEntry c e).solvent := by
  have := reserved_setEntry f c e
  simp only [Flu.solvent] at *
  have hr : (f.setEntry c e).record = f.record := rfl
  rw [hr]; omega

/-- A claim RESERVED by R61 leaves the float solvent when its entry is written. -/
theorem solvent_reserve {f : Flu} (h : f.solvent) (c : Counter) (sale : Sale)
    (hr : f.reserveRefusal c sale = none) : (f.setEntry c (.issuing sale)).solvent := by
  have hs := reserved_setEntry f c (.issuing sale)
  simp only [Flu.reserveRefusal] at hr
  split at hr
  · exact absurd hr (by simp)
  · split at hr
    · exact absurd hr (by simp)
    · rename_i h1 h2
      have ha := available_of_solvent h
      rw [counted_issuing] at hs
      have hq : (f.setEntry c (.issuing sale)).record = f.record := rfl
      simp only [Flu.solvent] at *; rw [hq]; omega

/-- The float part leaves the float solvent: consumed rises by what reserved falls (R65). -/
theorem solvent_consume {f : Flu} (h : f.solvent) (c : Counter) (i : Image) (he : f.entries.get c = .sealed i)
    (hu : i.serial ≠ f.record.lastConsumed.get c) : (f.consume c i).solvent := by
  have hs := reserved_consume f c i he
  rw [he] at hs
  simp only [Entry.counted, hu, if_false] at hs
  have hc : (f.consume c i).record.consumed = f.record.consumed + i.sale.money := rfl
  have hg : (f.consume c i).record.granted = f.record.granted := rfl
  have hr : (f.consume c i).record.recalled = f.record.recalled := rfl
  simp only [Flu.solvent] at *; rw [hc, hg, hr]; omega

/-- The image of a sealed entry. -/
theorem sealedImage_eq {f : Flu} {c : Counter} {i : Image} (h : f.sealedImage c = some i) :
    f.entries.get c = .sealed i := by
  simp only [Flu.sealedImage] at h
  split at h <;> simp_all

/-- The seal leaves the float solvent (R63). -/
theorem solvent_seal {f : Flu} (h : f.solvent) (c : Counter) (tokens : List Token) : (f.seal c tokens).solvent := by
  unfold Flu.seal
  split
  · rename_i sale he
    refine solvent_congr (f := f.setEntry c (.sealed ⟨f.nextSerial, sale, tokens⟩)) rfl rfl ?_
    refine solvent_setEntry h c _ ?_
    rw [he, counted_issuing]; exact counted_sealed_le _ _
  · exact h

/-- A grant leaves the float solvent (R54). -/
theorem solvent_grant {f : Flu} (h : f.solvent) (n a : Nat) : (f.complete (.grant n a)).solvent := by
  simp only [Flu.solvent, Flu.complete, Flu.reserved] at *; omega

/-- A recall takes no more than is available (R55). -/
theorem solvent_recall {f : Flu} (h : f.solvent) (n a : Nat) : (f.complete (.recall n a)).solvent := by
  have ha := available_of_solvent h
  simp only [Flu.solvent, Flu.complete, Flu.reserved] at *; omega

/-- The float terms leave the figures (R57). -/
theorem solvent_terms {f : Flu} (h : f.solvent) (a b d : Nat) : (f.complete (.terms a b d)).solvent := by
  simp only [Flu.solvent, Flu.complete, Flu.reserved] at *; exact h

/-! ### Balance -/

/-- What the float had when the recovery pass under way began was solvent. -/
def Flu.passOk (f : Flu) : Prop :=
  ∀ b, f.before = some b → ({ f with record := b.record, entries := b.entries } : Flu).solvent

/-- That depends on nothing else of FLU. -/
theorem passOk_congr {f g : Flu} (hb : g.before = f.before) (h : f.passOk) : g.passOk :=
  fun b hg => solvent_congr rfl rfl (h b (hb ▸ hg))

/-- Balance depends on the entries, the record, the write under way and what the recovery pass found. -/
theorem balanced_congr {f g : Flu} (hr : g.record = f.record) (he : g.entries = f.entries)
    (hw : g.writing = f.writing) (hb : g.before = f.before) (h : f.balanced) : g.balanced := by
  refine ⟨solvent_congr hr he h.1, fun k hk => ?_, passOk_congr hb h.2.2⟩
  have hk' : f.writing = some k := hw ▸ hk
  have := h.2.1 k hk'
  have ha : g.available = f.available := by
    simp [Flu.available, reserved_congr he (congrArg FloatRecord.lastConsumed hr), hr]
  have hs : g.solvent := solvent_congr hr he h.1
  cases k <;> first
  | exact solvent_seal hs _ _
  | skip
  all_goals
    simp only [Flu.complete, Flu.setEntry, Flu.sealedImage, Flu.consume, he, hr, ha] at this ⊢
    (try split at this) <;> first
      | exact solvent_congr (by simp_all) (by simp_all) this
      | (split <;> simp_all)

/-- With no write under way, balance is solvency. -/
theorem balanced_idle {f : Flu} (h : f.solvent) (hw : f.writing = none) (hb : f.passOk) : f.balanced :=
  ⟨h, by simp [hw], hb⟩

/-- A write of FLU leaves what the recovery pass found. -/
@[simp] theorem complete_before (f : Flu) (k : FloatClaim) : (f.complete k).before = f.before := by
  cases k <;> simp only [Flu.complete, Flu.setEntry, Flu.seal, Flu.consume] <;> (try split) <;> rfl

/-- The write under way completes and leaves the float balanced. -/
theorem completeFloat_balanced {k : FloatClaim} (h : (s.flu.complete k).solvent) (hb : s.flu.passOk) :
    (s.completeFloat k).flu.balanced := by
  refine balanced_idle ?_ ?_ (passOk_congr (f := s.flu) ?_ hb)
  · refine solvent_congr (f := s.flu.complete k) ?_ ?_ h <;> simp [State.completeFloat, watchFloat]
  · simp [State.completeFloat, watchFloat]
  · simp [State.completeFloat, watchFloat]

/-- Beginning the write of a claim that will leave the float solvent. -/
theorem begin_balanced {f : Flu} (k : FloatClaim) (h : f.balanced) (hk : (f.complete k).solvent) :
    ({ f with writing := some k } : Flu).balanced := by
  refine ⟨solvent_congr (f := f) rfl rfl h.1, fun j hj => ?_, passOk_congr (f := f) rfl h.2.2⟩
  cases hj
  have hd := fun e => solvent_congr (f := f.complete k) (g := ({ f with writing := some k } : Flu).complete k) e
  refine hd ?_ ?_ hk <;> cases k <;> simp only [Flu.complete, Flu.setEntry, Flu.seal, Flu.sealedImage, Flu.consume] <;>
    first | rfl | (split <;> rfl) | simp [Flu.available, Flu.reserved]

/-! ### Claims taken (R52) -/

/-- A GRANT taken leaves the float balanced. -/
theorem takeGrant_balanced (n a : Nat) (h : s.flu.balanced) : (s.takeGrant n a).flu.balanced := by
  unfold State.takeGrant
  split
  · simpa using completeFloat_balanced s (solvent_grant h.1 n a) h.2.2
  · simpa using h

/-- A RECALL taken leaves the float balanced. -/
theorem takeRecall_balanced (n a : Nat) (h : s.flu.balanced) : (s.takeRecall n a).flu.balanced := by
  unfold State.takeRecall
  split
  · simpa using completeFloat_balanced s (solvent_recall h.1 n a) h.2.2
  · simpa using h

/-- A FLOAT_TERMS taken leaves the float balanced. -/
theorem takeTerms_balanced (a b d : Nat) (h : s.flu.balanced) : (s.takeTerms a b d).flu.balanced := by
  unfold State.takeTerms
  split
  · simpa using completeFloat_balanced s (solvent_terms h.1 a b d) h.2.2
  · simpa using h

/-- Freeing an entry leaves the float solvent. -/
theorem solvent_free {f : Flu} (h : f.solvent) (c : Counter) : (f.setEntry c .free).solvent :=
  solvent_setEntry h c _ (by rw [counted_free]; exact Nat.zero_le _)

/-- A claim taken leaves the float balanced. -/
theorem takeFloat_balanced (k : FloatClaim) (h : s.flu.balanced) : (s.takeFloat k).flu.balanced := by
  cases k <;> simp only [State.takeFloat]
  · split
    · rename_i hr
      exact begin_balanced _ h (solvent_reserve h.1 _ _ hr)
    · split <;> simpa using h
  · split
    · exact begin_balanced _ h (solvent_free h.1 _)
    · simpa using h
    · simpa using h
  · split
    · exact begin_balanced _ h (solvent_seal h.1 _ _)
    · exact h
  · rename_i c
    split
    · rename_i i hi
      split
      · refine balanced_congr ?_ ?_ ?_ ?_ h <;> simp
      · rename_i hu
        refine begin_balanced _ h ?_
        simp only [Flu.complete, hi]
        refine solvent_consume h.1 c i (sealedImage_eq hi) ?_
        simpa [Flu.floatApplied, hi] using hu
    · exact h
  · split
    · exact begin_balanced _ h (solvent_free h.1 _)
    · exact h
  · exact takeGrant_balanced s _ _ h
  · exact takeRecall_balanced s _ _ h
  · exact takeTerms_balanced s _ _ _ h

/-- FLU's claims taken in turn leave the float balanced. -/
theorem drainFloat_balanced (n : Nat) (h : s.flu.balanced) : (drainFloat n s).flu.balanced := by
  induction n generalizing s with
  | zero => exact h
  | succ n ih =>
    unfold drainFloat
    split
    · exact ih _ (takeFloat_balanced _ _ (balanced_congr (f := s.flu) rfl rfl rfl rfl h))
    · exact h

theorem pumpFloat_balanced (h : s.flu.balanced) : s.pumpFloat.flu.balanced := by
  obtain ⟨n, m, e⟩ := pumpFloat_spec s; rw [e]; exact drainFloat_balanced s _ h

/-! ### Power cuts and recovery (R67 to R69, R204) -/

/-- A power cut leaves the float balanced, with no write under way. -/
theorem cutFloat_balanced (h : s.flu.balanced) : s.cutFloat.flu.balanced ∧ s.cutFloat.flu.writing = none := by
  unfold State.cutFloat
  split
  · rename_i hw
    exact ⟨balanced_congr (f := s.flu) rfl rfl rfl rfl h, hw⟩
  · rename_i k hk
    refine ⟨balanced_idle ?_ rfl (passOk_congr (f := s.flu) ?_ h.2.2), rfl⟩
    · dsimp only
      split
      · exact solvent_congr (f := s.flu.complete k) rfl rfl (h.2.1 k hk)
      · exact solvent_congr (f := s.flu) rfl rfl h.1
    · dsimp only
      split <;> simp

/-- The float is balanced and FLU writes nothing. -/
def State.floatIdle (s : State) : Prop := s.flu.balanced ∧ s.flu.writing = none

/-- That depends on four fields of FLU. -/
theorem floatIdle_congr {s t : State} (hr : t.flu.record = s.flu.record) (he : t.flu.entries = s.flu.entries)
    (hw : t.flu.writing = s.flu.writing) (hb : t.flu.before = s.flu.before) (h : s.floatIdle) : t.floatIdle :=
  ⟨balanced_congr hr he hw hb h.1, hw.trans h.2⟩

/-- A claim of the recovery pass leaves the float balanced. -/
theorem passClaim_floatIdle (c : Counter) (k : PassClaim) (h : s.floatIdle) : (s.passClaim c k).floatIdle := by
  unfold State.passClaim
  split
  · exact h
  · exact floatIdle_congr (by simp) (by simp) (by simp) (by simp) h
  · exact floatIdle_congr (by simp) (by simp) (by simp) (by simp) h
  · rename_i i hi
    unfold State.recoverFloat
    split
    · exact h
    · rename_i hu
      refine ⟨balanced_idle (solvent_consume h.1.1 c i hi ?_) h.2 (passOk_congr (f := s.flu) rfl h.1.2.2), h.2⟩
      simpa [Flu.floatApplied, Flu.sealedImage, hi] using hu
  · exact floatIdle_congr (by simp) (by simp) (by simp) (by simp) h
  · exact floatIdle_congr (by simp) (by simp) (by simp) (by simp) h
  · exact ⟨balanced_idle (solvent_free h.1.1 c) h.2 (passOk_congr (f := s.flu) rfl h.1.2.2), h.2⟩
  · exact h

/-- Claims of the recovery pass in turn leave the float balanced. -/
theorem passClaims_floatIdle (l : List (Counter × PassClaim)) (h : s.floatIdle) :
    (l.foldl (fun t p => t.passClaim p.1 p.2) s).floatIdle := by
  induction l generalizing s with
  | nil => exact h
  | cons p l ih => exact ih _ (passClaim_floatIdle s _ _ h)

/-- The recovery pass leaves the float balanced. -/
theorem recoverEntry_floatIdle (c : Counter) (h : s.floatIdle) : (State.recoverEntry c s).floatIdle := by
  unfold State.recoverEntry
  induction PassClaim.all generalizing s with
  | nil => exact h
  | cons k l ih => exact ih _ (passClaim_floatIdle s _ _ h)

/-- Entering RECOVERING with no write under way leaves the float balanced. -/
theorem enterRecovering_floatIdle (h : s.floatIdle) : s.enterRecovering.floatIdle := by
  unfold State.enterRecovering forCounters
  have hb : ((s.mapAtc fun a => { a with phase := .recovering }).startTfu).beginPass.floatIdle := by
    refine ⟨balanced_idle ?_ ?_ ?_, ?_⟩
    · exact solvent_congr (f := s.flu) (by simp [State.beginPass]) (by simp [State.beginPass]) h.1.1
    · simpa [State.beginPass] using h.2
    · intro b hb
      refine solvent_congr (f := s.flu) ?_ ?_ h.1.1 <;> simp [State.beginPass] at hb ⊢ <;> simp [← hb]
    · simpa [State.beginPass] using h.2
  generalize ((s.mapAtc fun a => { a with phase := .recovering }).startTfu).beginPass = t at hb
  induction Counter.all generalizing t with
  | nil => exact hb
  | cons a l ih => exact ih _ (recoverEntry_floatIdle t a hb)

/-- A cut in the recovery pass leaves the float balanced. -/
theorem cutPass_floatIdle (h : s.floatIdle) : s.cutPass.floatIdle := by
  have hu : s.unpass.floatIdle := by
    have hp : s.unpass.flu.passOk := passOk_congr (f := s.flu) rfl h.1.2.2
    refine ⟨balanced_idle ?_ h.2 hp, h.2⟩
    rcases hb : s.flu.before with _ | b
    · exact solvent_congr (f := s.flu) (by simp [State.unpass, hb]) (by simp [State.unpass, hb]) h.1.1
    · exact solvent_congr (by simp [State.unpass, hb]) (by simp [State.unpass, hb]) (h.1.2.2 b hb)
  have hc : ∀ (l : List (Counter × PassClaim)) (t : State), t.floatIdle → (cutClaims l t).floatIdle := by
    intro l
    induction l with
    | nil =>
      intro t ht
      exact floatIdle_congr (by simp [cutClaims]) (by simp [cutClaims]) (by simp [cutClaims]) (by simp [cutClaims]) ht
    | cons p l ih =>
      intro t ht
      unfold cutClaims
      split
      · exact ih _ (passClaim_floatIdle _ _ _ ht)
      · exact ht
  have he : ∀ t : State, t.floatIdle → t.endPass.floatIdle := fun t ht =>
    ⟨balanced_idle (solvent_congr (f := t.flu) rfl rfl ht.1.1) ht.2 (fun b hb => by cases hb), ht.2⟩
  unfold State.cutPass
  split
  · exact he _ (hc _ _ hu)
  · exact he _ h


end Sys2Proof.Machine
end

