-- ==== Sys2Proof/Laws/Per.lean ====
section
/-! SUPPORT. Reading back what was put for one counter, holder, bank or block. -/

namespace Sys2Proof.Machine

variable {α β : Type}

@[simp] theorem PerCounter.get_set_self (p : PerCounter α) (c : Counter) (a : α) : (p.set c a).get c = a := by
  cases c <;> rfl

theorem PerCounter.get_set (p : PerCounter α) (c d : Counter) (a : α) :
    (p.set c a).get d = if d = c then a else p.get d := by
  cases c <;> cases d <;> simp [PerCounter.get, PerCounter.set]

@[simp] theorem PerCounter.get_set_ne (p : PerCounter α) {c d : Counter} (h : d ≠ c) (a : α) :
    (p.set c a).get d = p.get d := by simp [PerCounter.get_set, h]

@[simp] theorem PerCounter.set_set (p : PerCounter α) (c : Counter) (a b : α) : (p.set c a).set c b = p.set c b := by
  cases c <;> rfl

@[simp] theorem PerCounter.set_get (p : PerCounter α) (c : Counter) : p.set c (p.get c) = p := by cases c <;> rfl

@[simp] theorem PerCounter.get_fill (a : α) (c : Counter) : (PerCounter.fill a).get c = a := by cases c <;> rfl

@[simp] theorem PerCounter.get_map (f : α → β) (p : PerCounter α) (c : Counter) :
    (p.map f).get c = f (p.get c) := by cases c <;> rfl

@[simp] theorem PerHolder.get_set_self (p : PerHolder α) (h : Holder) (a : α) : (p.set h a).get h = a := by
  cases h <;> simp [PerHolder.get, PerHolder.set]

theorem PerHolder.get_set (p : PerHolder α) (h k : Holder) (a : α) :
    (p.set h a).get k = if k = h then a else p.get k := by
  cases h <;> cases k <;> simp [PerHolder.get, PerHolder.set, PerCounter.get_set]

@[simp] theorem PerHolder.get_set_ne (p : PerHolder α) {h k : Holder} (hk : k ≠ h) (a : α) :
    (p.set h a).get k = p.get k := by simp [PerHolder.get_set, hk]

@[simp] theorem PerHolder.set_set (p : PerHolder α) (h : Holder) (a b : α) : (p.set h a).set h b = p.set h b := by
  cases h <;> simp [PerHolder.set]

@[simp] theorem PerHolder.set_get (p : PerHolder α) (h : Holder) : p.set h (p.get h) = p := by
  cases h <;> simp [PerHolder.set, PerHolder.get]

@[simp] theorem PerHolder.get_fill (a : α) (h : Holder) : (PerHolder.fill a).get h = a := by
  cases h <;> simp [PerHolder.get, PerHolder.fill]

@[simp] theorem PerHolder.get_map (f : α → β) (p : PerHolder α) (h : Holder) : (p.map f).get h = f (p.get h) := by
  cases h <;> simp [PerHolder.get, PerHolder.map]

@[simp] theorem PerBank.get_set_self (p : PerBank α) (k : Bank) (a : α) : (p.set k a).get k = a := by cases k <;> rfl

theorem PerBank.get_set (p : PerBank α) (k l : Bank) (a : α) : (p.set k a).get l = if l = k then a else p.get l := by
  cases k <;> cases l <;> simp [PerBank.get, PerBank.set]

@[simp] theorem Bank.other_ne (k : Bank) : k.other ≠ k := by cases k <;> simp [Bank.other]

@[simp] theorem Bank.other_other (k : Bank) : k.other.other = k := by cases k <;> rfl

@[simp] theorem PerBlock.get_set_self (p : PerBlock α) (b : Block) (a : α) : (p.set b a).get b = a := by
  cases b <;> rfl

theorem PerBlock.get_set (p : PerBlock α) (b d : Block) (a : α) :
    (p.set b a).get d = if d = b then a else p.get d := by
  cases b <;> cases d <;> simp [PerBlock.get, PerBlock.set]

@[simp] theorem PerBlock.get_fill (a : α) (b : Block) : (PerBlock.fill a).get b = a := by cases b <;> rfl

/-- Every counter is in the list of counters. -/
theorem Counter.mem_all (c : Counter) : c ∈ Counter.all := by cases c <;> decide

/-- Every holder is in the list of holders. -/
theorem Holder.mem_all (h : Holder) : h ∈ Holder.all := by
  cases h with
  | office => decide
  | counter c => cases c <;> decide

end Sys2Proof.Machine
end

