-- ==== Sys2Proof/Laws/Status.lean ====
section
/-! SUPPORT. The status bits: what setting and clearing them does to each bit (R198, R200, R201). -/

namespace Sys2Proof.Machine

/-- A status bit's position is one of its word's 32. -/
theorem Status.pos_lt (b : Status) : b.pos < 32 := by
  rcases b with _ | _ | _ | _ | _ | (c | _) | _ | _ | _ | _ | _ | _ | _ | _ | _ | _ | _ | _ | _ | _ | _ | _ | c | c | c | c <;>
    first | (cases c <;> decide) | decide

/-- A status bit's mask has that bit alone. -/
theorem Status.mask_bit (b : Status) (n : Nat) : b.mask.getLsbD n = decide (n = b.pos) := by
  have hp := b.pos_lt
  simp only [Status.mask, BitVec.getLsbD_shiftLeft]
  by_cases h : n = b.pos
  · subst h; simp [hp]
  · by_cases h1 : n < b.pos
    · simp [h1, h]
    · have h2 : n - b.pos ≠ 0 := by omega
      simp [h, h2]

/-- A status bit set is set. -/
@[simp] theorem has_raise_self (s : State) (b : Status) : (s.raise b).has b = true := by
  simp [State.has, raise_atc, Status.mask_bit]

/-- Setting a status bit leaves every other bit. -/
theorem has_raise (s : State) (b d : Status) :
    (s.raise b).has d = (s.has d || (decide (d.block = b.block) && decide (d.pos = b.pos))) := by
  simp only [State.has, raise_atc, PerBlock.get_set]
  by_cases h : d.block = b.block
  · simp [h, Status.mask_bit]
  · simp [h]

/-- A bit stays set when another is set. -/
theorem has_raise_mono {s : State} {d : Status} (b : Status) (h : s.has d = true) : (s.raise b).has d = true := by
  rw [has_raise, h]; rfl

theorem has_raiseIf_mono {s : State} {d : Status} (p : Bool) (b : Status) (h : s.has d = true) :
    (s.raiseIf p b).has d = true := by
  unfold State.raiseIf; split
  · exact has_raise_mono b h
  · exact h

/-- A status bit set on a condition that holds is set. -/
theorem has_raiseIf_self (s : State) {p : Bool} (b : Status) (h : p = true) : (s.raiseIf p b).has b = true := by
  subst h; exact has_raise_self s b

/-- The status words decide which bits are set. -/
theorem has_congr {s t : State} (b : Status) (h : t.atc.status = s.atc.status) : t.has b = s.has b := by
  simp [State.has, h]

/-- What clearing bits leaves of one. -/
theorem has_clearBits (s : State) (b : Block) (v : Word) (d : Status) :
    (s.clearBits b v).has d = (s.has d && !(decide (d.block = b) && v.getLsbD d.pos)) := by
  have hp := d.pos_lt
  show ((s.atc.status.set b (s.atc.status.get b &&& ~~~v)).get d.block).getLsbD d.pos = _
  simp only [State.has, PerBlock.get_set]
  by_cases h : d.block = b
  · simp [h, hp]
  · simp [h]

end Sys2Proof.Machine
end

