-- ==== Sys2Proof/Laws/Looks.lean ====
section
/-! SUPPORT. Looks at the rings: what one look does, and what a row of looks does. -/

set_option linter.unusedSimpArgs false

namespace Sys2Proof.Machine

/-- What a look at a ring whose access passes the window check does to RGI (R188, R191). -/
def lookOne (g : Rgi) (r : Holder) : Rgi :=
  if g.state = .running ∧ (g.rings.get r).halted = false ∧ (g.rings.get r).service = none ∧
      Access.look r ∉ g.bus then
    { g with rings := g.rings.set r { g.rings.get r with poll := false }, bus := g.bus ++ [.look r] } else g

theorem lookAt_eq (s : State) (r : Holder) (h : s.rgi.accessOk r = true) :
    State.lookAt r s = { s with rgi := lookOne s.rgi r } := by
  unfold State.lookAt lookOne
  dsimp only [State.ring]
  by_cases c : s.rgi.state = .running ∧ (s.rgi.rings.get r).halted = false ∧ (s.rgi.rings.get r).service = none ∧
      Access.look r ∉ s.rgi.bus
  · have c' : s.rgi.state = .running ∧ (!(s.rgi.rings.get r).halted) = true ∧
        (s.rgi.rings.get r).service.isNone = true ∧ Access.look r ∉ s.rgi.bus := by
      obtain ⟨a, b, d, f⟩ := c; exact ⟨a, by simp [b], by simp [d], f⟩
    rw [if_pos c, if_pos c']
    unfold State.access
    have : (s.mapRing r fun y => { y with poll := false }).rgi.accessOk r = true := by
      simp only [Rgi.accessOk, mapRing_rgi, Rgi.descriptorAt, PerHolder.get_set_self] at h ⊢
      exact h
    rw [if_pos this]; rfl
  · have c' : ¬ (s.rgi.state = .running ∧ (!(s.rgi.rings.get r).halted) = true ∧
        (s.rgi.rings.get r).service.isNone = true ∧ Access.look r ∉ s.rgi.bus) := by
      intro ⟨a, b, d, f⟩; exact c ⟨a, by simpa using b, by simpa using d, f⟩
    rw [if_neg c, if_neg c']

theorem lookOne_access (g : Rgi) (r x : Holder) : (lookOne g r).accessOk x = g.accessOk x := by
  unfold lookOne; split
  · by_cases h : x = r
    · subst h; simp [Rgi.accessOk, Rgi.descriptorAt]
    · simp [Rgi.accessOk, Rgi.descriptorAt, PerHolder.get_set_ne _ h]
  · rfl

theorem lookOne_state (g : Rgi) (r : Holder) : (lookOne g r).state = g.state := by unfold lookOne; split <;> rfl

theorem lookOne_mask (g : Rgi) (r : Holder) : (lookOne g r).mask = g.mask := by unfold lookOne; split <;> rfl

theorem lookOne_ring (g : Rgi) (r x : Holder) :
    ((lookOne g r).rings.get x).halted = (g.rings.get x).halted ∧
      ((lookOne g r).rings.get x).service = (g.rings.get x).service := by
  unfold lookOne; split
  · simp only [PerHolder.get_set]; split <;> simp_all
  · exact ⟨rfl, rfl⟩

/-- What looks at some rings, in order, leave. -/
theorem looks_eq (l : List Holder) (hl : l.Nodup) (s : State) (ha : ∀ r, s.rgi.accessOk r = true)
    (hr : s.rgi.state = .running) :
    ∃ g, l.foldl (fun s r => State.lookAt r s) s = { s with rgi := g } ∧ g.state = .running ∧
      g.mask = s.rgi.mask ∧ (∀ r, g.accessOk r = true) ∧ g.bus = looksAt s l := by
  induction l generalizing s with
  | nil => exact ⟨s.rgi, rfl, hr, rfl, ha, by simp [looksAt]⟩
  | cons a l ih =>
    obtain ⟨hn, hl⟩ := List.nodup_cons.mp hl
    rw [List.foldl_cons, lookAt_eq s a (ha a)]
    obtain ⟨g, h1, h2, h3, h4, h5⟩ := ih hl { s with rgi := lookOne s.rgi a }
      (by intro r; rw [lookOne_access]; exact ha r) (by rw [lookOne_state]; exact hr)
    refine ⟨g, h1, h2, h3.trans (lookOne_mask _ _), h4, ?_⟩
    rw [h5]
    unfold looksAt
    have hf :
        (l.filter fun r => !(State.ring { s with rgi := lookOne s.rgi a } r).halted &&
          (State.ring { s with rgi := lookOne s.rgi a } r).service.isNone &&
            decide (Access.look r ∉ (lookOne s.rgi a).bus)) =
          (l.filter fun r =>
            !(s.ring r).halted && (s.ring r).service.isNone && decide (Access.look r ∉ s.rgi.bus)) := by
      apply List.filter_congr
      intro x hx
      have hne : x ≠ a := fun e => hn (e ▸ hx)
      have := lookOne_ring s.rgi a x
      simp only [State.ring, this.1, this.2]
      congr 1
      unfold lookOne; split
      · simp [hne]
      · rfl
    dsimp only
    rw [hf, List.filter_cons]
    by_cases c : (s.rgi.rings.get a).halted = false ∧ (s.rgi.rings.get a).service = none ∧
        Access.look a ∉ s.rgi.bus
    · simp [lookOne, hr, c, State.ring]
    · have c2 : ¬ (s.rgi.state = .running ∧ (s.rgi.rings.get a).halted = false ∧
          (s.rgi.rings.get a).service = none ∧ Access.look a ∉ s.rgi.bus) := fun h => c h.2
      have c3 : (!(s.ring a).halted && (s.ring a).service.isNone && decide (Access.look a ∉ s.rgi.bus)) = false := by
        cases h : (!(s.ring a).halted && (s.ring a).service.isNone && decide (Access.look a ∉ s.rgi.bus)) with
        | false => rfl
        | true => simp [State.ring] at h; exact absurd ⟨h.1.1, h.1.2, h.2⟩ c
      simp only [lookOne, if_neg c2, c3]; simp

/-- A change for the rings that a condition names is a change for each ring of the list of those. -/
theorem foldl_ite (p : Holder → Bool) (f : State → Holder → State) (l : List Holder) (s : State) :
   l.foldl (fun s r => if p r then f s r else s) s = (l.filter p).foldl f s := by
  induction l generalizing s with
  | nil => rfl
  | cons a l ih => 
    rw [List.foldl_cons, ih, List.filter_cons]
    cases p a <;> simp

/-- Whether the rings are quiet depends on their requests in service alone. -/
theorem quiet_eq (s : State) (g : Rgi) (h : ∀ r, (g.rings.get r).service = (s.rgi.rings.get r).service) :
    g.quiet = s.rgi.quiet := by
  have h0 := h .office
  have h1 := fun c => h (.counter c)
  simp only [Rgi.quiet, PerHolder.toList, PerCounter.toList]
  have a0 := h1 .c0; have a1 := h1 .c1; have a2 := h1 .c2; have a3 := h1 .c3
  have a4 := h1 .c4; have a5 := h1 .c5; have a6 := h1 .c6; have a7 := h1 .c7
  simp only [PerHolder.get, PerCounter.get] at *
  simp [h0, a0, a1, a2, a3, a4, a5, a6, a7]

end Sys2Proof.Machine
end

