-- ==== Sys2Proof/Laws/Table.lean ====
section
/-! SUPPORT. The meter table's form (R1): what each operation on ADIR keeps of `tableOk` and of `Adir.ok`. -/

namespace Sys2Proof.Machine

/-! ### The form of a table -/

/-- Slots rise strictly. -/
def rising (t : List (Nat × MeterRecord)) : Prop := t.Pairwise fun p q => p.1 < q.1

/-- In a table with rising slots a slot has one record. -/
theorem rising.unique {t : List (Nat × MeterRecord)} (h : rising t) {p q : Nat × MeterRecord} (hp : p ∈ t) (hq : q ∈ t)
    (e : p.1 = q.1) : p = q := by
  induction t with
  | nil => simp at hp
  | cons a l ih =>
    obtain ⟨h1, h2⟩ := List.pairwise_cons.mp h
    rcases List.mem_cons.mp hp with rfl | hp' <;> rcases List.mem_cons.mp hq with rfl | hq'
    · rfl
    · have := h1 q hq'; omega
    · have := h1 p hp'; omega
    · exact ih h2 hp' hq'

theorem rising.nodup {t : List (Nat × MeterRecord)} (h : rising t) : t.Nodup :=
  List.Pairwise.imp (fun {p q} hpq e => by rw [e] at hpq; exact Nat.lt_irrefl _ hpq) h

/-- The form of a table: rising slots below 16,384, and a meter number in one slot only. -/
theorem tableOk_iff (t : List (Nat × MeterRecord)) :
    tableOk t = true ↔ rising t ∧ (∀ p ∈ t, p.1 < slotCount) ∧
      ∀ p ∈ t, ∀ q ∈ t, p.2.number = q.2.number → p.1 = q.1 := by
  have hr : (t.map Prod.fst).Pairwise (· < ·) ↔ rising t := List.pairwise_map
  simp only [tableOk, Bool.and_eq_true, decide_eq_true_eq, List.all_eq_true, hr, and_assoc]
  refine and_congr_right fun h => and_congr_right fun _ => ?_
  rw [List.nodup_map_iff_inj_on h.nodup]
  exact ⟨fun g p hp q hq e => by rw [g p hp q hq e], fun g p hp q hq e => h.unique hp hq (g p hp q hq e)⟩

/-! ### Reading -/

/-- What a slot holds stands in the table. -/
theorem mem_of_tableGet {t : List (Nat × MeterRecord)} {slot : Nat} {r : MeterRecord} (h : tableGet t slot = some r) :
    (slot, r) ∈ t := by
  simp only [tableGet, Option.map_eq_some_iff] at h
  obtain ⟨p, hp, rfl⟩ := h
  have h1 := List.mem_of_find?_eq_some hp
  have h2 := List.find?_some hp
  simp only [decide_eq_true_eq] at h2
  rw [← h2]; exact h1

/-- What the map finds stands in the table, with the number looked for. -/
theorem mem_of_tableFind {t : List (Nat × MeterRecord)} {meter : Nat} {p : Nat × MeterRecord}
    (h : tableFind t meter = some p) : p ∈ t ∧ p.2.number = meter := by
  refine ⟨List.mem_of_find?_eq_some h, ?_⟩
  simpa using List.find?_some h

/-- What the map does not find is not there. -/
theorem not_mem_of_tableFind {t : List (Nat × MeterRecord)} {meter : Nat} (h : tableFind t meter = none) :
    ∀ p ∈ t, p.2.number ≠ meter := by
  intro p hp; simpa using List.find?_eq_none.mp h p hp

/-! ### Writing -/

/-- What a table holds after a record is put into a slot. -/
theorem mem_tableSet {t : List (Nat × MeterRecord)} (h : rising t) {slot : Nat} {r : MeterRecord}
    {p : Nat × MeterRecord} : p ∈ tableSet t slot r ↔ p = (slot, r) ∨ (p ∈ t ∧ p.1 ≠ slot) := by
  induction t with
  | nil => simp [tableSet]
  | cons a l ih =>
    obtain ⟨h1, h2⟩ := List.pairwise_cons.mp h
    have hl : ∀ q ∈ l, a.1 < q.1 := h1
    unfold tableSet
    split
    · rename_i hlt
      constructor
      · intro hp
        rcases List.mem_cons.mp hp with rfl | hp
        · exact Or.inl rfl
        · refine Or.inr ⟨hp, ?_⟩
          rcases List.mem_cons.mp hp with rfl | hp
          · omega
          · have := hl p hp; omega
      · rintro (rfl | ⟨hp, _⟩)
        · exact List.mem_cons_self
        · exact List.mem_cons_of_mem _ hp
    · split
      · rename_i hlt heq
        constructor
        · intro hp
          rcases List.mem_cons.mp hp with rfl | hp
          · exact Or.inl rfl
          · exact Or.inr ⟨List.mem_cons_of_mem _ hp, by have := hl p hp; omega⟩
        · rintro (rfl | ⟨hp, hne⟩)
          · exact List.mem_cons_self
          · rcases List.mem_cons.mp hp with rfl | hp
            · exact absurd heq.symm hne
            · exact List.mem_cons_of_mem _ hp
      · rename_i hlt hne
        rw [List.mem_cons, ih h2, List.mem_cons]
        constructor
        · rintro (rfl | rfl | ⟨hp, hq⟩)
          · exact Or.inr ⟨Or.inl rfl, fun e => hne e.symm⟩
          · exact Or.inl rfl
          · exact Or.inr ⟨Or.inr hp, hq⟩
        · rintro (rfl | ⟨rfl | hp, hq⟩)
          · exact Or.inr (Or.inl rfl)
          · exact Or.inl rfl
          · exact Or.inr (Or.inr ⟨hp, hq⟩)

theorem rising_tableSet {t : List (Nat × MeterRecord)} (h : rising t) (slot : Nat) (r : MeterRecord) :
    rising (tableSet t slot r) := by
  induction t with
  | nil => simp [tableSet, rising]
  | cons a l ih =>
    obtain ⟨h1, h2⟩ := List.pairwise_cons.mp h
    unfold tableSet
    split
    · rename_i hlt
      refine List.pairwise_cons.mpr ⟨fun q hq => ?_, h⟩
      rcases List.mem_cons.mp hq with rfl | hq
      · exact hlt
      · have := h1 q hq; exact Nat.lt_trans hlt this
    · split
      · rename_i heq
        exact List.pairwise_cons.mpr ⟨fun q hq => by have := h1 q hq; show slot < q.1; omega, h2⟩
      · rename_i hlt hne
        refine List.pairwise_cons.mpr ⟨fun q hq => ?_, ih h2⟩
        rcases (mem_tableSet h2).mp hq with rfl | ⟨hq, _⟩
        · show a.1 < slot; omega
        · exact h1 q hq

/-- Putting a record into a slot keeps the form if no other slot has its number. -/
theorem tableOk_tableSet {t : List (Nat × MeterRecord)} (h : tableOk t = true) {slot : Nat} {r : MeterRecord}
    (hs : slot < slotCount) (hn : ∀ p ∈ t, p.2.number = r.number → p.1 = slot) : tableOk (tableSet t slot r) = true := by
  obtain ⟨h1, h2, h3⟩ := (tableOk_iff t).mp h
  refine (tableOk_iff _).mpr ⟨rising_tableSet h1 slot r, ?_, ?_⟩
  · intro p hp
    rcases (mem_tableSet h1).mp hp with rfl | ⟨hp, _⟩
    · exact hs
    · exact h2 p hp
  · intro p hp q hq e
    rcases (mem_tableSet h1).mp hp with rfl | ⟨hp, _⟩ <;> rcases (mem_tableSet h1).mp hq with rfl | ⟨hq, _⟩
    · rfl
    · exact (hn q hq e.symm).symm
    · exact hn p hp e
    · exact h3 p hp q hq e

/-- A table whose entries are entries of another, but for what they hold beside the number, has the form with it. -/
theorem tableOk_mono {t u : List (Nat × MeterRecord)} (h : tableOk t = true) (hr : rising u)
    (hs : ∀ p ∈ u, ∃ q ∈ t, q.1 = p.1 ∧ q.2.number = p.2.number) : tableOk u = true := by
  obtain ⟨_, h2, h3⟩ := (tableOk_iff t).mp h
  refine (tableOk_iff u).mpr ⟨hr, ?_, ?_⟩
  · intro p hp
    obtain ⟨q, hq, e, _⟩ := hs p hp
    exact e ▸ h2 q hq
  · intro p hp q hq e
    obtain ⟨p', hp', e1, n1⟩ := hs p hp
    obtain ⟨q', hq', e2, n2⟩ := hs q hq
    rw [← e1, ← e2]; exact h3 p' hp' q' hq' (by rw [n1, n2, e])

theorem rising_tableDrop {t : List (Nat × MeterRecord)} (h : rising t) (slot : Nat) : rising (tableDrop t slot) :=
  List.Pairwise.filter _ h

theorem mem_tableDrop {t : List (Nat × MeterRecord)} {slot : Nat} {p : Nat × MeterRecord} :
    p ∈ tableDrop t slot ↔ p ∈ t ∧ p.1 ≠ slot := by simp [tableDrop]

theorem rising_clearHolds {t : List (Nat × MeterRecord)} (h : rising t) : rising (clearHolds t) := by
  unfold clearHolds rising
  rw [List.pairwise_map]
  exact List.Pairwise.filter _ h

theorem mem_clearHolds {t : List (Nat × MeterRecord)} {p : Nat × MeterRecord} (hp : p ∈ clearHolds t) :
    ∃ q ∈ t, q.1 = p.1 ∧ q.2.number = p.2.number := by
  simp only [clearHolds, List.mem_map, List.mem_filter] at hp
  obtain ⟨q, ⟨hq, _⟩, rfl⟩ := hp
  exact ⟨q, hq, rfl, rfl⟩

/-! ### Writes under way -/

/-- Fewer unsettled writes and no new numbers keep the part restorable. -/
theorem restorable_mono {a b : Adir} (h : a.restorable)
    (hw : ∀ w ∈ b.writes, w.settled = false → w ∈ a.writes)
    (ht : ∀ p ∈ b.table, ∃ q ∈ a.table, q.1 = p.1 ∧ q.2.number = p.2.number) : b.restorable := by
  intro w hwb hs
  obtain ⟨h1, h2, h3⟩ := h w (hw w hwb hs) hs
  refine ⟨h1, ?_, fun v hv hvs e => h3 v (hw v hv hvs) hvs e⟩
  intro p hp e
  obtain ⟨q, hq, e1, n1⟩ := ht p hp
  rw [← e1]; exact h2 q hq (n1.trans e)

/-- A table with the numbers of another and no new unsettled write is as good. -/
theorem adirOk_mono {a b : Adir} (h : a.ok) (hr : rising b.table)
    (hw : ∀ w ∈ b.writes, w.settled = false → w ∈ a.writes)
    (ht : ∀ p ∈ b.table, ∃ q ∈ a.table, q.1 = p.1 ∧ q.2.number = p.2.number)
    (hb : b.before = a.before := by rfl) : b.ok :=
  ⟨tableOk_mono h.1 hr ht, restorable_mono h.2.1 hw ht, hb ▸ h.2.2⟩

/-- With no write under way a table of the form is as good. -/
theorem adirOk_idle {a : Adir} (h : tableOk a.table = true) (hw : a.writes = [])
    (hb : ∀ t, a.before = some t → tableOk t = true) : a.ok :=
  ⟨h, fun _ hm => absurd (hw ▸ hm) List.not_mem_nil, hb⟩

theorem Adir.ok.rising {a : Adir} (h : a.ok) : rising a.table := ((tableOk_iff _).mp h.1).1

theorem same_numbers (t : List (Nat × MeterRecord)) :
    ∀ p ∈ t, ∃ q ∈ t, q.1 = p.1 ∧ q.2.number = p.2.number := fun p hp => ⟨p, hp, rfl, rfl⟩

/-- A record of the same number in its slot brings no new number. -/
theorem tableSet_numbers {t : List (Nat × MeterRecord)} (h : rising t) {slot : Nat} {r r' : MeterRecord}
    (hr : (slot, r) ∈ t) (hn : r'.number = r.number) :
    ∀ p ∈ tableSet t slot r', ∃ q ∈ t, q.1 = p.1 ∧ q.2.number = p.2.number := by
  intro p hp
  rcases (mem_tableSet h).mp hp with rfl | ⟨hp, _⟩
  · exact ⟨_, hr, rfl, hn.symm⟩
  · exact ⟨p, hp, rfl, rfl⟩

variable (s : State)

theorem settleSlot_adirOk (slot : Nat) (h : s.adir.ok) : (s.settleSlot slot).adir.ok := by
  refine adirOk_mono h h.rising ?_ (same_numbers _)
  intro w hw hs
  simp only [State.settleSlot, mapAdir_adir, List.mem_map] at hw
  obtain ⟨v, hv, rfl⟩ := hw
  split at hs
  · simp at hs
  · rename_i hn; simpa [hn] using hv

theorem settleMeter_adirOk (meter : Nat) (h : s.adir.ok) : (s.settleMeter meter).adir.ok := by
  refine adirOk_mono h h.rising ?_ (same_numbers _)
  intro w hw hs
  simp only [State.settleMeter, mapAdir_adir, List.mem_map] at hw
  obtain ⟨v, hv, rfl⟩ := hw
  split at hs
  · simp at hs
  · rename_i hn; simpa [hn] using hv

theorem settleRange_adirOk (lo hi : Nat) (h : s.adir.ok) : (s.settleRange lo hi).adir.ok := by
  refine adirOk_mono h h.rising ?_ (same_numbers _)
  intro w hw hs
  simp only [State.settleRange, mapAdir_adir, List.mem_map] at hw
  obtain ⟨v, hv, rfl⟩ := hw
  split at hs
  · simp at hs
  · rename_i hn; simpa [hn] using hv

theorem clearHold_adirOk (slot : Nat) (h : s.adir.ok) (hp : ∀ {r r' : MeterRecord}, (slot, r) ∈ s.adir.table →
    r'.number = r.number → (s.putRecord slot r').adir.ok) (hd : (s.dropRecord slot).adir.ok) :
    (s.clearHold slot).adir.ok := by
  unfold State.clearHold
  split
  · exact h
  · rename_i r hr
    split
    · exact hd
    · exact hp (mem_of_tableGet hr) rfl

theorem endWrite_adirOk (p : RecordWrite → Bool) (h : s.adir.ok) : (s.endWrite p).adir.ok :=
  adirOk_mono h h.rising (fun _ hw _ => List.mem_of_mem_eraseP hw) (same_numbers _)

/-- Writing a record of the number its slot holds keeps the table's form. -/
theorem putRecord_adirOk (slot : Nat) {r r' : MeterRecord} (hr : (slot, r) ∈ s.adir.table)
    (hn : r'.number = r.number) (h : s.adir.ok) : (s.putRecord slot r').adir.ok :=
  adirOk_mono h (rising_tableSet h.rising slot r') (fun _ hw _ => hw) (tableSet_numbers h.rising hr hn)

theorem dropRecord_adirOk (slot : Nat) (h : s.adir.ok) : (s.dropRecord slot).adir.ok :=
  adirOk_mono h (rising_tableDrop h.rising slot) (fun _ hw _ => hw)
    fun p hp => ⟨p, (mem_tableDrop.mp hp).1, rfl, rfl⟩

/-- Beginning a write of the record a slot holds keeps the part restorable. -/
theorem beginWrite_adirOk (k : RecordWriteKind) (holder : Holder) (slot : Nat) {r : MeterRecord}
    (hr : (slot, r) ∈ s.adir.table) (h : s.adir.ok) : (s.beginWrite k holder slot r).adir.ok := by
  obtain ⟨_, h2, h3⟩ := (tableOk_iff _).mp h.1
  refine ⟨h.1, ?_, h.2.2⟩
  intro w hw hs
  have hold : ∀ v ∈ s.adir.writes, v.settled = false → v.old.number = r.number → v.slot = slot := by
    intro v hv hvs e
    exact ((h.2.1 v hv hvs).2.1 (slot, r) hr e.symm).symm
  rcases List.mem_append.mp hw with hw | hw
  · obtain ⟨w1, w2, w3⟩ := h.2.1 w hw hs
    refine ⟨w1, w2, fun v hv hvs e => ?_⟩
    rcases List.mem_append.mp hv with hv | hv
    · exact w3 v hv hvs e
    · rw [List.mem_singleton.mp hv] at e ⊢
      exact (hold w hw hs e.symm).symm
  · rw [List.mem_singleton.mp hw]
    refine ⟨h2 _ hr, fun p hp e => h3 p hp _ hr e, fun v hv hvs e => ?_⟩
    rcases List.mem_append.mp hv with hv | hv
    · exact hold v hv hvs e
    · rw [List.mem_singleton.mp hv]

/-- Beginning a write and then writing a record of the same number: the order of the two does not matter to the form. -/
theorem put_begin_adirOk (k : RecordWriteKind) (holder : Holder) (slot : Nat) {r r' : MeterRecord}
    (hr : (slot, r) ∈ s.adir.table) (hn : r'.number = r.number) (h : s.adir.ok) :
    ((s.putRecord slot r').beginWrite k holder slot r).adir.ok :=
  putRecord_adirOk (s.beginWrite k holder slot r) slot (r := r) hr hn (beginWrite_adirOk s k holder slot hr h)

theorem drop_begin_adirOk (k : RecordWriteKind) (holder : Holder) (slot : Nat) {r : MeterRecord}
    (hr : (slot, r) ∈ s.adir.table) (h : s.adir.ok) : ((s.dropRecord slot).beginWrite k holder slot r).adir.ok :=
  dropRecord_adirOk (s.beginWrite k holder slot r) slot (beginWrite_adirOk s k holder slot hr h)

/-! ### What the claims write (R2) -/

@[simp] theorem settleSlot_table (n : Nat) : (s.settleSlot n).adir.table = s.adir.table := rfl
@[simp] theorem settleMeter_table (n : Nat) : (s.settleMeter n).adir.table = s.adir.table := rfl
@[simp] theorem endWrite_table (p : RecordWrite → Bool) : (s.endWrite p).adir.table = s.adir.table := rfl
@[simp] theorem beginWrite_table (k : RecordWriteKind) (h : Holder) (n : Nat) (r : MeterRecord) :
    (s.beginWrite k h n r).adir.table = s.adir.table := rfl

@[simp] theorem switchKey_number (r : MeterRecord) (g : Option Nat) : (r.switchKey g).number = r.number := by
  unfold MeterRecord.switchKey; (repeat' split) <;> rfl

@[simp] theorem commit_number (r : MeterRecord) (c : Counter) (i : Image) : (r.commit c i).number = r.number := by
  simp [MeterRecord.commit]

@[simp] theorem officeCommit_number (r : MeterRecord) (l : List Token) (g : Option Nat) :
    (r.officeCommit l g).number = r.number := by simp [MeterRecord.officeCommit]

theorem mem_of_record {slot : Nat} {r : MeterRecord} (h : s.record slot = some r) : (slot, r) ∈ s.adir.table :=
  mem_of_tableGet h

theorem applyRecordPart_adirOk (c : Counter) (i : Image) (h : s.adir.ok) : (s.applyRecordPart c i).adir.ok := by
  unfold State.applyRecordPart
  split
  · exact h
  · rename_i r hr
    split
    · exact h
    · exact putRecord_adirOk s _ (mem_of_record s hr) (commit_number r c i) h

theorem releaseHold_adirOk (holder : Holder) (h : s.adir.ok) : (s.releaseHold holder).adir.ok := by
  unfold State.releaseHold
  split
  · exact h
  · rename_i slot _
    split
    · exact h
    · rename_i r hr
      have hm : (slot, r) ∈ (s.settleSlot slot).adir.table := mem_of_record s hr
      have hk := settleSlot_adirOk s slot h
      dsimp only
      (repeat' split) <;> first
        | exact h
        | exact drop_begin_adirOk (s.settleSlot slot) _ _ slot hm hk
        | exact put_begin_adirOk (s.settleSlot slot) _ _ slot hm rfl hk

theorem refuseHeld_adirOk (holder : Holder) (y : Reply) (h : s.adir.ok) : (s.refuseHeld holder y).adir.ok := by
  unfold State.refuseHeld; rw [ctxReply_adir]; exact releaseHold_adirOk s holder h

theorem endStopped_adirOk (holder : Holder) (h : s.adir.ok) : (s.endStopped holder).adir.ok :=
  refuseHeld_adirOk s holder _ h

/-- A hold granted writes the record the map found. -/
theorem mem_of_granted {t : List (Nat × MeterRecord)} {h : Holder} {m slot : Nat} {r : MeterRecord}
    (hg : holdDecision t h m = .granted slot r) : (slot, r) ∈ t := by
  unfold holdDecision at hg
  split at hg
  · simp at hg
  · rename_i slot' r' hf
    (repeat' split at hg) <;> simp at hg
    obtain ⟨rfl, rfl⟩ := hg
    exact (mem_of_tableFind hf).1

theorem holdAnswered_adirOk (holder : Holder) (a : HoldAnswer) (h : s.adir.ok) : (s.holdAnswered holder a).adir.ok := by
  rw [holdAnswered_adir]; exact h

/-- Counting a waiting claim down, or adding one, leaves the table. -/
theorem waiting_adirOk {a : Adir} (l : List HoldWait) (h : a.ok) : ({ a with waiting := l } : Adir).ok := h

theorem answerWaiting_adirOk (m : Nat) (h : s.adir.ok) : (s.answerWaiting m).adir.ok := by
  rw [answerWaiting_adir]; exact waiting_adirOk _ h

theorem finishWrite_adirOk (p : RecordWrite → Bool) (w : RecordWrite) (h : s.adir.ok) : (s.finishWrite p w).adir.ok :=
  answerWaiting_adirOk _ _ (endWrite_adirOk s p h)

theorem holdClaim_adirOk (holder : Holder) (m : Nat) (h : s.adir.ok) : (s.holdClaim holder m).adir.ok := by
  unfold State.holdClaim; dsimp only
  split
  · rename_i slot r hg
    exact put_begin_adirOk s _ _ slot (mem_of_granted hg) rfl h
  · split
    · exact waiting_adirOk _ h
    · exact holdAnswered_adirOk s _ _ h

theorem recordPartClaim_adirOk (c : Counter) (h : s.adir.ok) : (s.recordPartClaim c).adir.ok := by
  unfold State.recordPartClaim
  split
  · exact h
  · rename_i i _
    split
    · exact h
    · rename_i r hr
      dsimp only
      split
      · exact settleSlot_adirOk s _ h
      · exact put_begin_adirOk (s.settleSlot i.sale.slot) _ _ _ (mem_of_record s hr) (commit_number r c i)
          (settleSlot_adirOk s _ h)

theorem digitsReturn_adirOk (holder : Holder) (t : Token) (h : s.adir.ok) : (s.digitsReturn holder t).adir.ok := by
  unfold State.digitsReturn; dsimp only
  split
  · split
    · exact h
    · split
      · exact h
      · split
        · exact h
        · rename_i slot _
          split
          · exact h
          · rename_i r hr
            split
            · exact put_begin_adirOk (s.settleSlot slot) _ _ slot (mem_of_record s hr) (officeCommit_number ..)
                (settleSlot_adirOk s slot h)
            · exact h
  · exact h

/-! ### Contexts and FLU -/

theorem submit_adirOk (holder : Holder) (m : Nat) (p : List PlannedToken) (l : List Nat) (h : s.adir.ok) :
    (s.submit holder m p l).adir.ok := by
  unfold State.submit
  split
  · rw [queueJobs_adir]; exact h
  · split
    · exact h
    · exact refuseHeld_adirOk s _ _ h

theorem priceAndReserve_adirOk (c : Counter) (q : CtxRequest) (v : RecordView) (h : s.adir.ok) :
    (s.priceAndReserve c q v).adir.ok := by
  unfold State.priceAndReserve; dsimp only
  (repeat' split) <;> first | exact refuseHeld_adirOk s _ _ h | exact h

theorem issueOffice_adirOk (q : CtxRequest) (v : RecordView) (h : s.adir.ok) : (s.issueOffice q v).adir.ok := by
  unfold State.issueOffice
  (repeat' split) <;> first | exact refuseHeld_adirOk s _ _ h | exact submit_adirOk (s.mapCtx _ _) _ _ _ _ h

theorem proceed_adirOk (holder : Holder) (h : s.adir.ok) : (s.proceed holder).adir.ok := by
  unfold State.proceed
  (repeat' split) <;> first | exact priceAndReserve_adirOk s _ _ _ h | exact issueOffice_adirOk s _ _ h | exact h

theorem resume_adirOk (holder : Holder) (h : s.adir.ok) : (s.resume holder).adir.ok := by
  have hc : ∀ q, (s.checked holder q).adir.ok := by intro q; rw [checked_adir]; exact h
  unfold State.resume
  split
  · split
    · exact endStopped_adirOk s _ h
    · split
      · exact refuseHeld_adirOk _ _ _ (hc _)
      · split
        · exact refuseHeld_adirOk _ _ _ (hc _)
        · exact proceed_adirOk _ _ (hc _)
  · exact h

theorem takeInCtx_adirOk (holder : Holder) (q : CtxRequest) (a b : Bool) (h : s.adir.ok) :
    (s.takeInCtx holder q a b).adir.ok := by
  have he : ((s.idleSeen holder).enterCtx holder q a).adir.ok := by simpa using h
  have hc : (((s.idleSeen holder).enterCtx holder q a).checked holder q).adir.ok := by rw [checked_adir]; exact he
  unfold State.takeInCtx; dsimp only
  split
  · rw [ctxReply_adir]; exact he
  · split
    · rw [ctxReply_adir]; exact hc
    · exact holdClaim_adirOk _ _ _ hc

theorem serveInCtx_adirOk (k : ReqKind) (holder : Holder) (f : Request → CtxRequest × Bool) (h : s.adir.ok) :
    (s.serveInCtx k holder f).adir.ok := by
  unfold State.serveInCtx; dsimp only
  (repeat' split) <;> first
    | exact h
    | (refine takeInCtx_adirOk _ _ _ _ _ ?_; rw [taken_adir]; exact h)
    | (rw [answerRequest_adir, taken_adir]; exact h)

theorem endSale_adirOk (c : Counter) (h : s.adir.ok) : (s.endSale c).adir.ok := by
  have hk := releaseHold_adirOk s (.counter c) h
  unfold State.endSale; dsimp only
  rw [ctxReply_adir]
  split <;> exact hk

theorem windBack_adirOk (holder : Holder) (m : StopMark) (h : s.adir.ok) : (s.windBack holder m).adir.ok := by
  unfold State.windBack; dsimp only
  (repeat' split) <;> first | exact h | exact endStopped_adirOk (((s.mapCtx _ _).mapTke _).mapCtx _ _) _ h

theorem cancelCtx_adirOk (holder : Holder) (h : s.adir.ok) : (s.cancelCtx holder).adir.ok := by
  unfold State.cancelCtx
  split
  · exact h
  · rw [ctxReply_adir]; exact h
  · exact windBack_adirOk s _ _ h
  · exact h

theorem engineNotice_adirOk (holder : Holder) (h : s.adir.ok) : (State.engineNotice holder s).adir.ok := by
  unfold State.engineNotice
  split
  · exact windBack_adirOk s _ _ h
  · exact h

theorem abandonOffice_adirOk (w : CtxState) (h : s.adir.ok) : (s.abandonOffice w).adir.ok := by
  unfold State.abandonOffice
  split <;> first | exact h | exact cancelCtx_adirOk s _ h

theorem abandon_adirOk (holder : Holder) (w : CtxState) (h : s.adir.ok) : (s.abandon holder w).adir.ok := by
  unfold State.abandon
  (repeat' split) <;> first | exact h | exact cancelCtx_adirOk s _ h | exact abandonOffice_adirOk s w h

theorem takeFloat_adirOk (k : FloatClaim) (h : s.adir.ok) : (s.takeFloat k).adir.ok := by
  cases k <;> simp only [State.takeFloat]
  · split
    · exact h
    · split
      · exact endStopped_adirOk s _ h
      · exact refuseHeld_adirOk s _ _ h
  · split
    · exact h
    · rw [stopTooLate_adir]; exact h
    · exact endStopped_adirOk s _ h
  all_goals (repeat' split) <;> simpa using h

theorem drainFloat_adirOk (n : Nat) (h : s.adir.ok) : (drainFloat n s).adir.ok := by
  induction n generalizing s with
  | zero => exact h
  | succ n ih =>
    unfold drainFloat
    split
    · exact ih _ (takeFloat_adirOk (s.mapFlu _) _ h)
    · exact h

theorem pumpFloat_adirOk (h : s.adir.ok) : s.pumpFloat.adir.ok := by
  obtain ⟨n, m, e⟩ := pumpFloat_spec s; rw [e]; exact drainFloat_adirOk s _ h

/-! ### Sweeps, power cuts and recovery -/

theorem claimMeter_adirOk (m : Nat) (h : s.adir.ok) : (s.claimMeter m).adir.ok := by
  rw [claimMeter_adir]; exact waiting_adirOk _ (settleMeter_adirOk s m h)

theorem claimRange_adirOk (a b : Nat) (h : s.adir.ok) : (s.claimRange a b).adir.ok := by
  rw [claimRange_adir]; exact waiting_adirOk _ (settleRange_adirOk s a b h)

theorem beginPage_adirOk (h : s.adir.ok) : s.beginPage.adir.ok := claimRange_adirOk s _ _ h

/-- A power cut that leaves an unfinished write's old content keeps the table's form. -/
theorem cutWrite_adirOk (w : RecordWrite) (hw : w ∈ s.adir.writes) (h : s.adir.ok) :
    (s.cutWrite w).adir.ok ∧ (s.cutWrite w).adir.writes = s.adir.writes := by
  unfold State.cutWrite
  split
  · exact ⟨h, rfl⟩
  · rename_i hs
    have hs : w.settled = false := by simpa using hs
    split
    · refine ⟨?_, rfl⟩
      obtain ⟨w1, w2, w3⟩ := h.2.1 w hw hs
      refine ⟨tableOk_tableSet h.1 w1 w2, ?_, h.2.2⟩
      intro v hv hvs
      obtain ⟨v1, v2, v3⟩ := h.2.1 v hv hvs
      refine ⟨v1, ?_, v3⟩
      intro p hp e
      rcases (mem_tableSet h.rising).mp hp with rfl | ⟨hp, _⟩
      · exact v3 w hw hs e
      · exact v2 p hp e
    · exact ⟨h, rfl⟩

theorem cutWrites_adirOk (h : s.adir.ok) : s.cutWrites.adir.ok ∧ s.cutWrites.adir.writes = [] := by
  have : ∀ (l : List RecordWrite) (t : State), (∀ w ∈ l, w ∈ t.adir.writes) → t.adir.ok →
      (l.foldl State.cutWrite t).adir.ok := by
    intro l
    induction l with
    | nil => exact fun t _ ht => ht
    | cons a l ih =>
      intro t hl ht
      obtain ⟨h1, h2⟩ := cutWrite_adirOk t a (hl a List.mem_cons_self) ht
      exact ih _ (fun w hw => by rw [h2]; exact hl w (List.mem_cons_of_mem _ hw)) h1
  have hk := this s.adir.writes.reverse s (fun w hw => List.mem_reverse.mp hw) h
  exact ⟨adirOk_mono hk hk.rising (fun _ hw => absurd hw List.not_mem_nil) (same_numbers _), rfl⟩

/-- ADIR's table has its form and no write is under way. -/
def State.tableIdle (s : State) : Prop := s.adir.ok ∧ s.adir.writes = []

theorem putRecord_tableIdle (slot : Nat) {r r' : MeterRecord} (hr : (slot, r) ∈ s.adir.table)
    (hn : r'.number = r.number) (h : s.tableIdle) : (s.putRecord slot r').tableIdle :=
  ⟨putRecord_adirOk s slot hr hn h.1, h.2⟩

/-- A claim of the recovery pass keeps the table's form. -/
theorem passClaim_tableIdle (c : Counter) (k : PassClaim) (h : s.tableIdle) : (s.passClaim c k).tableIdle := by
  unfold State.passClaim
  split <;> try exact h
  · unfold State.tableIdle; rw [storeOutcome_adir]; exact h
  · unfold State.applyRecordPart
    split
    · exact h
    · rename_i r hr
      split
      · exact h
      · exact putRecord_tableIdle s _ (mem_of_record s hr) (commit_number ..) h
  · unfold State.tableIdle; rw [recoverFloat_adir]; exact h
  · unfold State.tableIdle; rw [recoverTill_adir]; exact h
  · unfold State.tableIdle; rw [storeOutcome_adir]; exact h

/-- The end of the pass on one slot keeps the table's form (R14). -/
theorem clearHold_tableIdle (slot : Nat) (h : s.tableIdle) : (s.clearHold slot).tableIdle := by
  refine ⟨clearHold_adirOk s slot h.1 (fun hr hn => putRecord_adirOk s slot hr hn h.1) (dropRecord_adirOk s slot h.1),
    ?_⟩
  unfold State.clearHold
  (repeat' split) <;> exact h.2

/-- A cut in the recovery pass keeps the table's form (R70). -/
theorem cutPass_tableIdle (h : s.tableIdle) : s.cutPass.tableIdle := by
  have hu : s.unpass.tableIdle := by
    refine ⟨adirOk_idle ?_ h.2 h.1.2.2, h.2⟩
    rcases hb : s.adir.before with _ | t
    · simpa [State.unpass, hb] using h.1.1
    · simpa [State.unpass, hb] using h.1.2.2 t hb
  have hh : ∀ t : State, t.tableIdle → t.cutHolds.tableIdle := by
    intro t ht
    unfold State.cutHolds
    generalize t.adir.table = l
    induction l generalizing t with
    | nil => exact ht
    | cons p l ih =>
      refine ih _ ?_
      dsimp only
      split
      · exact clearHold_tableIdle t.drawn _ ht
      · exact ht
  have hc : ∀ (l : List (Counter × PassClaim)) (t : State), t.tableIdle → (cutClaims l t).tableIdle := by
    intro l
    induction l with
    | nil => exact hh
    | cons p l ih =>
      intro t ht
      unfold cutClaims
      split
      · exact ih _ (passClaim_tableIdle t.drawn _ _ ht)
      · exact ht
  have he : ∀ t : State, t.tableIdle → t.endPass.tableIdle := fun t ht =>
    ⟨adirOk_idle ht.1.1 ht.2 (fun b hb => by cases hb), ht.2⟩
  unfold State.cutPass
  split
  · exact he _ (hc _ _ hu)
  · exact he _ h

/-- The recovery pass and its end keep the table's form (R14). -/
theorem clearHolds_adirOk (h : s.adir.ok) :
    (s.mapAdir fun a => { a with table := clearHolds a.table }).adir.ok :=
  adirOk_mono h (rising_clearHolds h.rising) (fun _ hw _ => hw) fun _ hp => mem_clearHolds hp

/-! ### The decisions that write a record -/

/-- A decision that writes the record the map found, with its number, keeps the table's form. -/
theorem putDecided_adirOk (d : Option (Nat × MeterRecord))
    (hd : ∀ slot r', d = some (slot, r') → ∃ r, (slot, r) ∈ s.adir.table ∧ r'.number = r.number) (h : s.adir.ok) :
    (s.putDecided d).adir.ok := by
  unfold State.putDecided
  split
  · exact h
  · obtain ⟨r, hr, hn⟩ := hd _ _ rfl
    exact putRecord_adirOk s _ hr hn h

end Sys2Proof.Machine
end

