-- ==== Sys2Proof/Laws/Meanings.lean ====
section
/-! SUPPORT. How a meaning answers, what serving a request leaves, and what the utility's decisions and a cut keep of the
invariants. -/

set_option linter.unusedTactic false
set_option linter.unreachableTactic false
set_option linter.unusedSimpArgs false

namespace Sys2Proof.Machine

/-! ### How a meaning answers -/

/-- What a live part's event leaves: its effect, or the part as it was. -/
theorem whenLive_next {P : State → Prop} {f : State → State} {s t : State} (h : whenLive f s = .next t) (hs : P s)
    (hf : s.live = true → P (f s)) : P t := by
  unfold whenLive at h; cases h; split
  · exact hf (by assumption)
  · exact hs

/-- What an event of the part in service leaves: its effect, or the part as it was. -/
theorem whenInService_next {P : State → Prop} {f : State → State} {s t : State} (h : whenInService f s = .next t)
    (hs : P s) (hf : s.inService = true → P (f s)) : P t := by
  unfold whenInService at h; cases h; split
  · exact hf (by assumption)
  · exact hs

/-- What holds of the state after a change for every holder. -/
theorem forHolders_keeps {P : State → Prop} (f : Holder → State → State) (hf : ∀ h t, P t → P (f h t)) (s : State)
    (h : P s) : P (forHolders f s) := by
  unfold forHolders
  induction Holder.all generalizing s with
  | nil => exact h
  | cons a l ih => exact ih _ (hf a s h)

/-- What holds of the state after a change for every counter. -/
theorem forCounters_keeps {P : State → Prop} (f : Counter → State → State) (hf : ∀ h t, P t → P (f h t)) (s : State)
    (h : P s) : P (forCounters f s) := by
  unfold forCounters
  induction Counter.all generalizing s with
  | nil => exact h
  | cons a l ih => exact ih _ (hf a s h)

/-! ### Serving a request -/

/-- Serving a request leaves `adir` if the owner's part does. -/
theorem serve_adir (s : State) (k : ReqKind) (r : Holder) (f : Request → State → State × ReplyOwner × Reply)
    (hf : ∀ q t, (f q t).1.adir = t.adir) : (s.serve k r f).adir = s.adir := by
  unfold State.serve; split
  · rfl
  · dsimp only; rw [answerRequest_adir, hf, taken_adir]

/-- Serving a request leaves `tfu` if the owner's part does. -/
theorem serve_tfu (s : State) (k : ReqKind) (r : Holder) (f : Request → State → State × ReplyOwner × Reply)
    (hf : ∀ q t, (f q t).1.tfu = t.tfu) : (s.serve k r f).tfu = s.tfu := by
  unfold State.serve; split
  · rfl
  · dsimp only; rw [answerRequest_tfu, hf, taken_tfu]

/-- Serving a request leaves `flu` if the owner's part does. -/
theorem serve_flu (s : State) (k : ReqKind) (r : Holder) (f : Request → State → State × ReplyOwner × Reply)
    (hf : ∀ q t, (f q t).1.flu = t.flu) : (s.serve k r f).flu = s.flu := by
  unfold State.serve; split
  · rfl
  · dsimp only; rw [answerRequest_flu, hf, taken_flu]

/-- Serving a request leaves `tke` if the owner's part does. -/
theorem serve_tke (s : State) (k : ReqKind) (r : Holder) (f : Request → State → State × ReplyOwner × Reply)
    (hf : ∀ q t, (f q t).1.tke = t.tke) : (s.serve k r f).tke = s.tke := by
  unfold State.serve; split
  · rfl
  · dsimp only; rw [answerRequest_tke, hf, taken_tke]

/-- Serving a request leaves `ulc` if the owner's part does. -/
theorem serve_ulc (s : State) (k : ReqKind) (r : Holder) (f : Request → State → State × ReplyOwner × Reply)
    (hf : ∀ q t, (f q t).1.ulc = t.ulc) : (s.serve k r f).ulc = s.ulc := by
  unfold State.serve; split
  · rfl
  · dsimp only; rw [answerRequest_ulc, hf, taken_ulc]

/-- Serving a request leaves `pending` if the owner's part does. -/
theorem serve_pending (s : State) (k : ReqKind) (r : Holder) (f : Request → State → State × ReplyOwner × Reply)
    (hf : ∀ q t, (f q t).1.pending = t.pending) : (s.serve k r f).pending = s.pending := by
  unfold State.serve; split
  · rfl
  · dsimp only; rw [answerRequest_pending, hf, taken_pending]

/-! ### Decisions and cuts -/

/-- What a rising list holds after a number is put into it. -/
theorem mem_insertRising (n m : Nat) (l : List Nat) : m ∈ insertRising n l ↔ m = n ∨ m ∈ l := by
  induction l with
  | nil => simp [insertRising]
  | cons a l ih =>
    unfold insertRising
    split
    · simp
    · split
      · subst_vars; simp
      · simp [ih]; tauto

/-- A slot that holds a record is occupied. -/
theorem mem_occupied (a : Adir) (n : Nat) (h : n ∈ a.table.map Prod.fst) : n ∈ a.occupied := by
  unfold Adir.occupied
  have : ∀ (l m : List Nat), n ∈ m → n ∈ l.foldl (fun l n => insertRising n l) m := by
    intro l; induction l with
    | nil => exact fun m h => h
    | cons b l ih => exact fun m h => ih _ ((mem_insertRising _ _ _).mpr (Or.inr h))
  exact this _ _ h

/-- The lowest number not in a rising list is not in it. -/
theorem lowestNotIn_not_mem (l : List Nat) : ∀ n, l.Pairwise (· < ·) → (∀ m ∈ l, n ≤ m) → lowestNotIn n l ∉ l := by
  induction l with
  | nil => simp
  | cons a l ih =>
    intro n hp hn
    obtain ⟨h1, h2⟩ := List.pairwise_cons.mp hp
    unfold lowestNotIn
    split
    · rename_i e
      subst e
      have := ih (a+1) h2 (fun m hm => h1 m hm)
      intro hmem
      rcases List.mem_cons.mp hmem with h | h
      · have : ∀ (l : List Nat) n, n ≤ lowestNotIn n l := by
          intro l; induction l with
          | nil => intro n; exact Nat.le_refl _
          | cons b l ih => intro n; unfold lowestNotIn; split
                           · exact Nat.le_trans (Nat.le_succ n) (ih (n+1))
                           · exact Nat.le_refl _
        have := this l (a+1); omega
      · exact this h
    · rename_i hne
      intro hmem
      rcases List.mem_cons.mp hmem with h | h
      · exact hne h.symm
      · have := h1 n h; have := hn a List.mem_cons_self; omega

/-- The occupied slots rise strictly. -/
theorem occupied_rising (a : Adir) (h : rising a.table) : a.occupied.Pairwise (· < ·) := by
  unfold Adir.occupied
  have ins : ∀ n (l : List Nat), l.Pairwise (· < ·) → (insertRising n l).Pairwise (· < ·) := by
    intro n l; induction l with
    | nil => simp [insertRising]
    | cons b l ih =>
      intro hp
      obtain ⟨h1, h2⟩ := List.pairwise_cons.mp hp
      unfold insertRising
      split
      · refine List.pairwise_cons.mpr ⟨?_, hp⟩
        intro m hm; rcases List.mem_cons.mp hm with rfl | hm
        · assumption
        · have := h1 m hm; omega
      · split
        · exact List.pairwise_cons.mpr ⟨fun m hm => by have := h1 m hm; omega, h2⟩
        · refine List.pairwise_cons.mpr ⟨fun m hm => ?_, ih h2⟩
          rcases (mem_insertRising _ _ _).mp hm with rfl | hm
          · omega
          · exact h1 m hm
  have : ∀ (l m : List Nat), m.Pairwise (· < ·) → (l.foldl (fun l n => insertRising n l) m).Pairwise (· < ·) := by
    intro l; induction l with
    | nil => exact fun m h => h
    | cons b l ih => exact fun m h => ih _ (ins _ _ h)
  exact this _ _ (List.pairwise_map.mpr h)

/-- ENROL keeps the table's form (R19, R20). -/
theorem enrol_adirOk (s : State) (i : LineInstr) (m : Nat) (h : s.adir.ok) :
    (((s.claimMeter (i.field 0 5)).putDecided (enrolDecision (s.claimMeter (i.field 0 5)).adir i m).2)).adir.ok := by
  have hk := claimMeter_adirOk s (i.field 0 5) h
  unfold enrolDecision
  cases hr : enrolRecord i m with
  | none => exact hk
  | some r =>
    have hnum : r.number = i.field 0 5 := by
      unfold enrolRecord at hr
      dsimp only at hr
      (repeat' split at hr) <;> simp at hr <;> rw [← hr]
    dsimp only
    split
    · exact hk
    · rename_i hf
      split
      · exact hk
      · rename_i hs
        have hnone : tableFind (s.claimMeter (i.field 0 5)).adir.table r.number = none := by simpa using hf
        have hfree := not_mem_of_tableFind hnone
        refine ⟨tableOk_tableSet hk.1 (by omega) (fun p hp e => absurd e (hfree p hp)), ?_, hk.2.2⟩
        intro w hw hws
        obtain ⟨w1, w2, w3⟩ := hk.2.1 w hw hws
        refine ⟨w1, ?_, w3⟩
        intro p hp e
        rcases (mem_tableSet hk.rising).mp hp with rfl | ⟨hp, _⟩
        · exfalso
          change w ∈ (s.claimMeter (i.field 0 5)).adir.writes at hw
          simp only [claimMeter_adir, State.settleMeter, mapAdir_adir, List.mem_map] at hw
          obtain ⟨v, hv, rfl⟩ := hw
          dsimp only at e
          split at hws
          · simp at hws
          · rename_i hne; simp [hne] at e; exact hne (by rw [← e, hnum])
        · exact w2 p hp e

/-- AMEND keeps the table's form (R21). -/
theorem amend_adirOk (s : State) (i : LineInstr) (h : s.adir.ok) :
    (((s.claimMeter (i.field 0 5)).putDecided (amendDecision (s.claimMeter (i.field 0 5)).adir.table i).2)).adir.ok := by
  refine putDecided_adirOk _ _ ?_ (claimMeter_adirOk s _ h)
  intro slot r' hd
  unfold amendDecision at hd; dsimp only at hd
  split at hd
  · simp at hd
  · rename_i ch hch
    split at hd
    · simp at hd
    · rename_i slot' r hf
      split at hd
      · simp at hd
      · simp at hd
        obtain ⟨rfl, rfl⟩ := hd
        refine ⟨r, (mem_of_tableFind hf).1, ?_⟩
        unfold amendChanges at hch; dsimp only at hch
        split at hch
        · simp at hch; subst hch; rfl
        · simp at hch

/-- KEYROLL keeps the table's form (R124). -/
theorem keyroll_adirOk (s : State) (i : LineInstr) (h : s.adir.ok) :
    (((s.claimMeter (i.field 0 5)).putDecided (keyrollDecision (s.claimMeter (i.field 0 5)).adir.table i).2)).adir.ok := by
  refine putDecided_adirOk _ _ ?_ (claimMeter_adirOk s _ h)
  intro slot r' hd
  unfold keyrollDecision at hd; dsimp only at hd
  (repeat' split at hd) <;> simp at hd
  rename_i slot' r hf _ _ _ _
  obtain ⟨rfl, rfl⟩ := hd
  exact ⟨r, (mem_of_tableFind hf).1, rfl⟩

/-- A RETIRE keeps the table's form (R23, R24). -/
theorem retireParked_adirOk (s : State) (slot : Nat) (h : s.adir.ok) : (s.retireParked slot).adir.ok := by
  unfold State.retireParked
  generalize List.filter _ s.vnc.park = l
  have : ∀ (l : List ParkEntry) (t : State),
      (l.foldl (fun s e => (s.unpark e.holder).ctxReply e.holder (Reply.plain .meterRetired)) t).adir = t.adir := by
    intro l
    induction l with
    | nil => exact fun _ => rfl
    | cons e l ih => intro t; rw [List.foldl_cons, ih]; simp
  rw [this]
  exact h

/-! ### Cuts (R204) -/

/-- A choice among points changes the clock, TFU's records and the count of free values alone. -/
theorem cutThrough_spec (l : List TfuPoint) (s : State) :
    cutThrough l s =
      { s with tke := (cutThrough l s).tke, tfu := (cutThrough l s).tfu, draws := (cutThrough l s).draws } := by
  induction l generalizing s with
  | nil => rfl
  | cons x l ih =>
    unfold cutThrough; dsimp only
    split
    · rfl
    · exact ih (s.drawn.putPoint x)

/-- A cut of TFU's writes changes the clock, TFU and the count of free values alone. -/
theorem cutTfu_spec (s : State) :
    s.cutTfu = { s with tke := s.cutTfu.tke, tfu := s.cutTfu.tfu, draws := s.cutTfu.draws } := cutThrough_spec _ _

/-- A choice among points leaves one of them, or what stood. -/
theorem cutThrough_point (l : List TfuPoint) (s : State) : (cutThrough l s).point ∈ s.point :: l := by
  induction l generalizing s with
  | nil => exact List.mem_cons_self
  | cons x l ih =>
    unfold cutThrough; dsimp only
    split
    · exact List.mem_cons_of_mem _ List.mem_cons_self
    · rcases List.mem_cons.mp (ih (s.drawn.putPoint x)) with h | h
      · rw [h]; exact List.mem_cons_of_mem _ List.mem_cons_self
      · exact List.mem_cons_of_mem _ (List.mem_cons_of_mem _ h)

/-- A power cut leaves the clock and TFU's records at one of the cut points (R204; log entry 6). -/
theorem cutTfu_point (s : State) : s.cutTfu.point ∈ s.cutPoints := by
  rcases List.mem_cons.mp (cutThrough_point s.cutPoints s) with h | h
  · rw [State.cutTfu, h]; simp [State.cutPoints]
  · exact h

/-- A choice among points leaves the count of minutes since up, the engine and its queue. -/
theorem cutThrough_tke (l : List TfuPoint) (s : State) :
    (cutThrough l s).tke =
      { s.tke with clockValid := (cutThrough l s).tke.clockValid, minute := (cutThrough l s).tke.minute } := by
  induction l generalizing s with
  | nil => rfl
  | cons x l ih =>
    unfold cutThrough; dsimp only
    split
    · rfl
    · exact ih (s.drawn.putPoint x)

/-- Every point of a row that sets the clock to a minute has the clock valid at that minute. -/
theorem mem_clockPoints {s : State} {m : Nat} {x : TfuPoint} (h : x ∈ s.clockPoints m) :
    x.clockValid = true ∧ x.minute = m := by
  unfold State.clockPoints at h; dsimp only at h
  split at h
  · simp at h
  · simp only [List.mem_cons, List.not_mem_nil, or_false] at h
    rcases h with rfl | rfl | rfl <;> simp [State.point, Tke.setTo]

/-- Every cut point of a state whose clock is in range has the clock in range (R87). -/
theorem mem_cutPoints_clock {s : State} {x : TfuPoint} (h : x ∈ s.cutPoints) (k : s.tke.clockOk) :
    x.minute ≤ maxMinute ∧ (x.clockValid = false → x.minute = 0) := by
  have moved : ∀ {m : Nat}, m ≤ maxMinute → x ∈ s.clockPoints m →
      x.minute ≤ maxMinute ∧ (x.clockValid = false → x.minute = 0) := by
    intro m hm hx
    obtain ⟨hv, h2⟩ := mem_clockPoints hx
    exact ⟨h2 ▸ hm, by simp [hv]⟩
  have same : x.minute = s.tke.minute → x.clockValid = s.tke.clockValid →
      x.minute ≤ maxMinute ∧ (x.clockValid = false → x.minute = 0) := by
    intro h1 h2; rw [h1, h2]; exact ⟨k.1, k.2.2⟩
  simp only [State.cutPoints, List.cons_append, List.mem_cons, List.mem_append, List.mem_map] at h
  rcases h with rfl | ((⟨y, -, rfl⟩ | h) | h) | h
  · exact same rfl rfl
  · exact same rfl rfl
  · unfold State.advancePoints at h
    split at h
    · rename_i hc; simp at hc; exact moved (by omega) h
    · simp at h
  · unfold State.clockSetPoints at h
    split at h
    · dsimp only at h
      split at h
      · rename_i hc; simp at hc; exact moved hc.2 h
      · simp at h
    · simp at h
  · unfold State.instructionPoints at h
    split at h
    · repeat' split at h
      · simp at h
      · simp only [List.mem_map] at h
        obtain ⟨y, -, rfl⟩ := h; exact same rfl rfl
      · simp only [List.mem_cons, List.not_mem_nil, or_false] at h
        rcases h with rfl | rfl <;> exact same (by simp [State.point]) (by simp [State.point])
      · simp only [List.mem_cons, List.not_mem_nil, or_false] at h
        rcases h with rfl | rfl <;> exact same (by simp [State.point]) (by simp [State.point])
      · rename_i hc; exact moved hc.2 h
      · simp at h
    · simp at h

/-- A power cut leaves the clock in range (R87, R204). -/
theorem cutTfu_clockOk (s : State) (k : s.tke.clockOk) : s.cutTfu.tke.clockOk := by
  have h := mem_cutPoints_clock (cutTfu_point s) k
  refine ⟨h.1, ?_, h.2⟩
  rw [State.cutTfu, cutThrough_tke]
  exact k.2.1

/-- Two states whose clock and whose TFU are the same. -/
def sameClockTfu (s t : State) : Prop :=
  t.tke.clockValid = s.tke.clockValid ∧ t.tke.minute = s.tke.minute ∧ t.tfu = s.tfu

theorem sameClockTfu.point {s t : State} (h : sameClockTfu s t) : t.point = s.point := by
  obtain ⟨hv, hm, hf⟩ := h; simp [State.point, hv, hm, hf]

theorem sameClockTfu.mapTfu {s t : State} (h : sameClockTfu s t) (f : Tfu → Tfu) :
    sameClockTfu (s.mapTfu f) (t.mapTfu f) := by
  obtain ⟨hv, hm, hf⟩ := h; exact ⟨hv, hm, by simp [hf]⟩

theorem sameClockTfu.setTo {s t : State} (h : sameClockTfu s t) (m : Nat) :
    sameClockTfu (s.mapTke fun k => k.setTo m) (t.mapTke fun k => k.setTo m) := ⟨rfl, rfl, h.2.2⟩

theorem sameClockTfu.applyLook {s t : State} (h : sameClockTfu s t) : sameClockTfu s.applyLook t.applyLook := by
  obtain ⟨hv, hm, hf⟩ := h
  have hd : t.applyDue = s.applyDue := by unfold State.applyDue; rw [hv, hm, hf]
  refine ⟨by simpa using hv, by simpa using hm, ?_⟩
  unfold State.applyLook
  rw [hd]; split <;> simp [hf]

theorem sameClockTfu.rolloverLook {s t : State} (h : sameClockTfu s t) :
    sameClockTfu s.rolloverLook t.rolloverLook := by
  obtain ⟨hv, hm, hf⟩ := h
  refine ⟨by simpa using hv, by simpa using hm, ?_⟩
  unfold State.rolloverLook
  rw [hv, hm]; split <;> simp [hf]

theorem sameClockTfu.clockPoints {s t : State} (h : sameClockTfu s t) (m : Nat) : t.clockPoints m = s.clockPoints m := by
  have h1 := h.setTo m
  unfold State.clockPoints
  simp only [h1.point, h1.applyLook.point, h1.applyLook.rolloverLook.point, h1.applyLook.rolloverLook.2.2, h.2.2]

/-- The cut points depend on the start phase, the clock, TFU, ULC and the interface alone. -/
theorem sameClockTfu.cutPoints {s t : State} (h : sameClockTfu s t) (ha : t.atc = s.atc) (hu : t.ulc = s.ulc)
    (hr : t.rgi = s.rgi) : t.cutPoints = s.cutPoints := by
  obtain ⟨hv, hm, hf⟩ := id h
  have hl : t.live = s.live := by simp [State.live, ha]
  have hi : t.inService = s.inService := by simp [State.inService, ha]
  have h1 : t.advancePoints = s.advancePoints := by simp [State.advancePoints, hl, hv, hm, h.clockPoints]
  have h2 : t.clockSetPoints = s.clockSetPoints := by
    have : t.waiting .clockSet .office = s.waiting .clockSet .office := by simp [State.waiting, State.ring, hr]
    simp only [State.clockSetPoints, this, hi, hv, h.clockPoints]
  have h3 : t.instructionPoints = s.instructionPoints := by
    unfold State.instructionPoints
    rw [hu, hi]
    split
    · simp only [hf, h.clockPoints, h.point, (h.mapTfu _).point, (h.mapTfu _).applyLook.point,
        (h.mapTfu _).rolloverLook.point]
    · rfl
  simp only [State.cutPoints, h.point, hf, h1, h2, h3]

@[simp] theorem leaveUp_cutPoints (s : State) : s.leaveUp.cutPoints = s.cutPoints := by
  unfold State.leaveUp
  split
  · exact sameClockTfu.cutPoints ⟨rfl, rfl, rfl⟩ rfl rfl rfl
  · rfl

/-- A cut of the record writes changes ADIR and the count of free values alone. -/
theorem cutWrites_spec (s : State) : s.cutWrites = { s with adir := s.cutWrites.adir, draws := s.cutWrites.draws } := by
  have w : ∀ (l : List RecordWrite) (u : State),
      l.foldl State.cutWrite u =
        { u with adir := (l.foldl State.cutWrite u).adir, draws := (l.foldl State.cutWrite u).draws } := by
    intro l
    induction l with
    | nil => exact fun _ => rfl
    | cons a l ih =>
      intro u
      have h : u.cutWrite a = { u with adir := (u.cutWrite a).adir, draws := (u.cutWrite a).draws } := by
        unfold State.cutWrite; (repeat' split) <;> rfl
      rw [List.foldl_cons, ih, h]
  unfold State.cutWrites
  rw [w]
  rfl

@[simp] theorem cutWrites_cutPoints (s : State) : s.cutWrites.cutPoints = s.cutPoints := by
  rw [cutWrites_spec]; exact sameClockTfu.cutPoints ⟨rfl, rfl, rfl⟩ rfl rfl rfl

/-- A cut that meets an outcome's store changes the tills, by a free value, and nothing else. -/
theorem cutStoring_spec (c : Counter) (s : State) : ∃ l d, State.cutStoring c s = { s with tlu := l, draws := d } := by
  unfold State.cutStoring
  (repeat' split) <;> exact ⟨_, _, rfl⟩

/-- A cut that meets the stores of one event changes the tills, by free values, and nothing else (R146). -/
theorem cutStores_spec (s : State) : ∃ l d, s.cutStores = { s with tlu := l, draws := d } := by
  have fold : ∃ l d, forCounters State.cutStoring s = { s with tlu := l, draws := d } := by
    unfold forCounters
    generalize Counter.all = cs
    have go : ∀ (cs : List Counter) (u : State), (∃ l d, u = { s with tlu := l, draws := d }) →
        ∃ l d, cs.foldl (fun s c => State.cutStoring c s) u = { s with tlu := l, draws := d } := by
      intro cs
      induction cs with
      | nil => exact fun u h => h
      | cons c rest ih =>
        rintro u ⟨l, d, rfl⟩
        obtain ⟨l', d', h⟩ := cutStoring_spec c { s with tlu := l, draws := d }
        exact ih _ ⟨l', d', h⟩
    exact go cs s ⟨s.tlu, s.draws, rfl⟩
  obtain ⟨l, d, h⟩ := fold
  unfold State.cutStores
  dsimp only
  rw [h]
  split <;> exact ⟨_, _, rfl⟩

@[simp] theorem cutStores_adir (s : State) : s.cutStores.adir = s.adir := by
  obtain ⟨l, d, h⟩ := cutStores_spec s; rw [h]
@[simp] theorem cutStores_flu (s : State) : s.cutStores.flu = s.flu := by
  obtain ⟨l, d, h⟩ := cutStores_spec s; rw [h]
@[simp] theorem cutStores_point (s : State) : s.cutStores.point = s.point := by
  obtain ⟨l, d, h⟩ := cutStores_spec s; rw [h]; rfl

/-- What follows the cut of TFU's writes leaves the clock and TFU's records. -/
theorem cutStore_point (s : State) : s.cutStore.point = s.cutWrites.cutTfu.point := by
  have of : ∀ {a b : State}, b.tke = a.tke → b.tfu.store = a.tfu.store → b.point = a.point := by
    intro a b h k; simp [State.point, h, k]
  have till : ∀ (c : Counter) (u : State), (State.cutTill c u).point = u.point := by
    intro c u; unfold State.cutTill; dsimp only; (repeat' split) <;> exact of (by simp) (by simp)
  have tills : ∀ u : State, (forCounters State.cutTill u).point = u.point := by
    intro u; unfold forCounters
    induction Counter.all generalizing u with
    | nil => rfl
    | cons a l ih => rw [List.foldl_cons, ih, till]
  have record : ∀ u : State, u.cutRecord.point = u.point := by
    intro u; unfold State.cutRecord; (repeat' split) <;> exact of (by simp) (by simp)
  have flu : ∀ u : State, u.cutFloat.point = u.point := by
    intro u; unfold State.cutFloat; dsimp only; (repeat' split) <;> exact of (by simp) (by simp)
  have claims : ∀ (l : List (Counter × PassClaim)) (u : State), (cutClaims l u).point = u.point := by
    intro l
    induction l with
    | nil =>
      intro u; unfold cutClaims State.cutHolds
      generalize u.adir.table = l
      induction l generalizing u with
      | nil => rfl
      | cons p l ih =>
        rw [List.foldl_cons, ih]
        unfold State.clearHold
        (repeat' split) <;> exact of (by simp) (by simp)
    | cons p l ih =>
      intro u; unfold cutClaims; split
      · rw [ih]; exact of (by simp) (by simp)
      · rfl
  have pass : ∀ u : State, u.cutPass.point = u.point := by
    intro u; unfold State.cutPass
    refine (of (a := if u.atc.phase = .recovering then cutClaims passClaims u.unpass else u) rfl rfl).trans ?_
    split
    · rw [claims]; exact of (by simp [State.unpass]) (by simp [State.unpass])
    · rfl
  unfold State.cutStore
  rw [pass, record, tills, cutStores_point, flu]

/-- Held in reset, the clock and TFU's records stand at one of the cut points (R204; log entry 6). -/
theorem hold_point (s : State) (b : Bool) : (s.hold b).point ∈ s.cutPoints := by
  have h : (s.hold b).point = s.leaveUp.cutStore.point := rfl
  rw [h, cutStore_point]
  have k := cutTfu_point s.leaveUp.cutWrites
  rwa [cutWrites_cutPoints, leaveUp_cutPoints] at k

@[simp] theorem cutTfu_adir (s : State) : s.cutTfu.adir = s.adir := by rw [cutTfu_spec]
@[simp] theorem cutTfu_flu (s : State) : s.cutTfu.flu = s.flu := by rw [cutTfu_spec]
@[simp] theorem cutTfu_atc (s : State) : s.cutTfu.atc = s.atc := by rw [cutTfu_spec]
@[simp] theorem cutTill_adir (c : Counter) (s : State) : (State.cutTill c s).adir = s.adir := by
  unfold State.cutTill; dsimp only; (repeat' split) <;> simp
@[simp] theorem cutTill_flu (c : Counter) (s : State) : (State.cutTill c s).flu = s.flu := by
  unfold State.cutTill; dsimp only; (repeat' split) <;> simp
@[simp] theorem cutRecord_adir (s : State) : s.cutRecord.adir = s.adir := by
  unfold State.cutRecord; (repeat' split) <;> simp
@[simp] theorem cutRecord_flu (s : State) : s.cutRecord.flu = s.flu := by
  unfold State.cutRecord; (repeat' split) <;> simp
@[simp] theorem cutFloat_adir (s : State) : s.cutFloat.adir = s.adir := by
  unfold State.cutFloat; dsimp only; (repeat' split) <;> simp
@[simp] theorem cutWrites_flu (s : State) : s.cutWrites.flu = s.flu := by
  have w : ∀ (u : State) w, (u.cutWrite w).flu = u.flu := by intro u w; unfold State.cutWrite; (repeat' split) <;> simp
  unfold State.cutWrites; rw [mapAdir_flu]
  generalize List.reverse _ = l
  induction l generalizing s with
  | nil => rfl
  | cons a l ih => rw [List.foldl_cons, ih, w]

/-- A cut keeps the table's form (R204). -/
theorem hold_adirOk (s : State) (b : Bool) (h : s.adir.ok) : (s.hold b).adir.ok := by
  have h1 : s.leaveUp.cutWrites.tableIdle := cutWrites_adirOk s.leaveUp (by simpa using h)
  have g : s.leaveUp.cutStore.tableIdle := by
    unfold State.cutStore
    refine cutPass_tableIdle _ ?_
    unfold State.tableIdle
    rw [cutRecord_adir, forCounters_adir _ _ cutTill_adir, cutStores_adir, cutFloat_adir, cutTfu_adir]
    exact h1
  unfold State.hold
  exact g.1

/-- A cut leaves the float balanced, with no write under way (R204). -/
theorem hold_balanced (s : State) (b : Bool) (h : s.flu.balanced) :
    (s.hold b).flu.balanced ∧ (s.hold b).flu.writing = none := by
  have k : (s.leaveUp.cutWrites.cutTfu).cutFloat.floatIdle :=
    cutFloat_balanced (s.leaveUp.cutWrites.cutTfu) (by simpa using h)
  have g : s.leaveUp.cutStore.floatIdle := by
    unfold State.cutStore
    refine cutPass_floatIdle _ ?_
    unfold State.floatIdle
    rw [cutRecord_flu, forCounters_flu _ _ cutTill_flu, cutStores_flu]
    exact k
  unfold State.hold
  generalize s.leaveUp.cutStore = t at g
  exact ⟨balanced_idle (solvent_congr (f := t.flu) rfl rfl g.1.1) rfl (passOk_congr (f := t.flu) rfl g.1.2.2), rfl⟩

end Sys2Proof.Machine
end

