-- ==== Sys2Proof/Laws/Outcomes.lean ====
section
/-! SUPPORT. What an outcome's write leaves under way, and what a cut leaves of it (R144 to R146; log entry 6). -/

namespace Sys2Proof.Machine

variable (s : State)

@[simp] theorem writeOutcome_till (c d : Counter) (o : Option Outcome) :
    (s.writeOutcome c o).till d = if d = c then { s.till d with outcome := o } else s.till d := by
  simp only [State.writeOutcome, State.till, mapTill_tlu, PerCounter.get_set]
  split
  · next h => subst h; rfl
  · rfl

@[simp] theorem writeOutcome_storing (c : Counter) (o : Option Outcome) :
    (s.writeOutcome c o).tlu.storing = s.tlu.storing := rfl

@[simp] theorem stored_stored (t : Tlu) (c : Counter) : (t.stored c).stored c = t.stored c := by
  simp [Tlu.stored, Function.comp_def]

@[simp] theorem outcomeRead_stored (t : Tlu) (c : Counter) : (t.stored c).outcomeRead c = t.outcomeRead c := by
  simp [Tlu.outcomeRead, Tlu.stored, Function.comp_def]

@[simp] theorem stored_outcomeRead (t : Tlu) (c : Counter) : (t.outcomeRead c).stored c = t.outcomeRead c := by
  simp [Tlu.outcomeRead, Tlu.stored, Function.comp_def]

@[simp] theorem drawn_till (c : Counter) : s.drawn.till c = s.till c := rfl

/-- A removed outcome is gone from its till, and is the one that a cut may bring back (R145). -/
theorem removeOutcome_spec (c : Counter) (o : Outcome) :
    ((s.removeOutcome c o).till c).outcome = none ∧ (s.removeOutcome c o).tlu.removing.get c = some o ∧
      (s.removeOutcome c o).ulc.noneTold = false ∧ ∀ d, d ≠ c → (s.removeOutcome c o).till d = s.till d := by
  refine ⟨?_, ?_, rfl, fun d h => ?_⟩
  · show ((s.writeOutcome c none).till c).outcome = none
    simp
  · simp [State.removeOutcome]
  · show (s.writeOutcome c none).till d = s.till d
    simp [h]

/-- An event that can change the outcome of one till alone stores at most one outcome. -/
theorem storedSince_le_one (t : State) (c : Counter) (h : ∀ d, d ≠ c → (t.till d).outcome = (s.till d).outcome) :
    (s.storedSince t).length ≤ 1 := by
  have sub : s.storedSince t = Counter.all.filter fun d => decide (d = c) && decide ((t.till d).outcome ≠ (s.till d).outcome) := by
    unfold State.storedSince
    refine List.filter_congr fun d _ => ?_
    by_cases e : d = c <;> simp [e, h d]
  rw [sub]
  refine le_trans (List.Sublist.length_le (List.monotone_filter_right _ (q := fun d => decide (d = c)) ?_)) ?_
  · intro d hd; simp only [Bool.and_eq_true] at hd; exact hd.1
  · cases c <;> decide

/-- What a running part's event answers, when it stores at most one outcome. -/
theorem whenStoring_next (f : State → State) (h : s.inService = true) (k : (s.storedSince (f s)).length ≤ 1) :
    whenStoring f s = .next (f s) := by
  simp [whenStoring, whenInService, h, markStores_of_le s (f s) k]

/-- What a running part's event answers, when it leaves the tills. -/
theorem whenStoring_of_tills (f : State → State) (h : s.inService = true) (k : (f s).tlu.tills = s.tlu.tills) :
    whenStoring f s = .next (f s) := by
  simp [whenStoring, whenInService, h, markStores_of_tills s (f s) k]

/-- A read of a till's outcome changes what is known of its write, and draws at most one free value. -/
theorem outcomeReadDone_spec (c : Counter) :
    s.outcomeReadDone c = s.readOutcome c ∨
      s.outcomeOpen c ≠ none ∧
        (s.outcomeReadDone c = s.drawn.readOutcome c ∧ s.outcomeSeen c = (s.till c).outcome ∨
          s.outcomeOpen c = some (s.outcomeSeen c) ∧
            (s.outcomeReadDone c = s.drawn ∨ s.outcomeReadDone c = s.drawn.mapTlu fun t => t.readOld c)) := by
  unfold State.outcomeReadDone State.outcomeSeen
  cases h : s.outcomeOpen c with
  | none => exact .inl rfl
  | some old => dsimp only; split <;> (try split) <;> simp

/-- Of several outcomes that one event stores, each is marked with the one that it replaces (R146). -/
theorem markStores_storing (t : State) (c d : Counter) (hne : c ≠ d) (hc : (t.till c).outcome ≠ (s.till c).outcome)
    (hd : (t.till d).outcome ≠ (s.till d).outcome) :
    (s.markStores t).tlu.storing.get c = some ⟨(s.till c).outcome, false, false⟩ := by
  have all : ∀ e : Counter, e ∈ Counter.all := by intro e; cases e <;> decide
  have mem : ∀ e, (t.till e).outcome ≠ (s.till e).outcome → e ∈ s.storedSince t := by
    intro e h; simp [State.storedSince, all e, h]
  have two : ¬(s.storedSince t).length ≤ 1 := by
    intro h
    obtain ⟨x, hx⟩ | hx : (∃ x, s.storedSince t = [x]) ∨ s.storedSince t = [] := by
      match hl : s.storedSince t with
      | [] => exact .inr rfl
      | [x] => exact .inl ⟨x, rfl⟩
      | a :: b :: l => rw [hl] at h; simp at h
    · have h1 := mem c hc; have h2 := mem d hd
      rw [hx] at h1 h2
      simp at h1 h2
      exact hne (h1.trans h2.symm)
    · have h1 := mem c hc; rw [hx] at h1; simp at h1
  unfold State.markStores
  rw [if_neg two]
  have fold : ∀ (l : List Counter) (u : State),
      (c ∈ l ∨ u.tlu.storing.get c = some ⟨(s.till c).outcome, false, false⟩) →
      (l.foldl (fun u c => u.mapTlu fun l => { l with storing := l.storing.set c (some ⟨(s.till c).outcome, false, false⟩) })
        u).tlu.storing.get c = some ⟨(s.till c).outcome, false, false⟩ := by
    intro l
    induction l with
    | nil => intro u h; simpa using h
    | cons e l ih =>
      intro u h
      refine ih _ ?_
      by_cases he : c = e
      · subst he; exact .inr (by simp)
      · rcases h with h | h
        · rcases List.mem_cons.1 h with h | h
          · exact absurd h he
          · exact .inl h
        · exact .inr (by simp [he, h])
  exact fold _ _ (.inl (mem c hc))

/-- A cut that meets one store changes that till's outcome at most, and to the one replaced. -/
theorem cutStoring_till (c d : Counter) :
    (State.cutStoring c s).tlu.storing = s.tlu.storing ∧
      ((State.cutStoring c s).till d = s.till d ∨
        ∃ w, s.tlu.storing.get d = some w ∧ w.settled = false ∧
          (State.cutStoring c s).till d = { s.till d with outcome := w.old }) := by
  unfold State.cutStoring
  split
  · exact ⟨rfl, .inl rfl⟩
  · next w hw =>
    split
    · exact ⟨rfl, .inl rfl⟩
    · next hs =>
      split
      · refine ⟨rfl, ?_⟩
        by_cases h : d = c
        · subst h; exact .inr ⟨w, hw, by simpa using hs, by simp⟩
        · exact .inl (by simp [h])
      · exact ⟨rfl, .inl rfl⟩

/-- A cut that meets the stores of one event leaves each till as it is, or with the outcome replaced (R146). -/
theorem cutStorings_till (d : Counter) :
    (forCounters State.cutStoring s).tlu.storing = s.tlu.storing ∧
      ((forCounters State.cutStoring s).till d = s.till d ∨
        ∃ w, s.tlu.storing.get d = some w ∧ w.settled = false ∧
          (forCounters State.cutStoring s).till d = { s.till d with outcome := w.old }) := by
  unfold forCounters
  have go : ∀ (l : List Counter) (u : State), u.tlu.storing = s.tlu.storing →
      (u.till d = s.till d ∨ ∃ w, s.tlu.storing.get d = some w ∧ w.settled = false ∧
        u.till d = { s.till d with outcome := w.old }) →
      (l.foldl (fun s c => State.cutStoring c s) u).tlu.storing = s.tlu.storing ∧
        ((l.foldl (fun s c => State.cutStoring c s) u).till d = s.till d ∨
          ∃ w, s.tlu.storing.get d = some w ∧ w.settled = false ∧
            (l.foldl (fun s c => State.cutStoring c s) u).till d = { s.till d with outcome := w.old }) := by
    intro l
    induction l with
    | nil => exact fun u h k => ⟨h, k⟩
    | cons c l ih =>
      intro u h k
      obtain ⟨h1, h2⟩ := cutStoring_till u c d
      refine ih _ (h1.trans h) ?_
      rcases h2 with h2 | ⟨w, a, b, e⟩
      · rw [h2]; exact k
      · rw [h] at a
        refine .inr ⟨w, a, b, ?_⟩
        rw [e]
        rcases k with k | ⟨w', _, _, k⟩ <;> rw [k]
  exact go _ s rfl (.inl rfl)

/-- What a cut leaves of the outcomes that one event stored in several tills (R146). -/
theorem cutStores_till (c : Counter) :
    s.cutStores.till c = s.till c ∨
      ∃ w, s.tlu.storing.get c = some w ∧ w.settled = false ∧ s.cutStores.till c = { s.till c with outcome := w.old } := by
  unfold State.cutStores; dsimp only
  split
  · exact (cutStorings_till s c).2
  · exact .inl rfl

/-- One at least of those outcomes, of those that no read has found missing, is there after the cut: its write had completed
(R120, R146). -/
theorem cutStores_keeps (h : ∃ c w, s.tlu.storing.get c = some w ∧ w.readOld = false) :
    ∃ c w, s.tlu.storing.get c = some w ∧ w.readOld = false ∧ (s.cutStores.till c).outcome = (s.till c).outcome := by
  unfold State.cutStores; dsimp only
  split
  · next hk =>
    obtain ⟨c, -, hc⟩ := List.any_eq_true.1 hk
    simp only [Bool.and_eq_true, decide_eq_true_eq] at hc
    obtain ⟨w, hw, hr⟩ := (Option.any_eq_true _ _).1 hc.1
    exact ⟨c, w, hw, by simpa using hr, hc.2⟩
  · obtain ⟨c, w, hw, hr⟩ := h; exact ⟨c, w, hw, hr, rfl⟩

@[simp] theorem cutStores_storing : s.cutStores.tlu.storing = PerCounter.fill none := by
  unfold State.cutStores; dsimp only; split <;> rfl

end Sys2Proof.Machine
end

