-- ==== Sys2Proof/Laws/Queue.lean ====
section
/-! SUPPORT. The places of the upward queue: what each operation on ULC keeps of `Ulc.placesOk`. -/

namespace Sys2Proof.Machine

/-! ### Operations of ULC -/

/-- Giving an owed report a place keeps the places right (R172). -/
theorem placeReport_placesOk {u : Ulc} (h : u.placesOk) : u.placeReport.placesOk := by
  unfold Ulc.placeReport
  split
  · rename_i hc
    obtain ⟨h1, h2, h3⟩ := h
    simp only [Bool.and_eq_true, Bool.not_eq_true', Ulc.free] at hc
    refine ⟨h1, ?_, h3⟩
    simp [Ulc.used, bit, hc.1.2] at *; omega
  · exact h

/-- Reserving the place of a page or of a SWEEP_END keeps the places right (R172). -/
theorem placeSweep_placesOk {u : Ulc} (h : u.placesOk) : u.placeSweep.placesOk := by
  unfold Ulc.placeSweep
  split
  · rename_i hc
    obtain ⟨h1, h2, _⟩ := h
    simp only [Bool.and_eq_true, Bool.not_eq_true', Ulc.free] at hc
    have hf := of_decide_eq_true hc.2
    refine ⟨?_, ?_, fun _ => rfl⟩
    · simp only [Ulc.paging, hc.1.1.2, bit, Bool.false_eq_true, if_false] at h1
      show u.reserved + 1 = u.list.length + u.owing + 1
      omega
    · show u.queue.length + (u.reserved + 1) + bit u.reportPlaced ≤ 16
      simp only [Ulc.used] at *; omega
  · exact h

theorem arbitrate_placesOk {u : Ulc} (h : u.placesOk) : u.arbitrate.placesOk :=
  placeSweep_placesOk (placeReport_placesOk h)

/-- Giving back the place of the sweep, whose page is gone, keeps the places right; one is free for it. -/
theorem dropPlace_spec {u : Ulc} (h : u.placesOk) :
    u.dropPlace.reserved = u.list.length + u.owing ∧ u.dropPlace.sweep.placed = false ∧
      u.queue.length + u.dropPlace.reserved + bit u.reportPlaced + bit u.sweep.placed ≤ 16 := by
  obtain ⟨h1, h2, _⟩ := h
  unfold Ulc.dropPlace
  cases hp : u.sweep.placed <;> simp [Ulc.paging, Ulc.used, hp, bit] at * <;> omega

@[simp] theorem dropPlace_list (u : Ulc) : u.dropPlace.list = u.list := by unfold Ulc.dropPlace; split <;> rfl
@[simp] theorem dropPlace_dispatched (u : Ulc) : u.dropPlace.dispatched = u.dispatched := by
  unfold Ulc.dropPlace; split <;> rfl
@[simp] theorem dropPlace_queue (u : Ulc) : u.dropPlace.queue = u.queue := by unfold Ulc.dropPlace; split <;> rfl
@[simp] theorem dropPlace_reportPlaced (u : Ulc) : u.dropPlace.reportPlaced = u.reportPlaced := by
  unfold Ulc.dropPlace; split <;> rfl
@[simp] theorem dropPlace_page (u : Ulc) : u.dropPlace.sweep.page = u.sweep.page := by
  unfold Ulc.dropPlace; split <;> rfl

/-- Dispatching an instruction moves its place from the list to the owner (R174). -/
theorem dispatch_placesOk {u : Ulc} (h : u.placesOk) : u.dispatch.placesOk := by
  unfold Ulc.dispatch
  split
  · rename_i i rest hd hl
    obtain ⟨h1, h2, h3⟩ := h
    refine ⟨?_, h2, h3⟩
    simp [Ulc.owing, Ulc.paging, hd, hl, bit] at *; omega
  · exact h

/-- The give-up leaves no place used (R159). -/
theorem discard_placesOk (u : Ulc) : u.discard.placesOk := by
  cases hd : u.dispatched <;>
    simp [Ulc.placesOk, Ulc.discard, Ulc.used, Ulc.owing, Ulc.paging, Sweep.inactive, Ulc.clearCounts, bit, hd]

/-- A page written puts at most one entry in the place it held (R177). -/
theorem writePage_placesOk {u : Ulc} (h : u.placesOk) (page : SweepPage) (hp : u.sweep.page = some page) :
    (u.writePage page).placesOk := by
  obtain ⟨d1, d2, d3⟩ := dropPlace_spec h
  have hq : u.sweep.placed = true := h.2.2 (by rw [hp]; rfl)
  rw [hq] at d3
  unfold Ulc.writePage
  refine arbitrate_placesOk ?_
  split <;> refine ⟨?_, ?_, fun e => absurd e Bool.false_ne_true⟩ <;>
    simp_all [Ulc.push, Ulc.paging, Ulc.owing, Ulc.used, bit] <;> omega

/-- A sweep begun gives up the place of the page it replaces (R176). -/
theorem startSweep_placesOk {u : Ulc} (h : u.placesOk) (start count : Nat) : (u.startSweep start count).placesOk := by
  obtain ⟨d1, d2, d3⟩ := dropPlace_spec h
  unfold Ulc.startSweep
  refine ⟨?_, ?_, fun e => absurd e Bool.false_ne_true⟩ <;>
    simp_all [Ulc.paging, Ulc.owing, Ulc.used, bit] <;> omega

/-- The SWEEP_END takes the place that the arbiter reserved for it (R178). -/
theorem endSweep_placesOk {u : Ulc} (h : u.placesOk) (hq : u.sweep.placed = true) (hp : u.sweep.page = none) :
    u.endSweep.placesOk := by
  obtain ⟨d1, d2, d3⟩ := dropPlace_spec h
  rw [hq] at d3
  unfold Ulc.endSweep
  refine arbitrate_placesOk ?_
  refine ⟨?_, ?_, ?_⟩ <;> simp_all [Ulc.push, Ulc.paging, Ulc.owing, Ulc.used, bit] <;> omega

/-- The places are right after a power-up. -/
theorem cleared_placesOk : Ulc.cleared.placesOk := ⟨rfl, Nat.zero_le _, fun e => absurd e Bool.false_ne_true⟩

/-- Changing the phase of the dispatched instruction keeps the places right. -/
theorem phase_placesOk {u : Ulc} (h : u.placesOk) (p : DispatchPhase) :
    ({ u with dispatched := u.dispatched.map fun d => { d with phase := p } } : Ulc).placesOk := by
  obtain ⟨h1, h2, h3⟩ := h
  refine ⟨?_, h2, h3⟩
  cases hd : u.dispatched <;> simpa [Ulc.owing, Ulc.paging, hd] using h1

/-! ### Operations of the part -/

variable (s : State)

theorem answered_placesOk (c : AnswerCode) (e d : List Byte) (h : s.ulc.placesOk) :
    (s.answered c e d).ulc.placesOk := phase_placesOk h _

theorem claimed_placesOk (h : s.ulc.placesOk) : s.claimed.ulc.placesOk := phase_placesOk h _

theorem startTx_placesOk (h : s.ulc.placesOk) : s.startTx.ulc.placesOk := by
  unfold State.startTx
  (repeat' split) <;> exact h

theorem enterTrain_placesOk (h : s.ulc.placesOk) : s.enterTrain.ulc.placesOk := startTx_placesOk _ h

theorem detectLook_placesOk (h : s.ulc.placesOk) : s.detectLook.ulc.placesOk := by
  unfold State.detectLook
  split
  · exact enterTrain_placesOk s h
  · exact h

theorem leaveUp_placesOk (h : s.ulc.placesOk) : s.leaveUp.ulc.placesOk := by simpa using h

theorem enterDetect_placesOk (h : s.ulc.placesOk) : s.enterDetect.ulc.placesOk :=
  detectLook_placesOk _ (leaveUp_placesOk s h)

theorem enterUp_placesOk (h : s.ulc.placesOk) : s.enterUp.ulc.placesOk := h

theorem enterSlip_placesOk (h : s.ulc.placesOk) : s.enterSlip.ulc.placesOk := leaveUp_placesOk s h

theorem giveUp_placesOk : s.giveUp.ulc.placesOk := discard_placesOk s.leaveUp.ulc

theorem rateChanged_placesOk (h : s.ulc.placesOk) : s.rateChanged.ulc.placesOk := by
  unfold State.rateChanged
  split <;> first | exact h | exact enterSlip_placesOk s h

theorem takeRecordClaim_placesOk (k : RecordClaim) (h : s.ulc.placesOk) : (s.takeRecordClaim k).ulc.placesOk := by
  cases k <;> simp only [State.takeRecordClaim]
  · split <;> exact h
  · refine answered_placesOk _ _ _ _ ?_
    unfold State.setHoldover; rw [raiseIf_ulc]; exact h

theorem drainRecord_placesOk (n : Nat) (h : s.ulc.placesOk) : (drainRecord n s).ulc.placesOk := by
  induction n generalizing s with
  | zero => exact h
  | succ n ih =>
    unfold drainRecord
    split
    · exact ih _ (takeRecordClaim_placesOk (s.mapUlc _) _ h)
    · exact h

theorem claimRecord_placesOk (k : RecordClaim) (h : s.ulc.placesOk) : (s.claimRecord k).ulc.placesOk :=
  drainRecord_placesOk (s.mapUlc _) _ h

theorem takeNibble_placesOk (b : BitVec 4) (h : s.ulc.placesOk) : (s.takeNibble b).ulc.placesOk :=
  claimRecord_placesOk _ _ (by split <;> first | exact arbitrate_placesOk h | exact h)

/-- An instruction from the line takes a place in the list and a place of the queue (R171). -/
theorem takeKind_placesOk (k : Nat) (b : List Byte) (h : s.ulc.placesOk) : (s.takeKind k b).ulc.placesOk := by
  unfold State.takeKind
  (repeat' split) <;> try exact h
  rename_i hf
  refine dispatch_placesOk ?_
  obtain ⟨h1, h2, h3⟩ := h
  simp only [Ulc.free] at hf
  refine ⟨?_, ?_, h3⟩
  · show s.ulc.reserved + 1 = (s.ulc.list ++ [_]).length + s.ulc.owing + s.ulc.paging
    simp; omega
  · show s.ulc.queue.length + (s.ulc.reserved + 1) + bit s.ulc.reportPlaced ≤ 16
    simp only [Ulc.used] at *; omega

theorem takeParcel_placesOk (k : Nat) (b : BitVec 4) (l : List Byte) (h : s.ulc.placesOk) :
    (s.takeParcel k b l).ulc.placesOk := takeKind_placesOk _ _ _ (takeNibble_placesOk s b h)

theorem goodParcel_placesOk (k : Nat) (b : BitVec 4) (l : List Byte) (h : s.ulc.placesOk) :
    (s.goodParcel k b l).ulc.placesOk := by
  have ht : ∀ t : State, t.ulc.placesOk → (t.takeParcel k b l).ulc.placesOk := fun t => takeParcel_placesOk t k b l
  unfold State.goodParcel; dsimp only
  (repeat' split) <;> first | exact h | exact ht _ h

theorem badParcel_placesOk (h : s.ulc.placesOk) : s.badParcel.ulc.placesOk := by
  unfold State.badParcel; dsimp only
  split
  · exact enterSlip_placesOk (s.mapUlc _) h
  · exact h

theorem judged_placesOk (p : Judged) (h : s.ulc.placesOk) : (s.judged p).ulc.placesOk := by
  unfold State.judged
  (repeat' split) <;> first | exact h | exact badParcel_placesOk s h | exact goodParcel_placesOk s _ _ _ h

theorem receive_placesOk (n : Nat) (h : s.ulc.placesOk) : (receive n s).ulc.placesOk := by
  induction n generalizing s with
  | zero => exact h
  | succ n ih =>
    unfold receive
    (repeat' split) <;> first | exact h | exact ih _ (judged_placesOk (s.mapUlc _) _ h)

theorem receiveBytes_placesOk (l : List Byte) (h : s.ulc.placesOk) : (s.receiveBytes l).ulc.placesOk := by
  unfold State.receiveBytes; dsimp only
  split
  · exact receive_placesOk (s.mapUlc _) _ h
  · exact h

/-- A page begins in the place that the arbiter reserved for it (R177). -/
theorem beginPage_placesOk (hq : s.ulc.sweep.placed = true) (h : s.ulc.placesOk) : s.beginPage.ulc.placesOk := by
  unfold State.beginPage; dsimp only
  rw [mapUlc_ulc, claimRange_ulc]
  exact ⟨h.1, h.2.1, fun _ => hq⟩

/-- The next part of a page being sent leaves the places (R212). -/
theorem nextPart_placesOk (h : s.ulc.placesOk) : s.nextPart.ulc.placesOk := by
  unfold State.nextPart
  (repeat' split) <;> exact h

theorem linkReset_placesOk : s.linkReset.ulc.placesOk := by
  unfold State.linkReset; dsimp only
  split
  · exact discard_placesOk _
  · exact giveUp_placesOk _

theorem initPasses_placesOk (k : InitCopy) (h : s.ulc.placesOk) : (s.initPasses k).ulc.placesOk :=
  startTx_placesOk _ h

/-! ### FLU's answers to the utility -/

theorem takeGrant_placesOk (n a : Nat) (h : s.ulc.placesOk) : (s.takeGrant n a).ulc.placesOk := by
  unfold State.takeGrant
  split
  · refine answered_placesOk _ _ _ _ ?_
    rw [raise_ulc, completeFloat_ulc]; exact h
  · exact answered_placesOk _ _ _ _ h

theorem takeRecall_placesOk (n a : Nat) (h : s.ulc.placesOk) : (s.takeRecall n a).ulc.placesOk := by
  unfold State.takeRecall
  split
  · refine answered_placesOk _ _ _ _ ?_
    rw [completeFloat_ulc]; exact h
  · exact answered_placesOk _ _ _ _ h

theorem takeTerms_placesOk (a b d : Nat) (h : s.ulc.placesOk) : (s.takeTerms a b d).ulc.placesOk := by
  unfold State.takeTerms
  split
  · refine answered_placesOk _ _ _ _ ?_
    rw [completeFloat_ulc]; exact h
  · exact answered_placesOk _ _ _ _ h

theorem takeFloat_placesOk (k : FloatClaim) (h : s.ulc.placesOk) : (s.takeFloat k).ulc.placesOk := by
  cases k <;> simp only [State.takeFloat] <;> first
    | exact takeGrant_placesOk s _ _ h
    | exact takeRecall_placesOk s _ _ h
    | exact takeTerms_placesOk s _ _ _ h
    | ((repeat' split) <;> simpa using h)

theorem drainFloat_placesOk (n : Nat) (h : s.ulc.placesOk) : (drainFloat n s).ulc.placesOk := by
  induction n generalizing s with
  | zero => exact h
  | succ n ih =>
    unfold drainFloat
    split
    · exact ih _ (takeFloat_placesOk (s.mapFlu _) _ h)
    · exact h

theorem pumpFloat_placesOk (h : s.ulc.placesOk) : s.pumpFloat.ulc.placesOk := by
  obtain ⟨n, m, e⟩ := pumpFloat_spec s; rw [e]; exact drainFloat_placesOk s _ h

end Sys2Proof.Machine
end

