-- ==== Sys2Proof/Laws/Quiet.lean ====
section
/-! SUPPORT. With no request in service on any ring, the contexts and FLU leave RGI as it is: every reply is undeliverable
(R190, R195). -/

namespace Sys2Proof.Machine

/-- No ring has a request in service. -/
def Rgi.idle (g : Rgi) : Prop := ∀ r, (g.rings.get r).service = none

variable (s : State)

theorem putReply_idle (r : Holder) (o : ReplyOwner) (y : Reply) (h : s.rgi.idle) : (s.putReply r o y).rgi = s.rgi := by
  have hr : (s.ring r).service = none := h r
  unfold State.putReply
  rw [hr]; simp

theorem ctxReply_idle (r : Holder) (y : Reply) (h : s.rgi.idle) : (s.ctxReply r y).rgi = s.rgi := by
  unfold State.ctxReply; dsimp only
  have hm : ∀ f, (s.mapCtx r f).rgi.idle := fun f => h
  split
  · rw [putReply_idle _ _ _ _ (hm _)]; rfl
  · simp

theorem refuseHeld_idle (r : Holder) (y : Reply) (h : s.rgi.idle) : (s.refuseHeld r y).rgi = s.rgi := by
  unfold State.refuseHeld
  rw [ctxReply_idle _ _ _ (by rw [releaseHold_rgi]; exact h), releaseHold_rgi]

theorem endStopped_idle (r : Holder) (h : s.rgi.idle) : (s.endStopped r).rgi = s.rgi := refuseHeld_idle s r _ h

theorem windBack_idle (r : Holder) (m : StopMark) (h : s.rgi.idle) : (s.windBack r m).rgi = s.rgi := by
  unfold State.windBack; dsimp only
  split
  · rfl
  · split
    · split
      · rfl
      · exact endStopped_idle _ _ h
    · rfl

theorem cancelCtx_idle (r : Holder) (h : s.rgi.idle) : (s.cancelCtx r).rgi = s.rgi := by
  unfold State.cancelCtx
  split
  · rfl
  · exact ctxReply_idle (s.unpark r) _ _ h
  · exact windBack_idle s _ _ h
  · rfl

theorem engineNotice_idle (r : Holder) (h : s.rgi.idle) : (State.engineNotice r s).rgi = s.rgi := by
  unfold State.engineNotice
  split
  · exact windBack_idle s _ _ h
  · rfl

theorem abandon_idle (r : Holder) (w : CtxState) (h : s.rgi.idle) : (s.abandon r w).rgi = s.rgi := by
  unfold State.abandon State.abandonOffice
  (repeat' split) <;> first | rfl | exact cancelCtx_idle s _ h

theorem tillPartClaim_rgi_eq (c : Counter) : (s.tillPartClaim c).rgi = s.rgi := by simp

theorem takeFloat_idle (k : FloatClaim) (h : s.rgi.idle) : (s.takeFloat k).rgi = s.rgi := by
  cases k <;> simp only [State.takeFloat]
  · split
    · rfl
    · split
      · exact endStopped_idle s _ h
      · exact refuseHeld_idle s _ _ h
  · split
    · rfl
    · simp
    · exact endStopped_idle s _ h
  all_goals (repeat' split) <;> simp

theorem drainFloat_idle (n : Nat) (h : s.rgi.idle) : (drainFloat n s).rgi = s.rgi := by
  induction n generalizing s with
  | zero => rfl
  | succ n ih =>
    unfold drainFloat
    split
    · rename_i k rest hw hq
      have hk := takeFloat_idle (s.mapFlu fun f => { f with queue := rest }) k h
      rw [ih _ (by unfold Rgi.idle; rw [hk]; exact h), hk]; rfl
    · rfl

theorem pumpFloat_idle (h : s.rgi.idle) : s.pumpFloat.rgi = s.rgi := by
  obtain ⟨n, m, e⟩ := pumpFloat_spec s; rw [e]; exact drainFloat_idle s _ h

/-- Detaching a ring's request leaves the ring with none in service, and the others as they were. -/
theorem detach_service (r x : Holder) :
    ((State.detach r s).rgi.rings.get x).service = if x = r then none else (s.rgi.rings.get x).service := by
  unfold State.detach
  split
  · rename_i hr
    split
    · subst_vars; exact hr
    · rfl
  · dsimp only
    split <;> simp [mapRing_rgi, PerHolder.get_set] <;> split <;> simp_all

/-- Once every ring's request is detached, none is in service. -/
theorem detachAll_idle : (forHolders State.detach s).rgi.idle := by
  have : ∀ (l : List Holder) (t : State) (x : Holder),
      (x ∈ l ∨ (t.rgi.rings.get x).service = none) →
        ((l.foldl (fun s h => State.detach h s) t).rgi.rings.get x).service = none := by
    intro l
    induction l with
    | nil => intro t x h; simpa using h
    | cons a l ih =>
      intro t x h
      refine ih _ x ?_
      rw [detach_service]
      by_cases hx : x = a
      · right; simp [hx]
      · rcases h with h | h
        · exact Or.inl ((List.mem_cons.mp h).resolve_left hx)
        · right; simp [hx, h]
  exact fun x => this Holder.all s x (Or.inl (Holder.mem_all x))

end Sys2Proof.Machine
end

