-- ==== Sys2Proof/Laws/Replies.lean ====
section
/-! SUPPORT. What a served request, a context's reply, a wind-back and a claim on FLU do in the plain case: the request at its
owner, the hold its own, no claim waiting. -/

set_option linter.unusedSimpArgs false

namespace Sys2Proof.Machine

/-- A context after a change of one. -/
theorem ctx_mapCtx (s : State) (h k : Holder) (f : Ctx → Ctx) :
    (s.mapCtx h f).ctx k = if k = h then f (s.ctx h) else s.ctx k := by
  simp [State.ctx, mapCtx_vnc, PerHolder.get_set]

/-- Two parts with the same units are the same. -/
theorem State.ext_units (s t : State) (h : s.adir = t.adir) (h1 : s.tfu = t.tfu) (h2 : s.flu = t.flu)
    (h3 : s.tke = t.tke) (h4 : s.vnc = t.vnc) (h5 : s.tlu = t.tlu) (h6 : s.ulc = t.ulc) (h7 : s.rgi = t.rgi)
    (h8 : s.atc = t.atc) (h9 : s.draws = t.draws) (h10 : s.pending = t.pending) : s = t := by
  cases s; cases t; simp_all

/-- A reply to a request at its owner waits for the bus (R190, R191). -/
theorem putReply_atOwner (s : State) (h : Holder) (q : Request) (o : ReplyOwner) (y : Reply)
    (h1 : (s.ring h).service = some ⟨q, .atOwner⟩) (h2 : s.rgi.writes = true) (h3 : s.rgi.accessOk h = true) :
    s.putReply h o y = { s with rgi := s.rgi.replyDue h q o y } := by
  unfold State.putReply
  rw [h1]
  simp only [h2, if_true]
  unfold State.access
  have : (s.mapRing h fun x => { x with service := some ⟨q, .replying o y⟩ }).rgi.accessOk h = true := by
    simp only [Rgi.accessOk, mapRing_rgi, Rgi.descriptorAt, PerHolder.get_set_self] at h3 ⊢
    exact h3
  rw [if_pos this]; rfl

/-- The owner of a served request answers it, and the reply waits for the bus (R189 to R191): here for an owner that leaves
RGI alone. -/
theorem serve_serving (s : State) (k : ReqKind) (r : Holder) (q : Request)
    (f : Request → State → State × ReplyOwner × Reply) (h : s.serving k r q)
    (hf : (f q (s.taken q true)).1.rgi = (s.taken q true).rgi) :
    s.serve k r f =
      { (f q (s.taken q true)).1 with
        rgi := s.rgi.replyDue r q (f q (s.taken q true)).2.1 (f q (s.taken q true)).2.2 } := by
  obtain ⟨_, h2, h3, h4, h5⟩ := h
  subst h3
  simp only [State.serve, h2, State.answerRequest, if_true]
  generalize f q (s.taken q true) = a at hf ⊢
  obtain ⟨u, o, y⟩ := a
  simp only at hf ⊢
  have e : s.taken q true = s.mapRing q.ring fun x => { x with service := some ⟨q, .atOwner⟩ } := rfl
  rw [e] at hf
  rw [putReply_atOwner (q := q)]
  · rw [show u.rgi.replyDue q.ring q o y = s.rgi.replyDue q.ring q o y from ?_]
    rw [hf]
    simp [Rgi.replyDue, mapRing_rgi]
  · simp [State.ring, hf, mapRing_rgi]
  · rw [hf]; exact h4
  · rw [hf]
    simp only [Rgi.accessOk, mapRing_rgi, Rgi.descriptorAt, PerHolder.get_set_self] at h5 ⊢
    exact h5

/-- A context that has handed over a reply (R96, R102, R106). -/
def Ctx.replied (x : Ctx) (y : Reply) : Ctx :=
  if y.code = .done then
    { x with state := .replying, reply := some y, await := .nothing, stop := none, replyPending := true }
  else
    { x with
      state := .replying, reply := some y, await := .nothing, stop := none, replyPending := true, price := none,
      stamps := [], plan := [], returns := [] }

/-- A context hands a reply over to a request at its owner. -/
theorem ctxReply_atOwner (s : State) (h : Holder) (q : Request) (y : Reply) (ha : s.atOwner h q) :
    s.ctxReply h y = { (s.mapCtx h fun x => Ctx.replied x y) with rgi := s.rgi.replyDue h q .context y } := by
  obtain ⟨a, b, c, d⟩ := ha
  unfold State.ctxReply
  simp only [a, if_true]
  rw [putReply_atOwner (q := q)]
  · rfl
  · exact b
  · exact c
  · exact d

/-- The release of a hold that no other request waits for (R12). -/
theorem releaseHold_alone (s : State) (h : Holder) (slot : Nat) (r : MeterRecord) (ha : s.holdsAlone h slot r) :
    s.releaseHold h =
      (((s.settleSlot slot).mapCtx h fun x => { x with releasePending := true }).putRecord slot
        { r with hold := none }).beginWrite (.release none) h slot r := by
  obtain ⟨a, b, c, d, e⟩ := ha
  unfold State.releaseHold
  simp only [a, b, c, d, if_true, if_false]
  have : s.vnc.oldestFor slot = none := by
    simp [Vnc.oldestFor]; exact e
  rw [this]

/-- A wind-back of a context that holds its record alone. -/
theorem refuseHeld_eq (s : State) (h : Holder) (q : Request) (slot : Nat) (r : MeterRecord) (y : Reply)
    (hb : s.atOwner h q) (ha : s.holdsAlone h slot r) :
    s.refuseHeld h y =
      { (s.releaseHold h).mapCtx h (fun x => Ctx.replied x y) with rgi := s.rgi.replyDue h q .context y } := by
  unfold State.refuseHeld
  rw [ctxReply_atOwner (q := q)]
  · rw [releaseHold_alone s h slot r ha]; rfl
  · rw [releaseHold_alone s h slot r ha]
    obtain ⟨a, b, c, d⟩ := hb
    refine ⟨?_, b, c, d⟩
    simp [State.ctx, mapCtx_vnc, State.beginWrite, State.putRecord, State.settleSlot]; exact a

/-- The contexts after a release and a reply. -/
theorem ctx_released (s : State) (h k : Holder) (q : Request) (slot : Nat) (r : MeterRecord) (y : Reply)
    (ha : s.holdsAlone h slot r) :
    State.ctx { (s.releaseHold h).mapCtx h (fun x => Ctx.replied x y) with rgi := s.rgi.replyDue h q .context y } k =
      if k = h then Ctx.replied { s.ctx h with releasePending := true } y else s.ctx k := by
  rw [releaseHold_alone s h slot r ha]
  by_cases hk : k = h
  · subst hk; simp [State.ctx, mapCtx_vnc, State.beginWrite, State.putRecord, State.settleSlot]
  · simp [State.ctx, mapCtx_vnc, State.beginWrite, State.putRecord, State.settleSlot, hk]

/-- What a wind-back of a context that holds its record alone does (R102, R114). -/
theorem refuseHeld_alone (s : State) (h : Holder) (q : Request) (slot : Nat) (r : MeterRecord) (y : Reply)
    (hb : s.atOwner h q) (ha : s.holdsAlone h slot r) (hy : y.code ≠ .done) :
    (s.refuseHeld h y).rgi = s.rgi.replyDue h q .context y ∧
      (s.refuseHeld h y).adir.table = tableSet s.adir.table slot { r with hold := none } ∧
      ((s.refuseHeld h y).ctx h).state = .replying ∧ ((s.refuseHeld h y).ctx h).releasePending = true ∧
      ((s.refuseHeld h y).ctx h).stop = none ∧ ((s.refuseHeld h y).ctx h).plan = [] ∧
      (∀ k, k ≠ h → (s.refuseHeld h y).ctx k = s.ctx k) ∧
      s.refuseHeld h y =
        { s with
          adir := (s.refuseHeld h y).adir, vnc := (s.refuseHeld h y).vnc, rgi := (s.refuseHeld h y).rgi } := by
  have key := fun k => ctx_released s h k q slot r y ha
  rw [refuseHeld_eq s h q slot r y hb ha]
  refine ⟨rfl, ?_, ?_, ?_, ?_, ?_, ?_, ?_⟩
  · rw [releaseHold_alone s h slot r ha]; rfl
  · rw [key, if_pos rfl]; unfold Ctx.replied; split <;> rfl
  · rw [key, if_pos rfl]; unfold Ctx.replied; split <;> rfl
  · rw [key, if_pos rfl]; unfold Ctx.replied; split <;> rfl
  · rw [key, if_pos rfl]; unfold Ctx.replied; rw [if_neg hy]
  · intro k hk; rw [key, if_neg hk]
  · rw [releaseHold_alone s h slot r ha]; rfl

/-- A completed write of FLU has the effects that a statement asks of it (R58, R59). -/
theorem watchFloat_watched (s : State) (f : Flu → Flu) (b : Flu) (h : f s.flu = b) :
    floatWatched s (watchFloat f s) b := by
  subst h
  constructor
  · simp [watchFloat]
  · show (((s.mapFlu fun u => { f u with lowWater := min u.lowWater (f u).available }).raiseIf
        (decide (s.flu.record.lowMark ≤ s.flu.available) &&
          decide ((f s.flu).available < (f s.flu).record.lowMark)) .floatLow).raiseIf
      (decide (0 < s.flu.available) && decide ((f s.flu).available = 0)) .floatEmpty).atc = _
    unfold State.raiseIf; split <;> split <;> rfl

/-- FLU with no claim waiting. -/
theorem pumpFloat_empty (s : State) (hq : s.flu.queue = []) : s.pumpFloat = s := by
  unfold State.pumpFloat; rw [hq]; simp [drainFloat, hq]

/-- A claim on FLU when none waits and no write is under way is taken at once (R52). -/
theorem pumpFloat_claim (s : State) (k : FloatClaim) (hq : s.flu.queue = []) (hw : s.flu.writing = none)
    (ht : (s.takeFloat k).flu.queue = [] ∨ (s.takeFloat k).flu.writing ≠ none) :
    (s.claimFloat k).pumpFloat = s.takeFloat k := by
  have hc : ((s.claimFloat k).mapFlu fun f => { f with queue := [] }) = s := by
    apply State.ext_units <;> simp [State.claimFloat, ← hq]
  have h1 : (s.claimFloat k).flu.writing = none := hw
  have h2 : (s.claimFloat k).flu.queue = [k] := by simp [State.claimFloat, hq]
  unfold State.pumpFloat
  rw [h2]
  simp only [List.length_singleton]
  rw [drainFloat]
  simp only [h1, h2]
  rw [hc, drainFloat]
  generalize s.takeFloat k = t at ht
  rcases ht with h | h
  · simp [h]
  · cases hh : t.flu.writing
    · exact absurd hh h
    · simp

/-! ### The answer of a withdrawal (R77) -/

/-- The jobs that the answer counts are those that left the queue. -/
theorem withdrawAnswer_counts (k : Tke) (h : Holder) :
    (k.withdrawAnswer h).1 + (k.withdraw h).queue.length = k.queue.length := by
  have e := List.length_eq_length_filter_add (l := k.queue) fun j => decide (j.owner = h)
  simp only [Tke.withdrawAnswer, Tke.withdraw]
  simpa using e.symm

/-- An owner without a job is answered 0 and not marked. -/
theorem withdrawAnswer_none (k : Tke) (h : Holder) (hq : ∀ j ∈ k.queue, j.owner ≠ h)
    (hw : ∀ w, k.work = some w → w.job.owner ≠ h) : k.withdrawAnswer h = (0, false) := by
  cases hk : k.work with
  | none => simpa [Tke.withdrawAnswer, hk] using hq
  | some w => simpa [Tke.withdrawAnswer, hk, hw w hk] using hq

/-! ### TXD (R158, R169, R204) -/

/-- TXD is held high in OFF, in DETECT and while the part takes no line event. -/
theorem txd_high (s : State) (h : s.live = false ∨ s.ulc.line.sending = false) : s.txd = .high := by
  rcases h with h | h <;> simp [State.txd, h]

/-- In TRAIN, UP and SLIP, TXD carries the parcel under way, or fill. -/
theorem txd_sending (s : State) (h : s.live = true) (hl : s.ulc.line.sending = true) :
    s.txd = if s.ulc.tx.isSome then .parcel else .fill := by
  simp [State.txd, h, hl]

end Sys2Proof.Machine
end

