-- ==== Sys2Proof/Laws/Takes.lean ====
section
/-! SUPPORT. What the take checks come to when a sale passes them, what FLU does with one reserve claim, and what a claim on
a record does with a hold claim that waits for it. -/

namespace Sys2Proof.Machine

variable (s : State)

/-! ### The take checks (R96) -/

/-- A sale that passes the checks as the rules state them passes the model's checks before and after that of the
outcome. -/
theorem checks_of_saleRefusal_none (c : Counter) (meter money : Nat) (hclosing : s.tlu.closing.get c = none)
    (hsale : s.saleRefusal c meter money = none) :
    (s.till c).outcome = none ∧ s.tillRefusal c meter money = none ∧ s.serviceRefusal money = none := by
  unfold State.saleRefusal at hsale
  repeat' (split at hsale <;> [(simp at hsale; done); skip])
  rename_i g1 g2 g3 g4 g5 g6 g7 g8 g9 g10 g11
  refine ⟨by simpa using g6, ?_, ?_⟩
  · have hs : s.tillStateRead c = (s.till c).state := by unfold State.tillStateRead; rw [hclosing]
    have e1 : meterOk meter = true := by
      have a : 1 ≤ meter := by omega
      have b : meter ≤ 99999999999 := by omega
      simp [meterOk, maxMeter, a, b]
    have e5 : (s.lines c).blocks = false := by
      unfold LinePair.blocks
      by_cases a : (s.lines c).function = .drawer <;> by_cases b : (s.lines c).drawer = .shut <;> simp_all
    unfold State.tillRefusal
    simp only [e1, hs, g2, g3, g4, e5, if_false, Bool.true_eq_false, Bool.false_eq_true]
  · have e : s.month.isNone = false := by cases h : s.month <;> simp_all
    have e9 : (decide (s.ulc.line ≠ .up) && decide (s.ulc.holdover < s.tke.sinceUp)) = false := by
      by_cases a : s.ulc.line = .up <;> by_cases b : s.ulc.holdover < s.tke.sinceUp <;> simp_all
    unfold State.serviceRefusal State.stale
    simp only [g7, g8, e9, g10, e, if_false, Bool.false_eq_true, Bool.true_eq_false]

/-- Behind the other checks, a sale is refused for what a read of the till's outcome finds (R145). -/
theorem takeRefusal_of_saleRefusal_none (c : Counter) (q : CtxRequest) (hclosing : s.tlu.closing.get c = none)
    (hsale : s.saleRefusal c q.meter q.money = none) :
    s.takeRefusal (.counter c) q = if (s.outcomeSeen c).isSome then some .outcomePending else none := by
  obtain ⟨_, htill, hservice⟩ := checks_of_saleRefusal_none s c _ _ hclosing hsale
  have hdone : s.tillReadDone c = s := by unfold State.tillReadDone; simp [hclosing]
  show s.vendRefusal c q.meter q.money = _
  unfold State.vendRefusal
  rw [htill]
  simp only [hdone, hservice]

/-- A read that finds no outcome in a till that holds none has found no write of it open. -/
theorem outcomeOpen_or_freeBit (c : Counter) (ho : (s.till c).outcome = none) (hn : s.outcomeSeen c = none) :
    s.outcomeOpen c = none ∨ s.freeBit = false := by
  cases hopen : s.outcomeOpen c with
  | none => exact Or.inl rfl
  | some old =>
    right
    cases hb : s.freeBit with
    | false => rfl
    | true =>
      unfold State.outcomeSeen at hn
      rw [hopen] at hn
      simp only [hb, if_true] at hn
      subst hn
      unfold State.outcomeOpen at hopen
      split at hopen
      · split at hopen <;> simp at hopen
      · split at hopen
        · rename_i h; simp at hopen; simp [hopen, ho] at h
        · simp at hopen
      · simp at hopen

/-- A sale that passes the checks leaves its till read, and changes nothing else but the free values drawn. -/
theorem checked_of_saleRefusal_none (c : Counter) (q : CtxRequest) (hclosing : s.tlu.closing.get c = none)
    (hsale : s.saleRefusal c q.meter q.money = none) (htake : s.takeRefusal (.counter c) q = none) :
    ∃ d, s.checked (.counter c) q = { s with tlu := s.tlu.outcomeRead c, draws := d } := by
  obtain ⟨ho, htill, _⟩ := checks_of_saleRefusal_none s c _ _ hclosing hsale
  have hdone : s.tillReadDone c = s := by unfold State.tillReadDone; simp [hclosing]
  have hn : s.outcomeSeen c = none := by
    rw [takeRefusal_of_saleRefusal_none s c q hclosing hsale] at htake
    split at htake
    · simp at htake
    · rename_i h; simpa using h
  unfold State.checked
  simp only [htill, hdone, Option.isSome_none, Bool.false_eq_true, if_false]
  unfold State.outcomeReadDone
  rcases outcomeOpen_or_freeBit s c ho hn with e | e <;> rw [e]
  · exact ⟨_, rfl⟩
  · cases s.outcomeOpen c <;> exact ⟨_, rfl⟩

/-! ### One claim on FLU (R52) -/

/-- A reserve claim that nothing refuses and no claim precedes begins its write (R61). -/
theorem pumpFloat_reserve (c : Counter) (sale : Sale) (hq : s.flu.queue = []) (hw : s.flu.writing = none)
    (hr : s.flu.reserveRefusal c sale = none) :
    (s.claimFloat (.reserve c sale)).pumpFloat =
      { s with flu := { s.flu with writing := some (.reserve c sale) } } := by
  have e : s.takeFloat (.reserve c sale) = { s with flu := { s.flu with writing := some (.reserve c sale) } } := by
    unfold State.takeFloat; simp only [hr]; rfl
  rw [pumpFloat_claim s _ hq hw (by rw [e]; exact Or.inl hq), e]

/-! ### Hold claims that wait (R2) -/

/-- The one hold claim that waits is parked behind the holder that its answer names (R98, R108). -/
def State.parkWaiting (x : HoldWait) (slot : Nat) (other : Holder) : State :=
  let answered : State := { s with adir := { s.adir with waiting := [] } }
  let parked := answered.mapCtx x.holder fun y => { y with state := .parked, slot := some slot, await := .nothing }
  { parked with vnc := { parked.vnc with
      park := s.vnc.park ++ [⟨x.holder, slot, if s.tke.clockValid then s.tke.minute else 0, other⟩] } }

/-- Answering a hold claim that waits with BUSY, and has not been stopped, parks it. -/
theorem answerHolds_parks (p : HoldWait → Bool) (x : HoldWait) (slot : Nat) (other : Holder)
    (hw : s.adir.waiting = [x]) (ha : x.answer = .busy slot other) (hs : (s.ctx x.holder).stop = none)
    (hp : p x = true) : s.answerHolds p = s.parkWaiting x slot other := by
  have e : (s.mapAdir fun a => { a with waiting := a.waiting.filter fun x => !p x }) =
      { s with adir := { s.adir with waiting := [] } } := by simp [State.mapAdir, hw, hp]
  have hs' : ((({ s with adir := { s.adir with waiting := [] } } : State)).ctx x.holder).stop = none := hs
  unfold State.answerHolds
  rw [e]
  simp [State.answerAll, State.answerEach, hw, hp, State.holdAnswered, ha, hs']
  rfl

/-- A claim on the record of a waiting hold claim is taken as if that claim had been parked before. -/
theorem claimMeter_parks (x : HoldWait) (slot : Nat) (other : Holder) (hw : s.adir.waiting = [x])
    (ha : x.answer = .busy slot other) (hs : (s.ctx x.holder).stop = none) :
    s.claimMeter x.meter = (s.parkWaiting x slot other).claimMeter x.meter := by
  rw [State.claimMeter, answerHolds_parks (s.settleMeter x.meter) _ x slot other hw ha hs (by simp),
    claimMeter_of_none _ _ (by simp [State.parkWaiting, State.mapCtx, State.mapVnc])]
  rfl

/-- A sweep read of a slot whose record a hold claim waits for is taken as if that claim had been parked before. -/
theorem claimRange_parks (lo hi : Nat) (x : HoldWait) (slot : Nat) (other : Holder) (hw : s.adir.waiting = [x])
    (ha : x.answer = .busy slot other) (hs : (s.ctx x.holder).stop = none)
    (hp : (s.adir.writes.any fun w =>
      decide (w.old.number = x.meter) && decide (lo ≤ w.slot) && decide (w.slot < hi)) = true) :
    s.claimRange lo hi = (s.parkWaiting x slot other).claimRange lo hi := by
  rw [State.claimRange, answerHolds_parks (s.settleRange lo hi) _ x slot other hw ha hs (by simpa using hp),
    claimRange_of_none _ _ _ (by simp [State.parkWaiting, State.mapCtx, State.mapVnc])]
  rfl

end Sys2Proof.Machine
end

