-- ==== Sys2Proof/Tests/Slice0.lean ====
section
/-! SUPPORT. Tests: operands that no command has, the worked examples of the spec, and for each obligation a state and
operands that meet its hypotheses. -/

set_option Elab.async false

namespace Sys2Proof.Tests

open Sys2Proof Sys2Proof.Machine

/-! ## Ill-formed operands are refused -/

theorem test_wf_descriptor : (Instr.ringLook .office (List.replicate 95 0)).wf = false := by decide +kernel
theorem test_wf_initBlock : (Instr.initBlockReadDone (List.replicate 129 0)).wf = false := by decide +kernel
theorem test_wf_parcel_empty : (Instr.parcelReceive []).wf = false := by decide +kernel
theorem test_wf_parcel_long : (Instr.parcelReceive (List.replicate 106 0)).wf = false := by decide +kernel
theorem test_wf_parcel_longest : (Instr.parcelReceive (List.replicate 105 0)).wf = true := by decide +kernel
theorem test_fault_descriptor : exec (.ringLook .office []) State.reset = .fault .illFormed := rfl
theorem test_fault_initBlock : exec (.initBlockReadDone []) State.reset = .fault .illFormed := rfl
theorem test_fault_parcel : exec (.parcelReceive []) State.reset = .fault .illFormed := rfl

/-! ## Small states -/

/-- The part in service, with nothing in its store. -/
def shop : State :=
  { State.reset with
    adir := ⟨[], [], [], none⟩, tfu := Tfu.cleared, flu := Flu.cleared, tlu := Tlu.cleared
    atc := { Atc.cleared with phase := .inService } }

/-- An init copy: office 7, the window from 0x1000, rings of two descriptors. -/
def sampleCopy : InitCopy where
  office := 7
  poll := 1
  windowBase := 1
  windowSize := 8
  rings := ⟨⟨⟨4224, 2⟩, ⟨4416, 2⟩, ⟨4608, 2⟩, ⟨4800, 2⟩, ⟨4992, 2⟩, ⟨5184, 2⟩, ⟨5376, 2⟩, ⟨5568, 2⟩⟩, ⟨5760, 64⟩⟩

/-- The part in service with its rings in a state. -/
def withRings (st : RingState) (bus : List Access) (s : State := shop) : State :=
  { s with rgi := { s.rgi with state := st, copy := some sampleCopy, bus := bus } }

/-- A ring with a request in service. -/
def withService (r : Holder) (v : Service) (s : State) : State :=
  { s with rgi := { s.rgi with rings := s.rgi.rings.set r { s.rgi.rings.get r with service := some v } } }

/-- A request of a kind, with the first bytes of its area. -/
def ask (r : Holder) (kind : Nat) (area : List Byte) : Request := ⟨r, BitVec.ofNat 8 kind, 5, padTo 88 area⟩

/-- The running part with a request waiting for its owner. -/
def asking (q : Request) (s : State := shop) : State := withService q.ring ⟨q, .waiting⟩ (withRings .running [] s)

/-- A context changed. -/
def withCtx (h : Holder) (x : Ctx) (s : State := shop) : State :=
  { s with vnc := { s.vnc with ctxs := s.vnc.ctxs.set h x } }

/-- The part with an instruction dispatched. -/
def told (kind : Nat) (body : List Byte) (s : State := shop) : State :=
  { s with ulc := { s.ulc with dispatched := some ⟨⟨kind, body⟩, .waiting, false⟩ } }

/-- A meter record. -/
def sampleRecord : MeterRecord where
  number := 21440107318
  status := .active
  refer := none
  supplyClass := 2
  keyGeneration := 3
  key := 0
  roll := some ⟨4, 5⟩
  lastStamp := 9204100
  monthNumber := 0
  monthUnits := 0
  allowanceMonth := none
  arrears := some ⟨12000, 20⟩
  carry := 0
  totalUnits := 0
  totalAllowance := 0
  totalMoney := 0
  vendCount := 0
  copy := none
  hold := none
  enrolledMinute := 0

/-- The part with one record in the meter table. -/
def stocked (r : MeterRecord := sampleRecord) (s : State := shop) : State := { s with adir := ⟨[(0, r)], [], [], none⟩ }

/-- The part with its clock at a minute. -/
def timed (minute : Nat) (s : State := shop) : State :=
  { s with tke := { s.tke with clockValid := true, minute := minute } }

/-- The part with its line in a state. -/
def lined (l : LineState) (s : State := shop) : State := { s with ulc := { s.ulc with line := l } }

/-! ## Worked examples -/

/-- Class 2 of the pricing example (2.4). -/
def classTwo : ClassEntry := ⟨true, [⟨1000, some 100⟩, ⟨1428, some 1000⟩, ⟨2000, none⟩], 500⟩

theorem test_price_first :
    priceResult (sampleRecord.view 0) classTwo 412 7 5000 = ⟨412, 7, 1000, 4000, 500, 310, 120, 310⟩ := by decide

theorem test_price_second :
    priceResult
        { sampleRecord.view 0 with
          arrears := some ⟨11000, 20⟩, monthNumber := 412, monthUnits := 310, allowanceMonth := some 412, carry := 120 }
        classTwo 412 7 20000 =
      ⟨412, 7, 4000, 16000, 0, 997, 800, 1307⟩ := by decide

theorem test_price_third :
    priceResult
        { sampleRecord.view 0 with
          arrears := some ⟨7000, 20⟩, monthNumber := 412, monthUnits := 1307, allowanceMonth := some 412, carry := 800 }
        classTwo 413 7 300 =
      ⟨413, 7, 60, 240, 500, 24, 800, 24⟩ := by decide

theorem test_stamps_two : (timed 9204600).tke.stampDecision 9204100 2 = .stamped [9204600, 9204601] := by decide
theorem test_stamps_three :
    (timed 9204600).tke.stampDecision 9204650 3 = .stamped [9204651, 9204652, 9204653] := by decide
theorem test_stamps_ahead : (timed 9200000).tke.stampDecision 9204601 1 = .refused .stampAhead := by decide
theorem test_stamps_exhausted : (timed 16777215).tke.stampDecision 16777213 3 = .refused .stampExhausted := by decide
theorem test_stamps_last : (timed 16777215).tke.stampDecision 16777213 1 = .stamped [16777215] := by decide

/-- The float of the grant sequence (3.2), with a number of the next grant. -/
def sampleFloat (granted next : Nat) : Flu where
  record := ⟨granted, 300000, 8350000, 2000000, 400000, 20000, next, 90, PerCounter.fill 0⟩
  entries :=
    { PerCounter.fill Entry.free with
      c4 := .issuing ⟨0, 21440107318, 5, 150000, 0, 150000, 1, false, 0, 412, 7, 0, 1, []⟩ }
  nextSerial := 90
  lowWater := 1200000
  writing := none
  queue := []
  before := none

theorem test_grant_available : (sampleFloat 10000000 41).available = 1200000 := by decide
theorem test_grant_accepted : (sampleFloat 10000000 41).grantCode 41 500000 = .accepted := by decide
theorem test_grant_after : ((sampleFloat 10000000 41).complete (.grant 41 500000)).available = 1700000 := by decide
theorem test_grant_duplicate : (sampleFloat 10500000 42).grantCode 41 500000 = .duplicate := by decide
theorem test_grant_outOfOrder : (sampleFloat 10500000 42).grantCode 43 100000 = .outOfOrder := by decide
theorem test_grant_overCeiling : (sampleFloat 10500000 42).grantCode 42 300000 = .overCeiling := by decide

theorem test_block_keyroll :
    blockHead .keyroll1 9204600 4 5 = 4#3 ++ 4#4 ++ 5#30 ++ 120#7 := by decide
theorem test_block_credit : blockHead .credit 9204602 310 0 = 0#3 ++ 9204602#24 ++ 310#17 := by decide
theorem test_scan_idle :
    scan (parcel 0x00 7 0 []) = .parcel (.good 0 7 0 []) [0x7E] := by decide +kernel

theorem test_reset_then_recovery :
    (exec .recoveryDone State.reset) =
      .next { shop with
        atc := { shop.atc with status := { PerBlock.fill (0 : Word) with tariff := 4, float := 12 } } } :=
  rfl

/-! ## Quantifying over counters and holders -/

theorem forCounter {p : Counter → Prop} (h : ∀ c ∈ Counter.all, p c) : ∀ c, p c := fun c => h c (by cases c <;> decide)
theorem forHolder {p : Holder → Prop} (h : ∀ x ∈ Holder.all, p x) : ∀ x, p x :=
  fun x => h x (by rcases x with c | _ <;> first | cases c <;> decide | decide)

/-! ## More small states -/

/-- The part held in reset. -/
def heldState (supplyLost : Bool) (s : State := shop) : State := { s with atc := { s.atc with held := some ⟨supplyLost⟩ } }

/-- The part in a start phase. -/
def inPhase (p : StartPhase) (s : State := State.reset) : State := { s with atc := { s.atc with phase := p } }

/-- The part with a record write under way. -/
def writing (kind : RecordWriteKind) (h : Holder) (s : State) : State :=
  { s with adir := { s.adir with writes := [⟨kind, h, 0, sampleRecord, false⟩] } }

/-- The part with a write of FLU under way, and an entry of counter 0. -/
def floating (k : Option FloatClaim) (e : Entry) (s : State) : State :=
  { s with flu := { s.flu with writing := k, entries := s.flu.entries.set .c0 e } }

/-- A sale of 1,000 in the sample record. -/
def sampleSale : Sale := ⟨0, 21440107318, 5, 1000, 0, 1000, 1, false, 0, 412, 7, 0, 1, [⟨.credit, .current, 1⟩]⟩

/-- Its token and its commit image. -/
def sampleToken : Token := ⟨.credit, 9204600, 0⟩
def sampleImage : Image := ⟨90, sampleSale, [sampleToken]⟩

/-- The office request of a kind for the sample record. -/
def officeAsk (k : ReqKind) (more : List Byte := []) : Request := ask .office k.code (leBytes 5 21440107318 ++ more)

/-- The request of a kind about counter 7. -/
def tillAsk (k : ReqKind) (more : List Byte := []) : Request := ask .office k.code (7 :: more)

/-- The sale request of counter 0. -/
def sampleVend (meter : Nat := 21440107318) (money : Nat := 1000) : Request :=
  ask (.counter .c0) 1 (leBytes 5 meter ++ leBytes 4 money)

/-- The part ready to sell: a record, an open till, the line up, a valid clock in month 412, class 2 open, a float. -/
def ready (r : MeterRecord := sampleRecord) : State :=
  let s := timed 9204600 (stocked r)
  { s with
    tfu :=
      { s.tfu with
        bank := ⟨.a, ⟨7, 0⟩, ⟨0, 0⟩, none⟩
        entries := ⟨List.replicate 16 classTwo, List.replicate 16 ClassEntry.cleared⟩
        calendar := [⟨412, 9204000⟩] }
    flu := { (sampleFloat 10000000 41) with nextSerial := 90 }
    tlu := { s.tlu with tills := s.tlu.tills.set .c0 { Till.cleared with state := .opened } }
    ulc := { s.ulc with line := .up, office := some 7 } }

/-- Counter 0 in a state of a sale of the record it holds, its request at its owner. -/
def selling (x : Ctx) (kind : Option RecordWriteKind := none) (s : State := ready) : State :=
  let t := withService (.counter .c0) ⟨sampleVend, .atOwner⟩ (withRings .running [] s)
  let t := withCtx (.counter .c0)
    { x with attached := true, slot := some 0, request := some ⟨5, 21440107318, 1000, .vend⟩
             view := some (sampleRecord.view 0) } t
  { t with adir := ⟨[(0, { sampleRecord with hold := some (.counter .c0) })],
      match kind with
      | none => []
      | some k => [⟨k, .counter .c0, 0, sampleRecord, false⟩], [], none⟩ }

/-- A counter's context in ISSUING, waiting for something. -/
def issuing (a : Await) : Ctx := { Ctx.idle with state := .issuing, await := a }

/-- An instruction of a kind. -/
def line (k : LineKind) (body : List Byte) : LineInstr := ⟨k.code, body⟩

/-- The part with an instruction dispatched and nothing else under way. -/
def toldLine (k : LineKind) (body : List Byte) (s : State := shop) : State := told k.code body s

/-! ## The hypotheses of the statements can be met -/

theorem test_meets_StepRunsTheFront :
    ({ shop with pending := [.vbakLoss, .linesReset] } : State).pending = .vbakLoss :: [.linesReset] := rfl

theorem test_meets_StepIdlesAndCommandsLeaveTheQueue :
    let s := fun sent => ({ shop with ulc := { shop.ulc with
      line := .up, office := some 7, tx := some ⟨⟨7, 0⟩, sent⟩, queue := [.sweepPage 5 0 [[1], [2]]] } } : State)
    (shop.pending = [] ∧ shop.ulc.tx = none) ∧
    ((s []).pending = [] ∧ (s []).live = true ∧ (s []).ulc.queue = .sweepPage 5 0 [[1], [2]] :: [] ∧
      (s []).ulc.tx = some ⟨⟨7, 0⟩, []⟩ ∧ ([] : List Heading).length + 1 < [[1], [2]].length) ∧
    ((s [⟨6, 0⟩]).ulc.tx = some ⟨⟨7, 0⟩, [⟨6, 0⟩]⟩ ∧ [[1], [2]].length ≤ [(⟨6, 0⟩ : Heading)].length + 1) ∧
    Instr.vbakLoss.wf = true ∧ (Instr.ringLook .office []).wf = false := by decide

theorem test_meets_AnIdlePartTakesNothing :
    (heldState true).live = false ∧ (inPhase .clearing).live = false ∧ (Instr.vend .c7).wf = true ∧
      (Instr.ringLook .office (List.replicate 96 0)).wf = true := by decide +kernel

theorem test_meets_EveryStepKeepsTheClockInRange :
    ({ timed 16777214 with pending := [.clockAdvance] } : State).tke.clockOk ∧
      ∃ t, step { timed 16777214 with pending := [.clockAdvance] } = .next t ∧ t.tke.minute = 16777215 :=
  ⟨by unfold Tke.clockOk; decide, _, rfl, by decide +kernel⟩

/-- A part whose reservation is being released. -/
def releasing : State :=
  { floating (some (.release .c0)) (.issuing sampleSale) ready with pending := [.reservationReleased .c0] }

theorem test_meets_EveryStepKeepsTheFloatBalanced : releasing.floatOk ∧ ∃ t, step releasing = .next t := by
  have hw : releasing.flu.writing = some (.release .c0) := rfl
  have hb : releasing.flu.before = none := rfl
  refine ⟨⟨⟨by unfold Flu.solvent; decide +kernel, ?_, ?_⟩, by decide +kernel⟩, _, rfl⟩
  · intro k h
    cases hw.symm.trans h
    unfold Flu.solvent
    decide +kernel
  · intro b h
    cases hb.symm.trans h

theorem test_meets_EveryStepKeepsTheQueuePlaces :
    let s : State :=
      { shop with
        ulc := { shop.ulc with
          reserved := 16, dispatched := some ⟨⟨14, []⟩, .waiting, false⟩, list := List.replicate 15 ⟨15, []⟩ }
        pending := [.linkReset] }
    s.ulc.placesOk ∧ ∃ t, step s = .next t :=
  ⟨by unfold Ulc.placesOk; decide +kernel, _, rfl⟩

theorem test_meets_EveryStepKeepsTheMeterTable :
    (writing .recordPart (.counter .c0) (stocked { sampleRecord with vendCount := 1 })).adir.ok ∧
      ∃ t, step { writing .recordPart (.counter .c0) (stocked { sampleRecord with vendCount := 1 }) with
        pending := [.powerLoss] } = .next t := by
  unfold Adir.ok Adir.restorable
  exact ⟨by decide +kernel, _, rfl⟩

theorem test_meets_ACutHoldsThePartInReset :
    shop.atc.held = none ∧ (heldState false).atc.held = some ⟨false⟩ := by decide

theorem test_meets_ACutLeavesEachRecordOldOrNew :
    let s := writing .recordPart (.counter .c0) (stocked { sampleRecord with vendCount := 1 })
    (s.atc.held = none ∧ s.adir.ok ∧ s.atc.phase ≠ .recovering) ∧
    (State.reset.atc.held = none ∧ State.reset.adir.ok ∧ State.reset.atc.phase = .recovering ∧ State.reset.passKept) ∧
    ∃ t, step { State.reset with pending := [.resetNLow] } = .next t := by
  unfold Adir.ok Adir.restorable State.passKept
  exact ⟨by decide +kernel, by decide +kernel, _, rfl⟩

theorem test_meets_AStartClearsOrRecovers :
    ((heldState false).atc.held.isSome = true ∧ (heldState false).atc.mark = .commissioned) ∧
      ({ heldState true with atc := { (heldState true).atc with mark := .clearing } } : State).atc.mark = .clearing := by
  decide

theorem test_meets_TheRecoveryPassVisitsEachEntry :
    let a := heldState false (floating none (.issuing sampleSale) ready)
    let b := heldState true (floating none (.sealed sampleImage) ready)
    (a.atc.held.isSome = true ∧ a.atc.mark = .commissioned ∧ a.flu.entries.get .c0 = .issuing sampleSale ∧
      (a.till .c0).outcome = none) ∧
    (b.atc.held.isSome = true ∧ b.atc.mark = .commissioned ∧ b.flu.entries.get .c0 = .sealed sampleImage ∧
      b.record sampleImage.sale.slot = some sampleRecord ∧
      (∀ d ∈ Counter.all, d ≠ .c0 → b.flu.sealedImage d = none) ∧ b.adir.ok ∧
      sampleImage.serial ≠ b.flu.record.lastConsumed.get .c0 ∧ (b.till .c0).lastSerial ≠ sampleImage.serial) ∧
    (∃ t u, exec (.partStart false) b = .next t ∧ exec .powerLoss t = .next u) := by
  unfold Adir.ok Adir.restorable
  exact ⟨by decide +kernel, by decide +kernel, _, _, rfl, rfl⟩

theorem test_meets_ClearingAndRecoveringEnd :
    let a := inPhase .clearing
    let b := State.reset
    let w : State := { b with rgi := { b.rgi with initWaiting := true, initAddr := 0xFFFFFF80 } }
    (a.atc.held = none ∧ a.atc.phase = .clearing ∧ a.flu.entries = PerCounter.fill .free ∧ a.tfu.calendar = [] ∧
      a.tke.clockValid = false) ∧
    (b.atc.held = none ∧ b.atc.phase = .recovering ∧ b.adir.ok ∧ b.rgi.initWaiting = false ∧ b.flu.available = 0) ∧
    (w.atc.phase = .recovering ∧ w.adir.ok ∧ w.rgi.initWaiting = true ∧ w.rgi.initAddr.toNat + 128 ≤ 4294967296) := by
  unfold Adir.ok Adir.restorable
  decide +kernel

theorem test_meets_ClearingAndRecoveringEnd_low :
    let s : State := { inPhase .recovering ready with flu := sampleFloat 9000000 41 }
    s.atc.held = none ∧ s.atc.phase = .recovering ∧ s.adir.ok ∧ s.flu.available < s.flu.record.lowMark := by
  unfold Adir.ok Adir.restorable
  decide +kernel

theorem test_meets_StatusBitsAreSetByEventsAndClearedByOnes :
    State.reset.live = true ∧ Block.link ≠ .ring ∧ (Block.vend ≠ Status.clockEnd.block ∨ 31 ≠ Status.clockEnd.pos) := by
  decide

theorem test_meets_ClearingRingStatusLiftsItsFaults :
    let s := (withRings .faulted []).raise (.ringFault .office) |>.raise .busFault
    let f := (withRings .running []).raise (.ringFault .office)
    s.live = true ∧ (∀ r, s.rgi.accessOk r = true) ∧ s.has (.ringFault .office) = true ∧
      (0x10 : Word).getLsbD 4 = true ∧ (0x100 : Word).getLsbD 4 = false ∧ s.rgi.state = .faulted ∧
      s.has .busFault = true ∧ f.rgi.state = .running ∧ f.rgi.accessOk .office = true ∧
      f.has (.ringFault .office) = true ∧ (f.ring .office).service = none ∧ Access.look .office ∉ f.rgi.bus ∧
      (0x10000 : Word).getLsbD (8 + Holder.office.index) = true ∧ f.has (.ringFault (.counter .c0)) = false := by
  refine ⟨by decide +kernel, forHolder (by decide +kernel), ?_⟩
  decide +kernel

/-- EnableWritesReplaceTheWord, AttnFollowsTheWords, AWindowWriteIsTheNamedCommand and ARingResetStopsTheInterface. -/
theorem test_meets_WindowWrites :
    let s : State := { shop with rgi := { shop.rgi with windowIndex := 0x28 } }
    let t : State := { shop with rgi := { shop.rgi with windowIndex := 0x29 } }
    s.live = true ∧ s.rgi.windowIndex = 0x28 ∧ (0xFFFFFFF0 : Word).toNat % 32 = 16 ∧ (0x108 : Word).toNat % 16 = 8 ∧
      0x29 ≤ t.rgi.windowIndex.toNat ∧ (heldState true).attn = false ∧ (inPhase .clearing).attn = false ∧
      (0x100 : Word).toNat % 16 = 0 ∧ (0x103 : Word).toNat % 16 ∉ [0, 1, 2, 4, 8] ∧ (0x20 : Word).toNat % 32 = 0 ∧
      (0x1F : Word).toNat % 32 ∉ [0, 1, 2, 4, 8, 16] ∧ (shop.rgi.state = .stopped ∧ (0xFFFFFFFC : Word).toNat % 4 = 0) ∧
      (0xFFFFFFFD : Word).toNat % 4 ≠ 0 ∧ (withRings .running []).rgi.state ≠ .stopped := by
  decide +kernel

theorem test_window_reads :
    let s : State := { shop with rgi := { shop.rgi with windowIndex := 0x28 } }
    s.readPort .index = some 0x28 ∧ s.readPort .data = s.readWord 0x28 ∧ s.readWord 0x28 = some 0x60000 ∧
      s.readWord 0x13 = some 4 ∧ s.readWord 0x1F = some 0 ∧ (heldState true).readPort .data = none ∧
      (heldState false).readPort .summary = none ∧ (inPhase .clearing).readPort .summary = some 0 := by decide +kernel

theorem test_meets_AnInitPulseReadsTheBlock :
    let at_ : Word → State := fun a => { shop with rgi := { shop.rgi with initAddr := a } }
    ((at_ 0xFFFFFF80).live = true ∧ (at_ 0xFFFFFF80).rgi.state = .stopped ∧ (at_ 0xFFFFFF80).inService = true ∧
      (at_ 0xFFFFFF80).rgi.initAddr.toNat + 128 ≤ 4294967296) ∧
    4294967296 < (at_ 0xFFFFFF81).rgi.initAddr.toNat + 128 ∧
    (State.reset.live = true ∧ State.reset.rgi.state = .stopped ∧ State.reset.inService = false ∧
      State.reset.rgi.initWaiting = false) ∧
    ({ State.reset with rgi := { State.reset.rgi with initWaiting := true } } : State).rgi.initWaiting = true ∧
    (withRings .faulted []).rgi.state ≠ .stopped := by
  decide +kernel

theorem test_meets_StartAndDemandLookAtRings :
    ((withRings .ready []).live = true ∧ (withRings .ready []).rgi.state = .ready ∧
      (withRings .ready []).rgi.state ≠ .running) ∧
    ((withRings .running [.look .office]).live = true ∧ (withRings .running [.look .office]).rgi.state = .running ∧
      (withRings .running [.look .office]).rgi.state ≠ .ready) ∧
    (∀ r, (withRings .ready []).rgi.accessOk r = true) ∧
    ∀ r, (withRings .running [.look .office]).rgi.accessOk r = true :=
  ⟨by decide +kernel, by decide +kernel, forHolder (by decide +kernel), forHolder (by decide +kernel)⟩

theorem test_meets_AStopPulseLeadsToStopped :
    let busy := asking (officeAsk .lookup)
    (busy.live = true ∧ busy.rgi.state = .running ∧ busy.rgi.quiet = false) ∧
    ((withRings .running []).rgi.state = .running ∧ (withRings .running []).rgi.quiet = true) ∧
    (withRings .ready []).rgi.state = .ready ∧
    ((withRings .stopping []).rgi.state ≠ .running ∧ (withRings .stopping []).rgi.state ≠ .ready) := by
  decide +kernel

theorem test_meets_CancelActsByTheContextsState :
    let s := fun st => withCtx .office { Ctx.idle with state := st }
    ((s .idle).live = true ∧ (s .idle).flu.queue = [] ∧ (8 : Word).toNat % 16 = Holder.office.index ∧
      ((s .idle).ctx .office).state = .idle) ∧
    (((s .sealed).ctx .office).state = .sealed ∧ ((s .replying).ctx .office).state = .replying) ∧
    (((s .issuing).ctx .office).state = .issuing ∧ ((s .issuing).ctx .office).stop = none ∧
      ((s .issuing).ctx .office).await ≠ .tokens) ∧
    ((withCtx .office { Ctx.idle with state := .issuing, stop := some .cancel }).ctx .office).stop ≠ none ∧
    8 < (9 : Word).toNat % 16 := by
  decide +kernel

theorem test_meets_CancelActsByTheContextsState_sale :
    let s := floating none (.issuing sampleSale) (selling (issuing .tokens))
    let p := selling { Ctx.idle with state := .parked }
    (s.live = true ∧ (0x10 : Word).toNat % 16 = Counter.c0.index ∧ s.flu.queue = [] ∧ s.flu.writing = none ∧
      s.flu.entries.get .c0 = .issuing sampleSale ∧ (s.ctx (.counter .c0)).state = .issuing ∧
      (s.ctx (.counter .c0)).stop = none ∧ (s.ctx (.counter .c0)).await = .tokens) ∧
    (p.live = true ∧ (p.ctx (.counter .c0)).state = .parked ∧ (p.ctx (.counter .c0)).attached = true ∧
      (p.ring (.counter .c0)).service = some ⟨sampleVend, .atOwner⟩ ∧ p.rgi.writes = true ∧
      p.rgi.accessOk (.counter .c0) = true) := by
  decide +kernel

theorem test_meets_LinkEnableAndResetsMoveTheLine :
    let u : State := { shop with ulc := { shop.ulc with carrier := true, rate := .r2400 } }
    (shop.live = true ∧ shop.ulc.line = .off ∧ shop.ulc.usable = false) ∧
    (u.ulc.line = .off ∧ u.ulc.usable = true) ∧ (lined .up).ulc.line ≠ .off ∧ (lined .up).ulc.line = .up ∧
    ((2 : Word) ≠ 0 ∧ (2 : Word) ≠ 1) := by
  decide +kernel

theorem test_meets_ReadingTheLowWaterMarkResetsIt :
    let u : State := { shop with
      rgi := { shop.rgi with faultRing := 8 }
      ulc := { shop.ulc with
        good := 15, bad := 15, holdover := 10080, queue := List.replicate 15 (.answer []), reserved := 1
        sweep := ⟨true, 16384, 64, none, 0, true⟩ } }
    (u.live = true ∧ u.rgi.faultRing ≤ 8 ∧ u.ulc.good ≤ 15 ∧ u.ulc.bad ≤ 15 ∧ u.ulc.placesOk ∧
      u.ulc.holdover ≤ 10080 ∧ u.ulc.sweep.next ≤ 16384 ∧ u.ulc.sweep.remaining ≤ 64) ∧
    shop.inService = true ∧ shop.live = true ∧ (State.reset.live = true ∧ State.reset.inService = false) ∧
      shop.tke.clockOk ∧ (heldState true).atc.held.isSome = true ∧
      ((inPhase .clearing).atc.held = none ∧ (inPhase .clearing).atc.phase = .clearing) ∧
      (shop.readPort .summary).isSome = true := by
  unfold Tke.clockOk Ulc.placesOk
  decide +kernel

theorem test_meets_EngineResetAndRun :
    let s := floating none (.issuing sampleSale) (selling (issuing .tokens))
    (shop.live = true ∧ shop.flu.queue = [] ∧ ∀ h, (shop.ctx h).state ≠ .issuing) ∧
    (s.live = true ∧ s.flu.queue = [] ∧ s.flu.writing = none ∧ s.flu.entries.get .c0 = .issuing sampleSale ∧
      (s.ctx (.counter .c0)).state = .issuing ∧ (s.ctx (.counter .c0)).stop = none ∧
      (s.ctx (.counter .c0)).await = .tokens ∧ ∀ h, h ≠ .counter .c0 → (s.ctx h).state ≠ .issuing) :=
  ⟨⟨by decide, by decide, forHolder (by decide +kernel)⟩,
    by decide +kernel, by decide +kernel, by decide +kernel, by decide +kernel, by decide +kernel, by decide +kernel,
    by decide +kernel, forHolder (by decide +kernel)⟩

/-- An init copy passes what comes before its ring checks, as the statement has it. -/
abbrev headOk (k : InitCopy) (a : Nat) : Prop :=
  k.office ≠ 0 ∧
    ¬(k.windowSize < 1 ∨ 1048576 < k.windowSize ∨ 4294967296 < (k.windowBase + k.windowSize) * 4096) ∧
    (k.windowBase * 4096 ≤ a ∧ a + 128 ≤ (k.windowBase + k.windowSize) * 4096) ∧ k.poll ≠ 0

/-- A ring's count is in range. -/
abbrev countIn (k : InitCopy) (r : Holder) : Prop := 2 ≤ (k.rings.get r).count ∧ (k.rings.get r).count ≤ 64

/-- A ring's place is aligned and in the window. -/
abbrev placeIn (k : InitCopy) (r : Holder) : Prop :=
  (k.rings.get r).base % 4 = 0 ∧ k.windowBase * 4096 ≤ (k.rings.get r).base ∧
    (k.rings.get r).base + (k.rings.get r).count * 96 ≤ (k.windowBase + k.windowSize) * 4096

/-- Two rings share a byte. -/
abbrev shareByte (k : InitCopy) (r x : Holder) : Prop :=
  (k.rings.get r).base < (k.rings.get x).base + (k.rings.get x).count * 96 ∧
    (k.rings.get x).base < (k.rings.get r).base + (k.rings.get r).count * 96

/-- The sample copy with another place for a ring. -/
def placed (r : Holder) (base count : Nat) : InitCopy :=
  { sampleCopy with rings := sampleCopy.rings.set r ⟨base, count⟩ }

theorem test_meets_TheFirstFailedInitCheck_head :
    headOk sampleCopy 4096 ∧ headOk sampleCopy (9 * 4096 - 128) ∧ ¬headOk sampleCopy 4095 ∧
      ¬headOk sampleCopy (9 * 4096 - 127) ∧ ¬headOk { sampleCopy with office := 0 } 4096 ∧
      ¬headOk { sampleCopy with windowSize := 0 } 4096 ∧
      ¬headOk { sampleCopy with windowBase := 1048575, windowSize := 2 } 4294963200 ∧
      ¬headOk { sampleCopy with poll := 0 } 4096 :=
  ⟨by decide, by decide, by decide, by decide, by decide, by decide, by decide, by decide⟩

theorem test_meets_TheFirstFailedInitCheck_count :
    (headOk (placed .office 5760 65) 4096 ∧ ¬countIn (placed .office 5760 65) .office ∧
      ∀ x, x.index < Holder.office.index → countIn (placed .office 5760 65) x) ∧
    (¬countIn (placed (.counter .c0) 4224 1) (.counter .c0) ∧
      ∀ x, x.index < (Holder.counter .c0).index → countIn (placed (.counter .c0) 4224 1) x) := by
  exact ⟨⟨by decide +kernel, by decide +kernel, forHolder (by decide +kernel)⟩, by decide +kernel,
    forHolder (by decide +kernel)⟩

theorem test_meets_TheFirstFailedInitCheck_place :
    (∀ x, countIn (placed .office 30724 64) x) ∧ ¬placeIn (placed .office 30724 64) .office ∧
      (∀ x, x.index < Holder.office.index → placeIn (placed .office 30724 64) x) ∧
      placeIn (placed .office 30720 64) .office ∧ ¬placeIn (placed .office 5762 64) .office := by
  exact ⟨forHolder (by decide +kernel), by decide +kernel, forHolder (by decide +kernel), by decide +kernel,
    by decide +kernel⟩

theorem test_meets_TheFirstFailedInitCheck_overlap :
    let k := placed (.counter .c1) 4412 2
    (∀ x, countIn k x ∧ placeIn k x) ∧ (Holder.counter .c0).index < (Holder.counter .c1).index ∧
      shareByte k (.counter .c0) (.counter .c1) ∧
      (∀ x z, x.index < (Holder.counter .c0).index → x.index < z.index → ¬shareByte k x z) ∧
      (∀ x, countIn sampleCopy x ∧ placeIn sampleCopy x) ∧
      ∀ x z : Holder, x.index < z.index → ¬shareByte sampleCopy x z := by
  exact ⟨forHolder (by decide +kernel), by decide, by decide +kernel, fun x z h => absurd h (Nat.not_lt_zero _),
    forHolder (by decide +kernel), forHolder fun x hx => forHolder (by revert x; decide +kernel)⟩

/-- An init block that parses to the sample copy. -/
def sampleBlock : List Byte :=
  let ring := fun b n => leBytes 4 b ++ leBytes 4 n
  padTo 128 (leBytes 2 7 ++ leBytes 2 1 ++ leBytes 4 1 ++ leBytes 4 8 ++ ring 4224 2 ++ ring 4416 2 ++ ring 4608 2 ++
    ring 4800 2 ++ ring 4992 2 ++ ring 5184 2 ++ ring 5376 2 ++ ring 5568 2 ++ ring 5760 64)

theorem test_meets_TheInitBlockReadEnds :
    let s : State := { withRings .initialising [.initBlock] with
      rgi := { (withRings .initialising [.initBlock]).rgi with initAddr := 0x1000 } }
    (s.inService = true ∧ sampleBlock.length = 128 ∧ s.rgi.state = .initialising ∧ s.rgi.bus = .initBlock :: []) ∧
    InitCopy.parse sampleBlock = sampleCopy ∧ (InitCopy.parse sampleBlock).fault s.rgi.initAddr.toNat = none ∧
    (InitCopy.parse (List.replicate 128 0)).fault s.rgi.initAddr.toNat = some (.office, 0) := by
  decide +kernel

theorem test_meets_ALookTakesAPartOwnedDescriptor :
    let s : State := withRings .running [.look .office]
    let p : State := { s with rgi := { s.rgi with rings := s.rgi.rings.set .office { Ring.reset with poll := true } } }
    (p.inService = true ∧ (p.ring .office).poll = true ∧ p.rgi.accessOk .office = true ∧ p.rgi.state = .running) ∧
    (s.rgi.bus = .look .office :: [] ∧ (padTo 96 [0x01, 0x04]).length = 96 ∧
      (padTo 96 [0x01, 0x04] : List Byte).getD 0 0 = 0x01 ∧ (padTo 96 [0x02] : List Byte).getD 0 0 ≠ 0x01) ∧
    (withRings .stopping [.look .office]).rgi.state ≠ .running := by
  decide +kernel

/-- The reply of a ring waiting for the bus. -/
def replying (r : Holder) (owner : ReplyOwner) (s : State := shop) : State :=
  withService r ⟨⟨r, 0x0E, 5, padTo 88 [7]⟩, .replying owner ⟨.done, []⟩⟩ (withRings .running [.reply r] s)

/-- An outcome. -/
def sampleOutcome : Outcome := ⟨.done, 90, 5, 21440107318, 1000, 7, [sampleToken]⟩

theorem test_meets_AReplyWrittenMovesTheCursor :
    let last : State := { replying .office .nobody with rgi := { (replying .office .nobody).rgi with
      rings := (replying .office .nobody).rgi.rings.set .office
        { (replying .office .nobody).ring .office with cursor := 63 } } }
    let ctx := replying (.counter .c0) .context (withCtx (.counter .c0) { Ctx.idle with state := .replying })
    let out := replying .office (.outcome .c7 sampleOutcome)
      { shop with tlu := { shop.tlu with tills := shop.tlu.tills.set .c7 { Till.cleared with outcome := some sampleOutcome } } }
    (last.inService = true ∧ last.rgi.state = .running ∧ last.rgi.bus = .reply .office :: [] ∧
      (last.ring .office).halted = false ∧ last.rgi.copy = some sampleCopy ∧
      ¬(last.ring .office).cursor + 1 < (sampleCopy.rings.get .office).count ∧ sampleCopy.inWindow 5760 96 = true ∧
      (last.ring .office).service = some ⟨⟨.office, 0x0E, 5, padTo 88 [7]⟩, .replying .nobody ⟨.done, []⟩⟩) ∧
    (ctx.inService = true ∧ (ctx.ctx (.counter .c0)).state = .replying ∧
      (ctx.ring (.counter .c0)).cursor + 1 < (sampleCopy.rings.get (.counter .c0)).count) ∧
    (out.till .c7).outcome = some sampleOutcome ∧
    ((replying .office (.closing .c7)).inService = true ∧
      ((replying .office (.closing .c7)).ring .office).service =
        some ⟨⟨.office, 0x0E, 5, padTo 88 [7]⟩, .replying (.closing .c7) ⟨.done, []⟩⟩) := by
  decide +kernel

theorem test_meets_AReplyWrittenMovesTheCursor_stopping :
    let s : State := { replying .office .nobody with rgi := { (replying .office .nobody).rgi with state := .stopping } }
    let other := withService (.counter .c0) ⟨sampleVend, .atOwner⟩ s
    (s.inService = true ∧ s.rgi.state = .stopping ∧ s.rgi.bus = .reply .office :: [] ∧
      (s.ring .office).service = some ⟨⟨.office, 0x0E, 5, padTo 88 [7]⟩, .replying .nobody ⟨.done, []⟩⟩ ∧
      s.rgi.copy = some sampleCopy ∧ ∀ x ∈ Holder.all, x ≠ .office → (s.ring x).service = none) ∧
    (other.rgi.state = .stopping ∧ other.rgi.bus = .reply .office :: [] ∧
      (other.ring .office).service = (s.ring .office).service ∧ (other.ring (.counter .c0)).service ≠ none) := by
  decide +kernel

theorem test_meets_RingAndBusFaults :
    let look := withRings .running [.look .office]
    let reply := replying .office .nobody
    let x := replying (.counter .c0) .context (withCtx (.counter .c0)
      { Ctx.idle with
        state := .replying, request := some ⟨5, 21440107318, 1000, .vend⟩, reply := some ⟨.done, []⟩ })
    let y := replying .office .context (withCtx .office { Ctx.idle with state := .replying })
    let q := asking (officeAsk .keyrollOnly) |> withService .office ⟨officeAsk .keyrollOnly, .atOwner⟩
    (look.inService = true ∧ look.rgi.bus = .look .office :: [] ∧ (look.ring .office).service = none) ∧
    (reply.rgi.bus = .reply .office :: [] ∧ reply.rgi.copy = some sampleCopy ∧ reply.rgi.state = .running ∧
      (reply.ring .office).service = some ⟨⟨.office, 0x0E, 5, padTo 88 [7]⟩, .replying .nobody ⟨.done, []⟩⟩) ∧
    (x.inService = true ∧ x.rgi.bus = .reply (.counter .c0) :: [] ∧ (x.ctx (.counter .c0)).state = .replying ∧
        (x.ctx (.counter .c0)).request = some ⟨5, 21440107318, 1000, .vend⟩ ∧
        (x.ctx (.counter .c0)).reply = some ⟨.done, []⟩ ∧ (x.till .c0).outcome = none ∧
        (x.ring (.counter .c0)).service =
          some ⟨⟨.counter .c0, 0x0E, 5, padTo 88 [7]⟩, .replying .context ⟨.done, []⟩⟩) ∧
    ((y.ctx .office).state = .replying ∧
        (y.ring .office).service = some ⟨⟨.office, 0x0E, 5, padTo 88 [7]⟩, .replying .context ⟨.done, []⟩⟩) ∧
    ((replying .office (.closing .c7)).ring .office).service =
      some ⟨⟨.office, 0x0E, 5, padTo 88 [7]⟩, .replying (.closing .c7) ⟨.done, []⟩⟩ ∧
    (look.rgi.bus ≠ [] ∧ (q.ring .office).service = some ⟨officeAsk .keyrollOnly, .atOwner⟩) := by
  decide +kernel

/-- A taken outcome may come back, or still be read, until its removal has been found complete, here by a claim on the
till. -/
theorem test_removal_under_way :
    let s := replying .office (.outcome .c7 sampleOutcome)
      { shop with tlu := { shop.tlu with tills := shop.tlu.tills.set .c7 { Till.cleared with outcome := some sampleOutcome } } }
    let t := match execReplyWritten .office s with | .next t => t | _ => s
    let taken := match execOutcomeTake (asking (tillAsk .outcomeTake) t) with | .next u => u | _ => s
    (t.till .c7).outcome = none ∧ t.tlu.removing.get .c7 = some sampleOutcome ∧ t.ulc.noneTold = false ∧ t.tells = true ∧
      t.outcomeOpen .c7 = some (some sampleOutcome) ∧ taken.tlu.removing.get .c7 = none := by decide +kernel

/-- A BUS_FAULT that stores outcomes in two tills leaves each write under way. -/
theorem test_two_stores_under_way :
    let x : Ctx := { Ctx.idle with
      state := .replying, request := some ⟨5, 21440107318, 1000, .vend⟩, reply := some ⟨.done, []⟩ }
    let one := withCtx (.counter .c0) x (replying (.counter .c0) .context)
    let s := withCtx (.counter .c1) x
      (withService (.counter .c1) ⟨⟨.counter .c1, 0x01, 5, []⟩, .replying .context ⟨.done, []⟩⟩ one)
    let t := match execBusFault s with | .next t => t | _ => s
    (t.till .c0).outcome ≠ none ∧ (t.till .c1).outcome ≠ none ∧ t.tlu.storing.get .c0 = some ⟨none, false, false⟩ ∧
      t.tlu.storing.get .c1 = some ⟨none, false, false⟩ ∧ t.tlu.storing.get .c2 = none := by decide +kernel

theorem test_meets_RequestsTurnedAway :
    let bad := ask .office 0x13 []
    let vendOnOffice := ask .office 0x01 []
    let s := asking bad
    let v := asking sampleVend (withCtx (.counter .c0) { Ctx.idle with state := .replying })
    let k := asking (officeAsk .keyrollOnly) (withCtx .office { Ctx.idle with state := .parked })
    let e := asking (officeAsk .engineer) (withCtx .office { Ctx.idle with state := .parked })
    (s.inService = true ∧ s.rgi.orphans = [] ∧ s.rgi.writes = true ∧ s.rgi.accessOk .office = true ∧
      (s.ring .office).service = some ⟨bad, .waiting⟩ ∧ bad.bad = true ∧ vendOnOffice.bad = true) ∧
    (v.serving .vend (.counter .c0) sampleVend ∧ (v.ctx (.counter .c0)).state ≠ .idle) ∧
    (k.serving .keyrollOnly .office (officeAsk .keyrollOnly) ∧ (k.ctx .office).state ≠ .idle) ∧
    (e.serving .engineer .office (officeAsk .engineer) ∧ (e.ctx .office).state ≠ .idle) := by
  unfold State.serving
  decide +kernel

theorem test_meets_ATakenSaleClaimsTheHold :
    let s := asking sampleVend ready
    s.serving .vend (.counter .c0) sampleVend ∧ (s.ctx (.counter .c0)).state = .idle ∧
      (1 ≤ sampleVend.meter ∧ sampleVend.meter ≤ 99999999999 ∧ 100 ≤ sampleVend.money ∧ sampleVend.money ≤ 500000) ∧
      s.tlu.closing.get .c0 = none ∧ (s.till .c0).state = .opened ∧ (s.till .c0).outcome = none ∧
      (s.lines .c0).function = .general ∧ s.ulc.mode = .normal ∧ s.ulc.line = .up ∧ s.tke.clockValid = true ∧
      s.month = some 412 ∧ tableFind s.adir.table sampleVend.meter = some (0, sampleRecord) ∧
      sampleRecord.status = .active ∧ sampleRecord.refer = none ∧ sampleRecord.hold = none := by
  unfold State.serving
  decide +kernel

theorem test_meets_ATakenSaleClaimsTheHold_edges :
    let q := sampleVend 99999999999 100
    let r := { sampleRecord with number := 99999999999, hold := some .office }
    let t := ready r
    let s : State := asking q { t with
      ulc := { t.ulc with line := .slip, mode := .capped }
      tke := { t.tke with sinceUp := 4320 }
      tlu := { t.tlu with lines := t.tlu.lines.set .c0 { LinePair.reset none with function := .drawer } }
      flu := { t.flu with record := { t.flu.record with vendCap := 100 } } }
    s.serving .vend (.counter .c0) q ∧ (q.meter ≤ 99999999999 ∧ 100 ≤ q.money) ∧ (s.lines .c0).drawer = .shut ∧
      (s.ulc.mode = .capped ∧ q.money ≤ s.flu.record.vendCap) ∧ s.tke.sinceUp ≤ s.ulc.holdover ∧ s.month ≠ none ∧
      tableFind s.adir.table q.meter = some (0, r) ∧ r.hold = some .office := by
  unfold State.serving
  decide +kernel

theorem test_meets_ATakenSaleClaimsTheHold_waits :
    let r := { sampleRecord with hold := some .office }
    let s := asking sampleVend (writing (.release none) .office (ready r))
    s.serving .vend (.counter .c0) sampleVend ∧ tableFind s.adir.table sampleVend.meter = some (0, r) ∧
      s.adir.busyOn sampleVend.meter = true ∧ (asking sampleVend (ready r)).adir.busyOn sampleVend.meter = false := by
  unfold State.serving
  decide +kernel

/-- The part with a hold claim of counter 3 waiting for the sample record. -/
def waitingFor (s : State) : State :=
  { s with adir := { s.adir with
      writes := [⟨.grant, .counter .c7, 0, sampleRecord, false⟩]
      waiting := [⟨.counter .c3, 21440107318, 1, .busy 0 (.counter .c7)⟩] } }

theorem test_meets_ATakenSaleClaimsTheHold_later :
    let at_ := fun q => waitingFor (asking q (stocked))
    let look := ask .office 4 (leBytes 5 21440107318)
    let quote := ask (.counter .c0) 2 (leBytes 5 21440107318 ++ leBytes 4 500000)
    let again := ask (.counter .c0) 3 (leBytes 5 21440107318)
    let body := fun n => padTo n (beBytes 5 21440107318)
    let told := fun k n => waitingFor (toldLine k (body n) (stocked))
    let swept : State :=
      { waitingFor (stocked) with ulc := { shop.ulc with reserved := 1, sweep := ⟨true, 0, 1, none, 0, true⟩ } }
    ((at_ look).inService = true ∧ (at_ look).adir.waiting = [⟨.counter .c3, 21440107318, 1, .busy 0 (.counter .c7)⟩] ∧
      ((at_ look).ctx (.counter .c3)).stop = none ∧ look.meter = 21440107318) ∧
    ((at_ look).serving .lookup .office look ∧ (at_ quote).serving .quote (.counter .c0) quote ∧
      quote.money = 500000 ∧ (at_ again).serving .reprint (.counter .c0) again ∧
      (at_ (officeAsk .referClear)).serving .referClear .office (officeAsk .referClear)) ∧
    (∀ p ∈ [(LineKind.enrol, 26), (.amend, 13), (.retire, 5), (.keyroll, 14)],
      (told p.1 p.2).dispatches p.1 (line p.1 (body p.2)) false ∧ (line p.1 (body p.2)).field 0 5 = 21440107318 ∧
        (told p.1 p.2).adir.waiting.length = 1) ∧
    (swept.ulc.sweep.wantsPage = true ∧ ∃ w ∈ swept.adir.writes, w.old.number = 21440107318 ∧
      swept.ulc.sweep.next ≤ w.slot ∧
      w.slot < pageAfter swept.adir.table swept.ulc.sweep.next swept.ulc.sweep.remaining) := by
  unfold State.serving State.dispatches
  decide +kernel

/-- A LOOKUP parks the hold claim that came before it, at the tail of the park list (R2, R98). -/
theorem test_lookup_parks_first :
    let q := ask .office 4 (leBytes 5 21440107318)
    ∃ t, exec (.lookup .office) (waitingFor (asking q (stocked))) = .next t ∧ t.adir.waiting = [] ∧
      t.vnc.park = [⟨.counter .c3, 0, 0, .counter .c7⟩] ∧ (t.ctx (.counter .c3)).state = .parked :=
  ⟨_, rfl, by decide +kernel, by decide +kernel, by decide +kernel⟩

theorem test_meets_ATakenSaleClaimsTheHold_later_refer_set :
    ∀ code ∈ ([1, 255] : List Byte),
      let q := officeAsk .referSet [code, 0]
      (waitingFor (asking q (stocked))).serving .referSet .office q ∧ q.meter = 21440107318 ∧
        leNat (slice q.area 5 2) = code.toNat := by
  unfold State.serving
  decide +kernel

/-- A REFER_SET whose code is out of range makes no claim, and the hold claim goes on waiting (R28). -/
theorem test_refer_set_out_of_range_claims_nothing :
    let q := officeAsk .referSet [0, 0]
    ∃ t, exec .referSet (waitingFor (asking q (stocked))) = .next t ∧ t.adir.waiting.length = 1 ∧ t.vnc.park = [] :=
  ⟨_, rfl, by decide +kernel, by decide +kernel⟩

theorem test_meets_TheFirstFailedTakeCheckAnswersAVend :
    let s := asking sampleVend
    let low := sampleVend 0
    let small := sampleVend 1 99
    let months := asking sampleVend { ready with tfu := { ready.tfu with calendar := [] } }
    let r := fun x => asking sampleVend (ready x)
    let going := { sampleRecord with status := .retiring }
    let off := { sampleRecord with status := .suspended }
    let marked := { sampleRecord with refer := some 9 }
    (s.serving .vend (.counter .c0) sampleVend ∧ (s.ctx (.counter .c0)).state = .idle ∧
      s.tlu.closing.get .c0 = none ∧ s.saleRefusal .c0 sampleVend.meter sampleVend.money = some .tillClosed) ∧
    (asking low).saleRefusal .c0 low.meter low.money = some .badRequest ∧
    (asking small).saleRefusal .c0 small.meter small.money = some .amountRange ∧
    months.saleRefusal .c0 sampleVend.meter sampleVend.money = some .monthUnknown ∧
    ((r going).serving .vend (.counter .c0) sampleVend ∧
      (r going).saleRefusal .c0 sampleVend.meter sampleVend.money = none ∧
      (r going).adir.busyOn sampleVend.meter = false ∧
      tableFind (r going).adir.table sampleVend.meter = some (0, going)) ∧
    tableFind (r off).adir.table sampleVend.meter = some (0, off) ∧
    tableFind (r marked).adir.table sampleVend.meter = some (0, marked) ∧
    tableFind (r { sampleRecord with number := 1 }).adir.table sampleVend.meter = none := by
  unfold State.serving
  decide +kernel

theorem test_meets_TheFirstFailedTakeCheckAnswersAVend_removal :
    let s := asking sampleVend (ready.mapTlu fun t =>
      { t with
        tills := t.tills.set .c0 { t.tills.get .c0 with state := .opened }
        removing := t.removing.set .c0 (some sampleOutcome) })
    s.serving .vend (.counter .c0) sampleVend ∧ (s.ctx (.counter .c0)).state = .idle ∧ s.tlu.closing.get .c0 = none ∧
      s.tlu.removing.get .c0 = some sampleOutcome ∧ s.ulc.noneTold = false ∧ 1 ≤ sampleVend.meter ∧
      sampleVend.meter ≤ 99999999999 ∧ 100 ≤ sampleVend.money ∧ sampleVend.money ≤ 500000 ∧
      (s.till .c0).state = .opened ∧ (s.lines .c0).function = .general := by
  unfold State.serving
  decide +kernel

theorem test_meets_AnOfficeIssueHoldsThenSubmits :
    let key := officeAsk .keyrollOnly
    let tamper := officeAsk .engineer [2]
    let limit := officeAsk .engineer [3, 0xFF, 0xFF, 0, 0]
    let s := fun q => asking q (timed 9204600 (stocked { sampleRecord with status := .suspended }))
    ((s key).serving .keyrollOnly .office key ∧ ((s key).ctx .office).state = .idle ∧ 1 ≤ key.meter ∧
      key.meter ≤ 99999999999 ∧ (s key).tke.clockValid = true ∧
      tableFind (s key).adir.table key.meter = some (0, { sampleRecord with status := .suspended })) ∧
    ((s tamper).serving .engineer .office tamper ∧ byteAt tamper.area 5 = 2) ∧
    ((s limit).serving .engineer .office limit ∧ byteAt limit.area 5 = 3 ∧ leNat (slice limit.area 6 4) ≤ 65535) := by
  unfold State.serving
  decide +kernel

theorem test_meets_AnOfficeIssueHoldsThenSubmits_submit :
    let x := { issuing .grant with request := some ⟨5, 21440107318, 0, .keyrollOnly⟩, view := some (sampleRecord.view 0) }
    let t := writing .grant .office (withCtx .office x ready)
    let s : State := { t with tke := { t.tke with engine := .working } }
    s.inService = true ∧ s.dueWrite (isGrantOf .office) = some ⟨.grant, .office, 0, sampleRecord, false⟩ ∧
      s.noneWaits ⟨.grant, .office, 0, sampleRecord, false⟩ ∧
      (s.ctx .office).stop = none ∧ (s.ctx .office).view = some (sampleRecord.view 0) ∧ s.flu.queue = [] ∧
      (sampleRecord.view 0).rollGeneration = some 4 ∧
      s.tke.stampDecision (sampleRecord.view 0).lastStamp 2 = .stamped [9204600, 9204601] ∧
      s.tke.engine = .working ∧ s.tke.busyWith .office = false := by
  unfold State.noneWaits
  decide +kernel

theorem test_meets_LookupAnswersTheSummary :
    let q := ask (.counter .c7) 4 (leBytes 5 99999999999)
    let p := ask .office 4 (leBytes 5 1)
    ((asking q).serving .lookup (.counter .c7) q ∧ 1 ≤ q.meter ∧ q.meter ≤ 99999999999) ∧
    (asking p).serving .lookup .office p ∧ 1 ≤ p.meter ∧ (asking q).noneWaitsFor q.meter ∧
    (let w := ask .office 4 (leBytes 5 21440107318)
     let s := waitingFor (asking w (stocked))
     s.serving .lookup .office w ∧ (∃ x ∈ s.adir.waiting, x.meter = w.meter) ∧
       ∀ x ∈ s.adir.waiting, (s.ctx x.holder).stop = none ∧ x.answer = .busy 0 (.counter .c7)) := by
  unfold State.serving
  decide +kernel

theorem test_meets_QuoteReprintAndRefer :
    let quote := ask (.counter .c0) 2 (leBytes 5 21440107318 ++ leBytes 4 500000)
    let again := ask (.counter .c0) 3 (leBytes 5 21440107318)
    let copy : VendCopy := ⟨89, .c0, 1000, 1000, 0, 1, 0, [sampleToken], 255⟩
    let t := stocked { sampleRecord with copy := some copy }
    ((asking quote ready).serving .quote (.counter .c0) quote ∧
      priceDecision ready.tfu ready.month (sampleRecord.view 0) quote.money ≠ .refused .tooSmall) ∧
    ((asking again t).serving .reprint (.counter .c0) again ∧ 1 ≤ again.meter ∧ again.meter ≤ 99999999999 ∧
      tableFind t.adir.table again.meter = some (0, { sampleRecord with copy := some copy }) ∧ copy.reprints = 255) ∧
    (asking quote ready).noneWaitsFor quote.meter ∧ (asking again t).noneWaitsFor again.meter ∧
    tableFind shop.adir.table again.meter = none := by
  unfold State.serving
  decide +kernel

theorem test_meets_QuoteReprintAndRefer_refer :
    let set := officeAsk .referSet [255, 0]
    let one := officeAsk .referSet [1, 0]
    let clear := officeAsk .referClear
    ((asking set).serving .referSet .office set ∧ leNat (slice set.area 5 2) = 255) ∧
    ((asking one).serving .referSet .office one ∧ leNat (slice one.area 5 2) = 1 ∧ 1 ≤ one.meter ∧
      one.meter ≤ 99999999999 ∧ (asking one).noneWaitsFor one.meter) ∧
    (asking clear (stocked { sampleRecord with status := .retiring })).serving .referClear .office clear := by
  unfold State.serving
  decide +kernel

theorem test_meets_TillRequestsMoveTheTill :
    let clerk1 := tillAsk .tillOpen [1, 0]
    let clerk9999 := tillAsk .tillOpen [0x0F, 0x27]
    let pause := tillAsk .tillPause
    let resume := tillAsk .tillResume
    let close := tillAsk .tillClose
    clerk1.counter = some .c7 ∧
    ((asking clerk1).serving .tillOpen .office clerk1 ∧ leNat (slice clerk1.area 1 2) = 1 ∧
      ((asking clerk1).till .c7).state = .closed) ∧
    ((asking clerk9999).serving .tillOpen .office clerk9999 ∧ leNat (slice clerk9999.area 1 2) = 9999) ∧
    (asking pause).serving .tillPause .office pause ∧ (asking resume).serving .tillResume .office resume ∧
    (asking close).serving .tillClose .office close := by
  unfold State.serving
  decide +kernel

theorem test_meets_TillRequestsMoveTheTill_clerk :
    let zero := tillAsk .tillOpen [0, 0]
    let beyond := ask .office ReqKind.tillOpen.code [0, 0x10, 0x27]
    (zero.counter = some .c7 ∧ (asking zero).serving .tillOpen .office zero ∧ leNat (slice zero.area 1 2) = 0) ∧
    (beyond.counter = some .c0 ∧ (asking beyond ready).serving .tillOpen .office beyond ∧
      leNat (slice beyond.area 1 2) = 10000 ∧ ((asking beyond ready).till .c0).state ≠ .closed) := by
  unfold State.serving
  decide +kernel

theorem test_meets_TillRequestsMoveTheTill_close :
    let q := ask .office 0x0C []
    let s := asking q ready
    let b := asking q (withCtx (.counter .c0) { Ctx.idle with state := .replying } ready)
    q.counter = some .c0 ∧ s.serving .tillClose .office q ∧ (s.till .c0).state ≠ .closed ∧
      (s.ctx (.counter .c0)).state = .idle ∧ b.serving .tillClose .office q ∧ (b.ctx (.counter .c0)).state ≠ .idle := by
  unfold State.serving
  decide +kernel

/-- TillReadAnswersTheRecord, and the OUTCOME_TAKE of OutcomeTakeLineAndCounterRequests. -/
theorem test_meets_TillReadAndOutcomeTake :
    let read := tillAsk .tillRead
    let take := tillAsk .outcomeTake
    let held : State := { shop with tlu := { shop.tlu with
      tills := shop.tlu.tills.set .c7 { Till.cleared with outcome := some sampleOutcome } } }
    (read.counter = some .c7 ∧ (asking read).serving .tillRead .office read) ∧
    (take.counter = some .c7 ∧ (asking take held).serving .outcomeTake .office take ∧
      ((asking take held).till .c7).outcome = some sampleOutcome) ∧
    (asking read).outcomeOpen .c7 = none ∧ (asking read).tlu.part.get .c7 = none := by
  unfold State.serving
  decide +kernel

theorem test_meets_TillReadAnswersTheRecord_under_way :
    let read := tillAsk .tillRead
    let part := asking read (shop.mapTlu fun t => { t with part := t.part.set .c7 (some ⟨Till.cleared, false, false⟩) })
    let removed := asking read (shop.mapTlu fun t => { t with removing := t.removing.set .c7 (some sampleOutcome) })
    (part.serving .tillRead .office read ∧ part.tlu.part.get .c7 = some ⟨Till.cleared, false, false⟩) ∧
      (removed.serving .tillRead .office read ∧ removed.tlu.part.get .c7 = none ∧
        removed.tlu.removing.get .c7 = some sampleOutcome ∧ removed.ulc.noneTold = false ∧
        removed.outcomeOpen .c7 = some (some sampleOutcome)) := by
  unfold State.serving
  decide +kernel

theorem test_meets_OutcomeTakeLineAndCounterRequests :
    let general := tillAsk .lineSet [0, 0x0F, 0]
    let drawer := tillAsk .lineSet [1, 0, 0x0F]
    let pulled := tillAsk .lineSet [0, 0, 0x04]
    let driven := tillAsk .lineSet [0, 0, 0x03]
    let read := tillAsk .lineRead
    let d : State := { shop with tlu := { shop.tlu with
      lines := shop.tlu.lines.set .c7 { LinePair.reset none with function := .drawer } } }
    (general.counter = some .c7 ∧ (asking general d).serving .lineSet .office general ∧
      byteAt general.area 1 = 0 ∧ ((asking general d).lines .c7).function = .drawer) ∧
    ((asking drawer).serving .lineSet .office drawer ∧ byteAt drawer.area 1 = 1 ∧
      ((asking drawer).lines .c7).function = .general ∧ (asking drawer d).serving .lineSet .office drawer) ∧
    ((asking pulled).serving .lineSet .office pulled ∧ (LineSettings.ofByte (byteAt pulled.area 3)).output = false ∧
      (LineSettings.ofByte (byteAt pulled.area 3)).pullUp = true) ∧
    ((asking driven).serving .lineSet .office driven ∧ (LineSettings.ofByte (byteAt driven.area 3)).output = true ∧
      (LineSettings.ofByte (byteAt driven.area 3)).floating = false) ∧
    (asking read).serving .lineRead .office read := by
  unfold State.serving
  decide +kernel

/-- A DRW_IN output at 0 that is set to an input with its pull-up on goes high, unless something outside holds it. -/
theorem test_line_pull_up :
    let l := fun x => { LinePair.reset x with inp := ⟨true, false, false, false⟩, pin := false }
    ((l none).setTo .general LineSettings.reset LineSettings.reset false).pin = true ∧
      ((l (some false)).setTo .general LineSettings.reset LineSettings.reset false).pin = false := by decide

theorem test_meets_OutcomeTakeLineAndCounterRequests_counter :
    ∀ p ∈ [(ReqKind.tillOpen, Instr.tillOpen), (.tillPause, .tillPause), (.tillResume, .tillResume),
        (.tillClose, .tillClose), (.tillRead, .tillRead), (.outcomeTake, .outcomeTake), (.lineSet, .lineSet),
        (.lineRead, .lineRead)],
      (ask .office p.1.code [8]).counter = none ∧
        (asking (ask .office p.1.code [8])).serving p.1 .office (ask .office p.1.code [8]) := by
  unfold State.serving
  decide +kernel

theorem test_meets_ClockRequests :
    let set := fun m => ask .office 0x11 (leBytes 4 m)
    let read := ask .office 0x12 []
    ((asking (set 16777216)).serving .clockSet .office (set 16777216) ∧
      16777215 < leNat (slice (set 16777216).area 0 4)) ∧
    ((asking (set 16777215)).serving .clockSet .office (set 16777215) ∧
      leNat (slice (set 16777215).area 0 4) ≤ 16777215 ∧ (asking (set 16777215)).tke.clockValid = false) ∧
    (asking (set 0) (timed 5)).tke.clockValid = true ∧ (asking read).serving .clockRead .office read := by
  unfold State.serving
  decide +kernel

theorem test_meets_AGrantWrittenPricesAndReservesOrGivesBack :
    let s := selling (issuing .grant) (some .grant)
    let v := sampleRecord.view 0
    ∃ p, priceDecision s.tfu s.month v 1000 = .priced p ∧ s.inService = true ∧
      s.dueWrite (isGrantOf (.counter .c0)) = some ⟨.grant, .counter .c0, 0, sampleRecord, false⟩ ∧
      (s.ctx (.counter .c0)).stop = none ∧
      (s.ctx (.counter .c0)).request = some ⟨5, 21440107318, 1000, .vend⟩ ∧ (s.ctx (.counter .c0)).view = some v ∧
      s.tke.stampDecision v.lastStamp (planOf v.rollGeneration p).length =
        .stamped [9204600, 9204601, 9204602, 9204603] ∧
      s.flu.queue = [] ∧ s.flu.writing = none ∧ s.flu.entries.get .c0 = .free ∧ 1000 ≤ s.flu.available ∧
      s.flu.nextSerial + s.flu.issuing ≤ 4294967294 ∧ s.noneWaits ⟨.grant, .counter .c0, 0, sampleRecord, false⟩ :=
  ⟨_, rfl, by unfold State.noneWaits; decide +kernel⟩

theorem test_meets_AGrantWrittenPricesAndReservesOrGivesBack_back :
    let s := selling { issuing .grant with stop := some .cancel } (some .grant)
    let c := selling (issuing .grant) (some .grant) { ready with tfu := Tfu.cleared }
    (s.inService = true ∧ s.dueWrite (isGrantOf (.counter .c0)) = some ⟨.grant, .counter .c0, 0, sampleRecord, false⟩ ∧
      s.atOwner (.counter .c0) sampleVend ∧
      s.holdsAlone (.counter .c0) 0 { sampleRecord with hold := some (.counter .c0) } ∧ s.flu.queue = [] ∧
      (s.ctx (.counter .c0)).stop = some .cancel) ∧
    ((c.ctx (.counter .c0)).stop = none ∧
      priceDecision c.tfu c.month (sampleRecord.view 0) 1000 = .refused .monthUnknown) := by
  unfold State.atOwner State.holdsAlone
  decide +kernel

theorem test_meets_AGrantWrittenPricesAndReservesOrGivesBack_stamp :
    let r := { ready with tfu := { ready.tfu with calendar := [⟨412, 16777000⟩] } }
    let s := selling (issuing .grant) (some .grant) (timed 16777215 r)
    let v := sampleRecord.view 0
    (s.ctx (.counter .c0)).stop = none ∧ (∃ b ∈ classTwo.blocks, b.upper = none) ∧
      s.tfu.entry s.tfu.bank.active v.supplyClass = classTwo ∧
      ∃ p, priceDecision s.tfu s.month v 1000 = .priced p ∧
        s.tke.stampDecision v.lastStamp (planOf v.rollGeneration p).length = .refused .stampExhausted :=
  ⟨by decide +kernel, by decide, by decide, _, rfl, by decide +kernel⟩

theorem test_meets_AReservationIsWrittenAndReleased :
    let a := floating (some (.reserve .c0 sampleSale)) .free (selling (issuing .reserve))
    let s : State := { a with tke := { a.tke with engine := .working } }
    let r := floating (some (.release .c0)) (.issuing sampleSale)
      (selling { issuing .release with stop := some .engineReset })
    (s.inService = true ∧ s.flu.queue = [] ∧ s.flu.writing = some (.reserve .c0 sampleSale) ∧
      (s.ctx (.counter .c0)).stop = none ∧ s.tke.engine = .working ∧ s.tke.busyWith (.counter .c0) = false) ∧
    (r.inService = true ∧ r.flu.queue = [] ∧ r.flu.writing = some (.release .c0) ∧
      r.atOwner (.counter .c0) sampleVend ∧
      r.holdsAlone (.counter .c0) 0 { sampleRecord with hold := some (.counter .c0) } ∧
      (r.ctx (.counter .c0)).stop = some .engineReset) := by
  unfold State.atOwner State.holdsAlone
  decide +kernel

theorem test_meets_AJobCompletesWithOneReturn :
    let j : Job := ⟨.counter .c0, .credit, 21440107318, .current, 9204600, 1⟩
    let x := { issuing .tokens with plan := [⟨.credit, .current, 1⟩] }
    let t := floating none (.issuing sampleSale) (selling x)
    let s : State := { t with tke := { t.tke with engine := .working, work := some ⟨j, 0, 0, false⟩ } }
    let more : State := { s with tke := { s.tke with queue := [j] } }
    (s.inService = true ∧ s.tke.work = some ⟨j, 0, 0, false⟩ ∧ s.flu.queue = [] ∧ s.tke.queue = []) ∧
    ((s.ctx (.counter .c0)).state = .issuing ∧ (s.ctx (.counter .c0)).stop = none ∧
      (s.ctx (.counter .c0)).await = .tokens ∧ s.flu.writing = none ∧ s.flu.entries.get .c0 = .issuing sampleSale ∧
      (s.ctx (.counter .c0)).plan.length ≤ (s.ctx (.counter .c0)).returns.length + 1) ∧
    (more.tke.queue = j :: [] ∧ jobKey more.adir.table j = some (0, 0)) := by
  decide +kernel

theorem test_meets_AJobCompletesWithOneReturn_office :
    let j : Job := ⟨.office, .keyroll2, 21440107318, .current, 9204601, 4⟩
    let x : Ctx := { issuing .tokens with
      slot := some 0, returns := [sampleToken]
      plan := [⟨.keyroll1, .current, 4⟩, ⟨.keyroll2, .current, 4⟩] }
    let t := withCtx .office x (stocked { sampleRecord with hold := some .office })
    let s : State := { t with tke := { t.tke with engine := .working, work := some ⟨j, 0, 0, false⟩ } }
    s.inService = true ∧ s.tke.work = some ⟨j, 0, 0, false⟩ ∧ (s.ctx .office).state = .issuing ∧
      (s.ctx .office).stop = none ∧ (s.ctx .office).await = .tokens ∧
      s.holds .office 0 { sampleRecord with hold := some .office } ∧
      (s.ctx .office).plan.length ≤ (s.ctx .office).returns.length + 1 := by
  unfold State.holds
  decide +kernel

theorem test_meets_TheSealAndTheRecordPart :
    let s := floating (some (.seal .c0 [sampleToken])) (.issuing sampleSale)
      (selling { issuing .seal with stop := some .cancel })
    let r := { sampleRecord with hold := some (.counter .c0) }
    (s.inService = true ∧ s.flu.queue = [] ∧ s.flu.writing = some (.seal .c0 [sampleToken]) ∧
      s.flu.entries.get .c0 = .issuing sampleSale ∧ s.record sampleSale.slot = some r ∧
      r.hasSerial s.flu.nextSerial = false ∧ s.flu.nextSerial ≠ s.flu.record.lastConsumed.get .c0) ∧
    (sampleImage.tokens.getLast? = some sampleToken ∧ rollOf sampleImage.sale.plan = none ∧
      sampleRecord.arrears = some ⟨12000, 20⟩ ∧ sampleImage.sale.arrears < 12000 ∧
      rollOf [⟨.keyroll1, .current, 4⟩] = some 4 ∧ sampleRecord.roll = some ⟨4, 5⟩ ∧
      rollOf [⟨.keyroll1, .current, 5⟩] = some 5) ∧
    (({ issuing .seal with stop := some StopMark.engineReset } : Ctx).stop ≠ some .cancel) := by
  decide +kernel

theorem test_meets_ThePartsOfACommitFollowOneAnother :
    let x := fun a => { Ctx.idle with state := .committing, serial := some 90, await := a }
    let a := floating none (.sealed sampleImage) (selling (x .recordPart) (some .recordPart))
    let b := floating (some (.floatPart .c0)) (.sealed sampleImage) (selling (x .floatPart))
    let t := floating none (.sealed sampleImage) (selling (x .tillPart))
    let c : State :=
      { t with
        flu := { t.flu with record := { t.flu.record with lastConsumed := t.flu.record.lastConsumed.set .c0 90 } }
        tlu := { t.tlu with part := t.tlu.part.set .c0 (some ⟨Till.cleared, true, false⟩) } }
    (a.inService = true ∧ a.flu.queue = [] ∧ a.flu.entries.get .c0 = .sealed sampleImage ∧
      a.dueWrite (isRecordPartOf (.counter .c0)) = some ⟨.recordPart, .counter .c0, 0, sampleRecord, false⟩ ∧
      a.noneWaits ⟨.recordPart, .counter .c0, 0, sampleRecord, false⟩ ∧ a.flu.writing = none ∧
      sampleImage.serial ≠ a.flu.record.lastConsumed.get .c0) ∧
    (b.inService = true ∧ b.flu.queue = [] ∧ b.flu.entries.get .c0 = .sealed sampleImage ∧
      b.flu.writing = some (.floatPart .c0) ∧ sampleImage.serial ≠ b.flu.record.lastConsumed.get .c0 ∧
      (b.till .c0).lastSerial ≠ sampleImage.serial ∧ b.flu.solvent) ∧
    (c.inService = true ∧ c.flu.queue = [] ∧ c.flu.entries.get .c0 = .sealed sampleImage ∧
      c.tlu.part.get .c0 = some ⟨Till.cleared, true, false⟩ ∧ c.flu.writing = none ∧
      sampleImage.serial = c.flu.record.lastConsumed.get .c0) := by
  unfold Flu.solvent State.noneWaits
  decide +kernel

theorem test_meets_TheFreeWriteAndTheReleaseEndTheSale :
    let s := floating (some (.free .c0)) (.sealed sampleImage)
      (selling { Ctx.idle with state := .committing, serial := some 90, await := .free })
    let p : State := { s with vnc := { s.vnc with park := [⟨.office, 0, 5, .counter .c0⟩] } }
    let going := { sampleRecord with hold := some (.counter .c0), status := .retiring }
    (s.inService = true ∧ s.flu.queue = [] ∧ s.flu.writing = some (.free .c0) ∧ s.atOwner (.counter .c0) sampleVend ∧
      s.holds (.counter .c0) 0 { sampleRecord with hold := some (.counter .c0) } ∧
      (s.ctx (.counter .c0)).request = some ⟨5, 21440107318, 1000, .vend⟩ ∧ s.vnc.park = []) ∧
    ((∀ e ∈ p.vnc.park, e.holder ≠ .counter .c0) ∧
      (p.vnc.park.find? fun e => decide (e.slot = 0)) = some ⟨.office, 0, 5, .counter .c0⟩) ∧
    (stocked going s).holds (.counter .c0) 0 going := by
  unfold State.atOwner State.holds
  decide +kernel

theorem test_meets_TheFreeWriteAndTheReleaseEndTheSale_release :
    let w : RecordWrite := ⟨.release none, .office, 0, sampleRecord, false⟩
    let r := writing (.release none) .office (withCtx .office { Ctx.idle with state := .replying, releasePending := true })
    let x : HoldWait := ⟨.counter .c7, 21440107318, 1, .busy 0 .office⟩
    let q : State := { withCtx (.counter .c7) (issuing .hold) r with adir := { r.adir with waiting := [x] } }
    (r.inService = true ∧ r.dueWrite (isReleaseOf .office) = some w ∧ (r.ctx .office).state = .replying ∧ r.noneWaits w) ∧
    (q.dueWrite (isReleaseOf .office) = some w ∧ q.adir.waiting = [x] ∧ x.holder ≠ .office ∧ x.meter = w.old.number ∧
      (q.ctx x.holder).stop = none) := by
  unfold State.noneWaits
  decide +kernel

theorem test_meets_TheFreeWriteAndTheReleaseEndTheSale_handover :
    let t := selling (issuing .handover) none { ready with ulc := { ready.ulc with mode := .halt } }
    let s : State := { t with adir := { t.adir with
      writes := [⟨.release (some (.counter .c0)), .office, 0, sampleRecord, false⟩] } }
    s.inService = true ∧
      s.dueWrite (isReleaseOf .office) = some ⟨.release (some (.counter .c0)), .office, 0, sampleRecord, false⟩ ∧
      s.noneWaits ⟨.release (some (.counter .c0)), .office, 0, sampleRecord, false⟩ ∧ s.flu.queue = [] ∧
      (s.ctx (.counter .c0)).stop = none ∧ s.tlu.closing.get .c0 = none ∧
      s.takeRefusal (.counter .c0) ⟨5, 21440107318, 1000, .vend⟩ = some .salesHalted ∧
      s.atOwner (.counter .c0) sampleVend ∧
      s.holdsAlone (.counter .c0) 0 { sampleRecord with hold := some (.counter .c0) } := by
  unfold State.atOwner State.holdsAlone State.noneWaits
  decide +kernel

/-- A parked request to which the hold was handed over: one whose record was suspended meanwhile, and one that goes on. -/
theorem test_meets_TheFreeWriteAndTheReleaseEndTheSale_resume :
    let w : RecordWrite := ⟨.release (some (.counter .c0)), .office, 0, sampleRecord, false⟩
    let t := selling (issuing .handover)
    let s : State := { t with adir := { t.adir with writes := [w] } }
    let v := sampleRecord.view 0
    let off := { sampleRecord with status := .suspended }
    (s.dueWrite (isReleaseOf .office) = some w ∧ s.takeRefusal (.counter .c0) ⟨5, 21440107318, 1000, .vend⟩ = none ∧
      (off.view 0).status = .suspended ∧ (({ off with status := .active, refer := some 9 } : MeterRecord).view 0).refer = some 9) ∧
    ∃ p, priceDecision s.tfu s.month v 1000 = .priced p ∧ s.saleRefusal .c0 21440107318 1000 = none ∧
      (s.ctx (.counter .c0)).request = some ⟨5, 21440107318, 1000, .vend⟩ ∧ (s.ctx (.counter .c0)).view = some v ∧
      s.tke.stampDecision v.lastStamp (planOf v.rollGeneration p).length =
        .stamped [9204600, 9204601, 9204602, 9204603] ∧
      s.flu.entries.get .c0 = .free ∧ 1000 ≤ s.flu.available ∧ s.flu.nextSerial + s.flu.issuing ≤ 4294967294 :=
  ⟨by decide +kernel, _, rfl, by decide +kernel⟩

theorem test_meets_OfficeCommitsAndHoldTimeouts :
    let q := officeAsk .keyrollOnly
    let x : Ctx := { Ctx.idle with state := .committing, attached := true, slot := some 0, await := .officeCommit }
    let t := withService .office ⟨q, .atOwner⟩
      (withRings .running [] (withCtx .office x (stocked { sampleRecord with hold := some .office })))
    let s := writing .officeCommit .office t
    let p : State := { t with vnc := { t.vnc with park := [⟨.office, 0, 9204600, .counter .c0⟩] } }
    (s.inService = true ∧ s.dueWrite isOfficeCommit = some ⟨.officeCommit, .office, 0, sampleRecord, false⟩ ∧
      s.noneWaits ⟨.officeCommit, .office, 0, sampleRecord, false⟩ ∧ s.atOwner .office q ∧
      s.holdsAlone .office 0 { sampleRecord with hold := some .office }) ∧
    [sampleToken].getLast? = some sampleToken ∧
    (p.inService = true ∧ p.atOwner .office q ∧
      (p.vnc.park.find? fun e => decide (e.holder = .office)) = some ⟨.office, 0, 9204600, .counter .c0⟩) := by
  unfold State.atOwner State.holdsAlone State.noneWaits
  decide +kernel

theorem test_meets_TheClockAndTheCountTick :
    let a := timed 16777214
    let d : State := { a with tfu := { a.tfu with bank := { a.tfu.bank with arm := some ⟨8, 16777215⟩ } } }
    let h : State := { shop with tke := { shop.tke with sinceUp := 10080 }, ulc := { shop.ulc with holdover := 10080 } }
    (a.live = true ∧ a.tke.clockValid = true ∧ a.tke.minute < 16777215 ∧ a.tke.minute + 1 = 16777215 ∧
      a.tfu.bank.arm = none) ∧
    (d.tfu.bank.arm = some ⟨8, 16777215⟩ ∧ 16777215 ≤ d.tke.minute + 1) ∧
    (shop.tke.clockValid = false ∧ (timed 16777215).tke.minute = 16777215) ∧
    (h.tke.counting = true ∧ h.tke.sinceUp = h.ulc.holdover ∧ h.ulc.holdover ≤ 10080) := by
  decide

theorem test_meets_DrawersFollowLevelsAndTimers :
    let pair : LinePair := { LinePair.reset none with
      function := .drawer, fresh := false, drawer := .released, counted := false, pulse := true, stuck := true }
    let opened : LinePair := { LinePair.reset (some false) with function := .drawer, drawer := .opened, long := true }
    let put := fun p => { shop with tlu := { shop.tlu with lines := shop.tlu.lines.set .c7 p } }
    let s : State := put pair
    let o : State := put opened
    (s.live = true ∧ (s.lines .c7).function = .drawer ∧ (s.lines .c7).pin ≠ false ∧ (s.lines .c7).fresh = false) ∧
    ((s.lines .c7).timing = true ∧ (s.lines .c7).counted = false ∧ (s.lines .c7).pin = true ∧
      (s.lines .c7).drawer = .released ∧ (s.lines .c7).pulse = true ∧ (s.lines .c7).stuck = true) ∧
    ((o.lines .c7).timing = true ∧ (o.lines .c7).counted = true ∧ (o.lines .c7).pin = false ∧
      (o.lines .c7).drawer = .opened ∧ (o.lines .c7).long = true) ∧
    (shop.lines .c0).function = .general := by
  decide

theorem test_meets_RateCarrierAndTimersMoveTheLine :
    let u := fun l => ({ shop with ulc := { shop.ulc with line := l, carrier := true, rate := .r2400 } } : State)
    ((u .up).live = true ∧ (u .up).ulc.line = .up ∧ (u .up).ulc.rate ≠ rateOf 248 ∧ (u .up).ulc.carrier = true) ∧
    ((u .detect).ulc.line = .detect ∧ (u .detect).ulc.carrier = true ∧ (rateOf 1977).inRange = true ∧
      (u .detect).ulc.rate.inRange = true) ∧
    ((u .slip).ulc.line = .slip ∧ (u .slip).ulc.rate = rateOf 233 ∧ (u .slip).ulc.line ≠ .detect) ∧
    ((u .train).ulc.line = .train ∧ (u .train).ulc.usable = true ∧ (u .slip).ulc.usable = true ∧
      (u .train).ulc.queue = [] ∧
      ({ (u .slip).ulc with queue := [.answer []], office := some 7 } : Ulc).queue ≠ []) ∧
    ((lined .train).live = true ∧ (lined .train).ulc.usable = false ∧ (lined .train).ulc.line = .train ∧
      (lined .slip).ulc.line = .slip ∧ (lined .up).ulc.usable = false ∧ (lined .off).ulc.line ≠ .up) := by
  decide

theorem test_rates :
    rateOf 0 = .none ∧ rateOf 232 = .outOfRange ∧ rateOf 233 = .r2400 ∧ rateOf 247 = .r2400 ∧ rateOf 248 = .outOfRange ∧
      rateOf 465 = .outOfRange ∧ rateOf 494 = .r4800 ∧ rateOf 932 = .r9600 ∧ rateOf 988 = .r9600 ∧
      rateOf 1863 = .r19200 ∧ rateOf 1978 = .outOfRange := by decide

/-- A part whose line is UP for office 7. -/
def up : State := { shop with ulc := { shop.ulc with line := .up, office := some 7 } }

theorem test_meets_AParcelIsTakenInUp :
    let idle := parcel 0x00 7 0 []
    let told := parcel 0x0E 7 0 [0, 0, 1]
    let query := parcel 0x00 7 0x8 []
    let capped := parcel 0x00 7 0x1 []
    let bad : List Byte := [0x7E, 1, 0, 7, 0, 97]
    let eighth : State := { up with ulc := { up.ulc with bad := 7 } }
    let full : State := { up with ulc := { up.ulc with queue := List.replicate 16 (.floatReport []) } }
    let asked : State := { up with ulc := { up.ulc with lastNibble := some 0 } }
    let third : State := { up with ulc := { up.ulc with line := .train, good := 2 } }
    let second : State := { up with ulc := { up.ulc with line := .slip, good := 1 } }
    (up.live = true ∧ parcelWf idle = true ∧ up.ulc.line = .up ∧ up.ulc.assembly = [] ∧ up.ulc.office = some 7 ∧
      idle.head? = some 0x7E ∧ scan idle = .parcel (.good 0 7 0 []) [0x7E] ∧ modeOf 0 = up.ulc.mode ∧
      up.ulc.recordWrite = none ∧ up.ulc.recordClaims = [] ∧ up.ulc.dispatched = none ∧ up.ulc.list = []) ∧
    (parcelWf told = true ∧ scan told = .parcel (.good 0x0E 7 0 [0, 0, 1]) [0x7E] ∧ up.ulc.free ≠ 0 ∧
      full.ulc.free = 0) ∧
    (parcelWf bad = true ∧ scan bad = .parcel .bad [] ∧ up.ulc.bad < 7 ∧ eighth.ulc.bad = 7) ∧
    (scan query = .parcel (.good 0 7 8 []) [0x7E] ∧ (8 : BitVec 4).getLsbD 3 = true ∧ modeOf 8 = asked.ulc.mode ∧
      asked.ulc.lastNibble = some 0 ∧ asked.ulc.reportPlaced = false ∧ asked.ulc.sweep.active = false) ∧
    (scan capped = .parcel (.good 0 7 1 []) [0x7E] ∧ modeOf 1 ≠ up.ulc.mode) ∧
    (third.ulc.line = .train ∧ third.ulc.good = 2 ∧ second.ulc.line = .slip ∧ second.ulc.good = 1) := by
  decide +kernel

/-- A parcel over 96 bytes of body ends at its header, and the receiver then skips the rest of it (R165). -/
theorem test_receiver_hunts :
    let s := up.receiveBytes ([0x7E, 1, 0, 7, 0, 97] ++ List.replicate 60 1)
    (s.ulc.bad = 1 ∧ s.ulc.assembly = []) ∧
      ((s.receiveBytes [1, 0, 7, 0, 97]).ulc.bad = 1 ∧ (s.receiveBytes (parcel 0x00 7 0 [])).ulc.good = 1) := by
  decide +kernel

theorem test_meets_AParcelIsTakenInUp_mode :
    let s : State := { up with ulc := { up.ulc with recordWrite := some .halt } }
    s.live = true ∧ s.ulc.recordWrite = some .halt ∧ s.ulc.recordClaims = [] := by decide

theorem test_meets_TheTransmitterAndTheUpwardQueue :
    let t : State := { up with ulc := { up.ulc with
      queue := [.answer [1]], tx := some ⟨⟨7, 0⟩, []⟩, reserved := 1
      dispatched := some ⟨⟨7, []⟩, .answered .accepted [] [], false⟩ } }
    let p : State := { up with ulc := { up.ulc with
      queue := [.sweepPage 9 1 [[1], [2], [3]], .answer []], tx := some ⟨⟨6, 1⟩, [⟨5, 0⟩]⟩ } }
    (up.live = true ∧ up.ulc.office = some 7 ∧ up.ulc.line.sending = true ∧ up.ulc.queue = []) ∧
    (t.ulc.tx = some ⟨⟨7, 0⟩, []⟩ ∧ t.ulc.queue = .answer [1] :: []) ∧
    (p.ulc.tx = some ⟨⟨6, 1⟩, [⟨5, 0⟩]⟩ ∧ p.ulc.queue = .sweepPage 9 1 [[1], [2], [3]] :: [.answer []] ∧
      [(⟨5, 0⟩ : Heading)].length < [[1], [2], [3]].length) ∧
    (t.ulc.placesOk ∧ t.ulc.dispatched = some ⟨⟨7, []⟩, .answered .accepted [] [], false⟩ ∧ t.ulc.list = []) := by
  unfold Ulc.placesOk
  decide +kernel

theorem test_meets_TheTransmitterAndTheUpwardQueue_sweep :
    let s := fun w => ({ up with ulc := { up.ulc with sweep := w, reserved := 1 } } : State)
    let page : SweepPage := ⟨[], 16384⟩
    let owed : Ulc := { up.ulc with reportOwed := true, reportPlaced := true }
    (up.inService = true ∧ owed.reportPlaced = true ∧ owed.placesOk) ∧
    ((s ⟨true, 16383, 1, none, 0, true⟩).ulc.placesOk ∧ (s ⟨true, 16383, 1, none, 0, true⟩).ulc.sweep.next < 16384 ∧
      0 < (s ⟨true, 16383, 1, none, 0, true⟩).ulc.sweep.remaining ∧
      (s ⟨true, 16383, 1, none, 0, true⟩).adir.waiting = []) ∧
    ((s ⟨true, 0, 1, some page, 0, true⟩).ulc.placesOk ∧
      (s ⟨true, 0, 1, some page, 0, true⟩).ulc.sweep.page = some page) ∧
    ((s ⟨true, 16384, 1, none, 0, true⟩).ulc.placesOk ∧ (s ⟨true, 16384, 1, none, 0, true⟩).ulc.sweep.active = true ∧
      (s ⟨true, 16384, 1, none, 0, true⟩).ulc.sweep.page = none ∧
      16384 ≤ (s ⟨true, 16384, 1, none, 0, true⟩).ulc.sweep.next) ∧
    (up.ulc.free = 16 ∧ ({ up.ulc with reserved := 15 } : Ulc).free < 2 ∧ up.ulc.reportOwed = false) := by
  unfold Ulc.placesOk
  decide +kernel

/-- The next part of a page begins on an idle step with the heading of that instant (R168, R212). -/
theorem test_next_part :
    let s : State := { up with ulc := { up.ulc with
      office := some 8, queue := [.sweepPage 9 1 [[1], [2]]], tx := some ⟨⟨7, 0⟩, []⟩ } }
    s.nextPart.ulc.tx = some ⟨⟨8, s.upNibble⟩, [⟨7, 0⟩]⟩ ∧ s.nextPart.nextPart = s.nextPart := by decide +kernel

theorem test_meets_MeterInstructions_keyroll :
    let body := beBytes 5 21440107318 ++ [15] ++ beBytes 8 0
    let s := toldLine .keyroll body (stocked)
    let i := line .keyroll body
    s.dispatches .keyroll i false ∧ s.noneWaitsFor (i.field 0 5) ∧ 1 ≤ i.field 0 5 ∧ i.field 0 5 ≤ 99999999999 ∧ i.field 5 1 = 15 ∧
      tableFind s.adir.table (i.field 0 5) = some (0, sampleRecord) ∧ sampleRecord.hold = none ∧
      sampleRecord.keyGeneration < i.field 5 1 ∧ (sampleRecord.roll.map KeyRoll.generation).getD 0 < i.field 5 1 := by
  unfold State.dispatches
  decide +kernel

theorem test_meets_GrantIsDecidedByItsTable :
    let body := beBytes 4 41 ++ beBytes 4 500000
    let s : State := toldLine .grant body { shop with flu := sampleFloat 10000000 41 }
    let i := line .grant body
    (s.dispatches .grant i false ∧ s.flu.queue = [] ∧ s.flu.writing = none ∧ i.field 0 4 = s.flu.record.nextGrant ∧
      s.flu.available + s.flu.reserved + i.field 4 4 ≤ s.flu.record.ceiling ∧ s.flu.solvent) ∧
    (floating (some (.release .c0)) .free s).flu.writing = some (.release .c0) := by
  unfold State.dispatches Flu.solvent
  decide +kernel

theorem test_meets_RecallAndFloatTerms :
    let back := beBytes 4 41 ++ beBytes 4 100000000
    let terms := beBytes 4 100000000 ++ beBytes 4 100000000 ++ beBytes 4 500000
    let s := fun k body => toldLine k body { shop with flu := sampleFloat 10000000 41 }
    ((s .recall back).dispatches .recall (line .recall back) false ∧ (s .recall back).flu.queue = [] ∧
      (s .recall back).flu.writing = none ∧ (line .recall back).field 4 4 = 100000000) ∧
    ((s .floatTerms terms).dispatches .floatTerms (line .floatTerms terms) false ∧
      (line .floatTerms terms).field 0 4 = 100000000 ∧ (line .floatTerms terms).field 4 4 = 100000000 ∧
      (line .floatTerms terms).field 8 4 = 500000) := by
  unfold State.dispatches
  decide +kernel

theorem test_meets_TariffAndArm_tariff :
    let body := fun g c => beBytes 2 g ++ beBytes 1 c ++ [1] ++ beBytes 2 0 ++ [1] ++ beBytes 2 1 ++ beBytes 4 0
    let i := fun g c => line .tariff (body g c)
    let s := fun g c => toldLine .tariff (body g c) ready
    let arm : State := { s 65535 15 with
      tfu := { ready.tfu with bank := ⟨.a, ⟨7, 65535⟩, ⟨0, 1⟩, some ⟨65535, 5⟩⟩ } }
    ((s 65535 15).dispatches .tariff (i 65535 15) false ∧ (i 65535 15).field 0 2 = 65535 ∧
      (i 65535 15).field 2 1 = 15 ∧ (carriedEntry (i 65535 15)).ok = true ∧
      (s 65535 15).tfu.bank.generation.get (s 65535 15).tfu.bank.active < 65535) ∧
    ((s 0 0).dispatches .tariff (i 0 0) false ∧ (i 0 0).field 0 2 < 1) ∧ 15 < (i 1 16).field 2 1 ∧
    (i 7 0).field 0 2 ≤ (s 7 0).tfu.bank.generation.get (s 7 0).tfu.bank.active ∧
    (arm.dispatches .tariff (i 65535 15) false ∧ arm.tfu.bank.arm ≠ none ∧
      arm.tfu.bank.generation.get arm.tfu.bank.active.other = 65535) := by
  unfold State.dispatches
  decide +kernel

theorem test_meets_TariffAndArm_arm :
    let i := line .arm (beBytes 2 8 ++ beBytes 4 9204600)
    let t := toldLine .arm i.body ready
    let s := fun m => ({ timed m t with tfu := { t.tfu with bank := ⟨.a, ⟨7, 8⟩, ⟨0, 0xFFFF⟩, none⟩ } } : State)
    (s 9204600).dispatches .arm i false ∧ i.field 0 2 = 8 ∧ i.field 2 4 ≤ 16777215 ∧
      (s 9204600).tfu.bank.generation.get (s 9204600).tfu.bank.active.other = 8 ∧
      (s 9204600).tfu.bank.loaded.get (s 9204600).tfu.bank.active.other = 0xFFFF ∧
      (s 9204600).tfu.bank.generation.get (s 9204600).tfu.bank.active < 8 ∧
      (s 9204600).tke.clockValid = true ∧ i.field 2 4 ≤ (s 9204600).tke.minute ∧
      (s 9204599).dispatches .arm i false ∧ (s 9204599).tke.minute < i.field 2 4 := by
  unfold State.dispatches
  decide +kernel

theorem test_meets_DisarmRemovesTheArm :
    let s := toldLine .disarm []
    let a : State := { timed 5 s with tfu := { s.tfu with bank := ⟨.a, ⟨7, 8⟩, ⟨0, 0xFFFF⟩, some ⟨8, 5⟩⟩ } }
    (s.dispatches .disarm (line .disarm []) false ∧ s.tfu.bank.arm = none) ∧
    (a.dispatches .disarm (line .disarm []) false ∧ a.tfu.bank.arm ≠ none ∧ a.applyDue = true) := by
  unfold State.dispatches
  decide +kernel

theorem test_meets_MeterInstructions_enrol :
    let body := beBytes 5 99999999999 ++ [15, 1, 15] ++ beBytes 8 0 ++ beBytes 4 16777215 ++ [1] ++ beBytes 4 1 ++ [1]
    let i := line .enrol body
    let s := toldLine .enrol body (stocked)
    let again := line .enrol (beBytes 5 21440107318 ++ body.drop 5)
    (s.dispatches .enrol i false ∧ s.noneWaitsFor (i.field 0 5) ∧ (enrolRecord i s.tke.now).isSome = true ∧
      tableFind s.adir.table (i.field 0 5) = none ∧ s.adir.writes = [] ∧ tableOk s.adir.table = true ∧
      s.adir.table.length < 16384) ∧
    ((toldLine .enrol again.body (stocked)).dispatches .enrol again false ∧
      (enrolRecord again 0).isSome = true ∧ tableFind s.adir.table (again.field 0 5) = some (0, sampleRecord)) ∧
    enrolRecord (line .enrol (List.replicate 26 0)) 0 = none := by
  unfold State.dispatches
  decide +kernel

theorem test_meets_MeterInstructions_amend :
    let body := fun flags => beBytes 5 21440107318 ++ [flags, 1, 15] ++ beBytes 4 0 ++ [0]
    let i := line .amend (body 7)
    let s := toldLine .amend (body 7) (stocked)
    s.dispatches .amend i false ∧ s.noneWaitsFor (i.field 0 5) ∧ (amendChanges i).isSome = true ∧
      tableFind s.adir.table (i.field 0 5) = some (0, sampleRecord) ∧ sampleRecord.hold = none ∧
      (amendChanges (line .amend (body 0))).isSome = false ∧
      (toldLine .amend (body 0)).dispatches .amend (line .amend (body 0)) false := by
  unfold State.dispatches
  decide +kernel

theorem test_meets_MeterInstructions_retire :
    let i := line .retire (beBytes 5 21440107318)
    let s := fun r => toldLine .retire i.body (stocked r)
    let held := { sampleRecord with hold := some (.counter .c7) }
    let going := { held with status := .retiring }
    let p := withService .office ⟨officeAsk .keyrollOnly, .atOwner⟩
      (withRings .running [] (withCtx .office { Ctx.idle with state := .parked, attached := true, slot := some 0 } (s held)))
    let t : State := { p with vnc := { p.vnc with park := [⟨.office, 0, 5, .counter .c7⟩] } }
    ((s sampleRecord).dispatches .retire i false ∧ (s sampleRecord).noneWaitsFor (i.field 0 5) ∧
      tableFind (s sampleRecord).adir.table (i.field 0 5) = some (0, sampleRecord) ∧ sampleRecord.hold = none) ∧
    tableFind (s held).adir.table (i.field 0 5) = some (0, held) ∧
    (s held).vnc.park = [] ∧
    ((t.vnc.park.filter fun e => decide (e.slot = 0)) = [⟨.office, 0, 5, .counter .c7⟩] ∧
        t.atOwner .office (officeAsk .keyrollOnly)) ∧
    tableFind (s going).adir.table (i.field 0 5) = some (0, going) := by
  unfold State.dispatches State.atOwner
  decide +kernel

/-- MonthsTimeHoldoverSweepAndQuery, its first part. -/
theorem test_meets_MonthsAndTime :
    let months := line .months ([1] ++ beBytes 2 413 ++ beBytes 4 16777215)
    let none_ := line .months [0]
    let time := fun m => line .time (beBytes 4 m)
    let t : State := { toldLine .months months.body with tfu := { shop.tfu with calendar := [⟨412, 9204000⟩] } }
    let u := timed 9204600 t
    (t.dispatches .months months false ∧ monthsDecision t.tfu.calendar months = .accepted ∧
      t.tke.clockValid = false) ∧
    ((toldLine .months [0]).dispatches .months none_ false ∧ monthsDecision [] none_ ≠ .accepted) ∧
    ((toldLine .time (beBytes 4 16777216)).dispatches .time (time 16777216) false ∧
      16777215 < (time 16777216).field 0 4) ∧
    ((toldLine .time (beBytes 4 16777215)).dispatches .time (time 16777215) false ∧
      (time 16777215).field 0 4 ≤ 16777215) ∧
    (timed 5).tke.clockValid = true ∧ (time 4).field 0 4 < (timed 5).tke.minute ∧
    (u.dispatches .months months false ∧ monthsDecision u.tfu.calendar months = .accepted ∧ u.tke.clockValid = true) := by
  unfold State.dispatches
  decide +kernel

/-- MonthsTimeHoldoverSweepAndQuery: each line of the table of R41. -/
theorem test_meets_MonthsDecision :
    let i := fun n (m : Nat) => line .months ([n] ++ beBytes 2 m ++ beBytes 4 16777215)
    let full := (List.range 24).map fun k => (⟨k + 389, k⟩ : MonthEntry)
    monthsDecision [] (i 0 1) = .badField ∧ monthsDecision [] (i 1 0) = .badField ∧
      monthsDecision [⟨412, 16777215⟩] (i 1 412) = .duplicate ∧ monthsDecision [⟨412, 0⟩] (i 1 414) = .badField ∧
      monthsDecision [⟨412, 16777215⟩] (i 1 413) = .badField ∧ monthsDecision full (i 1 413) = .storeFull ∧
      monthsDecision (full.drop 1) (i 1 413) = .accepted ∧ monthsDecision [] (i 1 65535) = .accepted := by
  decide +kernel

/-- A TIME that makes an unknown month known and whose rollover loses it again sets both bits (R42). -/
theorem test_time_two_watches :
    let t : State := { toldLine .time (beBytes 4 44840) with
      tfu := { shop.tfu with calendar := [⟨412, 100⟩, ⟨413, 200⟩] }, atc := { shop.atc with status := PerBlock.fill 0 } }
    t.month = none ∧ ∃ u, exec .time t = .next u ∧ u.tfu.calendar = [⟨413, 200⟩] ∧ u.month = none ∧
      u.has .monthChanged = true ∧ u.has .monthLost = true :=
  ⟨by decide +kernel, _, rfl, by decide +kernel, by decide +kernel, by decide +kernel, by decide +kernel⟩

/-- A MONTHS that lifts the calendar level and whose rollover lets it fall again sets CALENDAR_LOW (R42). -/
theorem test_months_two_watches :
    let body := [2] ++ beBytes 2 413 ++ beBytes 4 100 ++ beBytes 2 414 ++ beBytes 4 200
    let t : State := { timed 150 (toldLine .months body) with
      tfu := { shop.tfu with calendar := [⟨412, 50⟩] }, atc := { shop.atc with status := PerBlock.fill 0 } }
    t.has .calendarLow = false ∧ ∃ u, exec .months t = .next u ∧ u.tfu.calendar = [⟨413, 100⟩, ⟨414, 200⟩] ∧
      u.has .calendarLow = true :=
  ⟨by decide +kernel, _, rfl, by decide +kernel, by decide +kernel⟩

/-- MonthsTimeHoldoverSweepAndQuery, its second part. -/
theorem test_meets_HoldoverSweepAndQuery :
    let hold := fun n => line .holdover (beBytes 2 n)
    let sweep := fun a n => line .sweep (beBytes 2 a ++ beBytes 1 n)
    let unknown : LineInstr := ⟨0x10, []⟩
    ((toldLine .holdover (beBytes 2 10081)).dispatches .holdover (hold 10081) false ∧ 10080 < (hold 10081).field 0 2) ∧
    ((toldLine .holdover (beBytes 2 10080)).dispatches .holdover (hold 10080) false ∧ (hold 10080).field 0 2 ≤ 10080 ∧
      shop.ulc.recordWrite = none ∧ shop.ulc.recordClaims = []) ∧
    ((toldLine .sweep (sweep 16383 64).body).dispatches .sweep (sweep 16383 64) false ∧
      (sweep 16383 64).field 0 2 ≤ 16383 ∧ 1 ≤ (sweep 16383 64).field 2 1 ∧ (sweep 16383 64).field 2 1 ≤ 64 ∧
      shop.ulc.reportOwed = false) ∧
    ({ shop with ulc := { shop.ulc with dispatched := some ⟨sweep 16383 64, .waiting, true⟩ } } : State).dispatches .sweep
      (sweep 16383 64) true ∧
    (16383 < (sweep 16384 1).field 0 2 ∧ (sweep 0 0).field 2 1 < 1 ∧ 64 < (sweep 0 65).field 2 1) ∧
    (toldLine .floatQuery []).dispatches .floatQuery (line .floatQuery []) false ∧
    ((told 0x10 []).inService = true ∧ (told 0x10 []).ulc.dispatched = some ⟨unknown, .waiting, false⟩ ∧
      unknown.bad = true) := by
  unfold State.dispatches
  decide +kernel

end Sys2Proof.Tests
end

section
/-! PROOF. A read claim on a meter record whose waiting hold claims all park (R2, R26): what it changes of the part, and the
statement on LOOKUP. -/

namespace Sys2Proof.Machine

/-! ### Hold claims that park (R98, R108, R115) -/

/-- A hold claim that waits will park: it is answered BUSY, and its context has not been stopped. -/
def State.parksOn (s : State) (x : HoldWait) : Prop :=
  (s.ctx x.holder).stop = none ∧ ∃ slot other, x.answer = .busy slot other

variable (s : State)

/-- A hold claim that parks changes its context's state, slot and wait, and joins the park list. -/
theorem holdAnswered_of_parksOn {x : HoldWait} (h : s.parksOn x) :
    ∃ slot other, s.holdAnswered x.holder x.answer =
      (s.mapCtx x.holder fun y => { y with state := .parked, slot := some slot, await := .nothing }).mapVnc fun v =>
        { v with park := v.park ++ [⟨x.holder, slot, s.tke.now, other⟩] } := by
  obtain ⟨hstop, slot, other, hbusy⟩ := h
  exact ⟨slot, other, by simp [State.holdAnswered, hstop, hbusy]⟩

/-- A hold claim that parks changes VNC alone. -/
theorem holdAnswered_vnc_only {x : HoldWait} (h : s.parksOn x) :
    s.holdAnswered x.holder x.answer = { s with vnc := (s.holdAnswered x.holder x.answer).vnc } := by
  obtain ⟨slot, other, e⟩ := holdAnswered_of_parksOn s h
  rw [e]; rfl

theorem ctx_mapVnc_park (f : Vnc → List ParkEntry) (k : Holder) :
    (s.mapVnc fun v => { v with park := f v }).ctx k = s.ctx k := rfl

/-- A hold claim that parks stops no context. -/
theorem holdAnswered_stop {x : HoldWait} (h : s.parksOn x) (k : Holder) :
    ((s.holdAnswered x.holder x.answer).ctx k).stop = (s.ctx k).stop := by
  obtain ⟨slot, other, e⟩ := holdAnswered_of_parksOn s h
  rw [e, ctx_mapVnc_park, ctx_mapCtx]
  split
  · next hk => rw [hk]
  · rfl

/-- A hold claim that parks leaves the others to park. -/
theorem parksOn_holdAnswered {x y : HoldWait} (hx : s.parksOn x) (hy : s.parksOn y) :
    (s.holdAnswered x.holder x.answer).parksOn y :=
  ⟨(holdAnswered_stop s hx y.holder).trans hy.1, hy.2⟩

/-! ### What the claims that park leave unchanged -/

theorem answerEach_vnc_only (l : List HoldWait) (h : ∀ x ∈ l, s.parksOn x) :
    s.answerEach l = { s with vnc := (s.answerEach l).vnc } := by
  induction l generalizing s with
  | nil => rfl
  | cons x l ih =>
    obtain ⟨hx, hl⟩ := List.forall_mem_cons.1 h
    have hrest := ih (s.holdAnswered x.holder x.answer) fun y hy => parksOn_holdAnswered s hx (hl y hy)
    change (s.holdAnswered x.holder x.answer).answerEach l =
      { s with vnc := ((s.holdAnswered x.holder x.answer).answerEach l).vnc }
    generalize (s.holdAnswered x.holder x.answer).answerEach l = t at hrest ⊢
    rw [hrest, holdAnswered_vnc_only s hx]

/-- Parking stores no outcome, so no store of one is marked (R146). -/
theorem answerAll_vnc_only (l : List HoldWait) (h : ∀ x ∈ l, s.parksOn x) :
    s.answerAll l = { s with vnc := (s.answerAll l).vnc } := by
  have heach := answerEach_vnc_only s l h
  have htills : (s.answerEach l).tlu.tills = s.tlu.tills := by rw [heach]
  have hall : s.answerAll l = s.answerEach l := by
    unfold State.answerAll
    split
    · rfl
    · exact markStores_of_tills s _ htills
  rw [hall]
  exact heach

theorem answerHolds_adir_vnc_only (p : HoldWait → Bool) (h : ∀ x ∈ s.adir.waiting, p x = true → s.parksOn x) :
    s.answerHolds p = { s with adir := (s.answerHolds p).adir, vnc := (s.answerHolds p).vnc } := by
  unfold State.answerHolds
  rw [answerAll_vnc_only]
  · rfl
  · intro x hx
    obtain ⟨hmem, hp⟩ := List.mem_filter.1 hx
    exact h x hmem hp

/-- A claim on a record whose waiting hold claims park changes ADIR and VNC alone (R2). -/
theorem claimMeter_adir_vnc_only (m : Nat) (h : ∀ x ∈ s.adir.waiting, x.meter = m → s.parksOn x) :
    s.claimMeter m = { s with adir := (s.claimMeter m).adir, vnc := (s.claimMeter m).vnc } :=
  answerHolds_adir_vnc_only (s.settleMeter m) _ fun x hx hm => h x hx (of_decide_eq_true hm)

/-- A claim changes no record. -/
theorem claimMeter_table (m : Nat) : (s.claimMeter m).adir.table = s.adir.table := by simp

/-! ### The answer of a LOOKUP (R26) -/

theorem meterOk_of_range {m : Nat} (hlo : 1 ≤ m) (hhi : m ≤ 99999999999) : meterOk m = true := by
  simp [meterOk, maxMeter, hlo, hhi]

theorem lookupReply_unknown {t : List (Nat × MeterRecord)} {m : Nat} (hm : meterOk m = true)
    (h : tableFind t m = none) : lookupReply t m = ⟨.noMeter, []⟩ := by
  simp [lookupReply, hm, h, Reply.plain]

theorem lookupReply_found {t : List (Nat × MeterRecord)} {m slot : Nat} {r : MeterRecord} (hm : meterOk m = true)
    (h : tableFind t m = some (slot, r)) : lookupReply t m = ⟨.done, r.summary slot leBytes⟩ := by
  simp [lookupReply, hm, h]

theorem exec_lookup (r : Holder) : exec (.lookup r) s = execLookup r s := rfl

/-- A LOOKUP that is served makes its claim, and its reply waits for the bus (R2, R26, R190). -/
theorem exec_lookup_serving (r : Holder) (q : Request) (hserving : s.serving .lookup r q)
    (hparks : ∀ x ∈ s.adir.waiting, x.meter = q.meter → s.parksOn x) :
    exec (.lookup r) s = .next
      { s with
        adir := (s.claimMeter q.meter).adir
        vnc := ((s.taken q true).claimMeter q.meter).vnc
        rgi := s.rgi.replyDue r q .nobody (lookupReply s.adir.table q.meter) } := by
  have hclaim := claimMeter_adir_vnc_only (s.taken q true) q.meter hparks
  have hrgi : ((s.taken q true).claimMeter q.meter).rgi = (s.taken q true).rgi := by rw [hclaim]
  rw [exec_lookup, execLookup, whenInService, if_pos hserving.1, serve_serving s .lookup r q _ hserving hrgi]
  dsimp only
  rw [hclaim]
  simp only [taken_adir, claimMeter_adir]
  rfl

end Sys2Proof.Machine

namespace Sys2Proof.Proofs

open Sys2Proof Sys2Proof.Machine

/-- Settles O37: the claim of a LOOKUP parks the hold claims that wait for the record, which touches ADIR and VNC alone. -/
theorem lookupAnswersTheSummary : Obligations.LookupAnswersTheSummary := by
  intro s r q hserving hlo hhi hwaiting
  have hm : meterOk q.meter = true := meterOk_of_range hlo hhi
  refine ⟨_, exec_lookup_serving s r q hserving hwaiting, ?_, claimMeter_table s q.meter, ?_, rfl⟩
  · cases hfind : tableFind s.adir.table q.meter with
    | none => rw [lookupReply_unknown hm hfind]
    | some found => rw [lookupReply_found hm hfind]
  · intro hnone
    dsimp only
    rw [claimMeter_of_none (s.taken q true) q.meter (by simpa using hnone)]
    rfl

end Sys2Proof.Proofs
end

section
/-! PROOF. The enable words and SUMMARY_ENABLE (R199, R201): what a write and a read of one does, which positions name a
status, and when the summary bits and ATTN are 1. -/

namespace Sys2Proof.Machine

/-! ### Events and reads of a live part (R182, R205) -/

theorem live_iff {s : State} : s.live = true ↔ s.atc.held = none ∧ s.atc.phase ≠ .clearing := by
  simp [State.live]

theorem whenLive_of_live {s : State} (f : State → State) (h : s.live = true) : whenLive f s = .next (f s) := by
  rw [whenLive, if_pos h]

theorem readWord_of_live {s : State} (h : s.live = true) (index : Nat) :
    s.readWord index = some (BitVec.ofNat 32 (s.liveWord index)) := by
  obtain ⟨hheld, hphase⟩ := live_iff.1 h
  simp [State.readWord, hheld, hphase]

/-- A block's enable word stands at 0x20 plus the block's position (11.2). -/
theorem readWord_enable {s : State} (h : s.live = true) (b : Block) :
    s.readWord (0x20 + b.pos) = some (s.atc.enable.get b) := by
  have hword : s.liveWord (0x20 + b.pos) = (s.atc.enable.get b).toNat := by cases b <;> rfl
  rw [readWord_of_live h, hword, BitVec.ofNat_toNat, BitVec.setWidth_eq]

/-- SUMMARY_ENABLE stands at 0x27 (11.2). -/
theorem readWord_summaryEnable {s : State} (h : s.live = true) : s.readWord 0x27 = some s.atc.summaryEnable := by
  have hword : s.liveWord 0x27 = s.atc.summaryEnable.toNat := rfl
  rw [readWord_of_live h, hword, BitVec.ofNat_toNat, BitVec.setWidth_eq]

/-! ### The writes (R199, R201) -/

theorem exec_enableWrite_of_live {s : State} (h : s.live = true) (b : Block) (v : Word) :
    exec (.enableWrite b v) s = .next (s.setEnable b v) :=
  whenLive_of_live (fun s => s.setEnable b v) h

theorem exec_summaryEnableWrite_of_live {s : State} (h : s.live = true) (v : Word) :
    exec (.summaryEnableWrite v) s = .next (s.setSummaryEnable v) :=
  whenLive_of_live (fun s => s.setSummaryEnable v) h

theorem setEnable_live (s : State) (b : Block) (v : Word) : (s.setEnable b v).live = s.live := live_of_eq rfl rfl

theorem setEnable_status (s : State) (b : Block) (v : Word) : (s.setEnable b v).atc.status = s.atc.status := rfl

theorem setEnable_enable_self (s : State) (b : Block) (v : Word) :
    (s.setEnable b v).atc.enable.get b = v &&& namedBits b := PerBlock.get_set_self _ b _

/-! ### The positions that name a status or a block (11.2) -/

/-- The status bits of a block (the table of 10.1). -/
def statusesOf : Block → List Status
  | .ring => [.initDone, .initFault, .stopped, .writeRefused, .busFault] ++ Holder.all.map Status.ringFault
  | .vend => [.cancelLate, .outcomeStored]
  | .float => [.grantTaken, .floatLow, .floatEmpty, .recoveryDone]
  | .tariff => [.disarmed, .applied, .calendarLow, .monthChanged, .monthLost]
  | .time => [.clockValid, .clockBack, .clockEnd, .engineHalted, .holdoverPassed]
  | .till => Counter.all.flatMap fun c => [.drawerStuck c, .drawerLong c, .drawerForced c, .lateCount c]
  | .link => [.enteredOff, .enteredDetect, .enteredTrain, .enteredUp, .enteredSlip, .backlog, .serviceChanged]

theorem block_of_mem_statusesOf (b : Block) : ∀ x ∈ statusesOf b, x.block = b := by cases b <;> decide

/-- Every status bit stands among those of its block. -/
theorem mem_statusesOf_block (x : Status) : x ∈ statusesOf x.block := by
  cases x with
  | ringFault r => simp [statusesOf, Status.block, Holder.mem_all]
  | drawerStuck c | drawerLong c | drawerForced c | lateCount c =>
    simp [statusesOf, Status.block, Counter.mem_all]
  | _ => simp [statusesOf, Status.block]

theorem mem_statusesOf (b : Block) (x : Status) : x ∈ statusesOf b ↔ x.block = b := by
  constructor
  · exact block_of_mem_statusesOf b x
  · rintro rfl
    exact mem_statusesOf_block x

/-- The masks of some status bits in one word. -/
def maskAll (l : List Status) : Word := l.foldr (fun x w => x.mask ||| w) 0

theorem getLsbD_maskAll (l : List Status) (n : Nat) : (maskAll l).getLsbD n = true ↔ ∃ x ∈ l, x.pos = n := by
  induction l with
  | nil => simp [maskAll]
  | cons x l ih =>
    change (x.mask ||| maskAll l).getLsbD n = true ↔ _
    rw [BitVec.getLsbD_or, Bool.or_eq_true, ih, Status.mask_bit, decide_eq_true_iff, List.exists_mem_cons_iff, eq_comm]

/-- The word of named positions that the model writes out is that of the block's status bits. -/
theorem namedBits_eq_maskAll (b : Block) : namedBits b = maskAll (statusesOf b) := by cases b <;> decide

/-- A position is named when a status bit of the block stands there. -/
theorem namedBits_bit (b : Block) (n : Nat) :
    (namedBits b).getLsbD n = true ↔ ∃ x : Status, x.block = b ∧ x.pos = n := by
  simp only [namedBits_eq_maskAll, getLsbD_maskAll, mem_statusesOf]

theorem Block.mem_all (b : Block) : b ∈ Block.all := by cases b <;> decide

theorem Block.exists_pos_eq (n : Nat) : (∃ b : Block, b.pos = n) ↔ n < 7 := by
  constructor
  · rintro ⟨b, rfl⟩
    cases b <;> decide
  · intro h
    have hlist : ∀ n < 7, ∃ b ∈ Block.all, b.pos = n := by decide
    obtain ⟨b, -, hpos⟩ := hlist n h
    exact ⟨b, hpos⟩

/-- The mask of SUMMARY_ENABLE keeps the seven positions that name a block. -/
theorem summaryMask_bit (v : Word) (n : Nat) :
    (v &&& (0x7F : Word)).getLsbD n = true ↔ v.getLsbD n = true ∧ ∃ b : Block, b.pos = n := by
  have hmask : (0x7F : Word).getLsbD n = decide (n < 7) := by
    have hlow : ∀ n < 32, (0x7F : Word).getLsbD n = decide (n < 7) := by decide
    by_cases h : n < 32
    · exact hlow n h
    · rw [BitVec.getLsbD_of_ge _ _ (by omega), eq_comm, decide_eq_false_iff_not]
      omega
  rw [BitVec.getLsbD_and, Bool.and_eq_true, hmask, decide_eq_true_iff, Block.exists_pos_eq]

/-! ### The summary and ATTN (R200, R201) -/

theorem summaryBit_iff (s : State) (b : Block) :
    s.summaryBit b = true ↔
      ∃ n, (s.atc.status.get b).getLsbD n = true ∧ (s.atc.enable.get b).getLsbD n = true := by
  simp only [State.summaryBit, decide_eq_true_iff, ne_eq, BitVec.ofNat_eq_ofNat, BitVec.zero_iff_eq_false,
    BitVec.getLsbD_and, not_forall, Bool.not_eq_false, Bool.and_eq_true]

/-- After an enable write the summary bit asks for a named status, set and enabled by the word written. -/
theorem summaryBit_setEnable (s : State) (b : Block) (v : Word) :
    (s.setEnable b v).summaryBit b = true ↔
      ∃ x : Status, x.block = b ∧ v.getLsbD x.pos = true ∧ s.has x = true := by
  simp only [summaryBit_iff, setEnable_status, setEnable_enable_self, BitVec.getLsbD_and, Bool.and_eq_true,
    namedBits_bit]
  constructor
  · rintro ⟨_, hset, henabled, x, rfl, rfl⟩
    exact ⟨x, rfl, henabled, hset⟩
  · rintro ⟨x, rfl, henabled, hset⟩
    exact ⟨x.pos, hset, henabled, x, rfl, rfl⟩

theorem attn_of_live {s : State} (h : s.live = true) :
    s.attn = true ↔ ∃ b, s.summaryBit b = true ∧ s.atc.summaryEnable.getLsbD b.pos = true := by
  simp [State.attn, h, Block.mem_all]

theorem attn_of_not_live {s : State} (h : s.live = false) : s.attn = false := by
  simp [State.attn, h]

theorem live_of_held_or_clearing {s : State} (h : s.atc.held.isSome = true ∨ s.atc.phase = .clearing) :
    s.live = false := by
  rw [Bool.eq_false_iff, Ne, live_iff]
  rintro ⟨hheld, hphase⟩
  rcases h with h | h
  · simp [hheld] at h
  · exact hphase h

end Sys2Proof.Machine

namespace Sys2Proof.Proofs

open Sys2Proof Sys2Proof.Machine

/-- Settles O17: the write keeps the named positions alone, so a bit that counts toward the summary names a status. -/
theorem enableWritesReplaceTheWord : Obligations.EnableWritesReplaceTheWord := by
  intro s b v hlive
  have hread : (s.setEnable b v).readWord (0x20 + b.pos) = some (v &&& namedBits b) := by
    rw [readWord_enable ((setEnable_live s b v).trans hlive), setEnable_enable_self]
  exact ⟨s.setEnable b v, exec_enableWrite_of_live hlive b v, rfl, namedBits_bit b, hread, summaryBit_setEnable s b v,
    fun x => ⟨has_congr x (setEnable_status s b v), has_raise_self _ x⟩⟩

/-- Settles O18: two words share a bit when their conjunction is not 0, and ATTN asks the summary bit of each block. -/
theorem attnFollowsTheWords : Obligations.AttnFollowsTheWords := by
  intro s
  exact ⟨fun v hlive => ⟨exec_summaryEnableWrite_of_live hlive v, summaryMask_bit v⟩, readWord_summaryEnable,
    summaryBit_iff s, attn_of_live, fun h => attn_of_not_live (live_of_held_or_clearing h)⟩

end Sys2Proof.Proofs
end

section
/-! PROOF. What the pass found of the tills (R70), which no shared operation of a running part changes, and the frame of the
window's pulses, the ring events, and the requests and events of the counters. -/

namespace Sys2Proof.Machine

variable (s : State)

/-! ### What the pass found of the tills -/

@[simp] theorem raise_tluBefore (b : Status) : (s.raise b).tlu.before = s.tlu.before := rfl

@[simp] theorem settleTill_tluBefore (c : Counter) : (s.settleTill c).tlu.before = s.tlu.before := by
  simp [State.settleTill, State.readOutcome, Tlu.outcomeRead, Tlu.stored]

@[simp] theorem writeOutcome_tluBefore (c : Counter) (o : Option Outcome) :
    (s.writeOutcome c o).tlu.before = s.tlu.before := rfl

@[simp] theorem removeOutcome_tluBefore (c : Counter) (o : Outcome) :
    (s.removeOutcome c o).tlu.before = s.tlu.before := rfl

@[simp] theorem storeOutcome_tluBefore (c : Counter) (o : Outcome) :
    (s.storeOutcome c o).tlu.before = s.tlu.before := by
  unfold State.storeOutcome
  dsimp only
  split <;> simp

@[simp] theorem ctxUndelivered_tluBefore (h : Holder) : (s.ctxUndelivered h).tlu.before = s.tlu.before := by
  unfold State.ctxUndelivered
  dsimp only
  rw [finish_tlu, mapCtx_tlu]
  split <;> simp

@[simp] theorem undeliver_tluBefore (r : Holder) (o : ReplyOwner) : (s.undeliver r o).tlu.before = s.tlu.before := by
  cases o with
  | context => exact ctxUndelivered_tluBefore s r
  | nobody | outcome | closing => rfl

@[simp] theorem delivered_tluBefore (r : Holder) (o : ReplyOwner) : (s.delivered r o).tlu.before = s.tlu.before := by
  cases o with
  | context => simp [State.delivered]
  | nobody | closing => rfl
  | outcome c o =>
    simp only [State.delivered]
    split <;> simp

@[simp] theorem failAccess_tluBefore (r : Holder) : (s.failAccess r).tlu.before = s.tlu.before := by
  unfold State.failAccess
  dsimp only
  split <;> simp

@[simp] theorem access_tluBefore (r : Holder) (a : Access) : (s.access r a).tlu.before = s.tlu.before := by
  unfold State.access
  split <;> simp

@[simp] theorem lookAt_tluBefore (r : Holder) : (State.lookAt r s).tlu.before = s.tlu.before := by
  unfold State.lookAt
  dsimp only
  split <;> simp

@[simp] theorem putReply_tluBefore (r : Holder) (o : ReplyOwner) (y : Reply) :
    (s.putReply r o y).tlu.before = s.tlu.before := by
  unfold State.putReply
  split
  · simp
  · split <;> simp

@[simp] theorem detach_tluBefore (r : Holder) : (State.detach r s).tlu.before = s.tlu.before := by
  unfold State.detach
  split
  · rfl
  · dsimp only
    split <;> simp

@[simp] theorem ctxReply_tluBefore (h : Holder) (y : Reply) : (s.ctxReply h y).tlu.before = s.tlu.before := by
  unfold State.ctxReply
  dsimp only
  split <;> simp

@[simp] theorem refuseHeld_tluBefore (h : Holder) (y : Reply) : (s.refuseHeld h y).tlu.before = s.tlu.before := by
  simp [State.refuseHeld]

@[simp] theorem endStopped_tluBefore (h : Holder) : (s.endStopped h).tlu.before = s.tlu.before := by
  simp [State.endStopped]

@[simp] theorem windBack_tluBefore (h : Holder) (m : StopMark) : (s.windBack h m).tlu.before = s.tlu.before := by
  unfold State.windBack
  dsimp only
  split
  · rfl
  · split
    · cases h <;> simp
    · simp

@[simp] theorem cancelCtx_tluBefore (h : Holder) : (s.cancelCtx h).tlu.before = s.tlu.before := by
  unfold State.cancelCtx
  split <;> simp

@[simp] theorem engineNotice_tluBefore (h : Holder) : (State.engineNotice h s).tlu.before = s.tlu.before := by
  unfold State.engineNotice
  split <;> simp

@[simp] theorem abandon_tluBefore (h : Holder) (w : CtxState) : (s.abandon h w).tlu.before = s.tlu.before := by
  cases h with
  | counter c =>
    simp only [State.abandon]
    split <;> simp
  | office =>
    change (s.abandonOffice w).tlu.before = s.tlu.before
    unfold State.abandonOffice
    split <;> simp

@[simp] theorem tillPartClaim_tluBefore (c : Counter) : (s.tillPartClaim c).tlu.before = s.tlu.before := by
  unfold State.tillPartClaim
  split
  · rfl
  · dsimp only
    split <;> simp [mapTill_tlu]

@[simp] theorem takeFloat_tluBefore (k : FloatClaim) : (s.takeFloat k).tlu.before = s.tlu.before := by
  unfold State.takeFloat
  dsimp only
  (repeat' split) <;> simp

theorem drainFloat_tluBefore (n : Nat) : (drainFloat n s).tlu.before = s.tlu.before := by
  induction n generalizing s with
  | zero => rfl
  | succ n ih =>
    unfold drainFloat
    split
    · rw [ih, takeFloat_tluBefore, mapFlu_tlu]
    · rfl

@[simp] theorem pumpFloat_tluBefore : s.pumpFloat.tlu.before = s.tlu.before := by
  obtain ⟨n, m, h⟩ := pumpFloat_spec s
  rw [h]
  exact drainFloat_tluBefore s n

@[simp] theorem forHolders_tluBefore (f : Holder → State → State) (hf : ∀ h t, (f h t).tlu.before = t.tlu.before) :
    (forHolders f s).tlu.before = s.tlu.before :=
  forHolders_keeps (P := fun t => t.tlu.before = s.tlu.before) f (fun h t ht => (hf h t).trans ht) s rfl

end Sys2Proof.Machine
end

section
/-! PROOF. The front of the part: what the window's pulses, the ring events, and the requests and events of the counters leave
unchanged. -/

namespace Sys2Proof.Machine

/-- From `s` to `t` only RGI, VNC, the tills, the lines, and the status and enable words may have changed. -/
structure State.front (s t : State) : Prop where
  adir : t.adir = s.adir
  tfu : t.tfu = s.tfu
  flu : t.flu = s.flu
  tke : t.tke = s.tke
  ulc : t.ulc = s.ulc
  tillsBefore : t.tlu.before = s.tlu.before
  held : t.atc.held = s.atc.held
  phase : t.atc.phase = s.atc.phase
  pending : t.pending = s.pending

variable {s t u : State}

theorem State.front.refl (s : State) : s.front s := ⟨rfl, rfl, rfl, rfl, rfl, rfl, rfl, rfl, rfl⟩

theorem State.front.trans (h : s.front t) (k : t.front u) : s.front u where
  adir := k.adir.trans h.adir
  tfu := k.tfu.trans h.tfu
  flu := k.flu.trans h.flu
  tke := k.tke.trans h.tke
  ulc := k.ulc.trans h.ulc
  tillsBefore := k.tillsBefore.trans h.tillsBefore
  held := k.held.trans h.held
  phase := k.phase.trans h.phase
  pending := k.pending.trans h.pending

theorem front_ite {p : Prop} [Decidable p] (ht : s.front t) (hu : s.front u) : s.front (if p then t else u) := by
  split <;> assumption

/-! ### The shared operations at the front -/

theorem raise_front (s : State) (b : Status) : s.front (s.raise b) := ⟨rfl, rfl, rfl, rfl, rfl, rfl, rfl, rfl, rfl⟩
theorem clearBits_front (s : State) (b : Block) (v : Word) : s.front (s.clearBits b v) :=
  ⟨rfl, rfl, rfl, rfl, rfl, rfl, rfl, rfl, rfl⟩
theorem mapRgi_front (s : State) (f : Rgi → Rgi) : s.front (s.mapRgi f) := ⟨rfl, rfl, rfl, rfl, rfl, rfl, rfl, rfl, rfl⟩
theorem mapRing_front (s : State) (r : Holder) (f : Ring → Ring) : s.front (s.mapRing r f) := mapRgi_front s _
theorem mapLines_front (s : State) (c : Counter) (f : LinePair → LinePair) : s.front (s.mapLines c f) :=
  ⟨rfl, rfl, rfl, rfl, rfl, rfl, rfl, rfl, rfl⟩
theorem drawn_front (s : State) : s.front s.drawn := ⟨rfl, rfl, rfl, rfl, rfl, rfl, rfl, rfl, rfl⟩
theorem raiseIf_front (s : State) (p : Bool) (b : Status) : s.front (s.raiseIf p b) :=
  front_ite (raise_front s b) (.refl s)
theorem lookAt_front (s : State) (r : Holder) : s.front (State.lookAt r s) := by constructor <;> simp
theorem detach_front (s : State) (r : Holder) : s.front (State.detach r s) := by constructor <;> simp
theorem settleTill_front (s : State) (c : Counter) : s.front (s.settleTill c) := by constructor <;> simp
theorem undeliver_front (s : State) (r : Holder) (o : ReplyOwner) : s.front (s.undeliver r o) := by
  constructor <;> simp
theorem failAccess_front (s : State) (r : Holder) : s.front (s.failAccess r) := by constructor <;> simp
theorem putReply_front (s : State) (r : Holder) (o : ReplyOwner) (y : Reply) : s.front (s.putReply r o y) := by
  constructor <;> simp
theorem ctxReply_front (s : State) (h : Holder) (y : Reply) : s.front (s.ctxReply h y) := by constructor <;> simp
theorem checkStopping_front (s : State) : s.front s.checkStopping := by constructor <;> simp
theorem enterStopped_front (s : State) : s.front s.enterStopped := ⟨rfl, rfl, rfl, rfl, rfl, rfl, rfl, rfl, rfl⟩
theorem setMask_front (s : State) (m : BitVec 9) : s.front (s.setMask m) := mapRgi_front s _
theorem stopPolls_front (s : State) : s.front s.stopPolls := mapRgi_front s _
theorem popBus_front (s : State) : s.front s.popBus := mapRgi_front s _
theorem refuse_front (s : State) : s.front s.refuse := raise_front s _
theorem markStores_front (s t : State) : t.front (s.markStores t) := by constructor <;> simp
theorem taken_front (s : State) (q : Request) (a : Bool) : s.front (s.taken q a) := by constructor <;> simp

theorem forHolders_front (f : Holder → State → State) (hf : ∀ h (t : State), t.front (f h t)) (s : State) :
    s.front (forHolders f s) :=
  forHolders_keeps (P := fun t => s.front t) f (fun h t ht => ht.trans (hf h t)) s (.refl s)

/-- An owner at the front that answers a request leaves the other units alone. -/
theorem serve_front (s : State) (k : ReqKind) (r : Holder) (f : Request → State → State × ReplyOwner × Reply)
    (hf : ∀ q (t : State), t.front (f q t).1) : s.front (s.serve k r f) := by
  unfold State.serve
  split
  · exact .refl s
  · next q attached _ =>
    refine ((taken_front s q attached).trans (hf q _)).trans ?_
    unfold State.answerRequest
    exact front_ite (putReply_front _ _ _ _) (undeliver_front _ _ _)

theorem serveCounter_front (s : State) (k : ReqKind) (f : Counter → Request → State → State × ReplyOwner × Reply)
    (hf : ∀ c q (t : State), t.front (f c q t).1) : s.front (s.serveCounter k f) := by
  refine serve_front s k .office _ fun q t => ?_
  split
  · exact .refl t
  · exact hf _ q t

/-! ### The window's pulses and writes -/

theorem initFails_front (s : State) (reason : InitReason) (ring : Nat) : s.front (s.initFails reason ring) :=
  ⟨rfl, rfl, rfl, rfl, rfl, rfl, rfl, rfl, rfl⟩

theorem initPulse_front (s : State) (m : BitVec 9) : s.front (s.initPulse m) := by
  unfold State.initPulse State.beginInit
  repeat' apply front_ite
  all_goals exact ⟨rfl, rfl, rfl, rfl, rfl, rfl, rfl, rfl, rfl⟩

theorem startPulse_front (s : State) (m : BitVec 9) : s.front (s.startPulse m) := by
  unfold State.startPulse
  split
  · exact ((setMask_front s m).trans (mapRgi_front _ _)).trans (forHolders_front _ (fun h t => lookAt_front t h) _)
  · exact refuse_front s

theorem stopPulse_front (s : State) (m : BitVec 9) : s.front (s.stopPulse m) := by
  unfold State.stopPulse
  split
  · exact (((setMask_front s m).trans (stopPolls_front _)).trans (mapRgi_front _ _)).trans (checkStopping_front _)
  · exact (setMask_front s m).trans (enterStopped_front _)
  · exact refuse_front s

theorem demandPulse_front (s : State) (m : BitVec 9) : s.front (s.demandPulse m) := by
  unfold State.demandPulse
  split
  · exact (setMask_front s m).trans (forHolders_front _ (fun h t => front_ite (lookAt_front t h) (.refl t)) _)
  · exact refuse_front s

theorem clearRingFault_front (s : State) (r : Holder) : s.front (State.clearRingFault r s) := by
  unfold State.clearRingFault
  split
  · exact ((clearBits_front s _ _).trans (mapRing_front _ r _)).trans (lookAt_front _ r)
  · exact .refl s

theorem clearBusFault_front (s : State) : s.front s.clearBusFault := by
  unfold State.clearBusFault
  exact front_ite ((clearBits_front s _ _).trans (enterStopped_front _)) (clearBits_front s _ _)

theorem writeStatus_front (s : State) (b : Block) (v : Word) : s.front (s.writeStatus b v) := by
  cases b with
  | ring =>
    have hfaults := forHolders_front (fun r s => if v.getLsbD (8 + r.index) then s.clearRingFault r else s)
      (fun r t => front_ite (clearRingFault_front t r) (.refl t)) s
    unfold State.writeStatus
    dsimp only
    generalize forHolders _ s = t at hfaults ⊢
    have hbus : s.front (if v.getLsbD 4 then t.clearBusFault else t) :=
      front_ite (hfaults.trans (clearBusFault_front t)) hfaults
    (repeat' apply front_ite) <;> exact hbus.trans (clearBits_front _ _ _)
  | vend | float | tariff | time | till | link => exact clearBits_front s _ v

theorem writeControl_front (s : State) (v : Word) : s.front (s.writeControl v) := by
  unfold State.writeControl
  dsimp only
  split
  · exact .refl s
  · exact initPulse_front s _
  · exact startPulse_front s _
  · exact stopPulse_front s _
  · exact demandPulse_front s _
  · exact raise_front s _

end Sys2Proof.Machine
end

section
/-! PROOF. The commands at the front of the part, each with what it leaves unchanged. -/

namespace Sys2Proof.Machine

/-- Commands at the front of the part: they touch RGI, VNC, the tills, the lines, and the status and enable words alone. -/
def atFront : Instr → Bool
  | .init _ | .start _ | .stop _ | .demand _ | .ringFaultClear _ | .busFaultClear | .statusWrite _ _ | .enableWrite _ _
  | .summaryEnableWrite _ | .linesReset | .initBlockReadError | .pollTimerExpiry _ | .ringLook _ _ | .badRequestKind _
  | .busFault | .ringFault _ | .tillOpen | .tillPause | .tillResume | .tillClose | .tillRead | .outcomeTake | .lineSet
  | .lineRead | .clockRead | .holdTimeout _ | .drwInChange _ _ | .levelCounted _ | .pulseEnd _ | .stuckTimerExpiry _
  | .longTimerExpiry _ => true
  | _ => false

variable {s t : State}

theorem whenLive_front {f : State → State} (h : whenLive f s = .next t) (hf : s.front (f s)) : s.front t :=
  whenLive_next (P := fun t => s.front t) h (.refl s) fun _ => hf

theorem whenInService_front {f : State → State} (h : whenInService f s = .next t) (hf : s.front (f s)) : s.front t :=
  whenInService_next (P := fun t => s.front t) h (.refl s) fun _ => hf

theorem moveTill_front (s : State) (c : Counter) (a b : TillState) : s.front (s.moveTill c a b).1 := by
  unfold State.moveTill
  dsimp only
  split
  · exact (settleTill_front s c).trans ⟨rfl, rfl, rfl, rfl, rfl, rfl, rfl, rfl, rfl⟩
  · exact settleTill_front s c

theorem lineRead_front (s : State) (c : Counter) : s.front (s.lineRead c) :=
  front_ite ⟨rfl, rfl, rfl, rfl, rfl, rfl, rfl, rfl, rfl⟩ (.refl s)

theorem popBus_mapRing_front (s : State) (r : Holder) (f : Ring → Ring) : s.front (s.popBus.mapRing r f) :=
  (popBus_front s).trans (mapRing_front _ r f)

theorem countLevel_front (s : State) (c : Counter) : s.front (s.countLevel c) := by
  constructor <;> try simp
  unfold State.countLevel State.drawerOpening State.drawerClosing
  dsimp only
  (repeat' split) <;> rfl

theorem execRingLook_front (r : Holder) (d : List Byte) (he : execRingLook r d s = .next t) : s.front t := by
  unfold execRingLook at he
  split at he
  · refine whenInService_front he (front_ite (front_ite (front_ite ?_ ?_) (popBus_front s)) (.refl s))
    · exact popBus_mapRing_front s r _
    · exact popBus_mapRing_front s r _
  · cases he

theorem execBadRequestKind_front (r : Holder) (he : execBadRequestKind r s = .next t) : s.front t := by
  refine whenInService_front he ?_
  split
  · exact taken_front s _ false
  · split
    · exact front_ite (putReply_front s _ _ _) (.refl s)
    · exact .refl s

theorem execTillOpen_front (he : execTillOpen s = .next t) : s.front t := by
  refine whenInService_front he (serveCounter_front s _ _ fun c q t => ?_)
  dsimp only
  split
  · exact .refl t
  · split
    · exact settleTill_front t c
    · exact (settleTill_front t c).trans ⟨rfl, rfl, rfl, rfl, rfl, rfl, rfl, rfl, rfl⟩

theorem execTillClose_front (he : execTillClose s = .next t) : s.front t := by
  refine whenInService_front he (serveCounter_front s _ _ fun c q t => ?_)
  dsimp only
  split
  · exact settleTill_front t c
  · split
    · exact settleTill_front t c
    · exact (settleTill_front t c).trans ⟨rfl, rfl, rfl, rfl, rfl, rfl, rfl, rfl, rfl⟩

theorem execOutcomeTake_front (he : execOutcomeTake s = .next t) : s.front t := by
  refine whenInService_front he (serveCounter_front s _ _ fun c q t => ?_)
  split <;> exact settleTill_front t c

theorem execLineSet_front (he : execLineSet s = .next t) : s.front t := by
  refine whenInService_front he (serveCounter_front s _ _ fun c q t => ?_)
  dsimp only
  split
  · exact .refl t
  · exact ((drawn_front t).trans (mapLines_front _ c _)).trans (lineRead_front _ c)

theorem execHoldTimeout_front (h : Holder) (he : execHoldTimeout h s = .next t) : s.front t := by
  refine whenInService_front he ?_
  split
  · exact .refl s
  · have hunpark : s.front (s.unpark h) := by constructor <;> simp
    exact hunpark.trans (ctxReply_front _ h _)

/-- A command at the front leaves the other units alone. -/
theorem exec_front {c : Instr} (hc : atFront c = true) (he : exec c s = .next t) : s.front t := by
  cases c with
  | init m => exact whenLive_front (f := fun s => _) he (initPulse_front s m)
  | start m => exact whenLive_front (f := fun s => _) he (startPulse_front s m)
  | stop m => exact whenLive_front (f := fun s => _) he (stopPulse_front s m)
  | demand m => exact whenLive_front (f := fun s => _) he (demandPulse_front s m)
  | ringFaultClear r => exact whenLive_front (f := fun s => _) he (clearRingFault_front s r)
  | busFaultClear => exact whenLive_front (f := fun s => _) he (clearBusFault_front s)
  | statusWrite b v => exact whenLive_front (f := fun s => _) he (writeStatus_front s b v)
  | enableWrite b v =>
    exact whenLive_front (f := fun s => s.setEnable b v) he ⟨rfl, rfl, rfl, rfl, rfl, rfl, rfl, rfl, rfl⟩
  | summaryEnableWrite v =>
    exact whenLive_front (f := fun s => s.setSummaryEnable v) he ⟨rfl, rfl, rfl, rfl, rfl, rfl, rfl, rfl, rfl⟩
  | linesReset => exact whenLive_front (f := State.linesReset) he ⟨rfl, rfl, rfl, rfl, rfl, rfl, rfl, rfl, rfl⟩
  | initBlockReadError =>
    exact whenInService_front (f := fun s => _) he
      (front_ite ((popBus_front s).trans (initFails_front _ _ _)) (.refl s))
  | pollTimerExpiry r =>
    exact whenInService_front (f := fun s => _) he
      (front_ite ((mapRing_front s r _).trans (lookAt_front _ r)) (.refl s))
  | ringLook r d => exact execRingLook_front r d he
  | badRequestKind r => exact execBadRequestKind_front r he
  | busFault =>
    exact whenInService_front (f := fun s => _) he (front_ite (.refl s)
      (((((stopPolls_front s).trans (mapRgi_front _ _)).trans (raise_front _ _)).trans
        (forHolders_front _ (fun r t => detach_front t r) _)).trans (markStores_front s _)))
  | ringFault r =>
    exact whenInService_front (f := fun s => _) he
      (front_ite ((popBus_front s).trans (failAccess_front _ r)) (.refl s))
  | tillOpen => exact execTillOpen_front he
  | tillPause | tillResume =>
    exact whenInService_front (f := fun s => _) he
      (serveCounter_front s _ _ fun c _ t => moveTill_front t c _ _)
  | tillClose => exact execTillClose_front he
  | tillRead =>
    exact whenInService_front (f := fun s => _) he
      (serveCounter_front s _ _ fun c _ t => by constructor <;> simp)
  | outcomeTake => exact execOutcomeTake_front he
  | lineSet => exact execLineSet_front he
  | lineRead =>
    exact whenInService_front (f := fun s => _) he (serveCounter_front s _ _ fun c _ t => lineRead_front t c)
  | clockRead => exact whenInService_front (f := fun s => _) he (serve_front s _ _ _ fun _ t => .refl t)
  | holdTimeout h => exact execHoldTimeout_front h he
  | drwInChange c level =>
    obtain rfl := Host.Outcome.next.inj he
    exact front_ite (mapLines_front s c _) (mapLines_front s c _)
  | levelCounted c =>
    exact whenLive_front (f := fun s => _) he (front_ite (countLevel_front s c) (.refl s))
  | pulseEnd c => exact whenLive_front (f := fun s => _) he (front_ite (mapLines_front s c _) (.refl s))
  | stuckTimerExpiry c | longTimerExpiry c =>
    exact whenLive_front (f := fun s => _) he
      (front_ite ((mapLines_front s c _).trans (raise_front _ _)) (.refl s))
  | _ => cases hc

end Sys2Proof.Machine
end

section
/-! PROOF. What an event of a running part keeps: the claims on records, the contexts and FLU. -/

namespace Sys2Proof.Machine

/-- What an event of a running part keeps: the four invariants, the reset level and the start phase, and the queue of
commands. -/
structure State.keeps (s t : State) : Prop where
  clock : s.tke.clockOk → t.tke.clockOk
  balanced : s.flu.balanced → t.flu.balanced
  places : s.ulc.placesOk → t.ulc.placesOk
  table : s.adir.ok → t.adir.ok
  held : t.atc.held = s.atc.held
  phase : t.atc.phase = s.atc.phase
  pending : t.pending = s.pending

variable {s t u : State}

theorem State.keeps.refl (s : State) : s.keeps s := ⟨id, id, id, id, rfl, rfl, rfl⟩

theorem State.keeps.trans (h : s.keeps t) (k : t.keeps u) : s.keeps u where
  clock := k.clock ∘ h.clock
  balanced := k.balanced ∘ h.balanced
  places := k.places ∘ h.places
  table := k.table ∘ h.table
  held := k.held.trans h.held
  phase := k.phase.trans h.phase
  pending := k.pending.trans h.pending

theorem State.front.keeps (h : s.front t) : s.keeps t where
  clock := by rw [h.tke]; exact id
  balanced := by rw [h.flu]; exact id
  places := by rw [h.ulc]; exact id
  table := by rw [h.adir]; exact id
  held := h.held
  phase := h.phase
  pending := h.pending

theorem keeps_ite {p : Prop} [Decidable p] (ht : s.keeps t) (hu : s.keeps u) : s.keeps (if p then t else u) := by
  split <;> assumption

theorem whenLive_keeps {f : State → State} (h : whenLive f s = .next t) (hf : s.keeps (f s)) : s.keeps t :=
  whenLive_next (P := fun t => s.keeps t) h (.refl s) fun _ => hf

theorem whenInService_keeps {f : State → State} (h : whenInService f s = .next t) (hf : s.keeps (f s)) : s.keeps t :=
  whenInService_next (P := fun t => s.keeps t) h (.refl s) fun _ => hf

theorem forHolders_keepsAll (f : Holder → State → State) (hf : ∀ h (t : State), t.keeps (f h t)) (s : State) :
    s.keeps (forHolders f s) :=
  forHolders_keeps (P := fun t => s.keeps t) f (fun h t ht => ht.trans (hf h t)) s (.refl s)

theorem foldl_keeps {α : Type} (f : State → α → State) (hf : ∀ (t : State) a, t.keeps (f t a)) (l : List α) (s : State) :
    s.keeps (l.foldl f s) := by
  induction l generalizing s with
  | nil => exact .refl s
  | cons a l ih => exact (hf s a).trans (ih (f s a))

theorem State.keeps.live (h : s.keeps t) : t.live = s.live := live_of_eq h.held h.phase

/-! ### Units that no invariant speaks of -/

theorem mapCtx_keeps (s : State) (h : Holder) (f : Ctx → Ctx) : s.keeps (s.mapCtx h f) := ⟨id, id, id, id, rfl, rfl, rfl⟩
theorem mapTlu_keeps (s : State) (f : Tlu → Tlu) : s.keeps (s.mapTlu f) := ⟨id, id, id, id, rfl, rfl, rfl⟩
theorem mapTfu_keeps (s : State) (f : Tfu → Tfu) : s.keeps (s.mapTfu f) := ⟨id, id, id, id, rfl, rfl, rfl⟩
theorem raise_keeps (s : State) (b : Status) : s.keeps (s.raise b) := (raise_front s b).keeps
theorem raiseIf_keeps (s : State) (p : Bool) (b : Status) : s.keeps (s.raiseIf p b) := (raiseIf_front s p b).keeps
theorem settleTill_keeps (s : State) (c : Counter) : s.keeps (s.settleTill c) := (settleTill_front s c).keeps
theorem ctxReply_keeps (s : State) (h : Holder) (y : Reply) : s.keeps (s.ctxReply h y) := (ctxReply_front s h y).keeps
theorem markStores_keeps (s t : State) : t.keeps (s.markStores t) := (markStores_front s t).keeps
theorem finish_keeps (s : State) (h : Holder) : s.keeps (s.finish h) := by constructor <;> simp
theorem unpark_keeps (s : State) (h : Holder) : s.keeps (s.unpark h) := by constructor <;> simp
theorem checked_keeps (s : State) (h : Holder) (q : CtxRequest) : s.keeps (s.checked h q) := by constructor <;> simp

/-- A change of ULC is safe when it keeps the places (R170). -/
theorem mapUlc_keeps (s : State) (f : Ulc → Ulc) (h : s.ulc.placesOk → (f s.ulc).placesOk) : s.keeps (s.mapUlc f) :=
  ⟨id, id, h, id, rfl, rfl, rfl⟩

/-! ### Claims on records, contexts and FLU -/

theorem claimMeter_keeps (s : State) (m : Nat) : s.keeps (s.claimMeter m) :=
  ⟨by simp, by simp, by simp, claimMeter_adirOk s m, by simp, by simp, by simp⟩

theorem finishWrite_keeps (s : State) (p : RecordWrite → Bool) (w : RecordWrite) : s.keeps (s.finishWrite p w) :=
  ⟨by simp, by simp, by simp, finishWrite_adirOk s p w, by simp, by simp, by simp⟩

theorem releaseHold_keeps (s : State) (h : Holder) : s.keeps (s.releaseHold h) :=
  ⟨by simp, by simp, by simp, releaseHold_adirOk s h, by simp, by simp, by simp⟩

theorem refuseHeld_keeps (s : State) (h : Holder) (y : Reply) : s.keeps (s.refuseHeld h y) :=
  ⟨by simp, by simp, by simp, refuseHeld_adirOk s h y, by simp, by simp, by simp⟩

theorem endStopped_keeps (s : State) (h : Holder) : s.keeps (s.endStopped h) := refuseHeld_keeps s h _

theorem serveInCtx_keeps (s : State) (k : ReqKind) (h : Holder) (f : Request → CtxRequest × Bool) :
    s.keeps (s.serveInCtx k h f) :=
  ⟨by simp, by simp, by simp, serveInCtx_adirOk s k h f, by simp, by simp, by simp⟩

/-- The clock is in range by four fields of TKE. -/
theorem clockOk_congr {k l : Tke} (hm : l.minute = k.minute) (hu : l.sinceUp = k.sinceUp)
    (hv : l.clockValid = k.clockValid) (h : k.clockOk) : l.clockOk := by
  unfold Tke.clockOk at *
  rwa [hm, hu, hv]

/-- An operation that leaves FLU's record, entries and write, and the clock's fields. -/
theorem keeps_of_sale (hm : t.tke.minute = s.tke.minute) (hu : t.tke.sinceUp = s.tke.sinceUp)
    (hv : t.tke.clockValid = s.tke.clockValid) (hr : t.flu.record = s.flu.record) (he : t.flu.entries = s.flu.entries)
    (hw : t.flu.writing = s.flu.writing) (hb : t.flu.before = s.flu.before) (hulc : t.ulc = s.ulc)
    (ht : s.adir.ok → t.adir.ok) (hheld : t.atc.held = s.atc.held) (hphase : t.atc.phase = s.atc.phase)
    (hp : t.pending = s.pending) : s.keeps t :=
  ⟨clockOk_congr hm hu hv, balanced_congr hr he hw hb, by rw [hulc]; exact id, ht, hheld, hphase, hp⟩

theorem claimFloat_keeps (s : State) (k : FloatClaim) : s.keeps (s.claimFloat k) :=
  keeps_of_sale rfl rfl rfl rfl rfl rfl rfl rfl id rfl rfl rfl

theorem proceed_keeps (s : State) (h : Holder) : s.keeps (s.proceed h) := by
  apply keeps_of_sale <;> first | exact proceed_adirOk s h | simp

theorem resume_keeps (s : State) (h : Holder) : s.keeps (s.resume h) := by
  apply keeps_of_sale <;> first | exact resume_adirOk s h | simp

theorem submit_keeps (s : State) (h : Holder) (m : Nat) (p : List PlannedToken) (l : List Nat) :
    s.keeps (s.submit h m p l) := by
  apply keeps_of_sale <;> first | exact submit_adirOk s h m p l | simp

theorem digitsReturn_keeps (s : State) (h : Holder) (x : Token) : s.keeps (s.digitsReturn h x) := by
  apply keeps_of_sale <;> first | exact digitsReturn_adirOk s h x | simp

theorem nextJob_keeps (s : State) : s.keeps s.nextJob := by
  apply keeps_of_sale <;> simp

theorem engineNotice_keeps (s : State) (h : Holder) : s.keeps (State.engineNotice h s) := by
  apply keeps_of_sale <;> first | exact engineNotice_adirOk s h | simp

theorem cancelCtx_keeps (s : State) (h : Holder) : s.keeps (s.cancelCtx h) := by
  apply keeps_of_sale <;> first | exact cancelCtx_adirOk s h | simp

theorem abandon_keeps (s : State) (h : Holder) (w : CtxState) : s.keeps (s.abandon h w) := by
  apply keeps_of_sale <;> first | exact abandon_adirOk s h w | simp

theorem recordPartClaim_keeps (s : State) (c : Counter) : s.keeps (s.recordPartClaim c) := by
  apply keeps_of_sale <;> first | exact recordPartClaim_adirOk s c | simp

theorem tillPartClaim_keeps (s : State) (c : Counter) : s.keeps (s.tillPartClaim c) := by
  apply keeps_of_sale <;> simp

theorem endSale_keeps (s : State) (c : Counter) : s.keeps (s.endSale c) :=
  ⟨by simp, by simp, by simp, endSale_adirOk s c, by simp, by simp, by simp⟩

theorem stopTooLate_keeps (s : State) (h : Holder) : s.keeps (s.stopTooLate h) := by constructor <;> simp

theorem pumpFloat_keeps (s : State) : s.keeps s.pumpFloat :=
  ⟨by simp, pumpFloat_balanced s, pumpFloat_placesOk s, pumpFloat_adirOk s, by simp, by simp, by simp⟩

/-- The write that FLU has under way completes (R51, R52). -/
theorem completeFloat_keeps (s : State) {k : FloatClaim} (h : s.flu.writing = some k) : s.keeps (s.completeFloat k) where
  clock := by simp
  balanced hb := completeFloat_balanced s (hb.2.1 k h) hb.2.2
  places := by simp
  table := by simp
  held := by simp
  phase := by simp
  pending := by simp

/-- A request whose owner keeps the invariants. -/
theorem serve_keepsAll (s : State) (k : ReqKind) (r : Holder) (f : Request → State → State × ReplyOwner × Reply)
    (hf : ∀ q (t : State), t.keeps (f q t).1) : s.keeps (s.serve k r f) := by
  unfold State.serve
  split
  · exact .refl s
  · next q attached _ =>
    refine ((taken_front s q attached).keeps.trans (hf q _)).trans ?_
    unfold State.answerRequest
    exact keeps_ite (putReply_front _ _ _ _).keeps (undeliver_front _ _ _).keeps

end Sys2Proof.Machine
end

section
/-! PROOF. What an event of a running part keeps: the window's writes, the requests, and the rows of a sale. -/

namespace Sys2Proof.Machine

variable {s t : State}

/-! ### The window's writes -/

theorem ringReset_keeps (s : State) : s.keeps s.ringReset := by
  have hdrop : s.keeps s.dropOfficeIssue := by constructor <;> simp
  unfold State.ringReset
  dsimp only
  refine State.keeps.trans ?_ (markStores_keeps s _)
  refine State.keeps.trans ?_ (pumpFloat_keeps _)
  refine State.keeps.trans ?_ (enterStopped_front _).keeps
  refine State.keeps.trans ?_ (clearBits_front _ _ _).keeps
  refine State.keeps.trans ?_ (mapRgi_front _ _).keeps
  refine State.keeps.trans ?_ (foldl_keeps _ (fun t h => abandon_keeps t h _) _ _)
  refine State.keeps.trans ?_ (forHolders_keepsAll _ (fun h t => (detach_front t h).keeps) _)
  exact hdrop.trans (mapRgi_front _ _).keeps

theorem engineReset_keeps (s : State) : s.keeps s.engineReset := by
  have hreset : s.keeps (s.mapTke Tke.reset) := ⟨id, id, id, id, rfl, rfl, rfl⟩
  unfold State.engineReset
  refine State.keeps.trans ?_ (markStores_keeps s _)
  refine State.keeps.trans ?_ (pumpFloat_keeps _)
  refine State.keeps.trans ?_ (forHolders_keepsAll _ (fun h t => engineNotice_keeps t h) _)
  exact hreset.trans (raise_keeps _ _)

theorem engineRun_keeps (s : State) : s.keeps s.engineRun := by
  apply keeps_of_sale <;> simp

/-- A change of the line keeps the clock, and sets the count to 0 or leaves it (R91). -/
theorem keeps_of_line (hm : t.tke.minute = s.tke.minute) (hv : t.tke.clockValid = s.tke.clockValid)
    (hc : sameOrZero s t) (hf : t.flu = s.flu) (hp : s.ulc.placesOk → t.ulc.placesOk) (ha : t.adir = s.adir)
    (hheld : t.atc.held = s.atc.held) (hphase : t.atc.phase = s.atc.phase) (hq : t.pending = s.pending) : s.keeps t :=
  ⟨fun h => clockOk_of_count h hm hv hc, by rw [hf]; exact id, hp, by rw [ha]; exact id, hheld, hphase, hq⟩

theorem linkReset_keeps (s : State) : s.keeps s.linkReset := by
  apply keeps_of_line <;> first | exact linkReset_count s | exact fun _ => linkReset_placesOk s | simp

theorem giveUp_keeps (s : State) : s.keeps s.giveUp := by
  apply keeps_of_line <;> first | exact giveUp_count s | exact fun _ => giveUp_placesOk s | simp

theorem enterDetect_keeps (s : State) : s.keeps s.enterDetect := by
  apply keeps_of_line <;> first | exact enterDetect_count s | exact enterDetect_placesOk s | simp

theorem enterSlip_keeps (s : State) : s.keeps s.enterSlip := by
  apply keeps_of_line <;> first | exact enterSlip_count s | exact enterSlip_placesOk s | simp

theorem rateChanged_keeps (s : State) : s.keeps s.rateChanged := by
  apply keeps_of_line <;> first | exact rateChanged_count s | exact rateChanged_placesOk s | simp

theorem detectLook_keeps (s : State) : s.keeps s.detectLook :=
  ⟨by simp, by simp, detectLook_placesOk s, by simp, by simp, by simp, by simp⟩

theorem receiveBytes_keeps (s : State) (l : List Byte) : s.keeps (s.receiveBytes l) := by
  apply keeps_of_line <;> first | exact receiveBytes_count s l | exact receiveBytes_placesOk s l | simp

theorem startTx_keeps (s : State) : s.keeps s.startTx :=
  ⟨by simp, by simp, startTx_placesOk s, by simp, by simp, by simp, by simp⟩

theorem drainRecord_keeps (n : Nat) (s : State) : s.keeps (drainRecord n s) :=
  ⟨by simp, by simp, drainRecord_placesOk s n, by simp, by simp, by simp, by simp⟩

theorem claimRecord_keeps (s : State) (k : RecordClaim) : s.keeps (s.claimRecord k) :=
  ⟨by simp, by simp, claimRecord_placesOk s k, by simp, by simp, by simp, by simp⟩

theorem answered_keeps (s : State) (c : AnswerCode) (e d : List Byte) : s.keeps (s.answered c e d) :=
  mapUlc_keeps s _ (answered_placesOk s c e d)

theorem claimed_keeps (s : State) : s.keeps s.claimed := mapUlc_keeps s _ (claimed_placesOk s)

theorem give_keeps (s : State) (a : Answer) : s.keeps (s.give a) := answered_keeps s _ _ _

theorem initPasses_keeps (s : State) (k : InitCopy) : s.keeps (s.initPasses k) :=
  ⟨by simp, by simp, initPasses_placesOk s k, by simp, by simp, by simp, by simp⟩

theorem writeLinkEnable_keeps (s : State) (v : Word) : s.keeps (s.writeLinkEnable v) := by
  have henable (b : Bool) : s.keeps (s.mapUlc fun u => { u with linkEnable := b }) := mapUlc_keeps s _ id
  unfold State.writeLinkEnable
  dsimp only
  exact keeps_ite (keeps_ite ((henable _).trans (enterDetect_keeps _)) (henable _))
    (keeps_ite (keeps_ite (henable _) ((henable _).trans (giveUp_keeps _))) (refuse_front s).keeps)

theorem writeCancel_keeps (s : State) (v : Word) : s.keeps (s.writeCancel v) := by
  unfold State.writeCancel
  split
  · exact ((cancelCtx_keeps s _).trans (pumpFloat_keeps _)).trans (markStores_keeps s _)
  · exact (refuse_front s).keeps

theorem writeBlockControl_keeps (s : State) (v : Word) : s.keeps (s.writeBlockControl v) := by
  unfold State.writeBlockControl
  split
  · exact .refl s
  · exact ringReset_keeps s
  · exact engineReset_keeps s
  · exact engineRun_keeps s
  · exact linkReset_keeps s
  · exact ⟨id, id, id, id, rfl, rfl, rfl⟩
  · exact (refuse_front s).keeps

theorem writeInitAddr_keeps (s : State) (v : Word) : s.keeps (s.writeInitAddr v) :=
  keeps_ite (mapRgi_front s _).keeps (refuse_front s).keeps

theorem writeWord_keeps (s : State) (index : Nat) (v : Word) : s.keeps (s.writeWord index v) := by
  have henable (b : Block) : s.keeps (s.setEnable b v) := ⟨id, id, id, id, rfl, rfl, rfl⟩
  have hsummary : s.keeps (s.setSummaryEnable v) := ⟨id, id, id, id, rfl, rfl, rfl⟩
  unfold State.writeWord
  split
  · exact (writeControl_front s v).keeps
  · exact (writeStatus_front s .ring v).keeps
  · exact writeInitAddr_keeps s v
  · exact writeCancel_keeps s v
  · exact writeLinkEnable_keeps s v
  all_goals first
    | exact (writeStatus_front s _ v).keeps
    | exact henable _
    | exact hsummary
    | exact writeBlockControl_keeps s v
    | exact (refuse_front s).keeps

theorem execWindowWrite_keeps (p : WindowPort) (v : Word) (he : execWindowWrite p v s = .next t) : s.keeps t := by
  refine whenLive_keeps he ?_
  cases p with
  | index => exact (mapRgi_front s _).keeps
  | data => exact writeWord_keeps s _ v
  | summary => exact (refuse_front s).keeps

theorem execFloatLowwaterRead_keeps (he : execFloatLowwaterRead s = .next t) : s.keeps t := by
  obtain rfl := Host.Outcome.next.inj he
  refine keeps_ite (.refl s) (keeps_ite ?_ (mapRgi_front s _).keeps)
  exact ⟨id, balanced_congr rfl rfl rfl rfl, id, id, rfl, rfl, rfl⟩

theorem execInitBlockReadDone_keeps (b : List Byte) (he : execInitBlockReadDone b s = .next t) : s.keeps t := by
  unfold execInitBlockReadDone at he
  split at he
  · refine whenInService_keeps he (keeps_ite ?_ (.refl s))
    split
    · exact ((popBus_front s).trans (initFails_front _ _ _)).keeps
    · exact (popBus_front s).keeps.trans (initPasses_keeps _ _)
  · cases he

/-! ### Requests -/

/-- Writing the record of a decision keeps the table when the record keeps its slot and its meter number. -/
theorem putDecided_keeps (s : State) (d : Option (Nat × MeterRecord))
    (hd : ∀ slot r', d = some (slot, r') → ∃ r, (slot, r) ∈ s.adir.table ∧ r'.number = r.number) :
    s.keeps (s.putDecided d) :=
  ⟨by simp, by simp, by simp, putDecided_adirOk s d hd, by simp, by simp, by simp⟩

theorem reprintDecision_record {l : List (Nat × MeterRecord)} {m slot : Nat} {r' : MeterRecord}
    (h : (reprintDecision l m).2 = some (slot, r')) : ∃ r, (slot, r) ∈ l ∧ r'.number = r.number := by
  unfold reprintDecision at h
  split at h
  · cases h
  · split at h
    · cases h
    · next slot' r hfind =>
      split at h
      · cases h
      · cases h
        exact ⟨r, (mem_of_tableFind hfind).1, rfl⟩

theorem referDecision_record {l : List (Nat × MeterRecord)} {m slot : Nat} {mark : Option Nat} {r' : MeterRecord}
    (h : (referDecision l m mark).2 = some (slot, r')) : ∃ r, (slot, r) ∈ l ∧ r'.number = r.number := by
  unfold referDecision at h
  split at h
  · cases h
  · split at h
    · cases h
    · next slot' r hfind =>
      split at h
      · cases h
      · cases h
        exact ⟨r, (mem_of_tableFind hfind).1, rfl⟩

theorem reprint_keeps (s : State) (m : Nat) :
    s.keeps ((s.claimMeter m).putDecided (reprintDecision s.adir.table m).2) :=
  (claimMeter_keeps s m).trans (putDecided_keeps _ _ fun slot r' h => by
    rw [claimMeter_table]
    exact reprintDecision_record h)

theorem refer_keeps (s : State) (m : Nat) (mark : Option Nat) :
    s.keeps ((s.claimMeter m).putDecided (referDecision s.adir.table m mark).2) :=
  (claimMeter_keeps s m).trans (putDecided_keeps _ _ fun slot r' h => by
    rw [claimMeter_table]
    exact referDecision_record h)

theorem setClock_keeps (s : State) {m : Nat} (hm : m ≤ maxMinute) : s.keeps (s.setClock m) :=
  ⟨setClock_clockOk s m hm, by simp, by simp, by simp, by simp, by simp, by simp⟩

theorem execReferSet_keeps (he : execReferSet s = .next t) : s.keeps t := by
  refine whenInService_keeps he (serve_keepsAll s _ _ _ fun q t => ?_)
  dsimp only
  split
  · exact .refl t
  · exact refer_keeps t _ _

theorem execClockSet_keeps (he : execClockSet s = .next t) : s.keeps t := by
  refine whenInService_keeps he (serve_keepsAll s _ _ _ fun q t => ?_)
  dsimp only
  split
  · exact .refl t
  · next hm =>
    split
    · exact .refl t
    · exact ((setClock_keeps t (Nat.not_lt.1 hm)).trans (raise_keeps _ _)).trans (raiseIf_keeps _ _ _)

theorem delivered_keeps (s : State) (r : Holder) (o : ReplyOwner) : s.keeps (s.delivered r o) :=
  ⟨by simp, by simp, by rw [delivered_ulc]; exact id, by simp, by simp, by simp, by simp⟩

theorem execReplyWritten_keeps (r : Holder) (he : execReplyWritten r s = .next t) : s.keeps t := by
  refine whenInService_keeps he ?_
  dsimp only
  split
  · refine keeps_ite ?_ (.refl s)
    refine State.keeps.trans ?_ (checkStopping_front _).keeps
    refine State.keeps.trans ?_ (lookAt_front _ r).keeps
    refine State.keeps.trans ?_ (delivered_keeps _ r _)
    exact ((popBus_front s).trans ((mapRgi_front _ _).trans (mapRing_front _ r _))).keeps
  · exact .refl s

/-! ### The rows of a sale -/

theorem whenStoring_keeps {f : State → State} (h : whenStoring f s = .next t) (hf : s.keeps (f s)) : s.keeps t :=
  whenInService_keeps h (hf.trans (markStores_keeps s _))

theorem execHoldGrantDone_keeps (h : Holder) (he : execHoldGrantDone h s = .next t) : s.keeps t := by
  refine whenStoring_keeps he ?_
  dsimp only
  split
  · exact .refl s
  · refine State.keeps.trans ?_ (pumpFloat_keeps _)
    exact (finishWrite_keeps s _ _).trans (keeps_ite (endStopped_keeps _ h) (proceed_keeps _ h))

theorem execReserveDone_keeps (c : Counter) (he : execReserveDone c s = .next t) : s.keeps t := by
  refine whenStoring_keeps he ?_
  dsimp only
  split
  · next c' sale hw =>
    split
    · next hc =>
      subst hc
      refine State.keeps.trans ?_ (pumpFloat_keeps _)
      refine (completeFloat_keeps s hw).trans (keeps_ite ?_ (submit_keeps _ _ _ _ _))
      exact (mapCtx_keeps _ _ _).trans (claimFloat_keeps _ _)
    · exact .refl s
  · exact .refl s

theorem execReservationReleased_keeps (c : Counter) (he : execReservationReleased c s = .next t) : s.keeps t := by
  refine whenStoring_keeps he ?_
  split
  · next c' hw =>
    split
    · next hc =>
      subst hc
      exact ((completeFloat_keeps s hw).trans (endStopped_keeps _ _)).trans (pumpFloat_keeps _)
    · exact .refl s
  · exact .refl s

theorem execJobComplete_keeps (he : execJobComplete s = .next t) : s.keeps t := by
  refine whenStoring_keeps he ?_
  split
  · exact .refl s
  · exact ((keeps_ite (.refl s) (digitsReturn_keeps s _ _)).trans (nextJob_keeps _)).trans (pumpFloat_keeps _)

theorem execSealDone_keeps (c : Counter) (he : execSealDone c s = .next t) : s.keeps t := by
  refine whenStoring_keeps he ?_
  dsimp only
  split
  · next c' tokens hw =>
    split
    · next hc =>
      subst hc
      refine State.keeps.trans ?_ (pumpFloat_keeps _)
      refine State.keeps.trans ?_ (recordPartClaim_keeps _ _)
      exact ((completeFloat_keeps s hw).trans (stopTooLate_keeps _ _)).trans (mapCtx_keeps _ _ _)
    · exact .refl s
  · exact .refl s

theorem execRecordPartApplied_keeps (c : Counter) (he : execRecordPartApplied c s = .next t) : s.keeps t := by
  refine whenStoring_keeps he ?_
  split
  · exact .refl s
  · refine State.keeps.trans ?_ (pumpFloat_keeps _)
    exact (finishWrite_keeps s _ _).trans ((mapCtx_keeps _ _ _).trans (claimFloat_keeps _ _))

theorem execFloatPartApplied_keeps (c : Counter) (he : execFloatPartApplied c s = .next t) : s.keeps t := by
  refine whenStoring_keeps he ?_
  split
  · next c' hw =>
    split
    · next hc =>
      subst hc
      exact ((completeFloat_keeps s hw).trans (tillPartClaim_keeps _ _)).trans (pumpFloat_keeps _)
    · exact .refl s
  · exact .refl s

theorem execTillPartApplied_keeps (c : Counter) (he : execTillPartApplied c s = .next t) : s.keeps t := by
  refine whenStoring_keeps he ?_
  split
  · exact .refl s
  · refine State.keeps.trans ?_ (pumpFloat_keeps _)
    exact ((mapTlu_keeps s _).trans (raiseIf_keeps _ _ _)).trans
      ((mapCtx_keeps _ (.counter c) _).trans (claimFloat_keeps _ (.free c)))

theorem execFreeDone_keeps (c : Counter) (he : execFreeDone c s = .next t) : s.keeps t := by
  refine whenStoring_keeps he ?_
  split
  · next c' hw =>
    split
    · next hc =>
      subst hc
      exact ((completeFloat_keeps s hw).trans (endSale_keeps _ _)).trans (pumpFloat_keeps _)
    · exact .refl s
  · exact .refl s

theorem execReleaseDone_keeps (h : Holder) (he : execReleaseDone h s = .next t) : s.keeps t := by
  refine whenStoring_keeps he ?_
  dsimp only
  split
  · exact .refl s
  · next w _ =>
    have hends : s.keeps
        (((s.finishWrite (isReleaseOf h) w).mapCtx h fun x => { x with releasePending := false }).finish h) :=
      ((finishWrite_keeps s _ w).trans (mapCtx_keeps _ _ _)).trans (finish_keeps _ h)
    split
    · exact (hends.trans (resume_keeps _ _)).trans (pumpFloat_keeps _)
    · exact hends

theorem execOfficeCommitDone_keeps (he : execOfficeCommitDone s = .next t) : s.keeps t := by
  refine whenStoring_keeps he ?_
  dsimp only
  split
  · exact .refl s
  · exact ((finishWrite_keeps s _ _).trans (releaseHold_keeps _ _)).trans (ctxReply_keeps _ _ _)

end Sys2Proof.Machine
end

section
/-! PROOF. What an event of a running part keeps: time, the utility line and its instructions; and every command. -/

namespace Sys2Proof.Machine

variable {s t : State}

/-! ### Time and the utility line -/

theorem execClockAdvance_keeps (he : execClockAdvance s = .next t) : s.keeps t := by
  obtain rfl := Host.Outcome.next.inj he
  have hadvance (k : Tke) (h : k.clockOk) (hv : k.clockValid = true) : k.advance.clockOk := by
    obtain ⟨hm, hu, _⟩ := h
    exact ⟨Nat.min_le_left _ _, hu, fun hf => absurd (hv.symm.trans hf) (by decide)⟩
  split
  · next hrun =>
    have hvalid : s.tke.clockValid = true := by simp_all
    split
    · refine State.keeps.trans ?_ (raiseIf_keeps _ _ _)
      exact ⟨fun h => by simpa using hadvance s.tke h hvalid, by simp, by simp, by simp, by simp, by simp, by simp⟩
    · exact ⟨fun h => hadvance s.tke h hvalid, id, id, id, rfl, rfl, rfl⟩
  · exact .refl s

theorem execMinutesSinceUpTick_keeps (he : execMinutesSinceUpTick s = .next t) : s.keeps t := by
  obtain rfl := Host.Outcome.next.inj he
  refine keeps_ite ?_ (.refl s)
  refine State.keeps.trans ?_ (raiseIf_keeps _ _ _)
  exact ⟨fun ⟨hm, _, hv⟩ => ⟨hm, Nat.min_le_left _ _, hv⟩, id, id, id, rfl, rfl, rfl⟩

theorem execCarrierLoss_keeps (he : execCarrierLoss s = .next t) : s.keeps t := by
  obtain rfl := Host.Outcome.next.inj he
  have hloss : s.keeps (s.mapUlc fun u => { u with carrier := false }) := mapUlc_keeps s _ id
  exact keeps_ite (hloss.trans (enterDetect_keeps _)) hloss

theorem execCarrierGain_keeps (he : execCarrierGain s = .next t) : s.keeps t := by
  obtain rfl := Host.Outcome.next.inj he
  have hgain : s.keeps (s.mapUlc fun u => { u with carrier := true }) := mapUlc_keeps s _ id
  exact keeps_ite (hgain.trans (detectLook_keeps _)) hgain

theorem execRateWindowEnd_keeps (n : Nat) (he : execRateWindowEnd n s = .next t) : s.keeps t := by
  have hrate : s.keeps (s.mapUlc fun u => { u with rate := rateOf n }) := mapUlc_keeps s _ id
  exact whenLive_keeps he ((keeps_ite hrate (hrate.trans (rateChanged_keeps _))).trans (detectLook_keeps _))

theorem execParcelReceive_keeps (l : List Byte) (he : execParcelReceive l s = .next t) : s.keeps t := by
  unfold execParcelReceive at he
  split at he
  · exact whenLive_keeps he (receiveBytes_keeps s l)
  · cases he

theorem execServiceModeWritten_keeps (he : execServiceModeWritten s = .next t) : s.keeps t := by
  refine whenLive_keeps he ?_
  dsimp only
  split
  · exact .refl s
  · exact ((mapUlc_keeps s _ id).trans (raise_keeps _ _)).trans (drainRecord_keeps _ _)

theorem execIdleParcelSend_keeps (he : execIdleParcelSend s = .next t) : s.keeps t := by
  refine whenLive_keeps he ?_
  split
  · exact keeps_ite (mapUlc_keeps s _ id) (.refl s)
  · exact .refl s

/-- The head entry leaves the queue, and its place is free. -/
theorem popQueue_placesOk {u : Ulc} {e : UpEntry} {rest : List UpEntry} (hq : u.queue = e :: rest)
    (tx : Option Transmission) (sent : List (List Byte)) (told : Bool) (h : u.placesOk) :
    ({ u with queue := rest, tx := tx, lastSent := sent, noneTold := told } : Ulc).placesOk := by
  obtain ⟨hreserved, hused, hpage⟩ := h
  refine ⟨hreserved, ?_, hpage⟩
  simp only [Ulc.used, hq, List.length_cons] at hused ⊢
  omega

theorem execUpwardEntrySent_keeps (he : execUpwardEntrySent s = .next t) : s.keeps t := by
  refine whenLive_keeps he ?_
  split
  · next x e rest _ hq =>
    refine State.keeps.trans (mapUlc_keeps s _ fun h => ?_) (startTx_keeps _)
    exact arbitrate_placesOk (popQueue_placesOk hq _ _ _ h)
  · exact .refl s

/-- The owed report takes the place that the arbiter gave it (R172). -/
theorem pushReport_placesOk {u : Ulc} (hr : u.reportPlaced = true) (e : UpEntry) (h : u.placesOk) :
    (Ulc.push { u with reportOwed := false, reportPlaced := false } e).placesOk := by
  obtain ⟨hreserved, hused, hpage⟩ := h
  refine ⟨hreserved, ?_, hpage⟩
  simp only [Ulc.used, Ulc.push, hr, bit, List.length_append, List.length_singleton] at hused ⊢
  simp only [if_true, if_false, Bool.false_eq_true] at hused ⊢
  omega

theorem execFloatReportQueue_keeps (he : execFloatReportQueue s = .next t) : s.keeps t := by
  refine whenInService_keeps he ?_
  split
  · next hplaced =>
    refine State.keeps.trans (mapUlc_keeps s _ fun h => ?_) (startTx_keeps _)
    exact arbitrate_placesOk (pushReport_placesOk hplaced _ h)
  · exact .refl s

/-- A sweep that wants a page or its end has the place for it. -/
theorem placed_of_wantsPage {w : Sweep} (h : w.wantsPage = true) : w.placed = true := by
  simp only [Sweep.wantsPage, Bool.and_eq_true] at h
  exact h.1.1.2

theorem placed_of_wantsEnd {w : Sweep} (h : w.wantsEnd = true) : w.placed = true ∧ w.page = none := by
  simp only [Sweep.wantsEnd, Bool.and_eq_true, Option.isNone_iff_eq_none] at h
  exact ⟨h.1.2, h.1.1.2⟩

theorem execSweepPageBegin_keeps (he : execSweepPageBegin s = .next t) : s.keeps t := by
  refine whenInService_keeps he ?_
  split
  · next hwants =>
    exact ⟨by simp, by simp, beginPage_placesOk s (placed_of_wantsPage hwants), beginPage_adirOk s,
      by simp [State.beginPage], by simp [State.beginPage], by simp⟩
  · exact .refl s

theorem execSweepPageWrite_keeps (he : execSweepPageWrite s = .next t) : s.keeps t := by
  refine whenInService_keeps he ?_
  split
  · next page hpage =>
    exact (mapUlc_keeps s _ fun h => writePage_placesOk h page hpage).trans (startTx_keeps _)
  · exact .refl s

theorem execSweepEnd_keeps (he : execSweepEnd s = .next t) : s.keeps t := by
  refine whenInService_keeps he ?_
  split
  · next hwants =>
    obtain ⟨hplaced, hpage⟩ := placed_of_wantsEnd hwants
    exact (mapUlc_keeps s _ fun h => endSweep_placesOk h hplaced hpage).trans (startTx_keeps _)
  · exact .refl s

/-- The answered instruction gives its place back (R170, R174). -/
theorem releaseAnswer_placesOk {u : Ulc} {i : LineInstr} {p : DispatchPhase}
    (hd : u.dispatched = some ⟨i, p, false⟩) (e : UpEntry) (h : u.placesOk) :
    (Ulc.push { u with dispatched := none, reserved := u.reserved - 1 } e).placesOk := by
  obtain ⟨hreserved, hused, hpage⟩ := h
  have howing : u.owing = 1 := by simp [Ulc.owing, hd, bit]
  refine ⟨?_, ?_, hpage⟩
  · change u.reserved - 1 = u.list.length + 0 + u.paging
    omega
  · change (u.queue ++ [e]).length + (u.reserved - 1) + bit u.reportPlaced ≤ 16
    rw [Ulc.used] at hused
    rw [List.length_append, List.length_singleton]
    omega

/-- A dropped answer holds no place (R159). -/
theorem dropAnswer_placesOk {u : Ulc} {i : LineInstr} {p : DispatchPhase} (hd : u.dispatched = some ⟨i, p, true⟩)
    (h : u.placesOk) : ({ u with dispatched := none } : Ulc).placesOk := by
  obtain ⟨hreserved, hused, hpage⟩ := h
  refine ⟨?_, hused, hpage⟩
  simpa [Ulc.owing, Ulc.paging, hd, bit] using hreserved

theorem execAnswerWrite_keeps (he : execAnswerWrite s = .next t) : s.keeps t := by
  refine whenInService_keeps he ?_
  dsimp only
  split
  · next i code echo detail dropped hd =>
    refine (mapUlc_keeps s _ fun h => ?_).trans (startTx_keeps _)
    refine dispatch_placesOk ?_
    cases dropped with
    | true => exact dropAnswer_placesOk hd h
    | false => exact arbitrate_placesOk (releaseAnswer_placesOk hd _ h)
  · exact .refl s

/-! ### The utility's instructions -/

theorem ownerTakes_keeps {k : LineKind} {f : LineInstr → State → State} (h : ownerTakes k f s = .next t)
    (hf : ∀ i, s.keeps (f i s)) : s.keeps t := by
  refine whenInService_keeps h ?_
  split
  · exact .refl s
  · exact hf _

/-- A claim of ADIR that keeps the table, and its answer. -/
theorem decided_keeps (i : LineInstr) (d : Option (Nat × MeterRecord)) (a : Answer)
    (h : s.adir.ok → ((s.claimMeter (i.field 0 5)).putDecided d).adir.ok) :
    s.keeps (((s.claimMeter (i.field 0 5)).putDecided d).give a) :=
  State.keeps.trans ⟨by simp, by simp, by simp, h, by simp, by simp, by simp⟩ (give_keeps _ a)

theorem retireParked_keeps (s : State) (slot : Nat) : s.keeps (s.retireParked slot) :=
  foldl_keeps _ (fun t _ => (unpark_keeps t _).trans (ctxReply_keeps _ _ _)) _ s

theorem execRetire_keeps (he : execRetire s = .next t) : s.keeps t := by
  refine ownerTakes_keeps he fun i => ?_
  refine State.keeps.trans ?_ (markStores_keeps s _)
  have hclaim := claimMeter_keeps s (i.field 0 5)
  generalize s.claimMeter (i.field 0 5) = u at hclaim ⊢
  split
  · exact hclaim.trans (give_keeps u _)
  · next a slot _ =>
    have hdrop : u.keeps (u.dropRecord slot) := ⟨id, id, id, dropRecord_adirOk u slot, rfl, rfl, rfl⟩
    exact (hclaim.trans hdrop).trans (give_keeps _ _)
  · next a slot r hret =>
    have hput : u.keeps (u.putRecord slot r) := by
      refine ⟨id, id, id, fun h => ?_, rfl, rfl, rfl⟩
      unfold retireDecision at hret
      split at hret
      · cases hret
      · next slot' r' hfind =>
        (repeat' split at hret) <;> cases hret
        exact putRecord_adirOk u slot (mem_of_tableFind hfind).1 rfl h
    exact ((hclaim.trans hput).trans (retireParked_keeps _ _)).trans (give_keeps _ _)

theorem floatInstr_keeps (s : State) (k : FloatClaim) : s.keeps ((s.claimed.claimFloat k).pumpFloat) :=
  ((claimed_keeps s).trans (claimFloat_keeps _ _)).trans (pumpFloat_keeps _)

theorem execTariff_keeps (he : execTariff s = .next t) : s.keeps t := by
  refine ownerTakes_keeps he fun i => ?_
  dsimp only
  exact keeps_ite (((mapTfu_keeps s _).trans (raiseIf_keeps _ _ _)).trans (give_keeps _ _)) (give_keeps s _)

theorem applyLook_keeps (s : State) : s.keeps s.applyLook := by constructor <;> simp

theorem execArm_keeps (he : execArm s = .next t) : s.keeps t := by
  refine ownerTakes_keeps he fun i => ?_
  dsimp only
  split
  · exact ((mapTfu_keeps s _).trans (applyLook_keeps _)).trans (answered_keeps _ _ _ _)
  · exact answered_keeps s _ _ _
  · exact answered_keeps s _ _ _

theorem execDisarm_keeps (he : execDisarm s = .next t) : s.keeps t :=
  ownerTakes_keeps he fun _ =>
    keeps_ite ((mapTfu_keeps s _).trans (answered_keeps _ _ _ _)) (answered_keeps s _ _ _)

theorem watchMonth_keeps {f : State → State} (s : State) (hf : s.keeps (f s)) : s.keeps (watchMonth f s) :=
  ((hf.trans (raiseIf_keeps _ _ _)).trans (raiseIf_keeps _ _ _)).trans (raiseIf_keeps _ _ _)

theorem rolloverLook_keeps (s : State) : s.keeps s.rolloverLook := by constructor <;> simp

theorem execMonths_keeps (he : execMonths s = .next t) : s.keeps t := by
  refine ownerTakes_keeps he fun i => ?_
  dsimp only
  split
  · exact ((watchMonth_keeps s (mapTfu_keeps s _)).trans (watchMonth_keeps _ (rolloverLook_keeps _))).trans
      (answered_keeps _ _ _ _)
  · exact answered_keeps s _ _ _

theorem execTime_keeps (he : execTime s = .next t) : s.keeps t := by
  refine ownerTakes_keeps he fun i => ?_
  dsimp only
  split
  · exact answered_keeps s _ _ _
  · next hm =>
    exact ((((setClock_keeps s (Nat.not_lt.1 hm)).trans (raiseIf_keeps _ _ _)).trans (raiseIf_keeps _ _ _)).trans
      (raiseIf_keeps _ _ _)).trans (answered_keeps _ _ _ _)

theorem execHoldover_keeps (he : execHoldover s = .next t) : s.keeps t :=
  ownerTakes_keeps he fun _ => keeps_ite (answered_keeps s _ _ _) ((claimed_keeps s).trans (claimRecord_keeps _ _))

theorem execSweep_keeps (he : execSweep s = .next t) : s.keeps t := by
  refine ownerTakes_keeps he fun i => ?_
  dsimp only
  split
  · exact answered_keeps s _ _ _
  · split
    · exact answered_keeps s _ _ _
    · refine State.keeps.trans ?_ (mapUlc_keeps _ _ arbitrate_placesOk)
      exact (mapUlc_keeps s _ fun h => startSweep_placesOk h _ _).trans (answered_keeps _ _ _ _)

theorem execUnknownInstruction_keeps (he : execUnknownInstruction s = .next t) : s.keeps t := by
  refine whenInService_keeps he ?_
  split
  · exact .refl s
  · exact answered_keeps s _ _ _

/-! ### Every command -/

/-- The commands that hold the part in reset, start it, or move its start phase. -/
def movesPhase : Instr → Bool
  | .powerLoss | .resetNLow | .partStart _ | .clearEnd | .recoveryDone => true
  | _ => false

/-- A command that does not move the start phase keeps the invariants. -/
theorem exec_keeps {c : Instr} (hc : movesPhase c = false) (he : exec c s = .next t) : s.keeps t := by
  cases hfront : atFront c with
  | true => exact (exec_front hfront he).keeps
  | false =>
    cases c with
    | vbakLoss | vbakReturn =>
      obtain rfl := Host.Outcome.next.inj he
      exact ⟨id, id, id, id, rfl, rfl, rfl⟩
    | windowWrite p v => exact execWindowWrite_keeps p v he
    | cancel v => exact whenLive_keeps (f := fun s => _) he (writeCancel_keeps s v)
    | linkEnable v => exact whenLive_keeps (f := fun s => _) he (writeLinkEnable_keeps s v)
    | floatLowwaterRead => exact execFloatLowwaterRead_keeps he
    | ringReset => exact whenLive_keeps he (ringReset_keeps s)
    | engineReset => exact whenLive_keeps he (engineReset_keeps s)
    | engineRun => exact whenLive_keeps he (engineRun_keeps s)
    | linkReset => exact whenLive_keeps he (linkReset_keeps s)
    | initBlockReadDone b => exact execInitBlockReadDone_keeps b he
    | vend | engineer | keyrollOnly =>
      exact whenInService_keeps (f := fun s => _) he (serveInCtx_keeps s _ _ _)
    | quote c =>
      exact whenInService_keeps (f := fun s => _) he
        (serve_keepsAll s _ _ _ fun q t => keeps_ite (claimMeter_keeps t _) (.refl t))
    | reprint c =>
      exact whenInService_keeps (f := fun s => _) he (serve_keepsAll s _ _ _ fun q t => reprint_keeps t _)
    | lookup r =>
      exact whenInService_keeps (f := fun s => _) he (serve_keepsAll s _ _ _ fun q t => claimMeter_keeps t _)
    | referSet => exact execReferSet_keeps he
    | referClear =>
      exact whenInService_keeps (f := fun s => _) he (serve_keepsAll s _ _ _ fun q t => refer_keeps t _ _)
    | clockSet => exact execClockSet_keeps he
    | replyWritten r => exact execReplyWritten_keeps r he
    | holdGrantDone h => exact execHoldGrantDone_keeps h he
    | reserveDone c => exact execReserveDone_keeps c he
    | reservationReleased c => exact execReservationReleased_keeps c he
    | jobComplete => exact execJobComplete_keeps he
    | sealDone c => exact execSealDone_keeps c he
    | recordPartApplied c => exact execRecordPartApplied_keeps c he
    | floatPartApplied c => exact execFloatPartApplied_keeps c he
    | tillPartApplied c => exact execTillPartApplied_keeps c he
    | freeDone c => exact execFreeDone_keeps c he
    | releaseDone h => exact execReleaseDone_keeps h he
    | officeCommitDone => exact execOfficeCommitDone_keeps he
    | clockAdvance => exact execClockAdvance_keeps he
    | minutesSinceUpTick => exact execMinutesSinceUpTick_keeps he
    | rateWindowEnd n => exact execRateWindowEnd_keeps n he
    | carrierLoss => exact execCarrierLoss_keeps he
    | carrierGain => exact execCarrierGain_keeps he
    | parcelReceive l => exact execParcelReceive_keeps l he
    | serviceModeWritten => exact execServiceModeWritten_keeps he
    | trainingTimeout | slipTimeout =>
      exact whenLive_keeps (f := fun s => _) he (keeps_ite (enterDetect_keeps s) (.refl s))
    | silenceTimeout => exact whenLive_keeps (f := fun s => _) he (keeps_ite (enterSlip_keeps s) (.refl s))
    | idleParcelSend => exact execIdleParcelSend_keeps he
    | upwardEntrySent => exact execUpwardEntrySent_keeps he
    | floatReportQueue => exact execFloatReportQueue_keeps he
    | sweepPageBegin => exact execSweepPageBegin_keeps he
    | sweepPageWrite => exact execSweepPageWrite_keeps he
    | sweepEnd => exact execSweepEnd_keeps he
    | answerWrite => exact execAnswerWrite_keeps he
    | enrol =>
      exact ownerTakes_keeps (f := fun i s => _) he fun i => decided_keeps i _ _ (enrol_adirOk s i _)
    | amend => exact ownerTakes_keeps (f := fun i s => _) he fun i => decided_keeps i _ _ (amend_adirOk s i)
    | keyroll => exact ownerTakes_keeps (f := fun i s => _) he fun i => decided_keeps i _ _ (keyroll_adirOk s i)
    | retire => exact execRetire_keeps he
    | grant | floatTerms => exact ownerTakes_keeps (f := fun i s => _) he fun i => floatInstr_keeps s _
    | tariff => exact execTariff_keeps he
    | arm => exact execArm_keeps he
    | disarm => exact execDisarm_keeps he
    | months => exact execMonths_keeps he
    | time => exact execTime_keeps he
    | holdover => exact execHoldover_keeps he
    | sweep => exact execSweep_keeps he
    | floatQuery => exact ownerTakes_keeps (f := fun i s => _) he fun _ => answered_keeps s _ _ _
    | unknownInstruction => exact execUnknownInstruction_keeps he
    | powerLoss | resetNLow | partStart | clearEnd | recoveryDone => cases hc
    | _ =>
      -- RECALL, the one command left that is not at the front
      first
        | exact absurd (show false = true from hfront.symm) Bool.false_ne_true
        | exact ownerTakes_keeps (f := fun i s => _) he fun i => floatInstr_keeps s _

end Sys2Proof.Machine
end

section
/-! PROOF. What a cut of the store may touch (R70, R204), and the part held in reset. -/

namespace Sys2Proof.Machine

/-! ### What a cut of the store may touch (R204) -/

/-- From `s` to `t` a cut may have moved the store's records, the clock's minute and mark, the service mode and the status
words; the rest stands. -/
structure State.cutOnly (s t : State) : Prop where
  tke : t.tke = { s.tke with clockValid := t.tke.clockValid, minute := t.tke.minute }
  vnc : t.vnc = s.vnc
  lines : t.tlu.lines = s.tlu.lines
  ulc : t.ulc = { s.ulc with mode := t.ulc.mode }
  rgi : t.rgi = s.rgi
  atc : t.atc = { s.atc with status := t.atc.status }
  pending : t.pending = s.pending

variable {s t u : State}

theorem State.cutOnly.refl (s : State) : s.cutOnly s := ⟨rfl, rfl, rfl, rfl, rfl, rfl, rfl⟩

theorem State.cutOnly.trans (h : s.cutOnly t) (k : t.cutOnly u) : s.cutOnly u where
  tke := by rw [k.tke, h.tke]
  vnc := k.vnc.trans h.vnc
  lines := k.lines.trans h.lines
  ulc := by rw [k.ulc, h.ulc]
  rgi := k.rgi.trans h.rgi
  atc := by rw [k.atc, h.atc]
  pending := k.pending.trans h.pending

theorem cutOnly_ite {p : Prop} [Decidable p] (ht : s.cutOnly t) (hu : s.cutOnly u) :
    s.cutOnly (if p then t else u) := by
  split <;> assumption

theorem foldl_cutOnly {α : Type} (f : State → α → State) (hf : ∀ (t : State) a, t.cutOnly (f t a)) (l : List α)
    (s : State) : s.cutOnly (l.foldl f s) := by
  induction l generalizing s with
  | nil => exact .refl s
  | cons a l ih => exact (hf s a).trans (ih (f s a))

theorem forCounters_cutOnly (f : Counter → State → State) (hf : ∀ c (t : State), t.cutOnly (f c t)) (s : State) :
    s.cutOnly (forCounters f s) :=
  forCounters_keeps (P := fun t => s.cutOnly t) f (fun c t ht => ht.trans (hf c t)) s (.refl s)

theorem drawn_cutOnly (s : State) : s.cutOnly s.drawn := ⟨rfl, rfl, rfl, rfl, rfl, rfl, rfl⟩
theorem mapAdir_cutOnly (s : State) (f : Adir → Adir) : s.cutOnly (s.mapAdir f) := ⟨rfl, rfl, rfl, rfl, rfl, rfl, rfl⟩
theorem mapTfu_cutOnly (s : State) (f : Tfu → Tfu) : s.cutOnly (s.mapTfu f) := ⟨rfl, rfl, rfl, rfl, rfl, rfl, rfl⟩
theorem mapFlu_cutOnly (s : State) (f : Flu → Flu) : s.cutOnly (s.mapFlu f) := ⟨rfl, rfl, rfl, rfl, rfl, rfl, rfl⟩
theorem raise_cutOnly (s : State) (b : Status) : s.cutOnly (s.raise b) := ⟨rfl, rfl, rfl, rfl, rfl, rfl, rfl⟩
theorem raiseIf_cutOnly (s : State) (p : Bool) (b : Status) : s.cutOnly (s.raiseIf p b) :=
  cutOnly_ite (raise_cutOnly s b) (.refl s)

theorem mapTlu_cutOnly (s : State) (f : Tlu → Tlu) (h : (f s.tlu).lines = s.tlu.lines) : s.cutOnly (s.mapTlu f) :=
  ⟨rfl, rfl, h, rfl, rfl, rfl, rfl⟩

theorem mapTill_cutOnly (s : State) (c : Counter) (f : Till → Till) : s.cutOnly (s.mapTill c f) :=
  mapTlu_cutOnly s _ rfl

theorem putRecord_cutOnly (s : State) (slot : Nat) (r : MeterRecord) : s.cutOnly (s.putRecord slot r) :=
  mapAdir_cutOnly s _

theorem dropRecord_cutOnly (s : State) (slot : Nat) : s.cutOnly (s.dropRecord slot) := mapAdir_cutOnly s _

/-! ### The cuts of the writes under way -/

theorem cutWrite_cutOnly (s : State) (w : RecordWrite) : s.cutOnly (s.cutWrite w) :=
  cutOnly_ite (.refl s) (cutOnly_ite ((drawn_cutOnly s).trans (putRecord_cutOnly _ _ _)) (drawn_cutOnly s))

theorem cutWrites_cutOnly (s : State) : s.cutOnly s.cutWrites :=
  (foldl_cutOnly _ cutWrite_cutOnly _ s).trans (mapAdir_cutOnly _ _)

theorem cutTfu_cutOnly (s : State) : s.cutOnly s.cutTfu := by
  rw [cutTfu_spec]
  exact ⟨cutThrough_tke _ s, rfl, rfl, rfl, rfl, rfl, rfl⟩

theorem cutFloat_cutOnly (s : State) : s.cutOnly s.cutFloat := by
  unfold State.cutFloat
  split
  · exact mapFlu_cutOnly s _
  · exact ((cutOnly_ite (mapFlu_cutOnly s _) (.refl s)).trans (drawn_cutOnly _)).trans (mapFlu_cutOnly _ _)

theorem cutStoring_cutOnly (c : Counter) (s : State) : s.cutOnly (State.cutStoring c s) := by
  unfold State.cutStoring
  split
  · exact .refl s
  · exact cutOnly_ite (.refl s) (cutOnly_ite ((drawn_cutOnly s).trans (mapTill_cutOnly _ _ _)) (drawn_cutOnly s))

theorem cutStores_cutOnly (s : State) : s.cutOnly s.cutStores := by
  have hstorings := forCounters_cutOnly _ cutStoring_cutOnly s
  unfold State.cutStores
  refine State.cutOnly.trans ?_ (mapTlu_cutOnly _ _ rfl)
  refine cutOnly_ite hstorings ⟨hstorings.tke, hstorings.vnc, rfl, hstorings.ulc, hstorings.rgi, hstorings.atc,
    hstorings.pending⟩

theorem cutTill_cutOnly (c : Counter) (s : State) : s.cutOnly (State.cutTill c s) := by
  have hdrawn (t : State) (f : Till → Till) : t.cutOnly (t.drawn.mapTill c f) :=
    (drawn_cutOnly t).trans (mapTill_cutOnly _ c f)
  unfold State.cutTill
  extract_lets s1 s2 s3
  have hpart : s.cutOnly s1 := by
    unfold s1
    split
    · exact .refl s
    · exact cutOnly_ite (.refl s) (cutOnly_ite (hdrawn s _) (drawn_cutOnly s))
  have hclosing : s1.cutOnly s2 := by
    unfold s2
    split
    · exact .refl s1
    · exact cutOnly_ite (hdrawn s1 _) (drawn_cutOnly s1)
  have hremoving : s2.cutOnly s3 := by
    unfold s3
    split
    · exact .refl s2
    · exact cutOnly_ite (.refl s2) (cutOnly_ite (hdrawn s2 _) (drawn_cutOnly s2))
  exact ((hpart.trans hclosing).trans hremoving).trans (mapTlu_cutOnly _ _ rfl)

theorem cutRecord_cutOnly (s : State) : s.cutOnly s.cutRecord := by
  unfold State.cutRecord
  split
  · exact .refl s
  · exact cutOnly_ite ⟨rfl, rfl, rfl, rfl, rfl, rfl, rfl⟩ (drawn_cutOnly s)

/-! ### The cut of the recovery pass (R70) -/

theorem settleTill_cutOnly (s : State) (c : Counter) : s.cutOnly (s.settleTill c) :=
  ((mapTlu_cutOnly s _ rfl).trans (mapTlu_cutOnly _ _ rfl)).trans (raiseIf_cutOnly _ _ _)

theorem storeOutcome_cutOnly (s : State) (c : Counter) (o : Outcome) : s.cutOnly (s.storeOutcome c o) := by
  have hsettle := settleTill_cutOnly s c
  unfold State.storeOutcome
  exact cutOnly_ite ((hsettle.trans (mapTill_cutOnly _ c _)).trans (raise_cutOnly _ _)) hsettle

theorem applyRecordPart_cutOnly (s : State) (c : Counter) (i : Image) : s.cutOnly (s.applyRecordPart c i) := by
  unfold State.applyRecordPart
  split
  · exact .refl s
  · exact cutOnly_ite (.refl s) (putRecord_cutOnly s _ _)

theorem passClaim_cutOnly (s : State) (c : Counter) (k : PassClaim) : s.cutOnly (s.passClaim c k) := by
  unfold State.passClaim
  split
  · exact .refl s
  · exact storeOutcome_cutOnly s c _
  · exact applyRecordPart_cutOnly s c _
  · exact cutOnly_ite (.refl s) (mapFlu_cutOnly s _)
  · exact cutOnly_ite (.refl s) ((mapTill_cutOnly s c _).trans (raiseIf_cutOnly _ _ _))
  · exact storeOutcome_cutOnly s c _
  · exact mapFlu_cutOnly s _
  · exact .refl s

theorem clearHold_cutOnly (s : State) (slot : Nat) : s.cutOnly (s.clearHold slot) := by
  unfold State.clearHold
  split
  · exact .refl s
  · exact cutOnly_ite (dropRecord_cutOnly s slot) (putRecord_cutOnly s slot _)

theorem cutHolds_cutOnly (s : State) : s.cutOnly s.cutHolds :=
  foldl_cutOnly _ (fun t _ => cutOnly_ite ((drawn_cutOnly t).trans (clearHold_cutOnly _ _)) (drawn_cutOnly t)) _ s

theorem cutClaims_cutOnly (l : List (Counter × PassClaim)) (s : State) : s.cutOnly (cutClaims l s) := by
  induction l generalizing s with
  | nil => exact cutHolds_cutOnly s
  | cons p l ih =>
    unfold cutClaims
    split
    · exact ((drawn_cutOnly s).trans (passClaim_cutOnly _ _ _)).trans (ih _)
    · exact drawn_cutOnly s

theorem unpass_cutOnly (s : State) : s.cutOnly s.unpass := ⟨rfl, rfl, rfl, rfl, rfl, rfl, rfl⟩

theorem endPass_cutOnly (s : State) : s.cutOnly s.endPass := ⟨rfl, rfl, rfl, rfl, rfl, rfl, rfl⟩

theorem cutPass_cutOnly (s : State) : s.cutOnly s.cutPass :=
  (cutOnly_ite ((unpass_cutOnly s).trans (cutClaims_cutOnly _ _)) (.refl s)).trans (endPass_cutOnly _)

theorem cutStore_cutOnly (s : State) : s.cutOnly s.cutStore := by
  unfold State.cutStore
  refine State.cutOnly.trans ?_ (cutPass_cutOnly _)
  refine State.cutOnly.trans ?_ (cutRecord_cutOnly _)
  refine State.cutOnly.trans ?_ (forCounters_cutOnly _ cutTill_cutOnly _)
  refine State.cutOnly.trans ?_ (cutStores_cutOnly _)
  exact ((cutWrites_cutOnly s).trans (cutTfu_cutOnly _)).trans (cutFloat_cutOnly _)

/-! ### The part held in reset -/

/-- Held in reset, the clock domain and the queue stand as the cut left them. -/
theorem hold_tke (s : State) (b : Bool) :
    (s.hold b).tke = { s.leaveUp.cutStore.tke with queue := [], engine := .idle, work := none } := rfl

theorem hold_pending (s : State) (b : Bool) : (s.hold b).pending = s.pending :=
  (cutStore_cutOnly s.leaveUp).pending.trans (leaveUp_pending s)

/-- A cut keeps the clock in range (R87, R91). -/
theorem hold_clockOk (s : State) (b : Bool) (h : s.tke.clockOk) : (s.hold b).tke.clockOk := by
  obtain ⟨hminute, hvalid⟩ := mem_cutPoints_clock (hold_point s b) h
  refine ⟨hminute, ?_, hvalid⟩
  have hcut : (s.hold b).tke.sinceUp = s.leaveUp.tke.sinceUp := by
    rw [hold_tke, (cutStore_cutOnly s.leaveUp).tke]
  obtain ⟨-, hup, -⟩ := clockOk_of_count h (leaveUp_minute s) (leaveUp_clockValid s) (leaveUp_count s)
  rwa [hcut]

theorem hold_held (s : State) (b : Bool) : (s.hold b).atc.held = some ⟨b⟩ := rfl

theorem live_of_hold (s : State) (b : Bool) : (s.hold b).live = false := by
  simp [State.live, hold_held]

/-- A cut leaves ULC as after a reset, but for its store record and the carrier (R181). -/
theorem hold_ulc (s : State) (b : Bool) :
    (s.hold b).ulc =
      { Ulc.cleared with mode := (s.hold b).ulc.mode, holdover := s.ulc.holdover, carrier := s.ulc.carrier } := by
  have hulc := (cutStore_cutOnly s.leaveUp).ulc
  rw [leaveUp_ulc] at hulc
  change { Ulc.cleared with
    mode := s.leaveUp.cutStore.ulc.mode, holdover := s.leaveUp.cutStore.ulc.holdover
    carrier := s.leaveUp.cutStore.ulc.carrier } = { Ulc.cleared with
      mode := s.leaveUp.cutStore.ulc.mode, holdover := s.ulc.holdover, carrier := s.ulc.carrier }
  rw [hulc]

theorem hold_placesOk (s : State) (b : Bool) : (s.hold b).ulc.placesOk := by
  rw [hold_ulc]
  exact cleared_placesOk

end Sys2Proof.Machine
end

section
/-! PROOF. A part in reset or in CLEARING takes nothing (R204, R205); what the starts and the end of the recovery pass leave;
and the statements on every step and every command. -/

namespace Sys2Proof.Machine

variable {s t : State}

/-! ### A part in reset or in CLEARING takes nothing (R204, R205) -/

theorem whenLive_of_not_live (f : State → State) (h : s.live = false) : whenLive f s = .next s := by
  simp [whenLive, h]

theorem inService_of_not_live (h : s.live = false) : s.inService = false := by
  rw [Bool.eq_false_iff]
  intro hs
  rw [live_of_inService hs] at h
  cases h

theorem whenInService_of_not_live (f : State → State) (h : s.live = false) : whenInService f s = .next s := by
  simp [whenInService, inService_of_not_live h]

/-- The commands that a part in reset or in CLEARING takes: the control inputs, the clock, the pins and a read. -/
def takenIdle : Instr → Bool
  | .powerLoss | .resetNLow | .partStart _ | .clearEnd | .recoveryDone | .vbakLoss | .vbakReturn | .floatLowwaterRead
  | .clockAdvance | .minutesSinceUpTick | .drwInChange _ _ | .carrierLoss | .carrierGain => true
  | _ => false

theorem exec_of_not_live {c : Instr} (h : s.live = false) (hwf : c.wf = true) (hc : takenIdle c = false) :
    exec c s = .next s := by
  cases c with
  | ringLook r d =>
    change execRingLook r d s = _
    rw [execRingLook, if_pos (show descriptorWf d = true from hwf)]
    exact whenInService_of_not_live _ h
  | initBlockReadDone b =>
    change execInitBlockReadDone b s = _
    rw [execInitBlockReadDone, if_pos (show initBlockWf b = true from hwf)]
    exact whenInService_of_not_live _ h
  | parcelReceive l =>
    change execParcelReceive l s = _
    rw [execParcelReceive, if_pos (show parcelWf l = true from hwf)]
    exact whenLive_of_not_live _ h
  | windowWrite | init | start | stop | demand | ringFaultClear | busFaultClear | statusWrite | enableWrite
  | summaryEnableWrite | cancel | linkEnable | ringReset | engineReset | engineRun | linkReset | linesReset
  | levelCounted | pulseEnd | stuckTimerExpiry | longTimerExpiry | rateWindowEnd | serviceModeWritten
  | trainingTimeout | silenceTimeout | slipTimeout | idleParcelSend | upwardEntrySent =>
    exact whenLive_of_not_live (fun s => _) h
  | powerLoss | resetNLow | partStart | clearEnd | recoveryDone | vbakLoss | vbakReturn | floatLowwaterRead
  | clockAdvance | minutesSinceUpTick | drwInChange | carrierLoss | carrierGain => cases hc
  | _ => exact whenInService_of_not_live (fun s => _) h

/-- A command that completes is well-formed. -/
theorem wf_of_next {c : Instr} (he : exec c s = .next t) : c.wf = true := by
  cases c with
  | ringLook r d =>
    change execRingLook r d s = _ at he
    unfold execRingLook at he
    split at he
    · assumption
    · cases he
  | initBlockReadDone b =>
    change execInitBlockReadDone b s = _ at he
    unfold execInitBlockReadDone at he
    split at he
    · assumption
    · cases he
  | parcelReceive l =>
    change execParcelReceive l s = _ at he
    unfold execParcelReceive at he
    split at he
    · assumption
    · cases he
  | _ => rfl

/-- A part that takes no window write begins no write of FLU (R204, R205). -/
theorem exec_writing_of_not_live {c : Instr} (h : s.live = false) (hc : movesPhase c = false)
    (he : exec c s = .next t) : t.flu.writing = s.flu.writing := by
  cases htaken : takenIdle c with
  | false =>
    rw [exec_of_not_live h (wf_of_next he) htaken] at he
    rw [Host.Outcome.next.inj he]
  | true =>
    cases c with
    | vbakLoss | vbakReturn =>
      rw [← Host.Outcome.next.inj he]
      rfl
    | floatLowwaterRead =>
      rw [← Host.Outcome.next.inj he]
      (repeat' split) <;> rfl
    | drwInChange c l => rw [(exec_front rfl he).flu]
    | clockAdvance | minutesSinceUpTick =>
      rw [← Host.Outcome.next.inj he]
      simp only [h, Bool.false_and, if_false, Bool.false_eq_true]
      split <;> simp
    | carrierLoss | carrierGain =>
      rw [← Host.Outcome.next.inj he]
      simp [h]
    | powerLoss | resetNLow | partStart | clearEnd | recoveryDone => cases hc
    | _ => cases htaken

/-! ### Cuts, starts and the end of the pass -/

theorem passClaim_adirOk (s : State) (c : Counter) (k : PassClaim) (h : s.adir.ok) : (s.passClaim c k).adir.ok := by
  unfold State.passClaim
  split <;> first | exact applyRecordPart_adirOk s c _ h | simpa using h

theorem recoverEntry_adirOk (c : Counter) (s : State) (h : s.adir.ok) : (State.recoverEntry c s).adir.ok := by
  unfold State.recoverEntry
  induction PassClaim.all generalizing s with
  | nil => exact h
  | cons k l ih => exact ih _ (passClaim_adirOk s c k h)

/-- RECOVERING is entered with the table in its form, and keeps it as the pass finds it (R70). -/
theorem enterRecovering_adirOk (s : State) (h : s.adir.ok) : s.enterRecovering.adir.ok := by
  refine forCounters_keeps (P := fun t => t.adir.ok) _ (fun c t => recoverEntry_adirOk c t) _ ?_
  have hadir : ((s.mapAtc fun a => { a with phase := .recovering }).startTfu).adir = s.adir := by simp
  obtain ⟨htable, hrestorable, -⟩ := h
  unfold State.beginPass
  simp only [mapTlu_adir, mapFlu_adir, mapAdir_adir, hadir]
  refine ⟨htable, hrestorable, ?_⟩
  rintro l hl
  obtain rfl := Option.some.inj hl
  exact htable

/-- Entering RECOVERING leaves the clock domain, ULC, the reset level and the queue; the phase is RECOVERING. -/
theorem recoverEntry_tke (c : Counter) (s : State) : (State.recoverEntry c s).tke = s.tke := by
  unfold State.recoverEntry
  induction PassClaim.all generalizing s with
  | nil => rfl
  | cons k l ih => exact (ih _).trans (passClaim_tke s c k)

theorem recoverEntry_cutOnly (c : Counter) (s : State) : s.cutOnly (State.recoverEntry c s) :=
  foldl_cutOnly _ (fun t k => passClaim_cutOnly t c k) _ s

theorem enterRecovering_tke (s : State) : s.enterRecovering.tke = s.tke := by
  unfold State.enterRecovering
  rw [forCounters_tke _ _ recoverEntry_tke]
  simp

theorem recoverEntry_ulc (c : Counter) (s : State) : (State.recoverEntry c s).ulc = s.ulc := by
  unfold State.recoverEntry
  induction PassClaim.all generalizing s with
  | nil => rfl
  | cons k l ih => exact (ih _).trans (passClaim_ulc s c k)

theorem enterRecovering_ulc (s : State) : s.enterRecovering.ulc = s.ulc := by
  unfold State.enterRecovering
  rw [forCounters_ulc _ _ recoverEntry_ulc]
  simp

theorem enterRecovering_pending (s : State) : s.enterRecovering.pending = s.pending := by
  unfold State.enterRecovering
  rw [(forCounters_cutOnly _ recoverEntry_cutOnly _).pending]
  simp

/-- The clock and the count that a loss of VBAK leaves (R88, R91). -/
theorem lost_clockOk (k : Tke) : k.lost.clockOk := ⟨Nat.zero_le _, Nat.le_refl _, fun _ => rfl⟩

theorem tableOk_nil : tableOk [] = true := by decide

theorem cleared_balanced : Flu.cleared.balanced := by
  refine balanced_idle ?_ rfl ?_
  · unfold Flu.solvent
    decide
  · rintro b ⟨⟩

/-- The state of a part that starts, before it clears or recovers (R205, R207). -/
def State.started (s : State) (strap : Bool) : State :=
  (if s.atc.backupGone then s.mapTke Tke.lost else s).mapAtc fun a =>
    { a with held := none, backupLost := s.atc.backupGone, clearRun := strap || decide (s.atc.mark = .clearing) }

/-- A start of a part held in reset makes the commissioning clear or enters RECOVERING (R205, R206). -/
theorem execPartStart_cases (strap : Bool) (h : s.atc.held ≠ none) :
    execPartStart strap s = .next
      (if strap || decide (s.atc.mark = .clearing) then
        (s.started strap).eraseStore.mapAtc fun a => { a with phase := .clearing, mark := .clearing }
      else (s.started strap).enterRecovering) := by
  unfold execPartStart
  rw [if_neg (by simpa using h)]
  rfl

theorem execPartStart_of_running (strap : Bool) (h : s.atc.held = none) : execPartStart strap s = .next s := by
  unfold execPartStart
  rw [if_pos (by simp [h])]

theorem started_tke (s : State) (strap : Bool) :
    (s.started strap).tke = if s.atc.backupGone then s.tke.lost else s.tke := by
  unfold State.started
  split <;> rfl

theorem started_clockOk (strap : Bool) (h : s.tke.clockOk) : (s.started strap).tke.clockOk := by
  rw [started_tke]
  split
  · exact lost_clockOk _
  · exact h

theorem started_adir (s : State) (strap : Bool) : (s.started strap).adir = s.adir := by
  unfold State.started
  split <;> rfl

theorem started_flu (s : State) (strap : Bool) : (s.started strap).flu = s.flu := by
  unfold State.started
  split <;> rfl

theorem started_ulc (s : State) (strap : Bool) : (s.started strap).ulc = s.ulc := by
  unfold State.started
  split <;> rfl

theorem started_pending (s : State) (strap : Bool) : (s.started strap).pending = s.pending := by
  unfold State.started
  split <;> rfl

/-- The part as the end of the recovery pass leaves it, before a waiting INIT is taken (R14, R69). -/
def State.recovered (s : State) : State :=
  (s.mapAdir fun a => { a with table := clearHolds a.table }).endPass.endFloatRecovery.mapAtc
    fun a => { a with phase := .inService }

theorem execRecoveryDone_cases (hheld : s.atc.held = none) (hphase : s.atc.phase = .recovering) :
    execRecoveryDone s = .next
      (if s.recovered.rgi.initWaiting then (s.recovered.mapRgi fun g => { g with initWaiting := false }).beginInit
      else s.recovered) := by
  unfold execRecoveryDone
  rw [if_pos (by simp [hheld, hphase])]
  rfl

theorem execRecoveryDone_idle (h : ¬(s.atc.held = none ∧ s.atc.phase = .recovering)) :
    execRecoveryDone s = .next s := by
  unfold execRecoveryDone
  rw [if_neg]
  simpa using h

theorem beginInit_front (s : State) : s.front s.beginInit := by
  unfold State.beginInit
  exact front_ite (initFails_front s _ _) (mapRgi_front s _)

/-- A waiting INIT that RECOVERY_DONE takes touches RGI and its status word alone. -/
theorem execRecoveryDone_front (hheld : s.atc.held = none) (hphase : s.atc.phase = .recovering)
    (he : execRecoveryDone s = .next t) : s.recovered.front t := by
  rw [execRecoveryDone_cases hheld hphase] at he
  obtain rfl := Host.Outcome.next.inj he
  exact front_ite ((mapRgi_front _ _).trans (beginInit_front _)) (.refl _)

theorem recovered_adirOk (h : s.adir.ok) : s.recovered.adir.ok := by
  obtain ⟨htable, hrestorable, -⟩ := clearHolds_adirOk s h
  unfold State.recovered
  simp only [mapAtc_adir, endFloatRecovery_adir]
  exact ⟨htable, hrestorable, by rintro l ⟨⟩⟩

theorem recovered_flu (s : State) :
    s.recovered.flu = { s.flu with nextSerial := s.flu.record.nextSerial, lowWater := s.flu.available, before := none } := by
  simp [State.recovered, State.endFloatRecovery, State.endPass, State.mapAdir, State.mapTfu, State.mapFlu, State.mapTlu,
    State.mapAtc, raiseIf_flu, raise_flu, Flu.available, Flu.reserved]

/-- The working figures that the end of the pass computes do not enter the balance of a write under way. -/
theorem complete_solvent_of_figures {f : Flu} (h : f.solvent) (k : FloatClaim) (hk : (f.complete k).solvent) (n m : Nat)
    (b : Option FloatStore) :
    (({ f with nextSerial := n, lowWater := m, before := b } : Flu).complete k).solvent := by
  match k, hk with
  | .seal c tokens, _ =>
    exact solvent_seal (f := { f with nextSerial := n, lowWater := m, before := b }) h c tokens
  | .floatPart c, hk =>
    have hsame : ({ f with nextSerial := n, lowWater := m, before := b } : Flu).sealedImage c = f.sealedImage c := rfl
    cases himage : f.sealedImage c <;> simp only [Flu.complete, hsame, himage] at hk ⊢ <;> exact hk
  | .reserve .., hk | .release .., hk | .free .., hk | .grant .., hk | .recall .., hk | .terms .., hk => exact hk

theorem recovered_balanced (h : s.flu.balanced) : s.recovered.flu.balanced := by
  obtain ⟨hsolvent, hwriting, -⟩ := h
  rw [recovered_flu]
  refine ⟨hsolvent, fun k hk => ?_, by rintro b ⟨⟩⟩
  exact complete_solvent_of_figures hsolvent k (hwriting k hk) _ _ _

theorem recovered_live (hheld : s.atc.held = none) : s.recovered.live = true := by
  simp [live_iff, State.recovered, State.endPass, hheld]

theorem recovered_tke (s : State) : s.recovered.tke = s.tke := by simp [State.recovered]
theorem recovered_ulc (s : State) : s.recovered.ulc = s.ulc := by simp [State.recovered]
theorem recovered_pending (s : State) : s.recovered.pending = s.pending := by simp [State.recovered]

theorem noteVbak_keeps (s : State) : s.keeps s.noteVbak := ⟨id, id, id, id, rfl, rfl, rfl⟩

/-- A power loss holds a running part in reset; a part already held only notes the loss of its supply (R204). -/
theorem execPowerLoss_cases (he : execPowerLoss s = .next t) :
    t = (s.hold true).noteVbak ∨ ∃ h, s.atc.held = some h ∧ ∃ b, t = s.mapAtc fun a =>
      { a with held := some ⟨true⟩, vbakHeld := b } := by
  obtain rfl := Host.Outcome.next.inj he
  split
  · exact .inl rfl
  · next h hheld =>
    refine .inr ⟨h, hheld, ?_⟩
    split
    · next hlost =>
      obtain ⟨supplyLost⟩ := h
      obtain rfl : supplyLost = true := hlost
      refine ⟨s.atc.vbakHeld, ?_⟩
      simp only [State.mapAtc, ← hheld]
    · exact ⟨s.atc.vbakUp, rfl⟩

theorem execResetNLow_cases (he : execResetNLow s = .next t) : t = s ∨ s.atc.held = none ∧ t = s.hold false := by
  obtain rfl := Host.Outcome.next.inj he
  split
  · next h => exact .inr ⟨by simpa using h, rfl⟩
  · exact .inl rfl

/-- An invariant that a cut makes good and that the supply marks do not enter is kept by a cut. -/
theorem exec_cut {P : State → Prop} {c : Instr} (hc : c = .powerLoss ∨ c = .resetNLow) (h : P s)
    (hhold : ∀ b, P (s.hold b)) (hvbak : ∀ (u : State) f, P u → u.atc.held ≠ none → (f u.atc).held ≠ none → P (u.mapAtc f))
    (he : exec c s = .next t) : P t := by
  rcases hc with rfl | rfl
  · rcases execPowerLoss_cases he with rfl | ⟨h', hheld, b, rfl⟩
    · exact hvbak _ _ (hhold true) (by simp [hold_held]) (by simp [hold_held])
    · exact hvbak s _ h (by simp [hheld]) (by simp)
  · rcases execResetNLow_cases he with rfl | ⟨-, rfl⟩
    · exact h
    · exact hhold false

/-- What a start or the end of CLEARING leaves: the part as it was, or cleared, or in RECOVERING. -/
theorem exec_start_cases {c : Instr} (hc : (∃ strap, c = .partStart strap) ∨ c = .clearEnd) (he : exec c s = .next t) :
    t = s ∨ s.live = false ∧
      ((∃ strap, t = (s.started strap).eraseStore.mapAtc fun a => { a with phase := .clearing, mark := .clearing }) ∨
        (∃ strap, t = (s.started strap).enterRecovering) ∨
        t = (s.mapAtc fun a => { a with mark := .commissioned }).enterRecovering) := by
  rcases hc with ⟨strap, rfl⟩ | rfl
  · by_cases hheld : s.atc.held = none
    · exact .inl (Host.Outcome.next.inj (he.symm.trans (execPartStart_of_running strap hheld)))
    · have hlive : s.live = false := live_of_held_or_clearing (.inl (Option.isSome_iff_ne_none.2 hheld))
      obtain rfl := Host.Outcome.next.inj (he.symm.trans (execPartStart_cases strap hheld))
      refine .inr ⟨hlive, ?_⟩
      split
      · exact .inl ⟨strap, rfl⟩
      · exact .inr (.inl ⟨strap, rfl⟩)
  · obtain rfl := Host.Outcome.next.inj he
    split
    · next h =>
      simp only [Bool.and_eq_true, decide_eq_true_eq] at h
      exact .inr ⟨live_of_held_or_clearing (.inr h.2), .inr (.inr rfl)⟩
    · exact .inl rfl

/-- The commands that move the start phase are the cuts, the starts, and the end of the recovery pass. -/
theorem movesPhase_cases {c : Instr} (hc : movesPhase c = true) :
    (c = .powerLoss ∨ c = .resetNLow) ∨ ((∃ strap, c = .partStart strap) ∨ c = .clearEnd) ∨ c = .recoveryDone := by
  cases c with
  | powerLoss => exact .inl (.inl rfl)
  | resetNLow => exact .inl (.inr rfl)
  | partStart strap => exact .inr (.inl (.inl ⟨strap, rfl⟩))
  | clearEnd => exact .inr (.inl (.inr rfl))
  | recoveryDone => exact .inr (.inr rfl)
  | _ => cases hc

/-- A RECOVERY_DONE that finds no pass changes nothing, and one that finds a pass leaves the recovered part but for RGI. -/
theorem exec_recoveryDone_cases (he : exec .recoveryDone s = .next t) :
    t = s ∨ s.atc.held = none ∧ s.atc.phase = .recovering ∧ s.recovered.front t := by
  by_cases h : s.atc.held = none ∧ s.atc.phase = .recovering
  · obtain ⟨hheld, hphase⟩ := h
    exact .inr ⟨hheld, hphase, execRecoveryDone_front hheld hphase he⟩
  · exact .inl (Host.Outcome.next.inj (he.symm.trans (execRecoveryDone_idle h)))

/-! ### The four invariants -/

theorem exec_clockOk {c : Instr} (h : s.tke.clockOk) (he : exec c s = .next t) : t.tke.clockOk := by
  cases hc : movesPhase c with
  | false => exact (exec_keeps hc he).clock h
  | true =>
    rcases movesPhase_cases hc with hcut | hstart | rfl
    · exact exec_cut (P := fun t => t.tke.clockOk) hcut h (fun b => hold_clockOk s b h) (fun u f hu _ _ => hu) he
    · rcases exec_start_cases hstart he with rfl | ⟨-, hstarted⟩
      · exact h
      · rcases hstarted with ⟨strap, ht⟩ | ⟨strap, ht⟩ | ht <;> rw [ht]
        · exact lost_clockOk _
        · rw [enterRecovering_tke]
          exact started_clockOk strap h
        · rwa [enterRecovering_tke]
    · rcases exec_recoveryDone_cases he with rfl | ⟨-, -, hfront⟩
      · exact h
      · rwa [hfront.tke, recovered_tke]

theorem exec_placesOk {c : Instr} (h : s.ulc.placesOk) (he : exec c s = .next t) : t.ulc.placesOk := by
  cases hc : movesPhase c with
  | false => exact (exec_keeps hc he).places h
  | true =>
    rcases movesPhase_cases hc with hcut | hstart | rfl
    · exact exec_cut (P := fun t => t.ulc.placesOk) hcut h (hold_placesOk s) (fun u f hu _ _ => hu) he
    · rcases exec_start_cases hstart he with rfl | ⟨-, hstarted⟩
      · exact h
      · rcases hstarted with ⟨strap, ht⟩ | ⟨strap, ht⟩ | ht <;> rw [ht]
        · have hulc : (s.started strap).ulc.placesOk := by rwa [started_ulc]
          exact hulc
        · rwa [enterRecovering_ulc, started_ulc]
        · rwa [enterRecovering_ulc]
    · rcases exec_recoveryDone_cases he with rfl | ⟨-, -, hfront⟩
      · exact h
      · rwa [hfront.ulc, recovered_ulc]

theorem exec_adirOk {c : Instr} (h : s.adir.ok) (he : exec c s = .next t) : t.adir.ok := by
  cases hc : movesPhase c with
  | false => exact (exec_keeps hc he).table h
  | true =>
    rcases movesPhase_cases hc with hcut | hstart | rfl
    · exact exec_cut (P := fun t => t.adir.ok) hcut h (fun b => hold_adirOk s b h) (fun u f hu _ _ => hu) he
    · rcases exec_start_cases hstart he with rfl | ⟨-, hstarted⟩
      · exact h
      · rcases hstarted with ⟨strap, ht⟩ | ⟨strap, ht⟩ | ht <;> rw [ht]
        · exact adirOk_idle tableOk_nil rfl (by rintro l ⟨⟩)
        · exact enterRecovering_adirOk _ (by rwa [started_adir])
        · exact enterRecovering_adirOk _ h
    · rcases exec_recoveryDone_cases he with rfl | ⟨-, -, hfront⟩
      · exact h
      · rw [hfront.adir]
        exact recovered_adirOk h

theorem floatOk_of_idle (h : s.floatIdle) : s.floatOk := ⟨h.1, fun _ => h.2⟩

theorem floatIdle_of_not_live (h : s.floatOk) (hlive : s.live = false) : s.floatIdle := ⟨h.1, h.2 hlive⟩

theorem exec_floatOk {c : Instr} (h : s.floatOk) (he : exec c s = .next t) : t.floatOk := by
  cases hc : movesPhase c with
  | false =>
    have hkeeps := exec_keeps hc he
    refine ⟨hkeeps.balanced h.1, fun hlive => ?_⟩
    rw [hkeeps.live] at hlive
    rw [exec_writing_of_not_live hlive hc he]
    exact h.2 hlive
  | true =>
    rcases movesPhase_cases hc with hcut | hstart | rfl
    · refine exec_cut (P := fun t => t.floatOk) hcut h (fun b => ?_) (fun u f hu hheld _ => ?_) he
      · exact floatOk_of_idle (hold_balanced s b h.1)
      · have hlive : u.live = false := live_of_held_or_clearing (.inl (Option.isSome_iff_ne_none.2 hheld))
        exact ⟨hu.1, fun _ => hu.2 hlive⟩
    · rcases exec_start_cases hstart he with rfl | ⟨hlive, hrest⟩
      · exact h
      · have hidle := floatIdle_of_not_live h hlive
        rcases hrest with ⟨strap, ht⟩ | ⟨strap, ht⟩ | ht <;> rw [ht]
        · exact floatOk_of_idle ⟨cleared_balanced, rfl⟩
        · refine floatOk_of_idle (enterRecovering_floatIdle _ ?_)
          unfold State.floatIdle
          rwa [started_flu]
        · exact floatOk_of_idle (enterRecovering_floatIdle _ hidle)
    · rcases exec_recoveryDone_cases he with rfl | ⟨hheld, hphase, hfront⟩
      · exact h
      · refine ⟨by rw [hfront.flu]; exact recovered_balanced h.1, fun hlive => ?_⟩
        rw [live_of_eq hfront.held hfront.phase, recovered_live hheld] at hlive
        cases hlive

/-- An invariant that every command keeps, that the next part of a page keeps, and that the queue does not enter, is kept
by every step. -/
theorem step_invariant {P : State → Prop} (hexec : ∀ {c : Instr} {s t : State}, P s → exec c s = .next t → P t)
    (hpart : ∀ {s : State}, P s → P s.nextPart) (hqueue : ∀ {s : State} rest, P s → P { s with pending := rest })
    (h : P s) (hs : step s = .next t) : P t := by
  unfold step at hs
  split at hs
  · obtain rfl := Host.Outcome.next.inj hs
    exact hpart h
  · next c rest _ => exact hexec (hqueue rest h) hs

/-! ### The queue of commands -/

theorem exec_pending {c : Instr} (he : exec c s = .next t) : t.pending = s.pending := by
  cases hc : movesPhase c with
  | false => exact (exec_keeps hc he).pending
  | true =>
    rcases movesPhase_cases hc with hcut | hstart | rfl
    · exact exec_cut (P := fun t => t.pending = s.pending) hcut rfl (hold_pending s) (fun u f hu _ _ => hu) he
    · rcases exec_start_cases hstart he with rfl | ⟨-, hstarted⟩
      · rfl
      · rcases hstarted with ⟨strap, ht⟩ | ⟨strap, ht⟩ | ht <;> rw [ht]
        · exact started_pending s strap
        · exact (enterRecovering_pending _).trans (started_pending s strap)
        · exact enterRecovering_pending _
    · rcases exec_recoveryDone_cases he with rfl | ⟨-, -, hfront⟩
      · rfl
      · exact hfront.pending.trans (recovered_pending s)

/-- A well-formed command completes (log entry 1). -/
theorem exec_next_of_wf {c : Instr} (s : State) (h : c.wf = true) : ∃ t, exec c s = .next t := by
  cases c with
  | ringLook r d => exact ⟨_, if_pos (show descriptorWf d = true from h)⟩
  | initBlockReadDone b => exact ⟨_, if_pos (show initBlockWf b = true from h)⟩
  | parcelReceive l => exact ⟨_, if_pos (show parcelWf l = true from h)⟩
  | _ => exact ⟨_, rfl⟩

/-- An ill-formed operand is the one fault (log entry 1). -/
theorem exec_fault_of_not_wf {c : Instr} (s : State) (h : c.wf = false) : exec c s = .fault .illFormed := by
  cases c with
  | ringLook r d => exact if_neg (by rw [show descriptorWf d = false from h]; decide)
  | initBlockReadDone b => exact if_neg (by rw [show initBlockWf b = false from h]; decide)
  | parcelReceive l => exact if_neg (by rw [show parcelWf l = false from h]; decide)
  | _ => cases h

theorem step_of_idle (h : s.pending = []) : step s = .next s.nextPart := by rw [step, h]

/-- The next part of an entry is due: the transmitter is in a page, and a part of it is left. -/
theorem nextPart_of_due {x : Transmission} {n : Nat} {e : UpEntry} {rest : List UpEntry} (hx : s.ulc.tx = some x)
    (hn : s.ulc.office = some n) (hq : s.ulc.queue = e :: rest) (hlive : s.live = true)
    (hparts : x.sent.length + 1 < e.parts) :
    s.nextPart = { s with ulc := { s.ulc with
      tx := some ⟨⟨n, s.upNibble⟩, x.sent ++ [x.now]⟩, lastSent := e.parcels (x.sent ++ [x.now])
      noneTold := s.ulc.noneTold || !s.anyOutcome } } := by
  unfold State.nextPart
  rw [hx, hn, hq]
  simp only [hlive, hparts, decide_true, Bool.and_self, if_true]
  rfl

/-- An entry of one part, or a page whose parts have all begun, leaves the transmitter alone. -/
theorem nextPart_of_not_due
    (h : ∀ x n e rest, s.ulc.tx = some x → s.ulc.office = some n → s.ulc.queue = e :: rest → s.live = true →
      ¬x.sent.length + 1 < e.parts) : s.nextPart = s := by
  unfold State.nextPart
  split
  · next x n e rest hx hn hq =>
    split
    · next hdue =>
      simp only [Bool.and_eq_true, decide_eq_true_eq] at hdue
      exact absurd hdue.2 (h x n e rest hx hn hq hdue.1)
    · rfl
  · rfl

end Sys2Proof.Machine

namespace Sys2Proof.Proofs

open Sys2Proof Sys2Proof.Machine

/-- Settles O4: a cut leaves the clock at a point of a row it fell in, and every other command moves it within its range. -/
theorem everyStepKeepsTheClockInRange : Obligations.EveryStepKeepsTheClockInRange := by
  intro s t h hs
  exact step_invariant (P := fun s => s.tke.clockOk) exec_clockOk (fun h => by simpa using h) (fun _ h => h) h hs

/-- Settles O5: FLU begins a write only where its completion stays solvent. -/
theorem everyStepKeepsTheFloatBalanced : Obligations.EveryStepKeepsTheFloatBalanced := by
  intro s t h hs
  refine step_invariant (P := State.floatOk) exec_floatOk (fun {s} h => ?_) (fun _ h => h) h hs
  unfold State.floatOk
  rwa [nextPart_flu, live_of_eq (congrArg Atc.held (nextPart_atc s)) (congrArg Atc.phase (nextPart_atc s))]

/-- Settles O6: each operation on the queue gives a place out, or gives it back, with what holds it. -/
theorem everyStepKeepsTheQueuePlaces : Obligations.EveryStepKeepsTheQueuePlaces := by
  intro s t h hs
  exact step_invariant (P := fun s => s.ulc.placesOk) exec_placesOk (fun h => nextPart_placesOk _ h) (fun _ h => h) h hs

/-- Settles O7: a record is written under its own slot and number, and an ENROL takes a slot that nothing holds. -/
theorem everyStepKeepsTheMeterTable : Obligations.EveryStepKeepsTheMeterTable := by
  intro s t h hs
  exact step_invariant (P := fun s => s.adir.ok) exec_adirOk (fun h => by simpa using h) (fun _ h => h) h hs

/-- Settles O2: of the upward entries only a sweep page has more than one part. -/
theorem stepIdlesAndCommandsLeaveTheQueue : Obligations.StepIdlesAndCommandsLeaveTheQueue := by
  refine ⟨fun s hpending => ⟨fun hpage => ?_, fun x n next remaining summaries rest hx hn hq hlive hparts => ?_⟩,
    fun c s => ⟨fun hwf => ?_, exec_fault_of_not_wf s⟩⟩
  · have hidle : s.nextPart = s := by
      refine nextPart_of_not_due fun x n e rest hx hn hq hlive => ?_
      cases e with
      | sweepPage next remaining summaries =>
        exact Nat.not_lt.2 (hpage x next remaining summaries rest hx hq hlive (by simp [hn]))
      | answer | floatReport | sweepEnd => exact Nat.not_lt.2 (Nat.le_add_left 1 _)
    rw [step_of_idle hpending, hidle]
  · rw [step_of_idle hpending, nextPart_of_due hx hn hq hlive hparts]
  · obtain ⟨t, ht⟩ := exec_next_of_wf s hwf
    exact ⟨t, ht, exec_pending ht⟩

/-- Settles O3: every other command is an event of a part past CLEARING, or of a part in service. -/
theorem anIdlePartTakesNothing : Obligations.AnIdlePartTakesNothing := by
  intro c s hlive hwf hc
  refine exec_of_not_live hlive hwf ?_
  cases c <;> first | rfl | exact absurd hc id

end Sys2Proof.Proofs
end

section
/-! PROOF. The register window and its pulses (Chapters 9 and 10): which write is which command, the status bits, INIT, STOP
and the resets, by the meaning of each word. -/

namespace Sys2Proof.Machine

variable {s : State}

theorem whenInService_of_inService (f : State → State) (h : s.inService = true) : whenInService f s = .next (f s) := by
  rw [whenInService, if_pos h]

theorem exec_windowWrite_of_live (h : s.live = true) (v : Word) :
    exec (.windowWrite .data v) s = .next (s.writeWord s.rgi.windowIndex.toNat v) :=
  whenLive_of_live (fun s => s.writeWord s.rgi.windowIndex.toNat v) h

theorem exec_statusWrite_of_live (h : s.live = true) (b : Block) (v : Word) :
    exec (.statusWrite b v) s = .next (s.writeStatus b v) :=
  whenLive_of_live (fun s => s.writeStatus b v) h

theorem exec_init_of_live (h : s.live = true) (m : BitVec 9) : exec (.init m) s = .next (s.initPulse m) :=
  whenLive_of_live (fun s => s.initPulse m) h

theorem exec_start_of_live (h : s.live = true) (m : BitVec 9) : exec (.start m) s = .next (s.startPulse m) :=
  whenLive_of_live (fun s => s.startPulse m) h

theorem exec_stop_of_live (h : s.live = true) (m : BitVec 9) : exec (.stop m) s = .next (s.stopPulse m) :=
  whenLive_of_live (fun s => s.stopPulse m) h

theorem exec_demand_of_live (h : s.live = true) (m : BitVec 9) : exec (.demand m) s = .next (s.demandPulse m) :=
  whenLive_of_live (fun s => s.demandPulse m) h

theorem exec_cancel_of_live (h : s.live = true) (v : Word) : exec (.cancel v) s = .next (s.writeCancel v) :=
  whenLive_of_live (fun s => s.writeCancel v) h

theorem exec_linkEnable_of_live (h : s.live = true) (v : Word) :
    exec (.linkEnable v) s = .next (s.writeLinkEnable v) :=
  whenLive_of_live (fun s => s.writeLinkEnable v) h

theorem exec_ringReset_of_live (h : s.live = true) : exec .ringReset s = .next s.ringReset :=
  whenLive_of_live State.ringReset h

theorem exec_engineReset_of_live (h : s.live = true) : exec .engineReset s = .next s.engineReset :=
  whenLive_of_live State.engineReset h

theorem exec_engineRun_of_live (h : s.live = true) : exec .engineRun s = .next s.engineRun :=
  whenLive_of_live State.engineRun h

theorem exec_linkReset_of_live (h : s.live = true) : exec .linkReset s = .next s.linkReset :=
  whenLive_of_live State.linkReset h

theorem exec_linesReset_of_live (h : s.live = true) : exec .linesReset s = .next s.linesReset :=
  whenLive_of_live State.linesReset h

/-! ### Window words (R182, R183) -/

/-- The status words but RING's stand at 0x10 plus the block's position. -/
theorem writeWord_status (s : State) {b : Block} (hb : b ≠ .ring) (v : Word) :
    s.writeWord (0x10 + b.pos) v = s.writeStatus b v := by
  cases b with
  | ring => exact absurd rfl hb
  | vend | float | tariff | time | till | link => rfl

theorem writeWord_enable (s : State) (b : Block) (v : Word) : s.writeWord (0x20 + b.pos) v = s.setEnable b v := by
  cases b <;> rfl

/-- The read-only words and the indices that select none refuse a write. -/
theorem writeWord_refused (s : State) (v : Word) (n : Nat)
    (h : n = 0x02 ∨ 0x06 ≤ n ∧ n ≤ 0x10 ∨ 0x17 ≤ n ∧ n ≤ 0x1F ∨ 0x29 ≤ n) : s.writeWord n v = s.refuse := by
  unfold State.writeWord
  split <;> first | rfl | omega

theorem writeControl_refused (s : State) (v : Word) (h : v.toNat % 16 ∉ [0, 1, 2, 4, 8]) :
    s.writeControl v = s.refuse := by
  unfold State.writeControl
  dsimp only
  split <;> simp_all

theorem writeBlockControl_refused (s : State) (v : Word) (h : v.toNat % 32 ∉ [0, 1, 2, 4, 8, 16]) :
    s.writeBlockControl v = s.refuse := by
  unfold State.writeBlockControl
  split <;> simp_all

theorem writeControl_pulse (s : State) (v : Word) :
    (v.toNat % 16 = 0 → s.writeControl v = s) ∧
      (v.toNat % 16 = 1 → s.writeControl v = s.initPulse (v.extractLsb' 8 9)) ∧
      (v.toNat % 16 = 2 → s.writeControl v = s.startPulse (v.extractLsb' 8 9)) ∧
      (v.toNat % 16 = 4 → s.writeControl v = s.stopPulse (v.extractLsb' 8 9)) ∧
      (v.toNat % 16 = 8 → s.writeControl v = s.demandPulse (v.extractLsb' 8 9)) := by
  unfold State.writeControl
  refine ⟨?_, ?_, ?_, ?_, ?_⟩ <;> intro h <;> simp only [h]

theorem writeBlockControl_pulse (s : State) (v : Word) :
    (v.toNat % 32 = 0 → s.writeBlockControl v = s) ∧ (v.toNat % 32 = 1 → s.writeBlockControl v = s.ringReset) ∧
      (v.toNat % 32 = 2 → s.writeBlockControl v = s.engineReset) ∧
      (v.toNat % 32 = 4 → s.writeBlockControl v = s.engineRun) ∧
      (v.toNat % 32 = 8 → s.writeBlockControl v = s.linkReset) ∧
      (v.toNat % 32 = 16 → s.writeBlockControl v = s.linesReset) := by
  unfold State.writeBlockControl
  refine ⟨?_, ?_, ?_, ?_, ?_, ?_⟩ <;> intro h <;> simp only [h]

/-! ### Status bits (R198) -/

theorem raise_other_bit (s : State) (b : Status) (d : Block) (n : Nat) (h : d ≠ b.block ∨ n ≠ b.pos) :
    ((s.raise b).atc.status.get d).getLsbD n = (s.atc.status.get d).getLsbD n := by
  have hword : (s.raise b).atc.status.get d =
      if d = b.block then s.atc.status.get b.block ||| b.mask else s.atc.status.get d := PerBlock.get_set _ _ _ _
  rw [hword]
  split
  · next hd =>
    have hn : n ≠ b.pos := h.resolve_left (not_not.2 hd)
    rw [BitVec.getLsbD_or, Status.mask_bit, decide_eq_false hn, Bool.or_false, hd]
  · rfl

/-! ### INIT and STOP (R184 to R187) -/

theorem initPulse_of_not_stopped (h : s.rgi.state ≠ .stopped) (m : BitVec 9) : s.initPulse m = s.raise .writeRefused :=
  if_neg h

theorem initPulse_waits (hs : s.rgi.state = .stopped) (h : s.inService = false) (m : BitVec 9) :
    s.initPulse m =
      if s.rgi.initWaiting then s else (s.setMask m).mapRgi fun g => { g with initWaiting := true } := by
  rw [State.initPulse, if_pos hs, if_neg (by simp [h])]

theorem initPulse_begins (hs : s.rgi.state = .stopped) (h : s.inService = true) (m : BitVec 9) :
    s.initPulse m = (s.setMask m).beginInit := by
  rw [State.initPulse, if_pos hs, if_pos h]

theorem enterStopped_has (s : State) : s.enterStopped.has .stopped = true := has_raise_self _ _

end Sys2Proof.Machine

namespace Sys2Proof.Proofs

open Sys2Proof Sys2Proof.Machine

/-- Settles O1, by the definition of a step. -/
theorem stepRunsTheFront : Obligations.StepRunsTheFront := by
  intro c s rest h
  rw [step, h]

/-- Settles O8: the reset state is the start of RECOVERING over an empty store. -/
theorem resetHasTheInvariants : Obligations.ResetHasTheInvariants := by
  refine ⟨⟨?_, ?_, cleared_placesOk, ?_, fun _ _ => ⟨rfl, rfl, rfl⟩⟩, rfl⟩
  · exact ⟨Nat.zero_le _, Nat.le_refl _, fun _ => rfl⟩
  · refine floatOk_of_idle ⟨balanced_idle ?_ rfl ?_, rfl⟩
    · exact cleared_balanced.1
    · intro b hb
      obtain rfl := Option.some.inj hb
      exact cleared_balanced.1
  · refine adirOk_idle tableOk_nil rfl fun t ht => ?_
    obtain rfl := Option.some.inj ht
    exact tableOk_nil

/-- Settles O15: a status write of a block but RING clears bits, and a bit set is one bit of one word. -/
theorem statusBitsAreSetByEventsAndClearedByOnes : Obligations.StatusBitsAreSetByEventsAndClearedByOnes := by
  refine ⟨fun s b v hlive hb => ?_, fun s b => ⟨has_raise_self s b, raise_other_bit s b, rfl⟩⟩
  rw [exec_statusWrite_of_live hlive]
  cases b with
  | ring => exact absurd rfl hb
  | vend | float | tariff | time | till | link => rfl

/-- Settles O20, by the state of the interface and the start phase. -/
theorem anInitPulseReadsTheBlock : Obligations.AnInitPulseReadsTheBlock := by
  intro s m hlive
  simp only [exec_init_of_live hlive]
  refine ⟨fun hs hin hfits => ?_, fun hs hin hpast => ⟨_, rfl, ?_⟩, fun hs hin hw => ?_, fun hs hin hw => ?_, fun hs => ?_⟩
  · rw [initPulse_begins hs hin, State.beginInit,
      if_neg (show ¬ hostTop < (s.setMask m).rgi.initAddr.toNat + 128 from Nat.not_lt.2 hfits)]
    rfl
  · rw [initPulse_begins hs hin, State.beginInit,
      if_pos (show hostTop < (s.setMask m).rgi.initAddr.toNat + 128 from hpast)]
    exact ⟨rfl, rfl, has_raise_self _ _, rfl⟩
  · rw [initPulse_waits hs hin, if_neg (by simp [hw])]
    rfl
  · rw [initPulse_waits hs hin, if_pos hw]
  · rw [initPulse_of_not_stopped hs]

end Sys2Proof.Proofs
end

section
/-! PROOF. The window's word by word meaning, the reset values, START, DEMAND and STOP, and the pulses that move the line
(R158 to R160, R180, R182 to R188). -/

namespace Sys2Proof.Machine

variable {s : State}

/-! ### WINDOW_DATA by the index (R183) -/

theorem writeInitAddr_taken (hs : s.rgi.state = .stopped) {v : Word} (hv : v.toNat % 4 = 0) :
    s.writeInitAddr v = s.mapRgi fun g => { g with initAddr := v } := if_pos ⟨hs, hv⟩

theorem writeInitAddr_refused {v : Word} (h : s.rgi.state ≠ .stopped ∨ v.toNat % 4 ≠ 0) :
    s.writeInitAddr v = s.refuse := if_neg fun hc => h.elim (· hc.1) (· hc.2)

theorem exec_windowWrite_at (h : s.live = true) (v : Word) {n : Nat} {w : Word} (hw : s.rgi.windowIndex = w)
    (hn : w.toNat = n) : exec (.windowWrite .data v) s = .next (s.writeWord n v) := by
  rw [exec_windowWrite_of_live h, hw, hn]

/-! ### START, DEMAND and STOP (R184, R187, R188) -/

/-- In RUNNING the rings of a condition are looked at in their order. -/
theorem forHolders_looks (s : State) (p : Holder → Bool) (ha : ∀ r, s.rgi.accessOk r = true)
    (hr : s.rgi.state = .running) :
    ∃ g, forHolders (fun r s => if p r then State.lookAt r s else s) s = { s with rgi := g } ∧ g.state = .running ∧
      g.mask = s.rgi.mask ∧ g.bus = looksAt s (Holder.all.filter p) := by
  have hnodup : (Holder.all.filter p).Nodup := List.Nodup.filter _ (by decide)
  obtain ⟨g, heq, hstate, hmask, -, hbus⟩ := looks_eq _ hnodup s ha hr
  refine ⟨g, ?_, hstate, hmask, hbus⟩
  rw [← heq]
  exact foldl_ite p (fun s r => State.lookAt r s) Holder.all s

theorem startPulse_of_not_ready (h : s.rgi.state ≠ .ready) (m : BitVec 9) : s.startPulse m = s.raise .writeRefused :=
  if_neg h

theorem demandPulse_of_not_running (h : s.rgi.state ≠ .running) (m : BitVec 9) :
    s.demandPulse m = s.raise .writeRefused := if_neg h

theorem enterStopped_eq (s : State) :
    s.enterStopped =
      { s with rgi := { s.rgi with state := .stopped, bus := [] }, atc := (s.raise .stopped).atc } := rfl

theorem quiet_stopPolls (s : State) : s.stopPolls.rgi.quiet = s.rgi.quiet :=
  quiet_eq s _ fun r => by rw [State.stopPolls, mapRgi_rgi, PerHolder.get_map]

theorem stopPulse_running (h : s.rgi.state = .running) (m : BitVec 9) :
    s.stopPulse m = (((s.setMask m).stopPolls).mapRgi fun g => { g with state := .stopping }).checkStopping := by
  rw [State.stopPulse, h]

theorem stopPulse_ready (h : s.rgi.state = .ready) (m : BitVec 9) : s.stopPulse m = (s.setMask m).enterStopped := by
  rw [State.stopPulse, h]

theorem stopPulse_refused (h : s.rgi.state ≠ .running) (h' : s.rgi.state ≠ .ready) (m : BitVec 9) :
    s.stopPulse m = s.raise .writeRefused := by
  unfold State.stopPulse
  split
  · next hs => exact absurd hs h
  · next hs => exact absurd hs h'
  · rfl

/-! ### The line's pulses (R159, R160, R180) -/

theorem leaveUp_eq (s : State) :
    s.leaveUp =
      { s with tke := if s.ulc.line = .up then { s.tke with sinceUp := 0, counting := true } else s.tke } := by
  unfold State.leaveUp
  split <;> rfl

theorem leaveUp_of_not_up (h : s.ulc.line ≠ .up) : s.leaveUp = s := if_neg h

/-- The give-up changes the line's own record, the count since UP and one status bit. -/
theorem giveUp_eq (s : State) :
    s.giveUp =
      { s with
        ulc := { s.ulc.discard with line := .off, tx := none, assembly := [] }
        tke := if s.ulc.line = .up then { s.tke with sinceUp := 0, counting := true } else s.tke
        atc := (s.raise .enteredOff).atc } := by
  rw [State.giveUp, leaveUp_eq]
  rfl

theorem giveUp_enteredOff (s : State) : s.giveUp.has .enteredOff = true := has_raise_self _ _

theorem enterDetect_of_off (h : s.ulc.line = .off) :
    s.enterDetect =
      State.detectLook { s with
        ulc := { s.ulc with line := .detect, tx := none, assembly := [], good := 0, bad := 0, lastNibble := none }
        atc := (s.raise .enteredDetect).atc } := by
  rw [State.enterDetect, leaveUp_of_not_up (by simp [h])]
  rfl

/-- The start of a transmission changes the transmitter alone. -/
theorem startTx_eq (s : State) :
    ∃ tx told, s.startTx = { s with ulc := { s.ulc with tx := tx, noneTold := told } } := by
  unfold State.startTx
  split
  · split
    · exact ⟨_, _, rfl⟩
    · exact ⟨s.ulc.tx, s.ulc.noneTold, rfl⟩
  · exact ⟨s.ulc.tx, s.ulc.noneTold, rfl⟩

theorem enterTrain_eq (s : State) :
    ∃ tx told, s.enterTrain =
      { s with
        ulc := { s.ulc.clearCounts with line := .train, tx := tx, noneTold := told }
        atc := (s.raise .enteredTrain).atc } := by
  obtain ⟨tx, told, h⟩ := startTx_eq ((s.mapUlc fun u => { u.clearCounts with line := .train }).raise .enteredTrain)
  exact ⟨tx, told, h⟩

theorem detectLook_of_not_usable (h : s.ulc.usable = false) : s.detectLook = s :=
  if_neg fun hc => by simp [h] at hc

theorem detectLook_of_usable (hl : s.ulc.line = .detect) (h : s.ulc.usable = true) : s.detectLook = s.enterTrain :=
  if_pos ⟨hl, h⟩

end Sys2Proof.Machine

namespace Sys2Proof.Proofs

open Sys2Proof Sys2Proof.Machine

/-- Settles O9, by the definition of the reset state: the clear of a factory part, then the end of the clear. -/
theorem resetValues : Obligations.ResetValues := by
  refine ⟨rfl, rfl, rfl, ?_, rfl, ?_, rfl, ?_, rfl, ?_, ?_, ?_⟩
  · intro k n hn
    have hentries : State.reset.tfu.entries.get k = List.replicate 16 ClassEntry.cleared := by cases k <;> rfl
    show (State.reset.tfu.entries.get k).getD n ClassEntry.cleared = ClassEntry.cleared
    rw [hentries, List.getD_eq_getElem _ _ (by rw [List.length_replicate]; exact hn), List.getElem_replicate]
  · exact PerCounter.get_fill Entry.free
  · exact PerHolder.get_fill Ctx.idle
  · exact PerCounter.get_fill Till.cleared
  · intro c
    have hline : State.reset.lines c = LinePair.reset none := PerCounter.get_fill _ c
    rw [hline]
    exact ⟨rfl, rfl, rfl, rfl, rfl, rfl⟩
  · exact ⟨rfl, rfl, rfl, rfl, rfl, rfl, rfl, rfl, rfl, rfl, rfl, rfl, rfl, PerHolder.get_fill Ring.reset, rfl, rfl, rfl,
      rfl, rfl, rfl, rfl⟩

/-- Settles O19, by the word that WINDOW_INDEX selects. -/
theorem aWindowWriteIsTheNamedCommand : Obligations.AWindowWriteIsTheNamedCommand := by
  intro s v hlive
  refine ⟨whenLive_of_live (fun s => s.mapRgi fun g => { g with windowIndex := v }) hlive,
    whenLive_of_live (fun s => s.refuse) hlive, fun w hw => ?_⟩
  have hat {n : Nat} (hn : w.toNat = n) : exec (.windowWrite .data v) s = .next (s.writeWord n v) :=
    exec_windowWrite_at hlive v hw hn
  have hcontrol (h0 : w = 0x00) : exec (.windowWrite .data v) s = .next (s.writeControl v) := hat (n := 0x00) (h0 ▸ rfl)
  have hblock (h0 : w = 0x28) : exec (.windowWrite .data v) s = .next (s.writeBlockControl v) :=
    hat (n := 0x28) (h0 ▸ rfl)
  obtain ⟨hnone, hinit, hstart, hstop, hdemand⟩ := writeControl_pulse s v
  obtain ⟨hidle, hring, hengine, hrun, hlink, hlines⟩ := writeBlockControl_pulse s v
  refine ⟨fun h => ?_, fun h => ?_, fun h => ?_, fun h => ?_, fun h => ?_, fun h => ?_, fun h => ?_, fun h => ?_,
    fun h hv => ?_, fun h hv => ?_, fun h hv => ?_, fun h hv => ?_, fun h hv => ?_, fun h hv => ?_, fun h hv => ?_,
    fun h hv => ?_, fun h hv => ?_, fun b hb h => ?_, fun b h => ?_, fun h hv => ?_, fun h hv => ?_, fun h hv => ?_,
    fun h hv => ?_, fun h hs hv => ?_, fun h hv => ?_, fun h => ?_⟩
  · rw [hat (n := 0x01) (h ▸ rfl), exec_statusWrite_of_live hlive]; rfl
  · rw [hat (n := 0x04) (h ▸ rfl), exec_cancel_of_live hlive]; rfl
  · rw [hat (n := 0x05) (h ▸ rfl), exec_linkEnable_of_live hlive]; rfl
  · rw [hat (n := 0x11) (h ▸ rfl), exec_statusWrite_of_live hlive]; rfl
  · rw [hat (n := 0x16) (h ▸ rfl), exec_statusWrite_of_live hlive]; rfl
  · rw [hat (n := 0x20) (h ▸ rfl), exec_enableWrite_of_live hlive]; rfl
  · rw [hat (n := 0x26) (h ▸ rfl), exec_enableWrite_of_live hlive]; rfl
  · rw [hat (n := 0x27) (h ▸ rfl), exec_summaryEnableWrite_of_live hlive]; rfl
  · rw [hcontrol h, hinit hv, exec_init_of_live hlive]
  · rw [hcontrol h, hstart hv, exec_start_of_live hlive]
  · rw [hcontrol h, hstop hv, exec_stop_of_live hlive]
  · rw [hcontrol h, hdemand hv, exec_demand_of_live hlive]
  · rw [hblock h, hring hv, exec_ringReset_of_live hlive]
  · rw [hblock h, hengine hv, exec_engineReset_of_live hlive]
  · rw [hblock h, hrun hv, exec_engineRun_of_live hlive]
  · rw [hblock h, hlink hv, exec_linkReset_of_live hlive]
  · rw [hblock h, hlines hv, exec_linesReset_of_live hlive]
  · rw [hat h, writeWord_status s hb v, exec_statusWrite_of_live hlive]
  · rw [hat h, writeWord_enable s b v, exec_enableWrite_of_live hlive]
  · rw [hcontrol h, hnone hv]
  · rw [hcontrol h, writeControl_refused s v hv]; rfl
  · rw [hblock h, hidle hv]
  · rw [hblock h, writeBlockControl_refused s v hv]; rfl
  · rw [hat (n := 0x03) (h ▸ rfl), show s.writeWord 0x03 v = s.writeInitAddr v from rfl, writeInitAddr_taken hs hv]; rfl
  · rw [hat (n := 0x03) (h ▸ rfl), show s.writeWord 0x03 v = s.writeInitAddr v from rfl, writeInitAddr_refused hv]; rfl
  · rw [hat rfl, writeWord_refused s v w.toNat (h.imp_left fun h0 => by rw [h0]; rfl)]; rfl

/-- Settles O21: a pulse taken sets the mask and looks at its rings; any other is refused. -/
theorem startAndDemandLookAtRings : Obligations.StartAndDemandLookAtRings := by
  intro s m hlive hok
  simp only [exec_start_of_live hlive, exec_demand_of_live hlive]
  refine ⟨fun hs => ⟨_, rfl, ?_⟩, fun hs => ⟨_, rfl, ?_⟩, fun hs => ?_, fun hs => ?_⟩
  · obtain ⟨g, heq, hstate, hmask, -, hbus⟩ :=
      looks_eq Holder.all (by decide) ((s.setMask m).mapRgi fun g => { g with state := .running }) hok rfl
    have hpulse : s.startPulse m = { s with rgi := g } := by
      rw [State.startPulse, if_pos hs]
      exact heq
    rw [hpulse]
    exact ⟨hstate, hmask, hbus, rfl⟩
  · obtain ⟨g, heq, hstate, hmask, hbus⟩ := forHolders_looks (s.setMask m) (fun r => m.getLsbD r.index) hok hs
    have hpulse : s.demandPulse m = { s with rgi := g } := by
      rw [State.demandPulse, if_pos hs]
      exact heq
    rw [hpulse]
    exact ⟨hstate, hmask, hbus, rfl⟩
  · rw [startPulse_of_not_ready hs]
  · rw [demandPulse_of_not_running hs]

/-- Settles O22, by the state of the interface; in RUNNING by whether a request is in service. -/
theorem aStopPulseLeadsToStopped : Obligations.AStopPulseLeadsToStopped := by
  intro s m hlive
  rw [exec_stop_of_live hlive]
  refine ⟨_, rfl, ?_⟩
  by_cases hrun : s.rgi.state = .running
  · rw [stopPulse_running hrun]
    have hsame : (((s.setMask m).stopPolls).mapRgi fun g => { g with state := .stopping }).rgi.quiet = s.rgi.quiet :=
      quiet_stopPolls _
    cases hquiet : s.rgi.quiet with
    | true =>
      rw [State.checkStopping, if_pos ⟨rfl, hsame.trans hquiet⟩]
      refine ⟨rfl, fun _ h => ?_, fun _ _ => ⟨rfl, rfl, enterStopped_has _⟩, fun h => ?_, fun h => absurd hrun h⟩
      · simp at h
      · simp [hrun] at h
    | false =>
      rw [State.checkStopping, if_neg fun hc => Bool.false_ne_true (hquiet.symm.trans (hsame.symm.trans hc.2))]
      refine ⟨rfl, fun _ _ => ⟨rfl, rfl, rfl, fun r => ?_⟩, fun _ h => ?_, fun h => ?_, fun h => absurd hrun h⟩
      · exact congrArg Ring.poll (PerHolder.get_map _ _ r)
      · simp at h
      · simp [hrun] at h
  by_cases hready : s.rgi.state = .ready
  · rw [stopPulse_ready hready]
    refine ⟨rfl, fun h => absurd h hrun, fun h => absurd h hrun, fun _ => ⟨rfl, enterStopped_has _, rfl⟩,
      fun _ h => absurd hready h⟩
  · rw [stopPulse_refused hrun hready]
    exact ⟨rfl, fun h => absurd h hrun, fun h => absurd h hrun, fun h => absurd h hready, fun _ _ => rfl⟩

/-- Settles O24, by the state of the line. -/
theorem linkEnableAndResetsMoveTheLine : Obligations.LinkEnableAndResetsMoveTheLine := by
  refine ⟨fun s hlive => ?_, fun s hlive => ?_⟩
  · simp only [exec_linkEnable_of_live hlive]
    refine ⟨fun hoff hu => ?_, fun hoff hu => ?_, fun hoff => ?_, fun hoff => ?_, fun hoff => ?_, fun v h0 h1 => ?_⟩
    · rw [State.writeLinkEnable, if_pos rfl, if_pos hoff, enterDetect_of_off (by exact hoff),
        detectLook_of_not_usable (by exact hu)]
      rfl
    · rw [State.writeLinkEnable, if_pos rfl, if_pos hoff, enterDetect_of_off (by exact hoff),
        detectLook_of_usable rfl (by exact hu)]
      obtain ⟨tx, told, htrain⟩ := enterTrain_eq { s with
        ulc := { s.ulc with
          linkEnable := true, line := .detect, tx := none, assembly := [], good := 0, bad := 0, lastNibble := none }
        atc := (s.raise .enteredDetect).atc }
      refine ⟨_, rfl, ?_⟩
      erw [htrain]
      exact ⟨rfl, has_raise_mono .enteredTrain (has_raise_self s .enteredDetect), has_raise_self _ _, rfl, rfl⟩
    · rw [State.writeLinkEnable, if_pos rfl, if_neg hoff]; rfl
    · rw [State.writeLinkEnable, if_neg (by decide), if_pos rfl, if_pos hoff]; rfl
    · rw [State.writeLinkEnable, if_neg (by decide), if_pos rfl, if_neg hoff, giveUp_eq]
      exact ⟨_, rfl, rfl, rfl, rfl, rfl, rfl, rfl, rfl, rfl, rfl, rfl, rfl, rfl, rfl,
        rfl, has_raise_self s .enteredOff, rfl, rfl⟩
    · rw [State.writeLinkEnable, if_neg h1, if_neg h0]; rfl
  · rw [exec_linkReset_of_live hlive, exec_linesReset_of_live hlive]
    refine ⟨⟨_, rfl, ?_⟩, rfl⟩
    by_cases hoff : s.ulc.line = .off
    · rw [State.linkReset, if_pos hoff]
      refine ⟨hoff, rfl, rfl, rfl, rfl, rfl, rfl, rfl, rfl, rfl, rfl, fun h => absurd hoff h, fun _ => rfl, ?_, rfl⟩
      rw [hoff]; rfl
    · rw [State.linkReset, if_neg hoff, giveUp_eq]
      exact ⟨rfl, rfl, rfl, rfl, rfl, rfl, rfl, rfl, rfl, rfl, rfl, fun _ => has_raise_self s .enteredOff,
        fun h => absurd h hoff,
        rfl, rfl⟩

end Sys2Proof.Proofs
end

section
/-! PROOF. CANCEL, the RING reset and the ENGINE reset (R78, R112 to R116, R195, R196): what they leave of the units that
they do not reset, and what they do to the one context that has something under way. -/

namespace Sys2Proof.Machine

variable {s : State}

/-! ### What the contexts and FLU leave of RING status, the office number and the engine -/

/-- `t` has the RING status word, the office number and the engine state of `s`. -/
structure State.aside (s t : State) : Prop where
  ring : t.atc.status.ring = s.atc.status.ring
  office : t.ulc.office = s.ulc.office
  engine : t.tke.engine = s.tke.engine

theorem State.aside.refl (s : State) : s.aside s := ⟨rfl, rfl, rfl⟩

theorem State.aside.trans {s t u : State} (h : s.aside t) (h' : t.aside u) : s.aside u :=
  ⟨h'.ring.trans h.ring, h'.office.trans h.office, h'.engine.trans h.engine⟩

/-- Before that, a change of what the frame does not name. -/
theorem State.aside.frame {s s' t : State} (h : s'.aside t) (hring : s'.atc.status.ring = s.atc.status.ring)
    (hoffice : s'.ulc.office = s.ulc.office) (hengine : s'.tke.engine = s.tke.engine) : s.aside t :=
  State.aside.trans ⟨hring, hoffice, hengine⟩ h

theorem raise_ring (s : State) {b : Status} (h : b.block ≠ .ring) :
    (s.raise b).atc.status.ring = s.atc.status.ring := by
  show ((s.atc.status.set b.block _).get .ring) = s.atc.status.get .ring
  rw [PerBlock.get_set, if_neg (Ne.symm h)]

theorem raise_aside (s : State) {b : Status} (h : b.block ≠ .ring) : s.aside (s.raise b) := ⟨raise_ring s h, rfl, rfl⟩

theorem raiseIf_aside (s : State) (p : Bool) {b : Status} (h : b.block ≠ .ring) : s.aside (s.raiseIf p b) := by
  unfold State.raiseIf
  split
  · exact raise_aside s h
  · exact .refl s

theorem settleTill_aside (s : State) (c : Counter) : s.aside (s.settleTill c) :=
  (raiseIf_aside _ _ (b := .lateCount c) (by simp [Status.block])).frame rfl rfl rfl

theorem storeOutcome_aside (s : State) (c : Counter) (o : Outcome) : s.aside (s.storeOutcome c o) := by
  have hsettled := settleTill_aside s c
  unfold State.storeOutcome
  dsimp only
  split
  · exact hsettled.trans ((raise_aside ((s.settleTill c).writeOutcome c (some o)) (b := .outcomeStored)
      (by simp [Status.block])).frame rfl rfl rfl)
  · exact hsettled

theorem finish_aside (s : State) (h : Holder) : s.aside (s.finish h) := by
  unfold State.finish
  dsimp only
  split <;> exact ⟨rfl, rfl, rfl⟩

theorem ctxUndelivered_aside (s : State) (h : Holder) : s.aside (s.ctxUndelivered h) := by
  unfold State.ctxUndelivered
  dsimp only
  refine .trans ?_ (finish_aside _ h)
  split
  · exact (storeOutcome_aside s _ _).trans ⟨rfl, rfl, rfl⟩
  · exact ⟨rfl, rfl, rfl⟩

theorem undeliver_aside (s : State) (r : Holder) (o : ReplyOwner) : s.aside (s.undeliver r o) := by
  cases o with
  | context => exact ctxUndelivered_aside s r
  | nobody | outcome | closing => exact ⟨rfl, rfl, rfl⟩

theorem detach_aside (s : State) (r : Holder) : s.aside (State.detach r s) := by
  unfold State.detach
  split
  · exact .refl s
  · dsimp only
    split
    · exact ⟨rfl, rfl, rfl⟩
    · exact ⟨rfl, rfl, rfl⟩
    · exact (undeliver_aside (s.mapRing r fun x => { x with service := none }) r _).frame rfl rfl rfl

theorem foldl_aside {α : Type} (f : State → α → State) (hf : ∀ (s : State) a, s.aside (f s a)) (l : List α) (s : State) :
    s.aside (l.foldl f s) := by
  induction l generalizing s with
  | nil => exact .refl s
  | cons a l ih => exact (hf s a).trans (ih (f s a))

theorem detachAll_aside (s : State) : s.aside (forHolders State.detach s) :=
  foldl_aside (fun s h => State.detach h s) detach_aside Holder.all s

theorem putReply_aside (s : State) (r : Holder) (o : ReplyOwner) (y : Reply) (h : s.rgi.idle) :
    s.aside (s.putReply r o y) := by
  have hr : (s.ring r).service = none := h r
  unfold State.putReply
  rw [hr]
  exact undeliver_aside s r o

theorem ctxReply_aside (s : State) (r : Holder) (y : Reply) (h : s.rgi.idle) : s.aside (s.ctxReply r y) := by
  unfold State.ctxReply
  dsimp only
  split
  · exact (putReply_aside (s.mapCtx r _) r _ _ h).frame rfl rfl rfl
  · exact (ctxUndelivered_aside (s.mapCtx r _) r).frame rfl rfl rfl

theorem releaseHold_aside (s : State) (h : Holder) : s.aside (s.releaseHold h) :=
  ⟨by rw [releaseHold_atc], by rw [releaseHold_ulc], by rw [releaseHold_tke]⟩

theorem refuseHeld_aside (s : State) (h : Holder) (y : Reply) (hi : s.rgi.idle) : s.aside (s.refuseHeld h y) :=
  (releaseHold_aside s h).trans (ctxReply_aside _ h y (by rw [releaseHold_rgi]; exact hi))

theorem endStopped_aside (s : State) (h : Holder) (hi : s.rgi.idle) : s.aside (s.endStopped h) :=
  refuseHeld_aside s h _ hi

theorem windBack_aside (s : State) (h : Holder) (m : StopMark) (hi : s.rgi.idle) : s.aside (s.windBack h m) := by
  unfold State.windBack
  dsimp only
  split
  · exact .refl s
  · split
    · cases h with
      | counter c => exact ⟨rfl, rfl, rfl⟩
      | office =>
        refine State.aside.frame (endStopped_aside _ .office ?_) rfl rfl rfl
        exact hi
    · exact ⟨rfl, rfl, rfl⟩

theorem cancelCtx_aside (s : State) (h : Holder) (hi : s.rgi.idle) : s.aside (s.cancelCtx h) := by
  unfold State.cancelCtx
  split
  · exact .refl s
  · exact (ctxReply_aside (s.unpark h) h _ hi).frame rfl rfl rfl
  · exact windBack_aside s h _ hi
  · exact raise_aside s (by simp [Status.block])

theorem abandon_aside (s : State) (h : Holder) (was : CtxState) (hi : s.rgi.idle) : s.aside (s.abandon h was) := by
  cases h with
  | office =>
    simp only [State.abandon, State.abandonOffice]
    split
    · exact raise_aside s (by simp [Status.block])
    · exact raise_aside s (by simp [Status.block])
    · exact cancelCtx_aside s .office hi
  | counter c =>
    simp only [State.abandon]
    split
    · exact cancelCtx_aside s (.counter c) hi
    · exact .refl s

theorem completeFloat_aside (s : State) (k : FloatClaim) : s.aside (s.completeFloat k) :=
  ((raiseIf_aside _ _ (b := .floatLow) (by simp [Status.block])).trans
    (raiseIf_aside _ _ (b := .floatEmpty) (by simp [Status.block]))).frame rfl rfl rfl

theorem answered_aside (s : State) (code : AnswerCode) (echo detail : List Byte) :
    s.aside (s.answered code echo detail) := ⟨rfl, rfl, rfl⟩

theorem takeGrant_aside (s : State) (n a : Nat) : s.aside (s.takeGrant n a) := by
  unfold State.takeGrant
  split
  · exact ((completeFloat_aside s (.grant n a)).trans (raise_aside _ (by simp [Status.block]))).trans
      (answered_aside _ _ _ _)
  · exact answered_aside s _ _ _

theorem takeRecall_aside (s : State) (n a : Nat) : s.aside (s.takeRecall n a) := by
  unfold State.takeRecall
  split
  · exact (completeFloat_aside s (.recall n a)).trans (answered_aside _ _ _ _)
  · exact answered_aside s _ _ _

theorem takeTerms_aside (s : State) (ceiling lowMark vendCap : Nat) :
    s.aside (s.takeTerms ceiling lowMark vendCap) := by
  unfold State.takeTerms
  split
  · exact (completeFloat_aside s (.terms ceiling lowMark vendCap)).trans (answered_aside _ _ _ _)
  · exact answered_aside s _ _ _

theorem tillPartClaim_aside (s : State) (c : Counter) : s.aside (s.tillPartClaim c) := by
  unfold State.tillPartClaim
  split
  · exact .refl s
  · dsimp only
    split
    · exact ⟨(settleTill_aside s c).ring, (settleTill_aside s c).office, (settleTill_aside s c).engine⟩
    · exact ⟨(settleTill_aside s c).ring, (settleTill_aside s c).office, (settleTill_aside s c).engine⟩

theorem takeFloat_aside (s : State) (k : FloatClaim) (hi : s.rgi.idle) : s.aside (s.takeFloat k) := by
  match k with
  | .reserve c sale =>
    simp only [State.takeFloat]
    split
    · exact ⟨rfl, rfl, rfl⟩
    · split <;> exact refuseHeld_aside s (.counter c) _ hi
  | .release c =>
    simp only [State.takeFloat]
    split
    · exact ⟨rfl, rfl, rfl⟩
    · exact (raiseIf_aside (s.mapCtx _ _) _ (b := .cancelLate) (by simp [Status.block])).frame rfl rfl rfl
    · exact refuseHeld_aside s (.counter c) _ hi
  | .seal c tokens =>
    simp only [State.takeFloat]
    split <;> exact ⟨rfl, rfl, rfl⟩
  | .floatPart c =>
    simp only [State.takeFloat]
    split
    · split
      · exact tillPartClaim_aside s c
      · exact ⟨rfl, rfl, rfl⟩
    · exact .refl s
  | .free c =>
    simp only [State.takeFloat]
    split <;> exact ⟨rfl, rfl, rfl⟩
  | .grant n a => exact takeGrant_aside s n a
  | .recall n a => exact takeRecall_aside s n a
  | .terms ceiling lowMark vendCap => exact takeTerms_aside s ceiling lowMark vendCap

theorem drainFloat_aside (n : Nat) (s : State) (hi : s.rgi.idle) : s.aside (drainFloat n s) := by
  induction n generalizing s with
  | zero => exact .refl s
  | succ n ih =>
    unfold drainFloat
    split
    · next k rest _ _ =>
      have htaken := takeFloat_aside (s.mapFlu fun f => { f with queue := rest }) k hi
      have hidle : ((s.mapFlu fun f => { f with queue := rest }).takeFloat k).rgi.idle := by
        rw [Rgi.idle, takeFloat_idle (s.mapFlu fun f => { f with queue := rest }) k hi]; exact hi
      exact (htaken.trans (ih _ hidle)).frame rfl rfl rfl
    · exact .refl s

theorem markStores_aside (s t : State) : t.aside (s.markStores t) :=
  ⟨by rw [markStores_atc], by rw [markStores_ulc], by rw [markStores_tke]⟩

theorem pumpFloat_aside (s : State) (hi : s.rgi.idle) : s.aside s.pumpFloat := by
  unfold State.pumpFloat
  dsimp only
  split
  · exact drainFloat_aside _ s hi
  · exact (drainFloat_aside _ s hi).trans (markStores_aside s _)

end Sys2Proof.Machine
end

section
/-! PROOF. What CANCEL, the RING reset and the ENGINE reset do (R78, R79, R112 to R116, R196). -/

namespace Sys2Proof.Machine

variable {s : State}

/-! ### One context among all -/

/-- A change for each holder that acts on one holder alone is the change for that holder. -/
theorem forHolders_only (f : Holder → State → State) (s : State) (h : Holder) (hbefore : ∀ k, k ≠ h → f k s = s)
    (hafter : ∀ k, k ≠ h → f k (f h s) = f h s) : forHolders f s = f h s := by
  have hfix : ∀ (l : List Holder) (t : State), (∀ k ∈ l, f k t = t) → l.foldl (fun t k => f k t) t = t := by
    intro l t hl
    induction l with
    | nil => rfl
    | cons a l ih => rw [List.foldl_cons, hl a List.mem_cons_self, ih fun k hk => hl k (List.mem_cons_of_mem _ hk)]
  have hfold : ∀ l : List Holder, l.Nodup → h ∈ l → l.foldl (fun t k => f k t) s = f h s := by
    intro l hl hmem
    induction l with
    | nil => exact absurd hmem List.not_mem_nil
    | cons a l ih =>
      obtain ⟨hnot, hl⟩ := List.nodup_cons.1 hl
      rw [List.foldl_cons]
      by_cases ha : a = h
      · subst ha
        exact hfix l _ fun k hk => hafter k fun e => hnot (e ▸ hk)
      · rw [hbefore a ha]
        exact ih hl ((List.mem_cons.1 hmem).resolve_left (Ne.symm ha))
  exact hfold Holder.all (by decide) (Holder.mem_all h)

theorem forHolders_none (f : Holder → State → State) (s : State) (h : ∀ k, f k s = s) : forHolders f s = s :=
  (forHolders_only f s .office (fun k _ => h k) fun k _ => by rw [h .office, h k]).trans (h .office)

/-! ### CANCEL (R112 to R116, R183) -/

theorem Holder.numbered_index (h : Holder) : Holder.numbered h.index = some h := by
  cases h with
  | office => rfl
  | counter c => cases c <;> rfl

theorem Holder.numbered_of_gt {n : Nat} (h : 8 < n) : Holder.numbered n = none := by
  have hcounter : Counter.numbered n = none := by
    unfold Counter.numbered
    split <;> first | omega | rfl
  rw [Holder.numbered, if_neg (by omega), hcounter]
  rfl

theorem writeCancel_named {h : Holder} {v : Word} (hv : v.toNat % 16 = h.index) :
    s.writeCancel v = s.markStores (s.cancelCtx h).pumpFloat := by
  simp only [State.writeCancel, hv, Holder.numbered_index]

theorem writeCancel_unnamed {v : Word} (hv : 8 < v.toNat % 16) : s.writeCancel v = s.raise .writeRefused := by
  simp only [State.writeCancel, Holder.numbered_of_gt hv]
  rfl

/-- A CANCEL that leaves the tills and makes no claim on FLU ends with what it does to the context. -/
theorem writeCancel_of_cancelCtx {h : Holder} {v : Word} (hv : v.toNat % 16 = h.index) {t : State}
    (ht : s.cancelCtx h = t) (hq : t.flu.queue = []) (htills : t.tlu.tills = s.tlu.tills) : s.writeCancel v = t := by
  rw [writeCancel_named hv, ht, pumpFloat_empty t hq, markStores_of_tills s t htills]

theorem cancelCtx_of_idle {h : Holder} (hc : (s.ctx h).state = .idle) : s.cancelCtx h = s := by
  rw [State.cancelCtx, hc]

theorem cancelCtx_of_parked {h : Holder} (hc : (s.ctx h).state = .parked) :
    s.cancelCtx h = (s.unpark h).ctxReply h (Reply.plain .cancelled) := by
  rw [State.cancelCtx, hc]

theorem cancelCtx_of_issuing {h : Holder} (hc : (s.ctx h).state = .issuing) : s.cancelCtx h = s.windBack h .cancel := by
  rw [State.cancelCtx, hc]

theorem cancelCtx_of_late {h : Holder}
    (hc : (s.ctx h).state = .sealed ∨ (s.ctx h).state = .committing ∨ (s.ctx h).state = .replying) :
    s.cancelCtx h = s.raise .cancelLate := by
  rcases hc with hc | hc | hc <;> rw [State.cancelCtx, hc]

theorem windBack_of_stopped {h : Holder} (m : StopMark) (hs : (s.ctx h).stop ≠ none) : s.windBack h m = s :=
  if_pos (Option.isSome_iff_ne_none.2 hs)

theorem windBack_of_waiting {h : Holder} (m : StopMark) (hs : (s.ctx h).stop = none)
    (ha : (s.ctx h).await ≠ .tokens) : s.windBack h m = s.mapCtx h fun x => { x with stop := some m } := by
  simp only [State.windBack, hs, Option.isSome_none, Bool.false_eq_true, if_false, if_neg ha]

/-- A counter's sale whose plan is in the engine: the jobs are withdrawn, the returns dropped, the release claimed. -/
def State.withdrawn (s : State) (c : Counter) (m : StopMark) : State :=
  (s.mapTke fun k => k.withdraw (.counter c)).mapCtx (.counter c) fun x =>
    { x with stop := some m, returns := [], await := .release }

theorem windBack_of_tokens {c : Counter} (m : StopMark) (hs : (s.ctx (.counter c)).stop = none)
    (ha : (s.ctx (.counter c)).await = .tokens) :
    s.windBack (.counter c) m = (s.withdrawn c m).claimFloat (.release c) := by
  have hctx : ∀ f g k : Ctx → Ctx, ((((s.mapCtx (.counter c) f).mapTke fun k => k.withdraw (.counter c)).mapCtx
      (.counter c) g).mapCtx (.counter c) k) =
        (s.mapTke fun k => k.withdraw (.counter c)).mapCtx (.counter c) fun x => k (g (f x)) := by
    intro f g k
    simp [State.mapCtx, State.mapVnc, State.mapTke, PerHolder.set_set]
  simp only [State.windBack, hs, Option.isSome_none, Bool.false_eq_true, if_false, ha, if_true, hctx]
  rfl

/-- FLU begins the release of a reservation at once when nothing is under way. -/
theorem pumpFloat_release {c : Counter} {sale : Sale} (hq : s.flu.queue = []) (hw : s.flu.writing = none)
    (he : s.flu.entries.get c = .issuing sale) :
    (s.claimFloat (.release c)).pumpFloat = s.mapFlu fun f => { f with writing := some (.release c) } := by
  have htake : s.takeFloat (.release c) = s.mapFlu fun f => { f with writing := some (.release c) } := by
    simp only [State.takeFloat, he]
  rw [pumpFloat_claim s _ hq hw (Or.inr (by rw [htake]; simp)), htake]

theorem withdrawn_ctx (s : State) (c : Counter) (m : StopMark) (h : Holder) :
    (s.withdrawn c m).ctx h =
      if h = .counter c then { s.ctx (.counter c) with stop := some m, returns := [], await := .release }
      else s.ctx h :=
  ctx_mapCtx _ _ _ _

/-! ### ENGINE reset and run (R78, R79) -/

/-- The engine emptied and halted, before its notice reaches the contexts. -/
def State.engineEmptied (s : State) : State := (s.mapTke Tke.reset).raise .engineHalted

theorem engineReset_eq (s : State) :
    s.engineReset = s.markStores (forHolders State.engineNotice s.engineEmptied).pumpFloat := rfl

theorem engineNotice_of_not_issuing {h : Holder} (hc : (s.ctx h).state ≠ .issuing) : State.engineNotice h s = s :=
  if_neg hc

theorem engineNotice_of_issuing {h : Holder} (hc : (s.ctx h).state = .issuing) :
    State.engineNotice h s = s.windBack h .engineReset := if_pos hc

theorem engineReset_of_none (hc : ∀ h, (s.ctx h).state ≠ .issuing) (hq : s.flu.queue = []) :
    s.engineReset = s.engineEmptied := by
  rw [engineReset_eq, forHolders_none State.engineNotice s.engineEmptied fun h => engineNotice_of_not_issuing (hc h),
    pumpFloat_empty s.engineEmptied hq, markStores_of_tills s s.engineEmptied rfl]

/-- With one sale in ISSUING and its plan in the engine, the notice withdraws that sale alone. -/
theorem engineReset_of_one {c : Counter} {sale : Sale} (hq : s.flu.queue = []) (hw : s.flu.writing = none)
    (he : s.flu.entries.get c = .issuing sale) (hc : (s.ctx (.counter c)).state = .issuing)
    (hs : (s.ctx (.counter c)).stop = none) (ha : (s.ctx (.counter c)).await = .tokens)
    (hother : ∀ h, h ≠ .counter c → (s.ctx h).state ≠ .issuing) :
    s.engineReset =
      (s.engineEmptied.withdrawn c .engineReset).mapFlu fun f => { f with writing := some (.release c) } := by
  have hone : State.engineNotice (.counter c) s.engineEmptied =
      (s.engineEmptied.withdrawn c .engineReset).claimFloat (.release c) := by
    rw [engineNotice_of_issuing (by exact hc), windBack_of_tokens _ (by exact hs) (by exact ha)]
  have hrest : ∀ h, h ≠ .counter c → State.engineNotice h ((s.engineEmptied.withdrawn c .engineReset).claimFloat
      (.release c)) = (s.engineEmptied.withdrawn c .engineReset).claimFloat (.release c) := by
    intro h hh
    refine engineNotice_of_not_issuing ?_
    show ((s.engineEmptied.withdrawn c .engineReset).ctx h).state ≠ .issuing
    rw [withdrawn_ctx, if_neg hh]
    exact hother h hh
  rw [engineReset_eq, forHolders_only State.engineNotice s.engineEmptied (.counter c)
    (fun h hh => engineNotice_of_not_issuing (hother h hh)) (by rw [hone]; exact hrest), hone,
    pumpFloat_release (s := s.engineEmptied.withdrawn c .engineReset) hq hw he]
  exact markStores_of_tills s _ rfl

/-! ### RING reset (R196) -/

/-- The RING reset before the interface goes to its reset state: every request detached, its context abandoned. -/
def State.ringEmptied (s : State) : State :=
  (Holder.all.filter fun h => (s.ctx h).attached || decide (h = .office)).foldl
    (fun t h => t.abandon h (s.ctx h).state)
    (forHolders State.detach (s.dropOfficeIssue.mapRgi fun g => { g with bus := [] }))

/-- The RING status bits that a RING reset clears: INIT_DONE, BUS_FAULT and each RING_FAULT. -/
def ringResetBits : Word := ringFaultBits ||| Status.mask .initDone ||| Status.mask .busFault

/-- The interface in its reset state, with the window's own words as they were. -/
def State.ringCleared (s : State) : State :=
  ((s.mapRgi fun g =>
      { g with
        initWaiting := false
        copy := none
        rings := g.rings.map fun x => { x with cursor := 0, halted := false, fault := false, poll := false } }).clearBits
    .ring ringResetBits).enterStopped

theorem ringReset_eq (s : State) : s.ringReset = s.markStores s.ringEmptied.ringCleared.pumpFloat := rfl

theorem foldl_abandon_aside (f : Holder → CtxState) (l : List Holder) (s : State) (h : s.rgi.idle) :
    s.aside (l.foldl (fun t h => t.abandon h (f h)) s) ∧ (l.foldl (fun t h => t.abandon h (f h)) s).rgi = s.rgi := by
  induction l generalizing s with
  | nil => exact ⟨.refl s, rfl⟩
  | cons a l ih =>
    have hone := abandon_idle s a (f a) h
    obtain ⟨hkeep, hrgi⟩ := ih (s.abandon a (f a)) (by rw [Rgi.idle, hone]; exact h)
    exact ⟨(abandon_aside s a (f a) h).trans hkeep, hrgi.trans hone⟩

/-- What detaching leaves of RGI: the window's own words. -/
structure Rgi.words (g k : Rgi) : Prop where
  windowIndex : k.windowIndex = g.windowIndex
  initAddr : k.initAddr = g.initAddr
  mask : k.mask = g.mask
  faultReason : k.faultReason = g.faultReason

theorem detach_words (s : State) (h : Holder) : s.rgi.words (State.detach h s).rgi := by
  unfold State.detach
  split
  · exact ⟨rfl, rfl, rfl, rfl⟩
  · dsimp only
    split
    · exact ⟨rfl, rfl, rfl, rfl⟩
    · exact ⟨rfl, rfl, rfl, rfl⟩
    · rw [undeliver_rgi]
      exact ⟨rfl, rfl, rfl, rfl⟩

theorem detachAll_words (s : State) : s.rgi.words (forHolders State.detach s).rgi := by
  have hfold : ∀ (l : List Holder) (t : State), s.rgi.words t.rgi →
      s.rgi.words (l.foldl (fun t h => State.detach h t) t).rgi := by
    intro l
    induction l with
    | nil => exact fun t ht => ht
    | cons a l ih =>
      intro t ht
      have hone := detach_words t a
      exact ih _ ⟨hone.windowIndex.trans ht.windowIndex, hone.initAddr.trans ht.initAddr, hone.mask.trans ht.mask,
        hone.faultReason.trans ht.faultReason⟩
  exact hfold Holder.all s ⟨rfl, rfl, rfl, rfl⟩

theorem dropOfficeIssue_words (s : State) : s.rgi.words s.dropOfficeIssue.rgi := by
  unfold State.dropOfficeIssue
  split
  · split <;> exact ⟨rfl, rfl, rfl, rfl⟩
  · exact ⟨rfl, rfl, rfl, rfl⟩

theorem dropOfficeIssue_aside (s : State) : s.aside s.dropOfficeIssue :=
  ⟨by rw [dropOfficeIssue_atc], by rw [dropOfficeIssue_ulc], by rw [dropOfficeIssue_tke]⟩

theorem ringEmptied_spec (s : State) :
    s.aside s.ringEmptied ∧ s.rgi.words s.ringEmptied.rgi ∧ s.ringEmptied.rgi.idle := by
  have hidle := detachAll_idle (s.dropOfficeIssue.mapRgi fun g => { g with bus := [] })
  obtain ⟨habandon, hrgi⟩ := foldl_abandon_aside (fun h => (s.ctx h).state)
    (Holder.all.filter fun h => (s.ctx h).attached || decide (h = .office)) _ hidle
  have hdetach := (detachAll_aside (s.dropOfficeIssue.mapRgi fun g => { g with bus := [] })).frame
    (dropOfficeIssue_aside s).ring (dropOfficeIssue_aside s).office (dropOfficeIssue_aside s).engine
  have hwords := detachAll_words (s.dropOfficeIssue.mapRgi fun g => { g with bus := [] })
  have hdrop := dropOfficeIssue_words s
  refine ⟨hdetach.trans habandon, ?_, ?_⟩
  · rw [State.ringEmptied, hrgi]
    exact ⟨hwords.windowIndex.trans hdrop.windowIndex, hwords.initAddr.trans hdrop.initAddr,
      hwords.mask.trans hdrop.mask, hwords.faultReason.trans hdrop.faultReason⟩
  · rw [Rgi.idle, State.ringEmptied, hrgi]
    exact hidle

theorem ringCleared_ring (s : State) (h : s.rgi.idle) (r : Holder) :
    s.ringCleared.ring r = ⟨0, false, false, false, none⟩ := by
  have hring : s.ringCleared.ring r =
      { s.ring r with cursor := 0, halted := false, fault := false, poll := false } := PerHolder.get_map _ _ r
  have hservice : (s.ring r).service = none := h r
  rw [hring, ← hservice]

theorem ringCleared_idle (s : State) (h : s.rgi.idle) : s.ringCleared.rgi.idle := fun r =>
  congrArg Ring.service (ringCleared_ring s h r)

/-- A RING reset clears INIT_DONE, BUS_FAULT and the RING_FAULT bits, and sets STOPPED. -/
theorem ringCleared_has (s : State) (b : Status) :
    s.ringCleared.has b =
      (s.has b && !(decide (b.block = .ring) &&
          ringResetBits.getLsbD b.pos) ||
        (decide (b.block = .ring) && decide (b.pos = 2))) := by
  rw [State.ringCleared, State.enterStopped, has_raise]
  congr 1
  exact has_clearBits s .ring _ b

theorem ringResetBits_initDone : ringResetBits.getLsbD (Status.pos .initDone) = true := by decide

theorem ringResetBits_busFault : ringResetBits.getLsbD (Status.pos .busFault) = true := by decide

theorem ringResetBits_initFault : ringResetBits.getLsbD (Status.pos .initFault) = false := by decide

theorem ringResetBits_writeRefused : ringResetBits.getLsbD (Status.pos .writeRefused) = false := by decide

theorem ringResetBits_ringFault (r : Holder) :
    ringResetBits.getLsbD (Status.pos (.ringFault r)) = true := by
  cases r with
  | office => decide
  | counter c => cases c <;> decide

end Sys2Proof.Machine

namespace Sys2Proof.Proofs

open Sys2Proof Sys2Proof.Machine

/-- Settles O23, by the state of the context that CANCEL names. -/
theorem cancelActsByTheContextsState : Obligations.CancelActsByTheContextsState := by
  refine ⟨fun s h v hlive hq hv => ?_, fun s c sale v hlive hv hq hw he hc hs ha => ?_,
    fun s h q v hlive hv hq hc hatt hservice hwrites hok => ?_⟩
  · simp only [exec_cancel_of_live hlive]
    refine ⟨fun hc => ?_, fun hc => ?_, fun hc hs => ?_, fun hc hs ha => ?_, fun w hw => ?_⟩
    · rw [writeCancel_of_cancelCtx hv (cancelCtx_of_idle hc) hq rfl]
    · rw [writeCancel_of_cancelCtx hv (cancelCtx_of_late hc) hq rfl]
    · rw [writeCancel_of_cancelCtx hv ((cancelCtx_of_issuing hc).trans (windBack_of_stopped .cancel hs)) hq rfl]
    · rw [writeCancel_of_cancelCtx hv ((cancelCtx_of_issuing hc).trans (windBack_of_waiting .cancel hs ha)) hq rfl]
    · rw [writeCancel_unnamed hw]
  · rw [exec_cancel_of_live hlive, writeCancel_named (h := .counter c) hv, cancelCtx_of_issuing hc,
      windBack_of_tokens .cancel hs ha, pumpFloat_release (s := s.withdrawn c .cancel) hq hw he,
      markStores_of_tills s ((s.withdrawn c .cancel).mapFlu fun f => { f with writing := some (.release c) }) rfl]
    refine ⟨_, rfl, rfl, rfl, rfl, ?_, fun h hh => ?_, rfl⟩
    · exact (withdrawn_ctx s c .cancel (.counter c)).trans (if_pos rfl)
    · exact (withdrawn_ctx s c .cancel h).trans (if_neg hh)
  · have hreply : s.cancelCtx h =
        { ((s.unpark h).mapCtx h fun x => Ctx.replied x (Reply.plain .cancelled)) with
          rgi := s.rgi.replyDue h q .context (Reply.plain .cancelled) } := by
      rw [cancelCtx_of_parked hc, ctxReply_atOwner (s.unpark h) h q _ ⟨hatt, hservice, hwrites, hok⟩]
      rfl
    rw [exec_cancel_of_live hlive, writeCancel_of_cancelCtx hv hreply hq rfl]
    have hctx (k : Holder) : (((s.unpark h).mapCtx h fun x => Ctx.replied x (Reply.plain .cancelled)).ctx k) =
        if k = h then Ctx.replied (s.ctx h) (Reply.plain .cancelled) else s.ctx k := ctx_mapCtx _ _ _ _
    refine ⟨_, rfl, rfl, rfl, ?_, fun k hk => (hctx k).trans (if_neg hk), rfl⟩
    exact (congrArg Ctx.state ((hctx h).trans (if_pos rfl))).trans rfl

/-- Settles O26: detaching leaves no request in service, so nothing that follows reaches RING status or the window. -/
theorem aRingResetStopsTheInterface : Obligations.ARingResetStopsTheInterface := by
  intro s hlive
  rw [exec_ringReset_of_live hlive, ringReset_eq]
  obtain ⟨hemptied, hwords, hidle⟩ := ringEmptied_spec s
  have hcleared := ringCleared_idle _ hidle
  have hrgi : (s.markStores s.ringEmptied.ringCleared.pumpFloat).rgi = s.ringEmptied.ringCleared.rgi := by
    rw [markStores_rgi, pumpFloat_idle _ hcleared]
  have hend : s.ringEmptied.ringCleared.aside (s.markStores s.ringEmptied.ringCleared.pumpFloat) :=
    (pumpFloat_aside _ hcleared).trans (markStores_aside s _)
  have hhas {b : Status} (hb : b.block = .ring) : (s.markStores s.ringEmptied.ringCleared.pumpFloat).has b =
      (s.has b && !ringResetBits.getLsbD b.pos ||
        decide (b.pos = 2)) := by
    have hring : (s.markStores s.ringEmptied.ringCleared.pumpFloat).has b = s.ringEmptied.ringCleared.has b := by
      simp only [State.has, hb, PerBlock.get, hend.ring]
    have hbefore : s.ringEmptied.has b = s.has b := by simp only [State.has, hb, PerBlock.get, hemptied.ring]
    rw [hring, ringCleared_has, hbefore]
    simp [hb]
  refine ⟨_, rfl, ?_⟩
  simp only [State.ring, hrgi]
  refine ⟨rfl, rfl, rfl, rfl, ringCleared_ring _ hidle, ?_, ?_, ?_, fun r => ?_, hwords.initAddr, hwords.windowIndex,
    hwords.mask, hwords.faultReason, ?_, ?_, hend.office.trans hemptied.office, hend.engine.trans hemptied.engine⟩
  · rw [hhas rfl]; simp [Status.pos]
  · rw [hhas rfl, ringResetBits_initDone]; simp [Status.pos]
  · rw [hhas rfl, ringResetBits_busFault]; simp [Status.pos]
  · rw [hhas rfl, ringResetBits_ringFault, Bool.not_true, Bool.and_false, Bool.false_or]
    exact decide_eq_false (show ¬ 8 + r.index = 2 by omega)
  · rw [hhas rfl, ringResetBits_initFault]; simp [Status.pos]
  · rw [hhas rfl, ringResetBits_writeRefused]; simp [Status.pos]

/-- Settles O27: the notice reaches the contexts in ISSUING alone. -/
theorem engineResetAndRun : Obligations.EngineResetAndRun := by
  refine ⟨fun s hlive => ⟨fun hc hq => ?_, ?_⟩, fun s c sale hlive hq hw he hc hs ha hother => ?_⟩
  · rw [exec_engineReset_of_live hlive, engineReset_of_none hc hq]
    rfl
  · rw [exec_engineRun_of_live hlive, State.engineRun]
    by_cases hh : s.tke.engine = .halted
    · rw [if_pos hh, if_pos hh]; rfl
    · rw [if_neg hh, if_neg hh]
  · rw [exec_engineReset_of_live hlive, engineReset_of_one hq hw he hc hs ha hother]
    refine ⟨_, rfl, rfl, rfl, ?_, fun h hh => ?_, has_raise_self _ .engineHalted, rfl⟩
    · exact (withdrawn_ctx s.engineEmptied c .engineReset (.counter c)).trans (if_pos rfl)
    · exact (withdrawn_ctx s.engineEmptied c .engineReset h).trans (if_neg hh)

end Sys2Proof.Proofs
end

section
/-! PROOF. Clearing the faults of RING status (R192, R194, R198). -/

namespace Sys2Proof.Machine

variable {s : State}

/-! ### One ring's fault lifted (R192) -/

/-- RGI with a ring's fault cleared and its halt lifted. -/
def Rgi.unhalt (g : Rgi) (r : Holder) : Rgi :=
  { g with rings := g.rings.set r { g.rings.get r with fault := false, halted := false } }

theorem unhalt_access (g : Rgi) (r x : Holder) : (g.unhalt r).accessOk x = g.accessOk x := by
  have hcursor : ((g.unhalt r).rings.get x).cursor = (g.rings.get x).cursor := by
    simp only [Rgi.unhalt, PerHolder.get_set]
    split <;> simp_all
  simp only [Rgi.accessOk, Rgi.descriptorAt, hcursor]
  rfl

theorem lookOne_record (g : Rgi) (r x : Holder) :
    ((lookOne g r).rings.get x).fault = (g.rings.get x).fault ∧
      ((lookOne g r).rings.get x).cursor = (g.rings.get x).cursor := by
  unfold lookOne
  split
  · simp only [PerHolder.get_set]
    split <;> simp_all
  · exact ⟨rfl, rfl⟩

theorem lookOne_bus (g : Rgi) (r : Holder) :
    (lookOne g r).bus =
      if g.state = .running ∧ (g.rings.get r).halted = false ∧ (g.rings.get r).service = none ∧
          Access.look r ∉ g.bus then g.bus ++ [.look r] else g.bus := by
  unfold lookOne
  split <;> rfl

/-- A ring's fault lifted, with its look in RUNNING. -/
theorem clearRingFault_of_set {r : Holder} (h : s.has (.ringFault r) = true) (hok : s.rgi.accessOk r = true) :
    s.clearRingFault r =
      { s with
        rgi := lookOne (s.rgi.unhalt r) r
        atc := (s.clearBits .ring (Status.mask (.ringFault r))).atc } := by
  rw [State.clearRingFault, if_pos h, lookAt_eq _ _ ((unhalt_access s.rgi r r).trans hok)]
  rfl

theorem clearRingFault_of_clear {r : Holder} (h : s.has (.ringFault r) = false) : s.clearRingFault r = s :=
  if_neg (Bool.eq_false_iff.1 h)

theorem lifted_ring (g : Rgi) (r x : Holder) :
    ((lookOne (g.unhalt r) r).rings.get x).fault = ((g.rings.get x).fault && !decide (x = r)) ∧
      ((lookOne (g.unhalt r) r).rings.get x).halted = ((g.rings.get x).halted && !decide (x = r)) ∧
      ((lookOne (g.unhalt r) r).rings.get x).service = (g.rings.get x).service ∧
      ((lookOne (g.unhalt r) r).rings.get x).cursor = (g.rings.get x).cursor := by
  obtain ⟨hhalted, hservice⟩ := lookOne_ring (g.unhalt r) r x
  obtain ⟨hfault, hcursor⟩ := lookOne_record (g.unhalt r) r x
  rw [hhalted, hservice, hfault, hcursor]
  simp only [Rgi.unhalt, PerHolder.get_set]
  split <;> simp_all

theorem lifted_bus (g : Rgi) (r : Holder) :
    (lookOne (g.unhalt r) r).bus =
      if g.state = .running ∧ (g.rings.get r).service = none ∧ Access.look r ∉ g.bus then g.bus ++ [.look r]
      else g.bus := by
  rw [lookOne_bus]
  simp [Rgi.unhalt]

theorem ringFault_pos_inj {r x : Holder} (h : Status.pos (.ringFault r) = Status.pos (.ringFault x)) : r = x := by
  have hindex : r.index = x.index := Nat.add_left_cancel h
  have hnumber := congrArg Holder.numbered hindex
  rw [Holder.numbered_index, Holder.numbered_index] at hnumber
  exact Option.some.inj hnumber

theorem clearRingFault_status (s : State) (r : Holder) (n : Nat) :
    ((s.clearBits .ring (Status.mask (.ringFault r))).atc.status.ring).getLsbD n =
      (s.atc.status.ring.getLsbD n && !decide (n = 8 + r.index)) := by
  show (s.atc.status.ring &&& ~~~Status.mask (.ringFault r)).getLsbD n = _
  rw [BitVec.getLsbD_and, BitVec.getLsbD_not, Status.mask_bit]
  by_cases hn : n < 32
  · rw [decide_eq_true hn, Bool.true_and]
    rfl
  · simp [BitVec.getLsbD_of_ge _ _ (Nat.le_of_not_lt hn)]

/-! ### The faults that one write lifts (R192, R198; log entry 29) -/

/-- A write of RING status lifts a ring's fault when it writes a 1 to a bit that is set. -/
def State.lifts (s : State) (v : Word) (r : Holder) : Bool := v.getLsbD (8 + r.index) && s.has (.ringFault r)

/-- What the write does for one ring. -/
def State.liftRing (v : Word) (s : State) (r : Holder) : State :=
  if v.getLsbD (8 + r.index) then s.clearRingFault r else s

/-- `t` is `s` after the write has reached the rings of a list. -/
structure State.lifted (v : Word) (l : List Holder) (s t : State) : Prop where
  only : t = { s with rgi := t.rgi, atc := t.atc }
  state : t.rgi.state = s.rgi.state
  access : ∀ r, t.rgi.accessOk r = s.rgi.accessOk r
  fault : ∀ r, (t.ring r).fault = ((s.ring r).fault && !(decide (r ∈ l) && s.lifts v r))
  halted : ∀ r, (t.ring r).halted = ((s.ring r).halted && !(decide (r ∈ l) && s.lifts v r))
  same : ∀ r, (t.ring r).service = (s.ring r).service ∧ (t.ring r).cursor = (s.ring r).cursor
  bus : s.rgi.state = .running → t.rgi.bus = s.rgi.bus ++
    (l.filter fun r => s.lifts v r && (s.ring r).service.isNone && decide (Access.look r ∉ s.rgi.bus)).map .look
  kept : ∀ n, v.getLsbD n = false → t.atc.status.ring.getLsbD n = s.atc.status.ring.getLsbD n

theorem only_rgi_atc_trans {s u t : State} (h : u = { s with rgi := u.rgi, atc := u.atc })
    (h' : t = { u with rgi := t.rgi, atc := t.atc }) : t = { s with rgi := t.rgi, atc := t.atc } :=
  h'.trans (by rw [h])

theorem liftRing_of_lifts {v : Word} {r : Holder} (h : s.lifts v r = true) (hok : s.rgi.accessOk r = true) :
    s.liftRing v r =
      { s with
        rgi := lookOne (s.rgi.unhalt r) r
        atc := (s.clearBits .ring (Status.mask (.ringFault r))).atc } := by
  obtain ⟨hbit, hset⟩ := Bool.and_eq_true_iff.1 h
  rw [State.liftRing, if_pos hbit, clearRingFault_of_set hset hok]

theorem liftRing_of_not_lifts {v : Word} {r : Holder} (h : s.lifts v r = false) : s.liftRing v r = s := by
  unfold State.liftRing
  split
  · next hbit =>
    rw [State.lifts, hbit, Bool.true_and] at h
    exact clearRingFault_of_clear h
  · rfl

theorem liftRing_lifted (s : State) (v : Word) (a : Holder) (hok : s.rgi.accessOk a = true) :
    s.lifted v [a] (s.liftRing v a) := by
  cases h : s.lifts v a with
  | false =>
    rw [liftRing_of_not_lifts h]
    refine ⟨rfl, rfl, fun _ => rfl, fun r => ?_, fun r => ?_, fun _ => ⟨rfl, rfl⟩, fun _ => ?_, fun _ _ => rfl⟩
    · by_cases hr : r = a <;> simp [hr, h]
    · by_cases hr : r = a <;> simp [hr, h]
    · simp [h]
  | true =>
    have hbit := (Bool.and_eq_true_iff.1 h).1
    rw [liftRing_of_lifts h hok]
    refine ⟨rfl, (lookOne_state _ _), fun r => (lookOne_access _ _ _).trans (unhalt_access _ _ _), fun r => ?_,
      fun r => ?_, fun r => (lifted_ring s.rgi a r).2.2, fun hrun => ?_, fun n hn => ?_⟩
    · refine (lifted_ring s.rgi a r).1.trans ?_
      by_cases hr : r = a <;> simp [hr, h, State.ring]
    · refine (lifted_ring s.rgi a r).2.1.trans ?_
      by_cases hr : r = a <;> simp [hr, h, State.ring]
    · refine (lifted_bus s.rgi a).trans ?_
      simp only [hrun, h, List.filter_cons, List.filter_nil, State.ring]
      split <;> simp_all
    · rw [clearRingFault_status, decide_eq_false, Bool.not_false, Bool.and_true]
      rintro rfl
      exact Bool.false_ne_true (hn.symm.trans hbit)

theorem lifts_liftRing {v : Word} {a r : Holder} (hok : s.rgi.accessOk a = true) (hr : r ≠ a) :
    (s.liftRing v a).lifts v r = s.lifts v r := by
  cases h : s.lifts v a with
  | false => rw [liftRing_of_not_lifts h]
  | true =>
    rw [liftRing_of_lifts h hok]
    have hbit := clearRingFault_status s a (8 + r.index)
    have hne : 8 + r.index ≠ 8 + a.index := fun e => hr (ringFault_pos_inj e)
    rw [decide_eq_false hne, Bool.not_false, Bool.and_true] at hbit
    exact congrArg (v.getLsbD (8 + r.index) && ·) hbit

theorem liftAll_lifted (v : Word) (l : List Holder) (hl : l.Nodup) (s : State) (hok : ∀ r, s.rgi.accessOk r = true) :
    s.lifted v l (l.foldl (State.liftRing v) s) := by
  induction l generalizing s with
  | nil => exact ⟨rfl, rfl, fun _ => rfl, by simp, by simp, fun _ => ⟨rfl, rfl⟩, by simp, fun _ _ => rfl⟩
  | cons a l ih =>
    obtain ⟨hnot, hl⟩ := List.nodup_cons.1 hl
    have one := liftRing_lifted s v a (hok a)
    have rest := ih hl (s.liftRing v a) fun r => (one.access r).trans (hok r)
    have hlifts : ∀ r ∈ l, (s.liftRing v a).lifts v r = s.lifts v r := fun r hr =>
      lifts_liftRing (hok a) fun e => hnot (e ▸ hr)
    refine ⟨?_, rest.state.trans one.state, fun r => (rest.access r).trans (one.access r), fun r => ?_, fun r => ?_,
      fun r => ⟨(rest.same r).1.trans (one.same r).1, (rest.same r).2.trans (one.same r).2⟩, fun hrun => ?_,
      fun n hn => (rest.kept n hn).trans (one.kept n hn)⟩
    · exact only_rgi_atc_trans one.only rest.only
    · rw [List.foldl_cons, rest.fault r, one.fault r]
      by_cases hr : r ∈ l
      · have hra : r ≠ a := fun e => hnot (e ▸ hr)
        simp [hr, hra, hlifts r hr]
      · simp [hr]
    · rw [List.foldl_cons, rest.halted r, one.halted r]
      by_cases hr : r ∈ l
      · have hra : r ≠ a := fun e => hnot (e ▸ hr)
        simp [hr, hra, hlifts r hr]
      · simp [hr]
    · have hbus := one.bus hrun
      rw [List.foldl_cons, rest.bus (one.state.trans hrun)]
      have hfilter : (l.filter fun r => (s.liftRing v a).lifts v r && ((s.liftRing v a).ring r).service.isNone &&
          decide (Access.look r ∉ (s.liftRing v a).rgi.bus)) =
          l.filter fun r => s.lifts v r && (s.ring r).service.isNone && decide (Access.look r ∉ s.rgi.bus) := by
        refine List.filter_congr fun r hr => ?_
        have hra : r ≠ a := fun e => hnot (e ▸ hr)
        have hlook : Access.look r ∉ (s.liftRing v a).rgi.bus ↔ Access.look r ∉ s.rgi.bus := by
          rw [hbus, List.mem_append, not_or, and_iff_left]
          simp only [List.mem_map, List.mem_filter, List.mem_singleton, not_exists, not_and]
          rintro x ⟨rfl, -⟩ e
          exact hra (Access.look.inj e).symm
        rw [hlifts r hr, (one.same r).1, decide_eq_decide.2 hlook]
      rw [hfilter, hbus, List.append_assoc, ← List.map_append, ← List.filter_append]
      rfl

/-! ### The write of RING status -/

theorem ringStatus_lifted (s : State) (v : Word) (hok : ∀ r, s.rgi.accessOk r = true) :
    s.lifted v Holder.all (forHolders (fun r s => if v.getLsbD (8 + r.index) then s.clearRingFault r else s) s) :=
  liftAll_lifted v Holder.all (by decide) s hok

/-- The bits that the last part of the write clears: all of its 1s, but STOPPED when BUS_FAULT has just set it. -/
def State.clearedBits (s : State) (v : Word) : Word :=
  if v.getLsbD 2 && (v.getLsbD 4 && decide (s.rgi.state = .faulted)) then v &&& ~~~Status.mask .stopped else v

/-- A write of RING status that has lifted its rings' faults. -/
def State.endRingStatus (s : State) (v : Word) : State :=
  (if v.getLsbD 4 then s.clearBusFault else s).clearBits .ring (s.clearedBits v)

theorem writeStatus_ring (s : State) (v : Word)
    (hok : ∀ r, s.rgi.accessOk r = true) :
    s.writeStatus .ring v =
      (forHolders (fun r s => if v.getLsbD (8 + r.index) then s.clearRingFault r else s) s).endRingStatus v := by
  have hstate := (ringStatus_lifted s v hok).state
  simp only [State.writeStatus, State.endRingStatus, State.clearedBits, hstate]
  cases v.getLsbD 2 <;> cases v.getLsbD 4 <;> cases decide (s.rgi.state = .faulted) <;> rfl

theorem clearedBits_bit (s : State) (v : Word) {n : Nat} (hn : n ≠ 2) :
    (s.clearedBits v).getLsbD n = v.getLsbD n := by
  unfold State.clearedBits
  split
  · have hmask : (Status.mask .stopped).getLsbD n = false := by
      rw [Status.mask_bit]
      exact decide_eq_false hn
    rw [BitVec.getLsbD_and, BitVec.getLsbD_not, hmask]
    by_cases hlt : n < 32
    · simp [hlt]
    · simp [BitVec.getLsbD_of_ge _ _ (Nat.le_of_not_lt hlt)]
  · rfl

theorem clearedBits_stopped (s : State) (v : Word) (h4 : v.getLsbD 4 = true) (hf : s.rgi.state = .faulted) :
    (s.clearedBits v).getLsbD 2 = false := by
  unfold State.clearedBits
  split
  · rw [BitVec.getLsbD_and, BitVec.getLsbD_not, Status.mask_bit]
    simp [Status.pos]
  · next hc => simpa [h4, hf] using hc

theorem clearBusFault_of_faulted (h : s.rgi.state = .faulted) :
    s.clearBusFault = (s.clearBits .ring (Status.mask .busFault)).enterStopped := if_pos h

theorem clearBusFault_of_not_faulted (h : s.rgi.state ≠ .faulted) :
    s.clearBusFault = s.clearBits .ring (Status.mask .busFault) := if_neg h

theorem clearBits_ring_bit (s : State) (v : Word) (n : Nat) :
    (s.clearBits .ring v).atc.status.ring.getLsbD n = (s.atc.status.ring.getLsbD n && !v.getLsbD n) := by
  show (s.atc.status.ring &&& ~~~v).getLsbD n = _
  by_cases hn : n < 32
  · simp [hn]
  · simp [BitVec.getLsbD_of_ge _ _ (Nat.le_of_not_lt hn)]

/-- BUS_FAULT cleared leaves each bit but its own and STOPPED. -/
theorem clearBusFault_bit (s : State) {n : Nat} (hn : n ≠ 2) :
    s.clearBusFault.atc.status.ring.getLsbD n = (s.atc.status.ring.getLsbD n && !decide (n = 4)) := by
  have hclear : ((s.clearBits .ring (Status.mask .busFault)).atc.status.ring).getLsbD n =
      (s.atc.status.ring.getLsbD n && !decide (n = 4)) := by
    rw [clearBits_ring_bit, Status.mask_bit]
    rfl
  by_cases h : s.rgi.state = .faulted
  · rw [clearBusFault_of_faulted h, ← hclear]
    exact raise_other_bit _ .stopped .ring n (Or.inr hn)
  · rw [clearBusFault_of_not_faulted h, hclear]

/-- What the end of the write leaves of the rings and the bus, and of the state. -/
theorem endRingStatus_rgi (s : State) (v : Word) :
    (v.getLsbD 4 = false → (s.endRingStatus v).rgi = s.rgi) ∧
      (s.rgi.state ≠ .faulted → (s.endRingStatus v).rgi = s.rgi) ∧
      (v.getLsbD 4 = true → s.rgi.state = .faulted →
        (s.endRingStatus v).rgi = { s.rgi with state := .stopped, bus := [] }) ∧
      (s.endRingStatus v).rgi.rings = s.rgi.rings := by
  have hrgi : (s.endRingStatus v).rgi = (if v.getLsbD 4 then s.clearBusFault else s).rgi := rfl
  rw [hrgi]
  by_cases hf : s.rgi.state = .faulted
  · cases v.getLsbD 4 <;> simp [clearBusFault_of_faulted hf, hf, State.enterStopped, State.clearBits]
  · cases v.getLsbD 4 <;> simp [clearBusFault_of_not_faulted hf, hf, State.clearBits]

theorem endRingStatus_only (s : State) (v : Word) :
    s.endRingStatus v = { s with rgi := (s.endRingStatus v).rgi, atc := (s.endRingStatus v).atc } := by
  unfold State.endRingStatus
  split
  · by_cases hf : s.rgi.state = .faulted
    · rw [clearBusFault_of_faulted hf]; rfl
    · rw [clearBusFault_of_not_faulted hf]; rfl
  · rfl

theorem endRingStatus_bit (s : State) (v : Word) {n : Nat} (hn : n ≠ 2) :
    (s.endRingStatus v).atc.status.ring.getLsbD n = (s.atc.status.ring.getLsbD n && !v.getLsbD n) := by
  rw [State.endRingStatus, clearBits_ring_bit, clearedBits_bit s v hn]
  split
  · next h4 =>
    rw [clearBusFault_bit s hn]
    by_cases hn4 : n = 4
    · subst hn4; simp [h4]
    · simp [hn4]
  · rfl

theorem endRingStatus_stopped (s : State) (v : Word) (h4 : v.getLsbD 4 = true) (hf : s.rgi.state = .faulted) :
    (s.endRingStatus v).has .stopped = true := by
  rw [State.endRingStatus, has_clearBits, if_pos h4, clearBusFault_of_faulted hf, enterStopped_has]
  have hbit : (s.clearedBits v).getLsbD (Status.pos .stopped) = false := clearedBits_stopped s v h4 hf
  rw [hbit, Bool.and_false]
  rfl

end Sys2Proof.Machine

namespace Sys2Proof.Proofs

open Sys2Proof Sys2Proof.Machine

/-- Settles O16, by the rings that the write lifts and then the end of the write. -/
theorem clearingRingStatusLiftsItsFaults : Obligations.ClearingRingStatusLiftsItsFaults := by
  refine ⟨fun s v hlive hok => ?_, fun s hlive => ⟨fun r hset hok => ?_, fun r hclear => ?_, ?_⟩⟩
  · rw [exec_statusWrite_of_live hlive, writeStatus_ring s v hok]
    have hl := ringStatus_lifted s v hok
    revert hl
    generalize forHolders (fun r s => if v.getLsbD (8 + r.index) then s.clearRingFault r else s) s = u
    intro hl
    obtain ⟨h4, hsame, hfaulted, hrings⟩ := endRingStatus_rgi u v
    have hring (r : Holder) : (u.endRingStatus v).ring r = u.ring r := congrArg (·.get r) hrings
    refine ⟨_, rfl, fun r => ?_, fun r => ?_, fun hrun => ?_, fun r => ?_, fun h => ?_, fun h hs => ⟨?_, ?_⟩,
      fun n hn => ?_, only_rgi_atc_trans hl.only (endRingStatus_only u v)⟩
    · rw [hring, hl.fault, decide_eq_true (Holder.mem_all r), Bool.true_and]
      rfl
    · rw [hring, hl.halted, decide_eq_true (Holder.mem_all r), Bool.true_and]
      rfl
    · rw [hsame (by rw [hl.state, hrun]; decide), hl.bus hrun]
      rfl
    · rw [hring]
      exact hl.same r
    · rw [h4 h, hl.state]
    · rw [hfaulted h (hl.state.trans hs)]
    · exact endRingStatus_stopped u v h (hl.state.trans hs)
    · rw [endRingStatus_bit u v hn]
      cases hv : v.getLsbD n with
      | true => simp
      | false => rw [hl.kept n hv]
  · rw [show exec (.ringFaultClear r) s = .next (s.clearRingFault r) from
      whenLive_of_live (fun s => s.clearRingFault r) hlive, clearRingFault_of_set hset hok]
    refine ⟨_, rfl, ?_, ?_, ?_, lifted_bus s.rgi r, rfl⟩
    · refine (has_clearBits s .ring (Status.mask (.ringFault r)) (.ringFault r)).trans ?_
      rw [Status.mask_bit]
      simp [Status.block]
    · refine (lifted_ring s.rgi r r).1.trans ?_
      simp
    · refine (lifted_ring s.rgi r r).2.1.trans ?_
      simp
  · rw [show exec (.ringFaultClear r) s = .next (s.clearRingFault r) from
      whenLive_of_live (fun s => s.clearRingFault r) hlive, clearRingFault_of_clear hclear]
  · rw [show exec .busFaultClear s = .next s.clearBusFault from
      whenLive_of_live (fun s => s.clearBusFault) hlive]
    have hbit : s.clearBusFault.has .busFault = false := by
      refine (clearBusFault_bit s (n := 4) (by decide)).trans ?_
      simp
    by_cases hf : s.rgi.state = .faulted
    · rw [clearBusFault_of_faulted hf] at hbit ⊢
      exact ⟨_, rfl, hbit, fun _ => ⟨rfl, enterStopped_has _⟩, fun h => absurd hf h, rfl⟩
    · rw [clearBusFault_of_not_faulted hf] at hbit ⊢
      exact ⟨_, rfl, hbit, fun h => absurd h hf, fun _ => rfl, rfl⟩

end Sys2Proof.Proofs
end

section
/-! PROOF. What the reads of the window return (R53, R59, R158, R182, R197, R200, R202, 11.2). -/

namespace Sys2Proof.Machine

variable {s : State}

/-! ### Fields of a word -/

theorem bit_le_one (b : Bool) : bit b ≤ 1 := by cases b <;> decide

theorem getLsbD_of_bit {x i : Nat} {b : Bool} (hi : i < 32) (h : x / 2 ^ i % 2 = bit b) :
    (BitVec.ofNat 32 x).getLsbD i = b := by
  rw [BitVec.getLsbD_ofNat, decide_eq_true hi, Bool.true_and, Nat.testBit_eq_decide_div_mod_eq, h]
  cases b <;> rfl

theorem RingState.code_lt (x : RingState) : x.code < 8 := by cases x <;> decide

theorem InitReason.code_lt (x : InitReason) : x.code < 16 := by cases x <;> decide

theorem LineState.code_lt (x : LineState) : x.code < 8 := by cases x <;> decide

theorem ServiceMode.code_lt (x : ServiceMode) : x.code < 4 := by cases x <;> decide

/-! ### RING_STATUS fields (R197) -/

/-- The halts of the rings, one bit each. -/
theorem haltedSum_eq (f : Holder → Bool) :
    (Holder.all.map fun r => bit (f r) * 2 ^ r.index).sum =
      bit (f (.counter .c0)) + 2 * bit (f (.counter .c1)) + 4 * bit (f (.counter .c2)) + 8 * bit (f (.counter .c3)) +
        16 * bit (f (.counter .c4)) + 32 * bit (f (.counter .c5)) + 64 * bit (f (.counter .c6)) +
        128 * bit (f (.counter .c7)) + 256 * bit (f .office) := by
  simp [Holder.all, Counter.all, Holder.index, Counter.index]
  omega

theorem haltedSum_lt (f : Holder → Bool) : (Holder.all.map fun r => bit (f r) * 2 ^ r.index).sum < 512 := by
  rw [haltedSum_eq]
  have hb := fun r => bit_le_one (f r)
  have h0 := hb (.counter .c0); have h1 := hb (.counter .c1); have h2 := hb (.counter .c2); have h3 := hb (.counter .c3)
  have h4 := hb (.counter .c4); have h5 := hb (.counter .c5); have h6 := hb (.counter .c6); have h7 := hb (.counter .c7)
  have h8 := hb .office
  omega

theorem haltedSum_bit (f : Holder → Bool) (r : Holder) :
    (Holder.all.map fun r => bit (f r) * 2 ^ r.index).sum / 2 ^ r.index % 2 = bit (f r) := by
  rw [haltedSum_eq]
  have hb := fun r => bit_le_one (f r)
  have h0 := hb (.counter .c0); have h1 := hb (.counter .c1); have h2 := hb (.counter .c2); have h3 := hb (.counter .c3)
  have h4 := hb (.counter .c4); have h5 := hb (.counter .c5); have h6 := hb (.counter .c6); have h7 := hb (.counter .c7)
  have h8 := hb .office
  cases r with
  | office => simp only [Holder.index]; omega
  | counter c => cases c <;> simp only [Holder.index, Counter.index] <;> omega

theorem Holder.index_le (r : Holder) : r.index ≤ 8 := by
  cases r with
  | office => exact Nat.le_refl 8
  | counter c => cases c <;> decide

theorem fields_state (g : Rgi) : (BitVec.ofNat 32 g.fields).toNat % 8 = g.state.code := by
  have hstate := g.state.code_lt
  rw [BitVec.toNat_ofNat, Rgi.fields]
  omega

theorem fields_reason (g : Rgi) : (BitVec.ofNat 32 g.fields).toNat / 1048576 % 16 = g.faultReason.code := by
  have hstate := g.state.code_lt
  have hreason := g.faultReason.code_lt
  have hhalts := haltedSum_lt fun r => (g.rings.get r).halted
  rw [BitVec.toNat_ofNat, Rgi.fields]
  omega

theorem fields_ring (g : Rgi) (h : g.faultRing ≤ 8) :
    (BitVec.ofNat 32 g.fields).toNat / 16777216 % 16 = g.faultRing ∧
      (BitVec.ofNat 32 g.fields).getLsbD 31 = g.initWaiting := by
  have hstate := g.state.code_lt
  have hreason := g.faultReason.code_lt
  have hhalts := haltedSum_lt fun r => (g.rings.get r).halted
  have hwaits := bit_le_one g.initWaiting
  refine ⟨?_, getLsbD_of_bit (by decide) ?_⟩
  · rw [BitVec.toNat_ofNat, Rgi.fields]
    omega
  · rw [Rgi.fields]
    omega

theorem fields_halted (g : Rgi) (r : Holder) :
    (BitVec.ofNat 32 g.fields).getLsbD (8 + r.index) = (g.rings.get r).halted := by
  have hstate := g.state.code_lt
  have hhalts := haltedSum_lt fun r => (g.rings.get r).halted
  have hone := haltedSum_bit (fun r => (g.rings.get r).halted) r
  have hindex := Holder.index_le r
  refine getLsbD_of_bit (by omega) ?_
  rw [← hone, Rgi.fields, Nat.pow_add, ← Nat.div_div_eq_div_mul]
  generalize (Holder.all.map fun r => bit (g.rings.get r).halted * 2 ^ r.index).sum = halts at hhalts
  have hlow : (g.state.code + 256 * halts + 2 ^ 20 * g.faultReason.code + 2 ^ 24 * g.faultRing +
      2 ^ 31 * bit g.initWaiting) / 2 ^ 8 =
        halts + 512 * (8 * g.faultReason.code + 128 * g.faultRing + 16384 * bit g.initWaiting) := by omega
  rw [hlow]
  generalize 8 * g.faultReason.code + 128 * g.faultRing + 16384 * bit g.initWaiting = rest
  interval_cases r.index <;> omega

/-! ### LINK_STATE (R158) -/

theorem Ulc.stateWord0_fields (u : Ulc) (hgood : u.good ≤ 15) (hbad : u.bad ≤ 15) :
    let w := BitVec.ofNat 32 u.stateWord0
    w.toNat % 8 = u.line.code ∧ w.getLsbD 3 = u.carrier ∧ w.toNat / 16 % 16 = u.good ∧ w.toNat / 256 % 16 = u.bad ∧
      w.toNat / 4096 % 16 = (u.lastNibble.map BitVec.toNat).getD 0 ∧ w.getLsbD 16 = u.lastNibble.isSome ∧
      w.toNat / 131072 % 4 = u.mode.code ∧ w.getLsbD 19 = u.reportOwed ∧ w.getLsbD 20 = u.office.isSome := by
  have hline := u.line.code_lt
  have hcarrier := bit_le_one u.carrier
  have hnibble : (u.lastNibble.map BitVec.toNat).getD 0 < 16 := by
    cases u.lastNibble with
    | none => decide
    | some n => exact n.isLt
  have hseen := bit_le_one u.lastNibble.isSome
  have hmode := u.mode.code_lt
  have howed := bit_le_one u.reportOwed
  have hoffice := bit_le_one u.office.isSome
  simp only [Ulc.stateWord0, BitVec.toNat_ofNat]
  refine ⟨by omega, getLsbD_of_bit (by decide) (by omega), by omega, by omega, by omega,
    getLsbD_of_bit (by decide) (by omega), by omega, getLsbD_of_bit (by decide) (by omega),
    getLsbD_of_bit (by decide) (by omega)⟩

theorem Ulc.stateWord1_fields (u : Ulc) (hplaces : u.placesOk) (hlimit : u.holdover ≤ 10080) :
    let w := BitVec.ofNat 32 u.stateWord1
    w.toNat % 32 = u.queue.length ∧ w.toNat / 256 % 32 = u.reserved ∧ w.toNat / 65536 = u.holdover := by
  obtain ⟨-, hused, -⟩ := hplaces
  rw [Ulc.used] at hused
  simp only [Ulc.stateWord1, BitVec.toNat_ofNat]
  refine ⟨by omega, by omega, by omega⟩

theorem Ulc.stateWord2_fields (u : Ulc) (hnext : u.sweep.next ≤ 16384) (hleft : u.sweep.remaining ≤ 64) :
    let w := BitVec.ofNat 32 u.stateWord2
    w.getLsbD 0 = u.sweep.active ∧ w.toNat / 2 % 32768 = u.sweep.next ∧ w.toNat / 65536 = u.sweep.remaining := by
  have hactive := bit_le_one u.sweep.active
  simp only [Ulc.stateWord2, BitVec.toNat_ofNat]
  refine ⟨getLsbD_of_bit (by decide) (by omega), by omega, by omega⟩

/-! ### BLOCK_CONTROL and TIME (R202) -/

theorem Atc.controlWord_fields (a : Atc) (h : a.phase ≠ .clearing) :
    let w := BitVec.ofNat 32 a.controlWord
    w.extractLsb' 16 2 = (if a.phase = .inService then 2 else 1) ∧ w.getLsbD 18 = a.clearRun ∧
      w.getLsbD 19 = a.backupLost ∧ w.extractLsb' 0 16 = 0 := by
  rw [Atc.controlWord]
  cases hphase : a.phase with
  | clearing => exact absurd hphase h
  | recovering | inService =>
    cases a.clearRun <;> cases a.backupLost <;> decide

theorem Tke.now_word (k : Tke) (h : k.clockOk) :
    let w := BitVec.ofNat 32 (k.now + 2 ^ 31 * bit k.clockValid)
    w.toNat % 16777216 = k.minute ∧ w.getLsbD 31 = k.clockValid := by
  obtain ⟨hminute, -, hzero⟩ := h
  rw [show maxMinute = 16777215 from rfl] at hminute
  have hnow : k.now = k.minute := by
    rw [Tke.now]
    cases hvalid : k.clockValid with
    | true => rfl
    | false => exact (hzero hvalid).symm
  have hvalid := bit_le_one k.clockValid
  rw [hnow]
  refine ⟨?_, getLsbD_of_bit (by decide) (by omega)⟩
  rw [BitVec.toNat_ofNat]
  omega

/-! ### ATTENTION_SUMMARY (R200) -/

theorem Block.pos_lt (b : Block) : b.pos < 7 := by cases b <;> decide

theorem one_shiftLeft_bit {k : Nat} (hk : k < 32) (n : Nat) : ((1 : Word) <<< k).getLsbD n = decide (n = k) := by
  rw [BitVec.getLsbD_shiftLeft]
  by_cases hn : n = k
  · subst hn; simp [hk]
  · by_cases hlt : n < k
    · simp [hlt, hn]
    · have hsub : n - k ≠ 0 := by omega
      simp [hn, hsub]

theorem summaryFold_bit (p : Block → Bool) (l : List Block) (w : Word) (n : Nat) :
    (l.foldl (fun w b => if p b then w ||| ((1 : Word) <<< b.pos) else w) w).getLsbD n =
      (w.getLsbD n || l.any fun b => p b && decide (n = b.pos)) := by
  induction l generalizing w with
  | nil => simp
  | cons b l ih =>
    rw [List.foldl_cons, ih, List.any_cons]
    cases p b with
    | false => simp
    | true =>
      rw [if_pos rfl, BitVec.getLsbD_or, one_shiftLeft_bit (by have := Block.pos_lt b; omega), Bool.or_assoc, Bool.true_and]

/-- ATTENTION_SUMMARY of a live part, bit by bit. -/
theorem attentionWord_bit (h : s.live = true) {w : Word} (hw : s.attentionWord = some w) (n : Nat) :
    w.getLsbD n = ((Block.all.any fun b => s.summaryBit b && decide (n = b.pos)) || (s.attn && decide (n = 31))) := by
  obtain ⟨hheld, hphase⟩ := live_iff.1 h
  rw [State.attentionWord, if_neg (by simp [hheld]), if_neg hphase] at hw
  obtain rfl := Option.some.inj hw
  rw [BitVec.getLsbD_or]
  congr 1
  · refine (summaryFold_bit s.summaryBit Block.all 0 n).trans ?_
    simp
  · cases s.attn with
    | false => simp
    | true =>
      rw [if_pos rfl, Bool.true_and]
      exact one_shiftLeft_bit (k := 31) (by decide) n

theorem any_block_pos (p : Block → Bool) (b : Block) : (Block.all.any fun d => p d && decide (b.pos = d.pos)) = p b := by
  cases b <;> simp [Block.all, Block.pos]

theorem any_block_none (p : Block → Bool) {n : Nat} (h : 7 ≤ n) :
    (Block.all.any fun d => p d && decide (n = d.pos)) = false := by
  rw [List.any_eq_false]
  intro b _
  have hpos := Block.pos_lt b
  rw [decide_eq_false (by omega), Bool.and_false]
  exact Bool.false_ne_true

theorem attentionWord_fields (h : s.live = true) {w : Word} (hw : s.attentionWord = some w) :
    (∀ b : Block, w.getLsbD b.pos = s.summaryBit b) ∧ w.getLsbD 31 = s.attn ∧
      ∀ n, 7 ≤ n → n ≠ 31 → w.getLsbD n = false := by
  refine ⟨fun b => ?_, ?_, fun n hn hne => ?_⟩
  · have hpos := Block.pos_lt b
    rw [attentionWord_bit h hw, any_block_pos, decide_eq_false (by omega), Bool.and_false, Bool.or_false]
  · rw [attentionWord_bit h hw, any_block_none _ (by decide)]
    simp
  · rw [attentionWord_bit h hw, any_block_none _ hn]
    simp [hne]

/-! ### Reads -/

theorem readWord_status (h : s.live = true) {b : Block} (hb : b ≠ .ring) :
    s.readWord (0x10 + b.pos) = some (s.atc.status.get b) := by
  have hword : s.liveWord (0x10 + b.pos) = (s.atc.status.get b).toNat := by
    cases b with
    | ring => exact absurd rfl hb
    | vend | float | tariff | time | till | link => rfl
  rw [readWord_of_live h, hword, BitVec.ofNat_toNat, BitVec.setWidth_eq]

/-- The words that no rule names read 0. -/
theorem readWord_unnamed (h : s.live = true) {n : Nat}
    (hn : 0x0D ≤ n ∧ n ≤ 0x10 ∨ 0x17 ≤ n ∧ n ≤ 0x1F ∨ 0x29 ≤ n) : s.readWord n = some 0 := by
  have hword : s.liveWord n = 0 := by
    unfold State.liveWord
    split <;> omega
  rw [readWord_of_live h, hword]
  rfl

theorem readPort_of_held (h : s.atc.held.isSome = true) (p : WindowPort) : s.readPort p = none := by
  cases p with
  | index => exact if_pos h
  | data => exact if_pos h
  | summary => exact if_pos h

theorem readWord_of_clearing (hheld : s.atc.held = none) (hphase : s.atc.phase = .clearing) {n : Nat}
    (hn : n ≠ 0x28) : s.readWord n = some 0 := by
  rw [State.readWord, if_neg (by simp [hheld]), if_pos ⟨hphase, hn⟩]

end Sys2Proof.Machine

namespace Sys2Proof.Proofs

open Sys2Proof Sys2Proof.Machine

/-- Settles O25, word by word: each field keeps clear of the next. -/
theorem readingTheLowWaterMarkResetsIt : Obligations.ReadingTheLowWaterMarkResetsIt := by
  refine ⟨fun s hin => ?_, fun s hlive => ?_, fun s => ⟨fun hheld => ⟨readPort_of_held hheld, ?_⟩,
    fun hheld hphase => ⟨fun n hn => readWord_of_clearing hheld hphase hn, ?_, ?_⟩⟩⟩
  · have hheld : s.atc.held = none := Option.isNone_iff_eq_none.1 (Bool.and_eq_true_iff.1 hin).1
    show execFloatLowwaterRead s = _
    rw [execFloatLowwaterRead, if_neg (by simp [hheld]), if_pos hin]
    rfl
  · have hread (n : Nat) : s.readWord n = some (BitVec.ofNat 32 (s.liveWord n)) := readWord_of_live hlive n
    obtain ⟨hheld, hphase⟩ := live_iff.1 hlive
    have hword {n : Nat} {w : Word} (h : s.liveWord n = w.toNat) : s.readWord n = some w := by
      rw [hread, h, BitVec.ofNat_toNat, BitVec.setWidth_eq]
    refine ⟨?_, rfl, fun w hw => attentionWord_fields hlive hw, hread 0x00, hword rfl, hword rfl, hread 0x04, ?_, ?_,
      fun hclock => ⟨_, hread 0x07, Tke.now_word s.tke hclock⟩, fun hin => ⟨?_, ?_⟩, fun hin => ⟨?_, ?_⟩,
      fun b hb => readWord_status hlive hb, readWord_enable hlive,
      ⟨_, hread 0x02, fields_state s.rgi, fields_halted s.rgi, fields_reason s.rgi, fields_ring s.rgi⟩,
      fun hgood hbad => ⟨_, hread 0x0A, ?_⟩,
      fun hplaces hlimit => ⟨_, hread 0x0B, Ulc.stateWord1_fields s.ulc hplaces hlimit⟩,
      fun hnext hleft => ⟨_, hread 0x0C, Ulc.stateWord2_fields s.ulc hnext hleft⟩,
      ⟨_, hread 0x28, Atc.controlWord_fields s.atc hphase⟩, fun n hn => readWord_unnamed hlive hn⟩
    · rw [State.readPort, if_neg (by simp [hheld]), if_neg hphase]
    · rw [hread]
      cases hl : s.ulc.linkEnable <;> simp [State.liveWord, hl, bit]
    · rw [hread]
      cases hl : s.ulc.rate <;> simp [State.liveWord, hl, Rate.code]
    · rw [hread, State.liveWord, if_pos hin]
    · rw [hread, State.liveWord, if_pos hin]
    · rw [hread, State.liveWord, if_neg (by simp [hin])]; rfl
    · rw [hread, State.liveWord, if_neg (by simp [hin])]; rfl
    · obtain ⟨hline, hcarrier, hg, hb, hnibble, hseen, hmode, howed, hoffice⟩ := Ulc.stateWord0_fields s.ulc hgood hbad
      refine ⟨hline, hcarrier, hg, hb, hnibble.trans ?_, hseen, hmode.trans ?_, howed, hoffice⟩
      · cases s.ulc.lastNibble <;> rfl
      · cases s.ulc.mode <;> rfl
  · show execFloatLowwaterRead s = _
    rw [execFloatLowwaterRead, if_pos hheld]
  · rw [State.readPort, if_neg (by simp [hheld]), if_pos hphase]
  · rw [State.readPort, State.attentionWord, if_neg (by simp [hheld]), if_pos hphase]

end Sys2Proof.Proofs
end

section
/-! PROOF. The init block, looks and the requests turned away (R93, R95, R185 to R191). -/

namespace Sys2Proof.Machine

variable {s : State}

/-! ### The checks of an init block (R186) -/

theorem Holder.all_sorted : Holder.all.Pairwise fun r x => r.index < x.index := by decide

theorem Holder.index_lt_of_not_le {r x : Holder} (h : ¬ x.index < r.index) (hne : x ≠ r) : r.index < x.index := by
  have hindex : x.index ≠ r.index := fun e => hne (by
    have hnumber := congrArg Holder.numbered e
    rwa [Holder.numbered_index, Holder.numbered_index, Option.some.injEq] at hnumber)
  omega

/-- The first holder that fails a check is the one before which none fails it. -/
theorem find_holder_eq_some (p : Holder → Bool) (r : Holder) (hr : p r = true)
    (hbefore : ∀ x, x.index < r.index → p x = false) : Holder.all.find? p = some r := by
  obtain ⟨before, after, hsplit⟩ := List.append_of_mem (Holder.mem_all r)
  rw [List.find?_eq_some_iff_append]
  refine ⟨hr, before, after, hsplit, fun x hx => ?_⟩
  have hsorted := Holder.all_sorted
  rw [hsplit, List.pairwise_append] at hsorted
  rw [hbefore x (hsorted.2.2 x hx r List.mem_cons_self), Bool.not_false]

theorem find_holder_eq_none (p : Holder → Bool) (h : ∀ x, p x = false) : Holder.all.find? p = none := by
  rw [List.find?_eq_none]
  intro x _
  rw [h x]
  exact Bool.false_ne_true

/-- What R186 asks of a block before it reads the rings. -/
structure InitCopy.headPasses (k : InitCopy) (a : Nat) : Prop where
  office : k.office ≠ 0
  window : ¬(k.windowSize < 1 ∨ 1048576 < k.windowSize ∨ 4294967296 < (k.windowBase + k.windowSize) * 4096)
  block : k.windowBase * 4096 ≤ a ∧ a + 128 ≤ (k.windowBase + k.windowSize) * 4096
  poll : k.poll ≠ 0

theorem inWindow_iff (k : InitCopy) (a n : Nat) :
    k.inWindow a n = true ↔ k.windowBase * 4096 ≤ a ∧ a + n ≤ (k.windowBase + k.windowSize) * 4096 := by
  rw [InitCopy.inWindow, Bool.and_eq_true, decide_eq_true_iff, decide_eq_true_iff]

theorem countOk_iff (k : InitCopy) (r : Holder) :
    k.countOk r = true ↔ 2 ≤ (k.rings.get r).count ∧ (k.rings.get r).count ≤ 64 := by
  rw [InitCopy.countOk, Bool.and_eq_true, decide_eq_true_iff, decide_eq_true_iff]

theorem placeOk_iff (k : InitCopy) (r : Holder) :
    k.placeOk r = true ↔
      (k.rings.get r).base % 4 = 0 ∧ k.windowBase * 4096 ≤ (k.rings.get r).base ∧
        (k.rings.get r).base + (k.rings.get r).count * 96 ≤ (k.windowBase + k.windowSize) * 4096 := by
  rw [InitCopy.placeOk, Bool.and_eq_true, decide_eq_true_iff, inWindow_iff]

theorem shares_iff (p q : RingPlace) :
    p.shares q = true ↔ p.base < q.base + q.count * 96 ∧ q.base < p.base + p.count * 96 := by
  rw [RingPlace.shares, Bool.and_eq_true, decide_eq_true_iff, decide_eq_true_iff]

theorem sharesLater_iff (k : InitCopy) (r : Holder) :
    k.sharesLater r = true ↔ ∃ x : Holder, r.index < x.index ∧ (k.rings.get r).shares (k.rings.get x) = true := by
  simp only [InitCopy.sharesLater, holdersAfter, List.any_eq_true, List.mem_filter, Holder.mem_all, true_and,
    decide_eq_true_iff]

/-- The faults that the rings' places give, once every count is in range. -/
def InitCopy.placesFault (k : InitCopy) : Option (InitReason × Nat) :=
  match Holder.all.find? fun r => !k.placeOk r with
  | some r => some (.ringOutside, r.index)
  | none => (Holder.all.find? fun r => k.sharesLater r).map fun r => (.overlap, r.index)

/-- The faults that the rings give. -/
def InitCopy.ringsFault (k : InitCopy) : Option (InitReason × Nat) :=
  match Holder.all.find? fun r => !k.countOk r with
  | some r => some (.count, r.index)
  | none => k.placesFault

/-- The checks of R186, those of the rings by name. -/
theorem fault_eq (k : InitCopy) (a : Nat) :
    k.fault a =
      if k.office = 0 then some (.office, 0)
      else if k.windowSize = 0 ∨ 1048576 < k.windowSize ∨ 4294967296 < (k.windowBase + k.windowSize) * 4096 then
        some (.window, 0)
      else if k.inWindow a 128 = false then some (.blockOutside, 0)
      else if k.poll = 0 then some (.poll, 0)
      else k.ringsFault := rfl

theorem fault_office {k : InitCopy} (a : Nat) (h : k.office = 0) : k.fault a = some (.office, 0) := by
  rw [fault_eq, if_pos h]

theorem fault_window {k : InitCopy} (a : Nat) (h : k.office ≠ 0)
    (hw : k.windowSize < 1 ∨ 1048576 < k.windowSize ∨ 4294967296 < (k.windowBase + k.windowSize) * 4096) :
    k.fault a = some (.window, 0) := by
  rw [fault_eq, if_neg h, if_pos (hw.imp_left Nat.lt_one_iff.1)]

theorem fault_after_window {k : InitCopy} (a : Nat) (h : k.office ≠ 0)
    (hw : ¬(k.windowSize < 1 ∨ 1048576 < k.windowSize ∨ 4294967296 < (k.windowBase + k.windowSize) * 4096)) :
    k.fault a =
      if k.inWindow a 128 = false then some (.blockOutside, 0)
      else if k.poll = 0 then some (.poll, 0) else k.ringsFault := by
  rw [fault_eq, if_neg h, if_neg fun hc => hw (hc.imp_left Nat.lt_one_iff.2)]

theorem fault_blockOutside {k : InitCopy} {a : Nat} (h : k.office ≠ 0)
    (hw : ¬(k.windowSize < 1 ∨ 1048576 < k.windowSize ∨ 4294967296 < (k.windowBase + k.windowSize) * 4096))
    (hb : ¬(k.windowBase * 4096 ≤ a ∧ a + 128 ≤ (k.windowBase + k.windowSize) * 4096)) :
    k.fault a = some (.blockOutside, 0) := by
  rw [fault_after_window a h hw, if_pos (Bool.eq_false_iff.2 fun hc => hb ((inWindow_iff k a 128).1 hc))]

theorem fault_poll {k : InitCopy} {a : Nat} (h : k.office ≠ 0)
    (hw : ¬(k.windowSize < 1 ∨ 1048576 < k.windowSize ∨ 4294967296 < (k.windowBase + k.windowSize) * 4096))
    (hb : k.windowBase * 4096 ≤ a ∧ a + 128 ≤ (k.windowBase + k.windowSize) * 4096) (hp : k.poll = 0) :
    k.fault a = some (.poll, 0) := by
  rw [fault_after_window a h hw, if_neg (by simp [(inWindow_iff k a 128).2 hb]), if_pos hp]

theorem fault_of_head {k : InitCopy} {a : Nat} (h : k.headPasses a) : k.fault a = k.ringsFault := by
  rw [fault_after_window a h.office h.window, if_neg (by simp [(inWindow_iff k a 128).2 h.block]), if_neg h.poll]

theorem ringsFault_count {k : InitCopy} (r : Holder) (hr : k.countOk r = false)
    (hbefore : ∀ x : Holder, x.index < r.index → k.countOk x = true) : k.ringsFault = some (.count, r.index) := by
  rw [InitCopy.ringsFault, find_holder_eq_some (fun r => !k.countOk r) r (by rw [hr]; rfl)
    fun x hx => by rw [hbefore x hx]; rfl]

theorem ringsFault_of_counts {k : InitCopy} (hcount : ∀ x, k.countOk x = true) : k.ringsFault = k.placesFault := by
  rw [InitCopy.ringsFault, find_holder_eq_none (fun r => !k.countOk r) fun x => by rw [hcount x]; rfl]

theorem placesFault_outside {k : InitCopy} (r : Holder) (hr : k.placeOk r = false)
    (hbefore : ∀ x : Holder, x.index < r.index → k.placeOk x = true) :
    k.placesFault = some (.ringOutside, r.index) := by
  rw [InitCopy.placesFault, find_holder_eq_some (fun r => !k.placeOk r) r (by rw [hr]; rfl)
    fun x hx => by rw [hbefore x hx]; rfl]

theorem placesFault_of_places {k : InitCopy} (hplace : ∀ x, k.placeOk x = true) :
    k.placesFault = (Holder.all.find? fun r => k.sharesLater r).map fun r => (.overlap, r.index) := by
  rw [InitCopy.placesFault, find_holder_eq_none (fun r => !k.placeOk r) fun x => by rw [hplace x]; rfl]

theorem sharesLater_of_not {k : InitCopy} {r : Holder}
    (h : ∀ z : Holder, r.index < z.index → ¬ (k.rings.get r).shares (k.rings.get z) = true) :
    k.sharesLater r = false := by
  rw [Bool.eq_false_iff, Ne, sharesLater_iff]
  rintro ⟨z, hlt, hshare⟩
  exact h z hlt hshare

/-! ### A block that passes (R186) -/

/-- A block that passes changes RGI, the office number, the transmitter and RING status. -/
theorem initPasses_eq (s : State) (k : InitCopy) :
    ∃ tx told, s.initPasses k =
      { s with
        rgi := { s.rgi with
          state := .ready
          copy := some k
          rings := s.rgi.rings.map fun x => { x with cursor := 0, halted := false, fault := false } }
        ulc := { s.ulc with office := some k.office, tx := tx, noneTold := told }
        atc := ((s.clearBits .ring ringFaultBits).raise .initDone).atc } := by
  obtain ⟨tx, told, h⟩ := startTx_eq (((((s.mapRgi fun g =>
      { g with
        state := .ready
        copy := some k
        rings := g.rings.map fun x => { x with cursor := 0, halted := false, fault := false } }).clearBits .ring
      ringFaultBits).mapUlc fun u => { u with office := some k.office }).raise .initDone))
  exact ⟨tx, told, h⟩

theorem ringFaultBits_pos (r : Holder) : ringFaultBits.getLsbD (Status.pos (.ringFault r)) = true := by
  cases r with
  | office => decide
  | counter c => cases c <;> decide

theorem initPasses_ringFault (s : State) (r : Holder) :
    ((s.clearBits .ring ringFaultBits).raise .initDone).has (.ringFault r) = false := by
  rw [has_raise, has_clearBits, ringFaultBits_pos]
  simp [Status.block, Status.pos]

/-! ### The rings' accesses and replies (R188 to R191) -/

/-- A reply to a ring's request in service waits for the bus (R190, R191). -/
theorem putReply_serviced {h : Holder} {sv : Service} (o : ReplyOwner) (y : Reply) (hs : (s.ring h).service = some sv)
    (hw : s.rgi.writes = true) (hok : s.rgi.accessOk h = true) :
    s.putReply h o y = { s with rgi := s.rgi.replyDue h sv.request o y } := by
  have hok' : (s.mapRing h fun x => { x with service := some { sv with phase := .replying o y } }).rgi.accessOk h =
      true := by
    simp only [Rgi.accessOk, mapRing_rgi, Rgi.descriptorAt, PerHolder.get_set_self] at hok ⊢
    exact hok
  simp only [State.putReply, hs, hw, if_true, State.access]
  rw [if_pos hok']
  rfl

/-- A look at a ring in RUNNING whose poll timer is off changes the bus list alone. -/
theorem lookOne_of_poll_off {g : Rgi} {r : Holder} (hrun : g.state = .running) (hpoll : (g.rings.get r).poll = false) :
    lookOne g r =
      { g with bus := g.bus ++
          ([r].filter fun r => !(g.rings.get r).halted && (g.rings.get r).service.isNone &&
            decide (Access.look r ∉ g.bus)).map .look } := by
  have hsame : g.rings.set r { g.rings.get r with poll := false } = g.rings := by
    rw [show ({ g.rings.get r with poll := false } : Ring) = g.rings.get r by rw [← hpoll], PerHolder.set_get]
  unfold lookOne
  split
  · next hc =>
    obtain ⟨-, hhalted, hservice, hlook⟩ := hc
    have hyes : (!(g.rings.get r).halted && (g.rings.get r).service.isNone && decide (Access.look r ∉ g.bus)) = true := by
      rw [hhalted, hservice, decide_eq_true hlook]
      rfl
    simp only [hsame, List.filter_cons, hyes, List.filter_nil, if_true, List.map_cons, List.map_nil]
  · next hc =>
    have hno : (!(g.rings.get r).halted && (g.rings.get r).service.isNone && decide (Access.look r ∉ g.bus)) = false := by
      rw [Bool.eq_false_iff]
      intro h
      simp only [Bool.and_eq_true, Bool.not_eq_true', Option.isNone_iff_eq_none, decide_eq_true_iff] at h
      exact hc ⟨hrun, h.1.1, h.1.2, h.2⟩
    simp only [List.filter_cons, hno, List.filter_nil, Bool.false_eq_true, if_false, List.map_nil, List.append_nil]

/-- The look of a poll timer that has expired: the ring's request in service, its halt and its look outstanding decide. -/
theorem pollLook_eq {r : Holder} (hok : s.rgi.accessOk r = true) (hrun : s.rgi.state = .running) :
    (s.mapRing r fun x => { x with poll := false }).lookAt r =
      { s with rgi := { s.rgi with
        rings := s.rgi.rings.set r { s.ring r with poll := false }
        bus := looksAt s [r] } } := by
  have hok' : (s.mapRing r fun x => { x with poll := false }).rgi.accessOk r = true := by
    simp only [Rgi.accessOk, mapRing_rgi, Rgi.descriptorAt, PerHolder.get_set_self] at hok ⊢
    exact hok
  have hget : (s.mapRing r fun x => { x with poll := false }).rgi.rings.get r = { s.ring r with poll := false } :=
    PerHolder.get_set_self _ r _
  rw [lookAt_eq _ r hok', lookOne_of_poll_off (g := (s.mapRing r fun x => { x with poll := false }).rgi) hrun
    (by rw [hget])]
  simp only [looksAt, List.filter_cons, List.filter_nil, hget]
  rfl

/-- A request that its context does not take is answered COUNTER_BUSY, and the reply is nobody's (R95). -/
theorem serveInCtx_busy {k : ReqKind} {h : Holder} {q : Request} (read : Request → CtxRequest × Bool)
    (hs : s.serving k h q) (hc : (s.ctx h).state ≠ .idle) :
    s.serveInCtx k h read = { s with rgi := s.rgi.replyDue h q .nobody ⟨.counterBusy, []⟩ } := by
  obtain ⟨-, hwaiting, hring, hwrites, hok⟩ := hs
  subst hring
  have hservice : ((s.taken q true).ring q.ring).service = some ⟨q, .atOwner⟩ := by
    simp [State.taken, State.ring, mapRing_rgi]
  have hok' : (s.taken q true).rgi.accessOk q.ring = true := by
    simp only [State.taken, if_true, Rgi.accessOk, mapRing_rgi, Rgi.descriptorAt, PerHolder.get_set_self] at hok ⊢
    exact hok
  simp only [State.serveInCtx, hwaiting]
  rw [if_neg hc, State.answerRequest, if_pos rfl, putReply_serviced .nobody _ hservice hwrites hok']
  simp [State.taken, State.mapRing, State.mapRgi, Rgi.replyDue, PerHolder.set_set, PerHolder.get_set_self, Reply.plain]

end Sys2Proof.Machine

namespace Sys2Proof.Proofs

open Sys2Proof Sys2Proof.Machine

/-- Settles O28, check by check. -/
theorem theFirstFailedInitCheckGivesTheReason : Obligations.TheFirstFailedInitCheckGivesTheReason := by
  intro k a
  dsimp only
  have hcount (r : Holder) := countOk_iff k r
  have hplace (r : Holder) := placeOk_iff k r
  have hhead (h : k.office ≠ 0 ∧ _ ∧ _ ∧ k.poll ≠ 0) : k.headPasses a := ⟨h.1, h.2.1, h.2.2.1, h.2.2.2⟩
  refine ⟨fault_office a, fault_window a, fun ho hw hb => fault_blockOutside ho hw hb,
    fun ho hw hb hp => fault_poll ho hw hb hp, fun r h hr hbefore => ?_, fun r h hall hr hbefore => ?_,
    fun r y h hall hlt hshare hbefore => ?_, fun h hall hnone => ?_⟩
  · rw [fault_of_head (hhead h)]
    refine ringsFault_count r (Bool.eq_false_iff.2 fun hc => hr ((hcount r).1 hc)) fun x hx => ?_
    exact (hcount x).2 (hbefore x hx)
  · rw [fault_of_head (hhead h), ringsFault_of_counts fun x => (hcount x).2 (hall x)]
    refine placesFault_outside r (Bool.eq_false_iff.2 fun hc => hr ((hplace r).1 hc)) fun x hx => ?_
    exact (hplace x).2 (hbefore x hx)
  · rw [fault_of_head (hhead h), ringsFault_of_counts fun x => (hcount x).2 (hall x).1,
      placesFault_of_places fun x => (hplace x).2 (hall x).2,
      find_holder_eq_some (fun r => k.sharesLater r) r ((sharesLater_iff k r).2 ⟨y, hlt, (shares_iff _ _).2 hshare⟩)
        fun x hx => sharesLater_of_not fun z hz hc => hbefore x z hx hz ((shares_iff _ _).1 hc)]
    rfl
  · rw [fault_of_head (hhead h), ringsFault_of_counts fun x => (hcount x).2 (hall x).1,
      placesFault_of_places fun x => (hplace x).2 (hall x).2,
      find_holder_eq_none (fun r => k.sharesLater r)
        fun x => sharesLater_of_not fun z hz hc => hnone x z hz ((shares_iff _ _).1 hc)]
    rfl

/-- Settles O29: the block is checked, and passes or fails as a whole. -/
theorem theInitBlockReadEnds : Obligations.TheInitBlockReadEnds := by
  intro s bytes rest hin hlen hstate hbus
  have hwf : initBlockWf bytes = true := by rw [initBlockWf, hlen]; rfl
  have hread : s.rgi.state = .initialising ∧ s.rgi.bus.head? = some .initBlock := ⟨hstate, by rw [hbus]; rfl⟩
  refine ⟨fun hpass => ?_, fun reason ring hfail => ?_, ?_⟩
  · show ∃ t, execInitBlockReadDone bytes s = _ ∧ _
    rw [execInitBlockReadDone, if_pos hwf, whenInService_of_inService _ hin, if_pos hread, hpass]
    refine ⟨_, rfl, ?_⟩
    dsimp only
    obtain ⟨tx, told, hready⟩ := initPasses_eq s.popBus (InitCopy.parse bytes)
    rw [hready]
    refine ⟨rfl, rfl, ?_, fun r => ?_, rfl, has_raise_self _ .initDone, fun r => ?_, rfl⟩
    · show s.rgi.bus.tail = rest
      rw [hbus]; rfl
    · exact PerHolder.get_map _ _ r
    · exact initPasses_ringFault s.popBus r
  · show execInitBlockReadDone bytes s = _
    rw [execInitBlockReadDone, if_pos hwf, whenInService_of_inService _ hin, if_pos hread, hfail]
    show Host.Outcome.next { s with rgi := { s.rgi with
      state := .stopped, bus := s.rgi.bus.tail, faultReason := reason, faultRing := ring }, atc := _ } = _
    rw [hbus]; rfl
  · show execInitBlockReadError s = _
    rw [execInitBlockReadError, whenInService_of_inService _ hin, if_pos hread]
    show Host.Outcome.next { s with rgi := { s.rgi with
      state := .stopped, bus := s.rgi.bus.tail, faultReason := .blockRead, faultRing := 0 }, atc := _ } = _
    rw [hbus]; rfl

/-- Settles O30, by the state of the interface and the descriptor's owner. -/
theorem aLookTakesAPartOwnedDescriptor : Obligations.ALookTakesAPartOwnedDescriptor := by
  intro s r hin
  refine ⟨fun hpoll hok hrun => ?_, fun d rest hlen hbus => ?_⟩
  · show execPollTimerExpiry r s = _
    rw [execPollTimerExpiry, whenInService_of_inService _ hin, if_pos hpoll, pollLook_eq hok hrun]
  · have hwf : descriptorWf d = true := by rw [descriptorWf, hlen]; rfl
    have hhead : s.rgi.bus.head? = some (.look r) := by rw [hbus]; rfl
    have hpop : s.popBus = { s with rgi := { s.rgi with bus := rest } } := by
      show ({ s with rgi := { s.rgi with bus := s.rgi.bus.tail } } : State) = _
      rw [hbus]; rfl
    show (_ → _ → execRingLook r d s = _) ∧ (_ → _ → execRingLook r d s = _) ∧ (_ → execRingLook r d s = _)
    rw [execRingLook, if_pos hwf, whenInService_of_inService _ hin, if_pos hhead, hpop]
    refine ⟨fun hrun hown => ?_, fun hrun hown => ?_, fun hstop => ?_⟩
    · rw [if_pos hrun, if_pos (show d.getD 0 0 = ownerPart from hown)]
      rfl
    · rw [if_pos hrun, if_neg (show ¬ d.getD 0 0 = ownerPart from hown)]
      rfl
    · rw [if_neg hstop]

/-- Settles O33: the reply is nobody's, and waits for the bus. -/
theorem requestsTurnedAway : Obligations.RequestsTurnedAway := by
  refine ⟨fun s r q hin horphans hwrites hok hservice hbad => ?_, fun s q => ⟨fun c hs hc => ?_, fun hs hc => ?_,
    fun hs hc => ?_⟩⟩
  · show execBadRequestKind r s = _
    rw [execBadRequestKind, whenInService_of_inService _ hin]
    simp only [horphans, List.find?_nil, hservice, hbad, if_true]
    rw [putReply_serviced .nobody _ hservice hwrites hok]
    rfl
  · show execVend c s = _
    rw [execVend, whenInService_of_inService _ hs.1, serveInCtx_busy _ hs hc]
  · show execEngineer s = _
    rw [execEngineer, whenInService_of_inService _ hs.1, serveInCtx_busy _ hs hc]
  · show execKeyrollOnly s = _
    rw [execKeyrollOnly, whenInService_of_inService _ hs.1, serveInCtx_busy _ hs hc]

end Sys2Proof.Proofs
end

section
/-! PROOF. Replies written and replies lost (R106, R117, R135, R144, R145, R190 to R195): what reaches the owner, the till
and the context. -/

namespace Sys2Proof.Machine

variable {s : State}

/-! ### A context told of its reply (R106) -/

/-- A context whose reply has ended, written or lost: IDLE, or waiting for its hold release alone. -/
def Ctx.told (x : Ctx) : Ctx :=
  if x.state = .replying ∧ !x.releasePending then Ctx.idle else { x with attached := false, replyPending := false }

theorem mapCtx_congr (s : State) (h : Holder) {f g : Ctx → Ctx} (hfg : f (s.ctx h) = g (s.ctx h)) :
    s.mapCtx h f = s.mapCtx h g := by
  show s.mapVnc _ = s.mapVnc _
  simp only [State.mapVnc]
  have hfg' : f (s.vnc.ctxs.get h) = g (s.vnc.ctxs.get h) := hfg
  rw [hfg']

theorem mapCtx_mapCtx (s : State) (h : Holder) (f g : Ctx → Ctx) :
    (s.mapCtx h f).mapCtx h g = s.mapCtx h fun x => g (f x) := by
  simp [State.mapCtx, State.mapVnc, PerHolder.set_set]

theorem told_finish (s : State) (h : Holder) :
    (s.mapCtx h fun x => { x with attached := false, replyPending := false }).finish h = s.mapCtx h Ctx.told := by
  have hctx : (s.mapCtx h fun x => { x with attached := false, replyPending := false }).ctx h =
      { s.ctx h with attached := false, replyPending := false } := by rw [ctx_mapCtx, if_pos rfl]
  unfold State.finish
  dsimp only
  rw [hctx]
  by_cases hc : (s.ctx h).state = .replying ∧ (!(s.ctx h).releasePending) = true
  · rw [if_pos ⟨hc.1, rfl, hc.2⟩, mapCtx_mapCtx]
    exact mapCtx_congr s h (if_pos hc).symm
  · rw [if_neg fun h' => hc ⟨h'.1, h'.2.2⟩]
    exact mapCtx_congr s h (if_neg hc).symm

theorem told_of_replying {x : Ctx} (h : x.state = .replying) :
    x.told = if x.releasePending then { x with attached := false, replyPending := false } else Ctx.idle := by
  cases hp : x.releasePending <;> simp [Ctx.told, h, hp]

theorem ctx_told (s : State) (h k : Holder) :
    (s.mapCtx h Ctx.told).ctx k = if k = h then (s.ctx h).told else s.ctx k := ctx_mapCtx _ _ _ _

/-! ### Claims on a till (R137, R142, R145) -/

/-- TLU when a claim on a till has found every write of it completed. -/
def Tlu.settled (t : Tlu) (c : Counter) : Tlu :=
  { t.outcomeRead c with
    part := t.part.set c ((t.part.get c).map fun p => { p with settled := true })
    closing := t.closing.set c none }

theorem settleTill_eq (s : State) (c : Counter) :
    s.settleTill c = { s with tlu := s.tlu.settled c, atc := (s.raiseIf (s.lateDue c) (.lateCount c)).atc } := by
  show ((s.mapTlu fun t => t.settled c).raiseIf (s.lateDue c) (.lateCount c)) = _
  cases s.lateDue c <;> rfl

theorem settleTill_till (s : State) (c d : Counter) : (s.settleTill c).till d = s.till d := by
  rw [settleTill_eq]
  rfl

theorem settleTill_removing (s : State) (c : Counter) : (s.settleTill c).tlu.removing.get c = none := by
  rw [settleTill_eq]
  exact PerCounter.get_set_self _ c _

theorem settleTill_lines (s : State) (c : Counter) : (s.settleTill c).tlu.lines = s.tlu.lines := by
  rw [settleTill_eq]
  rfl

theorem has_settleTill_mono (c : Counter) {b : Status} (h : s.has b = true) : (s.settleTill c).has b = true := by
  rw [settleTill_eq]
  exact has_raiseIf_mono (s.lateDue c) (.lateCount c) h

/-! ### Outcomes stored (R117, R144) -/

theorem storeOutcome_of_stores {c : Counter} {o : Outcome} (h : storesOutcome (s.till c).outcome o = true) :
    s.storeOutcome c o = ((s.settleTill c).writeOutcome c (some o)).raise .outcomeStored := by
  simp only [State.storeOutcome, settleTill_till, h, if_true]

theorem storeOutcome_of_declines {c : Counter} {o : Outcome} (h : storesOutcome (s.till c).outcome o = false) :
    s.storeOutcome c o = s.settleTill c := by
  simp only [State.storeOutcome, settleTill_till, h, Bool.false_eq_true, if_false]

theorem storeOutcome_till (s : State) (c d : Counter) (o : Outcome) :
    (s.storeOutcome c o).till d =
      if d = c ∧ storesOutcome (s.till c).outcome o = true then { s.till c with outcome := some o } else s.till d := by
  cases h : storesOutcome (s.till c).outcome o with
  | true =>
    rw [storeOutcome_of_stores h]
    show (((s.settleTill c).writeOutcome c (some o)).till d) = _
    rw [writeOutcome_till, settleTill_till]
    by_cases hd : d = c
    · subst hd; simp
    · simp [hd]
  | false =>
    rw [storeOutcome_of_declines h, settleTill_till]
    simp

theorem storeOutcome_lines (s : State) (c : Counter) (o : Outcome) :
    (s.storeOutcome c o).tlu.lines = s.tlu.lines := by
  cases h : storesOutcome (s.till c).outcome o with
  | true =>
    rw [storeOutcome_of_stores h]
    exact settleTill_lines s c
  | false => rw [storeOutcome_of_declines h, settleTill_lines]

theorem storeOutcome_only (s : State) (c : Counter) (o : Outcome) :
    s.storeOutcome c o = { s with tlu := (s.storeOutcome c o).tlu, atc := (s.storeOutcome c o).atc } := by
  cases h : storesOutcome (s.till c).outcome o with
  | true =>
    rw [storeOutcome_of_stores h, settleTill_eq]
    rfl
  | false =>
    rw [storeOutcome_of_declines h, settleTill_eq]

theorem has_storeOutcome_mono (c : Counter) (o : Outcome) {b : Status} (h : s.has b = true) :
    (s.storeOutcome c o).has b = true := by
  cases hs : storesOutcome (s.till c).outcome o with
  | true =>
    rw [storeOutcome_of_stores hs]
    exact has_raise_mono .outcomeStored (s := (s.settleTill c).writeOutcome c (some o)) (has_settleTill_mono c h)
  | false =>
    rw [storeOutcome_of_declines hs]
    exact has_settleTill_mono c h

/-! ### A context's reply lost (R117, R135) -/

/-- Nothing of the till, when the context has no counter, no request or no reply. -/
def State.lostStored (s : State) (h : Holder) : State :=
  match h, (s.ctx h).request, (s.ctx h).reply with
  | .counter c, some q, some r => s.storeOutcome c ((s.ctx h).outcome q r)
  | _, _, _ => s

theorem lostStored_counter {c : Counter} {q : CtxRequest} {y : Reply} (hq : (s.ctx (.counter c)).request = some q)
    (hy : (s.ctx (.counter c)).reply = some y) :
    s.lostStored (.counter c) = s.storeOutcome c (outcomeOf (s.ctx (.counter c)) q y) := by
  simp only [State.lostStored, hq, hy]
  rfl

theorem lostStored_cases (s : State) (h : Holder) :
    s.lostStored h = s ∨ ∃ c o, h = .counter c ∧ s.lostStored h = s.storeOutcome c o := by
  unfold State.lostStored
  split
  · exact Or.inr ⟨_, _, rfl, rfl⟩
  · exact Or.inl rfl

theorem ctxUndelivered_eq (s : State) (h : Holder) : s.ctxUndelivered h = (s.lostStored h).mapCtx h Ctx.told := by
  rw [← told_finish]
  rfl

theorem ctxUndelivered_office (s : State) : s.ctxUndelivered .office = s.mapCtx .office Ctx.told := ctxUndelivered_eq s _

theorem lostStored_vnc (s : State) (h : Holder) : (s.lostStored h).vnc = s.vnc := by
  rcases lostStored_cases s h with e | ⟨c, o, -, e⟩ <;> rw [e]
  exact storeOutcome_vnc s c o

theorem lostStored_lines (s : State) (h : Holder) : (s.lostStored h).tlu.lines = s.tlu.lines := by
  rcases lostStored_cases s h with e | ⟨c, o, -, e⟩ <;> rw [e]
  exact storeOutcome_lines s c o

theorem lostStored_till (s : State) (h : Holder) (d : Counter) (hd : h ≠ .counter d) :
    (s.lostStored h).till d = s.till d := by
  rcases lostStored_cases s h with e | ⟨c, o, rfl, e⟩ <;> rw [e]
  rw [storeOutcome_till, if_neg fun hc => hd (by rw [hc.1])]

theorem lostStored_only (s : State) (h : Holder) :
    s.lostStored h = { s with tlu := (s.lostStored h).tlu, atc := (s.lostStored h).atc } := by
  rcases lostStored_cases s h with e | ⟨c, o, -, e⟩ <;> rw [e]
  exact storeOutcome_only s c o

theorem has_lostStored_mono (h : Holder) {b : Status} (hb : s.has b = true) : (s.lostStored h).has b = true := by
  rcases lostStored_cases s h with e | ⟨c, o, -, e⟩ <;> rw [e]
  · exact hb
  · exact has_storeOutcome_mono c o hb

theorem ctxUndelivered_ctx (s : State) (h k : Holder) :
    (s.ctxUndelivered h).ctx k = if k = h then (s.ctx h).told else s.ctx k := by
  rw [ctxUndelivered_eq, ctx_told]
  simp only [State.ctx, lostStored_vnc]

theorem ctxUndelivered_till (s : State) (h : Holder) (d : Counter) :
    (s.ctxUndelivered h).till d = (s.lostStored h).till d := by
  rw [ctxUndelivered_eq]
  rfl

theorem ctxUndelivered_lines (s : State) (h : Holder) : (s.ctxUndelivered h).tlu.lines = s.tlu.lines := by
  rw [ctxUndelivered_eq]
  exact lostStored_lines s h

theorem ctxUndelivered_park (s : State) (h : Holder) : (s.ctxUndelivered h).vnc.park = s.vnc.park := by
  rw [ctxUndelivered_eq]
  show (s.lostStored h).vnc.park = _
  rw [lostStored_vnc]

theorem ctxUndelivered_only (s : State) (h : Holder) :
    s.ctxUndelivered h =
      { s with
        tlu := (s.ctxUndelivered h).tlu, vnc := (s.ctxUndelivered h).vnc, atc := (s.ctxUndelivered h).atc } := by
  rw [ctxUndelivered_eq, lostStored_only]
  rfl

theorem has_ctxUndelivered_mono (h : Holder) {b : Status} (hb : s.has b = true) :
    (s.ctxUndelivered h).has b = true := by
  rw [ctxUndelivered_eq]
  exact has_lostStored_mono h hb

theorem storesOutcome_outcomeOf (held : Option Outcome) (x : Ctx) (q : CtxRequest) (y : Reply) :
    storesOutcome held (outcomeOf x q y) = true ↔ held = none ∨ y.code = .done := by
  have hresult : (outcomeOf x q y).result = .done ↔ y.code = .done := by
    unfold outcomeOf
    split <;> simp_all
  rw [storesOutcome, Bool.or_eq_true, Option.isNone_iff_eq_none, decide_eq_true_iff, hresult]

/-- The undeliverable reply of a counter's context becomes an outcome, or is declined. -/
theorem ctxUndelivered_lost {c : Counter} {q : CtxRequest} {y : Reply}
    (hstate : (s.ctx (.counter c)).state = .replying) (hq : (s.ctx (.counter c)).request = some q)
    (hy : (s.ctx (.counter c)).reply = some y) : replyLost s (s.ctxUndelivered (.counter c)) c q y := by
  refine ⟨fun h => ?_, fun ho hc => ?_, ?_⟩
  · have hstores := (storesOutcome_outcomeOf (s.till c).outcome (s.ctx (.counter c)) q y).2 h
    constructor
    · rw [ctxUndelivered_till, lostStored_counter hq hy, storeOutcome_till, if_pos ⟨rfl, hstores⟩]
    · rw [ctxUndelivered_eq, lostStored_counter hq hy, storeOutcome_of_stores hstores]
      exact has_raise_self ((s.settleTill c).writeOutcome c _) _
  · rw [ctxUndelivered_till, lostStored_counter hq hy, storeOutcome_till, if_neg]
    exact fun h => ((storesOutcome_outcomeOf _ _ _ _).1 h.2).elim ho hc
  · rw [ctxUndelivered_ctx, if_pos rfl, told_of_replying hstate]

end Sys2Proof.Machine
end

section
/-! PROOF. The writes of replies, and the faults of a ring and of the bus (R187, R190 to R195). -/

namespace Sys2Proof.Machine

variable {s : State}

/-! ### A reply written (R190) -/

/-- RGI with the reply at the head of the bus list written and its request ended. -/
def State.replyWritten (s : State) (k : InitCopy) (r : Holder) (q : Request) (y : Reply) : State :=
  { s with rgi := { s.rgi with
      bus := s.rgi.bus.tail
      lastWrite := some ⟨s.rgi.descriptorAt k r, y.descriptor q⟩
      rings := s.rgi.rings.set r { s.ring r with service := none, cursor := s.rgi.nextCursor r } } }

theorem exec_replyWritten (hin : s.inService = true) {r : Holder} {q : Request} {owner : ReplyOwner} {y : Reply}
    {k : InitCopy} (hs : (s.ring r).service = some ⟨q, .replying owner y⟩) (hk : s.rgi.copy = some k)
    (hb : s.rgi.bus.head? = some (.reply r)) :
    exec (.replyWritten r) s = .next ((State.lookAt r ((s.replyWritten k r q y).delivered r owner)).checkStopping) := by
  show execReplyWritten r s = _
  rw [execReplyWritten, whenInService_of_inService _ hin]
  simp only [hs, hk, hb, if_true]
  rfl

theorem checkStopping_of_not_stopping (h : s.rgi.state ≠ .stopping) : s.checkStopping = s := if_neg fun hc => h hc.1

theorem nextCursor_eq {g : Rgi} {k : InitCopy} (hk : g.copy = some k) (r : Holder) :
    g.nextCursor r = if (g.rings.get r).cursor + 1 < (k.rings.get r).count then (g.rings.get r).cursor + 1 else 0 := by
  rw [Rgi.nextCursor, hk]

theorem delivered_context (s : State) (r : Holder) : s.delivered r .context = s.mapCtx r Ctx.told := told_finish s r

theorem raiseIf_atc_congr {s t : State} (h : s.atc = t.atc) (p : Bool) (b : Status) :
    (s.raiseIf p b).atc = (t.raiseIf p b).atc := by
  cases p with
  | false => exact h
  | true =>
    rw [raiseIf_true, raiseIf_true, raise_atc, raise_atc, h]

/-- A taken outcome that the till still holds leaves it; the till's writes have completed. -/
theorem delivered_outcome_held {r : Holder} {c : Counter} {o : Outcome} (h : (s.till c).outcome = some o) :
    s.delivered r (.outcome c o) = (s.settleTill c).removeOutcome c o := by
  simp only [State.delivered, settleTill_till, h, if_true]

theorem delivered_outcome_other {r : Holder} {c : Counter} {o : Outcome} (h : (s.till c).outcome ≠ some o) :
    s.delivered r (.outcome c o) = s.settleTill c := by
  simp only [State.delivered, settleTill_till, if_neg h]

theorem delivered_outcome_only (s : State) (r : Holder) (c : Counter) (o : Outcome) :
    s.delivered r (.outcome c o) =
      { s with
        tlu := (s.delivered r (.outcome c o)).tlu
        ulc := (s.delivered r (.outcome c o)).ulc
        atc := (s.raiseIf (s.lateDue c) (.lateCount c)).atc } := by
  by_cases h : (s.till c).outcome = some o
  · rw [delivered_outcome_held h, settleTill_eq]
    rfl
  · rw [delivered_outcome_other h, settleTill_eq]

theorem delivered_outcome_till (s : State) (r : Holder) (c d : Counter) (o : Outcome) :
    (s.delivered r (.outcome c o)).till d =
      if d = c ∧ (s.till c).outcome = some o then { s.till c with outcome := none } else s.till d := by
  by_cases h : (s.till c).outcome = some o
  · rw [delivered_outcome_held h]
    show (((s.settleTill c).writeOutcome c none).till d) = _
    rw [writeOutcome_till, settleTill_till]
    by_cases hd : d = c
    · subst hd; simp [h]
    · simp [hd]
  · rw [delivered_outcome_other h, settleTill_till, if_neg fun hc => h hc.2]

theorem delivered_outcome_lines (s : State) (r : Holder) (c : Counter) (o : Outcome) :
    (s.delivered r (.outcome c o)).tlu.lines = s.tlu.lines := by
  by_cases h : (s.till c).outcome = some o
  · rw [delivered_outcome_held h]
    exact settleTill_lines s c
  · rw [delivered_outcome_other h, settleTill_lines]

theorem delivered_outcome_removing {r : Holder} {c : Counter} {o : Outcome} (h : (s.till c).outcome = some o) :
    (s.delivered r (.outcome c o)).tlu.removing.get c = some o ∧
      (s.delivered r (.outcome c o)).ulc = { s.ulc with noneTold := false } := by
  rw [delivered_outcome_held h]
  refine ⟨PerCounter.get_set_self _ c _, ?_⟩
  show ({ (s.settleTill c).ulc with noneTold := false } : Ulc) = _
  rw [settleTill_ulc]

/-- A look at a ring that can be looked at, in RUNNING. -/
theorem lookAt_running {r : Holder} (hok : s.rgi.accessOk r = true) (hrun : s.rgi.state = .running)
    (hh : (s.ring r).halted = false) (hs : (s.ring r).service = none) (hb : Access.look r ∉ s.rgi.bus) :
    State.lookAt r s =
      { s with rgi := { s.rgi with
        rings := s.rgi.rings.set r { s.ring r with poll := false }, bus := s.rgi.bus ++ [.look r] } } := by
  rw [lookAt_eq s r hok, lookOne, if_pos ⟨hrun, hh, hs, hb⟩]
  rfl

theorem lookAt_of_not_running {r : Holder} (h : s.rgi.state ≠ .running) : State.lookAt r s = s :=
  if_neg fun hc => h hc.1

/-- In RUNNING the next look follows the reply written. -/
theorem replyWritten_running {r : Holder} {q : Request} {owner : ReplyOwner} {y : Reply} {k : InitCopy}
    (hrun : s.rgi.state = .running) (hh : (s.ring r).halted = false) (hb : Access.look r ∉ s.rgi.bus.tail)
    (hk : s.rgi.copy = some k) (hok : k.inWindow ((k.rings.get r).base + 96 * s.rgi.nextCursor r) 96 = true) :
    (State.lookAt r ((s.replyWritten k r q y).delivered r owner)).checkStopping =
      { (s.replyWritten k r q y).delivered r owner with
        rgi := { s.rgi with
          bus := s.rgi.bus.tail ++ [.look r]
          rings := s.rgi.rings.set r { s.ring r with cursor := s.rgi.nextCursor r, service := none, poll := false }
          lastWrite := some ⟨s.rgi.descriptorAt k r, y.descriptor q⟩ } } := by
  have hrgi : ((s.replyWritten k r q y).delivered r owner).rgi = (s.replyWritten k r q y).rgi := delivered_rgi _ _ _
  have hring : ((s.replyWritten k r q y).delivered r owner).ring r =
      { s.ring r with service := none, cursor := s.rgi.nextCursor r } := by
    simp only [State.ring, hrgi]
    exact PerHolder.get_set_self _ r _
  have hok' : ((s.replyWritten k r q y).delivered r owner).rgi.accessOk r = true := by
    have hcursor := congrArg Ring.cursor hring
    simp only [State.ring] at hcursor
    simp only [Rgi.accessOk, Rgi.descriptorAt, hcursor]
    rw [hrgi]
    simp only [State.replyWritten, hk]
    exact hok
  rw [lookAt_running hok' (by rw [hrgi]; exact hrun) (by rw [hring]; exact hh) (by rw [hring])
    (by rw [hrgi]; exact hb), checkStopping_of_not_stopping]
  · rw [hring, hrgi]
    simp [State.replyWritten, PerHolder.set_set]
  · show ((s.replyWritten k r q y).delivered r owner).rgi.state ≠ .stopping
    rw [hrgi]
    show s.rgi.state ≠ .stopping
    rw [hrun]
    decide

theorem quiet_iff (g : Rgi) : g.quiet = true ↔ ∀ r, (g.rings.get r).service = none := by
  simp only [Rgi.quiet, PerHolder.toList, PerCounter.toList, List.all_append, List.all_cons, List.all_nil,
    Bool.and_true, Bool.and_eq_true, Option.isNone_iff_eq_none]
  constructor
  · rintro ⟨⟨h0, h1, h2, h3, h4, h5, h6, h7⟩, h8⟩ r
    cases r with
    | office => exact h8
    | counter c => cases c <;> assumption
  · intro h
    exact ⟨⟨h (.counter .c0), h (.counter .c1), h (.counter .c2), h (.counter .c3), h (.counter .c4), h (.counter .c5),
      h (.counter .c6), h (.counter .c7)⟩, h .office⟩

theorem replyWritten_ring (s : State) (k : InitCopy) (r x : Holder) (q : Request) (y : Reply) :
    (s.replyWritten k r q y).ring x =
      if x = r then { s.ring r with service := none, cursor := s.rgi.nextCursor r } else s.ring x :=
  PerHolder.get_set _ _ _ _

/-- In STOPPING nothing follows the reply written, and the last one leads to STOPPED. -/
theorem replyWritten_stopping {r : Holder} {q : Request} {owner : ReplyOwner} {y : Reply} {k : InitCopy}
    (hstop : s.rgi.state = .stopping) :
    (State.lookAt r ((s.replyWritten k r q y).delivered r owner)).checkStopping =
      ((s.replyWritten k r q y).delivered r owner).checkStopping := by
  rw [lookAt_of_not_running]
  rw [delivered_rgi]
  show s.rgi.state ≠ .running
  rw [hstop]
  decide

theorem checkStopping_of_quiet (hs : s.rgi.state = .stopping) (h : ∀ r, (s.ring r).service = none) :
    s.checkStopping = s.enterStopped := if_pos ⟨hs, (quiet_iff s.rgi).2 h⟩

theorem checkStopping_of_busy {r : Holder} (h : (s.ring r).service ≠ none) : s.checkStopping = s :=
  if_neg fun hc => h ((quiet_iff s.rgi).1 hc.2 r)

end Sys2Proof.Machine

namespace Sys2Proof.Proofs

open Sys2Proof Sys2Proof.Machine

/-- Settles O31, by the state of the interface and the owner of the reply. -/
theorem aReplyWrittenMovesTheCursor : Obligations.AReplyWrittenMovesTheCursor := by
  refine ⟨fun s r q owner y k rest hin hrun hbus hlook hh hs hk hok => ?_,
    fun s r q owner y k rest hin hstop hbus hs hk => ?_⟩
  · rw [exec_replyWritten hin hs hk (by rw [hbus]; rfl)]
    have hnext := nextCursor_eq hk r
    have htail : s.rgi.bus.tail = rest := by rw [hbus]; rfl
    rw [replyWritten_running hrun hh (by rw [htail]; exact hlook) hk (by rw [hnext]; exact hok)]
    refine ⟨_, rfl, ?_, ?_, ?_, ?_, ?_⟩
    · dsimp only
      rw [htail, hnext]
      rfl
    · rintro rfl
      rfl
    · rintro rfl hc
      rw [delivered_context]
      have hctx (h : Holder) := ctx_told (s.replyWritten k r q y) r h
      exact ⟨((hctx r).trans (if_pos rfl)).trans (told_of_replying hc), fun h hne => (hctx h).trans (if_neg hne), rfl⟩
    · rintro c rfl
      rfl
    · rintro c o rfl
      have htill (d : Counter) := delivered_outcome_till (s.replyWritten k r q y) r c d o
      refine ⟨?_, fun d hd => ?_, delivered_outcome_lines _ r c o, ?_, fun ho => ?_, fun ho => ?_, ?_⟩
      · refine (htill c).trans ?_
        by_cases ho : (s.till c).outcome = some o
        · rw [if_pos ⟨rfl, ho⟩, if_pos ho]
          rfl
        · rw [if_neg fun h => ho h.2, if_neg ho]
          rfl
      · exact (htill d).trans (if_neg fun h => hd h.1)
      · rw [delivered_outcome_only]
        exact raiseIf_atc_congr (s := s.replyWritten k r q y) (t := s) rfl (s.lateDue c) (.lateCount c)
      · have hgone := delivered_outcome_removing (s := s.replyWritten k r q y) (r := r) ho
        exact hgone
      · show ((s.replyWritten k r q y).delivered r (.outcome c o)).ulc = s.ulc
        rw [delivered_outcome_other (by exact ho), settleTill_ulc]
        rfl
      · rw [delivered_outcome_only]
        rfl
  · rw [exec_replyWritten hin hs hk (by rw [hbus]; rfl), replyWritten_stopping hstop]
    have hnext := nextCursor_eq hk r
    have htail : s.rgi.bus.tail = rest := by rw [hbus]; rfl
    have hrgi : ((s.replyWritten k r q y).delivered r owner).rgi = (s.replyWritten k r q y).rgi := delivered_rgi _ _ _
    have hring (x : Holder) : ((s.replyWritten k r q y).delivered r owner).ring x =
        if x = r then { s.ring r with service := none, cursor := s.rgi.nextCursor r } else s.ring x := by
      rw [← replyWritten_ring s k r x q y]
      exact congrArg (fun g : Rgi => g.rings.get x) hrgi
    have hown : ((s.replyWritten k r q y).delivered r owner).ring r =
        { s.ring r with
          cursor := if (s.ring r).cursor + 1 < (k.rings.get r).count then (s.ring r).cursor + 1 else 0
          service := none } := by
      rw [hring, if_pos rfl, hnext]
      rfl
    have hother (x : Holder) (hx : x ≠ r) : ((s.replyWritten k r q y).delivered r owner).ring x = s.ring x := by
      rw [hring, if_neg hx]
    have hlast := congrArg Rgi.lastWrite hrgi
    by_cases hquiet : ∀ x, x ≠ r → (s.ring x).service = none
    · rw [checkStopping_of_quiet (by rw [hrgi]; exact hstop) fun x => by
        by_cases hx : x = r
        · rw [hx, hown]
        · rw [hother x hx, hquiet x hx]]
      refine ⟨_, rfl, hown, hother, hlast, fun _ => ⟨rfl, rfl, enterStopped_has _⟩, ?_⟩
      rintro ⟨x, hx, hbusy⟩
      exact absurd (hquiet x hx) hbusy
    · obtain ⟨x, hx⟩ := not_forall.1 hquiet
      obtain ⟨hne, hbusy⟩ := Classical.not_imp.1 hx
      rw [checkStopping_of_busy (r := x) (by rw [hother x hne]; exact hbusy)]
      refine ⟨_, rfl, hown, hother, hlast, fun h => absurd h hquiet, fun _ => ?_⟩
      rw [hrgi]
      exact ⟨hstop, htail⟩

end Sys2Proof.Proofs
end

section
/-! PROOF. The faults of a ring and of the bus (R192 to R195): a request detached reaches the till and the context of its
own ring alone. -/

namespace Sys2Proof.Machine

variable {s : State}

/-! ### A reply that is undeliverable (R190) -/

/-- `t` is `s` but for the tills, the contexts, the status words and RGI; the lines and the park list are those of `s`. -/
structure State.detached (s t : State) : Prop where
  only : t = { s with rgi := t.rgi, atc := t.atc, vnc := t.vnc, tlu := t.tlu }
  park : t.vnc.park = s.vnc.park
  lines : t.tlu.lines = s.tlu.lines
  mono : ∀ b, s.has b = true → t.has b = true

theorem State.detached.refl (s : State) : s.detached s := ⟨rfl, rfl, rfl, fun _ h => h⟩

theorem State.detached.trans {s t u : State} (h : s.detached t) (h' : t.detached u) : s.detached u :=
  ⟨h'.only.trans (by rw [h.only]), h'.park.trans h.park, h'.lines.trans h.lines, fun b hb => h'.mono b (h.mono b hb)⟩

theorem ctxUndelivered_detached (s : State) (h : Holder) : s.detached (s.ctxUndelivered h) := by
  refine ⟨?_, ctxUndelivered_park s h, ctxUndelivered_lines s h, fun b => has_ctxUndelivered_mono h⟩
  rw [ctxUndelivered_only]

theorem undeliver_detached (s : State) (r : Holder) (o : ReplyOwner) : s.detached (s.undeliver r o) := by
  cases o with
  | context => exact ctxUndelivered_detached s r
  | nobody | outcome | closing => exact ⟨rfl, rfl, rfl, fun _ h => h⟩

theorem undeliver_ctx_other (s : State) {r h : Holder} (o : ReplyOwner) (hne : h ≠ r) :
    (s.undeliver r o).ctx h = s.ctx h := by
  cases o with
  | context => exact (ctxUndelivered_ctx s r h).trans (if_neg hne)
  | nobody | outcome | closing => rfl

theorem undeliver_till_other (s : State) {r : Holder} {c : Counter} (o : ReplyOwner) (hne : r ≠ .counter c) :
    (s.undeliver r o).till c = s.till c := by
  cases o with
  | context => exact (ctxUndelivered_till s r c).trans (lostStored_till s r c hne)
  | nobody | outcome | closing => rfl

theorem undeliver_till_of_not_context (s : State) (r : Holder) {o : ReplyOwner} (h : o ≠ .context) (c : Counter) :
    (s.undeliver r o).till c = s.till c := by
  cases o with
  | context => exact absurd rfl h
  | nobody | outcome | closing => rfl

/-! ### An access answered with an error (R192) -/

/-- The ring of a reply whose write failed, past its descriptor. -/
def State.replyFailed (s : State) (r : Holder) : State :=
  { s with
    rgi := { s.rgi with
      bus := s.rgi.bus.tail
      rings := s.rgi.rings.set r
        { cursor := s.rgi.nextCursor r, halted := true, fault := true, poll := false, service := none } }
    atc := (s.raise (.ringFault r)).atc }

theorem exec_ringFault (hin : s.inService = true) {r : Holder}
    (hb : s.rgi.bus.head? = some (.look r) ∨ s.rgi.bus.head? = some (.reply r)) :
    exec (.ringFault r) s = .next (s.popBus.failAccess r) := by
  show execRingFault r s = _
  rw [execRingFault, whenInService_of_inService _ hin, if_pos hb]

theorem failAccess_of_none {r : Holder} (h : (s.ring r).service = none) :
    s.failAccess r =
      (s.mapRing r fun x => { x with halted := true, fault := true, poll := false }).raise (.ringFault r) := by
  simp only [State.failAccess, h]

theorem failAccess_of_replying {r : Holder} {q : Request} {o : ReplyOwner} {y : Reply}
    (h : (s.ring r).service = some ⟨q, .replying o y⟩) (hrun : s.rgi.state = .running) :
    s.popBus.failAccess r = (s.replyFailed r).undeliver r o := by
  have hservice : (s.popBus.ring r).service = some ⟨q, .replying o y⟩ := h
  have hbase : ((s.popBus.mapRing r fun x => { x with halted := true, fault := true, poll := false }).raise
      (.ringFault r)).endService r = s.replyFailed r := by
    simp [State.endService, State.replyFailed, State.mapRing, State.mapRgi, State.popBus, State.raise, State.mapAtc,
      Rgi.nextCursor, PerHolder.set_set, PerHolder.get_set_self]
  simp only [State.failAccess, hservice, hbase]
  refine checkStopping_of_not_stopping ?_
  rw [undeliver_rgi]
  show s.rgi.state ≠ .stopping
  rw [hrun]
  decide

/-! ### Requests detached (R195) -/

theorem detach_of_none {r : Holder} (h : (s.ring r).service = none) : State.detach r s = s := by
  simp only [State.detach, h]

theorem detach_of_atOwner {r : Holder} {q : Request} (h : (s.ring r).service = some ⟨q, .atOwner⟩) :
    State.detach r s =
      (s.mapRing r fun x => { x with service := none }).mapCtx r fun x => { x with attached := false } := by
  simp only [State.detach, h]

theorem detach_of_replying {r : Holder} {q : Request} {o : ReplyOwner} {y : Reply}
    (h : (s.ring r).service = some ⟨q, .replying o y⟩) :
    State.detach r s = (s.mapRing r fun x => { x with service := none }).undeliver r o := by
  simp only [State.detach, h]

theorem detach_cases (s : State) (r : Holder) :
    State.detach r s = s ∨ (∃ f, State.detach r s = (s.mapRing r fun x => { x with service := none }).mapRgi f) ∨
      (∃ f, State.detach r s = (s.mapRing r fun x => { x with service := none }).mapCtx r f) ∨
      ∃ q o y, (s.ring r).service = some ⟨q, .replying o y⟩ ∧
        State.detach r s = (s.mapRing r fun x => { x with service := none }).undeliver r o := by
  cases hs : (s.ring r).service with
  | none => exact Or.inl (detach_of_none hs)
  | some sv =>
    obtain ⟨q, phase⟩ := sv
    cases phase with
    | waiting =>
      refine Or.inr (Or.inl ⟨fun g => { g with orphans := g.orphans ++ [q] }, ?_⟩)
      simp only [State.detach, hs]
    | atOwner => exact Or.inr (Or.inr (Or.inl ⟨_, detach_of_atOwner hs⟩))
    | replying o y => exact Or.inr (Or.inr (Or.inr ⟨q, o, y, rfl, detach_of_replying hs⟩))

theorem detach_detached (s : State) (r : Holder) : s.detached (State.detach r s) := by
  rcases detach_cases s r with e | ⟨f, e⟩ | ⟨f, e⟩ | ⟨q, o, y, -, e⟩ <;> rw [e]
  · exact .refl s
  · exact ⟨rfl, rfl, rfl, fun _ h => h⟩
  · exact ⟨rfl, rfl, rfl, fun _ h => h⟩
  · have hring : s.detached (s.mapRing r fun x => { x with service := none }) := ⟨rfl, rfl, rfl, fun _ h => h⟩
    exact hring.trans (undeliver_detached _ r o)

theorem detach_ctx_other (s : State) {r h : Holder} (hne : h ≠ r) : (State.detach r s).ctx h = s.ctx h := by
  rcases detach_cases s r with e | ⟨f, e⟩ | ⟨f, e⟩ | ⟨q, o, y, -, e⟩ <;> rw [e]
  · rfl
  · exact (ctx_mapCtx _ r h f).trans (if_neg hne)
  · exact undeliver_ctx_other _ o hne

theorem detach_till_other (s : State) {r : Holder} {c : Counter} (hne : r ≠ .counter c) :
    (State.detach r s).till c = s.till c := by
  rcases detach_cases s r with e | ⟨f, e⟩ | ⟨f, e⟩ | ⟨q, o, y, -, e⟩ <;> rw [e]
  · rfl
  · rfl
  · exact undeliver_till_other _ o hne

/-- What the detaching of a request leaves of RGI: all but the orphans and the ring's own request in service. -/
theorem detach_rgi (s : State) (r : Holder) :
    ∃ orphans, (State.detach r s).rgi =
      { s.rgi with rings := s.rgi.rings.set r { s.ring r with service := none }, orphans := orphans } := by
  cases hs : (s.ring r).service with
  | none =>
    refine ⟨s.rgi.orphans, ?_⟩
    have hsame : ({ s.ring r with service := none } : Ring) = s.ring r := by rw [← hs]
    rw [detach_of_none hs, hsame]
    show s.rgi = { s.rgi with rings := s.rgi.rings.set r (s.rgi.rings.get r) }
    rw [PerHolder.set_get]
  | some sv =>
    obtain ⟨q, phase⟩ := sv
    cases phase with
    | waiting =>
      refine ⟨s.rgi.orphans ++ [q], ?_⟩
      simp only [State.detach, hs]
      rfl
    | atOwner =>
      refine ⟨s.rgi.orphans, ?_⟩
      rw [detach_of_atOwner hs]
      rfl
    | replying o y =>
      refine ⟨s.rgi.orphans, ?_⟩
      rw [detach_of_replying hs, undeliver_rgi]
      rfl

/-- Two parts agree on a ring, its context and its till. -/
structure State.agreeAt (r : Holder) (s t : State) : Prop where
  service : (t.ring r).service = (s.ring r).service
  ctx : t.ctx r = s.ctx r
  till : ∀ c, r = .counter c → t.till c = s.till c

theorem detach_agreeAt (s : State) {r h : Holder} (hne : h ≠ r) : s.agreeAt h (State.detach r s) := by
  refine ⟨?_, detach_ctx_other s hne, ?_⟩
  · exact (detach_service s r h).trans (if_neg hne)
  · rintro c rfl
    exact detach_till_other s (Ne.symm hne)

theorem foldl_detach_detached (l : List Holder) (s : State) : s.detached (l.foldl (fun t r => State.detach r t) s) := by
  induction l generalizing s with
  | nil => exact .refl s
  | cons a l ih => exact (detach_detached s a).trans (ih _)

theorem foldl_detach_agreeAt (l : List Holder) (s : State) {h : Holder} (hh : h ∉ l) :
    s.agreeAt h (l.foldl (fun t r => State.detach r t) s) := by
  induction l generalizing s with
  | nil => exact ⟨rfl, rfl, fun _ _ => rfl⟩
  | cons a l ih =>
    have one := detach_agreeAt s (r := a) fun e => hh (e ▸ List.mem_cons_self)
    have rest := ih (State.detach a s) fun hm => hh (List.mem_cons_of_mem _ hm)
    exact ⟨rest.service.trans one.service, rest.ctx.trans one.ctx, fun c hc => (rest.till c hc).trans (one.till c hc)⟩

/-- Every request detached: at its own ring a request meets the part as it was, and what it leaves there stays. -/
theorem detachAll_at (s : State) (r : Holder) :
    ∃ u, s.agreeAt r u ∧ (State.detach r u).agreeAt r (forHolders State.detach s) ∧
      (State.detach r u).detached (forHolders State.detach s) := by
  obtain ⟨before, after, hsplit⟩ := List.append_of_mem (Holder.mem_all r)
  have hnodup : (before ++ r :: after).Nodup := hsplit ▸ (by decide : Holder.all.Nodup)
  obtain ⟨hnot, -⟩ := List.nodup_cons.1 (List.nodup_append.1 hnodup).2.1
  have hbefore : r ∉ before := fun hr => (List.nodup_append.1 hnodup).2.2 r hr r List.mem_cons_self rfl
  refine ⟨before.foldl (fun t r => State.detach r t) s, foldl_detach_agreeAt before s hbefore, ?_⟩
  have hfold : forHolders State.detach s = after.foldl (fun t r => State.detach r t)
      (State.detach r (before.foldl (fun t r => State.detach r t) s)) := by
    rw [forHolders, hsplit, List.foldl_append, List.foldl_cons]
  rw [hfold]
  exact ⟨foldl_detach_agreeAt after _ hnot, foldl_detach_detached after _⟩

theorem foldl_detach_rgi (l : List Holder) (s : State) :
    ∃ rings orphans, (l.foldl (fun t r => State.detach r t) s).rgi =
      { s.rgi with rings := rings, orphans := orphans } ∧
        ∀ x, rings.get x = if x ∈ l then { s.ring x with service := none } else s.ring x := by
  induction l generalizing s with
  | nil => exact ⟨s.rgi.rings, s.rgi.orphans, rfl, fun x => by rw [if_neg List.not_mem_nil]; rfl⟩
  | cons a l ih =>
    obtain ⟨orphans, hone⟩ := detach_rgi s a
    obtain ⟨rings, orphans', hrest, hrings⟩ := ih (State.detach a s)
    refine ⟨rings, orphans', by rw [List.foldl_cons, hrest, hone], fun x => ?_⟩
    have hring : (State.detach a s).ring x = if x = a then { s.ring a with service := none } else s.ring x := by
      simp only [State.ring, hone]
      exact PerHolder.get_set _ _ _ _
    rw [hrings x, hring]
    by_cases hx : x = a
    · subst hx; simp
    · simp [hx]

theorem detachAll_rgi (s : State) :
    ∃ rings orphans, (forHolders State.detach s).rgi = { s.rgi with rings := rings, orphans := orphans } ∧
      ∀ x, rings.get x = { s.ring x with service := none } := by
  obtain ⟨rings, orphans, hrgi, hrings⟩ := foldl_detach_rgi Holder.all s
  exact ⟨rings, orphans, hrgi, fun x => (hrings x).trans (if_pos (Holder.mem_all x))⟩

theorem markStores_detached (s t : State) : t.detached (s.markStores t) := by
  obtain ⟨storing, hstoring⟩ := markStores_spec s t
  rw [hstoring]
  exact ⟨rfl, rfl, rfl, fun _ h => h⟩

/-! ### BUS_FAULT (R193) -/

/-- The interface faulted, before its requests are detached. -/
def State.busFaulted (s : State) : State :=
  (s.stopPolls.mapRgi fun g => { g with state := .faulted, bus := [] }).raise .busFault

theorem exec_busFault (hin : s.inService = true) (hb : s.rgi.bus ≠ []) :
    exec .busFault s = .next (s.markStores (forHolders State.detach s.busFaulted)) := by
  show execBusFault s = _
  rw [execBusFault, whenInService_of_inService _ hin, if_neg (by simpa using hb)]
  rfl

theorem busFaulted_ring (s : State) (r : Holder) : s.busFaulted.ring r = { s.ring r with poll := false } :=
  PerHolder.get_map _ _ r

/-- What one part has lost, another with the same context and till has lost. -/
theorem replyLost_congr {s u v t : State} {c : Counter} {q : CtxRequest} {y : Reply} (h : replyLost u v c q y)
    (hutill : u.till c = s.till c) (huctx : u.ctx (.counter c) = s.ctx (.counter c)) (hv : v.agreeAt (.counter c) t)
    (hmono : v.has .outcomeStored = true → t.has .outcomeStored = true) : replyLost s t c q y := by
  obtain ⟨hstored, hdeclined, hctx⟩ := h
  rw [hutill, huctx] at hstored
  rw [hutill] at hdeclined
  rw [huctx] at hctx
  exact ⟨fun ho => ⟨(hv.till c rfl).trans (hstored ho).1, hmono (hstored ho).2⟩,
    fun ho hy => (hv.till c rfl).trans (hdeclined ho hy), hv.ctx.trans hctx⟩

theorem detachAll_detached (s : State) : s.detached (forHolders State.detach s) := foldl_detach_detached Holder.all s

theorem detachAll_atOwner {r : Holder} {q : Request} (h : (s.ring r).service = some ⟨q, .atOwner⟩) :
    ((forHolders State.detach s).ctx r).attached = false := by
  obtain ⟨u, hbefore, hafter, -⟩ := detachAll_at s r
  rw [hafter.ctx, detach_of_atOwner (hbefore.service.trans h), ctx_mapCtx, if_pos rfl]

theorem detachAll_lost {c : Counter} {q : Request} {y : Reply} {p : CtxRequest}
    (h : (s.ring (.counter c)).service = some ⟨q, .replying .context y⟩)
    (hc : (s.ctx (.counter c)).state = .replying) (hp : (s.ctx (.counter c)).request = some p)
    (hy : (s.ctx (.counter c)).reply = some y) : replyLost s (forHolders State.detach s) c p y := by
  obtain ⟨u, hbefore, hafter, hkeep⟩ := detachAll_at s (.counter c)
  have hctx : (u.mapRing (.counter c) fun x => { x with service := none }).ctx (.counter c) = s.ctx (.counter c) :=
    hbefore.ctx
  have hlost := ctxUndelivered_lost (s := u.mapRing (.counter c) fun x => { x with service := none }) (c := c)
    (by rw [hctx]; exact hc) (by rw [hctx]; exact hp) (by rw [hctx]; exact hy)
  rw [detach_of_replying (hbefore.service.trans h)] at hafter hkeep
  exact replyLost_congr hlost (hbefore.till c rfl) hctx hafter (hkeep.mono _)

theorem detachAll_office {q : Request} {y : Reply} (h : (s.ring .office).service = some ⟨q, .replying .context y⟩)
    (hc : (s.ctx .office).state = .replying) :
    (forHolders State.detach s).ctx .office =
      if (s.ctx .office).releasePending then { s.ctx .office with attached := false, replyPending := false }
      else Ctx.idle := by
  obtain ⟨u, hbefore, hafter, -⟩ := detachAll_at s .office
  rw [hafter.ctx, detach_of_replying (hbefore.service.trans h)]
  refine (ctxUndelivered_ctx _ .office .office).trans ((if_pos rfl).trans ?_)
  show (u.ctx .office).told = _
  rw [hbefore.ctx, told_of_replying hc]

theorem detachAll_till {c : Counter} (h : ∀ q y, (s.ring (.counter c)).service ≠ some ⟨q, .replying .context y⟩) :
    (forHolders State.detach s).till c = s.till c := by
  obtain ⟨u, hbefore, hafter, -⟩ := detachAll_at s (.counter c)
  rw [hafter.till c rfl, ← hbefore.till c rfl]
  rcases detach_cases u (.counter c) with e | ⟨f, e⟩ | ⟨f, e⟩ | ⟨q, o, y, hs, e⟩ <;> rw [e]
  · rfl
  · rfl
  · refine undeliver_till_of_not_context _ _ (fun ho => ?_) c
    subst ho
    exact h q y (hbefore.service.symm.trans hs)

end Sys2Proof.Machine

namespace Sys2Proof.Proofs

open Sys2Proof Sys2Proof.Machine

/-- Settles O32, by the access that failed and the owner of the reply; for the bus, ring by ring. -/
theorem ringAndBusFaults : Obligations.RingAndBusFaults := by
  refine ⟨fun s r rest hin => ⟨fun hbus hs => ?_, fun q y k owner hbus hs hk hrun => ?_⟩, fun s hin hbus => ?_⟩
  · rw [exec_ringFault hin (Or.inl (by rw [hbus]; rfl)), failAccess_of_none (by exact hs)]
    have htail : s.rgi.bus.tail = rest := by rw [hbus]; rfl
    rw [← htail]
    rfl
  · rw [exec_ringFault hin (Or.inr (by rw [hbus]; rfl)), failAccess_of_replying hs hrun]
    have htail : s.rgi.bus.tail = rest := by rw [hbus]; rfl
    have hset : (s.replyFailed r).has (.ringFault r) = true := has_raise_self s _
    have hkeep := undeliver_detached (s.replyFailed r) r owner
    refine ⟨_, rfl, ?_, hkeep.mono _ hset, ?_, ?_, ?_, ?_⟩
    · rw [undeliver_rgi, State.replyFailed, htail, nextCursor_eq hk]
      rfl
    · rintro (rfl | ⟨c, o, rfl⟩) <;> rfl
    · rintro c rfl
      rfl
    · rintro c p rfl rfl hc hp hy
      refine ⟨ctxUndelivered_lost (s := s.replyFailed (.counter c)) hc hp hy, fun d hd => ?_, fun h hne => ?_,
        hkeep.park, hkeep.lines, hkeep.only⟩
      · exact undeliver_till_other (s.replyFailed (.counter c)) .context fun e => hd (Holder.counter.inj e).symm
      · exact undeliver_ctx_other (s.replyFailed (.counter c)) .context hne
    · rintro rfl rfl hc
      have hctx (h : Holder) := ctx_told (s.replyFailed .office) .office h
      rw [show (s.replyFailed .office).undeliver .office .context = _ from ctxUndelivered_office _]
      exact ⟨((hctx .office).trans (if_pos rfl)).trans (told_of_replying hc), fun h hne => (hctx h).trans (if_neg hne),
        rfl, rfl⟩
  · rw [exec_busFault hin hbus]
    obtain ⟨rings, orphans, hrgi, hrings⟩ := detachAll_rgi s.busFaulted
    have hkeep := detachAll_detached s.busFaulted
    have hservice (r : Holder) : (s.busFaulted.ring r).service = (s.ring r).service :=
      (congrArg Ring.service (busFaulted_ring s r)).trans rfl
    have hring (r : Holder) : (s.markStores (forHolders State.detach s.busFaulted)).ring r =
        { s.ring r with poll := false, service := none } := by
      rw [State.ring, markStores_rgi, hrgi, hrings, busFaulted_ring]
    have hctx (h : Holder) : (s.markStores (forHolders State.detach s.busFaulted)).ctx h =
        (forHolders State.detach s.busFaulted).ctx h := by rw [State.ctx, markStores_vnc]; rfl
    have htill (c : Counter) : (s.markStores (forHolders State.detach s.busFaulted)).till c =
        (forHolders State.detach s.busFaulted).till c := by rw [State.till, markStores_tills]; rfl
    have hmarked (c : Counter) : (forHolders State.detach s.busFaulted).agreeAt (.counter c)
        (s.markStores (forHolders State.detach s.busFaulted)) :=
      ⟨by rw [State.ring, markStores_rgi]; rfl, hctx _, fun d _ => htill d⟩
    have hhas {b : Status} (hb : (forHolders State.detach s.busFaulted).has b = true) :
        (s.markStores (forHolders State.detach s.busFaulted)).has b = true := by
      rw [has_congr (s := forHolders State.detach s.busFaulted) b (by rw [markStores_atc])]
      exact hb
    refine ⟨_, rfl, ?_, ?_, hhas (hkeep.mono _ (has_raise_self _ .busFault)), hring, ?_, fun r q hs => ?_,
      fun c q y p hs hc hp hy => ?_, fun c hno => ?_, fun q y hs hc => ?_, fun c d hne hc hd => ?_, ?_, ?_, ?_⟩
    · rw [markStores_rgi, hrgi]; rfl
    · rw [markStores_rgi, hrgi]; rfl
    · rw [markStores_rgi, hrgi]; rfl
    · rw [hctx]
      exact detachAll_atOwner ((hservice r).trans hs)
    · have hlost := detachAll_lost (s := s.busFaulted) ((hservice _).trans hs) hc hp hy
      exact replyLost_congr hlost rfl rfl (hmarked c) hhas
    · rw [htill]
      exact detachAll_till (s := s.busFaulted) fun q y => by rw [hservice]; exact hno q y
    · rw [hctx]
      exact detachAll_office (s := s.busFaulted) ((hservice _).trans hs) hc
    · rw [htill] at hc hd
      exact markStores_storing s _ c d hne hc hd
    · rw [markStores_lines]
      exact hkeep.lines
    · rw [markStores_vnc]
      exact hkeep.park
    · exact (hkeep.trans (markStores_detached s _)).only

end Sys2Proof.Proofs
end

section
/-! PROOF. Requests taken by their contexts (R93 to R98, R129): the take checks of a sale, and the hold claim that follows. -/

namespace Sys2Proof.Machine

variable {s : State}

/-! ### An IDLE context takes a request (R93, R94) -/

/-- RGI with the request in service on a ring at its owner. -/
def Rgi.atOwner (g : Rgi) (h : Holder) (q : Request) : Rgi :=
  { g with rings := g.rings.set h { g.rings.get h with service := some ⟨q, .atOwner⟩ } }

/-- A context has left IDLE with a request; `tlu` is what the checks have left of the tills. -/
def State.entered (s : State) (h : Holder) (q : Request) (x : CtxRequest) (tlu : Tlu) : State :=
  { s with
    tlu := tlu
    rgi := s.rgi.atOwner h q
    vnc := { s.vnc with
      ctxs := s.vnc.ctxs.set h { Ctx.idle with state := .issuing, request := some x, attached := true } } }

theorem entered_ctx (s : State) (h k : Holder) (q : Request) (x : CtxRequest) (tlu : Tlu) :
    (s.entered h q x tlu).ctx k =
      if k = h then { Ctx.idle with state := .issuing, request := some x, attached := true } else s.ctx k :=
  PerHolder.get_set _ _ _ _

theorem replyDue_atOwner (g : Rgi) (h : Holder) (q : Request) (o : ReplyOwner) (y : Reply) :
    (g.atOwner h q).replyDue h q o y = g.replyDue h q o y := by
  simp [Rgi.replyDue, Rgi.atOwner, PerHolder.set_set, PerHolder.get_set_self]

theorem accessOk_atOwner (g : Rgi) (h r : Holder) (q : Request) : (g.atOwner h q).accessOk r = g.accessOk r := by
  have hcursor : ((g.atOwner h q).rings.get r).cursor = (g.rings.get r).cursor := by
    simp only [Rgi.atOwner, PerHolder.get_set]
    split <;> simp_all
  simp only [Rgi.accessOk, Rgi.descriptorAt, hcursor]
  rfl

theorem taken_serving {k : ReqKind} {h : Holder} {q : Request} (hs : s.serving k h q) :
    s.taken q true = { s with rgi := s.rgi.atOwner h q } := by
  obtain ⟨-, -, hring, -, -⟩ := hs
  subst hring
  rfl

theorem entered_atOwner {k : ReqKind} {h : Holder} {q : Request} (hs : s.serving k h q) (x : CtxRequest) (tlu : Tlu) :
    (s.entered h q x tlu).atOwner h q := by
  obtain ⟨-, -, -, hwrites, hok⟩ := hs
  refine ⟨?_, ?_, hwrites, (accessOk_atOwner s.rgi h h q).trans hok⟩
  · rw [entered_ctx, if_pos rfl]
  · exact congrArg Ring.service (PerHolder.get_set_self _ h _)

/-- A request that its IDLE context takes and refuses: its reply waits for the bus. -/
theorem ctxReply_entered {k : ReqKind} {h : Holder} {q : Request} (hs : s.serving k h q) (x : CtxRequest) (tlu : Tlu)
    (y : Reply) :
    (s.entered h q x tlu).ctxReply h y =
      { (s.entered h q x tlu).mapCtx h (fun x => Ctx.replied x y) with rgi := s.rgi.replyDue h q .context y } := by
  rw [ctxReply_atOwner _ h q y (entered_atOwner hs x tlu), ← replyDue_atOwner s.rgi]
  rfl

theorem serveInCtx_idle {k : ReqKind} {h : Holder} {q : Request} (read : Request → CtxRequest × Bool)
    (hs : s.serving k h q) (hc : (s.ctx h).state = .idle) :
    s.serveInCtx k h read = (s.taken q true).takeInCtx h (read q).1 true (read q).2 := by
  obtain ⟨-, hwaiting, -⟩ := hs
  simp only [State.serveInCtx, hwaiting]
  rw [if_pos hc]

/-! ### The take checks of a sale (R96, R97) -/

theorem ite_some_or {α : Type} {p : Prop} [Decidable p] (a : α) (x y : Option α) :
    (if p then some a else x).or y = if p then some a else x.or y := by
  split <;> rfl

/-- The checks that read the till's state come before that of its outcome, and those of the service after it. -/
theorem saleRefusal_eq {c : Counter} (hclosing : s.tlu.closing.get c = none) (meter money : Nat) :
    s.saleRefusal c meter money =
      (s.tillRefusal c meter money).or
        (if (s.till c).outcome ≠ none then some .outcomePending else s.serviceRefusal money) := by
  have hread : s.tillStateRead c = (s.till c).state := by rw [State.tillStateRead, hclosing]
  have hmeter : meterOk meter = false ↔ meter < 1 ∨ 99999999999 < meter := by
    rw [meterOk, Bool.and_eq_false_iff, decide_eq_false_iff_not, decide_eq_false_iff_not, Nat.not_le, Nat.not_le]
    rfl
  have hblocks : ((s.lines c).blocks = true) ↔ (s.lines c).function = .drawer ∧ (s.lines c).drawer ≠ .shut := by
    rw [LinePair.blocks, Bool.and_eq_true, decide_eq_true_iff, decide_eq_true_iff]
  have hstale : (s.stale = true) ↔ s.ulc.line ≠ .up ∧ s.ulc.holdover < s.tke.sinceUp := by
    rw [State.stale, Bool.and_eq_true, decide_eq_true_iff, decide_eq_true_iff]
  simp only [State.saleRefusal, State.tillRefusal, State.serviceRefusal, hread, hmeter, hblocks, hstale,
    Option.isNone_iff_eq_none, ite_some_or, Option.none_or]

theorem vendRefusal_eq {c : Counter} (hclosing : s.tlu.closing.get c = none) (meter money : Nat) :
    s.vendRefusal c meter money =
      (s.tillRefusal c meter money).or
        (if (s.outcomeSeen c).isSome then some .outcomePending else s.serviceRefusal money) := by
  have hdone : s.tillReadDone c = s := by
    unfold State.tillReadDone
    simp [hclosing]
  rw [State.vendRefusal, hdone]
  cases s.tillRefusal c meter money <;> rfl

/-- The codes of the checks that come before that of the outcome. -/
theorem tillRefusal_code {c : Counter} {meter money : Nat} {code : ResultCode}
    (h : s.tillRefusal c meter money = some code) :
    code ∈ [ResultCode.badRequest, .amountRange, .tillClosed, .tillPaused, .drawerOpen] := by
  unfold State.tillRefusal at h
  repeat' split at h
  all_goals first | (obtain rfl := Option.some.inj h; decide) | exact absurd h (by simp)

theorem serviceRefusal_code {money : Nat} {code : ResultCode} (h : s.serviceRefusal money = some code) :
    code ∉ [ResultCode.badRequest, .amountRange, .tillClosed, .tillPaused, .drawerOpen, .outcomePending] := by
  unfold State.serviceRefusal at h
  repeat' split at h
  all_goals first | (obtain rfl := Option.some.inj h; decide) | exact absurd h (by simp)

/-! ### What a VEND's checks leave of the till (R97, R145) -/

/-- The part when an IDLE context takes a request: an outcome that its last sale left has been stored. -/
def State.seenIdle (s : State) (c : Counter) : State := { s with tlu := s.tlu.stored c }

theorem outcomeOpen_seenIdle {c : Counter} (h : s.tlu.removing.get c = none ∨ s.ulc.noneTold = true) :
    (s.seenIdle c).outcomeOpen c = none := by
  have hstoring : (s.tlu.stored c).storing.get c = (s.tlu.storing.get c).map fun w => { w with settled := true } :=
    PerCounter.get_set_self _ c _
  have hremoving : (s.tlu.stored c).removing = s.tlu.removing := rfl
  simp only [State.outcomeOpen, State.seenIdle, hstoring, hremoving]
  cases hr : s.tlu.removing.get c with
  | some o => simp [h.resolve_left (by simp [hr])]
  | none => cases s.tlu.storing.get c <;> simp

/-- The take checks read no unit that the take changes but the tills. -/
theorem takeRefusal_seenIdle {c : Counter} (q : Request) (hclosing : s.tlu.closing.get c = none) (x : CtxRequest) :
    (({ s with rgi := s.rgi.atOwner (.counter c) q } : State).idleSeen (.counter c)).takeRefusal (.counter c) x =
      (s.seenIdle c).vendRefusal c x.meter x.money := by
  have hidle : (({ s with rgi := s.rgi.atOwner (.counter c) q } : State).idleSeen (.counter c)).tlu.closing.get c =
      none := hclosing
  have hseen : (s.seenIdle c).tlu.closing.get c = none := hclosing
  rw [State.takeRefusal, vendRefusal_eq hidle, vendRefusal_eq hseen]
  rfl

theorem takeInCtx_refused {c : Counter} {q : Request} {code : ResultCode} (hs : s.serving .vend (.counter c) q)
    (hclosing : s.tlu.closing.get c = none) (h : (s.seenIdle c).vendRefusal c q.meter q.money = some code) :
    (s.taken q true).takeInCtx (.counter c) q.sale true false =
      ((s.entered (.counter c) q q.sale (s.tlu.stored c)).checked (.counter c) q.sale).ctxReply (.counter c)
        (Reply.plain code) := by
  rw [taken_serving hs, State.takeInCtx]
  simp only [takeRefusal_seenIdle q hclosing]
  rw [show (s.seenIdle c).vendRefusal c q.sale.meter q.sale.money = some code from h]
  rfl

theorem takeInCtx_passed {c : Counter} {q : Request} (hs : s.serving .vend (.counter c) q)
    (hclosing : s.tlu.closing.get c = none) (h : (s.seenIdle c).vendRefusal c q.meter q.money = none) :
    (s.taken q true).takeInCtx (.counter c) q.sale true false =
      ((s.entered (.counter c) q q.sale (s.tlu.stored c)).checked (.counter c) q.sale).holdClaim (.counter c)
        q.meter := by
  rw [taken_serving hs, State.takeInCtx]
  simp only [takeRefusal_seenIdle q hclosing]
  rw [show (s.seenIdle c).vendRefusal c q.sale.meter q.sale.money = none from h]
  rfl

/-- Checks that fail before that of the outcome leave the till unread. -/
theorem checked_unread {c : Counter} {q : Request} {x : CtxRequest} (hclosing : s.tlu.closing.get c = none)
    (h : (s.tillRefusal c x.meter x.money).isSome = true) :
    (s.entered (.counter c) q x (s.tlu.stored c)).checked (.counter c) x =
      s.entered (.counter c) q x (s.tlu.stored c) := by
  have hsame : (s.entered (.counter c) q x (s.tlu.stored c)).tillRefusal c x.meter x.money =
      s.tillRefusal c x.meter x.money := rfl
  have hopen : (s.entered (.counter c) q x (s.tlu.stored c)).tlu.closing.get c = none := hclosing
  simp only [State.checked, hsame, h, if_true, State.tillReadDone, hopen, Option.isSome_none, Bool.false_eq_true,
    if_false]

/-- The check of the outcome leaves the till read. -/
theorem checked_read {c : Counter} {q : Request} {x : CtxRequest} (hclosing : s.tlu.closing.get c = none)
    (h : s.tillRefusal c x.meter x.money = none) (hopen : (s.seenIdle c).outcomeOpen c = none) :
    (s.entered (.counter c) q x (s.tlu.stored c)).checked (.counter c) x =
      s.entered (.counter c) q x (s.tlu.outcomeRead c) := by
  have hsame : (s.entered (.counter c) q x (s.tlu.stored c)).tillRefusal c x.meter x.money = none := h
  have hclose : (s.entered (.counter c) q x (s.tlu.stored c)).tlu.closing.get c = none := hclosing
  have hread : (s.entered (.counter c) q x (s.tlu.stored c)).outcomeOpen c = none := hopen
  simp only [State.checked, hsame, State.tillReadDone, hclose, Option.isSome_none, Bool.false_eq_true, if_false]
  rw [(outcomeSeen_of_none _ c hread).2]
  show s.entered (.counter c) q x ((s.tlu.stored c).outcomeRead c) = _
  rw [outcomeRead_stored]

/-! ### The hold claim (R10, R98, R108) -/

theorem holdAnswered_refused {h : Holder} (hstop : (s.ctx h).stop = none) (y : Reply) :
    s.holdAnswered h (.refused y) = s.ctxReply h y := by
  simp only [State.holdAnswered, hstop, Option.isSome_none, Bool.false_eq_true, if_false]

theorem holdAnswered_busy {h : Holder} (hstop : (s.ctx h).stop = none) (slot : Nat) (other : Holder) :
    s.holdAnswered h (.busy slot other) =
      (s.mapCtx h fun x => { x with state := .parked, slot := some slot, await := .nothing }).mapVnc fun v =>
        { v with park := v.park ++ [⟨h, slot, s.tke.now, other⟩] } := by
  simp only [State.holdAnswered, hstop, Option.isSome_none, Bool.false_eq_true, if_false]

theorem holdClaim_granted {h : Holder} {meter slot : Nat} {r : MeterRecord}
    (hd : holdDecision s.adir.table h meter = .granted slot r) :
    s.holdClaim h meter =
      ((s.putRecord slot { r with hold := some h }).beginWrite .grant h slot r).mapCtx h fun x =>
        { x with
          state := .issuing, slot := some slot, view := some (MeterRecord.view { r with hold := some h } slot)
          await := .grant } := by
  simp only [State.holdClaim, hd]

theorem holdClaim_at_once {h : Holder} {meter : Nat} (hd : ∀ slot r, holdDecision s.adir.table h meter ≠ .granted slot r)
    (hbusy : s.adir.busyOn meter = false) :
    s.holdClaim h meter = s.holdAnswered h (holdDecision s.adir.table h meter) := by
  unfold State.holdClaim
  split
  · next slot r e => exact absurd e (hd slot r)
  · rw [if_neg (by rw [hbusy]; exact Bool.false_ne_true)]

theorem holdClaim_waits {h : Holder} {meter : Nat} (hd : ∀ slot r, holdDecision s.adir.table h meter ≠ .granted slot r)
    (hbusy : s.adir.busyOn meter = true) :
    s.holdClaim h meter =
      (s.mapCtx h fun x => { x with await := .hold }).mapAdir fun d =>
        { d with waiting := d.waiting ++
            [⟨h, meter, (d.writesOn meter).length, holdDecision s.adir.table h meter⟩] } := by
  unfold State.holdClaim
  split
  · next slot r e => exact absurd e (hd slot r)
  · rw [if_pos hbusy]

theorem holdDecision_absent {t : List (Nat × MeterRecord)} {meter : Nat} (h : Holder) (hf : tableFind t meter = none) :
    holdDecision t h meter = .refused ⟨.noMeter, []⟩ := by
  simp only [holdDecision, hf]
  rfl

theorem holdDecision_refused {t : List (Nat × MeterRecord)} {h : Holder} {meter slot : Nat} {r : MeterRecord} {y : Reply}
    (hf : tableFind t meter = some (slot, r)) (hc : checkRecord h r.status r.refer = some y) :
    holdDecision t h meter = .refused y := by
  simp only [holdDecision, hf, hc]

theorem holdDecision_free {t : List (Nat × MeterRecord)} {h : Holder} {meter slot : Nat} {r : MeterRecord}
    (hf : tableFind t meter = some (slot, r)) (hc : checkRecord h r.status r.refer = none) (hh : r.hold = none) :
    holdDecision t h meter = .granted slot r := by
  simp only [holdDecision, hf, hc, hh]

theorem holdDecision_held {t : List (Nat × MeterRecord)} {h other : Holder} {meter slot : Nat} {r : MeterRecord}
    (hf : tableFind t meter = some (slot, r)) (hc : checkRecord h r.status r.refer = none) (hh : r.hold = some other) :
    holdDecision t h meter = .busy slot other := by
  simp only [holdDecision, hf, hc, hh]

theorem checkRecord_active (c : Counter) : checkRecord (.counter c) .active none = none := rfl

theorem checkRecord_office {status : MeterStatus} (refer : Option Nat) (h : status ≠ .retiring) :
    checkRecord .office status refer = none := if_neg h

end Sys2Proof.Machine
end

section
/-! PROOF. A VEND's take and its refusals, and the office's issues (R96 to R98, R108, R129 to R131). -/

namespace Sys2Proof.Machine

variable {s : State}

/-! ### The outcomes of a take (R96, R98, R108) -/

/-- A request that its context has taken and refused: the reply waits for the bus. -/
def State.refused (s : State) (h : Holder) (q : Request) (x : CtxRequest) (tlu : Tlu) (y : Reply) : State :=
  { (s.entered h q x tlu).mapCtx h (fun x => Ctx.replied x y) with rgi := s.rgi.replyDue h q .context y }

theorem refused_ctx_other (s : State) {h k : Holder} (hk : k ≠ h) (q : Request) (x : CtxRequest) (tlu : Tlu) (y : Reply) :
    (s.refused h q x tlu y).ctx k = s.ctx k := by
  refine (ctx_mapCtx (s.entered h q x tlu) h k fun x => Ctx.replied x y).trans ((if_neg hk).trans ?_)
  rw [entered_ctx, if_neg hk]

theorem replied_state (x : Ctx) (y : Reply) : (x.replied y).state = .replying := by
  unfold Ctx.replied
  split <;> rfl

theorem refused_ctx_state (s : State) (h : Holder) (q : Request) (x : CtxRequest) (tlu : Tlu) (y : Reply) :
    ((s.refused h q x tlu y).ctx h).state = .replying := by
  have hctx : (s.refused h q x tlu y).ctx h = Ctx.replied ((s.entered h q x tlu).ctx h) y :=
    (ctx_mapCtx (s.entered h q x tlu) h h fun x => Ctx.replied x y).trans (if_pos rfl)
  rw [hctx, replied_state]

theorem exec_vend_idle {c : Counter} {q : Request} (hs : s.serving .vend (.counter c) q)
    (hc : (s.ctx (.counter c)).state = .idle) :
    exec (.vend c) s = .next ((s.taken q true).takeInCtx (.counter c) q.sale true false) := by
  show execVend c s = _
  rw [execVend, whenInService_of_inService _ hs.1, serveInCtx_idle _ hs hc]

/-- A check before that of the outcome refuses. -/
theorem exec_vend_tillRefused {c : Counter} {q : Request} {code : ResultCode} (hs : s.serving .vend (.counter c) q)
    (hc : (s.ctx (.counter c)).state = .idle) (hclosing : s.tlu.closing.get c = none)
    (h : s.tillRefusal c q.meter q.money = some code) :
    exec (.vend c) s = .next (s.refused (.counter c) q q.sale (s.tlu.stored c) ⟨code, []⟩) := by
  have hseen : (s.seenIdle c).vendRefusal c q.meter q.money = some code := by
    rw [vendRefusal_eq (by exact hclosing), show (s.seenIdle c).tillRefusal c q.meter q.money = some code from h]
    rfl
  rw [exec_vend_idle hs hc, takeInCtx_refused hs hclosing hseen,
    checked_unread hclosing (by rw [show s.tillRefusal c q.sale.meter q.sale.money = some code from h]; rfl),
    ctxReply_entered hs]
  rfl

/-- What the checks behind the till's say, once the outcome has been read. -/
theorem vendRefusal_read {c : Counter} {meter money : Nat} (hclosing : s.tlu.closing.get c = none)
    (ht : s.tillRefusal c meter money = none) (hopen : (s.seenIdle c).outcomeOpen c = none) :
    (s.seenIdle c).vendRefusal c meter money =
      if (s.till c).outcome ≠ none then some .outcomePending else s.serviceRefusal money := by
  rw [vendRefusal_eq (by exact hclosing), show (s.seenIdle c).tillRefusal c meter money = none from ht,
    (outcomeSeen_of_none _ c hopen).1, Option.none_or, show (s.seenIdle c).till c = s.till c from rfl,
    show (s.seenIdle c).serviceRefusal money = s.serviceRefusal money from rfl]
  cases (s.till c).outcome with
  | none => rfl
  | some o => simp

/-- A check of the outcome or behind it refuses. -/
theorem exec_vend_refused {c : Counter} {q : Request} {code : ResultCode} (hs : s.serving .vend (.counter c) q)
    (hc : (s.ctx (.counter c)).state = .idle) (hclosing : s.tlu.closing.get c = none)
    (ht : s.tillRefusal c q.meter q.money = none) (hopen : (s.seenIdle c).outcomeOpen c = none)
    (h : (if (s.till c).outcome ≠ none then some .outcomePending else s.serviceRefusal q.money) = some code) :
    exec (.vend c) s = .next (s.refused (.counter c) q q.sale (s.tlu.outcomeRead c) ⟨code, []⟩) := by
  rw [exec_vend_idle hs hc, takeInCtx_refused hs hclosing ((vendRefusal_read hclosing ht hopen).trans h),
    checked_read hclosing (by exact ht) hopen, ctxReply_entered hs]
  rfl

/-- Every check passes, and the hold claim follows. -/
theorem exec_vend_passed {c : Counter} {q : Request} (hs : s.serving .vend (.counter c) q)
    (hc : (s.ctx (.counter c)).state = .idle) (hclosing : s.tlu.closing.get c = none)
    (ht : s.tillRefusal c q.meter q.money = none) (hopen : (s.seenIdle c).outcomeOpen c = none)
    (h : (if (s.till c).outcome ≠ none then some .outcomePending else s.serviceRefusal q.money) = none) :
    exec (.vend c) s =
      .next ((s.entered (.counter c) q q.sale (s.tlu.outcomeRead c)).holdClaim (.counter c) q.meter) := by
  rw [exec_vend_idle hs hc, takeInCtx_passed hs hclosing ((vendRefusal_read hclosing ht hopen).trans h),
    checked_read hclosing (by exact ht) hopen]

theorem entered_stop (s : State) (h : Holder) (q : Request) (x : CtxRequest) (tlu : Tlu) :
    ((s.entered h q x tlu).ctx h).stop = none := by
  rw [entered_ctx, if_pos rfl]
  rfl

/-- A refusal of the hold claim with no write of the record under way answers at once. -/
theorem holdClaim_entered_refused {k : ReqKind} {h : Holder} {q : Request} {meter : Nat} (hs : s.serving k h q)
    (x : CtxRequest) (tlu : Tlu) {y : Reply} (hd : holdDecision s.adir.table h meter = .refused y)
    (hbusy : s.adir.busyOn meter = false) :
    (s.entered h q x tlu).holdClaim h meter = s.refused h q x tlu y := by
  have hsame : (s.entered h q x tlu).adir = s.adir := rfl
  rw [holdClaim_at_once (by rw [hsame, hd]; simp) (by rw [hsame]; exact hbusy), hsame, hd,
    holdAnswered_refused (entered_stop s h q x tlu), ctxReply_entered hs]
  rfl

/-! ### The sale that passes (R96) -/

/-- What a VEND needs of the part to pass the take checks. -/
theorem saleRefusal_eq_none {c : Counter} {meter money : Nat} (hlo : 1 ≤ meter) (hhi : meter ≤ 99999999999)
    (hmlo : 100 ≤ money) (hmhi : money ≤ 500000) (hopened : (s.till c).state = .opened)
    (hout : (s.till c).outcome = none) (hline : (s.lines c).function = .general ∨ (s.lines c).drawer = .shut)
    (hmode : s.ulc.mode = .normal ∨ (s.ulc.mode = .capped ∧ money ≤ s.flu.record.vendCap))
    (hlink : s.ulc.line = .up ∨ s.tke.sinceUp ≤ s.ulc.holdover) (hclock : s.tke.clockValid = true)
    (hmonth : s.month ≠ none) : s.saleRefusal c meter money = none := by
  have hcap : ¬(s.ulc.mode = .capped ∧ s.flu.record.vendCap < money) := by
    rintro ⟨hc, hlt⟩
    rcases hmode with h | ⟨-, h⟩
    · rw [h] at hc; exact absurd hc (by decide)
    · omega
  have hhalt : s.ulc.mode ≠ .halt := by
    rcases hmode with h | ⟨h, -⟩ <;> rw [h] <;> decide
  have hdrawer : ¬((s.lines c).function = .drawer ∧ (s.lines c).drawer ≠ .shut) := by
    rintro ⟨hf, hd⟩
    rcases hline with h | h
    · rw [h] at hf; exact absurd hf (by decide)
    · exact hd h
  have hstale : ¬(s.ulc.line ≠ .up ∧ s.ulc.holdover < s.tke.sinceUp) := by
    rintro ⟨hl, hlt⟩
    exact hlink.elim hl fun h => by omega
  rw [State.saleRefusal, if_neg (by omega), if_neg (by omega), if_neg (by simp [hopened]), if_neg (by simp [hopened]),
    if_neg hdrawer, if_neg (by simp [hout]), if_neg hhalt, if_neg hcap, if_neg hstale, if_neg (by simp [hclock]),
    if_neg hmonth]

theorem or_eq_none {α : Type} {x y : Option α} (h : x.or y = none) : x = none ∧ y = none := by
  cases x with
  | none => exact ⟨rfl, h⟩
  | some a => exact absurd h (by simp)

/-- What R96 asks of the till, behind the checks of the request itself. -/
theorem tillRefusal_eq_none {c : Counter} {meter money : Nat} (hclosing : s.tlu.closing.get c = none) (hlo : 1 ≤ meter)
    (hhi : meter ≤ 99999999999) (hmlo : 100 ≤ money) (hmhi : money ≤ 500000) (hopened : (s.till c).state = .opened)
    (hline : (s.lines c).function = .general ∨ (s.lines c).drawer = .shut) : s.tillRefusal c meter money = none := by
  have hread : s.tillStateRead c = .opened := by rw [State.tillStateRead, hclosing, hopened]
  have hblocks : (s.lines c).blocks = false := by
    rw [LinePair.blocks]
    rcases hline with h | h <;> rw [h] <;> simp
  rw [State.tillRefusal, if_neg (by simp [meterOk_of_range hlo hhi]), if_neg (by omega), hread, if_neg (by decide),
    if_neg (by decide), hblocks, if_neg Bool.false_ne_true]

/-- The refusals of the till's checks, by their codes. -/
def tillCodes : List ResultCode := [.badRequest, .amountRange, .tillClosed, .tillPaused, .drawerOpen]

theorem readRefusal_code {c : Counter} {money : Nat} {code : ResultCode}
    (h : (if (s.till c).outcome ≠ none then some .outcomePending else s.serviceRefusal money) = some code) :
    code ∉ tillCodes := by
  split at h
  · obtain rfl := Option.some.inj h
    decide
  · intro hmem
    exact serviceRefusal_code h (List.mem_append_left [ResultCode.outcomePending] hmem)

/-- The refusals of a sale's hold claim (R10). -/
theorem holdDecision_of_sale_refused {t : List (Nat × MeterRecord)} {c : Counter} {meter : Nat} {y : Reply}
    (h : tableFind t meter = none ∧ y = ⟨.noMeter, []⟩ ∨
      ∃ slot r, tableFind t meter = some (slot, r) ∧
        (r.status = .retiring ∧ y = ⟨.meterRetired, []⟩ ∨ r.status = .suspended ∧ y = ⟨.meterSuspended, []⟩ ∨
          ∃ mark, r.status = .active ∧ r.refer = some mark ∧ y = ⟨.referOffice, leBytes 1 mark⟩)) :
    holdDecision t (.counter c) meter = .refused y ∧ y.code ∉ tillCodes := by
  rcases h with ⟨hf, rfl⟩ | ⟨slot, r, hf, ⟨hst, rfl⟩ | ⟨hst, rfl⟩ | ⟨mark, hst, hmark, rfl⟩⟩
  · exact ⟨holdDecision_absent _ hf, by decide⟩
  · exact ⟨holdDecision_refused hf (by rw [hst]; rfl), by decide⟩
  · exact ⟨holdDecision_refused hf (by rw [hst]; rfl), by decide⟩
  · refine ⟨holdDecision_refused hf (by rw [hst, hmark]; rfl), ?_⟩
    exact (by decide : ResultCode.referOffice ∉ tillCodes)

/-- What O35 asks of the part once the reply `y` has answered a VEND. -/
def State.vendAnswered (s : State) (c : Counter) (q : Request) (y : Reply) (t : State) : Prop :=
  t.rgi = s.rgi.replyDue (.counter c) q .context y ∧ (t.ctx (.counter c)).state = .replying ∧
    (∀ h, h ≠ .counter c → t.ctx h = s.ctx h) ∧ t.vnc.park = s.vnc.park ∧
    (s.saleRefusal c q.meter q.money = none → t.tlu = s.tlu.outcomeRead c) ∧
    (s.saleRefusal c q.meter q.money = some .outcomePending → t.tlu = s.tlu.outcomeRead c) ∧
    (s.saleRefusal c q.meter q.money = some .tillClosed → t.tlu = s.tlu.stored c) ∧
    (t.tlu = s.tlu.stored c ∨ t.tlu = s.tlu.outcomeRead c) ∧ t = { s with vnc := t.vnc, rgi := t.rgi, tlu := t.tlu }

theorem refused_unread_answered {c : Counter} (q : Request) {code : ResultCode} (y : Reply)
    (h : s.saleRefusal c q.meter q.money = some code) (hcode : code ∈ tillCodes) :
    s.vendAnswered c q y (s.refused (.counter c) q q.sale (s.tlu.stored c) y) := by
  refine ⟨rfl, refused_ctx_state _ _ _ _ _ _, fun k hk => refused_ctx_other s hk _ _ _ _, rfl, fun hn => ?_, fun hp => ?_,
    fun _ => rfl, Or.inl rfl, rfl⟩
  · rw [h] at hn
    exact absurd hn (by simp)
  · rw [h] at hp
    obtain rfl := Option.some.inj hp
    exact absurd hcode (by decide)

theorem refused_read_answered {c : Counter} (q : Request) (y : Reply)
    (h : s.saleRefusal c q.meter q.money ≠ some .tillClosed) :
    s.vendAnswered c q y (s.refused (.counter c) q q.sale (s.tlu.outcomeRead c) y) :=
  ⟨rfl, refused_ctx_state _ _ _ _ _ _, fun _ hk => refused_ctx_other s hk _ _ _ _, rfl, fun _ => rfl, fun _ => rfl,
    fun hc => absurd hc h, Or.inr rfl, rfl⟩

theorem vend_answered {c : Counter} {q : Request} {y : Reply} (hs : s.serving .vend (.counter c) q)
    (hc : (s.ctx (.counter c)).state = .idle) (hclosing : s.tlu.closing.get c = none)
    (hopen : y.code ∉ tillCodes → (s.seenIdle c).outcomeOpen c = none)
    (hy : (∃ code, s.saleRefusal c q.meter q.money = some code ∧ y = ⟨code, []⟩) ∨
      s.saleRefusal c q.meter q.money = none ∧ s.adir.busyOn q.meter = false ∧
        holdDecision s.adir.table (.counter c) q.meter = .refused y ∧ y.code ∉ tillCodes) :
    ∃ t, exec (.vend c) s = .next t ∧ s.vendAnswered c q y t := by
  have hsale := saleRefusal_eq hclosing q.meter q.money
  rcases hy with ⟨code, hcode, rfl⟩ | ⟨hnone, hbusy, hd, hcode⟩
  · cases ht : s.tillRefusal c q.meter q.money with
    | some found =>
      have hfound : found = code := by
        rw [hsale, ht] at hcode
        exact Option.some.inj hcode
      subst hfound
      exact ⟨_, exec_vend_tillRefused hs hc hclosing ht, refused_unread_answered q _ hcode (tillRefusal_code ht)⟩
    | none =>
      have hread := hcode
      rw [hsale, ht, Option.none_or] at hread
      have hnot := readRefusal_code hread
      refine ⟨_, exec_vend_refused hs hc hclosing ht (hopen hnot) hread, refused_read_answered q _ ?_⟩
      rw [hcode]
      rintro hclosed
      obtain rfl := Option.some.inj hclosed
      exact absurd hnot (by decide)
  · obtain ⟨ht, hread⟩ := or_eq_none (hsale.symm.trans hnone)
    refine ⟨_, (exec_vend_passed hs hc hclosing ht (hopen hcode) hread).trans
      (congrArg _ (holdClaim_entered_refused hs _ _ hd hbusy)), refused_read_answered q _ ?_⟩
    rw [hnone]
    simp

/-! ### A removal of the till's outcome that may be under way (R145; log entry 6) -/

theorem outcomeOpen_removing {c : Counter} {o : Outcome} (hr : s.tlu.removing.get c = some o)
    (ht : s.ulc.noneTold = false) : s.outcomeOpen c = some (some o) := by
  simp only [State.outcomeOpen, hr, ht, Bool.false_eq_true, if_false]

/-- The part when a read has shown the removal completed. -/
def State.removalRead (s : State) (c : Counter) : State := { s with tlu := s.tlu.outcomeRead c, draws := s.draws + 1 }

theorem outcomeRead_outcomeRead (t : Tlu) (c : Counter) : (t.outcomeRead c).outcomeRead c = t.outcomeRead c := by
  have hstored := stored_outcomeRead t c
  have hremoving : (t.outcomeRead c).removing.set c none = (t.outcomeRead c).removing := PerCounter.set_set _ _ _ _
  rw [Tlu.outcomeRead, hstored]
  show { t.outcomeRead c with removing := (t.outcomeRead c).removing.set c none } = _
  rw [hremoving]

theorem outcomeReadDone_old {c : Counter} {o : Outcome} (hr : s.tlu.removing.get c = some o)
    (ht : s.ulc.noneTold = false) (hb : s.freeBit = true) : s.outcomeReadDone c = s.drawn := by
  simp only [State.outcomeReadDone, outcomeOpen_removing hr ht, hb, if_true, hr, Option.isSome_some]

theorem outcomeReadDone_new {c : Counter} {o : Outcome} (hr : s.tlu.removing.get c = some o)
    (ht : s.ulc.noneTold = false) (hb : s.freeBit = false) : s.outcomeReadDone c = s.drawn.readOutcome c := by
  simp only [State.outcomeReadDone, outcomeOpen_removing hr ht, hb, Bool.false_eq_true, if_false]

theorem checked_removing {c : Counter} {q : Request} {x : CtxRequest} (hclosing : s.tlu.closing.get c = none)
    (h : s.tillRefusal c x.meter x.money = none) :
    (s.entered (.counter c) q x (s.tlu.stored c)).checked (.counter c) x =
      (s.entered (.counter c) q x (s.tlu.stored c)).outcomeReadDone c := by
  have hsame : (s.entered (.counter c) q x (s.tlu.stored c)).tillRefusal c x.meter x.money = none := h
  have hclose : (s.entered (.counter c) q x (s.tlu.stored c)).tlu.closing.get c = none := hclosing
  simp only [State.checked, hsame, State.tillReadDone, hclose, Option.isSome_none, Bool.false_eq_true, if_false]

/-- A read that finds the old outcome answers OUTCOME_PENDING. -/
theorem exec_vend_pending {c : Counter} {q : Request} {o : Outcome} (hs : s.serving .vend (.counter c) q)
    (hc : (s.ctx (.counter c)).state = .idle) (hclosing : s.tlu.closing.get c = none)
    (ht : s.tillRefusal c q.meter q.money = none) (hr : s.tlu.removing.get c = some o) (hn : s.ulc.noneTold = false)
    (hb : s.freeBit = true) :
    exec (.vend c) s =
      .next (State.refused { s with draws := s.draws + 1 } (.counter c) q q.sale (s.tlu.stored c)
        ⟨.outcomePending, []⟩) := by
  have hseen : (s.seenIdle c).vendRefusal c q.meter q.money = some .outcomePending := by
    rw [vendRefusal_eq (by exact hclosing), show (s.seenIdle c).tillRefusal c q.meter q.money = none from ht,
      State.outcomeSeen, outcomeOpen_removing (s := s.seenIdle c) hr hn]
    simp only [show (s.seenIdle c).freeBit = true from hb, if_true]
    rfl
  rw [exec_vend_idle hs hc, takeInCtx_refused hs hclosing hseen, checked_removing hclosing (by exact ht),
    outcomeReadDone_old (s := s.entered (.counter c) q q.sale (s.tlu.stored c)) hr hn hb]
  exact congrArg _ (ctxReply_entered (s := { s with draws := s.draws + 1 }) hs q.sale (s.tlu.stored c) _)

theorem readOutcome_entered {c : Counter} {q : Request} {x : CtxRequest} :
    (s.entered (.counter c) q x (s.tlu.stored c)).drawn.readOutcome c =
      (s.removalRead c).entered (.counter c) q x ((s.removalRead c).tlu.outcomeRead c) := by
  show { s.entered (.counter c) q x ((s.tlu.stored c).outcomeRead c) with draws := s.draws + 1 } = _
  rw [outcomeRead_stored, ← outcomeRead_outcomeRead]
  rfl

/-- A read that finds the removal completed goes on as if it had been. -/
theorem exec_vend_removed {c : Counter} {q : Request} {o : Outcome} (hs : s.serving .vend (.counter c) q)
    (hc : (s.ctx (.counter c)).state = .idle) (hclosing : s.tlu.closing.get c = none)
    (ht : s.tillRefusal c q.meter q.money = none) (hr : s.tlu.removing.get c = some o) (hn : s.ulc.noneTold = false)
    (hb : s.freeBit = false) : exec (.vend c) s = exec (.vend c) (s.removalRead c) := by
  have hseen : (s.seenIdle c).vendRefusal c q.meter q.money =
      if (s.till c).outcome ≠ none then some .outcomePending else s.serviceRefusal q.money := by
    rw [vendRefusal_eq (by exact hclosing), show (s.seenIdle c).tillRefusal c q.meter q.money = none from ht,
      State.outcomeSeen, outcomeOpen_removing (s := s.seenIdle c) hr hn]
    simp only [show (s.seenIdle c).freeBit = false from hb, Bool.false_eq_true, if_false, Option.none_or,
      show (s.seenIdle c).till c = s.till c from rfl,
      show (s.seenIdle c).serviceRefusal q.money = s.serviceRefusal q.money from rfl]
    cases (s.till c).outcome with
    | none => rfl
    | some o => simp
  have hclosing' : (s.removalRead c).tlu.closing.get c = none := hclosing
  have hread : (s.removalRead c).tillStateRead c = s.tillStateRead c := by
    simp only [State.tillStateRead, hclosing, hclosing']
    rfl
  have ht' : (s.removalRead c).tillRefusal c q.meter q.money = none := by
    rw [State.tillRefusal, hread]
    exact ht
  have hgone : (s.removalRead c).tlu.removing.get c = none := PerCounter.get_set_self _ c _
  have hopen := outcomeOpen_seenIdle (s := s.removalRead c) (c := c) (Or.inl hgone)
  have hchecked := (checked_removing (q := q) (x := q.sale) hclosing (by exact ht)).trans
    ((outcomeReadDone_new (s := s.entered (.counter c) q q.sale (s.tlu.stored c)) hr hn hb).trans readOutcome_entered)
  cases h : (if (s.till c).outcome ≠ none then some .outcomePending else s.serviceRefusal q.money) with
  | some code =>
    rw [exec_vend_idle hs hc, takeInCtx_refused hs hclosing (hseen.trans h), hchecked,
      exec_vend_refused (s := s.removalRead c) hs hc hclosing' ht' hopen h, ctxReply_entered (s := s.removalRead c) hs]
    rfl
  | none =>
    rw [exec_vend_idle hs hc, takeInCtx_passed hs hclosing (hseen.trans h), hchecked,
      exec_vend_passed (s := s.removalRead c) hs hc hclosing' ht' hopen h]

end Sys2Proof.Machine

namespace Sys2Proof.Proofs

open Sys2Proof Sys2Proof.Machine

/-- Settles O35: the checks before that of the outcome, that of the outcome, and those behind it with the hold claim. -/
theorem theFirstFailedTakeCheckAnswersAVend : Obligations.TheFirstFailedTakeCheckAnswersAVend := by
  refine ⟨fun s c q y hs hc hclosing hopen hy => ?_, fun s c q o hs hc hclosing hr hn hlo hhi hmlo hmhi ho hl => ?_⟩
  · refine vend_answered hs hc hclosing (fun hcode => outcomeOpen_seenIdle ?_) ?_
    · rcases hopen with h | h | h
      · exact Or.inl h
      · exact Or.inr h
      · exact absurd h hcode
    · exact hy.imp_right fun ⟨hnone, hbusy, htable⟩ => ⟨hnone, hbusy, holdDecision_of_sale_refused htable⟩
  · have ht := tillRefusal_eq_none hclosing hlo hhi hmlo hmhi ho hl
    cases hb : s.freeBit with
    | true =>
      exact ⟨_, exec_vend_pending hs hc hclosing ht hr hn hb, Or.inl ⟨rfl, refused_ctx_state _ _ _ _ _ _, rfl⟩⟩
    | false =>
      obtain ⟨t, hexec⟩ := exec_next_of_wf (c := .vend c) (s.removalRead c) rfl
      exact ⟨t, (exec_vend_removed hs hc hclosing ht hr hn hb).trans hexec, Or.inr hexec⟩

end Sys2Proof.Proofs
end

section
/-! PROOF. Hold claims granted and parked, the commands that meet a waiting hold claim, and the office's issues (R2, R10,
R98, R108, R129 to R131). -/

namespace Sys2Proof.Machine

variable {s : State}

/-! ### Commands that meet a waiting hold claim (R2; log entry 5) -/

/-- A served request whose owner does the same with the claim parked. -/
theorem serve_parks {k : ReqKind} {r : Holder} {q : Request} {x : HoldWait} {slot : Nat} {other : Holder}
    (f : Request → State → State × ReplyOwner × Reply) (hs : s.serving k r q)
    (hf : f q (s.taken q true) = f q ((s.taken q true).parkWaiting x slot other)) :
    s.serve k r f = (s.parkWaiting x slot other).serve k r f := by
  obtain ⟨-, hwaiting, -⟩ := hs
  have hwaiting' : (s.parkWaiting x slot other).waiting k r = some (q, true) := hwaiting
  have htaken : (s.parkWaiting x slot other).taken q true = (s.taken q true).parkWaiting x slot other := rfl
  simp only [State.serve, hwaiting, hwaiting', htaken, hf]

theorem claimMeter_taken_parks {q : Request} {x : HoldWait} {slot : Nat} {other : Holder} (hw : s.adir.waiting = [x])
    (ha : x.answer = .busy slot other) (hstop : (s.ctx x.holder).stop = none) (hm : q.meter = x.meter) :
    (s.taken q true).claimMeter q.meter = ((s.taken q true).parkWaiting x slot other).claimMeter q.meter := by
  rw [hm]
  exact claimMeter_parks (s.taken q true) x slot other hw ha hstop

/-- A decision on an instruction of ADIR's made after its claim. -/
theorem ownerTakes_parks {k : LineKind} {i : LineInstr} {d : Bool} {x : HoldWait} {slot : Nat} {other : Holder}
    (f : LineInstr → State → State) (hd : s.dispatches k i d) (hf : f i s = f i (s.parkWaiting x slot other)) :
    ownerTakes k f s = ownerTakes k f (s.parkWaiting x slot other) := by
  obtain ⟨hin, hdisp, hkind⟩ := hd
  have hin' : (s.parkWaiting x slot other).inService = true := hin
  have hdisp' : (s.parkWaiting x slot other).ulc.dispatched = some ⟨i, .waiting, d⟩ := hdisp
  rw [ownerTakes, ownerTakes, whenInService_of_inService _ hin, whenInService_of_inService _ hin']
  simp only [State.dispatchedIf, hdisp, hdisp', hkind, if_true, hf]

/-- A claim that parks first is taken as with the claim parked. -/
theorem exec_claims_parks {x : HoldWait} {slot : Nat} {other : Holder} {command : Instr} (hin : s.inService = true)
    (hw : s.adir.waiting = [x]) (ha : x.answer = .busy slot other) (hstop : (s.ctx x.holder).stop = none)
    (hc : s.claims command x.meter) : exec command s = exec command (s.parkWaiting x slot other) := by
  have hin' : (s.parkWaiting x slot other).inService = true := hin
  have hclaim := claimMeter_parks s x slot other hw ha hstop
  rcases hc with ⟨q, hm, hq⟩ | ⟨i, d, k, hm, hd, hk⟩ | ⟨rfl, hwants, w, hwrites, hnum, hlo, hhi⟩
  · have htaken := claimMeter_taken_parks (q := q) hw ha hstop hm
    rcases hq with ⟨r, rfl, hs⟩ | ⟨c, rfl, hs, hlo, hhi, hmlo, hmhi⟩ | ⟨c, rfl, hs⟩ | ⟨rfl, hs, hlo, hhi⟩ | ⟨rfl, hs⟩
    · show execLookup r s = execLookup r (s.parkWaiting x slot other)
      rw [execLookup, execLookup, whenInService_of_inService _ hin, whenInService_of_inService _ hin']
      exact congrArg _ (serve_parks _ hs (by rw [htaken]; rfl))
    · show execQuote c s = execQuote c (s.parkWaiting x slot other)
      rw [execQuote, execQuote, whenInService_of_inService _ hin, whenInService_of_inService _ hin']
      refine congrArg _ (serve_parks _ hs ?_)
      have hrange : quoteInRange q.meter q.money = true := by
        rw [quoteInRange, hm, meterOk_of_range hlo hhi, decide_eq_true hmlo, decide_eq_true hmhi]
        rfl
      rw [if_pos hrange, if_pos hrange, htaken]
      rfl
    · show execReprint c s = execReprint c (s.parkWaiting x slot other)
      rw [execReprint, execReprint, whenInService_of_inService _ hin, whenInService_of_inService _ hin']
      exact congrArg _ (serve_parks _ hs (by rw [htaken]; rfl))
    · show execReferSet s = execReferSet (s.parkWaiting x slot other)
      rw [execReferSet, execReferSet, whenInService_of_inService _ hin, whenInService_of_inService _ hin']
      refine congrArg _ (serve_parks _ hs ?_)
      have hcode : ¬(leNat (slice q.area 5 2) < 1 ∨ 255 < leNat (slice q.area 5 2)) := by omega
      dsimp only
      rw [if_neg hcode, if_neg hcode, htaken]
      rfl
    · show execReferClear s = execReferClear (s.parkWaiting x slot other)
      rw [execReferClear, execReferClear, whenInService_of_inService _ hin, whenInService_of_inService _ hin']
      exact congrArg _ (serve_parks _ hs (by rw [htaken]; rfl))
  · rw [← hm] at hclaim
    simp only [List.mem_cons, List.not_mem_nil, or_false, Prod.mk.injEq] at hk
    rcases hk with ⟨rfl, rfl⟩ | ⟨rfl, rfl⟩ | ⟨rfl, rfl⟩ | ⟨rfl, rfl⟩
    · show execEnrol s = execEnrol (s.parkWaiting x slot other)
      refine ownerTakes_parks _ hd ?_
      dsimp only
      rw [hclaim]
    · show execAmend s = execAmend (s.parkWaiting x slot other)
      refine ownerTakes_parks _ hd ?_
      dsimp only
      rw [hclaim]
    · show execRetire s = execRetire (s.parkWaiting x slot other)
      refine ownerTakes_parks _ hd ?_
      dsimp only
      rw [hclaim]
      rfl
    · show execKeyroll s = execKeyroll (s.parkWaiting x slot other)
      refine ownerTakes_parks _ hd ?_
      dsimp only
      rw [hclaim]
  · have hwants' : (s.parkWaiting x slot other).ulc.sweep.wantsPage = true := hwants
    show execSweepPageBegin s = execSweepPageBegin (s.parkWaiting x slot other)
    rw [execSweepPageBegin, execSweepPageBegin, whenInService_of_inService _ hin, whenInService_of_inService _ hin',
      if_pos hwants, if_pos hwants']
    have hrange := claimRange_parks s s.ulc.sweep.next
      (pageAfter s.adir.table s.ulc.sweep.next s.ulc.sweep.remaining) x slot other hw ha hstop (by
        rw [List.any_eq_true]
        exact ⟨w, hwrites, by simp [hnum, hlo, hhi]⟩)
    rw [State.beginPage, hrange]
    rfl

theorem claims_wf {command : Instr} {meter : Nat} (h : s.claims command meter) : command.wf = true := by
  rcases h with ⟨q, -, ⟨r, rfl, -⟩ | ⟨c, rfl, -⟩ | ⟨c, rfl, -⟩ | ⟨rfl, -⟩ | ⟨rfl, -⟩⟩ | ⟨i, d, k, -, -, hk⟩ | ⟨rfl, -⟩
  case inr.inl =>
    simp only [List.mem_cons, List.not_mem_nil, or_false, Prod.mk.injEq] at hk
    rcases hk with ⟨-, rfl⟩ | ⟨-, rfl⟩ | ⟨-, rfl⟩ | ⟨-, rfl⟩ <;> rfl
  all_goals rfl

/-! ### A hold granted, or the claim parked (R10, R98, R108) -/

/-- A context that has taken a request and holds its free record. -/
theorem holdClaim_entered_granted {h : Holder} {q : Request} {x : CtxRequest} {tlu : Tlu} {slot meter : Nat}
    {r : MeterRecord} (hd : holdDecision s.adir.table h meter = .granted slot r) :
    let t := (s.entered h q x tlu).holdClaim h meter
    t.adir.table = tableSet s.adir.table slot { r with hold := some h } ∧ (t.ctx h).state = .issuing ∧
      (t.ctx h).request = some x ∧ (t.ctx h).slot = some slot ∧ (t.ctx h).view = some (r.view slot) ∧
      (∀ k, k ≠ h → t.ctx k = s.ctx k) ∧ t.vnc.park = s.vnc.park ∧ t.rgi = s.rgi.atOwner h q ∧
      t = { s with adir := t.adir, vnc := t.vnc, rgi := t.rgi, tlu := tlu } := by
  have hctx (k : Holder) := ctx_mapCtx ((((s.entered h q x tlu).putRecord slot { r with hold := some h }).beginWrite
    .grant h slot r)) h k fun y =>
      { y with
        state := .issuing, slot := some slot, view := some (MeterRecord.view { r with hold := some h } slot)
        await := .grant }
  have hown : ((((s.entered h q x tlu).putRecord slot { r with hold := some h }).beginWrite .grant h slot r).ctx h) =
      { Ctx.idle with state := .issuing, request := some x, attached := true } :=
    (entered_ctx s h h q x tlu).trans (if_pos rfl)
  intro t
  have ht : t = (((s.entered h q x tlu).putRecord slot { r with hold := some h }).beginWrite .grant h slot r).mapCtx h
      fun y =>
        { y with
          state := .issuing, slot := some slot, view := some (MeterRecord.view { r with hold := some h } slot)
          await := .grant } := holdClaim_granted (s := s.entered h q x tlu) hd
  have hctxh := (hctx h).trans (if_pos rfl)
  rw [hown] at hctxh
  rw [ht]
  refine ⟨rfl, congrArg Ctx.state hctxh, congrArg Ctx.request hctxh, congrArg Ctx.slot hctxh, congrArg Ctx.view hctxh,
    fun k hk => ?_, rfl, rfl, rfl⟩
  exact (hctx k).trans ((if_neg hk).trans ((entered_ctx s h k q x tlu).trans (if_neg hk)))

/-- A context that has taken a request and parks behind the holder of its record. -/
theorem holdClaim_entered_parked {h other : Holder} {q : Request} {x : CtxRequest} {tlu : Tlu} {slot meter : Nat}
    (hd : holdDecision s.adir.table h meter = .busy slot other) (hbusy : s.adir.busyOn meter = false) :
    let t := (s.entered h q x tlu).holdClaim h meter
    t.adir = s.adir ∧ (t.ctx h).state = .parked ∧ (t.ctx h).request = some x ∧ (t.ctx h).slot = some slot ∧
      (∀ k, k ≠ h → t.ctx k = s.ctx k) ∧ t.vnc.park = s.vnc.park ++ [⟨h, slot, s.tke.now, other⟩] ∧
      t.rgi = s.rgi.atOwner h q ∧ t = { s with adir := t.adir, vnc := t.vnc, rgi := t.rgi, tlu := tlu } := by
  have hsame : (s.entered h q x tlu).adir = s.adir := rfl
  have hctx (k : Holder) := ctx_mapCtx (s.entered h q x tlu) h k fun y =>
    { y with state := .parked, slot := some slot, await := .nothing }
  intro t
  have ht : t = ((s.entered h q x tlu).mapCtx h fun y =>
      { y with state := .parked, slot := some slot, await := .nothing }).mapVnc fun v =>
        { v with park := v.park ++ [⟨h, slot, s.tke.now, other⟩] } := by
    have hat := holdClaim_at_once (s := s.entered h q x tlu) (h := h) (meter := meter)
      (by rw [hsame, hd]; simp) hbusy
    rw [hsame, hd] at hat
    exact hat.trans (holdAnswered_busy (entered_stop s h q x tlu) slot other)
  have hctxh := (hctx h).trans (if_pos rfl)
  rw [entered_ctx, if_pos rfl] at hctxh
  rw [ht]
  refine ⟨rfl, congrArg Ctx.state hctxh, congrArg Ctx.request hctxh, congrArg Ctx.slot hctxh, fun k hk => ?_, rfl, rfl,
    rfl⟩
  exact (hctx k).trans ((if_neg hk).trans ((entered_ctx s h k q x tlu).trans (if_neg hk)))

/-- A context that has taken a request and waits for the writes of a held record. -/
theorem holdClaim_entered_waits {h other : Holder} {q : Request} {x : CtxRequest} {tlu : Tlu} {slot meter : Nat}
    (hd : holdDecision s.adir.table h meter = .busy slot other) (hbusy : s.adir.busyOn meter = true) :
    let t := (s.entered h q x tlu).holdClaim h meter
    t.adir = { s.adir with waiting := s.adir.waiting ++
        [⟨h, meter, (s.adir.writes.filter fun w => decide (w.old.number = meter)).length, .busy slot other⟩] } ∧
      (t.ctx h).state = .issuing ∧ (t.ctx h).await = .hold ∧ (t.ctx h).request = some x ∧
      (∀ k, k ≠ h → t.ctx k = s.ctx k) ∧ t.vnc.park = s.vnc.park ∧ t.rgi = s.rgi.atOwner h q ∧
      t = { s with adir := t.adir, vnc := t.vnc, rgi := t.rgi, tlu := tlu } := by
  have hsame : (s.entered h q x tlu).adir = s.adir := rfl
  have hctx (k : Holder) := ctx_mapCtx (s.entered h q x tlu) h k fun y => { y with await := .hold }
  intro t
  have ht : t = ((s.entered h q x tlu).mapCtx h fun y => { y with await := .hold }).mapAdir fun d =>
      { d with waiting := d.waiting ++ [⟨h, meter, (d.writesOn meter).length, .busy slot other⟩] } := by
    have hwaits := holdClaim_waits (s := s.entered h q x tlu) (h := h) (meter := meter) (by rw [hsame, hd]; simp) hbusy
    rw [hsame, hd] at hwaits
    exact hwaits
  have hctxh := (hctx h).trans (if_pos rfl)
  rw [entered_ctx, if_pos rfl] at hctxh
  rw [ht]
  refine ⟨rfl, congrArg Ctx.state hctxh, congrArg Ctx.await hctxh, congrArg Ctx.request hctxh, fun k hk => ?_, rfl, rfl,
    rfl⟩
  exact (hctx k).trans ((if_neg hk).trans ((entered_ctx s h k q x tlu).trans (if_neg hk)))

/-! ### The office's issues (R129 to R131) -/

/-- The office's request that a command takes, with its task (R129, 11.4). -/
inductive officeTakes (s : State) (q : Request) : Instr → Task → Prop
  | keyroll : s.serving .keyrollOnly .office q → officeTakes s q .keyrollOnly .keyrollOnly
  | clearTamper : s.serving .engineer .office q → byteAt q.area 5 = 2 → officeTakes s q .engineer .clearTamper
  | setLimit : s.serving .engineer .office q → byteAt q.area 5 = 3 → leNat (slice q.area 6 4) ≤ 65535 →
      officeTakes s q .engineer (.setLimit (leNat (slice q.area 6 4)))

theorem takeInCtx_office {q : Request} {x : CtxRequest} {k : ReqKind} (hs : s.serving k .office q)
    (hclock : s.tke.clockValid = true) (hm : meterOk x.meter = true) :
    (s.taken q true).takeInCtx .office x true false = (s.entered .office q x s.tlu).holdClaim .office x.meter := by
  have hpass : s.officeRefusal x.meter = none := by
    rw [State.officeRefusal, if_neg (by simp [hm]), if_neg (by simp [hclock])]
  rw [taken_serving hs, State.takeInCtx]
  simp only [Bool.false_eq_true, if_false]
  rw [show (({ s with rgi := s.rgi.atOwner .office q } : State).idleSeen .office).takeRefusal .office x = none from hpass]
  rfl

theorem exec_officeTakes {q : Request} {command : Instr} {task : Task} (h : officeTakes s q command task)
    (hc : (s.ctx .office).state = .idle) (hclock : s.tke.clockValid = true) (hm : meterOk q.meter = true) :
    exec command s = .next ((s.entered .office q ⟨q.tag, q.meter, 0, task⟩ s.tlu).holdClaim .office q.meter) := by
  cases h with
  | keyroll hs =>
    show execKeyrollOnly s = _
    rw [execKeyrollOnly, whenInService_of_inService _ hs.1, serveInCtx_idle _ hs hc, takeInCtx_office hs hclock hm]
  | clearTamper hs hkind =>
    have hread : q.engineering = (⟨q.tag, q.meter, 0, .clearTamper⟩, false) := if_pos hkind
    show execEngineer s = _
    rw [execEngineer, whenInService_of_inService _ hs.1, serveInCtx_idle _ hs hc, hread, takeInCtx_office hs hclock hm]
  | setLimit hs hkind hlimit =>
    have hread : q.engineering = (⟨q.tag, q.meter, 0, .setLimit (leNat (slice q.area 6 4))⟩, false) := by
      have hok : (decide (byteAt q.area 5 ≠ 3) || decide (65535 < leNat (slice q.area 6 4))) = false := by
        rw [hkind, show decide (65535 < leNat (slice q.area 6 4)) = false from decide_eq_false (by omega)]
        rfl
      rw [Request.engineering, if_neg (by rw [hkind]; decide), hok]
    show execEngineer s = _
    rw [execEngineer, whenInService_of_inService _ hs.1, serveInCtx_idle _ hs hc, hread, takeInCtx_office hs hclock hm]

/-! ### A record write with no claim behind it (R2) -/

theorem countDown_of_none {a : Adir} {meter : Nat} (h : ∀ x ∈ a.waiting, x.meter ≠ meter) : a.countDown meter = a := by
  have hwaiting : (a.waiting.filterMap fun x =>
      if x.meter = meter then (if x.behind ≤ 1 then none else some { x with behind := x.behind - 1 }) else some x) =
        a.waiting := by
    rw [List.filterMap_congr (g := some) fun x hx => if_neg (h x hx), List.filterMap_some]
  rw [Adir.countDown, hwaiting]

theorem dueOn_of_none {a : Adir} {meter : Nat} (h : ∀ x ∈ a.waiting, x.meter ≠ meter) : a.dueOn meter = [] := by
  rw [Adir.dueOn, List.filter_eq_nil_iff]
  intro x hx
  simp [h x hx]

theorem finishWrite_alone {p : RecordWrite → Bool} {w : RecordWrite} (h : s.noneWaits w) :
    s.finishWrite p w = s.endWrite p := by
  have hnone : ∀ x ∈ (s.endWrite p).adir.waiting, x.meter ≠ w.old.number := h
  have hsame : (s.endWrite p).mapAdir (fun a => a.countDown w.old.number) = s.endWrite p := by
    show { s.endWrite p with adir := (s.endWrite p).adir.countDown w.old.number } = _
    rw [countDown_of_none hnone]
  rw [State.finishWrite, State.answerWaiting, dueOn_of_none hnone, hsame]
  rfl

/-- An office issue under the hold, with the engine WORKING on other jobs: its tokens join the queue (R130, R131, R103). -/
theorem issueOffice_queued {q : CtxRequest} {v : RecordView} {plan : List PlannedToken} {stamps : List Nat}
    (hplan : officePlan q.task v.rollGeneration = some plan)
    (hstamps : s.tke.stampDecision v.lastStamp plan.length = .stamped stamps) (heng : s.tke.engine = .working)
    (hbusy : s.tke.busyWith .office = false) :
    s.issueOffice q v =
      (s.mapCtx .office fun x => { x with plan := plan, stamps := stamps, await := .tokens }).mapTke fun k =>
        { k with queue := k.queue ++ jobsOf .office q.meter plan stamps } := by
  have hsubmit : s.tke.submitDecision .office = .queued := by
    rw [Tke.submitDecision, if_neg (by rw [heng]; decide), if_neg (by rw [hbusy]; exact Bool.false_ne_true)]
  simp only [State.issueOffice, hplan, hstamps, State.submit, mapCtx_tke, hsubmit, mapCtx_mapCtx]
  rw [State.queueJobs, if_neg (by rw [mapCtx_tke, heng]; decide)]

/-- A storing row whose arm comes to `t`, with every till as it was: the row is that state. -/
theorem whenStoring_to {f : State → State} {t : State} (hin : s.inService = true) (hf : f s = t)
    (htills : t.tlu.tills = s.tlu.tills) : whenStoring f s = .next t := by
  rw [whenStoring_of_tills s f hin (by rw [hf]; exact htills), hf]

/-- A grant of `h`'s hold written as `w`: the holder proceeds, or ends when it is stopped. -/
def State.grantWritten (s : State) (h : Holder) (w : RecordWrite) : State :=
  let t := s.finishWrite (isGrantOf h) w
  (if (t.ctx h).stop.isSome then t.endStopped h else t.proceed h).pumpFloat

/-- HOLD_GRANT_DONE of a holder whose grant is due, with every till kept. -/
theorem exec_holdGrantDone_due {h : Holder} {w : RecordWrite} (hin : s.inService = true)
    (hdue : s.dueWrite (isGrantOf h) = some w) (htills : (s.grantWritten h w).tlu.tills = s.tlu.tills) :
    exec (.holdGrantDone h) s = .next (s.grantWritten h w) := by
  show execHoldGrantDone h s = _
  rw [execHoldGrantDone]
  exact whenStoring_to hin (by simp only [hdue]; rfl) htills

/-- A grant written that no claim waited on, to a holder that is not stopped: the holder proceeds. -/
theorem grantWritten_proceeds {h : Holder} {w : RecordWrite} (hnone : s.noneWaits w)
    (hstop : (s.ctx h).stop = none) :
    s.grantWritten h w = ((s.endWrite (isGrantOf h)).proceed h).pumpFloat := by
  have hstop' : ¬ ((s.endWrite (isGrantOf h)).ctx h).stop.isSome = true := by
    rw [show ((s.endWrite (isGrantOf h)).ctx h).stop = none from hstop]
    exact Bool.false_ne_true
  rw [State.grantWritten, finishWrite_alone hnone]
  exact congrArg State.pumpFloat (if_neg hstop')

/-- The grant of the office's hold done, with the context not stopped: the issue's tokens join the queue. -/
theorem exec_holdGrantDone_proceeds {w : RecordWrite} {q : CtxRequest} {v : RecordView} {plan : List PlannedToken}
    {stamps : List Nat} (hin : s.inService = true) (hdue : s.dueWrite (isGrantOf .office) = some w)
    (hnone : s.noneWaits w) (hstop : (s.ctx .office).stop = none) (hreq : (s.ctx .office).request = some q)
    (hview : (s.ctx .office).view = some v) (hplan : officePlan q.task v.rollGeneration = some plan)
    (hstamps : s.tke.stampDecision v.lastStamp plan.length = .stamped stamps) (heng : s.tke.engine = .working)
    (hbusy : s.tke.busyWith .office = false) (hqueue : s.flu.queue = []) :
    exec (.holdGrantDone .office) s =
      .next (((s.endWrite (isGrantOf .office)).mapCtx .office fun x =>
        { x with plan := plan, stamps := stamps, await := .tokens }).mapTke fun k =>
          { k with queue := k.queue ++ jobsOf .office q.meter plan stamps }) := by
  have hproceed : (s.endWrite (isGrantOf .office)).proceed .office =
      (s.endWrite (isGrantOf .office)).issueOffice q v := by
    simp only [State.proceed, show ((s.endWrite (isGrantOf .office)).ctx .office).request = some q from hreq,
      show ((s.endWrite (isGrantOf .office)).ctx .office).view = some v from hview]
  have hdone : s.grantWritten .office w = ((s.endWrite (isGrantOf .office)).mapCtx .office fun x =>
      { x with plan := plan, stamps := stamps, await := .tokens }).mapTke fun k =>
        { k with queue := k.queue ++ jobsOf .office q.meter plan stamps } := by
    rw [grantWritten_proceeds hnone hstop, hproceed,
      issueOffice_queued (s := s.endWrite (isGrantOf .office)) hplan hstamps heng hbusy]
    exact pumpFloat_empty _ hqueue
  rw [exec_holdGrantDone_due hin hdue (by rw [hdone]; rfl), hdone]

end Sys2Proof.Machine

namespace Sys2Proof.Proofs

open Sys2Proof Sys2Proof.Machine

/-- Settles O34: the take checks pass, the hold claim is granted, parks or waits; and a later claim parks it first. -/
theorem aTakenSaleClaimsTheHold : Obligations.ATakenSaleClaimsTheHold := by
  refine ⟨fun s c q slot rec hs hc hlo hhi hmlo hmhi hclosing hremoving hopened hout hline hmode hlink hclock hmonth hf
    hactive hrefer => ?_, fun s x slot other command hin hw ha hstop hclaims => ?_⟩
  · have hsale := saleRefusal_eq_none hlo hhi hmlo hmhi hopened hout hline hmode hlink hclock hmonth
    obtain ⟨htill, hread⟩ := or_eq_none ((saleRefusal_eq hclosing q.meter q.money).symm.trans hsale)
    have hcheck : checkRecord (.counter c) rec.status rec.refer = none := by rw [hactive, hrefer]; rfl
    have hnow : s.tke.now = s.tke.minute := if_pos hclock
    rw [exec_vend_passed hs hc hclosing htill (outcomeOpen_seenIdle hremoving) hread]
    refine ⟨_, rfl, ?_⟩
    cases hh : rec.hold with
    | none =>
      obtain ⟨htable, hstate, hreq, hslot, hview, hothers, hpark, hrgi, honly⟩ := holdClaim_entered_granted
        (q := q) (x := q.sale) (tlu := s.tlu.outcomeRead c) (holdDecision_free hf hcheck hh)
      exact ⟨hrgi, hothers, hreq, fun _ => ⟨htable, hstate, hslot, hview, hpark⟩, fun o h => absurd h (by simp),
        fun o h => absurd h (by simp), honly⟩
    | some other =>
      have hd := holdDecision_held hf hcheck hh
      cases hbusy : s.adir.busyOn q.meter with
      | false =>
        obtain ⟨hadir, hstate, hreq, hslot, hothers, hpark, hrgi, honly⟩ := holdClaim_entered_parked
          (q := q) (x := q.sale) (tlu := s.tlu.outcomeRead c) hd hbusy
        refine ⟨hrgi, hothers, hreq, fun h => absurd h (by simp), fun o ho _ => ?_, fun _ _ h => absurd h (by simp), honly⟩
        obtain rfl := Option.some.inj ho
        rw [hnow] at hpark
        exact ⟨hadir, hstate, hslot, hpark⟩
      | true =>
        obtain ⟨hadir, hstate, hawait, hreq, hothers, hpark, hrgi, honly⟩ := holdClaim_entered_waits
          (q := q) (x := q.sale) (tlu := s.tlu.outcomeRead c) hd hbusy
        refine ⟨hrgi, hothers, hreq, fun h => absurd h (by simp), fun _ _ h => absurd h (by simp), fun o ho _ => ?_, honly⟩
        obtain rfl := Option.some.inj ho
        exact ⟨hadir, hstate, hawait, hpark⟩
  · have hparks := exec_claims_parks hin hw ha hstop hclaims
    exact ⟨exec_next_of_wf s (claims_wf hclaims), hparks⟩

/-- Settles O36: the office's hold claim is granted, and under the hold its tokens join the engine's queue. -/
theorem anOfficeIssueHoldsThenSubmits : Obligations.AnOfficeIssueHoldsThenSubmits := by
  refine ⟨fun s q slot rec task command hcommand hc hlo hhi hclock hf hstatus hfree => ?_,
    fun s w q v plan stamps hin hdue hnone hstop hreq hview hqueue hplan hstamps heng hbusy => ?_⟩
  · have htakes : officeTakes s q command task := by
      rcases hcommand with ⟨rfl, hs, rfl⟩ | ⟨rfl, hs, hkind, rfl⟩ | ⟨rfl, hs, hkind, hlimit, rfl⟩
      · exact .keyroll hs
      · exact .clearTamper hs hkind
      · exact .setLimit hs hkind hlimit
    rw [exec_officeTakes htakes hc hclock (meterOk_of_range hlo hhi)]
    obtain ⟨htable, hstate, hrequest, hslot, hrecord, hothers, hpark, hrgi, honly⟩ := holdClaim_entered_granted
      (q := q) (x := ⟨q.tag, q.meter, 0, task⟩) (tlu := s.tlu)
      (holdDecision_free hf (checkRecord_office rec.refer hstatus) hfree)
    exact ⟨_, rfl, htable, hrgi, hstate, hrequest, hslot, hrecord, hothers, hpark, honly⟩
  · have hofficeplan : officePlan q.task v.rollGeneration = some plan := by
      rcases hplan with ⟨htask, g, hroll, rfl⟩ | ⟨htask, rfl⟩ | ⟨watts, htask, rfl⟩
      · rw [htask, hroll]; rfl
      · rw [htask]; rfl
      · rw [htask]; rfl
    rw [exec_holdGrantDone_proceeds hin hdue hnone hstop hreq hview hofficeplan hstamps heng hbusy hqueue]
    refine ⟨_, rfl, rfl, ?_, rfl, rfl⟩
    exact (ctx_mapCtx (s.endWrite (isGrantOf .office)) .office .office fun x =>
      { x with plan := plan, stamps := stamps, await := .tokens }).trans (if_pos rfl)

end Sys2Proof.Proofs
end

section
/-! PROOF. A request that its owner answers at once, and the record decisions of ADIR behind a claim that no hold waits for
(R2, R27, R28, R119); the statement on QUOTE, REPRINT and REFER. -/

namespace Sys2Proof.Machine

variable {s : State}

/-! ### A request served in one step (R189, R190) -/

/-- A served request whose owner comes to `u` and leaves RGI alone: `u` with the reply waiting for the bus. -/
theorem whenInService_serve {k : ReqKind} {r : Holder} {q : Request}
    {f : Request → State → State × ReplyOwner × Reply} {u : State} {owner : ReplyOwner} {reply : Reply}
    (h : s.serving k r q) (hf : f q (s.taken q true) = (u, owner, reply)) (hrgi : u.rgi = (s.taken q true).rgi) :
    whenInService (fun s => s.serve k r f) s = .next { u with rgi := s.rgi.replyDue r q owner reply } := by
  rw [whenInService_of_inService _ h.1, serve_serving s k r q f h (by rw [hf]; exact hrgi), hf]

/-- A served request that its owner answers and that changes nothing else. -/
theorem whenInService_serve_answered {k : ReqKind} {r : Holder} {q : Request}
    {f : Request → State → State × ReplyOwner × Reply} {reply : Reply}
    (h : s.serving k r q) (hf : f q (s.taken q true) = (s.taken q true, .nobody, reply)) :
    whenInService (fun s => s.serve k r f) s = .next { s with rgi := s.rgi.replyDue r q .nobody reply } := by
  rw [whenInService_serve h hf rfl]
  rfl

/-! ### A record decision behind its claim (R2) -/

/-- What ADIR decides on a meter's record is written behind the claim on it, with no hold claim waiting. -/
def State.decided (s : State) (meter : Nat) (d : Option (Nat × MeterRecord)) : State := (s.settleMeter meter).putDecided d

/-- A decision changes ADIR alone. -/
theorem decided_only (m : Nat) (d : Option (Nat × MeterRecord)) :
    s.decided m d = { s with adir := (s.decided m d).adir } := by
  cases d <;> rfl

theorem decided_none_table (m : Nat) : (s.decided m none).adir.table = s.adir.table := rfl

theorem decided_some_table (m slot : Nat) (r : MeterRecord) :
    (s.decided m (some (slot, r))).adir.table = tableSet s.adir.table slot r := rfl

/-- A served request that is answered by a decision on the record of its meter. -/
theorem whenInService_serve_decided {k : ReqKind} {r : Holder} {q : Request}
    {f : Request → State → State × ReplyOwner × Reply} {d : Reply × Option (Nat × MeterRecord)}
    (h : s.serving k r q) (hnone : s.noneWaitsFor q.meter)
    (hf : f q (s.taken q true) = (((s.taken q true).claimMeter q.meter).putDecided d.2, .nobody, d.1)) :
    whenInService (fun s => s.serve k r f) s =
      .next { s with adir := (s.decided q.meter d.2).adir, rgi := s.rgi.replyDue r q .nobody d.1 } := by
  have hclaim : (s.taken q true).claimMeter q.meter = (s.taken q true).settleMeter q.meter :=
    claimMeter_of_none (s.taken q true) q.meter hnone
  rw [hclaim] at hf
  rw [whenInService_serve h hf (by simp)]
  cases d.2 <;> rfl

/-! ### The decisions (R27, R28, R119) -/

theorem reprintDecision_unknown {t : List (Nat × MeterRecord)} {m : Nat} (hm : meterOk m = true)
    (h : tableFind t m = none) : reprintDecision t m = (⟨.noMeter, []⟩, none) := by
  simp [reprintDecision, hm, h, Reply.plain]

theorem reprintDecision_uncopied {t : List (Nat × MeterRecord)} {m slot : Nat} {r : MeterRecord} (hm : meterOk m = true)
    (h : tableFind t m = some (slot, r)) (hcopy : r.copy = none) :
    reprintDecision t m = (⟨.notPermitted, []⟩, none) := by
  simp [reprintDecision, hm, h, hcopy, Reply.plain]

theorem reprintDecision_copied {t : List (Nat × MeterRecord)} {m slot : Nat} {r : MeterRecord} {k : VendCopy}
    (hm : meterOk m = true) (h : tableFind t m = some (slot, r)) (hcopy : r.copy = some k) :
    reprintDecision t m = (k.reprinted.reply, some (slot, { r with copy := some k.reprinted })) := by
  simp [reprintDecision, hm, h, hcopy]

theorem referDecision_unknown {t : List (Nat × MeterRecord)} {m : Nat} {mark : Option Nat} (hm : meterOk m = true)
    (h : tableFind t m = none) : referDecision t m mark = (⟨.noMeter, []⟩, none) := by
  simp [referDecision, hm, h, Reply.plain]

theorem referDecision_retiring {t : List (Nat × MeterRecord)} {m slot : Nat} {r : MeterRecord} {mark : Option Nat}
    (hm : meterOk m = true) (h : tableFind t m = some (slot, r)) (hstatus : r.status = .retiring) :
    referDecision t m mark = (⟨.meterRetired, []⟩, none) := by
  simp [referDecision, hm, h, hstatus, Reply.plain]

theorem referDecision_marked {t : List (Nat × MeterRecord)} {m slot : Nat} {r : MeterRecord} {mark : Option Nat}
    (hm : meterOk m = true) (h : tableFind t m = some (slot, r)) (hstatus : r.status ≠ .retiring) :
    referDecision t m mark = (⟨.done, []⟩, some (slot, { r with refer := mark })) := by
  simp [referDecision, hm, h, hstatus, Reply.plain]

/-- A meter number is refused exactly when it is out of range. -/
theorem meterOk_eq_false {m : Nat} : meterOk m = false ↔ m < 1 ∨ 99999999999 < m := by
  rw [← Bool.not_eq_true, meterOk, Bool.and_eq_true, decide_eq_true_eq, decide_eq_true_eq, maxMeter]
  omega

theorem quoteInRange_eq_true {m money : Nat} :
    quoteInRange m money = true ↔ meterOk m = true ∧ ¬(money < 100 ∨ 500000 < money) := by
  simp only [quoteInRange, Bool.and_eq_true, decide_eq_true_eq, and_assoc, not_or, Nat.not_lt]

/-- A QUOTE is decided on the part's tariff, clock and records, which taking the request leaves as they are. -/
theorem quoteDecision_taken (q : Request) :
    quoteDecision (s.taken q true) q.meter q.money = quoteDecision s q.meter q.money :=
  rfl

/-! ### The requests -/

/-- QUOTE served: the claim is made when the meter number and the money are in range. -/
theorem exec_quote_serving {c : Counter} {q : Request} (h : s.serving .quote (.counter c) q)
    (hnone : s.noneWaitsFor q.meter) :
    exec (.quote c) s = .next { s with
      adir := (if quoteInRange q.meter q.money then s.settleMeter q.meter else s).adir
      rgi := s.rgi.replyDue (.counter c) q .nobody (quoteDecision s q.meter q.money) } := by
  show execQuote c s = _
  rw [execQuote]
  by_cases hrange : quoteInRange q.meter q.money = true
  · rw [whenInService_serve_decided (d := (quoteDecision s q.meter q.money, none)) h hnone
      (by rw [if_pos hrange, quoteDecision_taken]; rfl), if_pos hrange]
    rfl
  · rw [whenInService_serve_answered h (by rw [if_neg hrange, quoteDecision_taken]), if_neg hrange]

theorem exec_reprint_serving {c : Counter} {q : Request} (h : s.serving .reprint (.counter c) q)
    (hnone : s.noneWaitsFor q.meter) :
    exec (.reprint c) s = .next { s with
      adir := (s.decided q.meter (reprintDecision s.adir.table q.meter).2).adir
      rgi := s.rgi.replyDue (.counter c) q .nobody (reprintDecision s.adir.table q.meter).1 } := by
  show execReprint c s = _
  rw [execReprint]
  exact whenInService_serve_decided h hnone rfl

theorem exec_referSet_serving {q : Request} (h : s.serving .referSet .office q) (hnone : s.noneWaitsFor q.meter)
    (hlo : 1 ≤ leNat (slice q.area 5 2)) (hhi : leNat (slice q.area 5 2) ≤ 255) :
    exec .referSet s = .next { s with
      adir := (s.decided q.meter (referDecision s.adir.table q.meter (some (leNat (slice q.area 5 2)))).2).adir
      rgi := s.rgi.replyDue .office q .nobody
        (referDecision s.adir.table q.meter (some (leNat (slice q.area 5 2)))).1 } := by
  show execReferSet s = _
  rw [execReferSet]
  exact whenInService_serve_decided h hnone (if_neg (by omega))

theorem exec_referClear_serving {q : Request} (h : s.serving .referClear .office q) (hnone : s.noneWaitsFor q.meter) :
    exec .referClear s = .next { s with
      adir := (s.decided q.meter (referDecision s.adir.table q.meter none).2).adir
      rgi := s.rgi.replyDue .office q .nobody (referDecision s.adir.table q.meter none).1 } := by
  show execReferClear s = _
  rw [execReferClear]
  exact whenInService_serve_decided h hnone rfl

end Sys2Proof.Machine

namespace Sys2Proof.Proofs

open Sys2Proof Sys2Proof.Machine

/-- Settles O38: a quote is its decision; a reprint and a refer mark are ADIR's decisions, written behind the claim. -/
theorem quoteReprintAndRefer : Obligations.QuoteReprintAndRefer := by
  refine ⟨fun s c q hs hnone => ?_, fun s c q hs hnone hlo hhi => ?_,
    fun s q command mark hcommand hnone hlo hhi => ?_⟩
  · refine ⟨_, exec_quote_serving hs hnone, ?_, ?_, rfl⟩
    · show s.rgi.replyDue (.counter c) q .nobody (quoteDecision s q.meter q.money) = _
      congr 1
      unfold quoteDecision
      simp only [meterOk_eq_false]
      rfl
    · show (if quoteInRange q.meter q.money then s.settleMeter q.meter else s).adir.table = s.adir.table
      split <;> rfl
  · have hm : meterOk q.meter = true := meterOk_of_range hlo hhi
    refine ⟨_, exec_reprint_serving hs hnone, fun hfind => ?_, fun slot rec hfind hcopy => ?_,
      fun slot rec copy hfind hcopy => ?_, rfl⟩
    · rw [reprintDecision_unknown hm hfind]
      exact ⟨rfl, rfl⟩
    · rw [reprintDecision_uncopied hm hfind hcopy]
      exact ⟨rfl, rfl⟩
    · rw [reprintDecision_copied hm hfind hcopy]
      exact ⟨rfl, rfl⟩
  · have hm : meterOk q.meter = true := meterOk_of_range hlo hhi
    have hexec : exec command s = .next { s with
        adir := (s.decided q.meter (referDecision s.adir.table q.meter mark).2).adir
        rgi := s.rgi.replyDue .office q .nobody (referDecision s.adir.table q.meter mark).1 } := by
      obtain ⟨hset, hs, hlow, hhigh, hmark⟩ | ⟨hclear, hs, hmark⟩ := hcommand
      · rw [hset, hmark]
        exact exec_referSet_serving hs hnone hlow hhigh
      · rw [hclear, hmark]
        exact exec_referClear_serving hs hnone
    refine ⟨_, hexec, fun hfind => ?_, fun slot rec hfind hstatus => ?_, fun slot rec hfind hstatus => ?_, rfl⟩
    · rw [referDecision_unknown hm hfind]
      exact ⟨rfl, rfl⟩
    · rw [referDecision_retiring hm hfind hstatus]
      exact ⟨rfl, rfl⟩
    · rw [referDecision_marked hm hfind hstatus]
      exact ⟨rfl, rfl⟩

end Sys2Proof.Proofs
end

section
/-! PROOF. The requests to TLU on a till (R138 to R145): the claim on the till first, then what the request makes of its
record; the statements on the till requests and on TILL_READ. -/

namespace Sys2Proof.Machine

variable {s : State}

/-! ### A till request served -/

/-- A served till or line request of a counter: its owner's arm, and the reply waiting for the bus. -/
theorem whenInService_serveCounter {k : ReqKind} {q : Request} {c : Counter}
    {f : Counter → Request → State → State × ReplyOwner × Reply} {u : State} {owner : ReplyOwner} {reply : Reply}
    (h : s.serving k .office q) (hc : q.counter = some c) (hf : f c q (s.taken q true) = (u, owner, reply))
    (hrgi : u.rgi = (s.taken q true).rgi) :
    whenInService (fun s => s.serveCounter k f) s = .next { u with rgi := s.rgi.replyDue .office q owner reply } := by
  unfold State.serveCounter
  exact whenInService_serve h (by simp only [hc]; exact hf) hrgi

/-- A till or line request of a counter above 7 is answered BAD_REQUEST, and nothing changes (R138, R152, R153). -/
theorem whenInService_serveCounter_above {k : ReqKind} {q : Request}
    {f : Counter → Request → State → State × ReplyOwner × Reply} (h : s.serving k .office q) (hc : q.counter = none) :
    whenInService (fun s => s.serveCounter k f) s =
      .next { s with rgi := s.rgi.replyDue .office q .nobody ⟨.badRequest, []⟩ } := by
  unfold State.serveCounter
  exact whenInService_serve_answered h (by simp only [hc]; rfl)

/-- The part with a till request answered: the writes of the till under way have completed, and TLU is changed by `f`. -/
def State.tillAnswered (s : State) (c : Counter) (q : Request) (f : Tlu → Tlu) (owner : ReplyOwner) (reply : Reply) :
    State :=
  { s with
    tlu := f (s.tlu.settled c)
    atc := (s.raiseIf (s.lateDue c) (.lateCount c)).atc
    rgi := s.rgi.replyDue .office q owner reply }

/-- A served till request whose arm claims the till and changes TLU alone. -/
theorem whenInService_settles {k : ReqKind} {q : Request} {c : Counter}
    {f : Counter → Request → State → State × ReplyOwner × Reply} {g : Tlu → Tlu} {owner : ReplyOwner} {reply : Reply}
    (h : s.serving k .office q) (hc : q.counter = some c)
    (hf : f c q (s.taken q true) = (((s.taken q true).settleTill c).mapTlu g, owner, reply)) :
    whenInService (fun s => s.serveCounter k f) s = .next (s.tillAnswered c q g owner reply) := by
  rw [settleTill_eq] at hf
  rw [whenInService_serveCounter h hc hf rfl]
  refine congrArg _ (State.ext_units _ _ rfl rfl rfl rfl rfl rfl rfl rfl ?_ rfl rfl)
  exact raiseIf_atc_congr (s := s.taken q true) (t := s) rfl _ _

/-- A served till request whose arm claims the till and changes nothing. -/
theorem whenInService_settles_alone {k : ReqKind} {q : Request} {c : Counter}
    {f : Counter → Request → State → State × ReplyOwner × Reply} {owner : ReplyOwner} {reply : Reply}
    (h : s.serving k .office q) (hc : q.counter = some c)
    (hf : f c q (s.taken q true) = ((s.taken q true).settleTill c, owner, reply)) :
    whenInService (fun s => s.serveCounter k f) s = .next (s.tillAnswered c q id owner reply) :=
  whenInService_settles h hc hf

/-! ### The till that a request leaves -/

/-- TLU with one till's record changed. -/
def Tlu.onTill (t : Tlu) (c : Counter) (f : Till → Till) : Tlu := { t with tills := t.tills.set c (f (t.tills.get c)) }

theorem onTill_same (t : Tlu) (c : Counter) (f : Till → Till) : (t.onTill c f).tills.get c = f (t.tills.get c) := by
  simp [Tlu.onTill]

theorem onTill_other (t : Tlu) {c d : Counter} (f : Till → Till) (h : d ≠ c) :
    (t.onTill c f).tills.get d = t.tills.get d := by
  simp [Tlu.onTill, h]

variable {c d : Counter} {q : Request} {f : Till → Till} {o : ReplyOwner} {y : Reply}

theorem tillAnswered_till : (s.tillAnswered c q (Tlu.onTill · c f) o y).till c = f (s.till c) := onTill_same _ _ _

theorem tillAnswered_other (h : d ≠ c) : (s.tillAnswered c q (Tlu.onTill · c f) o y).till d = s.till d :=
  onTill_other _ _ h

/-! ### TILL_OPEN, TILL_PAUSE, TILL_RESUME, TILL_CLOSE (R139 to R141) -/

/-- The clerk that a TILL_OPEN carries. -/
def Request.clerk (q : Request) : Nat := leNat (slice q.area 1 2)

theorem exec_tillOpen_clerk (h : s.serving .tillOpen .office q) (hc : q.counter = some c)
    (hclerk : q.clerk < 1 ∨ 9999 < q.clerk) :
    exec .tillOpen s = .next { s with rgi := s.rgi.replyDue .office q .nobody ⟨.badRequest, []⟩ } := by
  show execTillOpen s = _
  rw [execTillOpen, whenInService_serveCounter h hc (if_pos hclerk) rfl]
  rfl

theorem exec_tillOpen_closed (h : s.serving .tillOpen .office q) (hc : q.counter = some c)
    (hclerk : ¬(q.clerk < 1 ∨ 9999 < q.clerk)) (hstate : (s.till c).state = .closed) :
    exec .tillOpen s = .next (s.tillAnswered c q (Tlu.onTill · c fun r => r.opening q.clerk s.tke.now) .nobody
      ⟨.done, leBytes 3 s.tke.now ++ leBytes 4 (s.till c).lastSerial⟩) := by
  show execTillOpen s = _
  rw [execTillOpen]
  exact whenInService_settles h hc ((if_neg hclerk).trans (if_neg fun hne => hne hstate))

theorem exec_tillOpen_open (h : s.serving .tillOpen .office q) (hc : q.counter = some c)
    (hclerk : ¬(q.clerk < 1 ∨ 9999 < q.clerk)) (hstate : (s.till c).state ≠ .closed) :
    exec .tillOpen s = .next (s.tillAnswered c q id .nobody ⟨.notPermitted, []⟩) := by
  show execTillOpen s = _
  rw [execTillOpen]
  exact whenInService_settles_alone h hc ((if_neg hclerk).trans (if_pos hstate))

/-- A till in the state `a` moved to `b`. -/
def Till.moved (t : Till) (a b : TillState) : Till := if t.state = a then { t with state := b } else t

/-- A request that moves a till from `a` to `b`, or is NOT_PERMITTED. -/
theorem whenInService_moveTill {k : ReqKind} {a b : TillState} (h : s.serving k .office q) (hc : q.counter = some c) :
    whenInService (fun s => s.serveCounter k fun c _ s => s.moveTill c a b) s =
      .next (s.tillAnswered c q (Tlu.onTill · c (Till.moved · a b)) .nobody
        ⟨if (s.till c).state = a then .done else .notPermitted, []⟩) := by
  by_cases hstate : (s.till c).state = a
  · have hmoved : ∀ t : Tlu, t.tills = s.tlu.tills →
        t.onTill c (Till.moved · a b) = t.onTill c fun r => { r with state := b } := by
      intro t ht
      have hget : (t.tills.get c).state = a := by rw [ht]; exact hstate
      simp only [Tlu.onTill, Till.moved, hget, if_true]
    rw [whenInService_settles (g := (Tlu.onTill · c fun r => { r with state := b })) h hc (if_pos hstate), if_pos hstate]
    rw [State.tillAnswered, State.tillAnswered, hmoved (s.tlu.settled c) rfl]
    rfl
  · have hmoved : ∀ t : Tlu, t.tills = s.tlu.tills → t.onTill c (Till.moved · a b) = t := by
      intro t ht
      have hget : ¬ (t.tills.get c).state = a := by rw [ht]; exact hstate
      simp [Tlu.onTill, Till.moved, hget]
    rw [whenInService_settles_alone h hc (if_neg hstate), if_neg hstate]
    rw [State.tillAnswered, State.tillAnswered, hmoved (s.tlu.settled c) rfl]
    rfl

theorem exec_tillPause_serving (h : s.serving .tillPause .office q) (hc : q.counter = some c) :
    exec .tillPause s = .next (s.tillAnswered c q (Tlu.onTill · c (Till.moved · .opened .paused)) .nobody
      ⟨if (s.till c).state = .opened then .done else .notPermitted, []⟩) := by
  show execTillPause s = _
  rw [execTillPause]
  exact whenInService_moveTill h hc

theorem exec_tillResume_serving (h : s.serving .tillResume .office q) (hc : q.counter = some c) :
    exec .tillResume s = .next (s.tillAnswered c q (Tlu.onTill · c (Till.moved · .paused .opened)) .nobody
      ⟨if (s.till c).state = .paused then .done else .notPermitted, []⟩) := by
  show execTillResume s = _
  rw [execTillResume]
  exact whenInService_moveTill h hc

/-- TLU with a till closed, whose state before is kept until the reply has left the ring (log entry 7). -/
def Tlu.closed (t : Tlu) (c : Counter) (old : TillState) : Tlu :=
  { t.onTill c fun r => { r with state := .closed } with closing := t.closing.set c (some old) }

theorem closed_till (t : Tlu) (c : Counter) (old : TillState) :
    (t.closed c old).tills.get c = { t.tills.get c with state := .closed } :=
  onTill_same t c fun r => { r with state := .closed }

theorem closed_other (t : Tlu) {c d : Counter} (old : TillState) (h : d ≠ c) :
    (t.closed c old).tills.get d = t.tills.get d :=
  onTill_other t (fun r => { r with state := .closed }) h

theorem exec_tillClose_closed (h : s.serving .tillClose .office q) (hc : q.counter = some c)
    (hstate : (s.till c).state = .closed) :
    exec .tillClose s = .next (s.tillAnswered c q id .nobody ⟨.notPermitted, []⟩) := by
  show execTillClose s = _
  rw [execTillClose]
  exact whenInService_settles_alone h hc (if_pos hstate)

theorem exec_tillClose_busy (h : s.serving .tillClose .office q) (hc : q.counter = some c)
    (hstate : (s.till c).state ≠ .closed) (hctx : (s.ctx (.counter c)).state ≠ .idle) :
    exec .tillClose s = .next (s.tillAnswered c q id .nobody ⟨.counterBusy, []⟩) := by
  show execTillClose s = _
  rw [execTillClose]
  exact whenInService_settles_alone h hc ((if_neg hstate).trans (if_pos hctx))

theorem exec_tillClose_idle (h : s.serving .tillClose .office q) (hc : q.counter = some c)
    (hstate : (s.till c).state ≠ .closed) (hctx : (s.ctx (.counter c)).state = .idle) :
    exec .tillClose s = .next (s.tillAnswered c q (Tlu.closed · c (s.till c).state) (.closing c)
      ⟨.done, Till.fields { s.till c with state := .closed }⟩) := by
  show execTillClose s = _
  rw [execTillClose]
  exact whenInService_settles h hc ((if_neg hstate).trans (if_neg fun hne => hne hctx))

/-! ### TILL_READ (R143) -/

/-- A till part write under way has not completed: a read of the till finds the record before it (log entry 5). -/
theorem partOpen_eq_some {p : TillPartWrite} (h : s.tlu.part.get c = some p) (hopen : p.settled = false) :
    s.partOpen c = some p.old := by
  simp [State.partOpen, h, hopen]

theorem partOpen_eq_none (h : ∀ p, s.tlu.part.get c = some p → p.settled = true) : s.partOpen c = none := by
  unfold State.partOpen
  cases hpart : s.tlu.part.get c with
  | none => rfl
  | some p => exact if_pos (h p hpart)

theorem tillSeen_open {r : Till} (h : s.partOpen c = some r) : s.tillSeen c = r ∧ s.tillSeenDone c = s := by
  simp [State.tillSeen, State.tillSeenDone, h]

theorem tillSeen_settled (h : s.partOpen c = none) :
    s.tillSeen c = { s.till c with outcome := s.outcomeSeen c } ∧ s.tillSeenDone c = s.outcomeReadDone c := by
  simp [State.tillSeen, State.tillSeenDone, h]

/-- TILL_READ served, by what the read finds of the till and leaves. -/
theorem exec_tillRead_serving {t : State} {r : Till} (h : s.serving .tillRead .office q) (hc : q.counter = some c)
    (hseen : (s.taken q true).tillSeen c = r) (hdone : (s.taken q true).tillSeenDone c = t)
    (hrgi : t.rgi = (s.taken q true).rgi) :
    exec .tillRead s = .next { t with rgi := s.rgi.replyDue .office q .nobody ⟨.done, r.fields⟩ } := by
  show execTillRead s = _
  rw [execTillRead]
  exact whenInService_serveCounter h hc (by rw [hseen, hdone]) hrgi

/-- TILL_READ with no till part write open, by the outcome found. -/
theorem exec_tillRead_outcome {t : State} {o : Option Outcome} (h : s.serving .tillRead .office q)
    (hc : q.counter = some c) (hpart : s.partOpen c = none) (hseen : (s.taken q true).outcomeSeen c = o)
    (hdone : (s.taken q true).outcomeReadDone c = t) (hrgi : t.rgi = (s.taken q true).rgi) :
    exec .tillRead s = .next { t with
      rgi := s.rgi.replyDue .office q .nobody ⟨.done, Till.fields { s.till c with outcome := o }⟩ } := by
  obtain ⟨htill, hstate⟩ := tillSeen_settled (s := s.taken q true) (c := c) hpart
  exact exec_tillRead_serving h hc (by rw [htill, hseen]; rfl) (hstate.trans hdone) hrgi

/-- A read that finds the outcome as it stands. -/
theorem outcomeRead_new {old : Option Outcome} (h : s.outcomeOpen c = some old) (hbit : s.freeBit = false) :
    s.outcomeSeen c = (s.till c).outcome ∧ s.outcomeReadDone c = s.drawn.readOutcome c := by
  simp [State.outcomeSeen, State.outcomeReadDone, h, hbit]

/-- A read that finds the outcome as it was. -/
theorem outcomeRead_old {old : Option Outcome} (h : s.outcomeOpen c = some old) (hbit : s.freeBit = true) :
    s.outcomeSeen c = old ∧
      (s.outcomeReadDone c = s.drawn ∨ s.outcomeReadDone c = s.drawn.mapTlu fun t => t.readOld c) := by
  simp only [State.outcomeSeen, State.outcomeReadDone, h, hbit, if_true, true_and]
  split
  · exact Or.inl rfl
  · exact Or.inr rfl

/-! ### The fields of a till (11.4) -/

theorem fields_of_no_outcome {t : Till} (h : t.outcome = none) :
    t.fields = leBytes 1 t.state.code ++ leBytes 2 t.clerk ++ leBytes 3 t.openedMinute ++ leBytes 4 t.vends ++
      leBytes 8 t.cash ++ leBytes 8 t.units ++ leBytes 8 t.allowance ++ leBytes 8 t.arrears ++
      leBytes 4 t.lastSerial ++ List.replicate 14 0 := by
  simp only [Till.fields, h, List.append_assoc]
  rfl

theorem fields_of_outcome {t : Till} {o : Outcome} (h : t.outcome = some o) :
    t.fields = leBytes 1 t.state.code ++ leBytes 2 t.clerk ++ leBytes 3 t.openedMinute ++ leBytes 4 t.vends ++
      leBytes 8 t.cash ++ leBytes 8 t.units ++ leBytes 8 t.allowance ++ leBytes 8 t.arrears ++
      leBytes 4 t.lastSerial ++ (leBytes 1 o.result.code ++ leBytes 4 o.serial ++ leBytes 5 o.meter ++
        leBytes 3 o.money ++ leBytes 1 o.tokens.length) := by
  simp only [Till.fields, h, List.append_assoc]
  rfl

theorem tillState_code (x : TillState) : x.code = if x = .closed then 0 else if x = .opened then 1 else 2 := by
  cases x <;> rfl

theorem outcomeResult_code (x : OutcomeResult) : x.code = if x = .done then 1 else 2 := by
  cases x <;> rfl

end Sys2Proof.Machine

namespace Sys2Proof.Proofs

open Sys2Proof Sys2Proof.Machine

/-- Settles O39: each request claims the till, and then changes it from the one state it starts from. -/
theorem tillRequestsMoveTheTill : Obligations.TillRequestsMoveTheTill := by
  refine ⟨fun s q c hc => ⟨fun hs hlo hhi => ?_, fun hs hclerk => exec_tillOpen_clerk hs hc hclerk,
    fun hs => ?_, fun hs => ?_⟩, fun s q c hc hs => ?_⟩
  · have hclerk : ¬(q.clerk < 1 ∨ 9999 < q.clerk) := by
      rw [Request.clerk]
      omega
    by_cases hstate : (s.till c).state = .closed
    · exact ⟨_, exec_tillOpen_closed hs hc hclerk hstate, rfl, rfl, rfl, fun d hd => tillAnswered_other hd,
        fun _ => ⟨tillAnswered_till, rfl⟩, fun hne => absurd hstate hne⟩
    · exact ⟨_, exec_tillOpen_open hs hc hclerk hstate, rfl, rfl, rfl, fun _ _ => rfl,
        fun heq => absurd heq hstate, fun _ => ⟨rfl, rfl⟩⟩
  · exact ⟨_, exec_tillPause_serving hs hc, rfl, rfl, rfl, fun d hd => tillAnswered_other hd, tillAnswered_till, rfl⟩
  · exact ⟨_, exec_tillResume_serving hs hc, rfl, rfl, rfl, fun d hd => tillAnswered_other hd, tillAnswered_till, rfl⟩
  · by_cases hstate : (s.till c).state = .closed
    · exact ⟨_, exec_tillClose_closed hs hc hstate, rfl, rfl, rfl, fun _ _ => rfl, fun _ => ⟨rfl, rfl⟩,
        fun hne => absurd hstate hne, fun hne => absurd hstate hne⟩
    by_cases hctx : (s.ctx (.counter c)).state = .idle
    · exact ⟨_, exec_tillClose_idle hs hc hstate hctx, rfl, rfl, rfl, fun d hd => closed_other (s.tlu.settled c) _ hd,
        fun heq => absurd heq hstate, fun _ hne => absurd hctx hne, fun _ _ => ⟨closed_till (s.tlu.settled c) c _, rfl⟩⟩
    · exact ⟨_, exec_tillClose_busy hs hc hstate hctx, rfl, rfl, rfl, fun _ _ => rfl,
        fun heq => absurd heq hstate, fun _ _ => ⟨rfl, rfl⟩, fun _ heq => absurd heq hctx⟩

/-- Settles O40: what the read finds of a till part write under way, and then of the outcome's write. -/
theorem tillReadAnswersTheRecord : Obligations.TillReadAnswersTheRecord := by
  intro s q c hc hs answer
  have hanswer : ∀ r : Till, answer r = s.rgi.replyDue .office q .nobody ⟨.done, r.fields⟩ := by
    intro r
    cases hout : r.outcome with
    | none => simp only [answer, hout, fields_of_no_outcome hout, tillState_code]
    | some o => simp only [answer, hout, fields_of_outcome hout, tillState_code, outcomeResult_code]
  refine ⟨fun p hp hopen => ?_, fun hsettled => ⟨fun hnone => ?_, fun old hold => ?_,
    fun o ho htold => outcomeOpen_removing ho htold⟩⟩
  · obtain ⟨hseen, hdone⟩ := tillSeen_open (s := s.taken q true) (c := c) (partOpen_eq_some hp hopen)
    rw [exec_tillRead_serving hs hc hseen hdone rfl, hanswer]
    rfl
  · have hpart := partOpen_eq_none hsettled
    obtain ⟨hseen, hdone⟩ := outcomeSeen_of_none (s.taken q true) c hnone
    rw [exec_tillRead_outcome hs hc hpart hseen hdone rfl, hanswer]
    rfl
  · have hpart := partOpen_eq_none hsettled
    cases hbit : s.freeBit with
    | false =>
      obtain ⟨hseen, hdone⟩ := outcomeRead_new (s := s.taken q true) (c := c) hold hbit
      refine Or.inl ?_
      rw [exec_tillRead_outcome hs hc hpart hseen hdone rfl, hanswer]
      rfl
    | true =>
      obtain ⟨hseen, hdone | hdone⟩ := outcomeRead_old (s := s.taken q true) (c := c) hold hbit
      · exact Or.inr ⟨_, exec_tillRead_outcome hs hc hpart hseen hdone rfl, (hanswer _).symm, Or.inl rfl, rfl⟩
      · exact Or.inr ⟨_, exec_tillRead_outcome hs hc hpart hseen hdone rfl, (hanswer _).symm, Or.inr rfl, rfl⟩

end Sys2Proof.Proofs
end

section
/-! PROOF. The clock event (R36, R40, R42, R87): the apply, the rollover and the month bits that a change of the clock makes
due; the statements on the clock's requests and ticks. -/

namespace Sys2Proof.Machine

variable {s t u v w : State}

/-! ### The month's bits (R42) -/

/-- The month depends on TKE and TFU alone. -/
theorem month_congr (htke : t.tke = s.tke) (htfu : t.tfu = s.tfu) : t.month = s.month := by
  simp only [State.month, htke, htfu]

/-- The month's bits from `s` to `u` depend on the units they read, and are not lost when other bits are set. -/
theorem monthBits.congr {s' u' t' : State} (h : monthBits s u t) (hs : s'.tke = s.tke) (hs' : s'.tfu = s.tfu)
    (hu : u'.tke = u.tke) (hu' : u'.tfu = u.tfu) (ht : ∀ b, t.has b = true → t'.has b = true) : monthBits s' u' t' := by
  obtain ⟨hchanged, hlost, hlow⟩ := h
  rw [monthBits, month_congr hs hs', month_congr hu hu', hs', hu']
  exact ⟨fun hu hne => ht _ (hchanged hu hne), fun hs hu => ht _ (hlost hs hu), fun hs hu => ht _ (hlow hs hu)⟩

/-- A part with bits of its own raised. -/
theorem raiseIf_only (p : Bool) (b : Status) : s.raiseIf p b = { s with atc := (s.raiseIf p b).atc } := by
  cases p <;> rfl

/-- A watched change is the change, with the status bits it sets. -/
theorem watchMonth_only (f : State → State) (s : State) :
    watchMonth f s = { f s with atc := (watchMonth f s).atc } := by
  simp only [watchMonth]
  rw [raiseIf_only, raiseIf_only (s := State.raiseIf (f s) _ _), raiseIf_only (s := f s)]

theorem watchMonth_tke (f : State → State) (s : State) : (watchMonth f s).tke = (f s).tke := by rw [watchMonth_only]
theorem watchMonth_tfu (f : State → State) (s : State) : (watchMonth f s).tfu = (f s).tfu := by rw [watchMonth_only]

/-- Watching a change loses no bit. -/
theorem has_watchMonth_mono (f : State → State) {b : Status} (h : (f s).has b = true) : (watchMonth f s).has b = true :=
  has_raiseIf_mono _ _ (has_raiseIf_mono _ _ (has_raiseIf_mono _ _ h))

/-- A watched change sets the month's bits that it causes. -/
theorem monthBits_watchMonth (f : State → State) (s : State) : monthBits s (f s) (watchMonth f s) := by
  refine ⟨fun hknown hne => ?_, fun hknown hgone => ?_, fun hlong hshort => ?_⟩
  · refine has_raiseIf_mono _ _ (has_raiseIf_self _ .monthChanged ?_)
    simp [Option.isSome_iff_ne_none, hknown, hne]
  · refine has_raiseIf_self _ .monthLost ?_
    simp [Option.isSome_iff_ne_none, hknown, hgone]
  · refine has_raiseIf_mono _ _ (has_raiseIf_mono _ _ (has_raiseIf_self _ .calendarLow ?_))
    simp only [State.calendarLow, Bool.and_eq_true, Bool.not_eq_true', decide_eq_false_iff_not, decide_eq_true_eq]
    omega

/-! ### The rollover (R40) -/

/-- The rollover drops the entries whose successor has begun, and no more. -/
theorem rolledOver_rolled (m : Nat) (l : List MonthEntry) : rolledOver m l (rolled m l) := by
  induction l with
  | nil => exact ⟨0, rfl, fun k hlo hhi => by omega, fun e he => by simp at he⟩
  | cons a l ih =>
    cases l with
    | nil => exact ⟨0, rfl, fun k hlo hhi => by omega, fun e he => by simp at he⟩
    | cons b rest =>
      by_cases hdue : b.start ≤ m
      · obtain ⟨n, hdrop, hbegun, hnext⟩ := ih
        have hroll : rolled m (a :: b :: rest) = rolled m (b :: rest) := by rw [rolled, if_pos hdue]
        refine ⟨n + 1, hroll.trans hdrop, fun k hlo hhi => ?_, fun e he => hnext e he⟩
        obtain ⟨j, rfl⟩ : ∃ j, k = j + 1 := ⟨k - 1, by omega⟩
        cases j with
        | zero => exact ⟨b, rfl, hdue⟩
        | succ i => exact hbegun (i + 1) (by omega) (by omega)
      · have hroll : rolled m (a :: b :: rest) = a :: b :: rest := by rw [rolled, if_neg hdue]
        refine ⟨0, hroll, fun k hlo hhi => by omega, fun e he => ?_⟩
        obtain rfl : b = e := Option.some.inj he
        omega

/-! ### The clock event (R36, R40) -/

/-- With a valid clock the look for the rollover drops what is due. -/
theorem rolloverLook_valid (h : s.tke.clockValid = true) :
    s.rolloverLook = s.mapTfu fun t => { t with calendar := rolled s.tke.minute t.calendar } := if_pos h

theorem applyLook_due {a : Arm} (hvalid : s.tke.clockValid = true) (harm : s.tfu.bank.arm = some a)
    (hdue : a.minute ≤ s.tke.minute) :
    s.applyLook = (s.mapTfu fun t => { t with bank := t.bank.apply }).raise .applied :=
  if_pos (by simp [State.applyDue, harm, hvalid, hdue])

theorem applyLook_not_due (h : ∀ a, s.tfu.bank.arm = some a → s.tke.minute < a.minute) : s.applyLook = s := by
  refine if_neg ?_
  unfold State.applyDue
  cases harm : s.tfu.bank.arm with
  | none => exact Bool.false_ne_true
  | some a => simp [h a harm]

/-- The apply look changes the banks alone of TFU's tables. -/
theorem applyLook_tables (s : State) :
    s.applyLook.tfu.entries = s.tfu.entries ∧ s.applyLook.tfu.calendar = s.tfu.calendar := by
  unfold State.applyLook
  split <;> exact ⟨rfl, rfl⟩

/-- The apply look sets no bit back. -/
theorem has_applyLook_mono {b : Status} (h : s.has b = true) : s.applyLook.has b = true := by
  unfold State.applyLook
  split
  · exact has_raise_mono .applied (s := s.mapTfu fun t => { t with bank := t.bank.apply }) h
  · exact h

/-- The clock event changes TFU and the status bits alone. -/
theorem clockEvent_only (s : State) : s.clockEvent = { s with tfu := s.clockEvent.tfu, atc := s.clockEvent.atc } := by
  simp only [State.clockEvent, State.rolloverLook, State.applyLook]
  split <;> split <;> rfl

/-- The clock event with a valid clock: TFU's banks are those of the apply look, and its calendar is rolled over. -/
theorem clockEvent_valid (h : s.tke.clockValid = true) :
    s.clockEvent.tfu.bank = s.applyLook.tfu.bank ∧ s.clockEvent.tfu.entries = s.tfu.entries ∧
      s.clockEvent.tfu.calendar = rolled s.tke.minute s.tfu.calendar ∧ s.clockEvent.atc = s.applyLook.atc := by
  obtain ⟨hentries, hcalendar⟩ := applyLook_tables s
  have hvalid : s.applyLook.tke.clockValid = true := by rw [applyLook_tke]; exact h
  rw [State.clockEvent, rolloverLook_valid hvalid]
  refine ⟨rfl, hentries, ?_, rfl⟩
  show rolled s.applyLook.tke.minute s.applyLook.tfu.calendar = _
  rw [applyLook_tke, hcalendar]

/-! ### A change of the clock (R87) -/

/-- A change of the clock moves TKE, TFU and the status bits alone. -/
theorem moveClock_only (f : Tke → Tke) (s : State) :
    moveClock f s = { s with tke := f s.tke, tfu := (moveClock f s).tfu, atc := (moveClock f s).atc } := by
  have hclock : watchMonth (fun s => s.mapTke f) s =
      { s with tke := f s.tke, atc := (watchMonth (fun s => s.mapTke f) s).atc } := watchMonth_only _ _
  rw [moveClock, watchMonth_only, clockEvent_only, hclock]

/-- A clock taken stays so when other bits are set. -/
theorem clockTaken.congr {m : Nat} {t' : State} (h : clockTaken s t m) (htke : t'.tke = t.tke) (htfu : t'.tfu = t.tfu)
    (hmono : ∀ b, t.has b = true → t'.has b = true) : clockTaken s t' m := by
  obtain ⟨hdue, hnot, hentries, hroll, hclock, hevent⟩ := h
  refine ⟨fun a ha hm => ?_, fun hn => ?_, htfu ▸ hentries, htfu ▸ hroll, hclock.congr rfl rfl htke rfl hmono,
    hevent.congr htke rfl htke htfu hmono⟩
  · obtain ⟨hbank, happlied⟩ := hdue a ha hm
    exact ⟨htfu ▸ hbank, hmono _ happlied⟩
  · exact htfu ▸ hnot hn

/-- A change that leaves the clock valid at a minute takes the clock event of that minute. -/
theorem clockTaken_moveClock {f : Tke → Tke} (hvalid : (f s.tke).clockValid = true) :
    clockTaken s (moveClock f s) (f s.tke).minute := by
  have hmoved : watchMonth (fun s => s.mapTke f) s =
      { s with tke := f s.tke, atc := (watchMonth (fun s => s.mapTke f) s).atc } := watchMonth_only _ _
  have hbits := monthBits_watchMonth (fun s => s.mapTke f) s
  have hclock : moveClock f s = watchMonth State.clockEvent (watchMonth (fun s => s.mapTke f) s) := rfl
  generalize hu : watchMonth (fun s => s.mapTke f) s = u at hmoved hbits hclock
  have hutke : u.tke = f s.tke := by rw [hmoved]
  have hutfu : u.tfu = s.tfu := by rw [hmoved]
  obtain ⟨hbank, hentries, hcalendar, hatc⟩ := clockEvent_valid (s := u) (by rw [hutke]; exact hvalid)
  have hmono : ∀ b, u.has b = true → (watchMonth State.clockEvent u).has b = true := fun b hb =>
    has_watchMonth_mono _ ((has_congr b (congrArg Atc.status hatc)).trans (has_applyLook_mono hb))
  have htke : (watchMonth State.clockEvent u).tke = f s.tke := by rw [watchMonth_tke, clockEvent_tke, hutke]
  rw [hclock]
  refine ⟨fun a ha hm => ?_, fun hnot => ?_, ?_, ?_, ?_, ?_⟩
  · have hlook := applyLook_due (s := u) (by rw [hutke]; exact hvalid) (by rw [hutfu]; exact ha) (by rw [hutke]; exact hm)
    refine ⟨?_, has_watchMonth_mono _ ((has_congr .applied (congrArg Atc.status hatc)).trans ?_)⟩
    · rw [watchMonth_tfu, hbank, hlook, ← hutfu]
      rfl
    · rw [hlook]
      exact has_raise_self _ _
  · rw [watchMonth_tfu, hbank, applyLook_not_due (by rw [hutfu, hutke]; exact hnot), hutfu]
  · rw [watchMonth_tfu, hentries, hutfu]
  · rw [watchMonth_tfu, hcalendar, hutke, hutfu]
    exact rolledOver_rolled _ _
  · exact hbits.congr rfl rfl htke rfl hmono
  · exact (monthBits_watchMonth State.clockEvent u).congr (htke.trans hutke.symm) hutfu.symm
      (htke.trans (by rw [clockEvent_tke, hutke])) (watchMonth_tfu _ _) fun _ hb => hb

/-! ### CLOCK_SET, CLOCK_READ and the ticks (R87, R90, R91) -/

/-- The minute that a CLOCK_SET carries. -/
def Request.minute (q : Request) : Nat := leNat (slice q.area 0 4)

theorem exec_clockSet_range {q : Request} (h : s.serving .clockSet .office q) (hm : maxMinute < q.minute) :
    exec .clockSet s = .next { s with rgi := s.rgi.replyDue .office q .nobody ⟨.badRequest, []⟩ } := by
  show execClockSet s = _
  rw [execClockSet]
  exact whenInService_serve_answered h (if_pos hm)

theorem exec_clockSet_valid {q : Request} (h : s.serving .clockSet .office q) (hm : ¬ maxMinute < q.minute)
    (hvalid : s.tke.clockValid = true) :
    exec .clockSet s = .next { s with rgi := s.rgi.replyDue .office q .nobody ⟨.notPermitted, []⟩ } := by
  show execClockSet s = _
  rw [execClockSet]
  exact whenInService_serve_answered h ((if_neg hm).trans (if_pos hvalid))

/-- The part with the clock set: the clock event taken, CLOCK_VALID set, and CLOCK_END at the last minute. -/
def State.clockSet (s : State) (m : Nat) : State :=
  ((s.setClock m).raise .clockValid).raiseIf (decide (m = maxMinute)) .clockEnd

theorem clockSet_only (s : State) (m : Nat) :
    s.clockSet m = { s with tke := s.tke.setTo m, tfu := (s.clockSet m).tfu, atc := (s.clockSet m).atc } := by
  have hset : s.setClock m = { s with tke := s.tke.setTo m, tfu := (s.setClock m).tfu, atc := (s.setClock m).atc } :=
    moveClock_only _ _
  rw [State.clockSet, raiseIf_only]
  show ({ s.setClock m with atc := _ } : State) = _
  rw [hset]
  simp

theorem clockTaken_clockSet (s : State) (m : Nat) : clockTaken s (s.clockSet m) m := by
  refine (clockTaken_moveClock (f := fun k => k.setTo m) rfl).congr (t := s.setClock m) (by simp [State.clockSet])
    (by simp [State.clockSet]) fun b hb => ?_
  exact has_raiseIf_mono _ _ (has_raise_mono _ hb)

theorem exec_clockSet_starts {q : Request} (h : s.serving .clockSet .office q) (hm : ¬ maxMinute < q.minute)
    (hvalid : s.tke.clockValid = false) :
    exec .clockSet s = .next { (s.taken q true).clockSet q.minute with
      rgi := s.rgi.replyDue .office q .nobody ⟨.done, []⟩ } := by
  have hinvalid : ¬ (s.taken q true).tke.clockValid = true := by
    rw [taken_tke, hvalid]
    exact Bool.false_ne_true
  show execClockSet s = _
  rw [execClockSet]
  exact whenInService_serve h ((if_neg hm).trans (if_neg hinvalid)) (by rw [clockSet_only])

theorem exec_clockRead {q : Request} (h : s.serving .clockRead .office q) :
    exec .clockRead s = .next { s with
      rgi := s.rgi.replyDue .office q .nobody
        ⟨.done, leBytes 1 (bit s.tke.clockValid) ++ leBytes 3 s.tke.now ++ leBytes 3 s.tke.sinceUp ++
          leBytes 1 s.tke.engine.code⟩ } := by
  show execClockRead s = _
  rw [execClockRead]
  exact whenInService_serve_answered h rfl

/-- A live part is not held in reset, so the clock's domain has its supply. -/
theorem clockPowered_of_live (h : s.live = true) : s.atc.clockPowered = true := by
  obtain ⟨hheld, -⟩ := live_iff.1 h
  simp only [Atc.clockPowered, hheld]

/-- A minute of a valid clock below the last one. -/
theorem exec_clockAdvance_moves (hlive : s.live = true) (hvalid : s.tke.clockValid = true)
    (hm : s.tke.minute < maxMinute) :
    exec .clockAdvance s =
      .next ((moveClock Tke.advance s).raiseIf (decide (s.tke.minute + 1 = maxMinute)) .clockEnd) := by
  show execClockAdvance s = _
  simp only [execClockAdvance, hlive, hvalid, hm, clockPowered_of_live hlive, decide_true, Bool.and_self, if_true]

theorem exec_clockAdvance_stays (h : s.tke.clockValid = false ∨ s.tke.minute = maxMinute) :
    exec .clockAdvance s = .next s := by
  show execClockAdvance s = _
  rw [execClockAdvance]
  obtain h | h := h <;> simp [h]

theorem exec_minutesSinceUpTick_counts (hlive : s.live = true) (hcount : s.tke.counting = true) :
    exec .minutesSinceUpTick s =
      .next ((s.mapTke fun k => { k with sinceUp := min maxMinute (k.sinceUp + 1) }).raiseIf
        (decide (s.tke.sinceUp ≤ s.ulc.holdover) && decide (s.ulc.holdover < min maxMinute (s.tke.sinceUp + 1)))
        .holdoverPassed) := by
  show execMinutesSinceUpTick s = _
  simp only [execMinutesSinceUpTick, hlive, hcount, clockPowered_of_live hlive, Bool.and_self, if_true, Bool.true_and]
  rfl

theorem exec_minutesSinceUpTick_stays (h : s.tke.counting = false) : exec .minutesSinceUpTick s = .next s := by
  show execMinutesSinceUpTick s = _
  simp only [execMinutesSinceUpTick, h, Bool.false_and, Bool.false_eq_true, if_false]

end Sys2Proof.Machine

namespace Sys2Proof.Proofs

open Sys2Proof Sys2Proof.Machine

/-- Settles O42: a clock set takes the clock event of its minute; a clock read is its fields. -/
theorem clockRequests : Obligations.ClockRequests := by
  refine fun s q => ⟨fun hs => ⟨fun hm => exec_clockSet_range hs hm,
    fun hm hvalid => exec_clockSet_valid hs (Nat.not_lt.2 hm) hvalid, fun hm hvalid => ?_⟩, fun hs => ?_⟩
  · have honly := clockSet_only (s.taken q true) q.minute
    refine ⟨_, exec_clockSet_starts hs (Nat.not_lt.2 hm) hvalid, rfl, ?_, ?_, ?_, fun hend => ?_, ?_⟩
    · show ((s.taken q true).clockSet q.minute).tke = _
      rw [honly]
      rfl
    · exact has_raiseIf_mono _ .clockEnd (has_raise_self _ .clockValid)
    · exact (clockTaken_clockSet (s.taken q true) q.minute).congr rfl rfl fun _ hb => hb
    · exact has_raiseIf_self _ .clockEnd (decide_eq_true hend)
    · rw [honly]
      rfl
  · rw [exec_clockRead hs]
    rfl

/-- Settles O50: the minute's clock event, and the count's, which tells when the holdover limit is passed. -/
theorem theClockAndTheCountTick : Obligations.TheClockAndTheCountTick := by
  refine fun s hlive => ⟨fun hvalid hm => ?_, fun h => exec_clockAdvance_stays h, fun hcount => ?_,
    fun hcount => exec_minutesSinceUpTick_stays hcount⟩
  · have hminute : s.tke.advance = { s.tke with minute := s.tke.minute + 1 } := by
      rw [Tke.advance, Nat.min_eq_right (a := maxMinute) hm]
    have htaken := clockTaken_moveClock (s := s) (f := Tke.advance) hvalid
    refine ⟨_, exec_clockAdvance_moves hlive hvalid hm, ?_, fun hend => has_raiseIf_self _ .clockEnd (decide_eq_true hend),
      ?_, ?_⟩
    · rw [raiseIf_tke, moveClock_tke, hminute]
    · rw [hminute] at htaken
      exact htaken.congr (raiseIf_tke _ _ _) (raiseIf_tfu _ _ _) fun _ hb => has_raiseIf_mono _ _ hb
    · rw [raiseIf_only, moveClock_only]
  · refine ⟨_, exec_minutesSinceUpTick_counts hlive hcount, ?_,
      fun heq hholdover => has_raiseIf_self _ .holdoverPassed ?_, ?_⟩
    · rw [raiseIf_tke]
      rfl
    · rw [Bool.and_eq_true, decide_eq_true_eq, decide_eq_true_eq, maxMinute]
      omega
    · rw [raiseIf_only]
      rfl

end Sys2Proof.Proofs
end

section
/-! PROOF. The counter lines (R147 to R153): what LINE_SET makes of a pair, and the drawer's level and timers; the statements
on OUTCOME_TAKE and the line requests, and on the drawers. -/

namespace Sys2Proof.Machine

variable {s : State} {c d : Counter} {q : Request} {l : LinePair}

/-! ### The pins (R148, R149) -/

/-- A pin that takes a level moves the level and the 20 ms alone. -/
theorem pinTo_eq (l : LinePair) (level : Bool) :
    l.pinTo level = { l with pin := level, timing := (l.pinTo level).timing } := by
  unfold LinePair.pinTo
  split
  · next h => subst h; rfl
  · rfl

theorem drive_pin (l : LinePair) (floating : Bool) : (l.drive floating).pin = l.inLevel floating := by
  rw [LinePair.drive, pinTo_eq]

/-- The pins that take the settings move their level and the 20 ms alone. -/
theorem drive_eq (l : LinePair) (floating : Bool) :
    l.drive floating = { l with pin := l.inLevel floating, timing := (l.drive floating).timing } := pinTo_eq _ _

/-- An input with its pull-up on is at the level put on it, or high. -/
theorem inLevel_pulled {floating : Bool} (hout : l.inp.output = false) (hpull : l.inp.pullUp = true) :
    l.inLevel floating = l.outside.getD true := by
  have hdriven : l.inDriven = none := if_neg (by simp [hout])
  have hpulled : l.inPulled = true := by simp [LinePair.inPulled, hout, hpull]
  rw [LinePair.inLevel, hdriven, hpulled]
  cases l.outside <;> rfl

/-- An output in GENERAL function that is not left floating is at its data. -/
theorem inLevel_output {floating : Bool} (hfun : l.function = .general) (hout : l.inp.output = true)
    (hfloat : l.inp.floating = false) : l.inLevel floating = l.inp.data := by
  have hdriven : l.inDriven = some l.inp.data := if_pos (by simp [hfun, hout, hfloat])
  rw [LinePair.inLevel, hdriven]
  rfl

/-! ### LINE_SET on a pair (R152) -/

/-- A pair set to GENERAL function takes the settings at its pins. -/
theorem setTo_general (l : LinePair) (out inp : LineSettings) (b : Bool) :
    ∃ m : LinePair, l.setTo .general out inp b = m.drive b ∧ m.function = .general ∧ m.out = out ∧ m.inp = inp ∧
      m.outside = l.outside := by
  unfold LinePair.setTo
  cases l.function with
  | drawer => exact ⟨_, rfl, rfl, rfl, rfl, rfl⟩
  | general => exact ⟨_, rfl, rfl, rfl, rfl, rfl⟩

theorem setTo_settings (l : LinePair) (f : LineFunction) (out inp : LineSettings) (b : Bool) :
    (l.setTo f out inp b).function = f ∧ (l.setTo f out inp b).out = out ∧ (l.setTo f out inp b).inp = inp := by
  unfold LinePair.setTo
  cases l.function <;> cases f <;> dsimp only <;> (try rw [drive_eq]) <;> exact ⟨rfl, rfl, rfl⟩

/-- A pair that stays in DRAWER function keeps its drawer and its timers. -/
theorem setTo_drawer_drawer (out inp : LineSettings) (b : Bool) (h : l.function = .drawer) :
    (l.setTo .drawer out inp b).drawer = l.drawer ∧ (l.setTo .drawer out inp b).pulse = l.pulse ∧
      (l.setTo .drawer out inp b).stuck = l.stuck ∧ (l.setTo .drawer out inp b).long = l.long := by
  simp only [LinePair.setTo, h, and_self]

/-- A pair that leaves DRAWER function: its drawer is SHUT, its timers end and the filter restarts. -/
theorem setTo_drawer_general (out inp : LineSettings) (b : Bool) (h : l.function = .drawer) :
    (l.setTo .general out inp b).drawer = .shut ∧ (l.setTo .general out inp b).pulse = false ∧
      (l.setTo .general out inp b).stuck = false ∧ (l.setTo .general out inp b).long = false ∧
      (l.setTo .general out inp b).counted = true := by
  simp only [LinePair.setTo, h]
  rw [drive_eq]
  exact ⟨rfl, rfl, rfl, rfl, rfl⟩

/-- A pair that enters DRAWER function: its drawer is OPENED, its long timer runs and the filter restarts. -/
theorem setTo_general_drawer (out inp : LineSettings) (b : Bool) (h : l.function = .general) :
    (l.setTo .drawer out inp b).drawer = .opened ∧ (l.setTo .drawer out inp b).long = true ∧
      (l.setTo .drawer out inp b).counted = true := by
  simp only [LinePair.setTo, h]
  rw [drive_eq]
  exact ⟨rfl, rfl, rfl⟩

/-! ### OUTCOME_TAKE, LINE_SET and LINE_READ -/

theorem exec_outcomeTake_none (h : s.serving .outcomeTake .office q) (hc : q.counter = some c)
    (hout : (s.till c).outcome = none) :
    exec .outcomeTake s = .next (s.tillAnswered c q id .nobody ⟨.notPermitted, []⟩) := by
  show execOutcomeTake s = _
  rw [execOutcomeTake]
  exact whenInService_settles_alone h hc (by
    simp only [show ((s.taken q true).till c).outcome = none from hout]
    rfl)

theorem exec_outcomeTake_held {o : Outcome} (h : s.serving .outcomeTake .office q) (hc : q.counter = some c)
    (hout : (s.till c).outcome = some o) :
    exec .outcomeTake s = .next (s.tillAnswered c q id (.outcome c o) o.reply) := by
  show execOutcomeTake s = _
  rw [execOutcomeTake]
  exact whenInService_settles_alone h hc (by
    simp only [show ((s.taken q true).till c).outcome = some o from hout])

/-- A read of the lines draws at most the level of an undriven DRW_OUT (log entry 8). -/
theorem lineRead_only (s : State) (c : Counter) : s.lineRead c = { s with draws := (s.lineRead c).draws } := by
  unfold State.lineRead
  split <;> rfl

theorem exec_lineRead (h : s.serving .lineRead .office q) (hc : q.counter = some c) :
    ∃ draws, exec .lineRead s = .next { s with
      rgi := s.rgi.replyDue .office q .nobody ((s.lines c).reply (s.outPin c))
      draws := draws } := by
  have hread := lineRead_only (s.taken q true) c
  refine ⟨((s.taken q true).lineRead c).draws, ?_⟩
  show execLineRead s = _
  rw [execLineRead, whenInService_serveCounter h hc rfl (by rw [hread]), hread]
  rfl

/-- The part with a counter's pair set: the settings that a LINE_SET carries, at the pins (R152). -/
def State.lineSet (s : State) (c : Counter) (q : Request) : State :=
  s.drawn.mapLines c fun l =>
    l.setTo (if byteAt q.area 1 = 1 then .drawer else .general) (LineSettings.ofByte (byteAt q.area 2))
      (LineSettings.ofByte (byteAt q.area 3)) s.freeBit

theorem lineSet_lines (s : State) (c : Counter) (q : Request) :
    (s.lineSet c q).lines c =
      (s.lines c).setTo (if byteAt q.area 1 = 1 then .drawer else .general) (LineSettings.ofByte (byteAt q.area 2))
        (LineSettings.ofByte (byteAt q.area 3)) s.freeBit := by
  simp [State.lineSet, State.lines, State.mapLines, State.drawn]

theorem lineSet_drawer (h : byteAt q.area 1 = 1) :
    (s.lineSet c q).lines c = (s.lines c).setTo .drawer (LineSettings.ofByte (byteAt q.area 2))
      (LineSettings.ofByte (byteAt q.area 3)) s.freeBit := by
  rw [lineSet_lines, if_pos h]

theorem lineSet_general (h : byteAt q.area 1 = 0) :
    (s.lineSet c q).lines c = (s.lines c).setTo .general (LineSettings.ofByte (byteAt q.area 2))
      (LineSettings.ofByte (byteAt q.area 3)) s.freeBit := by
  rw [lineSet_lines, if_neg (by omega)]

/-- The level of DRW_IN that settings in GENERAL function put on the pin, unless it is left floating (R148, R152). -/
theorem lineSet_pin (h : byteAt q.area 1 = 0) :
    (((s.lineSet c q).lines c).inp.output = false → ((s.lineSet c q).lines c).inp.pullUp = true →
        ((s.lineSet c q).lines c).pin = (s.lines c).outside.getD true) ∧
      (((s.lineSet c q).lines c).inp.output = true → ((s.lineSet c q).lines c).inp.floating = false →
        ((s.lineSet c q).lines c).pin = ((s.lineSet c q).lines c).inp.data) := by
  obtain ⟨m, hset, hfun, -, -, houtside⟩ := setTo_general (s.lines c) (LineSettings.ofByte (byteAt q.area 2))
    (LineSettings.ofByte (byteAt q.area 3)) s.freeBit
  rw [lineSet_general h, hset, drive_eq]
  exact ⟨fun hout hpull => (inLevel_pulled hout hpull).trans (by rw [houtside]),
    fun hout hfloat => inLevel_output hfun hout hfloat⟩

theorem lineSet_other (q : Request) (h : d ≠ c) : (s.lineSet c q).lines d = s.lines d := by
  simp [State.lineSet, State.lines, State.mapLines, State.drawn, h]

theorem exec_lineSet (h : s.serving .lineSet .office q) (hc : q.counter = some c) (hfun : byteAt q.area 1 ≤ 1) :
    ∃ draws, exec .lineSet s = .next { s with
      tlu := (s.lineSet c q).tlu
      rgi := s.rgi.replyDue .office q .nobody (((s.lineSet c q).lines c).reply ((s.lineSet c q).outPin c))
      draws := draws } := by
  have hread := lineRead_only ((s.taken q true).lineSet c q) c
  refine ⟨(((s.taken q true).lineSet c q).lineRead c).draws, ?_⟩
  show execLineSet s = _
  rw [execLineSet, whenInService_serveCounter (u := ((s.taken q true).lineSet c q).lineRead c) h hc
    (if_neg (Nat.not_lt.2 hfun)) (by rw [hread]; rfl), hread]
  rfl

/-! ### The drawer's level and timers (R149 to R151) -/

/-- The counter lines with one pair changed. -/
theorem mapLines_eq (s : State) (c : Counter) (f : LinePair → LinePair) :
    s.mapLines c f = { s with tlu := { s.tlu with lines := s.tlu.lines.set c (f (s.lines c)) } } := rfl

theorem mapLines_lines (s : State) (c : Counter) (f : LinePair → LinePair) : (s.mapLines c f).lines c = f (s.lines c) := by
  simp [State.lines, State.mapLines]

theorem mapLines_other (s : State) (f : LinePair → LinePair) (h : d ≠ c) : (s.mapLines c f).lines d = s.lines d := by
  simp [State.lines, State.mapLines, h]

/-- A pair with its level counted. -/
def LinePair.countedLevel (l : LinePair) : LinePair := { l with counted := l.pin, timing := false, fresh := false }

/-- A level put on the pin of a pair in DRAWER function that has been counted since the filter started. -/
theorem putOutside_drawer {level : Bool} (hfun : l.function = .drawer) (hpin : l.pin ≠ level) (hfresh : l.fresh = false) :
    l.putOutside level = { l with pin := level, outside := some level, timing := decide (level ≠ l.counted) } := by
  have hdriven : l.inDriven = none := if_neg (by simp [hfun])
  simp only [LinePair.putOutside, hdriven, Option.isSome_none, Bool.false_eq_true, if_false, LinePair.pinTo, hpin, hfresh,
    Bool.false_or]

theorem exec_drwInChange (hlive : s.live = true) (level : Bool) :
    exec (.drwInChange c level) s = .next (s.mapLines c fun l => l.putOutside level) := by
  show execDrwInChange c level s = _
  rw [execDrwInChange, if_pos hlive]

theorem exec_levelCounted (hlive : s.live = true) (h : (s.lines c).timing = true) :
    exec (.levelCounted c) s = .next (s.countLevel c) :=
  (whenLive_of_live _ hlive).trans (congrArg _ (if_pos h))

theorem exec_pulseEnd (hlive : s.live = true) (h : (s.lines c).pulse = true) :
    exec (.pulseEnd c) s = .next (s.mapLines c fun l => { l with pulse := false }) :=
  (whenLive_of_live _ hlive).trans (congrArg _ (if_pos h))

theorem exec_stuckTimerExpiry (hlive : s.live = true) (h : (s.lines c).stuck = true) :
    exec (.stuckTimerExpiry c) s =
      .next ((s.mapLines c fun l => { l with stuck := false, drawer := .shut }).raise (.drawerStuck c)) :=
  (whenLive_of_live _ hlive).trans (congrArg _ (if_pos h))

theorem exec_longTimerExpiry (hlive : s.live = true) (h : (s.lines c).long = true) :
    exec (.longTimerExpiry c) s = .next ((s.mapLines c fun l => { l with long := false }).raise (.drawerLong c)) :=
  (whenLive_of_live _ hlive).trans (congrArg _ (if_pos h))

/-- From `s` to `t` the drawer of a counter, its stuck and long timers and the status bits may have moved. -/
structure State.movesDrawer (c : Counter) (s t : State) : Prop where
  counted : (t.lines c).counted = (s.lines c).counted
  timing : (t.lines c).timing = (s.lines c).timing
  pin : (t.lines c).pin = (s.lines c).pin
  others : ∀ d, d ≠ c → t.lines d = s.lines d
  tills : t.tlu.tills = s.tlu.tills
  only : t = { s with tlu := t.tlu, atc := t.atc }

theorem movesDrawer_refl (c : Counter) (s : State) : s.movesDrawer c s := ⟨rfl, rfl, rfl, fun _ _ => rfl, rfl, rfl⟩

/-- A change of a pair that keeps its level moves its drawer. -/
theorem movesDrawer_mapLines {f : LinePair → LinePair} (hcounted : (f (s.lines c)).counted = (s.lines c).counted)
    (htiming : (f (s.lines c)).timing = (s.lines c).timing) (hpin : (f (s.lines c)).pin = (s.lines c).pin) :
    s.movesDrawer c (s.mapLines c f) where
  counted := by rw [mapLines_lines, hcounted]
  timing := by rw [mapLines_lines, htiming]
  pin := by rw [mapLines_lines, hpin]
  others _ hd := mapLines_other s f hd
  tills := rfl
  only := rfl

theorem movesDrawer_raise {t : State} (b : Status) (h : s.movesDrawer c t) : s.movesDrawer c (t.raise b) where
  counted := h.counted
  timing := h.timing
  pin := h.pin
  others := h.others
  tills := h.tills
  only := congrArg (fun u : State => ({ u with atc := (t.raise b).atc } : State)) h.only

theorem raise_lines (b : Status) (d : Counter) : (s.raise b).lines d = s.lines d := rfl

theorem drawerOpening_of_shut (h : (s.lines c).drawer = .shut) :
    s.drawerOpening c = (s.mapLines c fun l => { l with drawer := .opened, long := true }).raise (.drawerForced c) := by
  simp only [State.drawerOpening, h]

theorem drawerOpening_of_released (h : (s.lines c).drawer = .released) :
    s.drawerOpening c = s.mapLines c fun l => { l with drawer := .opened, stuck := false, long := true } := by
  simp only [State.drawerOpening, h]

theorem drawerOpening_of_opened (h : (s.lines c).drawer = .opened) : s.drawerOpening c = s := by
  simp only [State.drawerOpening, h]

theorem drawerClosing_of_opened (h : (s.lines c).drawer = .opened) :
    s.drawerClosing c = s.mapLines c fun l => { l with drawer := .shut, long := false } := by
  simp only [State.drawerClosing, h]

theorem drawerClosing_of_not_opened (h : (s.lines c).drawer ≠ .opened) : s.drawerClosing c = s := by
  unfold State.drawerClosing
  cases hd : (s.lines c).drawer with
  | shut => rfl
  | released => rfl
  | opened => exact absurd hd h

theorem drawerOpening_moves (s : State) (c : Counter) : s.movesDrawer c (s.drawerOpening c) := by
  cases h : (s.lines c).drawer with
  | shut =>
    rw [drawerOpening_of_shut h]
    exact movesDrawer_raise _ (movesDrawer_mapLines rfl rfl rfl)
  | released =>
    rw [drawerOpening_of_released h]
    exact movesDrawer_mapLines rfl rfl rfl
  | opened =>
    rw [drawerOpening_of_opened h]
    exact movesDrawer_refl c s

theorem drawerClosing_moves (s : State) (c : Counter) : s.movesDrawer c (s.drawerClosing c) := by
  by_cases h : (s.lines c).drawer = .opened
  · rw [drawerClosing_of_opened h]
    exact movesDrawer_mapLines rfl rfl rfl
  · rw [drawerClosing_of_not_opened h]
    exact movesDrawer_refl c s

/-- The part with the level of a pair counted (R149). -/
def State.levelTaken (s : State) (c : Counter) : State := s.mapLines c LinePair.countedLevel

theorem levelTaken_lines (s : State) (c : Counter) : (s.levelTaken c).lines c = (s.lines c).countedLevel :=
  mapLines_lines _ _ _

theorem countLevel_of_general (h : (s.lines c).function = .general) : s.countLevel c = s.levelTaken c :=
  if_neg (by simp [h])

theorem countLevel_of_rise (hfun : (s.lines c).function = .drawer) (hlow : (s.lines c).counted = false)
    (hhigh : (s.lines c).pin = true) : s.countLevel c = (s.levelTaken c).drawerOpening c :=
  (if_pos hfun).trans (if_pos (by simp [hlow, hhigh]))

theorem countLevel_of_fall (hfun : (s.lines c).function = .drawer) (hhigh : (s.lines c).counted = true)
    (hlow : (s.lines c).pin = false) : s.countLevel c = (s.levelTaken c).drawerClosing c :=
  (if_pos hfun).trans ((if_neg (by simp [hhigh])).trans (if_pos (by simp [hlow, hhigh])))

/-- A level counted, and then the drawer alone. -/
theorem countLevel_moves (s : State) (c : Counter) : (s.levelTaken c).movesDrawer c (s.countLevel c) := by
  by_cases hfun : (s.lines c).function = .drawer
  · by_cases hrise : (!(s.lines c).counted && (s.lines c).pin) = true
    · rw [show s.countLevel c = (s.levelTaken c).drawerOpening c from (if_pos hfun).trans (if_pos hrise)]
      exact drawerOpening_moves _ c
    by_cases hfall : ((s.lines c).counted && !(s.lines c).pin) = true
    · rw [show s.countLevel c = (s.levelTaken c).drawerClosing c from
        (if_pos hfun).trans ((if_neg hrise).trans (if_pos hfall))]
      exact drawerClosing_moves _ c
    · rw [show s.countLevel c = s.levelTaken c from (if_pos hfun).trans ((if_neg hrise).trans (if_neg hfall))]
      exact movesDrawer_refl c _
  · rw [show s.countLevel c = s.levelTaken c from if_neg hfun]
    exact movesDrawer_refl c _

/-- What a rise counted leaves of the drawer (R151). -/
theorem countLevel_rise (hfun : (s.lines c).function = .drawer) (hlow : (s.lines c).counted = false)
    (hhigh : (s.lines c).pin = true) :
    ((s.countLevel c).lines c).drawer = .opened ∧
      ((s.lines c).drawer ≠ .opened → ((s.countLevel c).lines c).long = true) ∧
      ((s.lines c).drawer = .shut → (s.countLevel c).has (.drawerForced c) = true) ∧
      ((s.lines c).drawer = .released → ((s.countLevel c).lines c).stuck = false ∧ (s.countLevel c).atc = s.atc) := by
  rw [countLevel_of_rise hfun hlow hhigh]
  have hdrawer : ((s.levelTaken c).lines c).drawer = (s.lines c).drawer := by
    rw [levelTaken_lines]
    rfl
  cases h : (s.lines c).drawer with
  | shut =>
    rw [drawerOpening_of_shut (hdrawer.trans h), raise_lines, mapLines_lines]
    exact ⟨rfl, fun _ => rfl, fun _ => has_raise_self _ _, fun hne => by simp at hne⟩
  | released =>
    rw [drawerOpening_of_released (hdrawer.trans h), mapLines_lines]
    exact ⟨rfl, fun _ => rfl, fun hne => by simp at hne, fun _ => ⟨rfl, rfl⟩⟩
  | opened =>
    rw [drawerOpening_of_opened (hdrawer.trans h)]
    exact ⟨hdrawer.trans h, fun hne => absurd rfl hne, fun hne => by simp at hne, fun hne => by simp at hne⟩

/-- What a fall counted leaves of the drawer (R151). -/
theorem countLevel_fall (hfun : (s.lines c).function = .drawer) (hhigh : (s.lines c).counted = true)
    (hlow : (s.lines c).pin = false) :
    (s.countLevel c).atc = s.atc ∧
      ((s.countLevel c).lines c).drawer = (if (s.lines c).drawer = .opened then .shut else (s.lines c).drawer) ∧
      ((s.lines c).drawer = .opened → ((s.countLevel c).lines c).long = false) := by
  rw [countLevel_of_fall hfun hhigh hlow]
  have hdrawer : ((s.levelTaken c).lines c).drawer = (s.lines c).drawer := by
    rw [levelTaken_lines]
    rfl
  by_cases h : (s.lines c).drawer = .opened
  · rw [drawerClosing_of_opened (hdrawer.trans h), mapLines_lines, if_pos h]
    exact ⟨rfl, rfl, fun _ => rfl⟩
  · rw [drawerClosing_of_not_opened (fun he => h (hdrawer.symm.trans he)), if_neg h]
    exact ⟨rfl, hdrawer, fun he => absurd he h⟩

end Sys2Proof.Machine

namespace Sys2Proof.Proofs

open Sys2Proof Sys2Proof.Machine

/-- Settles O41: the outcome stays in the till; a pair takes its settings; a counter above 7 is no counter. -/
theorem outcomeTakeLineAndCounterRequests : Obligations.OutcomeTakeLineAndCounterRequests := by
  refine ⟨fun s q c hc hs => ?_, fun s q c hc => ⟨fun hs hfun => ?_, fun hs => ?_⟩,
    fun s q k command hc hs hmem => ?_⟩
  · cases hout : (s.till c).outcome with
    | none => exact ⟨_, exec_outcomeTake_none hs hc hout, fun _ => rfl, rfl, rfl, rfl, rfl⟩
    | some o => exact ⟨_, exec_outcomeTake_held hs hc hout, fun _ => rfl, rfl, rfl, rfl, rfl⟩
  · obtain ⟨draws, hexec⟩ := exec_lineSet hs hc hfun
    obtain ⟨hf, hout, hinp⟩ := setTo_settings (s.lines c) (if byteAt q.area 1 = 1 then .drawer else .general)
      (LineSettings.ofByte (byteAt q.area 2)) (LineSettings.ofByte (byteAt q.area 3)) s.freeBit
    rw [← lineSet_lines] at hf hout hinp
    refine ⟨_, (s.lineSet c q).outPin c, hexec, rfl, hf, hout, hinp, fun hwas hnow => ?_, fun hwas hnow => ?_,
      fun hwas hnow => ?_, fun hnow => (lineSet_pin hnow).1, fun hnow => (lineSet_pin hnow).2,
      fun d hd => lineSet_other q hd, rfl, rfl⟩
    · have hkept := setTo_drawer_drawer (LineSettings.ofByte (byteAt q.area 2)) (LineSettings.ofByte (byteAt q.area 3))
        s.freeBit hwas
      rw [← lineSet_drawer hnow] at hkept
      exact hkept
    · have hshut := setTo_drawer_general (LineSettings.ofByte (byteAt q.area 2)) (LineSettings.ofByte (byteAt q.area 3))
        s.freeBit hwas
      rw [← lineSet_general hnow] at hshut
      exact hshut
    · have hopened := setTo_general_drawer (LineSettings.ofByte (byteAt q.area 2))
        (LineSettings.ofByte (byteAt q.area 3)) s.freeBit hwas
      rw [← lineSet_drawer hnow] at hopened
      exact hopened
  · obtain ⟨draws, hexec⟩ := exec_lineRead hs hc
    exact ⟨_, s.outPin c, hexec, rfl, rfl⟩
  · simp only [List.mem_cons, Prod.mk.injEq, List.not_mem_nil, or_false] at hmem
    obtain ⟨rfl, rfl⟩ | ⟨rfl, rfl⟩ | ⟨rfl, rfl⟩ | ⟨rfl, rfl⟩ | ⟨rfl, rfl⟩ | ⟨rfl, rfl⟩ | ⟨rfl, rfl⟩ | ⟨rfl, rfl⟩ := hmem <;>
      exact whenInService_serveCounter_above hs hc

/-- Settles O51: a level counted is the pair's level, and then the drawer's move; each timer's expiry is its one change. -/
theorem drawersFollowLevelsAndTimers : Obligations.DrawersFollowLevelsAndTimers := by
  refine ⟨fun s c hlive => ⟨fun level hfun hpin hfresh => ?_, fun htiming => ?_⟩,
    fun s c hlive => ⟨fun h => exec_pulseEnd hlive h, fun h => exec_stuckTimerExpiry hlive h,
      fun h => exec_longTimerExpiry hlive h⟩⟩
  · rw [exec_drwInChange hlive, mapLines_eq, putOutside_drawer hfun hpin hfresh]
  · have hmoves := countLevel_moves s c
    have hlines := levelTaken_lines s c
    refine ⟨_, exec_levelCounted hlive htiming, ?_, ?_, ?_, fun d hd => ?_, hmoves.tills, fun hfun => ?_,
      fun hfun hlow hhigh => countLevel_rise hfun hlow hhigh, fun hfun hhigh hlow => countLevel_fall hfun hhigh hlow, ?_⟩
    · rw [hmoves.counted, hlines]
      rfl
    · rw [hmoves.timing, hlines]
      rfl
    · rw [hmoves.pin, hlines]
      rfl
    · rw [hmoves.others d hd]
      exact mapLines_other s _ hd
    · rw [countLevel_of_general hfun, hlines]
      exact ⟨rfl, rfl⟩
    · exact hmoves.only

end Sys2Proof.Proofs
end

section
/-! PROOF. A grant written (R44 to R47, R80, R99 to R101): the price, the plan and the stamps of a sale, its reserve claim,
and the hold given back; the statement on HOLD_GRANT_DONE. -/

namespace Sys2Proof.Machine

variable {s : State}

/-! ### The blocks of a price (R31, R46) -/

/-- A block ends at or below a position. -/
def PriceBlock.endsBy (pos : Nat) (b : PriceBlock) : Bool :=
  match b.upper with
  | none => false
  | some upper => decide (upper ≤ pos)

theorem blocksFrom_eq (blocks : List PriceBlock) (pos : Nat) :
    blocksFrom blocks pos = blocks.dropWhile (PriceBlock.endsBy pos) := rfl

theorem endsBy_iff {pos : Nat} {b : PriceBlock} : b.endsBy pos = true ↔ ∃ upper, b.upper = some upper ∧ upper ≤ pos := by
  unfold PriceBlock.endsBy
  cases b.upper with
  | none => simp
  | some upper => simp

/-- The blocks of a list are those that end by a position, and then one that covers it, or none. -/
theorem blocksFrom_split (blocks : List PriceBlock) (pos : Nat) :
    blocks = blocks.takeWhile (PriceBlock.endsBy pos) ++ blocksFrom blocks pos ∧
      (∀ b ∈ blocks.takeWhile (PriceBlock.endsBy pos), ∃ upper, b.upper = some upper ∧ upper ≤ pos) ∧
      ∀ b rest upper, blocksFrom blocks pos = b :: rest → b.upper = some upper → pos < upper := by
  rw [blocksFrom_eq]
  refine ⟨List.takeWhile_append_dropWhile.symm, fun b hb => endsBy_iff.1 (List.mem_takeWhile_imp hb),
    fun b rest upper hcons hupper => ?_⟩
  have hhead : ¬ b.endsBy pos = true := by
    have hnot := List.head?_dropWhile_not (PriceBlock.endsBy pos) blocks
    rw [hcons] at hnot
    simpa using hnot
  by_contra hle
  exact hhead (endsBy_iff.2 ⟨upper, hupper, Nat.not_lt.1 hle⟩)

/-- The open-ended block is not below any position. -/
theorem open_mem_blocksFrom {blocks : List PriceBlock} (pos : Nat) (h : ∃ b ∈ blocks, b.upper = none) :
    ∃ b ∈ blocksFrom blocks pos, b.upper = none := by
  obtain ⟨b, hb, hopen⟩ := h
  obtain ⟨hsplit, hbelow, -⟩ := blocksFrom_split blocks pos
  rw [hsplit, List.mem_append] at hb
  obtain hb | hb := hb
  · obtain ⟨upper, hupper, -⟩ := hbelow b hb
    simp [hopen] at hupper
  · exact ⟨b, hb, hopen⟩

/-- The computation of the walk is the walk, on blocks of which one is open-ended (R46). -/
theorem walks_blockWalk (blocks : List PriceBlock) (pos budget : Nat) (h : ∃ b ∈ blocks, b.upper = none) :
    Walks blocks pos budget (blockWalk blocks pos budget).1 (blockWalk blocks pos budget).2 := by
  induction blocks generalizing pos budget with
  | nil => simp at h
  | cons b rest ih =>
    cases hupper : b.upper with
    | none =>
      rw [show blockWalk (b :: rest) pos budget = (budget / b.price, budget % b.price) by simp only [blockWalk, hupper]]
      exact Walks.stop b rest pos budget fun upper hu => by simp [hupper] at hu
    | some upper =>
      by_cases hfits : budget / b.price ≤ upper - pos
      · rw [show blockWalk (b :: rest) pos budget = (budget / b.price, budget % b.price) by
          simp only [blockWalk, hupper, hfits, if_true]]
        refine Walks.stop b rest pos budget fun u hu => ?_
        rw [Option.some.inj (hupper.symm.trans hu)] at hfits
        exact hfits
      · have hrest : ∃ x ∈ rest, x.upper = none := by
          obtain ⟨x, hx, hopen⟩ := h
          obtain rfl | hx := List.mem_cons.1 hx
          · simp [hupper] at hopen
          · exact ⟨x, hx, hopen⟩
        have hwalk : blockWalk (b :: rest) pos budget =
            (upper - pos + (blockWalk rest upper (budget - (upper - pos) * b.price)).1,
              (blockWalk rest upper (budget - (upper - pos) * b.price)).2) := by
          simp only [blockWalk, hupper, hfits, if_false]
        rw [hwalk]
        exact Walks.on b rest pos budget upper _ _ hupper (Nat.not_le.1 hfits) (ih _ _ hrest)

/-! ### The price and the stamps (R43 to R47, R80) -/

/-- The walk of a price: from the position's block, over the money after the deduction, with the carry. -/
def priceWalk (e : ClassEntry) (m : Nat) (v : RecordView) (money : Nat) : Nat × Nat :=
  blockWalk (blocksFrom e.blocks (position v m)) (position v m)
    (100 * (money - deduction v.arrears money) + v.carry)

/-- A price is refused for a closed class, for nothing to sell or for too many units, and is else the walk's. -/
theorem priceDecision_some (u : Tfu) (m : Nat) (v : RecordView) (money : Nat) :
    let e := u.entry u.bank.active v.supplyClass
    let allowance := if allowanceDue v e m then e.allowance else 0
    priceDecision u (some m) v money =
      if e.isOpen = false then .refused .classClosed
      else if (priceWalk e m v money).1 = 0 ∧ allowance = 0 then .refused .tooSmall
      else if maxUnits < (priceWalk e m v money).1 then .refused .amountRange
      else .priced
        ⟨m, u.bank.generation.get u.bank.active, deduction v.arrears money, money - deduction v.arrears money, allowance,
          (priceWalk e m v money).1, (priceWalk e m v money).2, min (position v m + (priceWalk e m v money).1) max32⟩ := rfl

theorem allowanceDue_iff {v : RecordView} {e : ClassEntry} {m : Nat} :
    allowanceDue v e m = true ↔ v.monthNumber ≠ m ∧ 0 < e.allowance ∧ v.allowanceMonth ≠ some m := by
  simp only [allowanceDue, Bool.and_eq_true, decide_eq_true_eq, and_assoc]

theorem allowance_eq (v : RecordView) (e : ClassEntry) (m : Nat) :
    (if allowanceDue v e m then e.allowance else 0) =
      if v.monthNumber ≠ m ∧ 0 < e.allowance ∧ v.allowanceMonth ≠ some m then e.allowance else 0 := by
  simp only [allowanceDue_iff]

/-- The stamps of a claim follow one another from the first. -/
theorem getElem?_range_add (f n i : Nat) (h : i < n) : ((List.range n).map fun k => f + k)[i]? = some (f + i) := by
  simp [h]

/-! ### The reserve claim of a sale (R60, R61, R101) -/

/-- A context whose sale is priced, planned and stamped, and whose reserve claim is made. -/
def Ctx.pricedFor (x : Ctx) (p : PriceResult) (plan : List PlannedToken) (stamps : List Nat) : Ctx :=
  { x with price := some p, plan := plan, stamps := stamps, await := .reserve }

/-- FLU can reserve a sale's money at once (R61). -/
structure Flu.reserves (f : Flu) (c : Counter) (money : Nat) : Prop where
  queue : f.queue = []
  writing : f.writing = none
  entry : f.entries.get c = .free
  money : money ≤ f.available
  serial : f.nextSerial + f.issuing ≤ 4294967294

theorem reserveRefusal_eq_none {f : Flu} {c : Counter} {sale : Sale} (h : f.reserves c sale.money) :
    f.reserveRefusal c sale = none := by
  have hmoney := h.money
  have hserial := h.serial
  rw [Flu.reserveRefusal, if_neg (not_not.2 h.entry), if_neg (by rw [maxSerial]; omega)]

/-- The part with a sale's reserve claim begun: the entry's write under way, and the context priced. -/
def State.reserving (s : State) (c : Counter) (q : CtxRequest) (v : RecordView) (p : PriceResult) (stamps : List Nat) :
    State :=
  { s.mapCtx (.counter c) fun x => x.pricedFor p (planOf v.rollGeneration p) stamps with
    flu := { s.flu with writing := some (.reserve c (saleOf q v p (planOf v.rollGeneration p))) } }

theorem reserving_ctx (s : State) (c : Counter) (q : CtxRequest) (v : RecordView) (p : PriceResult)
    (stamps : List Nat) (h : Holder) :
    (s.reserving c q v p stamps).ctx h =
      if h = .counter c then (s.ctx (.counter c)).pricedFor p (planOf v.rollGeneration p) stamps else s.ctx h :=
  ctx_mapCtx s (.counter c) h fun x => x.pricedFor p (planOf v.rollGeneration p) stamps

/-- A sale that is priced and stamped, and that FLU can reserve: its reserve claim begins the entry's write. -/
theorem priceAndReserve_reserves {c : Counter} {q : CtxRequest} {v : RecordView} {p : PriceResult} {stamps : List Nat}
    (hp : priceDecision s.tfu s.month v q.money = .priced p)
    (hstamps : s.tke.stampDecision v.lastStamp (planOf v.rollGeneration p).length = .stamped stamps)
    (hflu : s.flu.reserves c q.money) :
    (s.priceAndReserve c q v).pumpFloat = s.reserving c q v p stamps := by
  have hclaim : s.priceAndReserve c q v =
      (s.mapCtx (.counter c) fun x => x.pricedFor p (planOf v.rollGeneration p) stamps).claimFloat
        (.reserve c (saleOf q v p (planOf v.rollGeneration p))) := by
    simp only [State.priceAndReserve, hp, hstamps]
    rfl
  rw [hclaim]
  exact pumpFloat_reserve _ c _ hflu.queue hflu.writing (reserveRefusal_eq_none hflu)

/-- A sale refused by its price or its stamps gives the hold back (R102). -/
theorem priceAndReserve_refused {c : Counter} {q : CtxRequest} {v : RecordView} {code : ResultCode}
    (h : priceDecision s.tfu s.month v q.money = .refused code ∨
      ∃ p, priceDecision s.tfu s.month v q.money = .priced p ∧
        s.tke.stampDecision v.lastStamp (planOf v.rollGeneration p).length = .refused code) :
    s.priceAndReserve c q v = s.refuseHeld (.counter c) ⟨code, []⟩ := by
  obtain hprice | ⟨p, hprice, hstamp⟩ := h
  · simp only [State.priceAndReserve, hprice]
    rfl
  · simp only [State.priceAndReserve, hprice, hstamp]
    rfl

/-- A counter's request goes on under the hold to its price. -/
theorem proceed_counter {c : Counter} {q : CtxRequest} {v : RecordView}
    (hreq : (s.ctx (.counter c)).request = some q) (hview : (s.ctx (.counter c)).view = some v) :
    s.proceed (.counter c) = s.priceAndReserve c q v := by
  simp only [State.proceed, hreq, hview]

/-! ### A grant written (R98, R102, R115) -/

theorem endStopped_eq {h : Holder} {mark : StopMark} (hstop : (s.ctx h).stop = some mark) :
    s.endStopped h = s.refuseHeld h ⟨mark.code, []⟩ := by
  simp only [State.endStopped, State.stopReply, hstop]
  rfl

/-- A grant written that no claim waited on, to a holder that has been stopped: the hold is given back. -/
theorem grantWritten_stopped {h : Holder} {w : RecordWrite} {mark : StopMark} (hnone : s.noneWaits w)
    (hstop : (s.ctx h).stop = some mark) :
    s.grantWritten h w = ((s.endWrite (isGrantOf h)).refuseHeld h ⟨mark.code, []⟩).pumpFloat := by
  have hmark : ((s.endWrite (isGrantOf h)).ctx h).stop = some mark := hstop
  rw [State.grantWritten, finishWrite_alone hnone]
  have hsome : ((s.endWrite (isGrantOf h)).ctx h).stop.isSome = true := by
    rw [hmark]
    rfl
  rw [← endStopped_eq hmark]
  exact congrArg State.pumpFloat (if_pos hsome)

/-- What ends a request at its grant (R102, R115). -/
def State.grantEnds (s : State) (c : Counter) (k : CtxRequest) (v : RecordView) (code : ResultCode) : Prop :=
  (s.ctx (.counter c)).stop = some .cancel ∧ code = .cancelled ∨
    (s.ctx (.counter c)).stop = some .engineReset ∧ code = .engineReset ∨
    (s.ctx (.counter c)).stop = none ∧ priceDecision s.tfu s.month v k.money = .refused code ∨
    (s.ctx (.counter c)).stop = none ∧
      ∃ p, priceDecision s.tfu s.month v k.money = .priced p ∧
        s.tke.stampDecision v.lastStamp (planOf v.rollGeneration p).length = .refused code

theorem grantWritten_ends {c : Counter} {w : RecordWrite} {k : CtxRequest} {v : RecordView} {code : ResultCode}
    (hnone : s.noneWaits w) (hreq : (s.ctx (.counter c)).request = some k)
    (hview : (s.ctx (.counter c)).view = some v) (hends : s.grantEnds c k v code) :
    s.grantWritten (.counter c) w =
      ((s.endWrite (isGrantOf (.counter c))).refuseHeld (.counter c) ⟨code, []⟩).pumpFloat := by
  have hproceed := proceed_counter (s := s.endWrite (isGrantOf (.counter c))) hreq hview
  obtain ⟨hstop, rfl⟩ | ⟨hstop, rfl⟩ | ⟨hstop, hprice⟩ | ⟨hstop, hstamp⟩ := hends
  · exact grantWritten_stopped (mark := .cancel) hnone hstop
  · exact grantWritten_stopped (mark := .engineReset) hnone hstop
  · rw [grantWritten_proceeds hnone hstop, hproceed, priceAndReserve_refused (s := s.endWrite _) (Or.inl hprice)]
  · rw [grantWritten_proceeds hnone hstop, hproceed, priceAndReserve_refused (s := s.endWrite _) (Or.inr hstamp)]

end Sys2Proof.Machine

namespace Sys2Proof.Proofs

open Sys2Proof Sys2Proof.Machine

/-- Settles O43: the grant's request reserves or gives the hold back; a price is the walk's; the stamps follow the first. -/
theorem aGrantWrittenPricesAndReservesOrGivesBack : Obligations.AGrantWrittenPricesAndReservesOrGivesBack := by
  refine ⟨fun s c w q v p stamps hin hdue hnone hstop hreq hview hprice hstamps hqueue hwriting hfree hmoney hserial => ?_,
    fun s c w q k v slot r code hin hdue hnone hat hholds hqueue hreq hview hcode hends => ?_, fun u m v money => ?_,
    fun p => ⟨rfl, fun g => rfl⟩, fun k last n => ⟨fun hvalid => ?_, fun hvalid hahead => ?_,
      fun hvalid hnear hpast => ?_, fun hvalid hnear hfits => ?_⟩⟩
  · have hdone : s.grantWritten (.counter c) w = (s.endWrite (isGrantOf (.counter c))).reserving c q v p stamps := by
      rw [grantWritten_proceeds hnone hstop, proceed_counter (s := s.endWrite (isGrantOf (.counter c))) hreq hview]
      exact priceAndReserve_reserves hprice hstamps ⟨hqueue, hwriting, hfree, hmoney, hserial⟩
    rw [exec_holdGrantDone_due hin hdue (by rw [hdone]; rfl), hdone]
    refine ⟨_, rfl, rfl, ?_, fun h hne => ?_, rfl, rfl⟩
    · exact (reserving_ctx _ c q v p stamps _).trans (if_pos rfl)
    · exact (reserving_ctx _ c q v p stamps h).trans (if_neg hne)
  · obtain ⟨hrgi, htable, hstate, hpending, hstop, hplan, hothers, honly⟩ :=
      refuseHeld_alone (s.endWrite (isGrantOf (.counter c))) (.counter c) q slot r ⟨code, []⟩ hat hholds hcode
    have hdone := grantWritten_ends hnone hreq hview hends
    rw [pumpFloat_empty _ (by rw [honly]; exact hqueue)] at hdone
    rw [exec_holdGrantDone_due hin hdue (by rw [hdone, honly]; rfl), hdone]
    exact ⟨_, rfl, hrgi, htable, hstate, hpending, hstop, hplan, hothers, honly⟩
  · refine ⟨rfl, fun hopen => ?_⟩
    obtain ⟨hsplit, hbelow, hcovers⟩ := blocksFrom_split (u.entry u.bank.active v.supplyClass).blocks (position v m)
    refine ⟨_, _, _, _, hsplit, hbelow, hcovers, walks_blockWalk _ _ _ (open_mem_blocksFrom _ hopen), ?_⟩
    rw [priceDecision_some, allowance_eq]
    rfl
  · rw [Tke.stampDecision, if_pos hvalid]
  · rw [Tke.stampDecision, if_neg (by rw [hvalid]; decide), if_pos hahead]
  · rw [Tke.stampDecision, if_neg (by rw [hvalid]; decide), if_neg (Nat.not_lt.2 hnear),
      if_pos (show maxMinute < _ from hpast)]
  · refine ⟨_, ?_, by simp, fun i hi => getElem?_range_add (max k.minute (last + 1)) n i hi⟩
    rw [Tke.stampDecision, if_neg (by rw [hvalid]; decide), if_neg (Nat.not_lt.2 hnear),
      if_neg (show ¬ maxMinute < _ from Nat.not_lt.2 hfits)]

end Sys2Proof.Proofs
end

section
/-! PROOF. A reservation written and released (R61, R62, R101, R103) and a job completed (R74, R76, R103, R104, R132); the
statements on RESERVE_DONE, RESERVATION_RELEASED and JOB_COMPLETE. -/

namespace Sys2Proof.Machine

variable {s t : State} {c : Counter}

/-! ### A completed write of FLU (R58, R59) -/

/-- A watched write of FLU changes FLU and the status bits alone. -/
theorem watchFloat_only (f : Flu → Flu) (s : State) :
    watchFloat f s = { s with flu := (watchFloat f s).flu, atc := (watchFloat f s).atc } := by
  simp only [watchFloat]
  rw [raiseIf_only, raiseIf_only (s := s.mapFlu _)]
  rfl

theorem completeFloat_only (s : State) (k : FloatClaim) :
    s.completeFloat k = { s with flu := (s.completeFloat k).flu, atc := (s.completeFloat k).atc } := watchFloat_only _ s

theorem completeFloat_watched (s : State) (k : FloatClaim) :
    floatWatched s (s.completeFloat k) { s.flu.complete k with writing := none } := watchFloat_watched s _ _ rfl

theorem floatWatched.congr {b : Flu} {t' : State} (h : floatWatched s t b) (hflu : t'.flu = t.flu) (hatc : t'.atc = t.atc) :
    floatWatched s t' b := ⟨hflu.trans h.1, hatc.trans h.2⟩

/-- A claim that completes changes no claim that waits. -/
theorem complete_queue (f : Flu) (k : FloatClaim) : (f.complete k).queue = f.queue := by
  match k with
  | .reserve c sale => rfl
  | .release c => rfl
  | .seal c tokens =>
    show (f.seal c tokens).queue = f.queue
    unfold Flu.seal
    cases f.entries.get c <;> rfl
  | .floatPart c =>
    show (match f.sealedImage c with | some i => f.consume c i | none => f).queue = f.queue
    cases f.sealedImage c <;> rfl
  | .free c => rfl
  | .grant n a => rfl
  | .recall n a => rfl
  | .terms a b c => rfl

theorem completeFloat_queue (s : State) (k : FloatClaim) : (s.completeFloat k).flu.queue = s.flu.queue := by
  rw [(completeFloat_watched s k).1]
  exact complete_queue s.flu k

/-! ### The units that a request and a hold stand in -/

theorem ctx_congr (h : t.vnc = s.vnc) (k : Holder) : t.ctx k = s.ctx k := by rw [State.ctx, State.ctx, h]

/-- A request at its owner stands in VNC and RGI. -/
theorem State.atOwner.congr {k : Holder} {q : Request} (h : s.atOwner k q) (hvnc : t.vnc = s.vnc) (hrgi : t.rgi = s.rgi) :
    t.atOwner k q := by
  rw [State.atOwner, State.ring, hrgi, ctx_congr hvnc]
  exact h

/-- A hold stands in VNC and ADIR. -/
theorem State.holds.congr {k : Holder} {slot : Nat} {r : MeterRecord} (h : s.holds k slot r) (hvnc : t.vnc = s.vnc)
    (hadir : t.adir = s.adir) : t.holds k slot r := by
  rw [State.holds, State.record, hadir, ctx_congr hvnc]
  exact h

theorem State.holdsAlone.congr {k : Holder} {slot : Nat} {r : MeterRecord} (h : s.holdsAlone k slot r)
    (hvnc : t.vnc = s.vnc) (hadir : t.adir = s.adir) : t.holdsAlone k slot r := by
  rw [State.holdsAlone, State.record, hadir, ctx_congr hvnc, hvnc]
  exact h

/-! ### RESERVE_DONE and RESERVATION_RELEASED -/

/-- The part with a reservation's write ended: the plan submitted, or the reservation of a stopped sale released. -/
def State.reserved (s : State) (c : Counter) (sale : Sale) : State :=
  let t := s.completeFloat (.reserve c sale)
  (if (t.ctx (.counter c)).stop.isSome then
    (t.mapCtx (.counter c) fun x => { x with await := .release }).claimFloat (.release c)
  else t.submit (.counter c) sale.meter sale.plan (t.ctx (.counter c)).stamps).pumpFloat

theorem exec_reserveDone {sale : Sale} (hin : s.inService = true) (hw : s.flu.writing = some (.reserve c sale))
    (htills : (s.reserved c sale).tlu.tills = s.tlu.tills) : exec (.reserveDone c) s = .next (s.reserved c sale) := by
  show execReserveDone c s = _
  rw [execReserveDone]
  refine whenStoring_to hin ?_ htills
  simp only [hw, if_true]
  rfl

/-- A plan submitted to a working engine that has no job of the holder's joins the queue (R73, R103). -/
theorem submit_queued {h : Holder} (meter : Nat) (plan : List PlannedToken) (stamps : List Nat)
    (heng : s.tke.engine = .working) (hbusy : s.tke.busyWith h = false) :
    s.submit h meter plan stamps =
      (s.mapCtx h fun x => { x with await := .tokens }).mapTke fun k =>
        { k with queue := k.queue ++ jobsOf h meter plan stamps } := by
  have hsubmit : s.tke.submitDecision h = .queued := by
    rw [Tke.submitDecision, if_neg (by rw [heng]; decide), if_neg (by rw [hbusy]; exact Bool.false_ne_true)]
  simp only [State.submit, hsubmit]
  rw [State.queueJobs, if_neg (by rw [mapCtx_tke, heng]; decide)]

theorem reserved_submits {sale : Sale} (hqueue : s.flu.queue = []) (hstop : (s.ctx (.counter c)).stop = none)
    (heng : s.tke.engine = .working) (hbusy : s.tke.busyWith (.counter c) = false) :
    s.reserved c sale =
      ((s.completeFloat (.reserve c sale)).mapCtx (.counter c) fun x => { x with await := .tokens }).mapTke fun k =>
        { k with queue := k.queue ++ jobsOf (.counter c) sale.meter sale.plan (s.ctx (.counter c)).stamps } := by
  have honly := completeFloat_only s (.reserve c sale)
  have hq : (s.completeFloat (.reserve c sale)).flu.queue = [] := (completeFloat_queue s _).trans hqueue
  have hctx : (s.completeFloat (.reserve c sale)).ctx (.counter c) = s.ctx (.counter c) :=
    ctx_congr (completeFloat_vnc s _) _
  have htke : (s.completeFloat (.reserve c sale)).tke = s.tke := completeFloat_tke s _
  rw [State.reserved, hctx, hstop]
  simp only [Option.isSome_none, Bool.false_eq_true, if_false]
  rw [submit_queued _ _ _ (by rw [htke]; exact heng) (by rw [htke]; exact hbusy)]
  exact pumpFloat_empty _ hq

/-- The part with a release's write ended: the money is back, and the stopped context is wound back. -/
def State.released (s : State) (c : Counter) : State :=
  ((s.completeFloat (.release c)).endStopped (.counter c)).pumpFloat

theorem exec_reservationReleased (hin : s.inService = true) (hw : s.flu.writing = some (.release c))
    (htills : (s.released c).tlu.tills = s.tlu.tills) : exec (.reservationReleased c) s = .next (s.released c) := by
  show execReservationReleased c s = _
  rw [execReservationReleased]
  refine whenStoring_to hin ?_ htills
  simp only [hw, if_true]
  rfl

/-! ### The next job (R74, R75) -/

/-- The engine's next job changes TKE alone, and may draw a key (log entry 2). -/
theorem nextJob_only (s : State) : s.nextJob = { s with tke := s.nextJob.tke, draws := s.nextJob.draws } := by
  unfold State.nextJob
  cases s.tke.queue with
  | nil => rfl
  | cons j rest =>
    dsimp only
    cases jobKey s.adir.table j <;> rfl

theorem nextJob_idle (h : s.tke.queue = []) :
    s.nextJob = { s with tke := { s.tke with engine := .idle, work := none } } := by
  have hidle : s.nextJob = s.mapTke fun k => { k with engine := .idle, work := none } := by simp only [State.nextJob, h]
  exact hidle

theorem nextJob_takes {j : Job} {rest : List Job} {key : BitVec 60} {half : BitVec 30} (h : s.tke.queue = j :: rest)
    (hkey : jobKey s.adir.table j = some (key, half)) : s.nextJob = s.mapTke fun k => k.takeJob j rest key half := by
  simp only [State.nextJob, h, hkey]

/-- A job whose key is not there, which R75 rules out, takes a free key (log entry 4). -/
theorem nextJob_draws {j : Job} {rest : List Job} (h : s.tke.queue = j :: rest) (hkey : jobKey s.adir.table j = none) :
    s.nextJob = s.drawn.mapTke fun k =>
      k.takeJob j rest (Config.freeKey (2 * s.draws)) (low30 (Config.freeKey (2 * s.draws + 1))) := by
  simp only [State.nextJob, h, hkey]

/-- A claim on FLU and the engine's next job are made in either order. -/
theorem nextJob_claimFloat (s : State) (k : FloatClaim) : (s.claimFloat k).nextJob = s.nextJob.claimFloat k := by
  cases hq : s.tke.queue with
  | nil =>
    rw [nextJob_idle (s := s.claimFloat k) hq, nextJob_idle hq]
    rfl
  | cons j rest =>
    cases hkey : jobKey s.adir.table j with
    | none =>
      rw [nextJob_draws (s := s.claimFloat k) hq hkey, nextJob_draws hq hkey]
      rfl
    | some found =>
      rw [nextJob_takes (s := s.claimFloat k) hq hkey, nextJob_takes hq hkey]
      rfl

theorem nextJob_ctx (s : State) (h : Holder) : s.nextJob.ctx h = s.ctx h := by
  rw [nextJob_only]
  rfl

/-! ### A digits return (R103, R104, R132) -/

/-- A context takes the digits of its plan. -/
def State.takesDigits (s : State) (h : Holder) : Prop :=
  (s.ctx h).state = .issuing ∧ (s.ctx h).stop = none ∧ (s.ctx h).await = .tokens

theorem digitsReturn_idle {h : Holder} {k : Token} (hnot : ¬ s.takesDigits h) : s.digitsReturn h k = s := if_neg hnot

theorem digitsReturn_more {h : Holder} {k : Token} (htakes : s.takesDigits h)
    (hmore : (s.ctx h).returns.length + 1 < (s.ctx h).plan.length) :
    s.digitsReturn h k = s.mapCtx h fun y => { y with returns := (s.ctx h).returns ++ [k] } :=
  (if_pos htakes).trans (if_pos (by rw [List.length_append]; exact hmore))

theorem digitsReturn_last_counter {k : Token} (htakes : s.takesDigits (.counter c))
    (hlast : (s.ctx (.counter c)).plan.length ≤ (s.ctx (.counter c)).returns.length + 1) :
    s.digitsReturn (.counter c) k =
      (s.mapCtx (.counter c) fun y => { y with returns := (s.ctx (.counter c)).returns ++ [k], await := .seal }).claimFloat
        (.seal c ((s.ctx (.counter c)).returns ++ [k])) :=
  (if_pos htakes).trans (if_neg (by rw [List.length_append]; exact Nat.not_lt.2 hlast))

/-- The office's context with its last digits: the commit is under way. -/
def State.officeDone (s : State) (k : Token) : State :=
  s.mapCtx .office fun y =>
    { y with returns := (s.ctx .office).returns ++ [k], state := .committing, await := .officeCommit }

/-- The office commit begun on a record. -/
def State.officeCommits (s : State) (k : Token) (slot : Nat) (r : MeterRecord) : State :=
  (((s.officeDone k).settleSlot slot).putRecord slot
    (r.officeCommit ((s.ctx .office).returns ++ [k]) (rollOf (s.ctx .office).plan))).beginWrite .officeCommit .office slot r

theorem officeCommits_ctx (s : State) (k : Token) (slot : Nat) (r : MeterRecord) (h : Holder) :
    (s.officeCommits k slot r).ctx h =
      if h = .office then
        { s.ctx .office with
          returns := (s.ctx .office).returns ++ [k], state := .committing, await := .officeCommit }
      else s.ctx h :=
  ctx_mapCtx s .office h fun y =>
    { y with returns := (s.ctx .office).returns ++ [k], state := .committing, await := .officeCommit }

theorem digitsReturn_last_office {k : Token} {slot : Nat} {r : MeterRecord} (htakes : s.takesDigits .office)
    (hlast : (s.ctx .office).plan.length ≤ (s.ctx .office).returns.length + 1) (hholds : s.holds .office slot r) :
    s.digitsReturn .office k = s.officeCommits k slot r := by
  obtain ⟨hslot, hrecord, hhold⟩ := hholds
  have hlong : ¬ ((s.ctx .office).returns ++ [k]).length < (s.ctx .office).plan.length := by
    rw [List.length_append]
    exact Nat.not_lt.2 hlast
  refine (if_pos htakes).trans ((if_neg hlong).trans ?_)
  simp only [hslot, hrecord, hhold, if_true]
  rfl

/-- A digits return leaves a part that differs in ADIR and VNC alone, and it may claim the seal of its counter's entry. -/
theorem digitsReturn_cases (s : State) (h : Holder) (k : Token) :
    ∃ u : State, u = { s with adir := u.adir, vnc := u.vnc } ∧ (∀ c, h = .counter c → u.adir = s.adir) ∧
      (s.digitsReturn h k = u ∨ ∃ c tokens, s.digitsReturn h k = u.claimFloat (.seal c tokens)) := by
  by_cases htakes : s.takesDigits h
  · by_cases hmore : (s.ctx h).returns.length + 1 < (s.ctx h).plan.length
    · refine ⟨s.digitsReturn h k, ?_, fun c _ => ?_, Or.inl rfl⟩ <;> rw [digitsReturn_more htakes hmore] <;> rfl
    cases h with
    | counter c =>
      refine ⟨_, ?_, fun d _ => ?_, Or.inr ⟨c, _, digitsReturn_last_counter htakes (Nat.not_lt.1 hmore)⟩⟩ <;> rfl
    | office =>
      have hlong : ¬ ((s.ctx .office).returns ++ [k]).length < (s.ctx .office).plan.length := by
        rw [List.length_append]
        exact hmore
      refine ⟨s.digitsReturn .office k, ?_, fun c hc => by simp at hc, Or.inl rfl⟩
      obtain ⟨hstate, hstop, hawait⟩ := htakes
      unfold State.digitsReturn
      dsimp only
      rw [if_pos ⟨hstate, hstop, hawait⟩, if_neg hlong]
      split
      · rfl
      · split
        · rfl
        · split <;> rfl
  · exact ⟨s, rfl, fun _ _ => rfl, Or.inl (digitsReturn_idle htakes)⟩

/-! ### The seal claim (R63, R104) -/

/-- The take of a seal claim changes FLU's write under way at most. -/
theorem takeFloat_seal_only (s : State) (c : Counter) (tokens : List Token) :
    s.takeFloat (.seal c tokens) = { s with flu := (s.takeFloat (.seal c tokens)).flu } ∧
      (s.takeFloat (.seal c tokens)).flu.queue = s.flu.queue := by
  unfold State.takeFloat
  dsimp only
  cases s.flu.entries.get c <;> exact ⟨rfl, rfl⟩

theorem takeFloat_seal_issuing {tokens : List Token} {sale : Sale} (h : s.flu.entries.get c = .issuing sale) :
    s.takeFloat (.seal c tokens) = { s with flu := { s.flu with writing := some (.seal c tokens) } } := by
  unfold State.takeFloat
  simp only [h]
  rfl

/-- A claim that waits behind a write under way. -/
theorem pumpFloat_waits {k : FloatClaim} (hq : s.flu.queue = []) (hw : s.flu.writing ≠ none) :
    (s.claimFloat k).pumpFloat = s.claimFloat k := by
  have hqueue : (s.claimFloat k).flu.queue = [k] := by simp [State.claimFloat, hq]
  have hwriting : (s.claimFloat k).flu.writing = s.flu.writing := rfl
  unfold State.pumpFloat
  rw [hqueue, List.length_singleton, if_pos (Nat.le_refl 1), drainFloat, hwriting]
  cases hs : s.flu.writing with
  | none => exact absurd hs hw
  | some x => rfl

/-- A seal claim that no other waits before moves FLU alone. -/
theorem pumpFloat_seal_only (s : State) (c : Counter) (tokens : List Token) (hq : s.flu.queue = []) :
    (s.claimFloat (.seal c tokens)).pumpFloat = { s with flu := (s.claimFloat (.seal c tokens)).pumpFloat.flu } := by
  obtain ⟨honly, hqueue⟩ := takeFloat_seal_only s c tokens
  by_cases hw : s.flu.writing = none
  · rw [pumpFloat_claim s _ hq hw (Or.inl (hqueue.trans hq))]
    exact honly
  · rw [pumpFloat_waits hq hw]
    rfl

/-! ### JOB_COMPLETE -/

/-- The part with the job in work completed. -/
def State.jobDone (s : State) (w : Work) : State :=
  ((if w.discard then s else s.digitsReturn w.job.owner w.token).nextJob).pumpFloat

theorem exec_jobComplete {w : Work} (hin : s.inService = true) (hw : s.tke.work = some w)
    (htills : (s.jobDone w).tlu.tills = s.tlu.tills) : exec .jobComplete s = .next (s.jobDone w) := by
  show execJobComplete s = _
  rw [execJobComplete]
  refine whenStoring_to hin ?_ htills
  simp only [hw]
  rfl

/-- A completed job whose digits make no claim: the next job follows. -/
theorem jobDone_of_kept {w : Work} {u : State} (hu : (if w.discard then s else s.digitsReturn w.job.owner w.token) = u)
    (hq : u.flu.queue = []) : s.jobDone w = u.nextJob := by
  rw [State.jobDone, hu]
  exact pumpFloat_empty _ (by rw [nextJob_only]; exact hq)

/-- A completed job whose digits claim the seal: the next job follows, and FLU takes the claim. -/
theorem jobDone_of_claim {w : Work} {u : State} {k : FloatClaim}
    (hu : (if w.discard then s else s.digitsReturn w.job.owner w.token) = u.claimFloat k) :
    s.jobDone w = (u.nextJob.claimFloat k).pumpFloat := by
  rw [State.jobDone, hu, nextJob_claimFloat]

/-- The part with the next job taken and the seal of a counter's entry being written. -/
def State.sealing (u : State) (c : Counter) (tokens : List Token) : State :=
  { u.nextJob with flu := { u.flu with writing := some (.seal c tokens) } }

theorem sealing_ctx (u : State) (c : Counter) (tokens : List Token) (h : Holder) :
    (u.sealing c tokens).ctx h = u.ctx h := nextJob_ctx u h

theorem sealing_adir (u : State) (c : Counter) (tokens : List Token) : (u.sealing c tokens).adir = u.adir := nextJob_adir u

/-- A seal claim that FLU takes at once (R63, R104). -/
theorem sealing_of_claim {w : Work} {u : State} {tokens : List Token} {sale : Sale}
    (hu : (if w.discard then s else s.digitsReturn w.job.owner w.token) = u.claimFloat (.seal c tokens))
    (hq : u.flu.queue = []) (hw : u.flu.writing = none) (hentry : u.flu.entries.get c = .issuing sale) :
    s.jobDone w = u.sealing c tokens := by
  have htake : u.nextJob.takeFloat (.seal c tokens) = u.sealing c tokens := by
    rw [takeFloat_seal_issuing (by rw [nextJob_flu]; exact hentry), nextJob_flu]
    rfl
  rw [jobDone_of_claim hu, pumpFloat_claim, htake]
  · rw [nextJob_flu]
    exact hq
  · rw [nextJob_flu]
    exact hw
  · rw [htake]
    exact Or.inl hq

/-- A completed job leaves TKE with its next job, and moves no till. -/
theorem jobDone_spec (w : Work) (hq : s.flu.queue = []) :
    ∃ u : State, (s.jobDone w).tke = u.nextJob.tke ∧ u.tke = s.tke ∧
      (∀ c, w.job.owner = .counter c → u.adir = s.adir) ∧ (s.jobDone w).tlu = s.tlu := by
  obtain ⟨u, honly, hadir, hreturn⟩ : ∃ u : State, u = { s with adir := u.adir, vnc := u.vnc } ∧
      (∀ c, w.job.owner = .counter c → u.adir = s.adir) ∧
      ((if w.discard then s else s.digitsReturn w.job.owner w.token) = u ∨ ∃ c tokens,
        (if w.discard then s else s.digitsReturn w.job.owner w.token) = u.claimFloat (.seal c tokens)) := by
    split
    · exact ⟨s, rfl, fun _ _ => rfl, Or.inl rfl⟩
    · exact digitsReturn_cases s w.job.owner w.token
  have hqueue : u.flu.queue = [] := by rw [honly]; exact hq
  have htlu : u.nextJob.tlu = s.tlu := by rw [nextJob_only, honly]
  refine ⟨u, ?_, by rw [honly], hadir, ?_⟩
  · obtain hkept | ⟨c, tokens, hclaim⟩ := hreturn
    · rw [jobDone_of_kept hkept hqueue]
    · rw [jobDone_of_claim hclaim, pumpFloat_seal_only _ _ _ (by rw [nextJob_only]; exact hqueue)]
  · obtain hkept | ⟨c, tokens, hclaim⟩ := hreturn
    · rw [jobDone_of_kept hkept hqueue]
      exact htlu
    · rw [jobDone_of_claim hclaim, pumpFloat_seal_only _ _ _ (by rw [nextJob_only]; exact hqueue)]
      exact htlu

end Sys2Proof.Machine

namespace Sys2Proof.Proofs

open Sys2Proof Sys2Proof.Machine

/-- Settles O44: the reservation's write is watched and the plan submitted; a release gives the money and the hold back. -/
theorem aReservationIsWrittenAndReleased : Obligations.AReservationIsWrittenAndReleased := by
  refine fun s c hin hqueue => ⟨fun sale hw hstop heng hbusy => ?_, fun q slot r mark hw hat hholds hstop => ?_⟩
  · have hwatched := completeFloat_watched s (.reserve c sale)
    have honly := completeFloat_only s (.reserve c sale)
    have hdone := reserved_submits (sale := sale) hqueue hstop heng hbusy
    have hctx : ∀ h, (s.completeFloat (.reserve c sale)).ctx h = s.ctx h := 
      ctx_congr (completeFloat_vnc s _)
    have hexec := exec_reserveDone hin hw (by rw [hdone, honly]; rfl)
    generalize s.completeFloat (.reserve c sale) = u at hwatched honly hdone hctx
    rw [hexec, hdone]
    refine ⟨_, rfl, hwatched.congr rfl rfl, ?_, ?_, fun h hne => ?_, ?_⟩
    · rw [honly]
      rfl
    · exact (ctx_mapCtx u _ _ fun x => { x with await := .tokens }).trans ((if_pos rfl).trans (by rw [hctx]))
    · exact (ctx_mapCtx u _ h fun x => { x with await := .tokens }).trans ((if_neg hne).trans (hctx h))
    · rw [honly]
      rfl
  · have hwatched := completeFloat_watched s (.release c)
    have honly := completeFloat_only s (.release c)
    have hat' := hat.congr (completeFloat_vnc s (.release c)) (completeFloat_rgi s _)
    have hholds' := hholds.congr (completeFloat_vnc s (.release c)) (completeFloat_adir s _)
    have hstop' : ((s.completeFloat (.release c)).ctx (.counter c)).stop = some mark :=
      (congrArg Ctx.stop (ctx_congr (completeFloat_vnc s _) _)).trans hstop
    obtain ⟨hrgi, htable, hstate, hpending, -, -, hothers, hfinal⟩ :=
      refuseHeld_alone (s.completeFloat (.release c)) (.counter c) q slot r ⟨mark.code, []⟩ hat' hholds'
        (by cases mark <;> decide)
    have hqueue' : (s.completeFloat (.release c)).flu.queue = [] := (completeFloat_queue s _).trans hqueue
    have hdone : s.released c = (s.completeFloat (.release c)).refuseHeld (.counter c) ⟨mark.code, []⟩ := by
      rw [State.released, endStopped_eq hstop']
      refine pumpFloat_empty _ ?_
      rw [hfinal]
      exact hqueue'
    have hexec := exec_reservationReleased hin hw (by rw [hdone, hfinal, honly])
    generalize s.completeFloat (.release c) = u at hwatched honly hdone hrgi htable hstate hpending hothers hfinal
    rw [hexec, hdone]
    refine ⟨_, rfl, hwatched.congr ?_ ?_, hrgi.trans ?_, htable.trans ?_, hstate, hpending,
      fun h hne => (hothers h hne).trans ?_, ?_⟩
    · rw [hfinal]
    · rw [hfinal]
    · rw [honly]
    · rw [honly]
    · rw [honly]
      rfl
    · rw [hfinal, honly]

/-- Settles O45: the digits go to their owner, and the engine takes its next job. -/
theorem aJobCompletesWithOneReturn : Obligations.AJobCompletesWithOneReturn := by
  intro s w c hin hwork hqueue
  obtain ⟨u, htke, hutke, huadir, htlu⟩ := jobDone_spec w hqueue
  have hexec := exec_jobComplete hin hwork (congrArg Tlu.tills htlu)
  refine ⟨fun hempty => ?_, fun j rest key half hcons hkey howner => ?_, fun hdiscard hempty => ?_,
    fun hdiscard howner hissuing hstop hawait hwriting hsale => ?_,
    fun slot r hdiscard howner hissuing hstop hawait hholds hlast => ?_⟩
  · refine ⟨_, hexec, ?_⟩
    rw [htke, nextJob_idle (by rw [hutke]; exact hempty), hutke]
  · refine ⟨_, hexec, ?_⟩
    rw [htke, nextJob_takes (by rw [hutke]; exact hcons) (by rw [huadir c howner]; exact hkey)]
    show u.tke.takeJob j rest key half = _
    rw [hutke]
    rfl
  · rw [hexec, jobDone_of_kept (u := s) (if_pos hdiscard) hqueue, nextJob_idle hempty]
  · have hkept : ∀ v : State, s.digitsReturn (.counter c) w.token = v →
        (if w.discard then s else s.digitsReturn w.job.owner w.token) = v := by
      intro v hv
      rw [if_neg (by rw [hdiscard]; exact Bool.false_ne_true), howner, hv]
    obtain ⟨sale, hentry⟩ := hsale
    by_cases hmore : (s.ctx (.counter c)).returns.length + 1 < (s.ctx (.counter c)).plan.length
    · have hreturn := digitsReturn_more (k := w.token) ⟨hissuing, hstop, hawait⟩ hmore
      have hdone := jobDone_of_kept (hkept _ hreturn) hqueue
      refine ⟨_, hexec, ?_, fun _ => ?_, fun hle => absurd hmore (Nat.not_lt.2 hle), fun h hne => ?_, ?_⟩
      · rw [hdone, nextJob_ctx, ctx_mapCtx, if_pos rfl]
        rfl
      · rw [hdone, nextJob_flu]
        rfl
      · rw [hdone, nextJob_ctx, ctx_mapCtx, if_neg hne]
      · rw [hdone, nextJob_adir]
        rfl
    · have hreturn := digitsReturn_last_counter (k := w.token) ⟨hissuing, hstop, hawait⟩ (Nat.not_lt.1 hmore)
      have hdone := sealing_of_claim (hkept _ hreturn) hqueue hwriting hentry
      refine ⟨_, hexec, ?_, fun hlt => absurd hlt hmore, fun _ => ⟨?_, ?_⟩, fun h hne => ?_, ?_⟩
      · rw [hdone, sealing_ctx, ctx_mapCtx, if_pos rfl]
        rfl
      · rw [hdone]
        rfl
      · rw [hdone, sealing_ctx, ctx_mapCtx, if_pos rfl]
      · rw [hdone, sealing_ctx, ctx_mapCtx, if_neg hne]
      · rw [hdone, sealing_adir]
        rfl
  · have hreturn := digitsReturn_last_office (k := w.token) ⟨hissuing, hstop, hawait⟩ hlast hholds
    have hkept : (if w.discard then s else s.digitsReturn w.job.owner w.token) = s.officeCommits w.token slot r := by
      rw [if_neg (by rw [hdiscard]; exact Bool.false_ne_true), howner, hreturn]
    have hdone := jobDone_of_kept hkept hqueue
    refine ⟨_, hexec, ?_, ?_, ?_, ?_, fun h hne => ?_⟩
    · rw [hdone, nextJob_ctx, officeCommits_ctx, if_pos rfl]
      rfl
    · rw [hdone, nextJob_adir]
      rfl
    · rw [hdone, nextJob_adir]
      exact ⟨_, rfl⟩
    · rw [hdone, nextJob_flu]
      rfl
    · rw [hdone, nextJob_ctx, officeCommits_ctx, if_neg hne]

end Sys2Proof.Proofs
end

section
/-! PROOF. The commit of a sale (R15, R16, R63, R65, R104 to R106, R142): the seal and the record part, and the parts that
follow it; the statements on SEAL_DONE and on the parts' rows. -/

namespace Sys2Proof.Machine

variable {s t : State} {c : Counter} {i : Image}

/-! ### The status bits -/

/-- The status registers with a bit set on a condition. -/
def Atc.raised (a : Atc) (p : Bool) (b : Status) : Atc :=
  if p then { a with status := a.status.set b.block (a.status.get b.block ||| b.mask) } else a

theorem raiseIf_raised (s : State) (p : Bool) (b : Status) : s.raiseIf p b = { s with atc := s.atc.raised p b } := by
  cases p <;> rfl

/-! ### Writes of FLU that keep what is available (R58, R59) -/

/-- A watched write that keeps available and the low mark sets no level bit. -/
theorem floatWatched_kept {b : Flu} (h : floatWatched s t b) (havail : b.available = s.flu.available)
    (hmark : b.record.lowMark = s.flu.record.lowMark) : t.atc = s.atc := by
  have hlow : (decide (s.flu.record.lowMark ≤ s.flu.available) && decide (b.available < b.record.lowMark)) = false := by
    rw [havail, hmark, Bool.and_eq_false_iff, decide_eq_false_iff_not, decide_eq_false_iff_not]
    omega
  have hempty : (decide (0 < s.flu.available) && decide (b.available = 0)) = false := by
    rw [havail, Bool.and_eq_false_iff, decide_eq_false_iff_not, decide_eq_false_iff_not]
    omega
  rw [h.2, hlow, hempty]
  rfl

/-- A write of FLU that keeps available and the low mark, completed. -/
theorem completeFloat_of_kept {k : FloatClaim} (havail : (s.flu.complete k).available = s.flu.available)
    (hmark : (s.flu.complete k).record.lowMark = s.flu.record.lowMark) :
    s.completeFloat k =
      { s with flu := { s.flu.complete k with writing := none, lowWater := min s.flu.lowWater s.flu.available } } := by
  have hwatched := completeFloat_watched s k
  have hflu : (s.completeFloat k).flu =
      { s.flu.complete k with writing := none, lowWater := min s.flu.lowWater s.flu.available } := by
    rw [hwatched.1, ← havail]
    rfl
  rw [completeFloat_only s k, hflu, floatWatched_kept hwatched havail hmark]

theorem seal_eq {f : Flu} {tokens : List Token} {sale : Sale} (h : f.entries.get c = .issuing sale) :
    f.seal c tokens = { f with
      entries := f.entries.set c (.sealed ⟨f.nextSerial, sale, tokens⟩), nextSerial := f.nextSerial + 1 } := by
  simp only [Flu.seal, h]
  rfl

/-- A sealed entry under a new serial counts what its sale has counted (R51, R63). -/
theorem available_seal {f : Flu} {tokens : List Token} {sale : Sale} (h : f.entries.get c = .issuing sale)
    (hnew : f.nextSerial ≠ f.record.lastConsumed.get c) : (f.seal c tokens).available = f.available := by
  have hset := reserved_setEntry f c (.sealed ⟨f.nextSerial, sale, tokens⟩)
  rw [h, counted_issuing, show (Entry.sealed ⟨f.nextSerial, sale, tokens⟩).counted (f.record.lastConsumed.get c) =
    sale.money from if_neg hnew] at hset
  have hreserved : (f.seal c tokens).reserved = f.reserved := by
    rw [seal_eq h]
    exact Nat.add_right_cancel hset
  rw [Flu.available, hreserved, seal_eq h]
  rfl

/-- A float part moves an entry's money from reserved to consumed (R65). -/
theorem available_consume {f : Flu} (h : f.entries.get c = .sealed i)
    (hnew : i.serial ≠ f.record.lastConsumed.get c) : (f.consume c i).available = f.available := by
  have hreserved := reserved_consume f c i h
  rw [h, show (Entry.sealed i).counted (f.record.lastConsumed.get c) = i.sale.money from if_neg hnew] at hreserved
  show f.record.granted - f.record.recalled - (f.record.consumed + i.sale.money) - (f.consume c i).reserved =
    f.record.granted - f.record.recalled - f.record.consumed - f.reserved
  omega

theorem complete_floatPart {f : Flu} (h : f.entries.get c = .sealed i) : f.complete (.floatPart c) = f.consume c i := by
  simp only [Flu.complete, Flu.sealedImage, h]

/-! ### The record that a commit writes (R15, R16, R17) -/

variable {r : MeterRecord}

theorem switchKey_switches {roll : KeyRoll} (h : r.roll = some roll) :
    r.switchKey (some roll.generation) =
      { r with keyGeneration := roll.generation, key := roll.key, roll := none } := by
  simp only [MeterRecord.switchKey, h, if_true]

theorem switchKey_keeps {g : Option Nat} (h : ∀ roll, r.roll = some roll → g ≠ some roll.generation) :
    r.switchKey g = r := by
  unfold MeterRecord.switchKey
  cases g with
  | none => rfl
  | some n =>
    cases hroll : r.roll with
    | none => rfl
    | some roll => exact if_neg fun heq => h roll hroll (congrArg some heq.symm)

/-- The key switch changes the key, its generation and the roll alone. -/
theorem switchKey_only (r : MeterRecord) (g : Option Nat) :
    r.switchKey g = { r with
      keyGeneration := (r.switchKey g).keyGeneration, key := (r.switchKey g).key, roll := (r.switchKey g).roll } := by
  by_cases hroll : ∃ roll, r.roll = some roll ∧ g = some roll.generation
  · obtain ⟨roll, hsome, rfl⟩ := hroll
    rw [switchKey_switches hsome]
  · rw [switchKey_keeps fun roll hsome heq => hroll ⟨roll, hsome, heq⟩]

theorem lastStampOf_last {tokens : List Token} {last : Token} (h : tokens.getLast? = some last) (d : Nat) :
    lastStampOf tokens d = last.stamp := by
  simp only [lastStampOf, h]

/-- The record part's record before the key switch (R15). -/
def MeterRecord.committed (r : MeterRecord) (c : Counter) (i : Image) : MeterRecord :=
  { r with
    lastStamp := lastStampOf i.tokens r.lastStamp
    monthNumber := i.sale.month
    monthUnits := min i.sale.monthUnits max32
    allowanceMonth := if i.sale.allowanceDue then some i.sale.month else r.allowanceMonth
    arrears := collect r.arrears i.sale.arrears
    carry := i.sale.carry
    totalUnits := (r.totalUnits + i.sale.units) % lifetimeModulus
    totalAllowance := (r.totalAllowance + i.sale.allowance) % lifetimeModulus
    totalMoney := (r.totalMoney + i.sale.money) % lifetimeModulus
    vendCount := (r.vendCount + 1) % countModulus
    copy := some (i.copy c) }

/-- A commit's record is that record, but for what the key switch does. -/
theorem commit_eq (r : MeterRecord) (c : Counter) (i : Image) :
    r.commit c i = { r.committed c i with
      keyGeneration := (r.commit c i).keyGeneration, key := (r.commit c i).key, roll := (r.commit c i).roll } :=
  switchKey_only (r.committed c i) (rollOf i.sale.plan)

theorem commit_switches {roll : KeyRoll} (hroll : r.roll = some roll) (hplan : rollOf i.sale.plan = some roll.generation) :
    r.commit c i =
      { r.committed c i with keyGeneration := roll.generation, key := roll.key, roll := none } := by
  show (r.committed c i).switchKey (rollOf i.sale.plan) = _
  rw [hplan]
  exact switchKey_switches hroll

theorem commit_keeps (h : ∀ roll, r.roll = some roll → rollOf i.sale.plan ≠ some roll.generation) :
    r.commit c i = r.committed c i := switchKey_keeps h

/-! ### SEAL_DONE -/

/-- The record part claim of an image that its record does not carry: one write of the record (R15, R105). -/
theorem recordPartClaim_writes (himage : s.flu.entries.get c = .sealed i) (hrecord : s.record i.sale.slot = some r)
    (hnew : r.hasSerial i.serial = false) :
    s.recordPartClaim c =
      (((s.settleSlot i.sale.slot).putRecord i.sale.slot (r.commit c i)).beginWrite .recordPart (.counter c) i.sale.slot
        r).mapCtx (.counter c) fun x => { x with await := .recordPart } := by
  have hsealed : s.flu.sealedImage c = some i := by simp only [Flu.sealedImage, himage]
  simp only [State.recordPartClaim, hsealed, hrecord, hnew, Bool.false_eq_true, if_false]

/-- A context whose sale is sealed and whose record part is claimed. -/
def Ctx.commits (x : Ctx) (serial : Nat) : Ctx :=
  { x with state := .committing, serial := some serial, stop := none, await := .recordPart }

/-- The part with the image in a counter's entry, and a stop that came too late. -/
def State.imageWritten (s : State) (c : Counter) (i : Image) : State :=
  { s.mapCtx (.counter c) fun x => { x with stop := none, state := .committing, serial := some i.serial } with
    flu := { s.flu with
      entries := s.flu.entries.set c (.sealed i), nextSerial := s.flu.nextSerial + 1, writing := none
      lowWater := min s.flu.lowWater s.flu.available }
    atc := (s.raiseIf (decide ((s.ctx (.counter c)).stop = some .cancel)) .cancelLate).atc }

/-- The part with a sale sealed: the image in the entry, the record part's write begun, and a stop too late. -/
def State.sealed (s : State) (c : Counter) (i : Image) (r : MeterRecord) : State :=
  { s.mapCtx (.counter c) (Ctx.commits · i.serial) with
    flu := { s.flu with
      entries := s.flu.entries.set c (.sealed i), nextSerial := s.flu.nextSerial + 1, writing := none
      lowWater := min s.flu.lowWater s.flu.available }
    adir := (((s.settleSlot i.sale.slot).putRecord i.sale.slot (r.commit c i)).beginWrite .recordPart (.counter c)
      i.sale.slot r).adir
    atc := (s.raiseIf (decide ((s.ctx (.counter c)).stop = some .cancel)) .cancelLate).atc }

theorem sealed_ctx (s : State) (c : Counter) (i : Image) (r : MeterRecord) (h : Holder) :
    (s.sealed c i r).ctx h = if h = .counter c then (s.ctx (.counter c)).commits i.serial else s.ctx h :=
  ctx_mapCtx s (.counter c) h (Ctx.commits · i.serial)

/-- The seal's row: the write ends, and the record part follows. -/
def State.sealDone (s : State) (c : Counter) (tokens : List Token) : State :=
  ((((s.completeFloat (.seal c tokens)).stopTooLate (.counter c)).mapCtx (.counter c) fun x =>
    { x with state := .committing, serial := some s.flu.nextSerial }).recordPartClaim c).pumpFloat

theorem exec_sealDone {tokens : List Token} (hin : s.inService = true) (hw : s.flu.writing = some (.seal c tokens))
    (htills : (s.sealDone c tokens).tlu.tills = s.tlu.tills) : exec (.sealDone c) s = .next (s.sealDone c tokens) := by
  show execSealDone c s = _
  rw [execSealDone]
  refine whenStoring_to hin ?_ htills
  simp only [hw, if_true]
  rfl

theorem sealDone_eq {tokens : List Token} {sale : Sale} (hqueue : s.flu.queue = [])
    (hentry : s.flu.entries.get c = .issuing sale) (hrecord : s.record sale.slot = some r)
    (hserial : r.hasSerial s.flu.nextSerial = false) (hnew : s.flu.nextSerial ≠ s.flu.record.lastConsumed.get c) :
    s.sealDone c tokens = s.sealed c ⟨s.flu.nextSerial, sale, tokens⟩ r := by
  have hcomplete : s.completeFloat (.seal c tokens) =
      { s with flu := { s.flu with
        entries := s.flu.entries.set c (.sealed ⟨s.flu.nextSerial, sale, tokens⟩), nextSerial := s.flu.nextSerial + 1
        writing := none, lowWater := min s.flu.lowWater s.flu.available } } := by
    have hkept := completeFloat_of_kept (s := s) (k := .seal c tokens) (available_seal hentry hnew)
      (by rw [show s.flu.complete (.seal c tokens) = s.flu.seal c tokens from rfl, seal_eq hentry])
    rw [hkept, show s.flu.complete (.seal c tokens) = s.flu.seal c tokens from rfl, seal_eq hentry]
  have hwritten : ((s.completeFloat (.seal c tokens)).stopTooLate (.counter c)).mapCtx (.counter c) (fun x =>
      { x with state := .committing, serial := some s.flu.nextSerial }) =
        s.imageWritten c ⟨s.flu.nextSerial, sale, tokens⟩ := by
    rw [hcomplete, State.stopTooLate, raiseIf_raised, State.imageWritten, raiseIf_raised]
    refine State.ext_units _ _ rfl rfl rfl rfl ?_ rfl rfl rfl rfl rfl rfl
    simp only [ State.mapCtx, State.mapVnc, PerHolder.set_set, PerHolder.get_set_self]
  rw [State.sealDone, hwritten, recordPartClaim_writes (s := s.imageWritten c _)
    (i := ⟨s.flu.nextSerial, sale, tokens⟩) (PerCounter.get_set_self _ _ _) hrecord hserial]
  refine Eq.trans (pumpFloat_empty _ ?_) (State.ext_units _ _ rfl rfl rfl rfl ?_ rfl rfl rfl rfl rfl rfl)
  · exact hqueue
  · simp only [State.sealed, State.imageWritten, State.mapCtx, State.mapVnc, PerHolder.set_set, PerHolder.get_set_self,
      State.beginWrite, State.putRecord, State.settleSlot, State.mapAdir]
    rfl

/-! ### The parts that follow -/

theorem takeFloat_floatPart (himage : s.flu.entries.get c = .sealed i) (hnew : i.serial ≠ s.flu.record.lastConsumed.get c) :
    s.takeFloat (.floatPart c) = { s with flu := { s.flu with writing := some (.floatPart c) } } := by
  have hsealed : s.flu.sealedImage c = some i := by simp only [Flu.sealedImage, himage]
  have happlied : s.flu.floatApplied c = false := by simp only [Flu.floatApplied, hsealed, hnew, decide_false]
  simp only [State.takeFloat, hsealed, happlied, Bool.false_eq_true, if_false]
  rfl

theorem takeFloat_free (himage : s.flu.entries.get c = .sealed i) (happlied : i.serial = s.flu.record.lastConsumed.get c) :
    s.takeFloat (.free c) = { s with flu := { s.flu with writing := some (.free c) } } := by
  have hsealed : s.flu.sealedImage c = some i := by simp only [Flu.sealedImage, himage]
  have htrue : s.flu.floatApplied c = true := by simp only [Flu.floatApplied, hsealed, happlied, decide_true]
  simp only [State.takeFloat, htrue, if_true]
  rfl

/-- A context that waits for a part of its commit. -/
def Ctx.awaits (x : Ctx) (a : Await) : Ctx := { x with await := a }

/-- The part with a claim of a context's commit begun. -/
def State.claiming (s : State) (c : Counter) (a : Await) (k : FloatClaim) : State :=
  { s.mapCtx (.counter c) (Ctx.awaits · a) with flu := { s.flu with writing := some k } }

theorem claiming_ctx (s : State) (c : Counter) (a : Await) (k : FloatClaim) (h : Holder) :
    (s.claiming c a k).ctx h = if h = .counter c then (s.ctx (.counter c)).awaits a else s.ctx h :=
  ctx_mapCtx s (.counter c) h (Ctx.awaits · a)

theorem recordPartDone_claims (hqueue : s.flu.queue = []) (hw : s.flu.writing = none)
    (himage : s.flu.entries.get c = .sealed i) (hnew : i.serial ≠ s.flu.record.lastConsumed.get c) :
    (s.recordPartDone c).pumpFloat = s.claiming c .floatPart (.floatPart c) := by
  have htake := takeFloat_floatPart (s := s.mapCtx (.counter c) (Ctx.awaits · .floatPart)) himage hnew
  exact (pumpFloat_claim (s.mapCtx (.counter c) (Ctx.awaits · .floatPart)) _ hqueue hw
    (Or.inl (by rw [htake]; exact hqueue))).trans htake

theorem tillPartDone_claims (hqueue : s.flu.queue = []) (hw : s.flu.writing = none)
    (himage : s.flu.entries.get c = .sealed i) (happlied : i.serial = s.flu.record.lastConsumed.get c) :
    (s.tillPartDone c).pumpFloat = s.claiming c .free (.free c) := by
  have htake := takeFloat_free (s := s.mapCtx (.counter c) (Ctx.awaits · .free)) himage happlied
  exact (pumpFloat_claim (s.mapCtx (.counter c) (Ctx.awaits · .free)) _ hqueue hw
    (Or.inl (by rw [htake]; exact hqueue))).trans htake

theorem exec_recordPartApplied {w : RecordWrite} (hin : s.inService = true)
    (hdue : s.dueWrite (isRecordPartOf (.counter c)) = some w) (hnone : s.noneWaits w) (hqueue : s.flu.queue = [])
    (hw : s.flu.writing = none) (himage : s.flu.entries.get c = .sealed i)
    (hnew : i.serial ≠ s.flu.record.lastConsumed.get c) :
    exec (.recordPartApplied c) s =
      .next ((s.endWrite (isRecordPartOf (.counter c))).claiming c .floatPart (.floatPart c)) := by
  show execRecordPartApplied c s = _
  rw [execRecordPartApplied]
  refine whenStoring_to hin ?_ rfl
  simp only [hdue, finishWrite_alone hnone]
  exact recordPartDone_claims (s := s.endWrite _) hqueue hw himage hnew

/-- TLU with a till part counted and its write under way (R142). -/
def Tlu.counting (t : Tlu) (c : Counter) (i : Image) : Tlu :=
  { (t.settled c).onTill c (Till.count · i) with
    part := (t.settled c).part.set c (some ⟨t.tills.get c, decide ((t.tills.get c).state = .closed), false⟩) }

/-- The part with the float part written and the till part counted. -/
def State.tillCounted (s : State) (c : Counter) (i : Image) : State :=
  { s.mapCtx (.counter c) (Ctx.awaits · .tillPart) with
    flu := { s.flu.consume c i with writing := none, lowWater := min s.flu.lowWater s.flu.available }
    tlu := s.tlu.counting c i
    atc := (s.raiseIf (s.lateDue c) (.lateCount c)).atc }

theorem tillCounted_ctx (s : State) (c : Counter) (i : Image) (h : Holder) :
    (s.tillCounted c i).ctx h = if h = .counter c then (s.ctx (.counter c)).awaits .tillPart else s.ctx h :=
  ctx_mapCtx s (.counter c) h (Ctx.awaits · .tillPart)

theorem tillCounted_till (s : State) (c : Counter) (i : Image) : (s.tillCounted c i).till c = (s.till c).count i :=
  onTill_same (s.tlu.settled c) c (Till.count · i)

theorem tillCounted_other {d : Counter} (h : d ≠ c) : (s.tillCounted c i).till d = s.till d :=
  onTill_other (s.tlu.settled c) (Till.count · i) h

/-- The till part claim of an image that its till has not counted (R105, R142). -/
theorem tillPartClaim_counts (himage : s.flu.entries.get c = .sealed i) (hlast : (s.till c).lastSerial ≠ i.serial) :
    s.tillPartClaim c =
      { s.mapCtx (.counter c) (Ctx.awaits · .tillPart) with
        tlu := s.tlu.counting c i, atc := (s.raiseIf (s.lateDue c) (.lateCount c)).atc } := by
  have hsealed : s.flu.sealedImage c = some i := by simp only [Flu.sealedImage, himage]
  simp only [State.tillPartClaim, hsealed, hlast, if_false]
  rw [settleTill_eq]
  rfl

theorem exec_floatPartApplied (hin : s.inService = true) (hqueue : s.flu.queue = [])
    (hw : s.flu.writing = some (.floatPart c)) (himage : s.flu.entries.get c = .sealed i)
    (hnew : i.serial ≠ s.flu.record.lastConsumed.get c) (hlast : (s.till c).lastSerial ≠ i.serial) :
    exec (.floatPartApplied c) s = .next (s.tillCounted c i) := by
  have hcomplete : s.completeFloat (.floatPart c) = { s with flu := { s.flu.consume c i with
      writing := none, lowWater := min s.flu.lowWater s.flu.available } } := by
    have hkept := completeFloat_of_kept (s := s) (k := .floatPart c)
      (by rw [complete_floatPart himage]; exact available_consume himage hnew) (by rw [complete_floatPart himage]; rfl)
    rw [hkept, complete_floatPart himage]
  have hdone : ((s.completeFloat (.floatPart c)).tillPartClaim c).pumpFloat = s.tillCounted c i := by
    rw [hcomplete]
    refine (congrArg State.pumpFloat (tillPartClaim_counts (i := i) ?_ ?_)).trans ((pumpFloat_empty _ ?_).trans ?_)
    · exact himage
    · exact hlast
    · exact hqueue
    · rw [State.tillCounted, raiseIf_raised, raiseIf_raised]
      rfl
  show execFloatPartApplied c s = _
  rw [execFloatPartApplied, whenStoring_next s _ hin]
  · simp only [hw, if_true, hdone]
  · refine storedSince_le_one s _ c fun d hd => ?_
    simp only [hw, if_true, hdone, tillCounted_other hd]

/-- The part with the till part's row taken (R106, R142). -/
def State.tillPartEnded (s : State) (c : Counter) (p : TillPartWrite) : State :=
  (s.mapTlu fun t => { t with part := t.part.set c none }).raiseIf (p.late && !p.settled) (.lateCount c)

theorem tillPartEnded_only (s : State) (c : Counter) (p : TillPartWrite) :
    s.tillPartEnded c p = { s with
      tlu := { s.tlu with part := s.tlu.part.set c none }
      atc := (s.raiseIf (p.late && !p.settled) (.lateCount c)).atc } := by
  rw [State.tillPartEnded, raiseIf_raised, raiseIf_raised]
  rfl

theorem exec_tillPartApplied {p : TillPartWrite} (hin : s.inService = true) (hqueue : s.flu.queue = [])
    (hpart : s.tlu.part.get c = some p) (hw : s.flu.writing = none) (himage : s.flu.entries.get c = .sealed i)
    (happlied : i.serial = s.flu.record.lastConsumed.get c) :
    exec (.tillPartApplied c) s = .next ((s.tillPartEnded c p).claiming c .free (.free c)) := by
  have honly := tillPartEnded_only s c p
  have hflu : (s.tillPartEnded c p).flu = s.flu := by rw [honly]
  have hdone := tillPartDone_claims (s := s.tillPartEnded c p) (c := c) (i := i) (by rw [hflu]; exact hqueue)
    (by rw [hflu]; exact hw) (by rw [hflu]; exact himage) (by rw [hflu]; exact happlied)
  show execTillPartApplied c s = _
  rw [execTillPartApplied]
  refine whenStoring_to hin ?_ (by rw [honly]; rfl)
  simp only [hpart]
  exact hdone

end Sys2Proof.Machine

namespace Sys2Proof.Proofs

open Sys2Proof Sys2Proof.Machine

/-- Settles O46: the seal keeps what is available and begins the record part; the record part's record, field by field. -/
theorem theSealAndTheRecordPart : Obligations.TheSealAndTheRecordPart := by
  refine ⟨fun s c tokens sale r hin hqueue hw hentry hrecord hserial hnew => ?_, fun r c i last hlast => ?_⟩
  · have hdone := sealDone_eq (tokens := tokens) hqueue hentry hrecord hserial hnew
    rw [exec_sealDone hin hw (by rw [hdone]; rfl), hdone]
    refine ⟨_, rfl, rfl, ?_, rfl, fun hcancel => has_raiseIf_self s .cancelLate (decide_eq_true hcancel), fun hstop => ?_,
      fun h hne => ?_, rfl⟩
    · rw [sealed_ctx, if_pos rfl]
      rfl
    · show (s.raiseIf (decide ((s.ctx (.counter c)).stop = some .cancel)) .cancelLate).atc = s.atc
      rw [decide_eq_false hstop]
      rfl
    · rw [sealed_ctx, if_neg hne]
  · rw [commit_eq]
    refine ⟨?_, rfl, rfl, rfl, rfl, rfl, rfl, rfl, rfl, fun hnone => ?_, fun a ha hle => ?_, fun a ha hlt => ?_, rfl,
      fun g roll hroll hplan hg => ?_, fun hkeep => ?_, rfl, rfl, rfl, rfl, rfl, rfl⟩
    · exact lastStampOf_last hlast r.lastStamp
    · show collect r.arrears i.sale.arrears = none
      rw [hnone]
      rfl
    · show collect r.arrears i.sale.arrears = none
      rw [ha]
      exact if_pos hle
    · show collect r.arrears i.sale.arrears = _
      rw [ha]
      exact if_neg (Nat.not_le.2 hlt)
    · show (r.commit c i).keyGeneration = g ∧ (r.commit c i).key = roll.key ∧ (r.commit c i).roll = none
      subst hg
      rw [commit_switches hroll hplan]
      exact ⟨rfl, rfl, rfl⟩
    · show (r.commit c i).keyGeneration = _ ∧ (r.commit c i).key = _ ∧ (r.commit c i).roll = _
      rw [commit_keeps fun roll hroll hplan => ?_]
      · exact ⟨rfl, rfl, rfl⟩
      · obtain hnoplan | hnoroll | ⟨g, other, hg, hother, hne⟩ := hkeep
        · simp [hnoplan] at hplan
        · simp [hnoroll] at hroll
        · rw [hroll] at hother
          rw [hplan] at hg
          exact hne ((congrArg KeyRoll.generation (Option.some.inj hother)).symm.trans (Option.some.inj hg))

/-- Settles O47: each part's row ends its write and begins the next claim. -/
theorem thePartsOfACommitFollowOneAnother : Obligations.ThePartsOfACommitFollowOneAnother := by
  refine fun s c i hin hqueue himage => ⟨fun w hdue hnone hw hnew => ?_, fun hw hnew hlast hsolvent => ?_,
    fun p hpart hw happlied => ?_⟩
  · refine ⟨_, exec_recordPartApplied hin hdue hnone hqueue hw himage hnew, rfl, ?_, rfl, fun h hne => ?_, rfl⟩
    · rw [claiming_ctx, if_pos rfl]
      rfl
    · rw [claiming_ctx, if_neg hne]
      rfl
  · refine ⟨_, exec_floatPartApplied hin hqueue hw himage hnew hlast, rfl, rfl, rfl, available_consume himage hnew, rfl,
      ?_, fun d hd => tillCounted_other hd, ?_, rfl, rfl⟩
    · rw [tillCounted_till]
      simp only [Till.count, addTo, max32, max64]
    · rw [tillCounted_ctx, if_pos rfl]
      rfl
  · have honly := tillPartEnded_only s c p
    have hctx : (s.tillPartEnded c p).ctx (.counter c) = s.ctx (.counter c) := by rw [honly]; rfl
    refine ⟨_, exec_tillPartApplied hin hqueue hpart hw himage happlied, ?_, fun d => ?_, fun hlate hopen => ?_,
      fun hnot => ?_, ?_, ?_⟩
    · rw [honly]
      rfl
    · rw [honly]
      rfl
    · exact has_raiseIf_self (s.mapTlu fun t => { t with part := t.part.set c none }) (.lateCount c)
        (by rw [hlate, hopen]; rfl)
    · rw [honly]
      show (s.raiseIf (p.late && !p.settled) (.lateCount c)).atc = s.atc
      rw [show (p.late && !p.settled) = false by obtain h | h := hnot <;> simp [h]]
      rfl
    · rw [claiming_ctx, if_pos rfl, hctx]
      rfl
    · rw [honly]
      rfl

end Sys2Proof.Proofs
end

section
/-! PROOF. The end of a sale and of an office issue (R12, R106, R110, R111, R132): the release of a hold, and the rows that
follow it; the statements on FREE_DONE, RELEASE_DONE, OFFICE_COMMIT_DONE and HOLD_TIMEOUT. -/

namespace Sys2Proof.Machine

variable {s t : State} {c : Counter} {h k : Holder} {q : Request} {slot : Nat} {r : MeterRecord} {y : Reply}

/-! ### A context that has replied -/

theorem replied_replyPending (x : Ctx) (y : Reply) : (x.replied y).replyPending = true := by
  unfold Ctx.replied; split <;> rfl

theorem replied_releasePending (x : Ctx) (y : Reply) : (x.replied y).releasePending = x.releasePending := by
  unfold Ctx.replied; split <;> rfl

/-- A context that holds its record alone gives the hold back and replies, whatever the reply. -/
theorem refuseHeld_holding (hat : s.atOwner h q) (hholds : s.holdsAlone h slot r) :
    (s.refuseHeld h y).rgi = s.rgi.replyDue h q .context y ∧
      (s.refuseHeld h y).adir.table = tableSet s.adir.table slot { r with hold := none } ∧
      ((s.refuseHeld h y).ctx h).state = .replying ∧ ((s.refuseHeld h y).ctx h).releasePending = true ∧
      (∀ k, k ≠ h → (s.refuseHeld h y).ctx k = s.ctx k) ∧
      s.refuseHeld h y =
        { s with
          adir := (s.refuseHeld h y).adir, vnc := (s.refuseHeld h y).vnc, rgi := (s.refuseHeld h y).rgi } := by
  have hctx := fun k => ctx_released s h k q slot r y hholds
  rw [refuseHeld_eq s h q slot r y hat hholds]
  refine ⟨rfl, ?_, ?_, ?_, fun k hk => ?_, ?_⟩
  · rw [releaseHold_alone s h slot r hholds]
    rfl
  · rw [hctx, if_pos rfl, replied_state]
  · rw [hctx, if_pos rfl, replied_releasePending]
  · rw [hctx, if_neg hk]
  · rw [releaseHold_alone s h slot r hholds]
    rfl

/-! ### OFFICE_COMMIT_DONE and HOLD_TIMEOUT (R111, R132) -/

theorem exec_officeCommitDone {w : RecordWrite} (hin : s.inService = true) (hdue : s.dueWrite isOfficeCommit = some w)
    (hnone : s.noneWaits w)
    (htills : ((s.endWrite isOfficeCommit).refuseHeld .office (s.ctx .office).officeReply).tlu.tills = s.tlu.tills) :
    exec .officeCommitDone s = .next ((s.endWrite isOfficeCommit).refuseHeld .office (s.ctx .office).officeReply) := by
  show execOfficeCommitDone s = _
  rw [execOfficeCommitDone]
  refine whenStoring_to hin ?_ htills
  simp only [hdue, finishWrite_alone hnone]
  rfl

theorem exec_holdTimeout {e : ParkEntry} (hin : s.inService = true)
    (hfind : (s.vnc.park.find? fun e => decide (e.holder = h)) = some e) :
    exec (.holdTimeout h) s =
      .next ((s.unpark h).ctxReply h ⟨.holdTimeout, leBytes 3 e.minute ++ leBytes 1 e.holderAtParking.index⟩) := by
  show execHoldTimeout h s = _
  rw [execHoldTimeout, whenInService_of_inService _ hin]
  simp only [hfind]

/-! ### The release of a hold (R12) -/

/-- A context that waits for its hold release. -/
def Ctx.releasing (x : Ctx) : Ctx := { x with releasePending := true }

theorem releaseHold_retiring (hholds : s.holds h slot r) (hstatus : r.status = .retiring) :
    s.releaseHold h =
      (((s.settleSlot slot).mapCtx h Ctx.releasing).dropRecord slot).beginWrite (.release none) h slot r := by
  obtain ⟨hslot, hrecord, hhold⟩ := hholds
  simp only [State.releaseHold, hslot, hrecord, hhold, hstatus, if_true]
  rfl

theorem releaseHold_unparked (hholds : s.holds h slot r) (hstatus : r.status ≠ .retiring)
    (hnone : s.vnc.oldestFor slot = none) :
    s.releaseHold h =
      (((s.settleSlot slot).mapCtx h Ctx.releasing).putRecord slot { r with hold := none }).beginWrite (.release none) h
        slot r := by
  obtain ⟨hslot, hrecord, hhold⟩ := hholds
  simp only [State.releaseHold, hslot, hrecord, hhold, hstatus, hnone, if_true, if_false]
  rfl

theorem releaseHold_handOver {e : ParkEntry} (hholds : s.holds h slot r) (hstatus : r.status ≠ .retiring)
    (hold : s.vnc.oldestFor slot = some e) :
    s.releaseHold h = ((s.settleSlot slot).mapCtx h Ctx.releasing).handOver slot r h e := by
  obtain ⟨hslot, hrecord, hhold⟩ := hholds
  simp only [State.releaseHold, hslot, hrecord, hhold, hstatus, hold, if_true, if_false]
  rfl

/-- The context that takes a hold over (R110). -/
def Ctx.tookOver (x : Ctx) (slot : Nat) (v : RecordView) : Ctx :=
  { x with state := .issuing, await := .handover, slot := some slot, view := some v }

theorem oldestFor_mem {e : ParkEntry} {v : Vnc} (h : v.oldestFor slot = some e) : e ∈ v.park := List.mem_of_find?_eq_some h

theorem oldestFor_eq_none {v : Vnc} (h : ∀ e ∈ v.park, e.slot ≠ slot) : v.oldestFor slot = none := by
  simpa [Vnc.oldestFor] using h

/-- A release moves ADIR and VNC alone, and its own context waits for the release's write. -/
theorem releaseHold_spec (hholds : s.holds h slot r) (hpark : ∀ e ∈ s.vnc.park, e.holder ≠ h) :
    s.releaseHold h = { s with adir := (s.releaseHold h).adir, vnc := (s.releaseHold h).vnc } ∧
      (s.releaseHold h).ctx h = (s.ctx h).releasing := by
  by_cases hstatus : r.status = .retiring
  · rw [releaseHold_retiring hholds hstatus]
    exact ⟨rfl, (ctx_mapCtx (s.settleSlot slot) h h Ctx.releasing).trans (if_pos rfl)⟩
  cases hold : s.vnc.oldestFor slot with
  | none =>
    rw [releaseHold_unparked hholds hstatus hold]
    exact ⟨rfl, (ctx_mapCtx (s.settleSlot slot) h h Ctx.releasing).trans (if_pos rfl)⟩
  | some e =>
    rw [releaseHold_handOver hholds hstatus hold]
    refine ⟨rfl, ?_⟩
    rw [State.handOver, ctx_mapCtx, if_neg (hpark e (oldestFor_mem hold)).symm]
    exact (ctx_mapCtx (s.settleSlot slot) h h Ctx.releasing).trans (if_pos rfl)

/-- The other contexts after a release: the one that takes the hold over, and those that it leaves. -/
theorem releaseHold_handOver_ctx {e : ParkEntry} (hholds : s.holds h slot r) (hstatus : r.status ≠ .retiring)
    (hold : s.vnc.oldestFor slot = some e) (hpark : ∀ e ∈ s.vnc.park, e.holder ≠ h) (k : Holder) (hk : k ≠ h) :
    (s.releaseHold h).ctx k =
      if k = e.holder then (s.ctx e.holder).tookOver slot (r.view slot) else s.ctx k := by
  have hother : ∀ j, j ≠ h → ((s.settleSlot slot).mapCtx h Ctx.releasing).ctx j = s.ctx j := fun j hj =>
    (ctx_mapCtx (s.settleSlot slot) h j Ctx.releasing).trans (if_neg hj)
  rw [releaseHold_handOver hholds hstatus hold, State.handOver, ctx_mapCtx]
  split
  · exact congrArg (Ctx.tookOver · slot (r.view slot)) (hother e.holder (hpark e (oldestFor_mem hold)))
  · exact hother k hk

/-! ### FREE_DONE (R66, R106) -/

/-- The pair of a counter whose sale has ended: in DRAWER function its drawer is released, unless it is OPENED (R150). -/
def LinePair.released (l : LinePair) : LinePair :=
  if l.function = .drawer ∧ l.drawer ≠ .opened then { l with drawer := .released, pulse := true, stuck := true } else l

theorem pulseRequest_drawer {l : LinePair} (h : l.function = .drawer) : l.pulseRequest = l.released := by
  unfold LinePair.pulseRequest LinePair.released
  cases hd : l.drawer <;> simp [h]

/-- The drawer pulse of a sale for money. -/
theorem pulse_eq {money : Nat} (hmoney : 0 < money) :
    (if 0 < money ∧ (s.lines c).function = .drawer then s.mapLines c LinePair.pulseRequest else s) =
      { s with tlu := { s.tlu with lines := s.tlu.lines.set c (s.lines c).released } } := by
  by_cases hfun : (s.lines c).function = .drawer
  · rw [if_pos ⟨hmoney, hfun⟩, mapLines_eq, pulseRequest_drawer hfun]
  · rw [if_neg fun hand => hfun hand.2, LinePair.released, if_neg fun hand => hfun hand.1]
    have hsame : s.tlu.lines.set c (s.lines c) = s.tlu.lines := PerCounter.set_get _ _
    rw [hsame]

/-- The part with a sale ended: the hold released, the drawer pulse asked for and the reply due. -/
def State.saleEnded (s : State) (c : Counter) (q : Request) : State :=
  { (s.releaseHold (.counter c)).mapCtx (.counter c) (Ctx.replied · (s.ctx (.counter c)).vendReply) with
    tlu := { s.tlu with lines := s.tlu.lines.set c (s.lines c).released }
    rgi := s.rgi.replyDue (.counter c) q .context (s.ctx (.counter c)).vendReply }

theorem endSale_eq {x : CtxRequest} (hat : s.atOwner (.counter c) q) (hholds : s.holds (.counter c) slot r)
    (hreq : (s.ctx (.counter c)).request = some x) (hmoney : 0 < x.money)
    (hpark : ∀ e ∈ s.vnc.park, e.holder ≠ .counter c) : s.endSale c = s.saleEnded c q := by
  obtain ⟨honly, hctx⟩ := releaseHold_spec hholds hpark
  have hpulse := pulse_eq (s := s.releaseHold (.counter c)) (c := c) hmoney
  have hend : s.endSale c = (if 0 < x.money ∧ ((s.releaseHold (.counter c)).lines c).function = .drawer then
      (s.releaseHold (.counter c)).mapLines c LinePair.pulseRequest
      else s.releaseHold (.counter c)).ctxReply (.counter c) (s.ctx (.counter c)).vendReply := by
    simp only [State.endSale, hreq]
    rfl
  obtain ⟨hattached, hservice, hwrites, haccess⟩ := hat
  rw [hend, hpulse, ctxReply_atOwner (q := q), State.saleEnded]
  · generalize s.releaseHold (.counter c) = u at honly
    rw [honly]
    rfl
  · refine ⟨?_, ?_, ?_, ?_⟩
    · exact (congrArg Ctx.attached hctx).trans hattached
    · rw [honly]
      exact hservice
    · rw [honly]
      exact hwrites
    · rw [honly]
      exact haccess

theorem saleEnded_ctx (s : State) (c : Counter) (q : Request) (k : Holder) :
    (s.saleEnded c q).ctx k =
      if k = .counter c then ((s.releaseHold (.counter c)).ctx (.counter c)).replied (s.ctx (.counter c)).vendReply
      else (s.releaseHold (.counter c)).ctx k :=
  ctx_mapCtx (s.releaseHold (.counter c)) (.counter c) k (Ctx.replied · (s.ctx (.counter c)).vendReply)

/-- The end of a sale moves ADIR, VNC, TLU and RGI alone. -/
theorem saleEnded_only (hrelease : s.releaseHold (.counter c) =
    { s with adir := (s.releaseHold (.counter c)).adir, vnc := (s.releaseHold (.counter c)).vnc }) :
    s.saleEnded c q = { s with
      adir := (s.saleEnded c q).adir, vnc := (s.saleEnded c q).vnc, tlu := (s.saleEnded c q).tlu
      rgi := (s.saleEnded c q).rgi } := by
  rw [State.saleEnded]
  generalize s.releaseHold (.counter c) = u at hrelease
  rw [hrelease]
  rfl

/-- A sale ended: its context has replied and waits for its release. -/
theorem saleEnded_own (hholds : s.holds (.counter c) slot r) (hpark : ∀ e ∈ s.vnc.park, e.holder ≠ .counter c) :
    ((s.saleEnded c q).ctx (.counter c)).state = .replying ∧
      ((s.saleEnded c q).ctx (.counter c)).releasePending = true ∧
      ((s.saleEnded c q).ctx (.counter c)).replyPending = true := by
  rw [saleEnded_ctx, if_pos rfl, (releaseHold_spec hholds hpark).2]
  exact ⟨replied_state _ _, replied_releasePending _ _, replied_replyPending _ _⟩

/-- A sale ended on a RETIRING record: the record is removed (R12). -/
theorem saleEnded_retiring (hholds : s.holds (.counter c) slot r) (hstatus : r.status = .retiring) :
    (s.saleEnded c q).adir.table = (s.adir.table.filter fun p => decide (p.1 ≠ slot)) ∧
      (s.saleEnded c q).vnc.park = s.vnc.park ∧ ∀ h, h ≠ .counter c → (s.saleEnded c q).ctx h = s.ctx h := by
  have hrelease := releaseHold_retiring hholds hstatus
  refine ⟨congrArg (fun t : State => t.adir.table) hrelease, (congrArg (fun t : State => t.vnc.park) hrelease :),
    fun h hne => ?_⟩
  rw [saleEnded_ctx, if_neg hne, hrelease]
  exact (ctx_mapCtx (s.settleSlot slot) _ h Ctx.releasing).trans (if_neg hne)

/-- A sale ended with no request parked for its slot: the record is left free (R12). -/
theorem saleEnded_unparked (hholds : s.holds (.counter c) slot r) (hstatus : r.status ≠ .retiring)
    (hfree : ∀ e ∈ s.vnc.park, e.slot ≠ slot) :
    (s.saleEnded c q).adir.table = tableSet s.adir.table slot { r with hold := none } ∧
      (s.saleEnded c q).vnc.park = s.vnc.park ∧ ∀ h, h ≠ .counter c → (s.saleEnded c q).ctx h = s.ctx h := by
  have hrelease := releaseHold_unparked hholds hstatus (oldestFor_eq_none hfree)
  refine ⟨congrArg (fun t : State => t.adir.table) hrelease, (congrArg (fun t : State => t.vnc.park) hrelease :),
    fun h hne => ?_⟩
  rw [saleEnded_ctx, if_neg hne, hrelease]
  exact (ctx_mapCtx (s.settleSlot slot) _ h Ctx.releasing).trans (if_neg hne)

/-- A sale ended with a request parked for its slot: the oldest takes the hold over (R12, R110). -/
theorem saleEnded_handOver {e : ParkEntry} (hholds : s.holds (.counter c) slot r) (hstatus : r.status ≠ .retiring)
    (hold : s.vnc.oldestFor slot = some e) (hpark : ∀ e ∈ s.vnc.park, e.holder ≠ .counter c) :
    (s.saleEnded c q).adir.table = tableSet s.adir.table slot { r with hold := some e.holder } ∧
      (s.saleEnded c q).vnc.park = (s.vnc.park.filter fun x => decide (x.holder ≠ e.holder)) ∧
      (s.saleEnded c q).ctx e.holder = (s.ctx e.holder).tookOver slot (r.view slot) ∧
      (∃ old, (s.saleEnded c q).adir.writes = old ++ [⟨.release (some e.holder), .counter c, slot, r, false⟩]) ∧
      ∀ h, h ≠ .counter c → h ≠ e.holder → (s.saleEnded c q).ctx h = s.ctx h := by
  have hover := releaseHold_handOver hholds hstatus hold
  have hctxs := releaseHold_handOver_ctx hholds hstatus hold hpark
  have hholder : e.holder ≠ .counter c := hpark e (oldestFor_mem hold)
  refine ⟨congrArg (fun t : State => t.adir.table) hover, congrArg (fun t : State => t.vnc.park) hover, ?_,
    ⟨_, congrArg (fun t : State => t.adir.writes) hover⟩, fun h hne hnot => ?_⟩
  · rw [saleEnded_ctx, if_neg hholder, hctxs _ hholder, if_pos rfl]
  · rw [saleEnded_ctx, if_neg hne, hctxs _ hne, if_neg hnot]

theorem saleEnded_lines (s : State) (c : Counter) (q : Request) : (s.saleEnded c q).lines c = (s.lines c).released :=
  PerCounter.get_set_self _ _ _

theorem saleEnded_other_lines {d : Counter} (q : Request) (hd : d ≠ c) : (s.saleEnded c q).lines d = s.lines d :=
  PerCounter.get_set_ne _ hd _

/-- The part with the free write's row taken. -/
def State.freed (s : State) (c : Counter) : State := ((s.completeFloat (.free c)).endSale c).pumpFloat

theorem exec_freeDone (hin : s.inService = true) (hw : s.flu.writing = some (.free c))
    (htills : (s.freed c).tlu.tills = s.tlu.tills) : exec (.freeDone c) s = .next (s.freed c) := by
  show execFreeDone c s = _
  rw [execFreeDone]
  refine whenStoring_to hin ?_ htills
  simp only [hw, if_true]
  rfl

end Sys2Proof.Machine

namespace Sys2Proof.Proofs

open Sys2Proof Sys2Proof.Machine

/-- Settles O49: the office commit's record; the hold given back with the office's reply; and the timeout's answer. -/
theorem officeCommitsAndHoldTimeouts : Obligations.OfficeCommitsAndHoldTimeouts := by
  refine ⟨fun r tokens last g hlast => ⟨fun roll hg hroll => ?_, fun hkeep => ?_⟩,
    fun s hin => ⟨fun w q slot r hdue hnone hat hholds => ?_, fun h q e hat hfind => ?_⟩⟩
  · have hstamp := lastStampOf_last hlast r.lastStamp
    rw [MeterRecord.officeCommit, hstamp, hg]
    exact switchKey_switches (r := { r with lastStamp := last.stamp }) hroll
  · have hstamp := lastStampOf_last hlast r.lastStamp
    rw [MeterRecord.officeCommit, hstamp]
    exact switchKey_keeps (r := { r with lastStamp := last.stamp }) hkeep
  · obtain ⟨hrgi, htable, hstate, hpending, hothers, honly⟩ := refuseHeld_holding (s := s.endWrite isOfficeCommit)
      (y := (s.ctx .office).officeReply) hat hholds
    exact ⟨_, exec_officeCommitDone hin hdue hnone (by rw [honly]; rfl), hrgi, htable, hstate, hpending, hothers, honly⟩
  · have hat' : (s.unpark h).atOwner h q := hat
    rw [exec_holdTimeout hin hfind, ctxReply_atOwner (q := q) _ _ _ hat']
    refine ⟨_, rfl, rfl, rfl, ?_, fun k hne => ?_, rfl⟩
    · exact (congrArg Ctx.state ((ctx_mapCtx (s.unpark h) h h (Ctx.replied · _)).trans (if_pos rfl))).trans
        (replied_state _ _)
    · exact (ctx_mapCtx (s.unpark h) h k (Ctx.replied · _)).trans (if_neg hne)

end Sys2Proof.Proofs
end

section
/-! PROOF. RELEASE_DONE (R12, R106, R110): the release's write ended, a hold claim that waited for it parked, and the request
that took the hold over resumed; the statement on the free write and the release. -/

namespace Sys2Proof.Machine

variable {s : State} {c : Counter} {h n : Holder} {q : Request} {slot : Nat} {r : MeterRecord} {y : Reply}
  {k : CtxRequest} {v : RecordView} {w : RecordWrite}

/-! ### The end of the release's write -/

/-- A context whose release's write has ended: IDLE once it has replied, or waiting for the reply alone (R106). -/
def Ctx.releaseEnded (x : Ctx) : Ctx :=
  if x.state = .replying ∧ !x.replyPending then Ctx.idle else { x with releasePending := false }

theorem finish_released (s : State) (h : Holder) :
    (s.mapCtx h fun x => { x with releasePending := false }).finish h = s.mapCtx h Ctx.releaseEnded := by
  have hctx : (s.mapCtx h fun x => { x with releasePending := false }).ctx h =
      { s.ctx h with releasePending := false } := (ctx_mapCtx s h h _).trans (if_pos rfl)
  unfold State.finish
  dsimp only
  rw [hctx]
  by_cases hc : (s.ctx h).state = .replying ∧ (!(s.ctx h).replyPending) = true
  · rw [if_pos ⟨hc.1, hc.2, rfl⟩, mapCtx_mapCtx]
    refine mapCtx_congr s h ?_
    rw [Ctx.releaseEnded, if_pos hc]
  · rw [if_neg fun hand => hc ⟨hand.1, hand.2.1⟩]
    refine mapCtx_congr s h ?_
    rw [Ctx.releaseEnded, if_neg hc]

theorem releaseEnded_replying {x : Ctx} (h : x.state = .replying) :
    x.releaseEnded = if x.replyPending then { x with releasePending := false } else Ctx.idle := by
  unfold Ctx.releaseEnded
  cases hreply : x.replyPending <;> simp [h]

/-- The part with a release's write ended, the claims that waited for it answered, and its context done with it. -/
def State.releaseTaken (s : State) (h : Holder) (w : RecordWrite) : State :=
  (s.finishWrite (isReleaseOf h) w).mapCtx h Ctx.releaseEnded

theorem exec_releaseDone_alone (hin : s.inService = true) (hdue : s.dueWrite (isReleaseOf h) = some w)
    (hkind : w.kind = .release none) (htills : (s.releaseTaken h w).tlu.tills = s.tlu.tills) :
    exec (.releaseDone h) s = .next (s.releaseTaken h w) := by
  show execReleaseDone h s = _
  rw [execReleaseDone]
  refine whenStoring_to hin ?_ htills
  simp only [hdue, hkind, finish_released]
  rfl

theorem exec_releaseDone_over (hin : s.inService = true) (hdue : s.dueWrite (isReleaseOf h) = some w)
    (hkind : w.kind = .release (some n))
    (htills : ((s.releaseTaken h w).resume n).pumpFloat.tlu.tills = s.tlu.tills) :
    exec (.releaseDone h) s = .next ((s.releaseTaken h w).resume n).pumpFloat := by
  show execReleaseDone h s = _
  rw [execReleaseDone]
  refine whenStoring_to hin ?_ htills
  simp only [hdue, hkind, finish_released]
  rfl

/-- The part with a release's write ended that no hold claim waits for. -/
def State.releaseWritten (s : State) (h : Holder) : State := (s.endWrite (isReleaseOf h)).mapCtx h Ctx.releaseEnded

theorem releaseTaken_alone (hnone : s.noneWaits w) : s.releaseTaken h w = s.releaseWritten h := by
  rw [State.releaseTaken, finishWrite_alone hnone]
  rfl

theorem releaseWritten_ctx (s : State) (h j : Holder) :
    (s.releaseWritten h).ctx j = if j = h then (s.ctx h).releaseEnded else s.ctx j :=
  ctx_mapCtx (s.endWrite (isReleaseOf h)) h j Ctx.releaseEnded

theorem answerAll_single (s : State) (x : HoldWait) : s.answerAll [x] = s.holdAnswered x.holder x.answer :=
  if_pos (Nat.le_refl 1)

/-- The one hold claim that waits for a write is parked as the write ends. -/
theorem finishWrite_parks {p : RecordWrite → Bool} {x : HoldWait} {other : Holder} (hwait : s.adir.waiting = [x])
    (hmeter : x.meter = w.old.number) (hbehind : x.behind = 1) (hanswer : x.answer = .busy slot other)
    (hstop : (s.ctx x.holder).stop = none) :
    s.finishWrite p w = (s.endWrite p).parkWaiting x slot other := by
  have hend : (s.endWrite p).adir.waiting = [x] := hwait
  have hcount : (s.endWrite p).mapAdir (fun a => a.countDown w.old.number) =
      { s.endWrite p with adir := { (s.endWrite p).adir with waiting := [] } } := by
    simp [State.mapAdir, Adir.countDown, hend, hmeter, hbehind]
  have hdue : (s.endWrite p).adir.dueOn w.old.number = [x] := by
    simp [Adir.dueOn, hend, hmeter, hbehind]
  have hgoes : ((({ s.endWrite p with adir := { (s.endWrite p).adir with waiting := [] } } : State)).ctx x.holder).stop =
      none := hstop
  rw [State.finishWrite, State.answerWaiting, hcount, hdue, answerAll_single, hanswer, holdAnswered_busy hgoes]
  rfl

/-! ### A request resumed (R110) -/

theorem resume_refused {code : ResultCode} (hreq : (s.ctx n).request = some k) (hview : (s.ctx n).view = some v)
    (hstop : (s.ctx n).stop = none) (htake : s.takeRefusal n k = some code) :
    s.resume n = (s.checked n k).refuseHeld n ⟨code, []⟩ := by
  simp only [State.resume, hreq, hview, hstop, htake, Option.isSome_none, Bool.false_eq_true, if_false]
  rfl

theorem resume_barred (hreq : (s.ctx n).request = some k) (hview : (s.ctx n).view = some v)
    (hstop : (s.ctx n).stop = none) (htake : s.takeRefusal n k = none)
    (hrecord : checkRecord n v.status v.refer = some y) : s.resume n = (s.checked n k).refuseHeld n y := by
  simp only [State.resume, hreq, hview, hstop, htake, hrecord, Option.isSome_none, Bool.false_eq_true, if_false]

theorem resume_proceeds (hreq : (s.ctx n).request = some k) (hview : (s.ctx n).view = some v)
    (hstop : (s.ctx n).stop = none) (htake : s.takeRefusal n k = none)
    (hrecord : checkRecord n v.status v.refer = none) : s.resume n = (s.checked n k).proceed n := by
  simp only [State.resume, hreq, hview, hstop, htake, hrecord, Option.isSome_none, Bool.false_eq_true, if_false]

/-- The take checks read a till's outcome at most: what they change is what is known of its write, and the free values. -/
theorem checked_spec (s : State) (n : Holder) (k : CtxRequest)
    (hclosing : ∀ c, n = .counter c → s.tlu.closing.get c = none) :
    ∃ tlu draws, s.checked n k = { s with tlu := tlu, draws := draws } ∧ tlu.tills = s.tlu.tills ∧
      (tlu = s.tlu ∨ ∃ c, n = .counter c ∧ (tlu = s.tlu.outcomeRead c ∨ tlu = s.tlu.readOld c)) := by
  cases n with
  | office => exact ⟨s.tlu, s.draws, rfl, rfl, Or.inl rfl⟩
  | counter c =>
    have hdone : s.tillReadDone c = s := by
      unfold State.tillReadDone
      simp [hclosing c rfl]
    have hchecked : s.checked (.counter c) k =
        if (s.tillRefusal c k.meter k.money).isSome then s else s.outcomeReadDone c := by
      simp only [State.checked, hdone]
    rw [hchecked]
    split
    · exact ⟨s.tlu, s.draws, rfl, rfl, Or.inl rfl⟩
    · obtain h | ⟨-, ⟨h, -⟩ | ⟨-, h | h⟩⟩ := outcomeReadDone_spec s c
      · exact ⟨s.tlu.outcomeRead c, s.draws, h, rfl, Or.inr ⟨c, rfl, Or.inl rfl⟩⟩
      · exact ⟨s.tlu.outcomeRead c, s.draws + 1, h, rfl, Or.inr ⟨c, rfl, Or.inl rfl⟩⟩
      · exact ⟨s.tlu, s.draws + 1, h, rfl, Or.inl rfl⟩
      · exact ⟨s.tlu.readOld c, s.draws + 1, h, rfl, Or.inr ⟨c, rfl, Or.inr rfl⟩⟩

/-- The take checks read neither ADIR nor VNC. -/
theorem takeRefusal_releaseWritten (hclosing : ∀ c, n = .counter c → s.tlu.closing.get c = none) :
    (s.releaseWritten h).takeRefusal n k = s.takeRefusal n k := by
  cases n with
  | office => rfl
  | counter c =>
    have hc := hclosing c rfl
    exact (vendRefusal_eq (s := s.releaseWritten h) hc k.meter k.money).trans (vendRefusal_eq hc k.meter k.money).symm

/-- The record checks that bar a resumed counter (R98). -/
theorem checkRecord_barred (hn : n ≠ .office)
    (h : v.status = .suspended ∧ y = ⟨.meterSuspended, []⟩ ∨
      ∃ mark, v.status = .active ∧ v.refer = some mark ∧ y = ⟨.referOffice, leBytes 1 mark⟩) :
    checkRecord n v.status v.refer = some y ∧ y.code ≠ .done := by
  cases n with
  | office => exact absurd rfl hn
  | counter c =>
    obtain ⟨hstatus, rfl⟩ | ⟨mark, hstatus, hrefer, rfl⟩ := h
    · rw [hstatus]
      exact ⟨rfl, by decide⟩
    · rw [hstatus, hrefer]
      exact ⟨rfl, ResultCode.noConfusion⟩

/-- A request that took the hold over gives it back for a take check or a record check that now fails. -/
theorem resume_ends (hreq : (s.ctx n).request = some k) (hview : (s.ctx n).view = some v)
    (hstop : (s.ctx n).stop = none)
    (hends : (∃ code, s.takeRefusal n k = some code ∧ code ≠ .done ∧ y = ⟨code, []⟩) ∨
      s.takeRefusal n k = none ∧ v.status ≠ .retiring ∧ n ≠ .office ∧
        (v.status = .suspended ∧ y = ⟨.meterSuspended, []⟩ ∨
          ∃ mark, v.status = .active ∧ v.refer = some mark ∧ y = ⟨.referOffice, leBytes 1 mark⟩)) :
    s.resume n = (s.checked n k).refuseHeld n y ∧ y.code ≠ .done := by
  obtain ⟨code, htake, hcode, rfl⟩ | ⟨htake, -, hn, hbar⟩ := hends
  · exact ⟨resume_refused hreq hview hstop htake, hcode⟩
  · obtain ⟨hrecord, hcode⟩ := checkRecord_barred hn hbar
    exact ⟨resume_barred hreq hview hstop htake hrecord, hcode⟩

/-- A sale resumed that passes the checks, and that nothing refuses, goes on to its reserve claim. -/
theorem resume_reserves {p : PriceResult} {stamps : List Nat} (hreq : (s.ctx (.counter c)).request = some k)
    (hview : (s.ctx (.counter c)).view = some v) (hstop : (s.ctx (.counter c)).stop = none)
    (hclosing : s.tlu.closing.get c = none) (hopen : s.outcomeOpen c = none ∨ s.takeRefusal (.counter c) k = none)
    (hsale : s.saleRefusal c k.meter k.money = none) (hstatus : v.status = .active) (hrefer : v.refer = none)
    (hprice : priceDecision s.tfu s.month v k.money = .priced p)
    (hstamps : s.tke.stampDecision v.lastStamp (planOf v.rollGeneration p).length = .stamped stamps)
    (hflu : s.flu.reserves c k.money) :
    ∃ d, ((s.resume (.counter c)).pumpFloat) =
      { s with tlu := s.tlu.outcomeRead c, draws := d : State }.reserving c k v p stamps := by
  have htake : s.takeRefusal (.counter c) k = none := by
    obtain hnone | htake := hopen
    · obtain ⟨hout, -, -⟩ := checks_of_saleRefusal_none s c _ _ hclosing hsale
      rw [takeRefusal_of_saleRefusal_none s c k hclosing hsale, (outcomeSeen_of_none s c hnone).1, hout]
      rfl
    · exact htake
  obtain ⟨d, hchecked⟩ := checked_of_saleRefusal_none s c k hclosing hsale htake
  have hrecord : checkRecord (.counter c) v.status v.refer = none := by
    rw [hstatus, hrefer]
    rfl
  refine ⟨d, ?_⟩
  rw [resume_proceeds hreq hview hstop htake hrecord, hchecked]
  exact (congrArg State.pumpFloat (proceed_counter (s := { s with tlu := s.tlu.outcomeRead c, draws := d }) hreq
    hview)).trans (priceAndReserve_reserves (s := { s with tlu := s.tlu.outcomeRead c, draws := d }) hprice hstamps hflu)

end Sys2Proof.Machine

namespace Sys2Proof.Proofs

open Sys2Proof Sys2Proof.Machine

/-- Settles O48: the free write ends the sale; the release's write ends, and what waited for it goes on. -/
theorem theFreeWriteAndTheReleaseEndTheSale : Obligations.TheFreeWriteAndTheReleaseEndTheSale := by
  refine ⟨fun s c q k slot r hin hqueue hw hat hholds hreq hmoney hpark => ?_, fun s h w hin hdue =>
    ⟨fun hkind hstate hnone => ?_, fun x slot other hkind hstate hwait hne hmeter hbehind hanswer hstop => ?_,
      fun n k v q slot r y hkind hne hnone hqueue hreq hview hstop hclosing hat hholds hends => ?_,
      fun c k v p stamps hkind hne hnone hqueue hwriting hreq hview hstop hclosing hopen hsale hstatus hrefer hprice
        hstamps hfree hmoney hserial => ?_⟩⟩
  · have hwatched : floatWatched s (s.completeFloat (.free c))
        { s.flu with entries := s.flu.entries.set c .free, writing := none } := completeFloat_watched s (.free c)
    have honly := completeFloat_only s (.free c)
    have hfluqueue := (completeFloat_queue s (.free c)).trans hqueue
    have hexec := exec_freeDone (s := s) (c := c) hin hw
    rw [State.freed] at hexec
    generalize s.completeFloat (.free c) = u at hwatched honly hfluqueue hexec
    obtain ⟨F, A, rfl⟩ : ∃ F A, u = { s with flu := F, atc := A } := ⟨_, _, honly⟩
    clear honly
    obtain ⟨hrelease, -⟩ := releaseHold_spec (s := { s with flu := F, atc := A }) hholds hpark
    have hend := saleEnded_only hrelease (q := q)
    rw [endSale_eq (s := { s with flu := F, atc := A }) hat hholds hreq hmoney hpark,
      pumpFloat_empty _ (by rw [hend]; exact hfluqueue)] at hexec
    obtain ⟨hstate, hpending, hreply⟩ := saleEnded_own (s := { s with flu := F, atc := A }) (q := q) hholds hpark
    exact ⟨_, hexec rfl, hwatched.congr (by rw [hend]) (by rw [hend]),
      fun hstatus => saleEnded_retiring (s := { s with flu := F, atc := A }) hholds hstatus,
      fun hstatus hfree => saleEnded_unparked (s := { s with flu := F, atc := A }) hholds hstatus hfree,
      fun e hstatus hold => saleEnded_handOver (s := { s with flu := F, atc := A }) hholds hstatus hold hpark,
      rfl, hstate, hpending, hreply, saleEnded_lines _ c q,
      fun d hd => saleEnded_other_lines (s := { s with flu := F, atc := A }) q hd, rfl, by rw [hend]⟩
  · have hdone := releaseTaken_alone (h := h) hnone
    rw [exec_releaseDone_alone hin hdue hkind (by rw [hdone]; rfl), hdone]
    refine ⟨_, rfl, ?_, fun j hj => ?_, rfl, rfl⟩
    · rw [releaseWritten_ctx, if_pos rfl, releaseEnded_replying hstate]
    · rw [releaseWritten_ctx, if_neg hj]
  · have hdone : s.releaseTaken h w =
        ((s.endWrite (isReleaseOf h)).parkWaiting x slot other).mapCtx h Ctx.releaseEnded := by
      rw [State.releaseTaken, finishWrite_parks hwait hmeter hbehind hanswer hstop]
    rw [exec_releaseDone_alone hin hdue hkind (by rw [hdone]; rfl), hdone]
    refine ⟨_, rfl, rfl, rfl, ?_, rfl, rfl⟩
    rw [ctx_mapCtx, if_neg hne]
    exact (ctx_mapCtx (s.endWrite (isReleaseOf h)) x.holder x.holder fun y =>
      { y with state := .parked, slot := some slot, await := .nothing }).trans (if_pos rfl)
  · have hctx : (s.releaseWritten h).ctx n = s.ctx n := (releaseWritten_ctx s h n).trans (if_neg (Ne.symm hne))
    obtain ⟨hresume, hcode⟩ := resume_ends (s := s.releaseWritten h) (y := y) (by rw [hctx]; exact hreq)
      (by rw [hctx]; exact hview) (by rw [hctx]; exact hstop) (by rw [takeRefusal_releaseWritten hclosing]; exact hends)
    obtain ⟨tlu, draws, hchecked, htills, htlu⟩ := checked_spec (s.releaseWritten h) n k hclosing
    rw [hchecked] at hresume
    obtain ⟨hattached, hservice, hwrites, haccess⟩ := hat
    obtain ⟨hslot, hrecord, hhold, hstatus, hpark⟩ := hholds
    obtain ⟨hrgi, htable, hstate, -, -, -, -, honly⟩ :=
      refuseHeld_alone { s.releaseWritten h with tlu := tlu, draws := draws } n q slot r y
        ⟨(congrArg Ctx.attached hctx).trans hattached, hservice, hwrites, haccess⟩
        ⟨(congrArg Ctx.slot hctx).trans hslot, hrecord, hhold, hstatus, hpark⟩ hcode
    have hdone : ((s.releaseTaken h w).resume n).pumpFloat =
        State.refuseHeld { s.releaseWritten h with tlu := tlu, draws := draws } n y := by
      rw [releaseTaken_alone hnone, hresume]
      exact pumpFloat_empty _ (by rw [honly]; exact hqueue)
    rw [exec_releaseDone_over hin hdue hkind (by rw [hdone, honly]; exact htills), hdone]
    exact ⟨_, rfl, hrgi, htable, hstate, by rw [honly]; exact htlu, by rw [honly]; rfl⟩
  · have hctx : (s.releaseWritten h).ctx (.counter c) = s.ctx (.counter c) :=
      (releaseWritten_ctx s h _).trans (if_neg (Ne.symm hne))
    obtain ⟨d, hdone⟩ := resume_reserves (s := s.releaseWritten h) (c := c) (by rw [hctx]; exact hreq)
      (by rw [hctx]; exact hview) (by rw [hctx]; exact hstop) hclosing
      (hopen.imp_right fun htake => (takeRefusal_releaseWritten fun _ _ => by simp_all).trans htake) hsale hstatus hrefer
      hprice hstamps ⟨hqueue, hwriting, hfree, hmoney, hserial⟩
    rw [← releaseTaken_alone hnone] at hdone
    rw [exec_releaseDone_over hin hdue hkind (by rw [hdone, releaseTaken_alone hnone]; rfl), hdone,
      releaseTaken_alone hnone]
    refine ⟨_, rfl, rfl, ?_, rfl, rfl⟩
    exact (reserving_ctx _ c k v p stamps _).trans ((if_pos rfl).trans
      (congrArg (Ctx.pricedFor · p (planOf v.rollGeneration p) stamps) hctx))

end Sys2Proof.Proofs
end

section
/-! PROOF. The line's states (R156, R157, R160 to R163): a change of the rate and of the carrier, and the line's timers; the
statement on them. -/

namespace Sys2Proof.Machine

variable {s : State}

/-! ### The transmitter (R168, R169) -/

/-- A transmitter with nothing to send, or with no office number, does not begin. -/
theorem startTx_idle (h : s.ulc.queue = [] ∨ s.ulc.office = none) : s.startTx = s := by
  unfold State.startTx
  cases s.ulc.tx with
  | some x => rfl
  | none =>
    cases hoffice : s.ulc.office with
    | none => rfl
    | some n =>
      refine if_neg ?_
      rw [h.resolve_right (by simp [hoffice])]
      simp

/-- An idle transmitter begins on the head entry, with the office number and the nibble as they stand. -/
theorem startTx_begins {n : Nat} (htx : s.ulc.tx = none) (hoffice : s.ulc.office = some n)
    (hsends : s.ulc.line.sending = true) (hqueue : s.ulc.queue ≠ []) :
    s.startTx = s.mapUlc fun u => { u with tx := some ⟨⟨n, s.upNibble⟩, []⟩, noneTold := s.tells } := by
  simp only [State.startTx, htx, hoffice]
  refine if_pos ?_
  rw [hsends, Bool.true_and, Bool.not_eq_true', List.isEmpty_eq_false_iff]
  exact hqueue

/-! ### DETECT and TRAIN (R160, R161) -/

theorem detectLook_of_not_detect (h : s.ulc.line ≠ .detect) : s.detectLook = s := if_neg fun hand => h hand.1

/-- The look in DETECT moves ULC and the status bits alone. -/
theorem detectLook_only (s : State) : s.detectLook = { s with ulc := s.detectLook.ulc, atc := s.detectLook.atc } := by
  unfold State.detectLook
  split
  · obtain ⟨tx, told, htrain⟩ := enterTrain_eq s
    rw [htrain]
  · rfl

/-- The look leaves the rate and the carrier. -/
theorem detectLook_inputs (s : State) :
    s.detectLook.ulc.rate = s.ulc.rate ∧ s.detectLook.ulc.carrier = s.ulc.carrier := by
  unfold State.detectLook
  split
  · obtain ⟨tx, told, htrain⟩ := enterTrain_eq s
    rw [htrain]
    exact ⟨rfl, rfl⟩
  · exact ⟨rfl, rfl⟩

/-- A usable line in DETECT enters TRAIN. -/
theorem detectLook_trains (hline : s.ulc.line = .detect) (hcarrier : s.ulc.carrier = true)
    (hrate : s.ulc.rate.inRange = true) :
    s.detectLook.ulc.line = .train ∧ s.detectLook.has .enteredTrain = true := by
  obtain ⟨tx, told, htrain⟩ := enterTrain_eq s
  rw [detectLook_of_usable hline (by rw [Ulc.usable, hcarrier, hrate]; rfl), htrain]
  exact ⟨rfl, has_raise_self _ _⟩

/-- ULC as DETECT is entered: the receiver hunts and nothing is sent (R160). -/
def Ulc.detecting (u : Ulc) : Ulc :=
  { u with line := .detect, tx := none, assembly := [], good := 0, bad := 0, lastNibble := none }

/-- The part with DETECT entered, before the look. -/
def State.detecting (s : State) : State :=
  { s with
    ulc := s.ulc.detecting
    tke := if s.ulc.line = .up then { s.tke with sinceUp := 0, counting := true } else s.tke
    atc := (s.raise .enteredDetect).atc }

theorem enterDetect_eq (s : State) : s.enterDetect = s.detecting.detectLook := by
  rw [State.enterDetect, leaveUp_eq]
  rfl

theorem enterDetect_not_usable (h : s.ulc.usable = false) : s.enterDetect = s.detecting := by
  rw [enterDetect_eq]
  exact detectLook_of_not_usable h

/-- The part with TRAIN entered, before the transmitter looks. -/
def State.training (s : State) : State :=
  { s with ulc := { s.ulc.clearCounts with line := .train }, atc := (s.raise .enteredTrain).atc }

theorem enterTrain_training (s : State) : s.enterTrain = s.training.startTx := rfl

/-- A line that is usable passes through DETECT to TRAIN. -/
theorem enterDetect_usable (hup : s.ulc.line ≠ .up) (h : s.ulc.usable = true) :
    ∃ t, s.enterDetect = t ∧
      t.ulc = { s.ulc with
        line := .train, tx := t.ulc.tx, assembly := [], good := 0, bad := 0, lastNibble := none
        noneTold := t.ulc.noneTold } ∧
      (s.ulc.queue = [] ∨ s.ulc.office = none → t.ulc.tx = none) ∧
      (∀ n, s.ulc.queue ≠ [] → s.ulc.office = some n → t.ulc.tx = some ⟨⟨n, s.upNibble⟩, []⟩) ∧
      t.has .enteredDetect = true ∧ t.has .enteredTrain = true ∧ t = { s with ulc := t.ulc, atc := t.atc } := by
  have hdetecting : s.detecting =
      { s with ulc := s.ulc.detecting, atc := (s.raise .enteredDetect).atc } := by
    rw [State.detecting, if_neg hup]
  have hbits : (s.detecting.raise .enteredTrain).has .enteredDetect = true :=
    has_raise_mono .enteredTrain (has_raise_self s .enteredDetect)
  have htrained : (s.detecting.raise .enteredTrain).has .enteredTrain = true := has_raise_self _ _
  rw [enterDetect_eq, detectLook_of_usable (s := s.detecting) rfl h, enterTrain_training]
  by_cases hsends : s.ulc.queue = [] ∨ s.ulc.office = none
  · rw [startTx_idle (s := s.detecting.training) hsends]
    refine ⟨_, rfl, rfl, fun _ => rfl, fun n hqueue hoffice => ?_, hbits, htrained, ?_⟩
    · obtain h | h := hsends
      · exact absurd h hqueue
      · rw [h] at hoffice
        cases hoffice
    · rw [hdetecting]
      rfl
  · obtain ⟨hqueue, hoffice⟩ := not_or.1 hsends
    obtain ⟨m, hm⟩ := Option.ne_none_iff_exists'.1 hoffice
    rw [startTx_begins (s := s.detecting.training) (n := m) rfl hm rfl hqueue]
    refine ⟨_, rfl, rfl, fun hnot => absurd hnot hsends, fun n _ hn => ?_, hbits, htrained, ?_⟩
    · rw [Option.some.inj (hn.symm.trans hm), hdetecting]
      rfl
    · rw [hdetecting]
      rfl

/-! ### SLIP (R162, R163) -/

/-- SLIP entered from UP starts the count of minutes. -/
theorem enterSlip_of_up (h : s.ulc.line = .up) :
    s.enterSlip = { s with
      ulc := { s.ulc with line := .slip, good := 0, bad := 0 }
      tke := { s.tke with sinceUp := 0, counting := true }
      atc := (s.raise .enteredSlip).atc } := by
  rw [State.enterSlip, leaveUp_eq, if_pos h]
  rfl

/-! ### The rows -/

/-- The part with the rate of a window. -/
def State.rated (s : State) (r : Rate) : State := s.mapUlc fun u => { u with rate := r }

theorem exec_rateWindowEnd_of_live (h : s.live = true) (cycles : Nat) :
    exec (.rateWindowEnd cycles) s =
      .next (if rateOf cycles = s.ulc.rate then s.rated (rateOf cycles)
        else (s.rated (rateOf cycles)).rateChanged).detectLook := by
  show execRateWindowEnd cycles s = _
  rw [execRateWindowEnd, whenLive_of_live _ h]
  rfl

theorem rateChanged_of_up (h : s.ulc.line = .up) : s.rateChanged = s.enterSlip := by simp only [State.rateChanged, h]

theorem rateChanged_of_hunting (h : s.ulc.line = .train ∨ s.ulc.line = .slip) :
    s.rateChanged = s.mapUlc fun u => { u with good := 0, assembly := [] } := by
  obtain h | h := h <;> simp only [State.rateChanged, h]

theorem rateChanged_of_detect (h : s.ulc.line = .detect) : s.rateChanged = s := by simp only [State.rateChanged, h]

/-- A rate change leaves the rate itself and the carrier, and moves the line's own units alone. -/
theorem rateChanged_only (s : State) :
    s.rateChanged.ulc.rate = s.ulc.rate ∧
      s.rateChanged = { s with ulc := s.rateChanged.ulc, tke := s.rateChanged.tke, atc := s.rateChanged.atc } := by
  cases h : s.ulc.line with
  | off => simp only [State.rateChanged, h, true_and]
  | detect => simp only [State.rateChanged, h, true_and]
  | train =>
    rw [rateChanged_of_hunting (Or.inl h)]
    exact ⟨rfl, rfl⟩
  | up =>
    rw [rateChanged_of_up h, enterSlip_of_up h]
    exact ⟨rfl, rfl⟩
  | slip =>
    rw [rateChanged_of_hunting (Or.inr h)]
    exact ⟨rfl, rfl⟩

/-- The carrier lost, on a live part. -/
theorem exec_carrierLoss_of_live (h : s.live = true) :
    exec .carrierLoss s = .next (if s.ulc.carrier && s.ulc.line.sending then
      (s.mapUlc fun u => { u with carrier := false }).enterDetect else s.mapUlc fun u => { u with carrier := false }) := by
  show execCarrierLoss s = _
  simp only [execCarrierLoss, h, Bool.true_and]

theorem exec_carrierGain_of_live (h : s.live = true) :
    exec .carrierGain s = .next (s.mapUlc fun u => { u with carrier := true }).detectLook := by
  show execCarrierGain s = _
  simp only [execCarrierGain, h, if_true]

/-- The two timers that lead to DETECT, each from its own state. -/
theorem exec_detectTimer_of_live (h : s.live = true) {command : Instr} {from_ : LineState}
    (hmem : (command, from_) ∈ [(Instr.trainingTimeout, LineState.train), (.slipTimeout, .slip)]) :
    exec command s = .next (if s.ulc.line = from_ then s.enterDetect else s) ∧ from_ ≠ .up := by
  simp only [List.mem_cons, Prod.mk.injEq, List.not_mem_nil, or_false] at hmem
  obtain ⟨rfl, rfl⟩ | ⟨rfl, rfl⟩ := hmem
  · exact ⟨whenLive_of_live _ h, by decide⟩
  · exact ⟨whenLive_of_live _ h, by decide⟩

theorem exec_silenceTimeout_of_live (h : s.live = true) :
    exec .silenceTimeout s = .next (if s.ulc.line = .up then s.enterSlip else s) := whenLive_of_live _ h

end Sys2Proof.Machine

namespace Sys2Proof.Proofs

open Sys2Proof Sys2Proof.Machine

/-- Settles O52: by the line's state; a look in DETECT follows each change, and a timer acts in its own state alone. -/
theorem rateCarrierAndTimersMoveTheLine : Obligations.RateCarrierAndTimersMoveTheLine := by
  refine ⟨fun s hlive => ⟨fun cycles => ⟨rfl, _, exec_rateWindowEnd_of_live hlive cycles, ?_⟩, ?_, ?_⟩,
    fun s hlive => ⟨fun command from_ hmem => ?_, fun hup => ?_, fun hup => ?_⟩⟩
  · by_cases hsame : rateOf cycles = s.ulc.rate
    · rw [if_pos hsame]
      have hrated : s.rated (rateOf cycles) = s := by rw [hsame]; rfl
      obtain ⟨hrate, -⟩ := detectLook_inputs (s.rated (rateOf cycles))
      refine ⟨hrate, fun _ hne => absurd hsame.symm hne, fun hline hcarrier hrange =>
        detectLook_trains (s := s.rated (rateOf cycles)) hline hcarrier hrange, fun _ hne => absurd hsame.symm hne,
        fun _ hline => ?_, ?_⟩
      · rw [detectLook_of_not_detect (s := s.rated (rateOf cycles)) hline, hrated]
      · rw [detectLook_only]
        rfl
    · rw [if_neg hsame]
      obtain ⟨hrate, -⟩ := detectLook_inputs (s.rated (rateOf cycles)).rateChanged
      obtain ⟨hkept, honly⟩ := rateChanged_only (s.rated (rateOf cycles))
      refine ⟨hrate.trans hkept, fun hline _ => ?_, fun hline hcarrier hrange => ?_, fun hline _ => ?_,
        fun heq => absurd heq.symm hsame, ?_⟩
      · rw [rateChanged_of_up (s := s.rated (rateOf cycles)) hline, enterSlip_of_up (s := s.rated (rateOf cycles)) hline,
          detectLook_of_not_detect LineState.noConfusion]
        exact ⟨rfl, has_raise_self (s.rated (rateOf cycles)) _, rfl⟩
      · rw [rateChanged_of_detect (s := s.rated (rateOf cycles)) hline]
        exact detectLook_trains (s := s.rated (rateOf cycles)) hline hcarrier hrange
      · rw [rateChanged_of_hunting (s := s.rated (rateOf cycles)) hline, detectLook_of_not_detect]
        · exact ⟨rfl, rfl, rfl⟩
        · obtain hline | hline := hline <;> exact fun heq => by simp [State.rated, State.mapUlc, hline] at heq
      · rw [detectLook_only, honly]
        rfl
  · rw [exec_carrierLoss_of_live hlive]
    by_cases hcarrier : s.ulc.carrier = true ∧ s.ulc.line.sending = true
    · rw [if_pos (Bool.and_eq_true_iff.2 hcarrier), enterDetect_not_usable (by rfl)]
      refine ⟨_, rfl, rfl, fun _ _ => ⟨rfl, rfl, rfl, rfl, rfl, rfl, rfl, has_raise_self _ _⟩, fun hline => ?_, rfl⟩
      obtain hline | hline := hline <;> simp [hline, LineState.sending] at hcarrier
    · rw [if_neg fun hand => hcarrier (Bool.and_eq_true_iff.1 hand)]
      refine ⟨_, rfl, rfl, fun hon hline => absurd ⟨hon, ?_⟩ hcarrier, fun _ => rfl, rfl⟩
      obtain hline | hline | hline := hline <;> rw [hline] <;> rfl
  · rw [exec_carrierGain_of_live hlive]
    obtain ⟨-, hcarrier⟩ := detectLook_inputs (s.mapUlc fun u => { u with carrier := true })
    refine ⟨_, rfl, hcarrier, fun hline hrate => ?_, fun hline => ?_, ?_⟩
    · exact detectLook_trains (s := s.mapUlc fun u => { u with carrier := true }) hline rfl hrate
    · exact detectLook_of_not_detect (s := s.mapUlc fun u => { u with carrier := true }) hline
    · rw [detectLook_only]
      rfl
  · obtain ⟨hexec, hnotup⟩ := exec_detectTimer_of_live hlive hmem
    rw [hexec]
    refine ⟨fun hline husable => ?_, fun hline husable => ?_, fun hline => by rw [if_neg hline]⟩
    · have hup : s.ulc.line ≠ .up := by rw [hline]; exact hnotup
      rw [if_pos hline, enterDetect_not_usable husable, State.detecting, if_neg hup]
      rfl
    · have hup : s.ulc.line ≠ .up := by rw [hline]; exact hnotup
      obtain ⟨t, ht, hrest⟩ := enterDetect_usable hup husable
      rw [if_pos hline, ht]
      exact ⟨t, rfl, hrest⟩
  · rw [exec_silenceTimeout_of_live hlive, if_pos hup, enterSlip_of_up hup]
  · rw [exec_silenceTimeout_of_live hlive, if_neg hup]

end Sys2Proof.Proofs
end

section
/-! PROOF. The receiver (R161 to R167, R171 to R173): a parcel of the layout is good, and what one judged parcel does; the
statement on it. -/

namespace Sys2Proof.Machine

/-! ### A parcel of the layout (R165, 11.6) -/

theorem beBytes_two (v : Nat) : beBytes 2 v = [BitVec.ofNat 8 (v / 256), BitVec.ofNat 8 v] := rfl

theorem beNat_beBytes_two {v : Nat} (h : v < 65536) : beNat (beBytes 2 v) = v := by
  show (BitVec.ofNat 8 v).toNat + 256 * ((BitVec.ofNat 8 (v / 256)).toNat + 256 * 0) = v
  rw [BitVec.toNat_ofNat, BitVec.toNat_ofNat]
  omega

/-- The five bytes of a header. -/
def header (kind office : Nat) (nibble : BitVec 4) (len : Nat) : List Byte :=
  [BitVec.ofNat 8 kind] ++ beBytes 2 office ++ [BitVec.ofNat 8 (nibble.toNat * 16 + len / 256), BitVec.ofNat 8 len]

/-- What a check covers, and the check, and the closing flag. -/
def flagged (content : List Byte) : List Byte := content ++ beBytes 2 (crcBytes content).toNat ++ [flag]

theorem parcel_eq (kind office : Nat) (nibble : BitVec 4) (body : List Byte) :
    parcel kind office nibble body = flag :: flagged (header kind office nibble body.length ++ body) := by
  simp only [parcel, flagged, header, List.append_assoc, List.cons_append, List.nil_append]

variable {kind office : Nat} {nibble : BitVec 4} {body : List Byte}

/-- The flags before a parcel of a kind are skipped, and no more. -/
theorem skipFlags_parcel (hkind : kind < 256) (hflag : kind ≠ 0x7E) :
    skipFlags (parcel kind office nibble body) = flagged (header kind office nibble body.length ++ body) := by
  have hfirst : BitVec.ofNat 8 kind ≠ flag := fun h => by
    have := congrArg BitVec.toNat h
    rw [BitVec.toNat_ofNat, Nat.mod_eq_of_lt hkind] at this
    exact hflag this
  rw [parcel_eq, skipFlags, List.dropWhile_cons_of_pos (by simp)]
  exact List.dropWhile_cons_of_neg (by simpa using hfirst)

theorem headerLength_flagged (hlen : body.length ≤ 96) :
    headerLength (flagged (header kind office nibble body.length ++ body)) = body.length := by
  show (BitVec.ofNat 8 (nibble.toNat * 16 + body.length / 256)).toNat % 16 * 256 + (BitVec.ofNat 8 body.length).toNat = _
  rw [BitVec.toNat_ofNat, BitVec.toNat_ofNat]
  omega

theorem length_flagged (content : List Byte) : (flagged content).length = content.length + 3 := by
  simp [flagged, beBytes_two]

/-- The judge finds a parcel of the layout good. -/
theorem judge_flagged (hkind : kind < 256) (hoffice : office < 65536) (hlen : body.length ≤ 96) :
    judge (flagged (header kind office nibble body.length ++ body)) body.length = .good kind office nibble body := by
  have hheader : (header kind office nibble body.length).length = 5 := rfl
  have hlength : (header kind office nibble body.length ++ body).length = 5 + body.length := by
    rw [List.length_append, hheader]
  have hcontent : slice (flagged (header kind office nibble body.length ++ body)) 0 (5 + body.length) =
      header kind office nibble body.length ++ body := by
    rw [slice, List.drop_zero, flagged, List.append_assoc, ← hlength, List.take_left]
  have hcheck : slice (flagged (header kind office nibble body.length ++ body)) (5 + body.length) 2 =
      beBytes 2 (crcBytes (header kind office nibble body.length ++ body)).toNat := by
    rw [slice, flagged, List.append_assoc, ← hlength, List.drop_left]
    rfl
  have hend : (flagged (header kind office nibble body.length ++ body)).getD (7 + body.length) 0 = flag := by
    have hat : 7 + body.length = ((header kind office nibble body.length ++ body) ++
        beBytes 2 (crcBytes (header kind office nibble body.length ++ body)).toNat).length := by
      rw [List.length_append, hlength, beBytes_two]
      simp only [List.length_cons, List.length_nil]
      omega
    rw [flagged, hat, List.getD_append_right _ _ _ _ (Nat.le_refl _), Nat.sub_self]
    rfl
  have hbody : slice (header kind office nibble body.length ++ body) 5 body.length = body := by
    rw [slice, ← hheader, List.drop_left, List.take_length]
  have hnibble : BitVec.ofNat 4 ((BitVec.ofNat 8 (nibble.toNat * 16 + body.length / 256)).toNat / 16) = nibble := by
    refine BitVec.eq_of_toNat_eq ?_
    have := nibble.isLt
    rw [BitVec.toNat_ofNat, BitVec.toNat_ofNat]
    omega
  have hkindByte : (BitVec.ofNat 8 kind).toNat = kind := by rw [BitVec.toNat_ofNat, Nat.mod_eq_of_lt hkind]
  have hcrc : beNat (beBytes 2 (crcBytes (header kind office nibble body.length ++ body)).toNat) =
      (crcBytes (header kind office nibble body.length ++ body)).toNat := beNat_beBytes_two (BitVec.isLt _)
  have hnum : beNat (beBytes 2 office) = office := beNat_beBytes_two hoffice
  rw [judge, hcontent, hcheck, hend, hcrc, if_neg (by simp), hbody]
  exact congr (congr (congrArg₂ Judged.good hkindByte hnum) hnibble) rfl

/-- A parcel laid out as 11.6 says is good, and its closing flag stays. -/
theorem scan_parcel (hkind : kind < 256) (hflag : kind ≠ 0x7E) (hoffice : office < 65536) (hlen : body.length ≤ 96) :
    scan (parcel kind office nibble body) = .parcel (.good kind office nibble body) [flag] := by
  have hlength : (flagged (header kind office nibble body.length ++ body)).length = 8 + body.length := by
    rw [length_flagged, List.length_append]
    show 5 + body.length + 3 = _
    omega
  have hjudge := judge_flagged (nibble := nibble) hkind hoffice hlen
  have hend : (flagged (header kind office nibble body.length ++ body)).getD (7 + body.length) 0 = flag := by
    refine not_not.1 fun hnot => ?_
    rw [judge, if_pos (Or.inl hnot)] at hjudge
    cases hjudge
  simp only [scan, skipFlags_parcel hkind hflag, headerLength_flagged hlen, hlength, hend, hjudge]
  rw [if_neg (by rw [parcel_eq]; simp), if_neg (by omega), if_neg (by omega), if_neg (Nat.lt_irrefl _),
    if_neg (not_not.2 rfl), List.drop_eq_nil_of_le (Nat.le_of_eq hlength)]

variable {s : State}

/-! ### The arbiter (R172) -/

theorem placeSweep_of_not_active {u : Ulc} (h : u.sweep.active = false) : u.placeSweep = u :=
  if_neg (by simp [h])

/-- An owed report has its place at once when two are free. -/
theorem placeReport_of_owed {u : Ulc} (howed : u.reportOwed = true) (hplaced : u.reportPlaced = false) :
    u.placeReport = { u with reportPlaced := decide (2 ≤ u.free) } := by
  by_cases hfree : 2 ≤ u.free
  · rw [Ulc.placeReport, if_pos (by simp [howed, hplaced, hfree]), decide_eq_true hfree]
  · rw [Ulc.placeReport, if_neg (by simp [hfree]), decide_eq_false hfree, ← hplaced]

/-! ### The receiver -/

/-- The receiver waits with no bytes, or with a flag alone. -/
theorem receive_waiting (h : s.ulc.assembly = [] ∨ s.ulc.assembly = [flag]) (n : Nat) : receive n s = s := by
  cases n with
  | zero => rfl
  | succ n =>
    obtain h | h := h
    · rw [receive, h]
      rfl
    · rw [receive, h]
      show (s.mapUlc fun u => { u with assembly := [flag] }) = s
      rw [← h]
      rfl

/-- A whole parcel is judged, and the receiver goes on with the bytes after it. -/
theorem receive_parcel {p : Judged} {rest : List Byte} {n : Nat} (hsome : s.ulc.assembly.isEmpty = false)
    (hscan : scan s.ulc.assembly = .parcel p rest) :
    receive (n + 1) s = receive n ((s.mapUlc fun u => { u with assembly := rest }).judged p) := by
  rw [receive, hsome, hscan]
  rfl

/-- A receiver that hunts and meets the bytes of one whole parcel judges it. -/
theorem exec_parcelReceive_to {bytes rest : List Byte} {p : Judged} {t : State} (hlive : s.live = true)
    (hwf : parcelWf bytes = true) (hassembly : s.ulc.assembly = []) (hhead : bytes.head? = some 0x7E)
    (hsends : s.ulc.line.sending = true) (hscan : scan bytes = .parcel p rest) (hrest : rest = [] ∨ rest = [0x7E])
    (hjudged : (s.mapUlc fun u => { u with assembly := rest }).judged p = t) (hkept : t.ulc.assembly = rest) :
    exec (.parcelReceive bytes) s = .next t := by
  obtain ⟨tail, rfl⟩ : ∃ tail, bytes = flag :: tail := by
    cases bytes with
    | nil => cases hhead
    | cons b tail => exact ⟨tail, by rw [Option.some.inj hhead]; rfl⟩
  have hhunt : hunt (s.ulc.assembly ++ flag :: tail) = flag :: tail := by
    rw [hassembly, List.nil_append, hunt, List.dropWhile_cons_of_neg (by simp)]
  show execParcelReceive (flag :: tail) s = _
  rw [execParcelReceive, if_pos hwf, whenLive_of_live _ hlive, State.receiveBytes, if_pos hsends]
  refine congrArg Host.Outcome.next ?_
  show receive (hunt (s.ulc.assembly ++ flag :: tail)).length
    (s.mapUlc fun u => { u with assembly := hunt (u.assembly ++ flag :: tail) }) = t
  rw [show (s.mapUlc fun u => { u with assembly := hunt (u.assembly ++ flag :: tail) }) =
    s.mapUlc fun u => { u with assembly := flag :: tail } from
    congrArg (fun l => s.mapUlc fun u => { u with assembly := l }) hhunt, hhunt, List.length_cons]
  rw [receive_parcel (s := s.mapUlc fun u => { u with assembly := flag :: tail }) (by simp [State.mapUlc]) hscan]
  show receive tail.length ((s.mapUlc fun u => { u with assembly := rest }).judged p) = t
  rw [hjudged]
  exact receive_waiting (hkept ▸ hrest) _

/-! ### A good parcel -/

/-- ULC's record is free and nothing waits for it. -/
def Ulc.recordFree (u : Ulc) : Prop := u.recordWrite = none ∧ u.recordClaims = []

/-- A mode claim on a free record begins a write when the mode differs. -/
theorem claimRecord_mode (hfree : s.ulc.recordFree) (m : ServiceMode) :
    s.claimRecord (.mode m) = if m = s.ulc.mode then s else s.mapUlc fun u => { u with recordWrite := some m } := by
  obtain ⟨hwrite, hclaims⟩ := hfree
  have hempty : (s.mapUlc fun u => { u with recordClaims := [] }) = s := by
    rw [← hclaims]
    rfl
  have hdrain : s.claimRecord (.mode m) =
      (s.mapUlc fun u => { u with recordClaims := [] }).takeRecordClaim (.mode m) := by
    simp only [State.claimRecord, State.mapUlc, hclaims, List.nil_append, List.length_singleton, drainRecord, hwrite]
  rw [hdrain, hempty]
  rfl

/-- The part with a good parcel counted. -/
def State.countedGood (s : State) : State := s.mapUlc fun u => { u with good := bump u.good, bad := 0 }

theorem goodParcel_of_up (h : s.ulc.line = .up) (kind : Nat) (nibble : BitVec 4) (body : List Byte) :
    s.goodParcel kind nibble body = s.countedGood.takeParcel kind nibble body := by
  simp only [State.goodParcel, h]
  rfl

theorem goodParcel_of_train (h : s.ulc.line = .train) (kind : Nat) (nibble : BitVec 4) (body : List Byte) :
    s.goodParcel kind nibble body =
      if 3 ≤ bump s.ulc.good then s.countedGood.enterUp.takeParcel kind nibble body else s.countedGood := by
  simp only [State.goodParcel, h]
  rfl

theorem goodParcel_of_slip (h : s.ulc.line = .slip) (kind : Nat) (nibble : BitVec 4) (body : List Byte) :
    s.goodParcel kind nibble body =
      if 2 ≤ bump s.ulc.good then s.countedGood.enterUp.takeParcel kind nibble body
      else s.countedGood.takeParcel kind nibble body := by
  simp only [State.goodParcel, h]
  rfl

/-- The part with a nibble kept. -/
def State.nibbleKept (s : State) (nibble : BitVec 4) : State := s.mapUlc fun u => { u with lastNibble := some nibble }

theorem owesReport_of_not_query (last : Option (BitVec 4)) (h : nibble.getLsbD 3 = false) :
    owesReport last nibble = false := by
  unfold owesReport
  rw [h]
  rfl

/-- A nibble with no float query, of the mode in force, is kept and no more. -/
theorem takeNibble_calm (hfree : s.ulc.recordFree) (hquery : nibble.getLsbD 3 = false)
    (hmode : modeOf nibble = s.ulc.mode) : s.takeNibble nibble = s.nibbleKept nibble := by
  rw [State.takeNibble, owesReport_of_not_query _ hquery]
  exact (claimRecord_mode (s := s.nibbleKept nibble) hfree _).trans (if_pos hmode)

/-- A float query that the nibble before did not carry owes a report, which has its place at once if two are free. -/
theorem takeNibble_query (hfree : s.ulc.recordFree) (hquery : nibble.getLsbD 3 = true)
    (hmode : modeOf nibble = s.ulc.mode) (hlast : ∀ last, s.ulc.lastNibble = some last → last.getLsbD 3 = false)
    (hplaced : s.ulc.reportPlaced = false) (hsweep : s.ulc.sweep.active = false) :
    s.takeNibble nibble = (s.nibbleKept nibble).mapUlc fun u =>
      { u with reportOwed := true, reportPlaced := decide (2 ≤ u.free) } := by
  have howes : owesReport s.ulc.lastNibble nibble = true := by
    cases h : s.ulc.lastNibble with
    | none => rw [owesReport, hquery]; rfl
    | some last => simp only [owesReport, hquery, hlast last h]; rfl
  have harbitrate : Ulc.arbitrate { (s.nibbleKept nibble).ulc with reportOwed := true } =
      { (s.nibbleKept nibble).ulc with reportOwed := true, reportPlaced := decide (2 ≤ s.ulc.free) } := by
    rw [Ulc.arbitrate, placeReport_of_owed (u := { (s.nibbleKept nibble).ulc with reportOwed := true }) rfl hplaced]
    exact placeSweep_of_not_active hsweep
  rw [State.takeNibble, if_pos howes]
  show State.claimRecord { s with ulc := Ulc.arbitrate { (s.nibbleKept nibble).ulc with reportOwed := true } } _ = _
  rw [harbitrate]
  exact (claimRecord_mode (s := { s with ulc := { (s.nibbleKept nibble).ulc with
    reportOwed := true, reportPlaced := decide (2 ≤ s.ulc.free) } }) hfree _).trans (if_pos hmode)

/-- A service mode that differs begins a write of the record. -/
theorem takeNibble_mode (hfree : s.ulc.recordFree) (hquery : nibble.getLsbD 3 = false)
    (hmode : modeOf nibble ≠ s.ulc.mode) :
    s.takeNibble nibble = (s.nibbleKept nibble).mapUlc fun u => { u with recordWrite := some (modeOf nibble) } := by
  rw [State.takeNibble, owesReport_of_not_query _ hquery]
  exact (claimRecord_mode (s := s.nibbleKept nibble) hfree _).trans (if_neg hmode)

theorem takeKind_idle (s : State) (body : List Byte) : s.takeKind 0 body = s := if_pos rfl

theorem takeKind_backlog (hkind : kind ≠ 0) (hfree : s.ulc.free = 0) (body : List Byte) :
    s.takeKind kind body = s.raise .backlog := by
  rw [State.takeKind, if_neg hkind, if_pos hfree]

/-- An instruction takes a place, and is dispatched when none is. -/
theorem takeKind_dispatched (hkind : kind ≠ 0) (hfree : s.ulc.free ≠ 0) (hnone : s.ulc.dispatched = none)
    (hlist : s.ulc.list = []) (body : List Byte) :
    s.takeKind kind body = s.mapUlc fun u =>
      { u with reserved := u.reserved + 1, dispatched := some ⟨⟨kind, body⟩, .waiting, false⟩ } := by
  rw [State.takeKind, if_neg hkind, if_neg hfree]
  simp only [State.mapUlc, Ulc.dispatch, hnone, hlist, List.nil_append]

/-- The part with UP entered. -/
theorem enterUp_eq (s : State) :
    s.enterUp = { s with
      ulc := { s.ulc with line := .up, good := 0, bad := 0 }
      tke := { s.tke with sinceUp := 0, counting := false }
      atc := (s.raise .enteredUp).atc } := rfl

theorem judged_good {n : Nat} (hoffice : s.ulc.office = some n) (kind : Nat) (nibble : BitVec 4) (body : List Byte) :
    s.judged (.good kind n nibble body) = s.goodParcel kind nibble body := if_pos hoffice

/-- A good parcel for this office in UP is counted, and its nibble and its kind are taken. -/
theorem judged_up {n : Nat} (hoffice : s.ulc.office = some n) (hline : s.ulc.line = .up) (kind : Nat)
    (nibble : BitVec 4) (body : List Byte) :
    s.judged (.good kind n nibble body) = (s.countedGood.takeNibble nibble).takeKind kind body :=
  (judged_good hoffice _ _ _).trans (goodParcel_of_up hline _ _ _)

/-- The parcel that ends the training, or the slip, enters UP and is taken there. -/
theorem judged_enters {n : Nat} (hoffice : s.ulc.office = some n) {from_ : LineState} {good : Nat}
    (hmem : (from_, good) ∈ [(LineState.train, 2), (.slip, 1)]) (hline : s.ulc.line = from_) (hgood : s.ulc.good = good)
    (kind : Nat) (nibble : BitVec 4) (body : List Byte) :
    from_.sending = true ∧
      s.judged (.good kind n nibble body) = (s.countedGood.enterUp.takeNibble nibble).takeKind kind body := by
  simp only [List.mem_cons, Prod.mk.injEq, List.not_mem_nil, or_false] at hmem
  obtain ⟨rfl, rfl⟩ | ⟨rfl, rfl⟩ := hmem
  · refine ⟨rfl, (judged_good hoffice _ _ _).trans ((goodParcel_of_train hline _ _ _).trans (if_pos ?_))⟩
    rw [hgood]
    decide
  · refine ⟨rfl, (judged_good hoffice _ _ _).trans ((goodParcel_of_slip hline _ _ _).trans (if_pos ?_))⟩
    rw [hgood]
    decide

/-- The part with a parcel read off the buffer but for its closing flag. -/
def State.buffered (s : State) : State := s.mapUlc fun u => { u with assembly := [0x7E] }

/-- The bytes reach a part that judges the one parcel in them. -/
def State.receives (s : State) (bytes : List Byte) (p : Judged) : Prop :=
  ∀ t, s.buffered.judged p = t → t.ulc.assembly = [0x7E] → exec (.parcelReceive bytes) s = .next t

theorem receives_of_scan {bytes : List Byte} {p : Judged} (hlive : s.live = true)
    (hwf : parcelWf bytes = true) (hassembly : s.ulc.assembly = []) (hhead : bytes.head? = some 0x7E)
    (hscan : scan bytes = .parcel p [0x7E]) (hsends : s.ulc.line.sending = true) : s.receives bytes p :=
  fun _ hjudged hkept => exec_parcelReceive_to hlive hwf hassembly hhead hsends hscan (Or.inr rfl) hjudged hkept

section Taken

variable {bytes : List Byte} {n : Nat}

/-- In UP a calm parcel is counted and its nibble kept; its kind is then dealt with. -/
theorem receives_up_calm (hoffice : s.ulc.office = some n) (hfree : s.ulc.recordFree)
    (htakes : s.receives bytes (.good kind n nibble body)) (hquery : nibble.getLsbD 3 = false)
    (hmode : modeOf nibble = s.ulc.mode) (hline : s.ulc.line = .up) {t : State}
    (hkind : (s.buffered.countedGood.nibbleKept nibble).takeKind kind body = t) (hkept : t.ulc.assembly = [0x7E]) :
    exec (.parcelReceive bytes) s = .next t := by
  refine htakes _ ((judged_up (s := s.buffered) hoffice hline _ _ _).trans ?_) hkept
  rw [takeNibble_calm (s := s.buffered.countedGood) hfree hquery hmode, hkind]

theorem receives_up_calm_idle (hoffice : s.ulc.office = some n) (hfree : s.ulc.recordFree)
    (htakes : s.receives bytes (.good 0 n nibble body)) (hquery : nibble.getLsbD 3 = false)
    (hmode : modeOf nibble = s.ulc.mode) (hline : s.ulc.line = .up) :
    exec (.parcelReceive bytes) s =
      .next { s with ulc := { s.ulc with
        good := min 15 (s.ulc.good + 1), bad := 0, lastNibble := some nibble, assembly := [0x7E] } } :=
  receives_up_calm hoffice hfree htakes hquery hmode hline (takeKind_idle _ _) rfl

theorem receives_up_calm_dispatched (hoffice : s.ulc.office = some n) (hfree : s.ulc.recordFree)
    (htakes : s.receives bytes (.good kind n nibble body)) (hquery : nibble.getLsbD 3 = false)
    (hmode : modeOf nibble = s.ulc.mode) (hline : s.ulc.line = .up) (hkind : kind ≠ 0) (hplaces : s.ulc.free ≠ 0)
    (hnone : s.ulc.dispatched = none) (hlist : s.ulc.list = []) :
    exec (.parcelReceive bytes) s =
      .next { s with ulc := { s.ulc with
        good := min 15 (s.ulc.good + 1), bad := 0, lastNibble := some nibble, assembly := [0x7E]
        reserved := s.ulc.reserved + 1, dispatched := some ⟨⟨kind, body⟩, .waiting, false⟩ } } :=
  receives_up_calm hoffice hfree htakes hquery hmode hline
    (takeKind_dispatched (s := s.buffered.countedGood.nibbleKept nibble) hkind hplaces hnone hlist _) rfl

theorem receives_up_calm_backlog (hoffice : s.ulc.office = some n) (hfree : s.ulc.recordFree)
    (htakes : s.receives bytes (.good kind n nibble body)) (hquery : nibble.getLsbD 3 = false)
    (hmode : modeOf nibble = s.ulc.mode) (hline : s.ulc.line = .up) (hkind : kind ≠ 0) (hplaces : s.ulc.free = 0) :
    exec (.parcelReceive bytes) s =
      .next { s with
        ulc := { s.ulc with
          good := min 15 (s.ulc.good + 1), bad := 0, lastNibble := some nibble, assembly := [0x7E] }
        atc := (s.raise .backlog).atc } :=
  receives_up_calm hoffice hfree htakes hquery hmode hline
    (takeKind_backlog (s := s.buffered.countedGood.nibbleKept nibble) hkind hplaces _) rfl

/-- The parcel that ends the training, or the slip, and that is calm and IDLE. -/
theorem receives_enters_calm (hoffice : s.ulc.office = some n) (hfree : s.ulc.recordFree)
    (htakes : s.receives bytes (.good 0 n nibble body)) (hquery : nibble.getLsbD 3 = false)
    (hmode : modeOf nibble = s.ulc.mode) {from_ : LineState} {good : Nat}
    (hmem : (from_, good) ∈ [(LineState.train, 2), (.slip, 1)]) (hline : s.ulc.line = from_)
    (hgood : s.ulc.good = good) :
    exec (.parcelReceive bytes) s =
      .next { s with
        ulc := { s.ulc with line := .up, good := 0, bad := 0, lastNibble := some nibble, assembly := [0x7E] }
        tke := { s.tke with sinceUp := 0, counting := false }
        atc := (s.raise .enteredUp).atc } := by
  obtain ⟨-, hjudged⟩ := judged_enters (s := s.buffered) hoffice hmem hline hgood 0 nibble body
  refine htakes _ (hjudged.trans ?_) rfl
  rw [takeKind_idle, takeNibble_calm (s := s.buffered.countedGood.enterUp) hfree hquery hmode]
  rfl

/-- An earlier parcel in TRAIN is counted alone. -/
theorem receives_train (hoffice : s.ulc.office = some n) (htakes : s.receives bytes (.good kind n nibble body))
    (hline : s.ulc.line = .train) (hgood : s.ulc.good < 2) :
    exec (.parcelReceive bytes) s =
      .next { s with ulc := { s.ulc with good := s.ulc.good + 1, bad := 0, assembly := [0x7E] } } := by
  have hbump : bump s.ulc.good = s.ulc.good + 1 := Nat.min_eq_right (by omega)
  have hcounted : s.buffered.countedGood = s.buffered.mapUlc fun u => { u with good := u.good + 1, bad := 0 } :=
    congrArg (fun g => s.buffered.mapUlc fun u => { u with good := g, bad := 0 }) hbump
  refine htakes _ ((judged_good (s := s.buffered) hoffice _ _ _).trans
    ((goodParcel_of_train (s := s.buffered) hline _ _ _).trans ?_)) rfl
  rw [if_neg (by show ¬3 ≤ bump s.ulc.good; omega), hcounted]
  rfl

/-- The first calm IDLE parcel in SLIP is counted and its nibble kept. -/
theorem receives_slip (hoffice : s.ulc.office = some n) (hfree : s.ulc.recordFree)
    (htakes : s.receives bytes (.good 0 n nibble body)) (hquery : nibble.getLsbD 3 = false)
    (hmode : modeOf nibble = s.ulc.mode) (hline : s.ulc.line = .slip) (hgood : s.ulc.good = 0) :
    exec (.parcelReceive bytes) s =
      .next { s with ulc := { s.ulc with
        good := 1, bad := 0, lastNibble := some nibble, assembly := [0x7E] } } := by
  have hbump : bump s.ulc.good = 1 := by rw [hgood]; rfl
  have hcounted : s.buffered.countedGood = s.buffered.mapUlc fun u => { u with good := 1, bad := 0 } :=
    congrArg (fun g => s.buffered.mapUlc fun u => { u with good := g, bad := 0 }) hbump
  refine htakes _ ((judged_good (s := s.buffered) hoffice _ _ _).trans
    ((goodParcel_of_slip (s := s.buffered) hline _ _ _).trans ?_)) rfl
  rw [if_neg (by show ¬2 ≤ bump s.ulc.good; omega), hcounted]
  exact (takeKind_idle _ _).trans
    (takeNibble_calm (s := s.buffered.mapUlc fun u => { u with good := 1, bad := 0 }) hfree hquery hmode)

/-- An IDLE parcel in UP does what its nibble does. -/
theorem receives_up_idle (hoffice : s.ulc.office = some n) (htakes : s.receives bytes (.good 0 n nibble body))
    (hline : s.ulc.line = .up) {t : State} (hnibble : s.buffered.countedGood.takeNibble nibble = t)
    (hkept : t.ulc.assembly = [0x7E]) : exec (.parcelReceive bytes) s = .next t := by
  refine htakes _ ((judged_up (s := s.buffered) hoffice hline _ _ _).trans ?_) hkept
  rw [takeKind_idle, hnibble]

end Taken

/-! ### A service mode's write (R166) -/

theorem exec_serviceModeWritten_of_live (hlive : s.live = true) {m : ServiceMode} (hwrite : s.ulc.recordWrite = some m)
    (hclaims : s.ulc.recordClaims = []) :
    exec .serviceModeWritten s =
      .next { s with ulc := { s.ulc with mode := m, recordWrite := none }, atc := (s.raise .serviceChanged).atc } := by
  show execServiceModeWritten s = _
  rw [execServiceModeWritten, whenLive_of_live _ hlive, hwrite]
  show Host.Outcome.next (drainRecord s.ulc.recordClaims.length _) = _
  rw [hclaims]
  rfl

/-! ### A bad parcel -/

theorem badParcel_counted (h : s.ulc.line ≠ .up ∨ s.ulc.bad < 7) (hbad : s.ulc.bad < 15) :
    s.badParcel = s.mapUlc fun u => { u with good := 0, bad := u.bad + 1 } := by
  have hbump : bump s.ulc.bad = s.ulc.bad + 1 := Nat.min_eq_right hbad
  have hcount : (s.mapUlc fun u => { u with good := 0, bad := bump u.bad }) =
      s.mapUlc fun u => { u with good := 0, bad := u.bad + 1 } := by
    simp only [State.mapUlc, hbump]
  rw [State.badParcel, hcount]
  refine if_neg fun heighth => ?_
  obtain ⟨hline, hbound⟩ := heighth
  obtain h | h := h
  · exact h hline
  · exact absurd (show 8 ≤ s.ulc.bad + 1 from hbound) (by omega)

/-- The eighth bad parcel leaves UP. -/
theorem badParcel_eighth (hline : s.ulc.line = .up) (h : s.ulc.bad = 7) :
    s.badParcel = { s with
      ulc := { s.ulc with line := .slip, good := 0, bad := 0 }
      tke := { s.tke with sinceUp := 0, counting := true }
      atc := (s.raise .enteredSlip).atc } := by
  rw [State.badParcel, if_pos ⟨hline, by show 8 ≤ bump s.ulc.bad; rw [h]; decide⟩]
  exact enterSlip_of_up (s := s.mapUlc fun u => { u with good := 0, bad := bump u.bad }) hline

end Sys2Proof.Machine

namespace Sys2Proof.Proofs

open Sys2Proof Sys2Proof.Machine

/-- Settles O53: the receiver judges the one parcel and then waits, so that each conjunct is the parcel taken in its line
state. -/
theorem aParcelIsTakenInUp : Obligations.AParcelIsTakenInUp := by
  refine ⟨fun kind office nibble body => scan_parcel, fun s bytes n kind nibble body hlive hwf hassembly hhead hoffice =>
    ⟨fun hscan hwrite hclaims hnone hlist => ⟨fun hquery hmode hline => ?_, fun hquery hmode hkind => ?_,
      fun hline hkind hquery hmode hlast hplaced hsweep => ?_, fun hline hkind hquery hmode => ?_⟩,
      fun rest hscan hrest hline => ⟨fun hbad => ?_, fun hbad => ?_⟩⟩, fun s m hlive hwrite hclaims => ?_⟩
  · have htakes := receives_of_scan hlive hwf hassembly hhead hscan (by rw [hline]; rfl)
    refine ⟨fun hkind => ?_, fun hkind hfree => ?_, fun hkind hfree => ?_⟩
    · subst hkind
      exact receives_up_calm_idle hoffice ⟨hwrite, hclaims⟩ htakes hquery hmode hline
    · exact receives_up_calm_dispatched hoffice ⟨hwrite, hclaims⟩ htakes hquery hmode hline hkind hfree hnone hlist
    · exact receives_up_calm_backlog hoffice ⟨hwrite, hclaims⟩ htakes hquery hmode hline hkind hfree
  · subst hkind
    have htakes := receives_of_scan hlive hwf hassembly hhead hscan
    refine ⟨fun from_ good hmem hline hgood => ?_, fun hline hgood => ?_, fun hline hgood => ?_⟩
    · obtain ⟨hsends, -⟩ := judged_enters (s := s.buffered) hoffice hmem hline hgood 0 nibble body
      exact receives_enters_calm hoffice ⟨hwrite, hclaims⟩ (htakes (hline ▸ hsends)) hquery hmode hmem hline hgood
    · exact receives_train hoffice (htakes (by rw [hline]; rfl)) hline hgood
    · exact receives_slip hoffice ⟨hwrite, hclaims⟩ (htakes (by rw [hline]; rfl)) hquery hmode hline hgood
  · subst hkind
    exact receives_up_idle hoffice (receives_of_scan hlive hwf hassembly hhead hscan (by rw [hline]; rfl)) hline
      (takeNibble_query (s := s.buffered.countedGood) ⟨hwrite, hclaims⟩ hquery hmode hlast hplaced hsweep) rfl
  · subst hkind
    exact receives_up_idle hoffice (receives_of_scan hlive hwf hassembly hhead hscan (by rw [hline]; rfl)) hline
      (takeNibble_mode (s := s.buffered.countedGood) ⟨hwrite, hclaims⟩ hquery hmode) rfl
  · exact exec_parcelReceive_to hlive hwf hassembly hhead (by rw [hline]; rfl) hscan hrest
      (badParcel_counted (s := s.mapUlc fun u => { u with assembly := rest }) (Or.inr hbad)
        (Nat.lt_trans hbad (by decide))) rfl
  · exact exec_parcelReceive_to hlive hwf hassembly hhead (by rw [hline]; rfl) hscan hrest
      (badParcel_eighth (s := s.mapUlc fun u => { u with assembly := rest }) hline hbad) rfl
  · exact exec_serviceModeWritten_of_live hlive hwrite hclaims

end Sys2Proof.Proofs
end

section
/-! PROOF. The transmitter, the upward queue and the arbiter of its places (R168 to R172, R177, R178, R212); the statement on
them. -/

namespace Sys2Proof.Machine

variable {s : State}

/-! ### The arbiter (R172) -/

/-- The arbiter gives a place to an owed report, and to a sweep that has none and no page under construction. -/
theorem arbitrate_eq (u : Ulc) :
    ∃ report new, u.arbitrate = { u with
        reportPlaced := report, reserved := u.reserved + bit new
        sweep := { u.sweep with placed := u.sweep.placed || new } } ∧
      (new = true → u.sweep.placed = false ∧ u.sweep.active = true) ∧
      (u.reportOwed = false → report = u.reportPlaced) := by
  have hreport : ∃ report, u.placeReport = { u with reportPlaced := report } ∧
      (u.reportOwed = false → report = u.reportPlaced) := by
    by_cases h : (u.reportOwed && !u.reportPlaced && decide (2 ≤ u.free)) = true
    · refine ⟨true, if_pos h, fun howed => ?_⟩
      rw [howed] at h
      cases h
    · exact ⟨u.reportPlaced, if_neg h, fun _ => rfl⟩
  obtain ⟨report, hreport, hkept⟩ := hreport
  rw [Ulc.arbitrate, hreport, Ulc.placeSweep]
  split
  next h =>
    simp only [Bool.and_eq_true, Bool.not_eq_true'] at h
    obtain ⟨⟨⟨⟨hactive, -⟩, hplaced⟩, -⟩, -⟩ := h
    refine ⟨report, true, ?_, fun _ => ⟨hplaced, hactive⟩, hkept⟩
    rw [Bool.or_true]
    rfl
  next => exact ⟨report, false, by rw [Bool.or_false]; rfl, Bool.noConfusion, hkept⟩

theorem arbitrate_of_few {u : Ulc} (h : u.free < 2) : u.arbitrate = u := by
  have hreport : u.placeReport = u := if_neg (by simp [h])
  rw [Ulc.arbitrate, hreport]
  exact if_neg (by simp [h])

/-- A report that is not owed, or has its place, gets none. -/
theorem placeReport_of_settled {u : Ulc} (h : u.reportOwed = false ∨ u.reportPlaced = true) : u.placeReport = u := by
  refine if_neg ?_
  obtain h | h := h <;> simp [h]

theorem placeSweep_reportPlaced (u : Ulc) : u.placeSweep.reportPlaced = u.reportPlaced := by
  unfold Ulc.placeSweep
  split <;> rfl

theorem arbitrate_report {u : Ulc} (howed : u.reportOwed = true) (hplaced : u.reportPlaced = false) (hfree : 2 ≤ u.free) :
    u.arbitrate.reportPlaced = true := by
  rw [Ulc.arbitrate, placeReport_of_owed howed hplaced, placeSweep_reportPlaced]
  exact decide_eq_true hfree

theorem arbitrate_sweep {u : Ulc} (hreport : u.reportOwed = false ∨ u.reportPlaced = true) (hfree : 2 ≤ u.free)
    (hactive : u.sweep.active = true) (hpage : u.sweep.page = none) (hplaced : u.sweep.placed = false)
    (hnone : u.dispatched = none) :
    u.arbitrate = { u with reserved := u.reserved + 1, sweep := { u.sweep with placed := true } } := by
  rw [Ulc.arbitrate, placeReport_of_settled hreport]
  exact if_pos (by simp [hactive, hpage, hplaced, Ulc.sweepAnswerDue, hnone, hfree])

/-! ### The transmitter (R168, R169, R212) -/

/-- The transmitter begins on the head entry if it may, and goes on with what it sends. -/
theorem startTx_sends (s : State) :
    ∃ told, s.startTx = s.mapUlc fun u =>
      { u with tx := if s.ulc.queue = [] then s.ulc.tx else s.sends, noneTold := told } := by
  by_cases hqueue : s.ulc.queue = []
  · rw [startTx_idle (Or.inl hqueue), if_pos hqueue]
    exact ⟨s.ulc.noneTold, rfl⟩
  · rw [if_neg hqueue]
    cases htx : s.ulc.tx with
    | some x =>
      refine ⟨s.ulc.noneTold, ?_⟩
      simp only [State.startTx, State.sends, htx]
      rw [← htx]
      rfl
    | none =>
      cases hoffice : s.ulc.office with
      | none =>
        refine ⟨s.ulc.noneTold, ?_⟩
        simp only [State.startTx, State.sends, htx, hoffice]
        rw [← htx]
        rfl
      | some n =>
        cases hsends : s.ulc.line.sending with
        | true =>
          refine ⟨s.tells, ?_⟩
          rw [startTx_begins htx hoffice hsends hqueue]
          simp only [State.sends, htx, hoffice, hsends, if_true]
        | false =>
          refine ⟨s.ulc.noneTold, ?_⟩
          simp only [State.startTx, State.sends, htx, hoffice, hsends, Bool.false_and, Bool.false_eq_true, if_false]
          rw [← htx]
          rfl

/-- The parcel of each part of an entry, under its heading. -/
theorem parcels_getElem? (e : UpEntry) (heads : List Heading) (k : Nat) :
    (e.parcels heads)[k]? = heads[k]?.map (e.part (k + 1)) := by
  rw [UpEntry.parcels, List.getElem?_map]
  cases h : heads[k]? with
  | none =>
    have hlength : (heads.zip (List.range heads.length)).length = heads.length := by
      rw [List.length_zip, List.length_range, Nat.min_self]
    have hend := List.getElem?_eq_none_iff.1 h
    rw [List.getElem?_eq_none (by rw [hlength]; exact hend)]
    rfl
  | some x =>
    obtain ⟨hk, -⟩ := List.getElem?_eq_some_iff.1 h
    rw [List.getElem?_zip_eq_some (z := (x, k)) |>.2 ⟨h, List.getElem?_range hk⟩]
    rfl

theorem length_parcels (e : UpEntry) (heads : List Heading) : (e.parcels heads).length = heads.length := by
  rw [UpEntry.parcels, List.length_map, List.length_zip, List.length_range, Nat.min_self]

/-- An entry of one part, sent whole, is its one parcel under the heading it began with. -/
theorem parcels_headings_one {x : Transmission} {e : UpEntry} (hparts : e.parts = 1) (hsent : x.sent = []) :
    e.parcels (s.headings x e) = [e.part 1 x.now] := by
  rw [State.headings, hsent, hparts]
  rfl

/-! ### The queue (R170) -/

/-- The head instruction is dispatched when none is. -/
theorem dispatch_of_none {u : Ulc} (h : u.dispatched = none) :
    u.dispatch = { u with dispatched := u.list.head?.map fun i => ⟨i, .waiting, false⟩, list := u.list.tail } := by
  cases hlist : u.list with
  | nil =>
    simp only [Ulc.dispatch, h, hlist]
    show u = { u with dispatched := none, list := [] }
    rw [← h, ← hlist]
  | cons i rest =>
    simp only [Ulc.dispatch, h, hlist]
    rfl

theorem dropPlace_eq (u : Ulc) :
    u.dropPlace = { u with
      reserved := if u.sweep.placed then u.reserved - 1 else u.reserved, sweep := { u.sweep with placed := false } } := by
  unfold Ulc.dropPlace
  split
  next h => rfl
  next h =>
    rw [show false = u.sweep.placed from (Bool.not_eq_true _ ▸ h : u.sweep.placed = false).symm]

/-! ### The rows -/

theorem exec_idleParcelSend_of_live (hlive : s.live = true) {n : Nat} (hoffice : s.ulc.office = some n)
    (hsends : s.ulc.line.sending = true) (hqueue : s.ulc.queue = []) :
    exec .idleParcelSend s = .next (s.mapUlc fun u =>
      { u with lastSent := [parcel 0x00 n s.upNibble []], noneTold := s.tells }) := by
  show execIdleParcelSend s = _
  rw [execIdleParcelSend, whenLive_of_live _ hlive, hoffice]
  refine congrArg Host.Outcome.next (if_pos ?_)
  rw [hsends, hqueue]
  rfl

/-- The head entry leaves the queue with its parcels; the arbiter looks, and the next entry begins. -/
theorem exec_upwardEntrySent_of_live (hlive : s.live = true) {x : Transmission} {e : UpEntry} {rest : List UpEntry}
    (htx : s.ulc.tx = some x) (hqueue : s.ulc.queue = e :: rest) :
    ∃ u, exec .upwardEntrySent s = .next { s with ulc := u } ∧ u.queue = rest ∧
      u.lastSent = e.parcels (s.headings x e) ∧
      u.tx = if rest = [] then none else
        State.sends { s with ulc := { s.ulc with tx := none } } := by
  show ∃ u, execUpwardEntrySent s = _ ∧ _
  obtain ⟨report, new, harbitrate, -⟩ := arbitrate_eq { s.ulc with
    queue := rest, tx := none, lastSent := e.parcels (s.headings x e)
    noneTold := if x.sent.length + 1 < e.parts then s.tells else s.ulc.noneTold }
  obtain ⟨told, hstart⟩ := startTx_sends { s with ulc := Ulc.arbitrate { s.ulc with
    queue := rest, tx := none, lastSent := e.parcels (s.headings x e)
    noneTold := if x.sent.length + 1 < e.parts then s.tells else s.ulc.noneTold } }
  rw [execUpwardEntrySent, whenLive_of_live _ hlive, htx, hqueue]
  refine ⟨_, congrArg Host.Outcome.next (hstart.trans rfl), ?_⟩
  rw [harbitrate]
  exact ⟨rfl, rfl, rfl⟩

/-- What a row of the queue leaves: the arbiter has looked at `v`, and an idle transmitter begins on the head entry. -/
def State.joined (s : State) (v : Ulc) : State := State.startTx { s with ulc := v.arbitrate }

/-- After a row of the queue: the entries are those of `v`, the arbiter may have placed a report and a sweep, and the
transmitter has looked. -/
theorem joined_spec {v : Ulc} (htx : v.tx = s.ulc.tx) (hoffice : v.office = s.ulc.office) (hline : v.line = s.ulc.line) :
    ∃ report new told, s.joined v = { s with ulc := { v with
        reportPlaced := report, reserved := v.reserved + bit new
        sweep := { v.sweep with placed := v.sweep.placed || new }
        tx := if v.queue = [] then s.ulc.tx else s.sends, noneTold := told } } ∧
      (new = true → v.sweep.placed = false ∧ v.sweep.active = true) ∧
      (v.reportOwed = false → report = v.reportPlaced) := by
  obtain ⟨report, new, harbitrate, hnew, hreport⟩ := arbitrate_eq v
  obtain ⟨told, hstart⟩ := startTx_sends { s with ulc := v.arbitrate }
  have hsends : State.sends { s with ulc := v.arbitrate } = s.sends := by
    rw [harbitrate, State.sends, State.sends]
    simp only [htx, hoffice, hline]
    rfl
  refine ⟨report, new, told, hstart.trans ?_, hnew, hreport⟩
  rw [hsends, harbitrate]
  simp only [State.mapUlc, htx]

theorem exec_floatReportQueue_of_placed (h : s.inService = true) (hplaced : s.ulc.reportPlaced = true) :
    exec .floatReportQueue s = .next (s.joined (Ulc.push { s.ulc with reportOwed := false, reportPlaced := false }
      (.floatReport s.flu.snapshot))) := by
  show execFloatReportQueue s = _
  rw [execFloatReportQueue, whenInService_of_inService _ h]
  exact congrArg Host.Outcome.next (if_pos hplaced)

/-- ULC with a page written, before the arbiter looks. -/
def Ulc.pageWritten (u : Ulc) (page : SweepPage) : Ulc :=
  { u with
    reserved := if u.sweep.placed then u.reserved - 1 else u.reserved
    sweep := { u.sweep with
      placed := false, next := page.after, page := none, sent := u.sweep.sent + page.summaries.length }
    queue := if page.summaries = [] then u.queue
      else u.queue ++ [.sweepPage page.after u.sweep.remaining page.summaries] }

theorem writePage_eq (u : Ulc) (page : SweepPage) : u.writePage page = (u.pageWritten page).arbitrate := by
  rw [Ulc.writePage, dropPlace_eq]
  refine congrArg Ulc.arbitrate ?_
  cases h : page.summaries with
  | nil => simp only [Ulc.pageWritten, h, List.isEmpty_nil, if_true]
  | cons x rest => simp [Ulc.pageWritten, h, Ulc.push]

theorem exec_sweepPageWrite_of_page (h : s.inService = true) {page : SweepPage} (hpage : s.ulc.sweep.page = some page) :
    exec .sweepPageWrite s = .next (s.joined (s.ulc.pageWritten page)) := by
  show execSweepPageWrite s = _
  rw [execSweepPageWrite, whenInService_of_inService _ h, hpage]
  refine congrArg Host.Outcome.next ?_
  rw [State.joined, ← writePage_eq]
  rfl

/-- ULC with the SWEEP_END written, before the arbiter looks. -/
def Ulc.ended (u : Ulc) : Ulc :=
  { u with
    reserved := if u.sweep.placed then u.reserved - 1 else u.reserved
    sweep := { u.sweep with placed := false, active := false }
    queue := u.queue ++ [.sweepEnd u.sweep.next u.sweep.sent] }

theorem exec_sweepEnd_of_wantsEnd (h : s.inService = true) (hwants : s.ulc.sweep.wantsEnd = true) :
    exec .sweepEnd s = .next (s.joined s.ulc.ended) := by
  show execSweepEnd s = _
  rw [execSweepEnd, whenInService_of_inService _ h, if_pos hwants, State.mapUlc, Ulc.endSweep, dropPlace_eq]
  rfl

/-- A page is begun with no hold claim waiting: it reads its records, and every write of a slot examined has completed. -/
theorem exec_sweepPageBegin_of_wantsPage (h : s.inService = true) (hwants : s.ulc.sweep.wantsPage = true)
    (hwaiting : s.adir.waiting = []) :
    exec .sweepPageBegin s =
      .next { s with
        adir := (s.settleRange s.ulc.sweep.next
          (pageAfter s.adir.table s.ulc.sweep.next s.ulc.sweep.remaining)).adir
        ulc := { s.ulc with sweep := { s.ulc.sweep with
          remaining := s.ulc.sweep.remaining -
            (pageRecords s.adir.table s.ulc.sweep.next s.ulc.sweep.remaining).length
          page := some ⟨(pageRecords s.adir.table s.ulc.sweep.next s.ulc.sweep.remaining).map
            (fun p => p.2.summary p.1 beBytes), pageAfter s.adir.table s.ulc.sweep.next s.ulc.sweep.remaining⟩ } } } := by
  show execSweepPageBegin s = _
  rw [execSweepPageBegin, whenInService_of_inService _ h, if_pos hwants, State.beginPage, claimRange_of_none _ _ _ hwaiting]
  rfl

/-- A write of a slot that a sweep read has examined has completed. -/
theorem settleRange_settled {lo hi : Nat} {w : RecordWrite} (hmem : w ∈ (s.settleRange lo hi).adir.writes)
    (hlo : lo ≤ w.slot) (hhi : w.slot < hi) : w.settled = true := by
  obtain ⟨v, -, rfl⟩ := List.mem_map.1 hmem
  by_cases hv : lo ≤ v.slot ∧ v.slot < hi
  · rw [if_pos hv]
  · rw [if_neg hv] at hlo hhi
    exact absurd ⟨hlo, hhi⟩ hv

/-- A dropped answer: the dispatched instruction is done with, and the next is dispatched. -/
theorem exec_answerWrite_dropped (h : s.inService = true) {i : LineInstr} {code : AnswerCode} {echo detail : List Byte}
    (hanswered : s.ulc.dispatched = some ⟨i, .answered code echo detail, true⟩) :
    exec .answerWrite s = .next (State.startTx { s with ulc := { s.ulc with
      dispatched := s.ulc.list.head?.map fun i => ⟨i, .waiting, false⟩, list := s.ulc.list.tail } }) := by
  show execAnswerWrite s = _
  rw [execAnswerWrite, whenInService_of_inService _ h, hanswered]
  refine congrArg (fun u => Host.Outcome.next (State.startTx { s with ulc := u })) ?_
  exact dispatch_of_none (u := { s.ulc with dispatched := none }) rfl

/-- ULC with the ANSWER of the dispatched instruction written, before the arbiter looks. -/
def Ulc.answeredWith (u : Ulc) (e : UpEntry) : Ulc :=
  { u with dispatched := none, reserved := u.reserved - 1, queue := u.queue ++ [e] }

/-- An ANSWER joins the queue in its place, and the next instruction is dispatched. -/
theorem exec_answerWrite_written (h : s.inService = true) {i : LineInstr} {code : AnswerCode} {echo detail : List Byte}
    (hanswered : s.ulc.dispatched = some ⟨i, .answered code echo detail, false⟩) :
    ∃ report new told, exec .answerWrite s = .next { s with ulc := { s.ulc with
        dispatched := s.ulc.list.head?.map fun i => ⟨i, .waiting, false⟩, list := s.ulc.list.tail
        queue := s.ulc.queue ++ [.answer (answerBody i.kind code echo detail)]
        reserved := s.ulc.reserved - 1 + bit new, reportPlaced := report
        sweep := { s.ulc.sweep with placed := s.ulc.sweep.placed || new }
        tx := s.sends, noneTold := told } } ∧
      (new = true → s.ulc.sweep.placed = false) := by
  show ∃ report new told, execAnswerWrite s = _ ∧ _
  obtain ⟨report, new, harbitrate, hnew, -⟩ :=
    arbitrate_eq (s.ulc.answeredWith (.answer (answerBody i.kind code echo detail)))
  obtain ⟨told, hstart⟩ := startTx_sends { s with
    ulc := (s.ulc.answeredWith (.answer (answerBody i.kind code echo detail))).arbitrate.dispatch }
  rw [harbitrate, dispatch_of_none rfl] at hstart
  rw [execAnswerWrite, whenInService_of_inService _ h, hanswered]
  refine ⟨report, new, told, ?_, fun hset => (hnew hset).1⟩
  show Host.Outcome.next (State.startTx { s with
    ulc := (s.ulc.answeredWith (.answer (answerBody i.kind code echo detail))).arbitrate.dispatch }) = _
  rw [harbitrate, dispatch_of_none rfl, hstart]
  refine congrArg Host.Outcome.next ?_
  rw [if_neg (by simp [Ulc.answeredWith])]
  rfl

end Sys2Proof.Machine

namespace Sys2Proof.Proofs

open Sys2Proof Sys2Proof.Machine

/-- Settles O54: by the arbiter's two steps, and the transmitter that begins on the head entry once a row of the queue has
left it. -/
theorem theTransmitterAndTheUpwardQueue : Obligations.TheTransmitterAndTheUpwardQueue := by
  refine ⟨fun s hlive => ⟨fun n hoffice hsends hqueue => exec_idleParcelSend_of_live hlive hoffice hsends hqueue,
      fun x e rest htx hqueue => ?_⟩,
    fun s h hplaces => ⟨fun hplaced => ?_, fun hactive hpage hplaced hremaining hnext hwaiting => ?_,
      fun page hpage => ?_, fun hactive hpage hplaced hend => ?_, fun i code echo detail dropped hanswered => ?_⟩,
    fun u => ⟨arbitrate_of_few, arbitrate_report, fun hreport hfree hactive hpage hplaced hnone =>
      arbitrate_sweep hreport hfree hactive hpage hplaced hnone, fun hreport hactive => ?_⟩⟩
  · obtain ⟨u, hexec, hrest, hsent, hu⟩ := exec_upwardEntrySent_of_live hlive htx hqueue
    refine ⟨_, hexec, hrest, rfl, fun body he hx => ?_, fun body he hx => ?_, fun next sent he hx => ?_,
      fun next remaining summaries n he hoffice hlt => ?_, fun hempty => ?_, fun n hmore hoffice hsends => ?_⟩
    · subst he
      exact hsent.trans (parcels_headings_one rfl hx)
    · subst he
      exact hsent.trans (parcels_headings_one rfl hx)
    · subst he
      exact hsent.trans (parcels_headings_one rfl hx)
    · subst he
      have hheads : s.headings x (.sweepPage next remaining summaries) =
          x.sent ++ [x.now] ++ List.replicate (summaries.length - (x.sent.length + 1)) ⟨n, s.upNibble⟩ := by
        rw [State.headings, hoffice]
        rfl
      refine ⟨?_, fun k head hhead => ?_⟩
      · show u.lastSent.length = _
        rw [hsent, length_parcels, hheads, List.length_append, List.length_append, List.length_replicate,
          List.length_singleton]
        omega
      · show u.lastSent[k]? = _
        rw [hsent, parcels_getElem?, hheads, hhead]
        rfl
    · exact hu.trans (if_pos hempty)
    · refine hu.trans ((if_neg hmore).trans ?_)
      simp only [State.sends, hoffice, hsends, if_true]
      rfl
  · obtain ⟨report, new, told, hjoined, -, hreport⟩ := joined_spec (s := s)
      (v := Ulc.push { s.ulc with reportOwed := false, reportPlaced := false } (.floatReport s.flu.snapshot)) rfl rfl rfl
    refine ⟨_, (exec_floatReportQueue_of_placed h hplaced).trans (congrArg _ hjoined), rfl, hreport rfl, rfl, ?_, rfl⟩
    exact if_neg (by simp [Ulc.push])
  · refine ⟨_, _, exec_sweepPageBegin_of_wantsPage h (by simp [Sweep.wantsPage, *, slotCount]) hwaiting, rfl, rfl, hplaced,
      rfl, ?_, rfl, fun w hmem hlo hhi => settleRange_settled hmem hlo hhi, rfl⟩
    simp only [List.length_map]
  · obtain ⟨report, new, told, hjoined, hnew, -⟩ := joined_spec (s := s) (v := s.ulc.pageWritten page) rfl rfl rfl
    obtain ⟨hreserved, -, hpageplaced⟩ := hplaces
    have hplaced : s.ulc.sweep.placed = true := hpageplaced (by rw [hpage]; rfl)
    refine ⟨_, (exec_sweepPageWrite_of_page h hpage).trans (congrArg _ hjoined), rfl, rfl, rfl, ?_, rfl, rfl, rfl⟩
    have hpaging : s.ulc.paging = 1 := by rw [Ulc.paging, hplaced]; rfl
    show (if s.ulc.sweep.placed then s.ulc.reserved - 1 else s.ulc.reserved) + bit new + 1 =
      s.ulc.reserved + if (false || new) = true then 1 else 0
    rw [if_pos hplaced, Bool.false_or, bit]
    omega
  · obtain ⟨report, new, told, hjoined, hnew, -⟩ := joined_spec (s := s) (v := s.ulc.ended) rfl rfl rfl
    have hnotnew : new = false := Bool.eq_false_iff.2 fun hset => Bool.noConfusion (hnew hset).2
    obtain ⟨hreserved, -, -⟩ := hplaces
    have hpaging : s.ulc.paging = 1 := by rw [Ulc.paging, hplaced]; rfl
    refine ⟨_, (exec_sweepEnd_of_wantsEnd h ?_).trans (congrArg _ hjoined), rfl, by rw [hnotnew]; rfl, ?_, rfl, ?_, rfl⟩
    · have hover : s.ulc.sweep.remaining = 0 ∨ slotCount ≤ s.ulc.sweep.next := hend
      simpa [Sweep.wantsEnd, hactive, hpage, hplaced] using hover
    · show (if s.ulc.sweep.placed then s.ulc.reserved - 1 else s.ulc.reserved) + bit new + 1 = s.ulc.reserved
      rw [if_pos hplaced, hnotnew, bit]
      simp only [Bool.false_eq_true, if_false]
      omega
    · exact if_neg (by simp [Ulc.ended])
  · cases dropped with
    | true =>
      obtain ⟨told, hstart⟩ := startTx_sends { s with ulc := { s.ulc with
        dispatched := s.ulc.list.head?.map fun i => ⟨i, .waiting, false⟩, list := s.ulc.list.tail } }
      exact ⟨_, (exec_answerWrite_dropped h hanswered).trans (congrArg _ hstart), rfl, rfl, rfl, fun _ => ⟨rfl, rfl⟩,
        Bool.noConfusion⟩
    | false =>
      obtain ⟨report, new, told, hexec, hnew⟩ := exec_answerWrite_written h hanswered
      obtain ⟨hreserved, -, -⟩ := hplaces
      have howing : s.ulc.owing = 1 := by rw [Ulc.owing, hanswered]; rfl
      refine ⟨_, hexec, rfl, rfl, rfl, Bool.noConfusion, fun _ => ⟨rfl, ?_, rfl⟩⟩
      show s.ulc.reserved - 1 + bit new + 1 + (if s.ulc.sweep.placed then 1 else 0) =
        s.ulc.reserved + if (s.ulc.sweep.placed || new) = true then 1 else 0
      cases hset : new with
      | false =>
        rw [Bool.or_false, bit]
        simp only [Bool.false_eq_true, if_false]
        omega
      | true =>
        rw [hnew hset, bit]
        simp only [Bool.false_eq_true, if_false, Bool.or_true, if_true]
        omega
  · rw [Ulc.arbitrate, placeReport_of_settled hreport]
    exact placeSweep_of_not_active hactive

end Sys2Proof.Proofs
end

section
/-! PROOF. The utility's instructions of FLU and TFU (R33 to R38, R54, R55, R57, R174): what their owner answers and writes;
the statements on them. -/

namespace Sys2Proof.Machine

variable {s t : State} {i : LineInstr} {d : Bool} {k : LineKind}

/-! ### The dispatched instruction and its answer (R174) -/

/-- The owner takes the instruction dispatched to it. -/
theorem ownerTakes_dispatched (f : LineInstr → State → State) (h : s.dispatches k i d) :
    ownerTakes k f s = .next (f i s) := by
  obtain ⟨hin, hdisp, hkind⟩ := h
  rw [ownerTakes, whenInService_of_inService _ hin]
  simp only [State.dispatchedIf, hdisp, hkind, if_true]

/-- The answer of the dispatched instruction, on a state whose ULC is that of `s`. -/
theorem answered_dispatched {phase : DispatchPhase} (h : s.ulc.dispatched = some ⟨i, phase, d⟩) (code : AnswerCode)
    (echo detail : List Byte) :
    s.answered code echo detail = { s with ulc := s.ulc.answering i d code echo detail } := by
  simp only [State.answered, State.mapUlc, h]
  rfl

theorem State.dispatches.answered (h : s.dispatches k i d) (code : AnswerCode) (echo detail : List Byte) :
    s.answered code echo detail = { s with ulc := s.ulc.answering i d code echo detail } :=
  answered_dispatched h.2.1 code echo detail

/-- A change that leaves ULC commutes with the answer. -/
theorem State.dispatches.answered_of (h : s.dispatches k i d) (hulc : t.ulc = s.ulc) (code : AnswerCode)
    (echo detail : List Byte) :
    t.answered code echo detail = { t with ulc := s.ulc.answering i d code echo detail } := by
  rw [answered_dispatched (s := t) (hulc ▸ h.2.1), hulc]

/-! ### FLU (R52, R54, R55, R57) -/

/-- The owner has the instruction: it waits for FLU. -/
theorem claimed_eq (h : s.dispatches k i d) :
    s.claimed = { s with ulc := { s.ulc with dispatched := some ⟨i, .claimed, d⟩ } } := by
  simp only [State.claimed, State.mapUlc, h.2.1]
  rfl

/-- The answer of an instruction that its owner has had, on a state with the ULC of the claim. -/
theorem answered_of_claimed (h : s.dispatches k i d) (hulc : t.ulc = s.claimed.ulc) (code : AnswerCode)
    (echo detail : List Byte) :
    t.answered code echo detail = { t with ulc := s.ulc.answering i d code echo detail } := by
  have hulc : t.ulc = { s.ulc with dispatched := some ⟨i, .claimed, d⟩ } := hulc.trans (by rw [claimed_eq h])
  rw [answered_dispatched (s := t) (i := i) (d := d) (phase := .claimed) (by rw [hulc]), hulc]
  rfl

/-- An instruction that FLU refuses is answered, and no more. -/
theorem claimed_answered (h : s.dispatches k i d) (code : AnswerCode) (echo detail : List Byte) :
    s.claimed.answered code echo detail = { s with ulc := s.ulc.answering i d code echo detail } := by
  rw [answered_of_claimed h rfl, claimed_eq h]

/-- A claim that an instruction makes on FLU waits for a write under way. -/
theorem claimed_waits (h : s.dispatches k i d) {claim : FloatClaim} (hqueue : s.flu.queue = [])
    (hw : s.flu.writing ≠ none) :
    (s.claimed.claimFloat claim).pumpFloat = { s with
      flu := { s.flu with queue := [claim] }
      ulc := { s.ulc with dispatched := some ⟨i, .claimed, d⟩ } } := by
  rw [pumpFloat_waits (s := s.claimed) hqueue hw, claimed_eq h, State.claimFloat, State.mapFlu]
  simp only [hqueue, List.nil_append]

/-- A claim that FLU refuses. -/
theorem claimed_refused (h : s.dispatches k i d) {claim : FloatClaim} (hqueue : s.flu.queue = [])
    (hw : s.flu.writing = none) {code : AnswerCode} {echo detail : List Byte}
    (htake : s.claimed.takeFloat claim = s.claimed.answered code echo detail) :
    (s.claimed.claimFloat claim).pumpFloat = { s with ulc := s.ulc.answering i d code echo detail } := by
  have hanswered := htake.trans (claimed_answered h code echo detail)
  rw [pumpFloat_claim s.claimed claim hqueue hw (Or.inl (by rw [hanswered]; exact hqueue)), hanswered]

/-- The part with a claim of an instruction written by FLU and answered. -/
theorem claimed_writes (h : s.dispatches k i d) {claim : FloatClaim} (hqueue : s.flu.queue = [])
    (hw : s.flu.writing = none) {u : State} {code : AnswerCode} {echo detail : List Byte}
    (htake : s.claimed.takeFloat claim = u.answered code echo detail)
    (hu : u = { s.claimed with flu := (s.claimed.completeFloat claim).flu, atc := u.atc }) :
    (s.claimed.claimFloat claim).pumpFloat = { s with
      flu := (s.claimed.completeFloat claim).flu, ulc := s.ulc.answering i d code echo detail, atc := u.atc } := by
  have hflu : u.flu = (s.claimed.completeFloat claim).flu := by rw [hu]
  have hulc : u.ulc = s.claimed.ulc := by rw [hu]
  have hanswered := htake.trans (answered_of_claimed h hulc code echo detail)
  have hempty : (s.claimed.takeFloat claim).flu.queue = [] := by
    rw [hanswered]
    show u.flu.queue = []
    rw [hflu, completeFloat_queue]
    exact hqueue
  rw [pumpFloat_claim s.claimed claim hqueue hw (Or.inl hempty), hanswered, hu, claimed_eq h]

theorem exec_grant_dispatched (h : s.dispatches .grant i d) :
    exec .grant s = .next ((s.claimed.claimFloat (.grant (i.field 0 4) (i.field 4 4))).pumpFloat) := by
  show execGrant s = _
  rw [execGrant, ownerTakes_dispatched _ h]

theorem exec_recall_dispatched (h : s.dispatches .recall i d) :
    exec .recall s = .next ((s.claimed.claimFloat (.recall (i.field 0 4) (i.field 4 4))).pumpFloat) := by
  show execRecall s = _
  rw [execRecall, ownerTakes_dispatched _ h]

theorem exec_floatTerms_dispatched (h : s.dispatches .floatTerms i d) :
    exec .floatTerms s =
      .next ((s.claimed.claimFloat (.terms (i.field 0 4) (i.field 4 4) (i.field 8 4))).pumpFloat) := by
  show execFloatTerms s = _
  rw [execFloatTerms, ownerTakes_dispatched _ h]

/-- The numbering lines, then the ceiling (R54). -/
theorem grantCode_eq (f : Flu) (n a : Nat) :
    f.grantCode n a =
      if n < 1 ∨ maxSerial < n ∨ a < 1 ∨ 100000000 < a then .badField
      else if n < f.record.nextGrant then .duplicate
      else if f.record.nextGrant < n then .outOfOrder
      else if f.record.ceiling < f.available + f.reserved + a then .overCeiling
      else .accepted := by
  simp only [Flu.grantCode, FloatRecord.numberRefusal]
  by_cases hbad : n < 1 ∨ maxSerial < n ∨ a < 1 ∨ 100000000 < a
  · simp only [if_pos hbad]
  · simp only [if_neg hbad]
    by_cases hold : n < f.record.nextGrant
    · simp only [if_pos hold]
    · simp only [if_neg hold]
      by_cases hlate : f.record.nextGrant < n
      · simp only [if_pos hlate]
      · simp only [if_neg hlate]

theorem recallCode_eq (f : Flu) (n a : Nat) :
    f.recallCode n a =
      if n < 1 ∨ maxSerial < n ∨ a < 1 ∨ 100000000 < a then .badField
      else if n < f.record.nextGrant then .duplicate
      else if f.record.nextGrant < n then .outOfOrder
      else .accepted := by
  simp only [Flu.recallCode, FloatRecord.numberRefusal]
  by_cases hbad : n < 1 ∨ maxSerial < n ∨ a < 1 ∨ 100000000 < a
  · simp only [if_pos hbad]; rfl
  · simp only [if_neg hbad]
    by_cases hold : n < f.record.nextGrant
    · simp only [if_pos hold]; rfl
    · simp only [if_neg hold]
      by_cases hlate : f.record.nextGrant < n
      · simp only [if_pos hlate]; rfl
      · simp only [if_neg hlate]; rfl

/-- A GRANT that is not accepted is answered with its code. -/
theorem takeGrant_refused {n a : Nat} (h : s.flu.grantCode n a ≠ .accepted) :
    s.takeGrant n a = s.answered (s.flu.grantCode n a) (beBytes 4 n) [] := by
  unfold State.takeGrant
  split
  next hcode => exact absurd hcode h
  next => rfl

theorem takeGrant_accepted {n a : Nat} (h : s.flu.grantCode n a = .accepted) :
    s.takeGrant n a = ((s.completeFloat (.grant n a)).raise .grantTaken).answered .accepted (beBytes 4 n)
      (beBytes 4 ((s.completeFloat (.grant n a)).raise .grantTaken).flu.available) := by
  simp only [State.takeGrant, h]

theorem takeRecall_refused {n a : Nat} (h : s.flu.recallCode n a ≠ .accepted) :
    s.takeRecall n a = s.answered (s.flu.recallCode n a) (beBytes 4 n) [] := by
  unfold State.takeRecall
  split
  next hcode => exact absurd hcode h
  next => rfl

theorem takeRecall_accepted {n a : Nat} (h : s.flu.recallCode n a = .accepted) :
    s.takeRecall n a = (s.completeFloat (.recall n a)).answered .accepted (beBytes 4 n)
      (beBytes 4 (min a s.flu.available)) := by
  simp only [State.takeRecall, h]

/-- A grant raises what is available by its amount. -/
theorem available_grant (h : s.flu.solvent) (n a : Nat) :
    (s.flu.complete (.grant n a)).available = s.flu.available + a := by
  have hsum := available_of_solvent h
  have hsolvent : (s.flu.complete (.grant n a)).solvent := by
    show s.flu.record.recalled + s.flu.record.consumed + s.flu.reserved ≤ s.flu.record.granted + a
    exact Nat.le_trans h (Nat.le_add_right _ _)
  have hafter := available_of_solvent hsolvent
  have hreserved : (s.flu.complete (.grant n a)).reserved = s.flu.reserved := rfl
  have hconsumed : (s.flu.complete (.grant n a)).record.consumed = s.flu.record.consumed := rfl
  have hrecalled : (s.flu.complete (.grant n a)).record.recalled = s.flu.record.recalled := rfl
  have hgranted : (s.flu.complete (.grant n a)).record.granted = s.flu.record.granted + a := rfl
  omega

/-- A write that does not lower what is available, and keeps the low mark, sets no level bit (R58). -/
theorem floatWatched_raised {b : Flu} (h : floatWatched s t b) (havail : s.flu.available ≤ b.available)
    (hmark : b.record.lowMark = s.flu.record.lowMark) : t.atc = s.atc := by
  have hlow : (decide (s.flu.record.lowMark ≤ s.flu.available) && decide (b.available < b.record.lowMark)) = false := by
    rw [hmark, Bool.and_eq_false_iff, decide_eq_false_iff_not, decide_eq_false_iff_not]
    omega
  have hempty : (decide (0 < s.flu.available) && decide (b.available = 0)) = false := by
    rw [Bool.and_eq_false_iff, decide_eq_false_iff_not, decide_eq_false_iff_not]
    omega
  rw [h.2, hlow, hempty]
  rfl

/-- A claim that an owner makes is watched as the instruction's write. -/
theorem floatWatched_of_claimed {b : Flu} (h : floatWatched s.claimed t b) : floatWatched s t b := by
  have hflu : s.claimed.flu = s.flu := rfl
  have hatc : s.claimed.atc = s.atc := rfl
  obtain ⟨hfigures, hbits⟩ := h
  rw [hflu] at hfigures hbits
  exact ⟨hfigures, hbits.trans (raiseIf_atc_congr (raiseIf_atc_congr hatc _ _) _ _)⟩

/-- A recall removes its amount from what is available, at most all of it. -/
theorem available_recall (f : Flu) (n a : Nat) :
    (f.complete (.recall n a)).available = f.available - min a f.available := by
  have hreserved : (f.complete (.recall n a)).reserved = f.reserved := rfl
  show f.record.granted - (f.record.recalled + min a f.available) - f.record.consumed -
    (f.complete (.recall n a)).reserved = f.available - min a f.available
  rw [hreserved]
  have : f.available = f.record.granted - f.record.recalled - f.record.consumed - f.reserved := rfl
  omega

theorem raise_of_only {u : State} {f : Flu} (h : u = { s with flu := f, atc := u.atc }) (b : Status) :
    u.raise b = { s with flu := f, atc := (u.raise b).atc } := by
  rw [h]
  rfl

/-- The write of a claim that an instruction makes. -/
def State.writes (s : State) (claim : FloatClaim) : State := s.claimed.completeFloat claim

theorem writes_watched (s : State) (claim : FloatClaim) :
    floatWatched s (s.writes claim) { s.flu.complete claim with writing := none } :=
  floatWatched_of_claimed (completeFloat_watched s.claimed claim)

theorem writes_recall (s : State) (n a : Nat) :
    floatWatched s (s.writes (.recall n a)) { s.flu with
      record := { s.flu.record with recalled := s.flu.record.recalled + min a s.flu.available, nextGrant := n + 1 }
      writing := none } := writes_watched s (.recall n a)

theorem writes_terms (s : State) (ceiling lowMark vendCap : Nat) :
    floatWatched s (s.writes (.terms ceiling lowMark vendCap)) { s.flu with
      record := { s.flu.record with ceiling := ceiling, lowMark := lowMark, vendCap := vendCap }
      writing := none } := writes_watched s (.terms ceiling lowMark vendCap)

theorem exec_grant_accepted (h : s.dispatches .grant i d) (hqueue : s.flu.queue = []) (hw : s.flu.writing = none)
    (hcode : s.flu.grantCode (i.field 0 4) (i.field 4 4) = .accepted) :
    exec .grant s = .next { s with
      flu := (s.writes (.grant (i.field 0 4) (i.field 4 4))).flu
      ulc := s.ulc.answering i d .accepted (beBytes 4 (i.field 0 4))
        (beBytes 4 (s.writes (.grant (i.field 0 4) (i.field 4 4))).flu.available)
      atc := ((s.writes (.grant (i.field 0 4) (i.field 4 4))).raise .grantTaken).atc } := by
  have htake := takeGrant_accepted (s := s.claimed) hcode
  rw [raise_flu] at htake
  rw [exec_grant_dispatched h, claimed_writes h (claim := .grant _ _) hqueue hw htake
    (raise_of_only (completeFloat_only _ _) _)]
  rfl

theorem exec_recall_accepted (h : s.dispatches .recall i d) (hqueue : s.flu.queue = []) (hw : s.flu.writing = none)
    (hcode : s.flu.recallCode (i.field 0 4) (i.field 4 4) = .accepted) :
    exec .recall s = .next { s with
      flu := (s.writes (.recall (i.field 0 4) (i.field 4 4))).flu
      ulc := s.ulc.answering i d .accepted (beBytes 4 (i.field 0 4)) (beBytes 4 (min (i.field 4 4) s.flu.available))
      atc := (s.writes (.recall (i.field 0 4) (i.field 4 4))).atc } := by
  have htake := takeRecall_accepted (s := s.claimed) hcode
  rw [exec_recall_dispatched h, claimed_writes h (claim := .recall _ _) hqueue hw htake (completeFloat_only _ _)]
  rfl

theorem exec_floatTerms_accepted (h : s.dispatches .floatTerms i d) (hqueue : s.flu.queue = [])
    (hw : s.flu.writing = none) (hok : termsOk (i.field 0 4) (i.field 4 4) (i.field 8 4) = true) :
    exec .floatTerms s = .next { s with
      flu := (s.writes (.terms (i.field 0 4) (i.field 4 4) (i.field 8 4))).flu
      ulc := s.ulc.answering i d .accepted [] []
      atc := (s.writes (.terms (i.field 0 4) (i.field 4 4) (i.field 8 4))).atc } := by
  have htake : s.claimed.takeTerms (i.field 0 4) (i.field 4 4) (i.field 8 4) = _ := if_pos hok
  rw [exec_floatTerms_dispatched h, claimed_writes h (claim := .terms _ _ _) hqueue hw htake (completeFloat_only _ _)]
  rfl

end Sys2Proof.Machine

namespace Sys2Proof.Proofs

open Sys2Proof Sys2Proof.Machine

/-- Settles O56: the claim waits for a write under way; else the numbering lines and the ceiling decide it, and a grant
lowers nothing that a level bit watches. -/
theorem grantIsDecidedByItsTable : Obligations.GrantIsDecidedByItsTable := by
  intro s i d h hqueue
  refine ⟨fun k hw => ?_, fun hw => ⟨fun hcode => ?_, fun hcode hsolvent => ?_⟩⟩
  · rw [exec_grant_dispatched h, claimed_waits h hqueue (by rw [hw]; exact Option.some_ne_none k)]
  · have hrefused : s.claimed.flu.grantCode (i.field 0 4) (i.field 4 4) ≠ .accepted := fun haccepted =>
      hcode ((grantCode_eq s.flu _ _).symm.trans haccepted)
    rw [exec_grant_dispatched h, claimed_refused h hqueue hw (claim := .grant _ _) (takeGrant_refused hrefused)]
    exact congrArg (fun code : AnswerCode => Host.Outcome.next { s with
      ulc := s.ulc.answering i d code (beBytes 4 (i.field 0 4)) [] }) (grantCode_eq s.flu _ _)
  · have hgrant : s.flu.grantCode (i.field 0 4) (i.field 4 4) = .accepted := (grantCode_eq s.flu _ _).trans hcode
    have hwatched := writes_watched s (.grant (i.field 0 4) (i.field 4 4))
    have havail : (s.writes (.grant (i.field 0 4) (i.field 4 4))).flu.available = s.flu.available + i.field 4 4 := by
      rw [hwatched.1]
      exact available_grant hsolvent _ _
    have hkept : (s.writes (.grant (i.field 0 4) (i.field 4 4))).atc = s.atc :=
      floatWatched_raised hwatched (Nat.le_trans (Nat.le_add_right _ _) (available_grant hsolvent _ _).ge) rfl
    refine ⟨_, exec_grant_accepted h hqueue hw hgrant, ?_, havail, ?_, ?_, ?_, ?_, rfl⟩
    · rw [hwatched.1]
      rfl
    · rw [hwatched.1]
      rfl
    · rw [hwatched.1]
    · rw [raise_atc, raise_atc, hkept]
    · rw [havail]

/-- Settles O57: by the numbering lines of a RECALL, and the fields of a FLOAT_TERMS. -/
theorem recallAndFloatTerms : Obligations.RecallAndFloatTerms := by
  intro s i d hqueue hw
  refine ⟨fun h => ⟨fun hcode => ?_, fun hcode => ?_⟩, fun h => ⟨fun hceiling hmark hcap => ?_, fun hbad => ?_⟩⟩
  · have hrefused : s.claimed.flu.recallCode (i.field 0 4) (i.field 4 4) ≠ .accepted := fun haccepted =>
      hcode ((recallCode_eq s.flu _ _).symm.trans haccepted)
    rw [exec_recall_dispatched h, claimed_refused h hqueue hw (claim := .recall _ _) (takeRecall_refused hrefused)]
    exact congrArg (fun code : AnswerCode => Host.Outcome.next { s with
      ulc := s.ulc.answering i d code (beBytes 4 (i.field 0 4)) [] }) (recallCode_eq s.flu _ _)
  · have hrecall : s.flu.recallCode (i.field 0 4) (i.field 4 4) = .accepted := (recallCode_eq s.flu _ _).trans hcode
    have hwatched := writes_watched s (.recall (i.field 0 4) (i.field 4 4))
    refine ⟨_, exec_recall_accepted h hqueue hw hrecall, ?_, ?_, rfl, rfl⟩
    · exact (writes_recall s _ _).congr rfl rfl
    · rw [hwatched.1]
      exact available_recall s.flu _ _
  · have hok : termsOk (i.field 0 4) (i.field 4 4) (i.field 8 4) = true := by simp [termsOk, *]
    refine ⟨_, exec_floatTerms_accepted h hqueue hw hok, ?_, rfl, rfl⟩
    exact (writes_terms s _ _ _).congr rfl rfl
  · have hok : ¬ termsOk (i.field 0 4) (i.field 4 4) (i.field 8 4) = true := by
      simp only [termsOk, Bool.and_eq_true, decide_eq_true_eq]
      omega
    rw [exec_floatTerms_dispatched h, claimed_refused h hqueue hw (claim := .terms _ _ _) (if_neg hok)]

end Sys2Proof.Proofs
end

section
/-! PROOF. The utility's instructions of TFU that load, arm and disarm (R33 to R38); the statements on them. -/

namespace Sys2Proof.Machine

variable {s t : State} {i : LineInstr} {d : Bool} {k : LineKind}

/-! ### TARIFF (R33, R34) -/

/-- A flag set in the loaded flags. -/
theorem getLsbD_setFlag (flags : BitVec 16) {cls n : Nat} (hn : n < 16) (v : Bool) :
    (setFlag flags cls v).getLsbD n = if n = cls then v else flags.getLsbD n := by
  have hone : (1#16 <<< cls).getLsbD n = decide (n = cls) := by
    rw [BitVec.getLsbD_shiftLeft]
    by_cases h : n = cls
    · subst h
      simp [hn]
    · simp only [hn, decide_true, Bool.true_and, decide_eq_false h, Bool.and_eq_false_iff, Bool.not_eq_false',
        decide_eq_true_eq]
      by_cases hlt : n < cls
      · exact Or.inl hlt
      · refine Or.inr ?_
        rw [BitVec.getLsbD_one]
        simp
        omega
  cases v with
  | true =>
    rw [setFlag, if_pos rfl, BitVec.getLsbD_or, hone]
    by_cases h : n = cls
    · rw [if_pos h, decide_eq_true h, Bool.or_true]
    · rw [if_neg h, decide_eq_false h, Bool.or_false]
  | false =>
    rw [setFlag, if_neg Bool.false_ne_true, BitVec.getLsbD_and, BitVec.getLsbD_not, hone, decide_eq_true hn,
      Bool.true_and]
    by_cases h : n = cls
    · rw [if_pos h, decide_eq_true h, Bool.not_true, Bool.and_false]
    · rw [if_neg h, decide_eq_false h, Bool.not_false, Bool.and_true]

theorem getLsbD_of_ge_sixteen (flags : BitVec 16) {n : Nat} (h : 16 ≤ n) : flags.getLsbD n = false :=
  BitVec.getLsbD_of_ge _ _ h

/-- The shadow flags that an accepted TARIFF keeps: those of its own generation. -/
def BankState.keptFlags (b : BankState) (g : Nat) : BitVec 16 :=
  if b.generation.get b.shadow = g then b.loaded.get b.shadow else 0

/-- The banks after an accepted TARIFF (R34). -/
theorem load_bank (t : Tfu) (g cls : Nat) (e : ClassEntry) :
    (t.load g cls e).bank = { t.bank with
      arm := none, generation := t.bank.generation.set t.bank.shadow g
      loaded := (t.bank.loaded.set t.bank.shadow (setFlag (t.bank.keptFlags g) cls false)).set t.bank.shadow
        (setFlag (setFlag (t.bank.keptFlags g) cls false) cls true) } := by
  show (t.bank.loadFirst g cls).loadLast cls = _
  have hshadow : (t.bank.loadFirst g cls).shadow = t.bank.shadow := rfl
  rw [BankState.loadLast, hshadow]
  show ({ t.bank.loadFirst g cls with loaded := _ } : BankState) = _
  simp only [BankState.loadFirst, PerBank.get_set_self]
  rfl

theorem load_entries (t : Tfu) (g cls : Nat) (e : ClassEntry) :
    (t.load g cls e).entries = t.entries.set t.bank.shadow ((t.entries.get t.bank.shadow).set cls e) := rfl

/-- The flag of a class in the shadow bank after an accepted TARIFF. -/
theorem load_flag (t : Tfu) (g cls : Nat) (e : ClassEntry) {n : Nat} (hn : n < 16) :
    ((t.load g cls e).bank.loaded.get t.bank.shadow).getLsbD n =
      if n = cls then true else (t.bank.keptFlags g).getLsbD n := by
  rw [load_bank]
  simp only [PerBank.get_set_self]
  rw [getLsbD_setFlag _ hn, getLsbD_setFlag _ hn]
  split <;> rfl

/-- The decision of TFU on a TARIFF, by its fields and the active generation. -/
theorem exec_tariff_dispatched (h : s.dispatches .tariff i d) :
    exec .tariff s = .next
      (if (tariffDecision s.tfu i).2 then
        ((s.mapTfu fun t => t.load (i.field 0 2) (i.field 2 1) (carriedEntry i)).raiseIf s.tfu.bank.arm.isSome
          .disarmed).give (tariffDecision s.tfu i).1
      else s.give (tariffDecision s.tfu i).1) := by
  show execTariff s = _
  rw [execTariff, ownerTakes_dispatched _ h]

theorem exec_tariff_refused (h : s.dispatches .tariff i d) {code : AnswerCode}
    (hdecision : tariffDecision s.tfu i = (⟨code, slice i.body 0 3, []⟩, false)) :
    exec .tariff s = .next { s with ulc := s.ulc.answering i d code (slice i.body 0 3) [] } := by
  rw [exec_tariff_dispatched h, hdecision]
  exact congrArg Host.Outcome.next (h.answered _ _ _)

theorem exec_tariff_accepted (h : s.dispatches .tariff i d)
    (hdecision : tariffDecision s.tfu i = (⟨.accepted, slice i.body 0 3, []⟩, true)) :
    exec .tariff s = .next { s with
      tfu := s.tfu.load (i.field 0 2) (i.field 2 1) (carriedEntry i)
      ulc := s.ulc.answering i d .accepted (slice i.body 0 3) []
      atc := (s.raiseIf s.tfu.bank.arm.isSome .disarmed).atc } := by
  rw [exec_tariff_dispatched h, hdecision, if_pos rfl]
  refine congrArg Host.Outcome.next ((h.answered_of ?_ _ _ _).trans ?_)
  · exact raiseIf_ulc _ _ _
  · rw [raiseIf_raised, raiseIf_raised]
    rfl

/-! ### ARM (R35, R36) -/

theorem exec_arm_accepted (h : s.dispatches .arm i d) (hdecision : armDecision s.tfu i = .accepted) {u : State}
    (hu : (s.mapTfu fun t => t.armed i).applyLook = u) (hulc : u.ulc = s.ulc) :
    exec .arm s = .next { u with
      ulc := s.ulc.answering i d .accepted (beBytes 2 (i.field 0 2))
        (beBytes 1 (if (s.mapTfu fun t => t.armed i).applyDue then 2 else 1) ++
        beBytes 2 u.tfu.bank.activeGeneration) } := by
  show execArm s = _
  rw [execArm, ownerTakes_dispatched _ h]
  simp only [hdecision]
  rw [hu, h.answered_of hulc]

/-- An armed bank whose minute has come is applied (R36). -/
theorem armed_applyLook_due (hvalid : s.tke.clockValid = true) (hdue : i.field 2 4 ≤ s.tke.minute) :
    (s.mapTfu fun t => t.armed i).applyDue = true ∧
    (s.mapTfu fun t => t.armed i).applyLook =
      { s with tfu := { s.tfu with bank := (s.tfu.armed i).bank.apply }, atc := (s.raise .applied).atc } := by
  refine ⟨?_, applyLook_due (s := s.mapTfu fun t => t.armed i) (a := ⟨i.field 0 2, i.field 2 4⟩) hvalid rfl hdue⟩
  show (s.tke.clockValid && decide (i.field 2 4 ≤ s.tke.minute)) = true
  rw [hvalid, decide_eq_true hdue]
  rfl

/-- An armed bank whose minute has not come stays armed. -/
theorem armed_applyLook_waits (h : s.tke.clockValid = false ∨ s.tke.minute < i.field 2 4) :
    (s.mapTfu fun t => t.armed i).applyDue = false ∧
      (s.mapTfu fun t => t.armed i).applyLook = s.mapTfu fun t => t.armed i := by
  have hnot : (s.mapTfu fun t => t.armed i).applyDue = false := by
    show (s.tke.clockValid && decide (i.field 2 4 ≤ s.tke.minute)) = false
    obtain h | h := h
    · rw [h]
      rfl
    · rw [decide_eq_false (Nat.not_le.2 h), Bool.and_false]
  exact ⟨hnot, if_neg (by rw [hnot]; exact Bool.false_ne_true)⟩

/-! ### DISARM (R38) -/

theorem exec_disarm_dispatched (h : s.dispatches .disarm i d) :
    exec .disarm s = .next (if s.tfu.bank.arm.isSome then
      { s with
        tfu := { s.tfu with bank := { s.tfu.bank with arm := none } }
        ulc := s.ulc.answering i d .accepted [] [] }
      else { s with ulc := s.ulc.answering i d .notArmed [] [] }) := by
  show execDisarm s = _
  rw [execDisarm, ownerTakes_dispatched _ h, h.answered]
  rw [h.answered_of (t := s.mapTfu fun t => { t with bank := { t.bank with arm := none } }) rfl]
  rfl

theorem applyDue_of_not_armed (h : s.tfu.bank.arm = none) : s.applyDue = false := by
  rw [State.applyDue, h]

end Sys2Proof.Machine

namespace Sys2Proof.Proofs

open Sys2Proof Sys2Proof.Machine

/-- Settles O58: by the decision's lines, and what the load and the apply write. -/
theorem tariffAndArm : Obligations.TariffAndArm := by
  refine fun s i d => ⟨fun h => ⟨fun hbad => ?_, fun hgood hstale => ?_, fun hgood hnew => ?_⟩,
    fun h hlo hhi hminute hgen hloaded hnew => ?_⟩
  · exact exec_tariff_refused h (if_pos hbad)
  · exact exec_tariff_refused h ((if_neg hgood).trans (if_pos hstale))
  · have hcls : i.field 2 1 < 16 := by
      rw [not_or, not_or, not_or] at hgood
      omega
    have hdecision : tariffDecision s.tfu i = (⟨.accepted, slice i.body 0 3, []⟩, true) :=
      (if_neg hgood).trans (if_neg (Nat.not_le.2 hnew))
    refine ⟨_, exec_tariff_accepted h hdecision, ?_, ?_, ?_, ?_, ?_, ?_, fun hsame n hne => ?_, fun hother n hne => ?_,
      fun harm => ?_, fun harm => ?_, rfl, rfl⟩
    · exact PerBank.get_set_self _ _ _
    · rw [load_entries, PerBank.get_set]
      exact if_neg (Ne.symm (Bank.other_ne _))
    · rw [load_bank]
    · rw [load_bank]
    · rw [load_bank]
      exact PerBank.get_set_self _ _ _
    · exact (load_flag _ _ _ _ hcls).trans (if_pos rfl)
    · by_cases hn : n < 16
      · exact (load_flag _ _ _ _ hn).trans ((if_neg hne).trans (congrArg (BitVec.getLsbD · n) (if_pos hsame)))
      · rw [getLsbD_of_ge_sixteen _ (Nat.not_lt.1 hn), getLsbD_of_ge_sixteen _ (Nat.not_lt.1 hn)]
    · by_cases hn : n < 16
      · exact (load_flag _ _ _ _ hn).trans ((if_neg hne).trans
          ((congrArg (BitVec.getLsbD · n) (if_neg hother)).trans BitVec.getLsbD_zero))
      · exact getLsbD_of_ge_sixteen _ (Nat.not_lt.1 hn)
    · exact has_raiseIf_self s .disarmed (Option.isSome_iff_ne_none.2 harm)
    · rw [harm]
      rfl
  · have hdecision : armDecision s.tfu i = .accepted := by
      refine (if_neg (by simp only [maxMinute]; omega)).trans ((if_neg ?_).trans (if_neg (Nat.not_le.2 hnew)))
      rintro (hne | hne)
      · exact hne hgen
      · exact hne hloaded
    by_cases hdue : s.tke.clockValid = true ∧ i.field 2 4 ≤ s.tke.minute
    · obtain ⟨happly, hlook⟩ := armed_applyLook_due hdue.1 hdue.2
      refine ⟨_, exec_arm_accepted h hdecision hlook rfl, rfl, fun _ => ⟨rfl, rfl, ?_, rfl, rfl, has_raise_self _ _, ?_⟩,
        fun hnot => ?_⟩
      · exact PerBank.get_set_self _ _ _
      · rw [happly, if_pos rfl]
        show s.ulc.answering i d .accepted _ (beBytes 1 2 ++ beBytes 2 (s.tfu.bank.generation.get s.tfu.bank.active.other)) = _
        rw [hgen]
      · obtain hnot | hnot := hnot
        · rw [hdue.1] at hnot
          cases hnot
        · exact absurd hdue.2 (Nat.not_le.2 hnot)
    · have hwait : s.tke.clockValid = false ∨ s.tke.minute < i.field 2 4 := by
        rw [not_and_or, Bool.not_eq_true, Nat.not_le] at hdue
        exact hdue
      obtain ⟨happly, hlook⟩ := armed_applyLook_waits hwait
      refine ⟨_, exec_arm_accepted h hdecision hlook rfl, rfl, fun hnot => absurd hnot hdue, fun _ => ⟨rfl, rfl, ?_⟩⟩
      rw [happly]
      rfl

/-- Settles O59: the instruction decides by the arm alone, and without an arm no apply is due. -/
theorem disarmRemovesTheArm : Obligations.DisarmRemovesTheArm := by
  refine fun s i d h => ⟨fun harm => ?_, fun harm => ?_, ?_, fun t ht => ?_, fun hdue => ?_⟩
  · rw [exec_disarm_dispatched h, harm]
    rfl
  · rw [exec_disarm_dispatched h, if_pos (Option.isSome_iff_ne_none.2 harm)]
  · obtain ⟨-, -, hkind⟩ := h
    simp only [LineInstr.is, Bool.and_eq_true, decide_eq_true_eq] at hkind
    exact List.length_eq_zero_iff.1 hkind.2
  · rw [exec_disarm_dispatched h, Host.Outcome.next.injEq] at ht
    refine applyDue_of_not_armed ?_
    rw [← ht]
    split
    next => rfl
    next harm => exact Option.not_isSome_iff_eq_none.1 harm
  · rw [State.applyLook, if_pos hdue]
    exact ⟨rfl, rfl⟩

end Sys2Proof.Proofs
end

section
/-! PROOF. The utility's instructions MONTHS, TIME, HOLDOVER, SWEEP, FLOAT_QUERY and the unknown ones (R41, R89, R164, R173,
R175, R176); the statement on them. -/

namespace Sys2Proof.Machine

variable {s t : State} {i : LineInstr} {d : Bool} {k : LineKind}

/-! ### MONTHS (R39 to R42) -/

/-- The entries of a list follow each other when every two neighbours do. -/
theorem monthsFollow_iff (l : List MonthEntry) :
    monthsFollow l = true ↔
      ∀ k a b, l[k]? = some a → l[k + 1]? = some b → b.number = a.number + 1 ∧ a.start < b.start := by
  induction l with
  | nil => exact ⟨fun _ k a b ha => by simp at ha, fun _ => rfl⟩
  | cons x l ih =>
    cases l with
    | nil => exact ⟨fun _ k a b _ hb => by simp at hb, fun _ => rfl⟩
    | cons y rest =>
      rw [monthsFollow, Bool.and_eq_true, Bool.and_eq_true, decide_eq_true_eq, decide_eq_true_eq, ih]
      constructor
      · rintro ⟨hfirst, hrest⟩ k a b ha hb
        cases k with
        | zero =>
          cases ha
          cases hb
          exact hfirst
        | succ k => exact hrest k a b ha hb
      · exact fun h => ⟨h 0 x y rfl rfl, fun k a b ha hb => h (k + 1) a b ha hb⟩

/-- The fields of a MONTHS are out of range. -/
def monthsBad (carried : List MonthEntry) : Prop :=
  carried = [] ∨ 6 < carried.length ∨ ∃ e ∈ carried, e.number < 1 ∨ 65535 < e.number ∨ maxMinute < e.start

theorem monthsBad_iff (carried : List MonthEntry) :
    (carried.isEmpty || decide (6 < carried.length) ||
      carried.any (fun e => decide (e.number < 1) || decide (65535 < e.number) || decide (maxMinute < e.start))) = true ↔
      monthsBad carried := by
  simp only [monthsBad, Bool.or_eq_true, List.isEmpty_iff, decide_eq_true_eq, List.any_eq_true, or_assoc]

/-- The lines of MONTHS's table, in order (R41). -/
theorem monthsDecision_bad {calendar : List MonthEntry} (h : monthsBad (carriedMonths i)) :
    monthsDecision calendar i = .badField := if_pos ((monthsBad_iff _).2 h)

theorem monthsDecision_good {calendar : List MonthEntry} (h : ¬ monthsBad (carriedMonths i)) :
    monthsDecision calendar i =
      if (carriedMonths i).all fun e => decide (e ∈ calendar) then .duplicate
      else if monthsFollow (calendar.getLast?.toList ++ carriedMonths i) = false then .badField
      else if 24 < calendar.length + (carriedMonths i).length then .storeFull
      else .accepted := if_neg fun hbad => h ((monthsBad_iff _).1 hbad)

theorem monthsDecision_present {calendar : List MonthEntry} (h : ¬ monthsBad (carriedMonths i))
    (hpresent : ∀ e ∈ carriedMonths i, e ∈ calendar) : monthsDecision calendar i = .duplicate :=
  (monthsDecision_good h).trans (if_pos (List.all_eq_true.2 fun e he => decide_eq_true (hpresent e he)))

theorem monthsDecision_new {calendar : List MonthEntry} (h : ¬ monthsBad (carriedMonths i))
    (hnew : ¬ ∀ e ∈ carriedMonths i, e ∈ calendar) :
    monthsDecision calendar i =
      if monthsFollow (calendar.getLast?.toList ++ carriedMonths i) = false then .badField
      else if 24 < calendar.length + (carriedMonths i).length then .storeFull
      else .accepted :=
  (monthsDecision_good h).trans
    (if_neg fun hall => hnew fun e he => of_decide_eq_true (List.all_eq_true.1 hall e he))

theorem exec_months_accepted (h : s.dispatches .months i d) (hcode : monthsDecision s.tfu.calendar i = .accepted)
    {u : State} (hu : watchMonth State.rolloverLook (watchMonth (fun s => s.mapTfu fun t => t.appended i) s) = u)
    (hulc : u.ulc = s.ulc) :
    exec .months s = .next { u with ulc := s.ulc.answering i d .accepted (slice i.body 1 2) [] } := by
  show execMonths s = _
  rw [execMonths, ownerTakes_dispatched _ h]
  simp only [hcode]
  rw [hu, h.answered_of hulc]

theorem exec_months_refused (h : s.dispatches .months i d) (hcode : monthsDecision s.tfu.calendar i ≠ .accepted) :
    exec .months s =
      .next { s with ulc := s.ulc.answering i d (monthsDecision s.tfu.calendar i) (slice i.body 1 2) [] } := by
  rw [← h.answered]
  show execMonths s = _
  rw [execMonths, ownerTakes_dispatched _ h]
  dsimp only
  split
  next heq => exact absurd heq hcode
  next => rfl

/-- The part with the carried entries appended. -/
def State.monthsAppended (s : State) (i : LineInstr) : State := s.mapTfu fun t => t.appended i

/-- The append of a MONTHS moves the calendar and the status bits alone. -/
theorem watchMonth_appended (s : State) (i : LineInstr) :
    watchMonth (fun s => s.mapTfu fun t => t.appended i) s =
      { s.monthsAppended i with atc := (watchMonth (fun s => s.mapTfu fun t => t.appended i) s).atc } :=
  watchMonth_only _ _

/-- The rollover moves TFU and the status bits alone. -/
theorem watchMonth_rolloverLook (s : State) :
    watchMonth State.rolloverLook s =
      { s with tfu := s.rolloverLook.tfu, atc := (watchMonth State.rolloverLook s).atc } := by
  rw [watchMonth_only]
  show ({ s.rolloverLook with atc := _ } : State) = _
  rw [State.rolloverLook]
  split <;> rfl

/-- The part with the entries appended and watched. -/
def State.monthsWatched (s : State) (i : LineInstr) : State := watchMonth (fun s => s.mapTfu fun t => t.appended i) s

theorem monthsWatched_only (s : State) (i : LineInstr) :
    s.monthsWatched i = { s.monthsAppended i with atc := (s.monthsWatched i).atc } := watchMonth_appended s i

theorem rolloverLook_invalid (h : s.tke.clockValid = false) : s.rolloverLook = s :=
  if_neg (by rw [h]; exact Bool.false_ne_true)

theorem has_rolloverLook (s : State) (b : Status) : s.rolloverLook.has b = s.has b := by
  rw [State.rolloverLook]
  split <;> rfl

/-- An accepted MONTHS: the append, then the rollover. -/
theorem exec_months_appends (h : s.dispatches .months i d) (hcode : monthsDecision s.tfu.calendar i = .accepted) :
    exec .months s = .next { s with
      tfu := (s.monthsWatched i).rolloverLook.tfu
      ulc := s.ulc.answering i d .accepted (slice i.body 1 2) []
      atc := (watchMonth State.rolloverLook (s.monthsWatched i)).atc } := by
  have hlook := watchMonth_rolloverLook (s.monthsWatched i)
  have honly := monthsWatched_only s i
  rw [exec_months_accepted h hcode hlook (by show (s.monthsWatched i).ulc = _; rw [honly]; rfl)]
  generalize s.monthsWatched i = u at honly
  obtain ⟨A, rfl⟩ : ∃ A, u = { s.monthsAppended i with atc := A } := ⟨_, honly⟩
  rfl

/-- The month bits of the append, and then of the rollover. -/
theorem monthBits_months (s : State) (i : LineInstr) {t : State}
    (htke : t.tke = s.tke) (htfu : t.tfu = (s.monthsWatched i).rolloverLook.tfu)
    (hatc : t.atc = (watchMonth State.rolloverLook (s.monthsWatched i)).atc) :
    monthBits s (s.monthsAppended i) t ∧ monthBits (s.monthsAppended i) t t := by
  have honly := monthsWatched_only s i
  have hlook := watchMonth_rolloverLook (s.monthsWatched i)
  have hsame : ∀ b, (watchMonth State.rolloverLook (s.monthsWatched i)).has b = true → t.has b = true := fun b hb =>
    (has_congr b (congrArg Atc.status hatc)).trans hb
  have hmono : ∀ b, (s.monthsWatched i).has b = true → t.has b = true := fun b hb =>
    hsame b (has_watchMonth_mono _ ((has_rolloverLook _ b).trans hb))
  have hwtke : (s.monthsWatched i).tke = s.tke := by rw [honly]; rfl
  have hwtfu : (s.monthsWatched i).tfu = (s.monthsAppended i).tfu := by rw [honly]
  have hrtke : (s.monthsWatched i).rolloverLook.tke = s.tke := by rw [rolloverLook_tke, hwtke]
  exact ⟨(monthBits_watchMonth (fun s => s.mapTfu fun t => t.appended i) s).congr rfl rfl rfl rfl hmono,
    (monthBits_watchMonth State.rolloverLook (s.monthsWatched i)).congr hwtke.symm hwtfu.symm (htke.trans hrtke.symm)
      htfu hsame⟩

/-! ### TIME (R89) -/

/-- The part with the time of a TIME taken, but for the answer. -/
def State.timeTaken (s : State) (minute : Nat) : State :=
  (((s.setClock minute).raiseIf (!s.tke.clockValid) .clockValid).raiseIf
    (s.tke.clockValid && decide (minute < s.tke.minute)) .clockBack).raiseIf (decide (minute = maxMinute)) .clockEnd

theorem timeTaken_only (s : State) (minute : Nat) :
    s.timeTaken minute =
      { s with tke := s.tke.setTo minute, tfu := (s.setClock minute).tfu, atc := (s.timeTaken minute).atc } := by
  obtain ⟨T, A, hset⟩ : ∃ T A, s.setClock minute = { s with tke := s.tke.setTo minute, tfu := T, atc := A } :=
    ⟨_, _, moveClock_only _ _⟩
  simp only [State.timeTaken, hset, raiseIf_raised]

theorem clockTaken_timeTaken (s : State) (minute : Nat) : clockTaken s (s.timeTaken minute) minute := by
  refine (clockTaken_moveClock (f := fun k => k.setTo minute) rfl).congr (t := s.setClock minute)
    (by simp [State.timeTaken]) (by simp [State.timeTaken]) fun b hb => ?_
  exact has_raiseIf_mono _ _ (has_raiseIf_mono _ _ (has_raiseIf_mono _ _ hb))

theorem exec_time_dispatched (h : s.dispatches .time i d) :
    exec .time s = .next (if maxMinute < i.field 0 4 then s.answered .badField [] []
      else (s.timeTaken (i.field 0 4)).answered .accepted []
        (beBytes 4 (if s.tke.clockValid then s.tke.minute else max32))) := by
  show execTime s = _
  rw [execTime, ownerTakes_dispatched _ h]
  rfl

/-! ### HOLDOVER (R164) -/

/-- A holdover claim on a free record is written and answered. -/
theorem claimRecord_holdover (hfree : s.ulc.recordFree) (limit : Nat) :
    s.claimRecord (.holdover limit) = (s.setHoldover limit).answered .accepted [] (beBytes 2 s.ulc.holdover) := by
  obtain ⟨hwrite, hclaims⟩ := hfree
  have hempty : (s.mapUlc fun u => { u with recordClaims := [] }) = s := by
    rw [← hclaims]
    rfl
  have hdrain : s.claimRecord (.holdover limit) =
      (s.mapUlc fun u => { u with recordClaims := [] }).takeRecordClaim (.holdover limit) := by
    simp only [State.claimRecord, State.mapUlc, hclaims, List.nil_append, List.length_singleton, drainRecord, hwrite]
  rw [hdrain, hempty]
  rfl

theorem exec_holdover_dispatched (h : s.dispatches .holdover i d) :
    exec .holdover s = .next (if 10080 < i.field 0 2 then s.answered .badField [] []
      else s.claimed.claimRecord (.holdover (i.field 0 2))) := by
  show execHoldover s = _
  rw [execHoldover, ownerTakes_dispatched _ h]

/-! ### SWEEP (R176, R178) -/

/-- The detail of a SWEEP's answer: whether it replaces a running sweep, and the slot that one had reached. -/
def Ulc.sweepDetail (u : Ulc) : List Byte :=
  beBytes 1 (if u.sweep.active then 1 else 0) ++ beBytes 2 (if u.sweep.active then u.sweep.next else 0)

theorem exec_sweep_dispatched (h : s.dispatches .sweep i d) :
    exec .sweep s = .next
      (if slotCount ≤ i.field 0 2 ∨ i.field 2 1 < 1 ∨ 64 < i.field 2 1 then s.answered .badField [] []
      else if s.ulc.dropsAnswer then s.answered .accepted (beBytes 2 (i.field 0 2)) s.ulc.sweepDetail
      else ((s.mapUlc fun u => u.startSweep (i.field 0 2) (i.field 2 1)).answered .accepted (beBytes 2 (i.field 0 2))
        s.ulc.sweepDetail).mapUlc Ulc.arbitrate) := by
  show execSweep s = _
  rw [execSweep, ownerTakes_dispatched _ h]
  rfl

theorem dropsAnswer_dispatched (h : s.dispatches k i d) : s.ulc.dropsAnswer = d := by
  rw [Ulc.dropsAnswer, h.2.1]
  rfl

/-- An accepted SWEEP whose ANSWER is not written holds its first page back, so that the arbiter gives nothing. -/
theorem arbitrate_sweep_answering {u : Ulc} {echo detail : List Byte} (howed : u.reportOwed = false)
    (hkind : i.kind = LineKind.sweep.code) :
    (u.answering i false .accepted echo detail).arbitrate = u.answering i false .accepted echo detail := by
  have hdue : (u.answering i false .accepted echo detail).sweepAnswerDue = true := decide_eq_true hkind
  rw [Ulc.arbitrate, placeReport_of_settled (u := u.answering i false .accepted echo detail) (Or.inl howed)]
  exact if_neg (by simp [hdue])

/-- The sweep that a SWEEP starts, before its answer. -/
theorem startSweep_eq (u : Ulc) (start count : Nat) :
    u.startSweep start count = { u with
      reserved := if u.sweep.placed then u.reserved - 1 else u.reserved, sweep := ⟨true, start, count, none, 0, false⟩ } := by
  rw [Ulc.startSweep, dropPlace_eq]

/-! ### FLOAT_QUERY and the unknown instructions (R173, R175) -/

theorem exec_floatQuery_dispatched (h : s.dispatches .floatQuery i d) :
    exec .floatQuery s = .next { s with ulc := s.ulc.answering i d .accepted [] s.flu.snapshot } := by
  show execFloatQuery s = _
  rw [execFloatQuery, ownerTakes_dispatched _ h, h.answered]

theorem exec_unknownInstruction_bad (hin : s.inService = true) (hdisp : s.ulc.dispatched = some ⟨i, .waiting, d⟩)
    (hbad : i.bad = true) :
    exec .unknownInstruction s = .next { s with ulc := s.ulc.answering i d .badField [] [] } := by
  show execUnknownInstruction s = _
  rw [execUnknownInstruction, whenInService_of_inService _ hin, ← answered_dispatched hdisp]
  simp only [State.dispatchedIf, hdisp, hbad, if_true]

end Sys2Proof.Machine

namespace Sys2Proof.Proofs

open Sys2Proof Sys2Proof.Machine

/-- Settles O60: by the table of each instruction, and the changes that its owner makes. -/
theorem monthsTimeHoldoverSweepAndQuery : Obligations.MonthsTimeHoldoverSweepAndQuery := by
  refine ⟨fun calendar i => ⟨rfl, fun hbad => monthsDecision_bad hbad, fun hbad hpresent => ?_,
      fun hbad hnew hgap => ?_, fun hbad hnew hfollow hfull => ?_, fun hbad hnew hfollow hroom => ?_⟩,
    fun s i d => ⟨fun h hcode hinvalid => ?_, fun h hcode hvalid => ?_, fun h hcode => exec_months_refused h hcode,
      fun h hlate => ?_, fun h hin => ?_⟩,
    fun s i d => ⟨fun h => ⟨fun hlong => ?_, fun hin hwrite hclaims => ?_⟩, fun h => ⟨fun hbad => ?_,
      fun hslot hlo hhi hd => ?_, fun hslot hlo hhi hd howed => ?_⟩, exec_floatQuery_dispatched,
      exec_unknownInstruction_bad⟩⟩
  · exact monthsDecision_present hbad hpresent
  · refine (monthsDecision_new hbad hnew).trans (if_pos ?_)
    exact Bool.eq_false_iff.2 fun hfollow => hgap ((monthsFollow_iff _).1 hfollow)
  · refine (monthsDecision_new hbad hnew).trans ((if_neg ?_).trans (if_pos hfull))
    exact ne_of_eq_of_ne ((monthsFollow_iff _).2 hfollow) (by decide)
  · refine (monthsDecision_new hbad hnew).trans ((if_neg ?_).trans (if_neg (Nat.not_lt.2 hroom)))
    exact ne_of_eq_of_ne ((monthsFollow_iff _).2 hfollow) (by decide)
  · have honly := monthsWatched_only s i
    refine ⟨_, exec_months_appends h hcode, ?_, rfl, rfl⟩
    show (s.monthsWatched i).rolloverLook.tfu = _
    rw [rolloverLook_invalid (by rw [honly]; exact hinvalid), honly]
    rfl
  · have honly := monthsWatched_only s i
    have htfu : (s.monthsWatched i).rolloverLook.tfu = { s.tfu with
        calendar := rolled s.tke.minute (s.tfu.calendar ++ carriedMonths i) } := by
      rw [rolloverLook_valid (by rw [honly]; exact hvalid), honly]
      rfl
    refine ⟨_, exec_months_appends h hcode, ?_, ?_, ?_, fun u hu => ?_, rfl, rfl⟩
    · show rolledOver _ _ (s.monthsWatched i).rolloverLook.tfu.calendar
      rw [htfu]
      exact rolledOver_rolled _ _
    · exact (congrArg Tfu.bank htfu :)
    · exact (congrArg Tfu.entries htfu :)
    · subst hu
      exact monthBits_months s i rfl rfl rfl
  · have hlate : maxMinute < i.field 0 4 := hlate
    rw [exec_time_dispatched h, if_pos hlate, h.answered]
  · have honly := timeTaken_only s (i.field 0 4)
    have hin : ¬ maxMinute < i.field 0 4 := Nat.not_lt.2 hin
    rw [exec_time_dispatched h, if_neg hin,
      h.answered_of (t := s.timeTaken (i.field 0 4)) (by rw [honly])]
    refine ⟨_, rfl, ?_, fun hvalid => ?_, fun hvalid hback => ?_,
      (clockTaken_timeTaken s _).congr rfl rfl fun _ hb => hb, rfl, ?_⟩
    · show (s.timeTaken (i.field 0 4)).tke = _
      rw [honly]
      rfl
    · exact has_raiseIf_mono _ _ (has_raiseIf_mono _ _ (has_raiseIf_self _ .clockValid (by rw [hvalid]; rfl)))
    · exact has_raiseIf_mono _ _ (has_raiseIf_self _ .clockBack (by rw [hvalid, decide_eq_true hback]; rfl))
    · rw [honly]
  · rw [exec_holdover_dispatched h, if_pos hlong, h.answered]
  · rw [exec_holdover_dispatched h, if_neg (Nat.not_lt.2 hin), claimRecord_holdover (s := s.claimed) ⟨hwrite, hclaims⟩,
      claimed_eq h, State.setHoldover, raiseIf_raised, raiseIf_raised,
      answered_dispatched (i := i) (d := d) (phase := .claimed) rfl]
    rfl
  · rw [exec_sweep_dispatched h, if_pos, h.answered]
    simp only [slotCount]
    omega
  · rw [exec_sweep_dispatched h, if_neg (by simp only [slotCount]; omega),
      if_pos ((dropsAnswer_dispatched h).trans hd), h.answered]
    rfl
  · subst hd
    have hkind : i.kind = LineKind.sweep.code := by
      obtain ⟨-, -, hkind⟩ := h
      simp only [LineInstr.is, Bool.and_eq_true, decide_eq_true_eq] at hkind
      exact hkind.1
    rw [exec_sweep_dispatched h, if_neg (by simp only [slotCount]; omega),
      if_neg (by rw [dropsAnswer_dispatched h]; exact Bool.false_ne_true),
      answered_dispatched (s := s.mapUlc fun u => u.startSweep (i.field 0 2) (i.field 2 1)) (i := i) (d := false)
        (phase := .waiting) (by rw [mapUlc_ulc, startSweep_eq]; exact h.2.1)]
    show Host.Outcome.next { s with ulc := Ulc.arbitrate ((s.ulc.startSweep _ _).answering _ _ _ _ _) } = _
    rw [arbitrate_sweep_answering (by rw [startSweep_eq]; exact howed) hkind, startSweep_eq]
    rfl

end Sys2Proof.Proofs
end

section
/-! PROOF. The utility's instructions of ADIR (R19 to R24, R124): ENROL, AMEND, RETIRE and KEYROLL; the statement on them. -/

namespace Sys2Proof.Machine

variable {s t : State} {i : LineInstr} {d : Bool} {k : LineKind}

/-! ### The lowest free slot (R19) -/

theorem lowestNotIn_ge (l : List Nat) : ∀ n, n ≤ lowestNotIn n l := by
  induction l with
  | nil => exact fun n => Nat.le_refl n
  | cons m l ih =>
    intro n
    rw [lowestNotIn]
    split
    · exact Nat.le_trans (Nat.le_succ n) (ih (n + 1))
    · exact Nat.le_refl n

/-- Every number below the lowest that a list does not hold is in the list. -/
theorem mem_of_lt_lowestNotIn {m : Nat} (l : List Nat) : ∀ n, n ≤ m → m < lowestNotIn n l → m ∈ l := by
  induction l with
  | nil => exact fun n hge hlt => absurd hlt (Nat.not_lt.2 hge)
  | cons a l ih =>
    intro n hge hlt
    rw [lowestNotIn] at hlt
    split at hlt
    next ha =>
      obtain rfl | hgt := Nat.eq_or_lt_of_le hge
      · exact ha ▸ List.mem_cons_self
      · exact List.mem_cons_of_mem _ (ih (n + 1) hgt hlt)
    next => exact absurd hlt (Nat.not_lt.2 hge)

theorem lowestNotIn_le (l : List Nat) : ∀ n, lowestNotIn n l ≤ n + l.length := by
  induction l with
  | nil => exact fun n => Nat.le_refl n
  | cons a l ih =>
    intro n
    rw [lowestNotIn, List.length_cons]
    split
    · have := ih (n + 1)
      omega
    · omega

theorem tableGet_none_iff (t : List (Nat × MeterRecord)) (slot : Nat) :
    tableGet t slot = none ↔ slot ∉ t.map Prod.fst := by
  rw [tableGet, Option.map_eq_none_iff, List.find?_eq_none]
  simp only [decide_eq_true_eq, List.mem_map, not_exists, not_and]

/-- With no removal under way, the slot of a new record is the lowest that the table does not hold. -/
theorem lowestFree_spec {table : List (Nat × MeterRecord)} (hok : tableOk table = true)
    (hroom : table.length < 16384) :
    lowestNotIn 0 (table.map Prod.fst) < 16384 ∧ tableGet table (lowestNotIn 0 (table.map Prod.fst)) = none ∧
      ∀ n, n < lowestNotIn 0 (table.map Prod.fst) → tableGet table n ≠ none := by
  have hrising : (table.map Prod.fst).Pairwise (· < ·) := by
    simp only [tableOk, Bool.and_eq_true, decide_eq_true_eq] at hok
    exact hok.1.1
  refine ⟨?_, ?_, fun n hn hnone => ?_⟩
  · have := lowestNotIn_le (table.map Prod.fst) 0
    rw [List.length_map] at this
    omega
  · exact (tableGet_none_iff _ _).2 (lowestNotIn_not_mem _ 0 hrising fun m _ => Nat.zero_le m)
  · exact (tableGet_none_iff _ _).1 hnone (mem_of_lt_lowestNotIn _ 0 (Nat.zero_le n) hn)

theorem enrolRecord_number {minute : Nat} {r : MeterRecord} (h : enrolRecord i minute = some r) :
    r.number = i.field 0 5 := by
  unfold enrolRecord at h
  dsimp only at h
  cases hstatus : statusOfByte (i.field 6 1) with
  | none =>
    rw [hstatus] at h
    cases h
  | some status =>
    rw [hstatus] at h
    obtain ⟨-, hr⟩ := Option.ite_none_right_eq_some.1 h
    rw [← Option.some.inj hr]

/-! ### The decisions on one record (R19 to R22, R124) -/

/-- An instruction decided on a record: ADIR writes, and ULC has the answer. -/
theorem decided_give (h : s.dispatches k i d) (m : Nat) (w : Option (Nat × MeterRecord)) (a : Answer) :
    (s.decided m w).give a =
      { s with adir := (s.decided m w).adir, ulc := s.ulc.answering i d a.code a.echo a.detail } := by
  rw [State.give, h.answered_of (by rw [decided_only]), decided_only]

theorem exec_enrol_dispatched (h : s.dispatches .enrol i d) (hnone : s.noneWaitsFor (i.field 0 5)) :
    exec .enrol s = .next ((s.decided (i.field 0 5)
      (enrolDecision (s.settleMeter (i.field 0 5)).adir i s.tke.now).2).give
        (enrolDecision (s.settleMeter (i.field 0 5)).adir i s.tke.now).1) := by
  show execEnrol s = _
  rw [execEnrol, ownerTakes_dispatched _ h, claimMeter_of_none _ _ hnone]
  rfl

theorem exec_amend_dispatched (h : s.dispatches .amend i d) (hnone : s.noneWaitsFor (i.field 0 5)) :
    exec .amend s = .next ((s.decided (i.field 0 5) (amendDecision s.adir.table i).2).give
      (amendDecision s.adir.table i).1) := by
  show execAmend s = _
  rw [execAmend, ownerTakes_dispatched _ h, claimMeter_of_none _ _ hnone]
  rfl

theorem exec_keyroll_dispatched (h : s.dispatches .keyroll i d) (hnone : s.noneWaitsFor (i.field 0 5)) :
    exec .keyroll s = .next ((s.decided (i.field 0 5) (keyrollDecision s.adir.table i).2).give
      (keyrollDecision s.adir.table i).1) := by
  show execKeyroll s = _
  rw [execKeyroll, ownerTakes_dispatched _ h, claimMeter_of_none _ _ hnone]
  rfl

theorem enrolDecision_bad {a : Adir} {minute : Nat} (h : enrolRecord i minute = none) :
    enrolDecision a i minute = (⟨.badField, slice i.body 0 5, []⟩, none) := by
  simp only [enrolDecision, h]

theorem enrolDecision_exists {a : Adir} {minute : Nat} {r : MeterRecord} {p : Nat × MeterRecord}
    (h : enrolRecord i minute = some r) (hfind : tableFind a.table (i.field 0 5) = some p) :
    enrolDecision a i minute = (⟨.exists_, slice i.body 0 5, []⟩, none) := by
  simp only [enrolDecision, h, enrolRecord_number h, hfind, Option.isSome_some, if_true]

theorem enrolDecision_new {a : Adir} {minute : Nat} {r : MeterRecord} (h : enrolRecord i minute = some r)
    (hfind : tableFind a.table (i.field 0 5) = none) (hroom : lowestNotIn 0 a.occupied < slotCount) :
    enrolDecision a i minute =
      (⟨.accepted, slice i.body 0 5, beBytes 2 (lowestNotIn 0 a.occupied)⟩, some (lowestNotIn 0 a.occupied, r)) := by
  simp only [enrolDecision, h, enrolRecord_number h, hfind, Option.isSome_none, Bool.false_eq_true, if_false,
    if_neg (Nat.not_le.2 hroom)]

theorem amendDecision_bad {table : List (Nat × MeterRecord)} (h : amendChanges i = none) :
    amendDecision table i = (⟨.badField, slice i.body 0 5, []⟩, none) := by
  simp only [amendDecision, h]

theorem amendDecision_absent {table : List (Nat × MeterRecord)} {change : MeterRecord → MeterRecord}
    (h : amendChanges i = some change) (hfind : tableFind table (i.field 0 5) = none) :
    amendDecision table i = (⟨.absent, slice i.body 0 5, []⟩, none) := by
  simp only [amendDecision, h, hfind]

theorem amendDecision_found {table : List (Nat × MeterRecord)} {change : MeterRecord → MeterRecord} {slot : Nat}
    {r : MeterRecord} (h : amendChanges i = some change) (hfind : tableFind table (i.field 0 5) = some (slot, r)) :
    amendDecision table i =
      if r.hold.isSome then (⟨.recordBusy, slice i.body 0 5, []⟩, none)
      else (⟨.accepted, slice i.body 0 5, []⟩, some (slot, change r)) := by
  simp only [amendDecision, h, hfind]

/-- The pending generation of a record, 0 for none. -/
def MeterRecord.pending (r : MeterRecord) : Nat := (r.roll.map KeyRoll.generation).getD 0

theorem keyrollDecision_found {table : List (Nat × MeterRecord)} {slot : Nat} {r : MeterRecord}
    (hm : meterOk (i.field 0 5) = true) (hlo : 1 ≤ i.field 5 1) (hhi : i.field 5 1 ≤ 15)
    (hfind : tableFind table (i.field 0 5) = some (slot, r)) :
    keyrollDecision table i =
      if r.hold.isSome then (⟨.recordBusy, slice i.body 0 5, keyrollDetail r⟩, none)
      else if i.field 5 1 ≤ r.keyGeneration then (⟨.staleGeneration, slice i.body 0 5, keyrollDetail r⟩, none)
      else if i.field 5 1 < r.pending then (⟨.staleGeneration, slice i.body 0 5, keyrollDetail r⟩, none)
      else if i.field 5 1 = r.pending then (⟨.duplicate, slice i.body 0 5, keyrollDetail r⟩, none)
      else (⟨.accepted, slice i.body 0 5, keyrollDetail { r with roll := some ⟨i.field 5 1, keyOf (i.field 6 8)⟩ }⟩,
        some (slot, { r with roll := some ⟨i.field 5 1, keyOf (i.field 6 8)⟩ })) := by
  have hin : ¬ (meterOk (i.field 0 5) = false ∨ i.field 5 1 < 1 ∨ 15 < i.field 5 1) := by
    rw [hm]
    simp only [Bool.true_eq_false, false_or]
    omega
  simp only [keyrollDecision, if_neg hin, hfind]
  rfl

theorem keyrollDecision_accepted {table : List (Nat × MeterRecord)} {slot : Nat} {r : MeterRecord}
    (hm : meterOk (i.field 0 5) = true) (hlo : 1 ≤ i.field 5 1) (hhi : i.field 5 1 ≤ 15)
    (hfind : tableFind table (i.field 0 5) = some (slot, r)) (hheld : r.hold = none)
    (hnew : r.keyGeneration < i.field 5 1) (hlater : r.pending < i.field 5 1) :
    keyrollDecision table i =
      (⟨.accepted, slice i.body 0 5, keyrollDetail { r with roll := some ⟨i.field 5 1, keyOf (i.field 6 8)⟩ }⟩,
        some (slot, { r with roll := some ⟨i.field 5 1, keyOf (i.field 6 8)⟩ })) := by
  rw [keyrollDecision_found hm hlo hhi hfind, if_neg (by rw [hheld]; decide), if_neg (Nat.not_le.2 hnew),
    if_neg (Nat.not_lt.2 (Nat.le_of_lt hlater)), if_neg (Ne.symm (Nat.ne_of_lt hlater))]

/-- A KEYROLL that is refused for its record leaves it, and answers with the generations as they are. -/
theorem keyrollDecision_refused {table : List (Nat × MeterRecord)} {slot : Nat} {r : MeterRecord}
    (hm : meterOk (i.field 0 5) = true) (hlo : 1 ≤ i.field 5 1) (hhi : i.field 5 1 ≤ 15)
    (hfind : tableFind table (i.field 0 5) = some (slot, r))
    (hbad : r.hold ≠ none ∨ i.field 5 1 ≤ r.keyGeneration ∨ i.field 5 1 ≤ r.pending) :
    keyrollDecision table i =
      (⟨if r.hold ≠ none then .recordBusy
        else if i.field 5 1 ≤ r.keyGeneration ∨ i.field 5 1 < r.pending then .staleGeneration else .duplicate,
        slice i.body 0 5, keyrollDetail r⟩, none) := by
  rw [keyrollDecision_found hm hlo hhi hfind]
  by_cases hheld : r.hold = none
  · rw [if_neg (by rw [hheld]; decide), if_neg (not_not.2 hheld)]
    by_cases hstale : i.field 5 1 ≤ r.keyGeneration
    · rw [if_pos hstale, if_pos (Or.inl hstale)]
    · rw [if_neg hstale]
      by_cases hold : i.field 5 1 < r.pending
      · rw [if_pos hold, if_pos (Or.inr hold)]
      · have hequal : i.field 5 1 = r.pending := by
          obtain h | h | h := hbad
          · exact absurd hheld h
          · exact absurd h hstale
          · omega
        rw [if_neg hold, if_pos hequal, if_neg (by omega)]
  · rw [if_pos (Option.isSome_iff_ne_none.2 hheld), if_pos hheld]

/-! ### The contexts of parked requests that a RETIRE answers (R24) -/

/-- A context that has answered: it is REPLYING, or its reply was lost and it is idle. -/
def Ctx.answered (x : Ctx) : Prop := x.state = .replying ∨ x = Ctx.idle

theorem replied_state_replying (x : Ctx) (y : Reply) : (x.replied y).state = .replying := by
  unfold Ctx.replied
  split <;> rfl

theorem told_answered {x : Ctx} (h : x.state = .replying) : x.told.answered := by
  unfold Ctx.told
  split
  · exact Or.inr rfl
  · exact Or.inl h

/-- A lost reply reaches its own context alone, and no park list entry. -/
theorem undelivered_context {u : State} (t : State) (h : Holder) (hvnc : u.vnc = t.vnc) :
    (u.ctxUndelivered h).vnc.park = t.vnc.park ∧
      ∀ j, (u.ctxUndelivered h).ctx j = if j = h then (t.ctx h).told else t.ctx j := by
  refine ⟨(ctxUndelivered_park u h).trans (congrArg Vnc.park hvnc), fun j => ?_⟩
  rw [ctxUndelivered_ctx, ctx_congr hvnc, ctx_congr hvnc]

theorem mapRing_ring_service (t : State) (h : Holder) (sv : Service) :
    ((t.mapRing h fun x => { x with service := some sv }).ring h).service = some sv := by
  cases h with
  | counter c => cases c <;> rfl
  | office => rfl

/-- A reply of a context that fails the window check is lost (R191, R192). -/
theorem failAccess_context {u : State} {h : Holder} {q : Request} {y : Reply} (t : State) (hvnc : u.vnc = t.vnc)
    (hservice : (u.ring h).service = some ⟨q, .replying .context y⟩) :
    (u.failAccess h).vnc.park = t.vnc.park ∧
      ∀ j, (u.failAccess h).ctx j = if j = h then (t.ctx h).told else t.ctx j := by
  have hfail : (u.failAccess h).vnc =
      (State.ctxUndelivered (State.endService ((u.mapRing h fun x =>
        { x with halted := true, fault := true, poll := false }).raise (.ringFault h)) h) h).vnc := by
    simp only [State.failAccess, hservice]
    exact checkStopping_vnc _
  obtain ⟨hpark, hctx⟩ := undelivered_context (u := State.endService ((u.mapRing h fun x =>
    { x with halted := true, fault := true, poll := false }).raise (.ringFault h)) h) t h hvnc
  exact ⟨(congrArg Vnc.park hfail).trans hpark, fun j => (ctx_congr hfail j).trans (hctx j)⟩

/-- A reply handed to RGI leaves the contexts, or tells its own that it was lost. -/
theorem putReply_context (t : State) (h : Holder) (y : Reply) :
    (t.putReply h .context y).vnc.park = t.vnc.park ∧
      ∃ x, (x = t.ctx h ∨ x = (t.ctx h).told) ∧
        ∀ j, (t.putReply h .context y).ctx j = if j = h then x else t.ctx j := by
  have hself : ∀ j, t.ctx j = if j = h then t.ctx h else t.ctx j := fun j => by
    by_cases hj : j = h
    · rw [if_pos hj, hj]
    · rw [if_neg hj]
  unfold State.putReply
  split
  next =>
    obtain ⟨hpark, hctx⟩ := undelivered_context t h rfl
    exact ⟨hpark, _, Or.inr rfl, hctx⟩
  next =>
    split
    next sv _ _ =>
      rw [State.access]
      split
      · exact ⟨rfl, _, Or.inl rfl, hself⟩
      · obtain ⟨hpark, hctx⟩ := failAccess_context (u := t.mapRing h fun x => { x with
          service := some { sv with phase := .replying .context y } }) t rfl (mapRing_ring_service t h _)
        exact ⟨hpark, _, Or.inr rfl, hctx⟩
    next =>
      obtain ⟨hpark, hctx⟩ := undelivered_context (u := t.mapRing h fun x => { x with service := none }) t h rfl
      exact ⟨hpark, _, Or.inr rfl, hctx⟩

theorem ctxReply_replied (s : State) (h : Holder) (y : Reply) :
    s.ctxReply h y =
      if (s.ctx h).attached then (s.mapCtx h fun x => x.replied y).putReply h .context y
      else (s.mapCtx h fun x => x.replied y).ctxUndelivered h := rfl

/-- A context that answers has answered; no other context changes, and no park list entry. -/
theorem ctxReply_context (s : State) (h : Holder) (y : Reply) :
    (s.ctxReply h y).vnc.park = s.vnc.park ∧ ((s.ctxReply h y).ctx h).answered ∧
      ∀ j, j ≠ h → (s.ctxReply h y).ctx j = s.ctx j := by
  have hreplied : (s.mapCtx h fun x => x.replied y).ctx h = (s.ctx h).replied y := by rw [ctx_mapCtx, if_pos rfl]
  have hother : ∀ j, j ≠ h → (s.mapCtx h fun x => x.replied y).ctx j = s.ctx j := fun j hj => by
    rw [ctx_mapCtx, if_neg hj]
  rw [ctxReply_replied]
  split
  · obtain ⟨hpark, x, hx, hctx⟩ := putReply_context (s.mapCtx h fun x => x.replied y) h y
    refine ⟨hpark, ?_, fun j hj => (hctx j).trans ((if_neg hj).trans (hother j hj))⟩
    rw [hctx, if_pos rfl]
    rw [hreplied] at hx
    obtain rfl | rfl := hx
    · exact Or.inl (replied_state_replying _ _)
    · exact told_answered (replied_state_replying _ _)
  · obtain ⟨hpark, hctx⟩ := undelivered_context (s.mapCtx h fun x => x.replied y) h rfl
    refine ⟨hpark, ?_, fun j hj => (hctx j).trans ((if_neg hj).trans (hother j hj))⟩
    rw [hctx, if_pos rfl, hreplied]
    exact told_answered (replied_state_replying _ _)

/-- Every request of a list of park list entries is answered METER_RETIRED, in order. -/
def State.retireEach (s : State) (l : List ParkEntry) : State :=
  l.foldl (fun s e => (s.unpark e.holder).ctxReply e.holder ⟨.meterRetired, []⟩) s

theorem retireParked_each (s : State) (slot : Nat) :
    s.retireParked slot = s.retireEach (s.vnc.park.filter fun e => decide (e.slot = slot)) := rfl

theorem retireEach_cons (s : State) (e : ParkEntry) (l : List ParkEntry) :
    s.retireEach (e :: l) = ((s.unpark e.holder).ctxReply e.holder ⟨.meterRetired, []⟩).retireEach l := rfl

theorem retireEach_adir (l : List ParkEntry) : ∀ s : State, (s.retireEach l).adir = s.adir := by
  induction l with
  | nil => exact fun s => rfl
  | cons e l ih => exact fun s => by rw [retireEach_cons, ih, ctxReply_adir, unpark_adir]

/-- What stays parked was parked, and its holder is none of those answered. -/
theorem retireEach_park (l : List ParkEntry) : ∀ (s : State) (p : ParkEntry), p ∈ (s.retireEach l).vnc.park →
    p ∈ s.vnc.park ∧ ∀ e ∈ l, p.holder ≠ e.holder := by
  induction l with
  | nil => exact fun s p hp => ⟨hp, fun e he => absurd he List.not_mem_nil⟩
  | cons e l ih =>
    intro s p hp
    obtain ⟨hstays, hrest⟩ := ih _ p (retireEach_cons s e l ▸ hp)
    rw [(ctxReply_context _ _ _).1] at hstays
    obtain ⟨hparked, hne⟩ := List.mem_filter.1 hstays
    refine ⟨hparked, fun x hx => ?_⟩
    obtain rfl | hx := List.mem_cons.1 hx
    · exact of_decide_eq_true hne
    · exact hrest x hx

/-- A context that has answered stays so while others answer. -/
theorem retireEach_answered_mono (l : List ParkEntry) : ∀ (s : State) (h : Holder), (s.ctx h).answered →
    ((s.retireEach l).ctx h).answered := by
  induction l with
  | nil => exact fun s h hs => hs
  | cons e l ih =>
    intro s h hs
    refine ih _ h ?_
    obtain ⟨-, hself, hother⟩ := ctxReply_context (s.unpark e.holder) e.holder ⟨.meterRetired, []⟩
    by_cases he : h = e.holder
    · rw [he]
      exact hself
    · rw [hother h he]
      exact hs

/-- Every request of the list has its answer. -/
theorem retireEach_answered (l : List ParkEntry) : ∀ (s : State), ∀ e ∈ l,
    ((s.retireEach l).ctx e.holder).answered := by
  induction l with
  | nil => exact fun s e he => absurd he List.not_mem_nil
  | cons x l ih =>
    intro s e he
    rw [retireEach_cons]
    obtain rfl | he := List.mem_cons.1 he
    · obtain ⟨-, hself, -⟩ := ctxReply_context (s.unpark e.holder) e.holder ⟨.meterRetired, []⟩
      exact retireEach_answered_mono l _ e.holder hself
    · exact ih _ e he

/-! ### RETIRE (R23, R24) -/

/-- The part with a held record marked RETIRING. -/
def State.retiring (s : State) (m slot : Nat) (r : MeterRecord) : State :=
  (s.settleMeter m).putRecord slot { r with status := .retiring }

/-- What a RETIRE does to the record, and to the requests parked for it. -/
def State.retired (s : State) : RetireEffect → State
  | .none => s
  | .remove slot => s.dropRecord slot
  | .retiring slot r => (s.putRecord slot r).retireParked slot

theorem exec_retire_dispatched (h : s.dispatches .retire i d) (hnone : s.noneWaitsFor (i.field 0 5)) {a : Answer}
    {effect : RetireEffect} (hdecision : retireDecision s.adir.table i = (a, effect)) :
    exec .retire s = .next (s.markStores (((s.settleMeter (i.field 0 5)).retired effect).give a)) := by
  have hsettled : retireDecision (s.settleMeter (i.field 0 5)).adir.table i = (a, effect) := hdecision
  show execRetire s = _
  rw [execRetire, ownerTakes_dispatched _ h, claimMeter_of_none _ _ hnone]
  dsimp only
  rw [hsettled]
  cases effect <;> rfl

/-- A RETIRE that answers no parked request changes ADIR alone. -/
theorem markStores_give (h : s.dispatches k i d) {u : State} (hu : u = { s with adir := u.adir }) (a : Answer) :
    s.markStores (u.give a) = { s with adir := u.adir, ulc := s.ulc.answering i d a.code a.echo a.detail } := by
  obtain ⟨A, rfl⟩ : ∃ A, u = { s with adir := A } := ⟨_, hu⟩
  rw [State.give, h.answered_of (t := { s with adir := A }) rfl]
  exact markStores_of_tills _ _ rfl

theorem exec_retire_refused (h : s.dispatches .retire i d) (hnone : s.noneWaitsFor (i.field 0 5)) {a : Answer}
    (hdecision : retireDecision s.adir.table i = (a, .none)) :
    exec .retire s = .next { s with
      adir := (s.settleMeter (i.field 0 5)).adir, ulc := s.ulc.answering i d a.code a.echo a.detail } :=
  (exec_retire_dispatched h hnone hdecision).trans (congrArg _ (markStores_give h rfl a))

theorem exec_retire_removes (h : s.dispatches .retire i d) (hnone : s.noneWaitsFor (i.field 0 5)) {a : Answer}
    {slot : Nat} (hdecision : retireDecision s.adir.table i = (a, .remove slot)) :
    exec .retire s = .next { s with
      adir := ((s.settleMeter (i.field 0 5)).dropRecord slot).adir
      ulc := s.ulc.answering i d a.code a.echo a.detail } :=
  (exec_retire_dispatched h hnone hdecision).trans (congrArg _ (markStores_give h rfl a))

theorem exec_retire_marks (h : s.dispatches .retire i d) (hnone : s.noneWaitsFor (i.field 0 5)) {a : Answer}
    {slot : Nat} {r : MeterRecord}
    (hdecision : retireDecision s.adir.table i = (a, .retiring slot { r with status := .retiring })) :
    exec .retire s = .next (s.markStores
      { (s.retiring (i.field 0 5) slot r).retireParked slot with
        ulc := s.ulc.answering i d a.code a.echo a.detail }) := by
  refine (exec_retire_dispatched h hnone hdecision).trans (congrArg (fun t => Host.Outcome.next (s.markStores t)) ?_)
  exact h.answered_of (t := (s.retiring (i.field 0 5) slot r).retireParked slot) (retireParked_ulc _ _) _ _ _

theorem retireDecision_absent {table : List (Nat × MeterRecord)} (h : tableFind table (i.field 0 5) = none) :
    retireDecision table i = (⟨.absent, slice i.body 0 5, []⟩, .none) := by
  simp only [retireDecision, h]

theorem retireDecision_found {table : List (Nat × MeterRecord)} {slot : Nat} {r : MeterRecord}
    (h : tableFind table (i.field 0 5) = some (slot, r)) :
    retireDecision table i =
      if r.status = .retiring then (⟨.duplicate, slice i.body 0 5, []⟩, .none)
      else if r.hold.isSome then
        (⟨.accepted, slice i.body 0 5, beBytes 1 2⟩, .retiring slot { r with status := .retiring })
      else (⟨.accepted, slice i.body 0 5, beBytes 1 1⟩, .remove slot) := by
  simp only [retireDecision, h]

/-- No request is parked for the slot: none is answered. -/
theorem retireParked_none {slot : Nat} (h : ∀ e ∈ s.vnc.park, e.slot ≠ slot) : s.retireParked slot = s := by
  have hempty : (s.vnc.park.filter fun e => decide (e.slot = slot)) = [] :=
    List.filter_eq_nil_iff.2 fun e he => by simpa using h e he
  rw [retireParked_each, hempty]
  rfl

/-- One request is parked for the slot, and is at its owner: it is answered METER_RETIRED. -/
theorem retireParked_one {slot : Nat} {e : ParkEntry} {q : Request}
    (h : (s.vnc.park.filter fun e => decide (e.slot = slot)) = [e]) (hat : s.atOwner e.holder q) :
    s.retireParked slot = { (s.unpark e.holder).mapCtx e.holder (fun x => x.replied ⟨.meterRetired, []⟩) with
      rgi := s.rgi.replyDue e.holder q .context ⟨.meterRetired, []⟩ } := by
  rw [retireParked_each, h]
  exact ctxReply_atOwner (s.unpark e.holder) e.holder q _ hat

end Sys2Proof.Machine

namespace Sys2Proof.Proofs

open Sys2Proof Sys2Proof.Machine

/-- Settles O55: each instruction by its decision on the one record; a RETIRE of a held record answers the parked requests
one by one. -/
theorem meterInstructions : Obligations.MeterInstructions := by
  refine ⟨fun s i d h hnone => ?_, fun s i d hnone => ⟨fun h => ?_, fun h => ⟨fun hfind => ?_, fun slot r hfind => ?_⟩,
    fun h hmlo hmhi hglo hghi slot r hfind => ?_⟩⟩
  · refine ⟨_, (exec_enrol_dispatched h hnone).trans (congrArg _ (decided_give h _ _ _)), rfl,
      fun rec hrec hfind hwrites hok hroom => ?_, fun rec p hrec hfind => ?_, fun hrec => ?_⟩
    · have hoccupied : (s.settleMeter (i.field 0 5)).adir.occupied = s.adir.table.map Prod.fst := by
        simp [Adir.occupied, Adir.removing, State.settleMeter, hwrites]
      obtain ⟨hslot, hfree, hlow⟩ := lowestFree_spec hok hroom
      rw [← hoccupied] at hslot hfree hlow
      refine ⟨_, hslot, hfree, hlow, ?_, ?_⟩
      · rw [enrolDecision_new (a := (s.settleMeter (i.field 0 5)).adir) hrec hfind hslot]
        rfl
      · rw [enrolDecision_new (a := (s.settleMeter (i.field 0 5)).adir) hrec hfind hslot]
    · rw [enrolDecision_exists (a := (s.settleMeter (i.field 0 5)).adir) hrec hfind]
      exact ⟨rfl, rfl⟩
    · rw [enrolDecision_bad hrec]
      exact ⟨rfl, rfl⟩
  · refine ⟨_, (exec_amend_dispatched h hnone).trans (congrArg _ (decided_give h _ _ _)), rfl, fun hbad => ?_,
      fun change hchange hfind => ?_, fun change slot r hchange hfind => ?_⟩
    · rw [amendDecision_bad hbad]
      exact ⟨rfl, rfl⟩
    · rw [amendDecision_absent hchange hfind]
      exact ⟨rfl, rfl⟩
    · rw [amendDecision_found hchange hfind]
      by_cases hheld : r.hold = none
      · rw [if_neg (by rw [hheld]; decide), if_pos hheld, if_pos hheld]
        exact ⟨rfl, rfl⟩
      · rw [if_pos (Option.isSome_iff_ne_none.2 hheld), if_neg hheld, if_neg hheld]
        exact ⟨rfl, rfl⟩
  · exact ⟨_, exec_retire_refused h hnone (retireDecision_absent hfind), rfl, rfl⟩
  · have hdecision := retireDecision_found hfind
    by_cases hretiring : r.status = .retiring
    · rw [if_pos hretiring] at hdecision
      exact ⟨_, exec_retire_refused h hnone hdecision, fun _ => ⟨rfl, rfl⟩, fun hnot => absurd hretiring hnot,
        fun hnot => absurd hretiring hnot⟩
    · rw [if_neg hretiring] at hdecision
      by_cases hheld : r.hold = none
      · rw [if_neg (by rw [hheld]; decide)] at hdecision
        exact ⟨_, exec_retire_removes h hnone hdecision, fun hnot => absurd hnot hretiring, fun _ _ => ⟨rfl, rfl, rfl⟩,
          fun _ hnot => absurd hheld hnot⟩
      · rw [if_pos (Option.isSome_iff_ne_none.2 hheld)] at hdecision
        refine ⟨_, exec_retire_marks h hnone hdecision, fun hnot => absurd hnot hretiring,
          fun _ hnot => absurd hnot hheld, fun _ _ => ⟨?_, ?_, fun hfree => ?_, fun e he hslot => ?_,
            fun e he hslot => ?_, fun e q hone hat => ?_⟩⟩
        · rw [markStores_adir]
          show ((s.retiring (i.field 0 5) slot r).retireParked slot).adir.table = _
          rw [retireParked_each, retireEach_adir]
          rfl
        · rw [markStores_ulc]
        · rw [retireParked_none (s := s.retiring (i.field 0 5) slot r) hfree]
          have hkept := markStores_of_tills s { s.retiring (i.field 0 5) slot r with
            ulc := s.ulc.answering i d .accepted (slice i.body 0 5) (beBytes 1 2) } rfl
          rw [hkept]
          rfl
        · rw [markStores_vnc] at he
          obtain ⟨hparked, hne⟩ := retireEach_park _ (s.retiring (i.field 0 5) slot r) e he
          exact hne e (List.mem_filter.2 ⟨hparked, decide_eq_true hslot⟩) rfl
        · rw [ctx_congr (markStores_vnc _ _)]
          exact retireEach_answered _ (s.retiring (i.field 0 5) slot r) e (List.mem_filter.2 ⟨he, decide_eq_true hslot⟩)
        · rw [retireParked_one (s := s.retiring (i.field 0 5) slot r) hone hat]
          have hkept := markStores_of_tills s
            { ((s.retiring (i.field 0 5) slot r).unpark e.holder).mapCtx e.holder
                (fun x => x.replied ⟨.meterRetired, []⟩) with
              ulc := s.ulc.answering i d .accepted (slice i.body 0 5) (beBytes 1 2)
              rgi := s.rgi.replyDue e.holder q .context ⟨.meterRetired, []⟩ } rfl
          have hctx := fun j => ctx_mapCtx ((s.retiring (i.field 0 5) slot r).unpark e.holder) e.holder j
            (fun x => x.replied ⟨.meterRetired, []⟩)
          refine ⟨congrArg State.rgi hkept, ?_, fun j hj => ?_, hkept.trans ?_⟩
          · exact (congrArg Ctx.state ((ctx_congr (congrArg State.vnc hkept) _).trans
              ((hctx e.holder).trans (if_pos rfl)))).trans (replied_state_replying _ _)
          · exact (ctx_congr (congrArg State.vnc hkept) _).trans ((hctx j).trans (if_neg hj))
          · rw [markStores_adir, markStores_ulc, markStores_vnc, markStores_rgi]
            rfl
  · have hm := meterOk_of_range hmlo hmhi
    refine ⟨_, (exec_keyroll_dispatched h hnone).trans (congrArg _ (decided_give h _ _ _)), rfl,
      fun hheld hnew hlater => ?_, fun hbad => ?_⟩
    · rw [keyrollDecision_accepted hm hglo hghi hfind hheld hnew hlater]
      exact ⟨rfl, rfl⟩
    · rw [keyrollDecision_refused hm hglo hghi hfind hbad]
      exact ⟨rfl, rfl⟩

end Sys2Proof.Proofs
end

section
/-! PROOF. The meter table by its slots (R1), and the ends of CLEARING and of RECOVERING (R69, R14, R206); the statement on
them. -/

namespace Sys2Proof.Machine

variable {s t : State}

/-! ### The meter table by its slots (R1) -/

theorem tableGet_cons (p : Nat × MeterRecord) (table : List (Nat × MeterRecord)) (slot : Nat) :
    tableGet (p :: table) slot = if p.1 = slot then some p.2 else tableGet table slot := by
  rw [tableGet, List.find?_cons]
  by_cases h : p.1 = slot
  · rw [if_pos h, decide_eq_true h]
    rfl
  · rw [if_neg h, decide_eq_false h]
    rfl

/-- What a slot holds after a write of a slot. -/
theorem tableGet_tableSet (table : List (Nat × MeterRecord)) (slot : Nat) (r : MeterRecord) (n : Nat) :
    tableGet (tableSet table slot r) n = if slot = n then some r else tableGet table n := by
  induction table with
  | nil => exact tableGet_cons (slot, r) [] n
  | cons p rest ih =>
    rw [tableSet]
    split
    · rw [tableGet_cons (slot, r)]
    · split
      next hsame =>
        rw [tableGet_cons, tableGet_cons, ← hsame]
        split <;> rfl
      next hne =>
        rw [tableGet_cons, tableGet_cons, ih]
        by_cases hp : p.1 = n
        · rw [if_pos hp, if_pos hp, if_neg fun h => hne (h.trans hp.symm)]
        · rw [if_neg hp, if_neg hp]

/-- What a slot holds after a slot is freed. -/
theorem tableGet_tableDrop (table : List (Nat × MeterRecord)) (slot n : Nat) :
    tableGet (tableDrop table slot) n = if slot = n then none else tableGet table n := by
  induction table with
  | nil => exact (ite_self _).symm
  | cons p rest ih =>
    by_cases hp : p.1 = slot
    · rw [tableDrop, List.filter_cons_of_neg (by simp [hp]), ← tableDrop, ih, tableGet_cons, hp]
      split <;> rfl
    · rw [tableDrop, List.filter_cons_of_pos (by simp [hp]), ← tableDrop, tableGet_cons, tableGet_cons, ih]
      by_cases hn : p.1 = n
      · rw [if_pos hn, if_pos hn, if_neg fun h => hp (hn.trans h.symm)]
      · rw [if_neg hn, if_neg hn]

/-- A record as the end of the recovery pass leaves it: without a hold, and gone if RETIRING (R14). -/
def MeterRecord.cleared (r : MeterRecord) : Option MeterRecord :=
  if r.status = .retiring then none else some { r with hold := none }

/-- What a slot holds after the holds are cleared. -/
theorem tableGet_clearHolds {table : List (Nat × MeterRecord)} (h : rising table) (slot : Nat) :
    tableGet (clearHolds table) slot = (tableGet table slot).bind MeterRecord.cleared := by
  induction table with
  | nil => rfl
  | cons p rest ih =>
    obtain ⟨hfirst, hrest⟩ := List.pairwise_cons.1 h
    rw [tableGet_cons]
    by_cases hp : p.2.status = .retiring
    · have hclear : clearHolds (p :: rest) = clearHolds rest := by
        rw [clearHolds, List.filter_cons_of_neg (by simp [hp])]
        rfl
      rw [hclear, ih hrest]
      by_cases hn : p.1 = slot
      · have hnone : tableGet rest slot = none := by
          rw [tableGet_none_iff, List.mem_map]
          rintro ⟨q, hq, hslot⟩
          exact absurd (hfirst q hq) (by omega)
        rw [if_pos hn, hnone, Option.bind_some, MeterRecord.cleared, if_pos hp]
        rfl
      · rw [if_neg hn]
    · have hclear : clearHolds (p :: rest) = (p.1, { p.2 with hold := none }) :: clearHolds rest := by
        rw [clearHolds, List.filter_cons_of_pos (by simp [hp])]
        rfl
      rw [hclear, tableGet_cons, ih hrest]
      by_cases hn : p.1 = slot
      · rw [if_pos hn, if_pos hn, Option.bind_some, MeterRecord.cleared, if_neg hp]
      · rw [if_neg hn, if_neg hn]

/-! ### The end of CLEARING (R206) -/

/-- A claim of the pass on a free entry changes nothing. -/
theorem passClaim_free {c : Counter} (h : s.flu.entries.get c = .free) (k : PassClaim) : s.passClaim c k = s := by
  simp only [State.passClaim, h]

theorem recoverEntry_free {c : Counter} (h : s.flu.entries.get c = .free) : State.recoverEntry c s = s := by
  simp only [State.recoverEntry, PassClaim.all, List.foldl_cons, List.foldl_nil, passClaim_free h]

/-- A pass that finds every entry free changes nothing. -/
theorem forCounters_recoverEntry_free (h : ∀ c, s.flu.entries.get c = .free) :
    forCounters State.recoverEntry s = s := by
  unfold forCounters
  induction Counter.all with
  | nil => rfl
  | cons c l ih =>
    rw [List.foldl_cons, recoverEntry_free (h c)]
    exact ih

/-- The start looks of TFU with the clock invalid find nothing due (R36, R40). -/
theorem startTfu_invalid (hvalid : s.tke.clockValid = false) :
    s.startTfu = (State.raiseIf { s with tfu := { s.tfu with before := some s.tfu.store } } s.calendarLow .calendarLow) := by
  have hdue : s.applyDue = false := by
    unfold State.applyDue
    cases s.tfu.bank.arm with
    | none => rfl
    | some a => rw [hvalid]; rfl
  have hlook : s.applyLook = s := if_neg (by rw [hdue]; exact Bool.false_ne_true)
  have hmonth : ∀ (f : Tfu → Tfu), (s.mapTfu f).month = none := fun f =>
    if_neg (by show ¬ s.tke.clockValid = true; rw [hvalid]; exact Bool.false_ne_true)
  rw [State.startTfu, hlook, rolloverLook_invalid hvalid]
  simp only [hmonth, Option.isSome_none]
  rfl

/-- CLEARING ends with every entry free, an empty calendar and an invalid clock. -/
theorem exec_clearEnd_cleared (hheld : s.atc.held = none) (hphase : s.atc.phase = .clearing)
    (hentries : s.flu.entries = PerCounter.fill .free) (hcalendar : s.tfu.calendar = [])
    (hvalid : s.tke.clockValid = false) :
    exec .clearEnd s = .next { s with
      adir := { s.adir with before := some s.adir.table }
      tfu := { s.tfu with before := some s.tfu.store }
      flu := { s.flu with before := some ⟨s.flu.record, s.flu.entries⟩ }
      tlu := { s.tlu with before := some s.tlu.tills }
      atc := { (s.raise .calendarLow).atc with phase := .recovering, mark := .commissioned } } := by
  have hlow : s.calendarLow = true := by rw [State.calendarLow, hcalendar]; rfl
  show execClearEnd s = _
  rw [execClearEnd, if_pos (by rw [hheld, hphase]; rfl), State.enterRecovering,
    startTfu_invalid (by exact hvalid), forCounters_recoverEntry_free]
  · refine congrArg Host.Outcome.next ?_
    show State.beginPass (State.raiseIf _ s.calendarLow .calendarLow) = _
    rw [hlow]
    rfl
  · intro c
    show PerCounter.get (State.flu (State.raiseIf _ _ _)).entries c = _
    rw [raiseIf_flu]
    show s.flu.entries.get c = _
    rw [hentries]
    cases c <;> rfl

/-! ### The end of RECOVERING (R69, R14, R185) -/

/-- The part with the pass over, before its bits are set. -/
def State.passEnded (s : State) : State :=
  { s with
    adir := { s.adir with table := clearHolds s.adir.table, before := none }
    tfu := { s.tfu with before := none }
    flu := { s.flu with nextSerial := s.flu.record.nextSerial, lowWater := s.flu.available, before := none }
    tlu := { s.tlu with before := none } }

/-- The bits of the end of the pass. -/
def State.passBits (s : State) : State :=
  ((s.passEnded.raise .recoveryDone).raiseIf (decide (s.flu.available < s.flu.record.lowMark)) .floatLow).raiseIf
    (decide (s.flu.available = 0)) .floatEmpty

theorem recovered_eq (s : State) :
    s.recovered = { s.passEnded with atc := { s.passBits.atc with phase := .inService } } := by
  show State.mapAtc _ _ = _
  rw [State.endFloatRecovery, State.passBits, raiseIf_raised, raiseIf_raised, raiseIf_raised, raiseIf_raised]
  rfl

theorem has_recovered (s : State) (b : Status) : s.recovered.has b = s.passBits.has b := by
  rw [recovered_eq]
  rfl

/-- What a waiting INIT that the end of the pass takes changes (R185). -/
theorem beginInit_spec (s : State) :
    s.beginInit = { s with rgi := s.beginInit.rgi, atc := s.beginInit.atc } ∧ s.beginInit.atc.phase = s.atc.phase ∧
      (∀ b, s.has b = true → s.beginInit.has b = true) ∧
      (s.rgi.initAddr.toNat + 128 ≤ 4294967296 →
        s.beginInit.rgi = { s.rgi with state := .initialising, bus := [.initBlock] }) := by
  unfold State.beginInit
  split
  next htop => exact ⟨rfl, rfl, fun b hb => has_raise_mono _ hb, fun hin => absurd htop (Nat.not_lt.2 hin)⟩
  next => exact ⟨rfl, rfl, fun b hb => hb, fun _ => rfl⟩

/-- RECOVERY_DONE ends the pass and takes a waiting INIT. -/
theorem exec_recoveryDone_ends (hheld : s.atc.held = none) (hphase : s.atc.phase = .recovering) :
    ∃ t, exec .recoveryDone s = .next t ∧ t = { s.passEnded with rgi := t.rgi, atc := t.atc } ∧
      t.atc.phase = .inService ∧ (∀ b, s.passBits.has b = true → t.has b = true) ∧
      (s.rgi.initWaiting = false → t.rgi = s.rgi) ∧
      (s.rgi.initWaiting = true → s.rgi.initAddr.toNat + 128 ≤ 4294967296 →
        t.rgi = { s.rgi with initWaiting := false, state := .initialising, bus := [.initBlock] }) := by
  have hexec := execRecoveryDone_cases hheld hphase
  have hrecovered := recovered_eq s
  have hhas := has_recovered s
  generalize s.recovered = u at hexec hrecovered hhas
  have hrgi : u.rgi = s.rgi := by rw [hrecovered]; rfl
  have hphase : u.atc.phase = .inService := by rw [hrecovered]
  have honly : u = { s.passEnded with atc := u.atc } := by rw [hrecovered]
  refine ⟨_, hexec, ?_⟩
  rw [hrgi]
  by_cases hwaiting : s.rgi.initWaiting = true
  · rw [if_pos hwaiting]
    obtain ⟨hbegun, hkept, hbits, hbegins⟩ := beginInit_spec (u.mapRgi fun g => { g with initWaiting := false })
    refine ⟨?_, hkept.trans hphase, fun b hb => hbits b ((hhas b).trans hb), fun hnot => ?_, fun _ hin => ?_⟩
    · rw [hbegun, honly]
      rfl
    · rw [hwaiting] at hnot
      cases hnot
    · rw [hbegins (by show u.rgi.initAddr.toNat + 128 ≤ _; rw [hrgi]; exact hin)]
      show ({ u.rgi with initWaiting := false, state := .initialising, bus := [.initBlock] } : Rgi) = _
      rw [hrgi]
  · rw [if_neg hwaiting]
    refine ⟨?_, hphase, fun b hb => (hhas b).trans hb, fun _ => hrgi, fun h => absurd h hwaiting⟩
    rw [honly]

end Sys2Proof.Machine

namespace Sys2Proof.Proofs

open Sys2Proof Sys2Proof.Machine

/-- Settles O14: no entry is left to visit at the end of the clear, and the end of the pass clears the holds. -/
theorem clearingAndRecoveringEnd : Obligations.ClearingAndRecoveringEnd := by
  refine ⟨fun s => exec_clearEnd_cleared, fun s hheld hphase hok => ?_⟩
  obtain ⟨t, hexec, honly, hservice, hbits, hkept, hinit⟩ := exec_recoveryDone_ends hheld hphase
  refine ⟨t, hexec, hservice, fun slot => ?_, ?_, ?_, ?_, ?_, fun hlow => ?_, fun hempty => ?_, hkept, hinit, ?_⟩
  · have hrecord : t.record slot = (s.record slot).bind MeterRecord.cleared := by
      rw [honly]
      exact tableGet_clearHolds hok.rising slot
    rw [hrecord]
    cases s.record slot <;> rfl
  · rw [honly]
    rfl
  · rw [honly]
    rfl
  · rw [honly]
    rfl
  · exact hbits _ (has_raiseIf_mono _ _ (has_raiseIf_mono _ _ (has_raise_self _ _)))
  · exact hbits _ (has_raiseIf_mono _ _ (has_raiseIf_self _ .floatLow (decide_eq_true hlow)))
  · exact hbits _ (has_raiseIf_self _ .floatEmpty (decide_eq_true hempty))
  · rw [honly]
    rfl

end Sys2Proof.Proofs
end

section
/-! PROOF. The recovery pass as a function of the store (R67, R68, R70): what one claim, one entry and the whole pass leave of
the records, the float and the tills, and that a pass begun again ends as the first would have. -/

namespace Sys2Proof.Machine

/-- The store records that the recovery pass reads and writes. -/
structure PassStore where
  table : List (Nat × MeterRecord)
  record : FloatRecord
  entries : PerCounter Entry
  tills : PerCounter Till

def State.passStore (s : State) : PassStore := ⟨s.adir.table, s.flu.record, s.flu.entries, s.tlu.tills⟩

/-! ### The parts of a commit, each skipped by its mark (R15, R65, R142) -/

/-- The record part on the meter table. -/
def recordPart (table : List (Nat × MeterRecord)) (c : Counter) (i : Image) : List (Nat × MeterRecord) :=
  match tableGet table i.sale.slot with
  | none => table
  | some r => if r.hasSerial i.serial then table else tableSet table i.sale.slot (r.commit c i)

/-- The float part on FLU's record. -/
def floatPart (r : FloatRecord) (c : Counter) (i : Image) : FloatRecord :=
  if i.serial = r.lastConsumed.get c then r
  else
    { r with
      consumed := r.consumed + i.sale.money, lastConsumed := r.lastConsumed.set c i.serial
      nextSerial := max r.nextSerial (i.serial + 1) }

/-- The till part on a till's record. -/
def tillPart (t : Till) (i : Image) : Till := if t.lastSerial = i.serial then t else t.count i

/-- A till's record after a store-outcome claim (R144). -/
def Till.storing (t : Till) (o : Outcome) : Till :=
  if storesOutcome t.outcome o then { t with outcome := some o } else t

/-- The outcome that the pass stores for a sale abandoned. -/
def Sale.abandoned (sale : Sale) : Outcome := abandonedOutcome sale.tag sale.meter sale.money

theorem commit_hasSerial (r : MeterRecord) (c : Counter) (i : Image) : (r.commit c i).hasSerial i.serial = true := by
  rw [MeterRecord.commit, switchKey_only]
  exact decide_eq_true rfl

section

variable {table : List (Nat × MeterRecord)} {i : Image} {r : MeterRecord}

theorem recordPart_none (h : tableGet table i.sale.slot = none) (c : Counter) : recordPart table c i = table := by
  simp only [recordPart, h]

theorem recordPart_skips (h : tableGet table i.sale.slot = some r) (hdone : r.hasSerial i.serial = true)
    (c : Counter) : recordPart table c i = table := by
  simp only [recordPart, h, hdone, if_true]

theorem recordPart_writes (h : tableGet table i.sale.slot = some r) (hnew : r.hasSerial i.serial = false)
    (c : Counter) : recordPart table c i = tableSet table i.sale.slot (r.commit c i) := by
  simp only [recordPart, h, hnew, Bool.false_eq_true, if_false]

end

@[simp] theorem recordPart_done (table : List (Nat × MeterRecord)) (c : Counter) (i : Image) :
    recordPart (recordPart table c i) c i = recordPart table c i := by
  cases h : tableGet table i.sale.slot with
  | none => rw [recordPart_none h, recordPart_none h]
  | some r =>
    cases hdone : r.hasSerial i.serial with
    | true => rw [recordPart_skips h hdone, recordPart_skips h hdone]
    | false =>
      rw [recordPart_writes h hdone]
      exact recordPart_skips ((tableGet_tableSet _ _ _ _).trans (if_pos rfl)) (commit_hasSerial r c i) c

@[simp] theorem floatPart_done (r : FloatRecord) (c : Counter) (i : Image) :
    floatPart (floatPart r c i) c i = floatPart r c i := by
  by_cases h : i.serial = r.lastConsumed.get c
  · have hsame : floatPart r c i = r := if_pos h
    rw [hsame, hsame]
  · refine if_pos ?_
    rw [floatPart, if_neg h]
    exact (PerCounter.get_set_self _ c _).symm

@[simp] theorem tillPart_done (t : Till) (i : Image) : tillPart (tillPart t i) i = tillPart t i := by
  by_cases h : t.lastSerial = i.serial
  · have hsame : tillPart t i = t := if_pos h
    rw [hsame, hsame]
  · refine if_pos ?_
    rw [tillPart, if_neg h]
    rfl

@[simp] theorem storing_done (t : Till) (o : Outcome) : (t.storing o).storing o = t.storing o := by
  cases h : storesOutcome t.outcome o with
  | false =>
    have hsame : t.storing o = t := if_neg (by rw [h]; exact Bool.false_ne_true)
    rw [hsame, hsame]
  | true =>
    have hset : t.storing o = { t with outcome := some o } := if_pos h
    rw [hset, Till.storing]
    split <;> rfl

/-- The till part does not look at the outcome. -/
@[simp] theorem tillPart_storing (t : Till) (i : Image) :
    tillPart ((tillPart t i).storing i.outcome) i = (tillPart t i).storing i.outcome := by
  refine if_pos ?_
  have hserial : (tillPart t i).lastSerial = i.serial := by
    rw [tillPart]
    split
    next h => exact h
    next => rfl
  rw [Till.storing]
  split <;> exact hserial

/-! ### One claim of the pass -/

/-- One claim on the store records (R67, R68). -/
def PassStore.claim (x : PassStore) (c : Counter) (k : PassClaim) : PassStore :=
  match x.entries.get c, k with
  | .free, _ => x
  | .issuing sale, .outcome => { x with tills := x.tills.set c ((x.tills.get c).storing sale.abandoned) }
  | .sealed i, .record => { x with table := recordPart x.table c i }
  | .sealed i, .float => { x with record := floatPart x.record c i }
  | .sealed i, .till => { x with tills := x.tills.set c (tillPart (x.tills.get c) i) }
  | .sealed i, .outcome => { x with tills := x.tills.set c ((x.tills.get c).storing i.outcome) }
  | _, .free => { x with entries := x.entries.set c .free }
  | .issuing _, _ => x

/-- What a claim of the pass leaves of the part: it moves the store records it writes, the tills' writes under way and the
status bits of VEND and TILL (R70). -/
structure State.passes (s t : State) : Prop where
  only : t = { s with
    adir := { s.adir with table := t.adir.table }
    flu := { s.flu with record := t.flu.record, entries := t.flu.entries }
    tlu := t.tlu, atc := { s.atc with status := t.atc.status } }
  lines : t.tlu.lines = s.tlu.lines
  tillsBefore : t.tlu.before = s.tlu.before
  quiet : s.tlu.part = PerCounter.fill none ∧ s.tlu.closing = PerCounter.fill none ∧
      s.tlu.removing = PerCounter.fill none ∧ s.tlu.storing = PerCounter.fill none →
    t.tlu.part = PerCounter.fill none ∧ t.tlu.closing = PerCounter.fill none ∧
      t.tlu.removing = PerCounter.fill none ∧ t.tlu.storing = PerCounter.fill none
  other : ∀ b : Status, b.block ≠ .vend → b.block ≠ .till → t.has b = s.has b
  mono : ∀ b : Status, s.has b = true → t.has b = true

variable {s t u : State}

theorem State.passes.refl (s : State) : s.passes s := ⟨rfl, rfl, rfl, id, fun _ _ _ => rfl, fun _ h => h⟩

theorem State.passes.trans (h : s.passes t) (k : t.passes u) : s.passes u where
  only := by
    rw [k.only, h.only]
  lines := k.lines.trans h.lines
  tillsBefore := k.tillsBefore.trans h.tillsBefore
  quiet := fun hq => k.quiet (h.quiet hq)
  other := fun b hv ht => (k.other b hv ht).trans (h.other b hv ht)
  mono := fun b hb => k.mono b (h.mono b hb)

/-- A change of the store records that sets no bit. -/
theorem passes_of_store (honly : t = { s with
      adir := { s.adir with table := t.adir.table }
      flu := { s.flu with record := t.flu.record, entries := t.flu.entries }
      tlu := { s.tlu with tills := t.tlu.tills } }) : s.passes t := by
  rw [honly]
  exact ⟨rfl, rfl, rfl, id, fun _ _ _ => rfl, fun _ h => h⟩

theorem passes_raise (s : State) {b : Status} (h : b.block = .vend ∨ b.block = .till) : s.passes (s.raise b) where
  only := rfl
  lines := rfl
  tillsBefore := rfl
  quiet := id
  other := fun d hv ht => by
    rw [has_raise]
    have hne : d.block ≠ b.block := by
      obtain h | h := h <;> rw [h]
      · exact hv
      · exact ht
    rw [decide_eq_false hne, Bool.false_and, Bool.or_false]
  mono := fun d hd => has_raise_mono b hd

theorem passes_raiseIf (s : State) (p : Bool) {b : Status} (h : b.block = .vend ∨ b.block = .till) :
    s.passes (s.raiseIf p b) := by
  cases p with
  | false => exact .refl s
  | true => exact passes_raise s h

theorem raiseIf_status (s : State) (p : Bool) (b : Status) :
    (s.raiseIf p b).atc = { s.atc with status := (s.raiseIf p b).atc.status } := by
  cases p <;> rfl

theorem passes_settleTill (s : State) (c : Counter) : s.passes (s.settleTill c) := by
  have hbits := passes_raiseIf s (s.lateDue c) (b := .lateCount c) (Or.inr rfl)
  rw [settleTill_eq]
  refine ⟨?_, rfl, rfl, fun ⟨hpart, hclosing, hremoving, hstoring⟩ => ⟨?_, ?_, ?_, ?_⟩, hbits.other, hbits.mono⟩
  · exact congrArg (fun a => { s with tlu := s.tlu.settled c, atc := a }) (raiseIf_status s _ _)
  all_goals
    simp only [Tlu.settled, Tlu.outcomeRead, Tlu.stored, hpart, hclosing, hremoving, hstoring]
    cases c <;> rfl

theorem passes_storeOutcome (s : State) (c : Counter) (o : Outcome) : s.passes (s.storeOutcome c o) := by
  cases h : storesOutcome (s.till c).outcome o with
  | false =>
    rw [storeOutcome_of_declines h]
    exact passes_settleTill s c
  | true =>
    rw [storeOutcome_of_stores h]
    exact ((passes_settleTill s c).trans (passes_of_store rfl)).trans (passes_raise _ (Or.inl rfl))

theorem storeOutcome_passStore (s : State) (c : Counter) (o : Outcome) :
    (s.storeOutcome c o).passStore =
      { s.passStore with tills := s.tlu.tills.set c ((s.tlu.tills.get c).storing o) } := by
  cases h : storesOutcome (s.till c).outcome o with
  | false =>
    have hsame : (s.tlu.tills.get c).storing o = s.tlu.tills.get c := if_neg (by
      show ¬ storesOutcome (s.till c).outcome o = true
      rw [h]
      exact Bool.false_ne_true)
    rw [storeOutcome_of_declines h, settleTill_eq, hsame, PerCounter.set_get]
    rfl
  | true =>
    have hset : (s.tlu.tills.get c).storing o = { s.till c with outcome := some o } := if_pos h
    rw [storeOutcome_of_stores h, settleTill_eq, hset]
    rfl

theorem applyRecordPart_eq (s : State) (c : Counter) (i : Image) :
    s.applyRecordPart c i = s.mapAdir fun a => { a with table := recordPart a.table c i } := by
  rw [State.mapAdir]
  cases h : tableGet s.adir.table i.sale.slot with
  | none =>
    have hrecord : s.record i.sale.slot = none := h
    rw [recordPart_none h]
    simp only [State.applyRecordPart, hrecord]
  | some r =>
    have hrecord : s.record i.sale.slot = some r := h
    cases hdone : r.hasSerial i.serial with
    | true =>
      rw [recordPart_skips h hdone]
      simp only [State.applyRecordPart, hrecord, hdone, if_true]
    | false =>
      rw [recordPart_writes h hdone]
      simp only [State.applyRecordPart, hrecord, hdone, Bool.false_eq_true, if_false]
      rfl

theorem recoverFloat_eq {c : Counter} {i : Image} (h : s.flu.entries.get c = .sealed i) :
    s.recoverFloat c i = s.mapFlu fun f => { f with record := floatPart f.record c i } := by
  have happlied : s.flu.floatApplied c = decide (i.serial = s.flu.record.lastConsumed.get c) := by
    simp only [Flu.floatApplied, Flu.sealedImage, h]
  rw [State.recoverFloat, happlied]
  by_cases hserial : i.serial = s.flu.record.lastConsumed.get c
  · have hsame : floatPart s.flu.record c i = s.flu.record := if_pos hserial
    rw [if_pos (decide_eq_true hserial), State.mapFlu, hsame]
  · rw [if_neg (by simpa using hserial), State.mapFlu, State.mapFlu, floatPart, if_neg hserial]
    rfl

/-- The till part of the pass, with LATE_COUNT for a closed till. -/
theorem recoverTill_eq (s : State) (c : Counter) (i : Image) :
    s.recoverTill c i = (s.mapTill c fun t => tillPart t i).raiseIf
      (decide ((s.till c).lastSerial ≠ i.serial) && decide ((s.till c).state = .closed)) (.lateCount c) := by
  have hmap : (s.mapTill c fun t => tillPart t i) =
      { s with tlu := { s.tlu with tills := s.tlu.tills.set c (tillPart (s.till c) i) } } := rfl
  by_cases h : (s.till c).lastSerial = i.serial
  · have hsame : tillPart (s.till c) i = s.tlu.tills.get c := if_pos h
    rw [State.recoverTill, if_pos h, decide_eq_false (not_not.2 h), Bool.false_and, hmap, hsame, PerCounter.set_get]
    rfl
  · have hcount : tillPart (s.till c) i = (s.till c).count i := if_neg h
    rw [State.recoverTill, if_neg h, decide_eq_true h, Bool.true_and, hmap, hcount]
    rfl

/-- A claim of the pass changes what a claim of the pass may. -/
theorem passes_passClaim (s : State) (c : Counter) (k : PassClaim) : s.passes (s.passClaim c k) := by
  unfold State.passClaim
  split
  · exact .refl s
  · exact passes_storeOutcome s c _
  · rw [applyRecordPart_eq]
    exact passes_of_store rfl
  next i hentry =>
    rw [recoverFloat_eq hentry]
    exact passes_of_store rfl
  · rw [recoverTill_eq]
    exact (passes_of_store rfl).trans (passes_raiseIf _ _ (Or.inr rfl))
  · exact passes_storeOutcome s c _
  · exact passes_of_store rfl
  · exact .refl s

/-- A claim of the pass, on the store records. -/
theorem passStore_passClaim (s : State) (c : Counter) (k : PassClaim) :
    (s.passClaim c k).passStore = s.passStore.claim c k := by
  have hentries : s.passStore.entries.get c = s.flu.entries.get c := rfl
  cases hentry : s.flu.entries.get c with
  | free => simp only [State.passClaim, PassStore.claim, hentries, hentry]
  | issuing sale =>
    cases k with
    | outcome =>
      simp only [State.passClaim, PassStore.claim, hentries, hentry]
      exact storeOutcome_passStore s c _
    | record | float | till => simp only [State.passClaim, PassStore.claim, hentries, hentry]
    | free =>
      simp only [State.passClaim, PassStore.claim, hentries, hentry]
      rfl
  | sealed i =>
    cases k with
    | record =>
      simp only [State.passClaim, PassStore.claim, hentries, hentry, applyRecordPart_eq]
      rfl
    | float =>
      simp only [State.passClaim, PassStore.claim, hentries, hentry, recoverFloat_eq hentry]
      rfl
    | till =>
      simp only [State.passClaim, PassStore.claim, hentries, hentry, recoverTill_eq]
      rw [raiseIf_raised]
      rfl
    | outcome =>
      simp only [State.passClaim, PassStore.claim, hentries, hentry]
      exact storeOutcome_passStore s c _
    | free =>
      simp only [State.passClaim, PassStore.claim, hentries, hentry]
      rfl

/-! ### One entry of the pass -/

/-- What the visit of an entry leaves of its till (R67, R68). -/
@[simp] def Entry.tillAfter : Entry → Till → Till
  | .free, t => t
  | .issuing sale, t => t.storing sale.abandoned
  | .sealed i, t => (tillPart t i).storing i.outcome

/-- What the visit of an entry leaves of FLU's record. -/
@[simp] def Entry.recordAfter (c : Counter) : Entry → FloatRecord → FloatRecord
  | .sealed i, r => floatPart r c i
  | _, r => r

/-- What the visit of an entry leaves of the meter table. -/
@[simp] def Entry.tableAfter (c : Counter) : Entry → List (Nat × MeterRecord) → List (Nat × MeterRecord)
  | .sealed i, table => recordPart table c i
  | _, table => table

/-- The visit of one entry, on the store records. -/
def PassStore.visit (x : PassStore) (c : Counter) : PassStore :=
  ⟨(x.entries.get c).tableAfter c x.table, (x.entries.get c).recordAfter c x.record, x.entries.set c .free,
    x.tills.set c ((x.entries.get c).tillAfter (x.tills.get c))⟩

variable {x : PassStore} {c : Counter}

theorem visit_free (h : x.entries.get c = .free) : x.visit c = x := by
  obtain ⟨table, record, entries, tills⟩ := x
  simp only [PassStore.visit, h, Entry.tillAfter, PerCounter.set_get]
  have hset : entries.set c .free = entries := by
    rw [← show entries.get c = .free from h, PerCounter.set_get]
  rw [hset]
  rfl

theorem claim_free (h : x.entries.get c = .free) (k : PassClaim) : x.claim c k = x := by
  simp only [PassStore.claim, h]

/-- The claims of one entry make its visit. -/
theorem claims_visit (x : PassStore) (c : Counter) : PassClaim.all.foldl (fun x k => x.claim c k) x = x.visit c := by
  cases h : x.entries.get c with
  | free =>
    rw [visit_free h]
    simp only [PassClaim.all, List.foldl_cons, List.foldl_nil, claim_free h]
  | issuing sale => simp [PassClaim.all, PassStore.claim, PassStore.visit, h]
  | sealed i => simp [PassClaim.all, PassStore.claim, PassStore.visit, h]

/-- The visit of an entry that the pass had begun on ends as the first would have: each part is skipped by its mark. -/
theorem visit_take (x : PassStore) (c : Counter) (n : Nat) :
    ((PassClaim.all.take n).foldl (fun x k => x.claim c k) x).visit c = x.visit c := by
  cases h : x.entries.get c with
  | free =>
    have hsame : ∀ l : List PassClaim, l.foldl (fun x k => x.claim c k) x = x := fun l => by
      induction l with
      | nil => rfl
      | cons k l ih => rw [List.foldl_cons, claim_free h, ih]
    rw [hsame]
  | issuing sale =>
    match n with
    | 0 => rfl
    | 1 | 2 | 3 => simp [PassClaim.all, PassStore.claim, h]
    | 4 | n + 5 => simp [PassClaim.all, PassStore.claim, PassStore.visit, h]
  | sealed i =>
    match n with
    | 0 => rfl
    | 1 | 2 | 3 | 4 | n + 5 => simp [PassClaim.all, PassStore.claim, PassStore.visit, h]

/-! ### The whole pass -/

/-- The visits of some entries, in order. -/
def PassStore.visits (x : PassStore) (l : List Counter) : PassStore := l.foldl PassStore.visit x

theorem visits_cons (x : PassStore) (c : Counter) (l : List Counter) : x.visits (c :: l) = (x.visit c).visits l := rfl

theorem visit_entries (x : PassStore) (c d : Counter) :
    (x.visit c).entries.get d = if d = c then .free else x.entries.get d := PerCounter.get_set _ _ _ _

theorem visit_tills (x : PassStore) (c d : Counter) :
    (x.visit c).tills.get d = if d = c then (x.entries.get c).tillAfter (x.tills.get c) else x.tills.get d :=
  PerCounter.get_set _ _ _ _

theorem visits_entries (l : List Counter) : ∀ (x : PassStore) (d : Counter),
    (x.visits l).entries.get d = if d ∈ l then .free else x.entries.get d := by
  induction l with
  | nil => exact fun x d => (if_neg List.not_mem_nil).symm
  | cons c l ih =>
    intro x d
    rw [visits_cons, ih, visit_entries]
    by_cases hl : d ∈ l
    · rw [if_pos hl, if_pos (List.mem_cons_of_mem c hl)]
    · by_cases hc : d = c
      · rw [if_neg hl, if_pos hc, if_pos (hc ▸ List.mem_cons_self)]
      · rw [if_neg hl, if_neg hc, if_neg (by simp [hc, hl])]

/-- Each visited till is as its entry leaves it. -/
theorem visits_tills {l : List Counter} (h : l.Nodup) : ∀ (x : PassStore) (d : Counter),
    (x.visits l).tills.get d =
      if d ∈ l then (x.entries.get d).tillAfter (x.tills.get d) else x.tills.get d := by
  induction l with
  | nil => exact fun x d => (if_neg List.not_mem_nil).symm
  | cons c l ih =>
    obtain ⟨hnot, hrest⟩ := List.nodup_cons.1 h
    intro x d
    rw [visits_cons, ih hrest, visit_entries, visit_tills]
    by_cases hl : d ∈ l
    · have hne : d ≠ c := fun heq => hnot (heq ▸ hl)
      rw [if_pos hl, if_neg hne, if_neg hne, if_pos (List.mem_cons_of_mem c hl)]
    · by_cases hc : d = c
      · rw [if_neg hl, if_pos hc, if_pos (hc ▸ List.mem_cons_self), hc]
      · rw [if_neg hl, if_neg hc, if_neg (by simp [hc, hl])]

/-- A fold over counters other than one sees only their own entries. -/
theorem foldl_entries_visit {α : Type} (f : Entry → Counter → α → α) (x : PassStore) {c : Counter} {l : List Counter}
    (hnot : c ∉ l) (a : α) :
    l.foldl (fun a d => f ((x.visit c).entries.get d) d a) a = l.foldl (fun a d => f (x.entries.get d) d a) a := by
  refine List.foldl_ext _ _ a fun b d hd => ?_
  rw [visit_entries, if_neg fun heq : d = c => hnot (heq ▸ hd)]

theorem visits_table {l : List Counter} (h : l.Nodup) : ∀ x : PassStore,
    (x.visits l).table = l.foldl (fun table c => (x.entries.get c).tableAfter c table) x.table := by
  induction l with
  | nil => exact fun x => rfl
  | cons c l ih =>
    obtain ⟨hnot, hrest⟩ := List.nodup_cons.1 h
    intro x
    rw [visits_cons, ih hrest, foldl_entries_visit (fun e d table => e.tableAfter d table) x hnot]
    rfl

theorem visits_record {l : List Counter} (h : l.Nodup) : ∀ x : PassStore,
    (x.visits l).record = l.foldl (fun r c => (x.entries.get c).recordAfter c r) x.record := by
  induction l with
  | nil => exact fun x => rfl
  | cons c l ih =>
    obtain ⟨hnot, hrest⟩ := List.nodup_cons.1 h
    intro x
    rw [visits_cons, ih hrest, foldl_entries_visit (fun e d r => e.recordAfter d r) x hnot]
    rfl

theorem visits_free {x : PassStore} (h : ∀ c, x.entries.get c = .free) (l : List Counter) : x.visits l = x := by
  induction l with
  | nil => rfl
  | cons c l ih => rw [visits_cons, visit_free (h c), ih]

/-- The claims of the pass on some entries, in order. -/
def claimsOf (l : List Counter) : List (Counter × PassClaim) := l.flatMap fun c => PassClaim.all.map fun k => (c, k)

/-- Some claims of the pass. -/
def PassStore.claims (x : PassStore) (l : List (Counter × PassClaim)) : PassStore :=
  l.foldl (fun x p => x.claim p.1 p.2) x

theorem claims_of_counter (x : PassStore) (c : Counter) (l : List PassClaim) :
    x.claims (l.map fun k => (c, k)) = l.foldl (fun x k => x.claim c k) x := List.foldl_map

theorem claims_append (x : PassStore) (l m : List (Counter × PassClaim)) :
    x.claims (l ++ m) = (x.claims l).claims m := List.foldl_append

theorem claims_claimsOf (l : List Counter) : ∀ x : PassStore, x.claims (claimsOf l) = x.visits l := by
  induction l with
  | nil => exact fun x => rfl
  | cons c l ih =>
    intro x
    show x.claims (PassClaim.all.map (fun k => (c, k)) ++ claimsOf l) = _
    rw [claims_append, claims_of_counter, claims_visit, ih]
    rfl

/-- A claim makes no entry other than free. -/
theorem claim_entries_free {x : PassStore} {d : Counter} (h : x.entries.get d = .free) (c : Counter) (k : PassClaim) :
    (x.claim c k).entries.get d = .free := by
  unfold PassStore.claim
  split <;> first | exact h | (rw [PerCounter.get_set]; split <;> [rfl; exact h])

theorem claims_entries_free {d : Counter} (l : List (Counter × PassClaim)) : ∀ {x : PassStore},
    x.entries.get d = .free → (x.claims l).entries.get d = .free := by
  induction l with
  | nil => exact fun h => h
  | cons p l ih => exact fun h => ih (claim_entries_free h p.1 p.2)

/-- A pass begun again after any of its claims ends as the first would have (R70). -/
theorem visits_take (l : List Counter) : ∀ (x : PassStore) (n : Nat),
    (x.claims ((claimsOf l).take n)).visits l = x.visits l := by
  induction l with
  | nil => exact fun x n => by rw [show claimsOf [] = [] from rfl, List.take_nil]; rfl
  | cons c l ih =>
    intro x n
    have htake : (claimsOf (c :: l)).take n =
        (PassClaim.all.take n).map (fun k => (c, k)) ++ (claimsOf l).take (n - 5) := by
      show (PassClaim.all.map (fun k => (c, k)) ++ claimsOf l).take n = _
      rw [List.take_append, List.map_take]
      rfl
    rw [htake, claims_append, claims_of_counter, visits_cons, visits_cons]
    by_cases hn : n ≤ 5
    · rw [show n - 5 = 0 by omega, List.take_zero]
      show (PassStore.visit (List.foldl _ x (PassClaim.all.take n)) c).visits l = _
      rw [visit_take]
    · have hall : PassClaim.all.take n = PassClaim.all := List.take_of_length_le (by show 5 ≤ n; omega)
      have hfree : ((x.visit c).claims ((claimsOf l).take (n - 5))).entries.get c = .free :=
        claims_entries_free _ ((visit_entries x c c).trans (if_pos rfl))
      rw [hall, claims_visit, visit_free hfree, ih]

/-! ### The pass of the part -/

theorem passStore_claims (l : List (Counter × PassClaim)) : ∀ s : State,
    (l.foldl (fun s p => s.passClaim p.1 p.2) s).passStore = s.passStore.claims l := by
  induction l with
  | nil => exact fun s => rfl
  | cons p l ih =>
    intro s
    rw [List.foldl_cons, ih, passStore_passClaim]
    rfl

theorem passes_claims (l : List (Counter × PassClaim)) : ∀ s : State,
    s.passes (l.foldl (fun s p => s.passClaim p.1 p.2) s) := by
  induction l with
  | nil => exact fun s => .refl s
  | cons p l ih => exact fun s => (passes_passClaim s p.1 p.2).trans (ih _)

theorem recoverEntry_claims (c : Counter) (s : State) :
    State.recoverEntry c s = (PassClaim.all.map fun k => (c, k)).foldl (fun s p => s.passClaim p.1 p.2) s :=
  List.foldl_map.symm

theorem passStore_recoverEntry (c : Counter) (s : State) :
    (State.recoverEntry c s).passStore = s.passStore.visit c := by
  rw [recoverEntry_claims, passStore_claims, claims_of_counter, claims_visit]

theorem passes_recoverEntry (c : Counter) (s : State) : s.passes (State.recoverEntry c s) := by
  rw [recoverEntry_claims]
  exact passes_claims _ s

/-- The visits of some entries of the part, in order. -/
def State.visits (s : State) (l : List Counter) : State := l.foldl (fun s c => State.recoverEntry c s) s

theorem forCounters_visits (s : State) : forCounters State.recoverEntry s = s.visits Counter.all := rfl

theorem passStore_visits (l : List Counter) : ∀ s : State, (s.visits l).passStore = s.passStore.visits l := by
  induction l with
  | nil => exact fun s => rfl
  | cons c l ih =>
    intro s
    show ((State.recoverEntry c s).visits l).passStore = _
    rw [ih, passStore_recoverEntry]
    rfl

theorem passes_visits (l : List Counter) : ∀ s : State, s.passes (s.visits l) := by
  induction l with
  | nil => exact fun s => .refl s
  | cons c l ih => exact fun s => (passes_recoverEntry c s).trans (ih _)

end Sys2Proof.Machine
end

section
/-! PROOF. What a cut leaves of the volatile state (R204 to R208), and the statement on it. -/

namespace Sys2Proof.Machine

variable {s t : State}

theorem leaveUp_tke (s : State) :
    s.leaveUp.tke = { s.tke with
      sinceUp := if s.ulc.line = .up then 0 else s.tke.sinceUp
      counting := if s.ulc.line = .up then true else s.tke.counting } := by
  unfold State.leaveUp
  split <;> rfl

theorem leaveUp_lines (s : State) : s.leaveUp.tlu.lines = s.tlu.lines := by
  unfold State.leaveUp
  split <;> rfl

/-- A cut leaves the start phase, the mark and the marks of VBAK. -/
theorem hold_atc (s : State) (b : Bool) :
    (s.hold b).atc = { s.atc with
      status := PerBlock.fill 0, enable := PerBlock.fill 0, summaryEnable := 0, held := some ⟨b⟩ } := by
  have hcut := (cutStore_cutOnly s.leaveUp).atc
  rw [leaveUp_atc] at hcut
  show { s.leaveUp.cutStore.atc with
    status := PerBlock.fill 0, enable := PerBlock.fill 0, summaryEnable := 0, held := some ⟨b⟩ } = _
  rw [hcut]

/-- Held in reset, the part has lost its volatile state. -/
theorem hold_volatileLost (s : State) (b : Bool) : volatileLost s (s.hold b) := by
  refine ⟨rfl, rfl, ?_, ⟨_, hold_point s b, rfl, rfl⟩, hold_ulc s b, fun c => ?_, rfl, rfl, rfl, ?_⟩
  · rw [hold_tke, (cutStore_cutOnly s.leaveUp).tke, leaveUp_tke]
  · have hlines := (cutStore_cutOnly s.leaveUp).lines
    rw [leaveUp_lines] at hlines
    show (s.leaveUp.cutStore.tlu.lines.map fun l => LinePair.reset l.outside).get c = _
    rw [hlines]
    cases c <;> rfl
  · exact attn_of_not_live (live_of_hold s b)

theorem exec_powerLoss_running (h : s.atc.held = none) : exec .powerLoss s = .next (s.hold true).noteVbak := by
  show execPowerLoss s = _
  simp only [execPowerLoss, h]

theorem exec_resetNLow_running (h : s.atc.held = none) : exec .resetNLow s = .next (s.hold false) := by
  show execResetNLow s = _
  rw [execResetNLow, h]
  rfl

end Sys2Proof.Machine

namespace Sys2Proof.Proofs

open Sys2Proof Sys2Proof.Machine

/-- Settles O10: the cut leaves the volatile state wiped and the clock at a point of a row it fell in. -/
theorem aCutHoldsThePartInReset : Obligations.ACutHoldsThePartInReset := by
  refine ⟨fun s => ⟨fun hheld => ⟨⟨_, exec_powerLoss_running hheld, ?_, rfl, ?_, ?_⟩,
    ⟨_, exec_resetNLow_running hheld, hold_volatileLost s false, rfl, ?_⟩⟩, fun hheld => ?_⟩, fun s => ⟨rfl, rfl⟩⟩
  · exact hold_volatileLost s true
  · show (s.hold true).atc.vbakUp = _
    rw [hold_atc]
  · show (s.hold true).atc.mark = _
    rw [hold_atc]
  · rw [hold_atc]
  · show execPowerLoss s = _
    simp only [execPowerLoss, hheld]
    rfl

end Sys2Proof.Proofs
end

section
/-! PROOF. What a start leaves: the cleared store, or the part in RECOVERING after TFU's start looks and the recovery pass
(R36, R40, R42, R69, R205 to R207); the statement on starts. -/

namespace Sys2Proof.Machine

variable {s t u : State}

/-! ### The start looks of TFU (R36, R40, R42) -/

theorem rolloverLook_only (s : State) : s.rolloverLook = { s with tfu := s.rolloverLook.tfu } := by
  unfold State.rolloverLook
  split <;> rfl

/-- The rollover changes the calendar alone of TFU's tables. -/
theorem rolloverLook_tables (s : State) :
    s.rolloverLook.tfu.bank = s.tfu.bank ∧ s.rolloverLook.tfu.entries = s.tfu.entries := by
  unfold State.rolloverLook
  split <;> exact ⟨rfl, rfl⟩

theorem applyLook_only (s : State) :
    s.applyLook = { s with tfu := s.applyLook.tfu, atc := { s.atc with status := s.applyLook.atc.status } } := by
  unfold State.applyLook
  split <;> rfl

/-- The bits that the start looks set on the part's word: `low` for the level, `known` for the month. -/
def Atc.looked (a : Atc) (low known : Bool) : Atc := (a.raised low .calendarLow).raised known .monthChanged

theorem startTfu_eq (s : State) :
    s.startTfu = { s with
      tfu := { s.applyLook.rolloverLook.tfu with before := some s.tfu.store }
      atc := s.applyLook.atc.looked (decide (s.applyLook.rolloverLook.tfu.calendar.length < 3))
        s.applyLook.rolloverLook.month.isSome } := by
  have hlook : s.applyLook.rolloverLook = { s with
      tfu := s.applyLook.rolloverLook.tfu, atc := s.applyLook.atc } := by
    rw [rolloverLook_only, applyLook_only]
  have hmonth : ∀ (x : State) (f : Tfu → Tfu), (f x.tfu).calendar = x.tfu.calendar → (x.mapTfu f).month = x.month :=
    fun x f h => by
      show (if x.tke.clockValid then currentMonth (f x.tfu).calendar x.tke.minute else none) = _
      rw [h]
      rfl
  rw [State.startTfu, raiseIf_raised, raiseIf_raised]
  rw [hmonth s.applyLook.rolloverLook _ rfl]
  generalize s.applyLook.rolloverLook = x at hlook ⊢
  obtain ⟨y, rfl⟩ : ∃ y, x = { s with tfu := y, atc := s.applyLook.atc } := ⟨_, hlook⟩
  rfl

theorem looked_only (a : Atc) (low known : Bool) :
    a.looked low known = { a with status := (a.looked low known).status } := by
  cases low <;> cases known <;> rfl

/-- The start looks change TFU and the status words alone. -/
theorem startTfu_only (s : State) :
    s.startTfu = { s with tfu := s.startTfu.tfu, atc := { s.atc with status := s.startTfu.atc.status } } := by
  have hatc : s.applyLook.atc = { s.atc with status := s.applyLook.atc.status } :=
    congrArg State.atc (applyLook_only s)
  rw [startTfu_eq, looked_only, hatc]

theorem startTfu_entries (s : State) : s.startTfu.tfu.entries = s.tfu.entries := by
  rw [startTfu_eq]
  exact (rolloverLook_tables s.applyLook).2.trans (applyLook_tables s).1

theorem startTfu_bank (s : State) : s.startTfu.tfu.bank = s.applyLook.tfu.bank := by
  rw [startTfu_eq]
  exact (rolloverLook_tables s.applyLook).1

theorem startTfu_calendar_valid (h : s.tke.clockValid = true) :
    s.startTfu.tfu.calendar = rolled s.tke.minute s.tfu.calendar := by
  rw [startTfu_eq, rolloverLook_valid (by rw [applyLook_tke]; exact h)]
  show rolled s.applyLook.tke.minute s.applyLook.tfu.calendar = _
  rw [applyLook_tke, (applyLook_tables s).2]

theorem startTfu_calendar_invalid (h : s.tke.clockValid = false) : s.startTfu.tfu.calendar = s.tfu.calendar := by
  rw [startTfu_eq, rolloverLook_invalid (by rw [applyLook_tke]; exact h)]
  exact (applyLook_tables s).2

/-- With no arm, an invalid clock or an arm of a later minute the apply is not due. -/
theorem applyLook_idle (h : ∀ a, s.tfu.bank.arm = some a → s.tke.clockValid = false ∨ s.tke.minute < a.minute) :
    s.applyLook = s := by
  refine if_neg ?_
  unfold State.applyDue
  cases harm : s.tfu.bank.arm with
  | none => exact Bool.false_ne_true
  | some a =>
    obtain hvalid | hlater := h a harm
    · simp [hvalid]
    · simp [hlater]

/-- A bit at another position is not set. -/
theorem has_raise_other (s : State) {b d : Status} (h : d.block ≠ b.block ∨ d.pos ≠ b.pos) :
    (s.raise b).has d = s.has d := raise_other_bit s b _ _ h

theorem has_raiseIf_other (s : State) (p : Bool) {b d : Status} (h : d.block ≠ b.block ∨ d.pos ≠ b.pos) :
    (s.raiseIf p b).has d = s.has d := by
  cases p with
  | false => rfl
  | true => exact has_raise_other s h

theorem looked_eq (s : State) (low known : Bool) :
    ({ s with atc := s.atc.looked low known } : State) = (s.raiseIf low .calendarLow).raiseIf known .monthChanged := by
  rw [raiseIf_raised, raiseIf_raised]
  rfl

/-- The bits of the part after the start looks. -/
theorem has_startTfu (s : State) (b : Status) :
    s.startTfu.has b = ((s.applyLook.raiseIf (decide (s.applyLook.rolloverLook.tfu.calendar.length < 3))
      .calendarLow).raiseIf s.applyLook.rolloverLook.month.isSome .monthChanged).has b := by
  rw [← looked_eq, startTfu_eq]
  rfl

theorem has_applyLook_other (s : State) {d : Status} (h : d.block ≠ .tariff ∨ d.pos ≠ 1) : s.applyLook.has d = s.has d := by
  unfold State.applyLook
  split
  · exact has_raise_other (s.mapTfu fun t => { t with bank := t.bank.apply }) (b := .applied) h
  · rfl

theorem has_startTfu_applied {a : Arm} (hvalid : s.tke.clockValid = true) (harm : s.tfu.bank.arm = some a)
    (hdue : a.minute ≤ s.tke.minute) : s.startTfu.has .applied = true := by
  rw [has_startTfu, applyLook_due hvalid harm hdue]
  exact has_raiseIf_mono _ _ (has_raiseIf_mono _ _ (has_raise_self _ _))

theorem has_startTfu_calendarLow (h : s.startTfu.tfu.calendar.length < 3) : s.startTfu.has .calendarLow = true := by
  rw [startTfu_eq] at h
  rw [has_startTfu]
  exact has_raiseIf_mono _ _ (has_raiseIf_self _ _ (decide_eq_true h))

theorem has_startTfu_monthChanged (h : s.startTfu.month ≠ none) : s.startTfu.has .monthChanged = true := by
  rw [startTfu_eq] at h
  rw [has_startTfu]
  refine has_raiseIf_self _ _ (Option.isSome_iff_ne_none.2 ?_)
  rw [State.month, rolloverLook_tke, applyLook_tke]
  exact h

/-- The start looks do not set MONTH_LOST (R42). -/
theorem has_startTfu_monthLost (s : State) : s.startTfu.has .monthLost = s.has .monthLost := by
  rw [has_startTfu, has_raiseIf_other _ _ (by decide), has_raiseIf_other _ _ (by decide), has_applyLook_other _ (by decide)]

/-! ### RECOVERING (R69, R205) -/

theorem passStore_table (s : State) : s.passStore.table = s.adir.table := rfl

theorem passStore_record (s : State) : s.passStore.record = s.flu.record := rfl

theorem passStore_entries (s : State) : s.passStore.entries = s.flu.entries := rfl

theorem passStore_tills (s : State) : s.passStore.tills = s.tlu.tills := rfl

/-- The part as the recovery pass finds it: in RECOVERING, after the start looks. -/
def State.recovering (s : State) : State := (s.mapAtc fun a => { a with phase := .recovering }).startTfu

theorem enterRecovering_eq (s : State) : s.enterRecovering = s.recovering.beginPass.visits Counter.all := rfl

theorem enterRecovering_passStore (s : State) :
    s.enterRecovering.passStore = s.recovering.beginPass.passStore.visits Counter.all := by
  rw [enterRecovering_eq, passStore_visits]

theorem enterRecovering_passes (s : State) : s.recovering.beginPass.passes s.enterRecovering := by
  rw [enterRecovering_eq]
  exact passes_visits _ _

theorem enterRecovering_tfu (s : State) : s.enterRecovering.tfu = s.recovering.tfu := by
  rw [(enterRecovering_passes s).only]
  rfl

theorem enterRecovering_atc (s : State) :
    s.enterRecovering.atc = { s.atc with phase := .recovering, status := s.enterRecovering.atc.status } := by
  refine (congrArg State.atc (enterRecovering_passes s).only).trans ?_
  generalize s.enterRecovering.atc.status = words
  show { s.recovering.atc with status := words } = ({ s.atc with phase := .recovering, status := words } : Atc)
  rw [State.recovering, startTfu_only]
  rfl

theorem enterRecovering_free (s : State) (c : Counter) : s.enterRecovering.flu.entries.get c = .free := by
  rw [← passStore_entries, enterRecovering_passStore, visits_entries, if_pos (Counter.mem_all c)]

theorem enterRecovering_vnc (s : State) : s.enterRecovering.vnc = s.vnc := by
  refine (congrArg State.vnc (enterRecovering_passes s).only).trans ?_
  show s.recovering.vnc = _
  rw [State.recovering, startTfu_only]
  rfl

theorem enterRecovering_rgi (s : State) : s.enterRecovering.rgi = s.rgi := by
  refine (congrArg State.rgi (enterRecovering_passes s).only).trans ?_
  show s.recovering.rgi = _
  rw [State.recovering, startTfu_only]
  rfl

theorem recovering_tlu (s : State) : s.recovering.tlu = s.tlu := by
  rw [State.recovering, startTfu_only]
  rfl

theorem enterRecovering_lines (s : State) : s.enterRecovering.tlu.lines = s.tlu.lines := by
  refine (enterRecovering_passes s).lines.trans ?_
  show s.recovering.tlu.lines = _
  rw [recovering_tlu]

theorem has_enterRecovering_mono {b : Status} (h : s.recovering.has b = true) : s.enterRecovering.has b = true :=
  (enterRecovering_passes s).mono b h

theorem has_enterRecovering_other {b : Status} (hvend : b.block ≠ .vend) (htill : b.block ≠ .till) :
    s.enterRecovering.has b = s.recovering.has b := (enterRecovering_passes s).other b hvend htill

/-! ### Starts (R205 to R207) -/

theorem started_eq (s : State) (strap : Bool) :
    s.started strap = { s with
      tke := if s.atc.backupGone then s.tke.lost else s.tke
      atc := { s.atc with
        held := none, backupLost := s.atc.backupGone, clearRun := strap || decide (s.atc.mark = .clearing) } } := by
  unfold State.started
  split <;> rfl

theorem exec_partStart_clears {strap : Bool} (hheld : s.atc.held.isSome = true)
    (hclear : strap = true ∨ s.atc.mark = .clearing) :
    exec (.partStart strap) s = .next { s with
      adir := ⟨[], [], [], none⟩
      tfu := Tfu.cleared
      flu := Flu.cleared
      tke := s.tke.lost
      tlu := { Tlu.cleared with lines := s.tlu.lines }
      ulc := { s.ulc with mode := .normal, holdover := 4320 }
      atc := { s.atc with
        held := none, phase := .clearing, mark := .clearing, clearRun := true, backupLost := s.atc.backupGone } } := by
  have hor : (strap || decide (s.atc.mark = .clearing)) = true := by simpa using hclear
  show execPartStart strap s = _
  rw [execPartStart_cases strap (Option.isSome_iff_ne_none.1 hheld), if_pos hor, started_eq, hor]
  cases s.atc.backupGone <;> rfl

theorem exec_partStart_recovers (hheld : s.atc.held.isSome = true) (hmark : s.atc.mark = .commissioned) :
    exec (.partStart false) s = .next (s.started false).enterRecovering := by
  show execPartStart false s = _
  rw [execPartStart_cases false (Option.isSome_iff_ne_none.1 hheld), if_neg (by rw [hmark]; decide)]

end Sys2Proof.Machine

namespace Sys2Proof.Proofs

open Sys2Proof Sys2Proof.Machine

/-- Settles O12: a start erases the store, or takes TFU's looks and the pass, which leave the other's records. -/
theorem aStartClearsOrRecovers : Obligations.AStartClearsOrRecovers := by
  refine ⟨fun s strap hheld hclear => ⟨_, exec_partStart_clears hheld hclear, rfl, rfl, rfl, fun k n hn => ?_, rfl,
    fun c => ?_, rfl, fun c => ?_, rfl, rfl, rfl, rfl⟩, fun s hheld hmark => ?_⟩
  · cases k <;> exact List.getD_replicate _ hn
  · cases c <;> rfl
  · cases c <;> rfl
  · obtain ⟨w, hw⟩ : ∃ w, w = (s.started false).mapAtc fun a => { a with phase := .recovering } := ⟨_, rfl⟩
    have hrecovering : (s.started false).recovering = w.startTfu := by rw [hw]; rfl
    have htke := enterRecovering_tke (s.started false)
    have htfu := enterRecovering_tfu (s.started false)
    have hwtke : w.tke = (s.started false).tke := by rw [hw]; rfl
    have hwtfu : w.tfu = s.tfu := by rw [hw, started_eq]; rfl
    rw [hrecovering] at htfu
    refine ⟨_, exec_partStart_recovers hheld hmark, ?_, ?_, ?_, ?_, ?_, ?_, ?_, fun a harm hvalid hdue => ⟨?_, ?_⟩,
      fun hnot => ?_, fun hvalid => ?_, fun hvalid => ?_, fun hlow => ?_, fun hmonth => ?_, ?_, enterRecovering_free _,
      ?_, ?_, ?_, ?_⟩
    · rw [enterRecovering_atc, started_eq]
    · rw [enterRecovering_atc]
    · rw [enterRecovering_atc, started_eq]
      show (false || decide (s.atc.mark = .clearing)) = false
      rw [hmark]
      rfl
    · rw [enterRecovering_atc, started_eq]
      exact hmark
    · rw [enterRecovering_atc, started_eq]
      rfl
    · rw [htke, started_tke]
      simp only [Atc.backupGone, Bool.and_eq_true, decide_eq_true_eq, Bool.not_eq_true']
      rfl
    · rw [htfu, startTfu_entries, hwtfu]
    · rw [htke, ← hwtke] at hvalid hdue
      rw [htfu, startTfu_bank, applyLook_due hvalid (by rw [hwtfu]; exact harm) hdue, ← hwtfu]
      rfl
    · rw [htke, ← hwtke] at hvalid hdue
      refine has_enterRecovering_mono ?_
      rw [hrecovering]
      exact has_startTfu_applied hvalid (by rw [hwtfu]; exact harm) hdue
    · rw [htke, ← hwtke] at hnot
      rw [htfu, startTfu_bank, applyLook_idle (by rw [hwtfu]; exact hnot), hwtfu]
    · rw [htke, ← hwtke] at hvalid ⊢
      rw [htfu, startTfu_calendar_valid hvalid, hwtfu]
      exact rolledOver_rolled _ _
    · rw [htke, ← hwtke] at hvalid
      rw [htfu, startTfu_calendar_invalid hvalid, hwtfu]
    · rw [htfu] at hlow
      refine has_enterRecovering_mono ?_
      rw [hrecovering]
      exact has_startTfu_calendarLow hlow
    · have hsame : (s.started false).enterRecovering.month = w.startTfu.month :=
        month_congr (by rw [htke, startTfu_tke, hwtke]) htfu
      rw [hsame] at hmonth
      refine has_enterRecovering_mono ?_
      rw [hrecovering]
      exact has_startTfu_monthChanged hmonth
    · rw [has_enterRecovering_other (by decide) (by decide), hrecovering, has_startTfu_monthLost, hw, started_eq]
      rfl
    · rw [enterRecovering_vnc, started_eq]
    · rw [enterRecovering_ulc, started_ulc]
    · rw [enterRecovering_rgi, started_eq]
    · rw [enterRecovering_lines, started_eq]

end Sys2Proof.Proofs
end

section
/-! PROOF. What the recovery pass leaves of the float's record, of a meter record and of a till, and the bits it sets (R67,
R68). -/

namespace Sys2Proof.Machine

variable {s t u : State}

/-! ### The float's record after a pass (R65, R67) -/

/-- The serial that an entry's visit leaves last consumed, of the one before. -/
def Entry.consumedAfter : Entry → Nat → Nat
  | .sealed i, _ => i.serial
  | _, n => n

/-- The money that an entry's visit consumes, where `n` is the serial last consumed. -/
def Entry.consumes : Entry → Nat → Nat
  | .sealed i, n => if i.serial = n then 0 else i.sale.money
  | _, _ => 0

theorem floatPart_lastConsumed (r : FloatRecord) (c d : Counter) (i : Image) :
    (floatPart r c i).lastConsumed.get d = if d = c then i.serial else r.lastConsumed.get d := by
  unfold floatPart
  split
  next h =>
    split
    next hd => rw [hd, h]
    next => rfl
  next => exact PerCounter.get_set _ _ _ _

theorem recordAfter_lastConsumed (e : Entry) (r : FloatRecord) (c d : Counter) :
    (e.recordAfter c r).lastConsumed.get d =
      if d = c then e.consumedAfter (r.lastConsumed.get d) else r.lastConsumed.get d := by
  cases e with
  | free | issuing => exact (ite_self _).symm
  | sealed i => exact floatPart_lastConsumed r c d i

theorem recordAfter_figures (e : Entry) (r : FloatRecord) (c : Counter) :
    (e.recordAfter c r).consumed = r.consumed + e.consumes (r.lastConsumed.get c) ∧
      (e.recordAfter c r).granted = r.granted ∧ (e.recordAfter c r).recalled = r.recalled := by
  cases e with
  | free | issuing => exact ⟨rfl, rfl, rfl⟩
  | sealed i =>
    simp only [Entry.recordAfter, Entry.consumes, floatPart]
    split <;> exact ⟨rfl, rfl, rfl⟩

/-- The fold of the float parts of some entries. -/
theorem foldl_lastConsumed (e : Counter → Entry) (d : Counter) (l : List Counter) : ∀ r : FloatRecord,
    (l.foldl (fun r c => (e c).recordAfter c r) r).lastConsumed.get d =
      if d ∈ l then (e d).consumedAfter (r.lastConsumed.get d) else r.lastConsumed.get d := by
  have htwice : ∀ n, (e d).consumedAfter ((e d).consumedAfter n) = (e d).consumedAfter n := fun n => by
    cases e d <;> rfl
  induction l with
  | nil => exact fun r => (if_neg List.not_mem_nil).symm
  | cons c l ih =>
    intro r
    rw [List.foldl_cons, ih, recordAfter_lastConsumed]
    by_cases hc : d = c
    · rw [if_pos hc, if_pos (List.mem_cons.2 (.inl hc)), ← hc]
      split
      · exact htwice _
      · rfl
    · rw [if_neg hc]
      simp only [List.mem_cons, hc, false_or]

theorem foldl_figures (e : Counter → Entry) {l : List Counter} (h : l.Nodup) : ∀ r : FloatRecord,
    (l.foldl (fun r c => (e c).recordAfter c r) r).consumed =
        r.consumed + (l.map fun c => (e c).consumes (r.lastConsumed.get c)).sum ∧
      (l.foldl (fun r c => (e c).recordAfter c r) r).granted = r.granted ∧
      (l.foldl (fun r c => (e c).recordAfter c r) r).recalled = r.recalled := by
  induction l with
  | nil => exact fun r => ⟨rfl, rfl, rfl⟩
  | cons c l ih =>
    obtain ⟨hnot, hrest⟩ := List.nodup_cons.1 h
    intro r
    obtain ⟨hconsumed, hgranted, hrecalled⟩ := ih hrest ((e c).recordAfter c r)
    obtain ⟨hone, hgone, hrone⟩ := recordAfter_figures (e c) r c
    have hothers : (l.map fun d => (e d).consumes (((e c).recordAfter c r).lastConsumed.get d)) =
        l.map fun d => (e d).consumes (r.lastConsumed.get d) := List.map_congr_left fun d hd => by
      rw [recordAfter_lastConsumed, if_neg fun heq : d = c => hnot (heq ▸ hd)]
    rw [List.foldl_cons, List.map_cons, List.sum_cons]
    refine ⟨?_, hgranted.trans hgone, hrecalled.trans hrone⟩
    rw [hconsumed, hone, hothers, Nat.add_assoc]

/-! ### A meter record after a pass (R67) -/

/-- An entry with no image of the slot leaves the slot's record. -/
theorem tableAfter_other {e : Entry} {slot : Nat} (h : ∀ i, e = .sealed i → i.sale.slot ≠ slot) (c : Counter)
    (table : List (Nat × MeterRecord)) : tableGet (e.tableAfter c table) slot = tableGet table slot := by
  cases e with
  | free | issuing => rfl
  | sealed i =>
    show tableGet (recordPart table c i) slot = _
    unfold recordPart
    split
    · rfl
    · split
      · rfl
      · rw [tableGet_tableSet, if_neg (h i rfl)]

theorem foldl_tableAfter_other (e : Counter → Entry) {slot : Nat} {l : List Counter}
    (h : ∀ c ∈ l, ∀ i, e c = .sealed i → i.sale.slot ≠ slot) : ∀ table,
    tableGet (l.foldl (fun table c => (e c).tableAfter c table) table) slot = tableGet table slot := by
  induction l with
  | nil => exact fun _ => rfl
  | cons c l ih =>
    intro table
    rw [List.foldl_cons, ih (fun d hd => h d (List.mem_cons_of_mem c hd)), tableAfter_other (h c List.mem_cons_self)]

/-- A record after the record part of an image. -/
def MeterRecord.recorded (r : MeterRecord) (c : Counter) (i : Image) : MeterRecord :=
  if r.copy.map VendCopy.serial = some i.serial then r else r.commit c i

theorem hasSerial_iff (r : MeterRecord) (n : Nat) : r.hasSerial n = true ↔ r.copy.map VendCopy.serial = some n := by
  unfold MeterRecord.hasSerial
  cases r.copy <;> simp

theorem recordPart_slot {table : List (Nat × MeterRecord)} {i : Image} {r : MeterRecord}
    (h : tableGet table i.sale.slot = some r) (c : Counter) :
    tableGet (recordPart table c i) i.sale.slot = some (r.recorded c i) := by
  unfold MeterRecord.recorded
  cases hdone : r.hasSerial i.serial with
  | true => rw [recordPart_skips h hdone, if_pos ((hasSerial_iff r _).1 hdone), h]
  | false =>
    rw [recordPart_writes h hdone, tableGet_tableSet, if_pos rfl, if_neg]
    rw [← hasSerial_iff, hdone]
    exact Bool.false_ne_true

/-- The one entry with an image of the slot makes its record part. -/
theorem foldl_tableAfter_slot (e : Counter → Entry) {c : Counter} {i : Image} {r : MeterRecord} (hentry : e c = .sealed i)
    {l : List Counter} (h : l.Nodup) (hmem : c ∈ l)
    (halone : ∀ d j, d ≠ c → e d = .sealed j → j.sale.slot ≠ i.sale.slot) : ∀ table,
    tableGet table i.sale.slot = some r →
      tableGet (l.foldl (fun table c => (e c).tableAfter c table) table) i.sale.slot = some (r.recorded c i) := by
  induction l with
  | nil => exact absurd hmem List.not_mem_nil
  | cons d l ih =>
    obtain ⟨hnot, hrest⟩ := List.nodup_cons.1 h
    intro table hrecord
    rw [List.foldl_cons]
    by_cases hd : d = c
    · subst hd
      rw [foldl_tableAfter_other e fun d' hd' j => halone d' j fun heq => hnot (heq ▸ hd'), hentry]
      exact recordPart_slot hrecord _
    · have hin : c ∈ l := (List.mem_cons.1 hmem).resolve_left fun heq => hd heq.symm
      refine ih hrest hin _ ?_
      rw [tableAfter_other (halone d · hd), hrecord]

/-! ### The bits of a pass (R67, R68, R142, R144) -/

/-- The part when the visit of an entry begins has the entry and its till as the pass found them; what its visit sets
stays set. -/
theorem visits_reaches {c : Counter} {l : List Counter} (h : l.Nodup) (hmem : c ∈ l) (s : State) :
    ∃ u : State, u.flu.entries.get c = s.flu.entries.get c ∧ u.till c = s.till c ∧
      (State.recoverEntry c u).passes (s.visits l) := by
  obtain ⟨before, after, rfl, hnot⟩ := List.eq_append_cons_of_mem hmem
  have hstore := passStore_visits before s
  refine ⟨s.visits before, ?_, ?_, ?_⟩
  · have hentries := visits_entries before s.passStore c
    rw [← hstore, if_neg hnot] at hentries
    exact hentries
  · have htills := visits_tills (List.Nodup.of_append_left h) s.passStore c
    rw [← hstore, if_neg hnot] at htills
    exact htills
  · have hsplit : s.visits (before ++ c :: after) = (State.recoverEntry c (s.visits before)).visits after :=
      List.foldl_append
    rw [hsplit]
    exact passes_visits after _

/-- A claim that frees no entry leaves the entries. -/
theorem claim_entries {k : PassClaim} (h : k ≠ .free) (x : PassStore) (c : Counter) :
    (x.claim c k).entries = x.entries := by
  unfold PassStore.claim
  split
  case h_7 => exact absurd rfl h
  all_goals rfl

theorem passClaim_entries {k : PassClaim} (h : k ≠ .free) (s : State) (c : Counter) :
    (s.passClaim c k).flu.entries = s.flu.entries := by
  rw [← passStore_entries, passStore_passClaim, claim_entries h]
  rfl

/-- The record and float claims leave the tills. -/
theorem passClaim_tills {k : PassClaim} (h : k = .record ∨ k = .float) (s : State) (c : Counter) :
    (s.passClaim c k).tlu.tills = s.tlu.tills := by
  rw [← passStore_tills, passStore_passClaim]
  obtain rfl | rfl := h
  all_goals
    cases hentry : s.passStore.entries.get c <;> simp only [PassStore.claim, hentry] <;> rfl

theorem has_storeOutcome {c : Counter} {o : Outcome} (h : storesOutcome (s.till c).outcome o = true) :
    (s.storeOutcome c o).has .outcomeStored = true := by
  rw [storeOutcome_of_stores h]
  exact has_raise_self _ _

/-- The part before the claims on a till's outcome. -/
def State.counted (s : State) (c : Counter) : State :=
  ((s.passClaim c .record).passClaim c .float).passClaim c .till

theorem recoverEntry_counted (c : Counter) (s : State) :
    State.recoverEntry c s = ((s.counted c).passClaim c .outcome).passClaim c .free := rfl

theorem counted_entries (s : State) (c : Counter) : (s.counted c).flu.entries = s.flu.entries := by
  rw [State.counted, passClaim_entries (by decide), passClaim_entries (by decide), passClaim_entries (by decide)]

/-- A sale abandoned tells of its outcome where the till holds none. -/
theorem recoverEntry_issuing {c : Counter} {sale : Sale} (hentry : s.flu.entries.get c = .issuing sale)
    (hnone : (s.till c).outcome = none) : (State.recoverEntry c s).has .outcomeStored = true := by
  have hcounted : s.counted c = s := by
    rw [State.counted]
    simp only [State.passClaim, hentry]
  have houtcome : s.passClaim c .outcome = s.storeOutcome c sale.abandoned := by
    simp only [State.passClaim, hentry, Sale.abandoned]
  rw [recoverEntry_counted, hcounted]
  refine (passes_passClaim _ c .free).mono _ ?_
  rw [houtcome]
  exact has_storeOutcome (by rw [hnone]; rfl)

/-- A sale finished tells of its outcome, and of a late count of a closed till. -/
theorem recoverEntry_sealed {c : Counter} {i : Image} (hentry : s.flu.entries.get c = .sealed i) :
    (State.recoverEntry c s).has .outcomeStored = true ∧
      ((s.till c).lastSerial ≠ i.serial → (s.till c).state = .closed →
        (State.recoverEntry c s).has (.lateCount c) = true) := by
  have hfree := passes_passClaim ((s.counted c).passClaim c .outcome) c .free
  have hlast := (counted_entries s c).symm ▸ hentry
  rw [recoverEntry_counted]
  refine ⟨hfree.mono _ ?_, fun hnew hclosed => hfree.mono _ ((passes_passClaim _ c .outcome).mono _ ?_)⟩
  · have houtcome : (s.counted c).passClaim c .outcome = (s.counted c).storeOutcome c i.outcome := by
      simp only [State.passClaim, hlast]
    rw [houtcome]
    exact has_storeOutcome (by rw [storesOutcome]; exact Bool.or_true _)
  · rw [State.counted]
    have hentries : ((s.passClaim c .record).passClaim c .float).flu.entries.get c = .sealed i := by
      rw [passClaim_entries (by decide), passClaim_entries (by decide), hentry]
    have htill : ((s.passClaim c .record).passClaim c .float).till c = s.till c := by
      rw [State.till, passClaim_tills (Or.inr rfl), passClaim_tills (Or.inl rfl)]
      rfl
    generalize (s.passClaim c .record).passClaim c .float = v at hentries htill
    have hclaim : v.passClaim c .till = v.recoverTill c i := by simp only [State.passClaim, hentries]
    rw [hclaim, recoverTill_eq]
    exact has_raiseIf_self _ _ (by rw [htill, decide_eq_true hnew, decide_eq_true hclosed]; rfl)

end Sys2Proof.Machine
end

section
/-! PROOF. A cut of the recovery pass (R14, R70): which of its claims it leaves made, and that a start after it makes the rest;
the statement on the pass. -/

namespace Sys2Proof.Machine

variable {s t u : State}

/-! ### What a cut of the writes under way leaves of what the pass found -/

theorem foldl_fixes {α β : Type} (q : State → β) (f : State → α → State) (h : ∀ t a, q (f t a) = q t) (l : List α) :
    ∀ s : State, q (l.foldl f s) = q s := by
  induction l with
  | nil => exact fun _ => rfl
  | cons a l ih => exact fun s => (ih _).trans (h s a)

theorem forCounters_fixes {β : Type} (q : State → β) (f : Counter → State → State) (h : ∀ c t, q (f c t) = q t)
    (s : State) : q (forCounters f s) = q s := foldl_fixes q _ (fun t c => h c t) _ s

theorem cutWrites_adirBefore (s : State) : s.cutWrites.adir.before = s.adir.before := by
  refine foldl_fixes (fun t => t.adir.before) State.cutWrite (fun t w => ?_) _ s
  unfold State.cutWrite
  split
  · rfl
  · split <;> rfl

theorem cutFloat_fluBefore (s : State) : s.cutFloat.flu.before = s.flu.before := by
  unfold State.cutFloat
  split
  · rfl
  · split
    · exact complete_before _ _
    · rfl

theorem cutStoring_tluBefore (c : Counter) (s : State) : (State.cutStoring c s).tlu.before = s.tlu.before := by
  unfold State.cutStoring
  split
  · rfl
  · split
    · rfl
    · split <;> rfl

theorem cutStores_tluBefore (s : State) : s.cutStores.tlu.before = s.tlu.before := by
  have hfold := forCounters_fixes (fun t => t.tlu.before) State.cutStoring cutStoring_tluBefore s
  unfold State.cutStores
  show (if _ then _ else _ : State).tlu.before = _
  split
  · exact hfold
  · rfl

theorem cutTill_tluBefore (c : Counter) (s : State) : (State.cutTill c s).tlu.before = s.tlu.before := by
  unfold State.cutTill
  dsimp only
  (repeat' split) <;> rfl

/-- The part when a cut meets the pass: the writes under way are cut, and what the pass found is kept. -/
def State.cutBegun (s : State) : State :=
  (forCounters State.cutTill s.cutWrites.cutTfu.cutFloat.cutStores).cutRecord

theorem cutStore_eq (s : State) : s.cutStore = s.cutBegun.cutPass := rfl

theorem cutRecord_tlu (s : State) : s.cutRecord.tlu = s.tlu := by
  unfold State.cutRecord
  split
  · rfl
  · split <;> rfl

theorem cutFloat_tlu (s : State) : s.cutFloat.tlu = s.tlu := by
  unfold State.cutFloat
  split
  · rfl
  · split <;> rfl

theorem cutTfu_tlu (s : State) : s.cutTfu.tlu = s.tlu := by rw [cutTfu_spec]

theorem cutWrites_tlu (s : State) : s.cutWrites.tlu = s.tlu := by rw [cutWrites_spec]

theorem cutBegun_before (s : State) :
    s.cutBegun.adir.before = s.adir.before ∧ s.cutBegun.flu.before = s.flu.before ∧
      s.cutBegun.tlu.before = s.tlu.before := by
  unfold State.cutBegun
  refine ⟨?_, ?_, ?_⟩
  · rw [cutRecord_adir, forCounters_adir _ _ cutTill_adir, cutStores_adir, cutFloat_adir, cutTfu_adir,
      cutWrites_adirBefore]
  · rw [cutRecord_flu, forCounters_flu _ _ cutTill_flu, cutStores_flu, cutFloat_fluBefore, cutTfu_flu, cutWrites_flu]
  · rw [cutRecord_tlu, forCounters_fixes (fun t => t.tlu.before) _ cutTill_tluBefore, cutStores_tluBefore, cutFloat_tlu,
      cutTfu_tlu, cutWrites_tlu]

theorem cutBegun_phase (s : State) : s.cutBegun.atc.phase = s.atc.phase := by
  have hcut := ((((cutWrites_cutOnly s).trans (cutTfu_cutOnly _)).trans (cutFloat_cutOnly _)).trans
    (cutStores_cutOnly _)).trans ((forCounters_cutOnly _ cutTill_cutOnly _).trans (cutRecord_cutOnly _))
  exact (congrArg Atc.phase hcut.atc).trans rfl

/-! ### The cut of the pass itself (R14, R70) -/

/-- From `x` to `y` some records have lost their hold or, if RETIRING, been removed (R14). -/
structure PassStore.holdsCut (x y : PassStore) : Prop where
  record : y.record = x.record
  entries : y.entries = x.entries
  tills : y.tills = x.tills
  table : ∀ slot, tableGet y.table slot = tableGet x.table slot ∨
    ∃ r, tableGet x.table slot = some r ∧ tableGet y.table slot = r.cleared

theorem PassStore.holdsCut.refl (x : PassStore) : x.holdsCut x := ⟨rfl, rfl, rfl, fun _ => .inl rfl⟩

theorem cleared_cleared {r r' : MeterRecord} (h : r.cleared = some r') : r'.cleared = some r' := by
  unfold MeterRecord.cleared at h
  split at h
  · cases h
  next hstatus =>
    obtain rfl := Option.some.inj h
    exact if_neg hstatus

/-- A record cleared twice is as one cleared once. -/
theorem cleared_bind_cleared (r : MeterRecord) : r.cleared.bind MeterRecord.cleared = r.cleared := by
  cases h : r.cleared with
  | none => rfl
  | some r' => exact cleared_cleared h

theorem clearHold_record (s : State) (n slot : Nat) :
    (s.clearHold n).record slot = if n = slot then (s.record n).bind MeterRecord.cleared else s.record slot := by
  cases h : s.record n with
  | none =>
    have hsame : s.clearHold n = s := by simp only [State.clearHold, h]
    rw [hsame]
    split
    next heq => rw [← heq, h]; rfl
    next => rfl
  | some r =>
    simp only [State.clearHold, h, Option.bind_some, MeterRecord.cleared]
    split
    · exact tableGet_tableDrop _ _ _
    · exact tableGet_tableSet _ _ _ _

theorem clearHold_holdsCut {x : PassStore} (h : x.holdsCut s.passStore) (n : Nat) :
    x.holdsCut (s.clearHold n).passStore := by
  have honly : s.clearHold n = { s with adir := (s.clearHold n).adir } := by
    unfold State.clearHold
    split
    · rfl
    · split <;> rfl
  have hrecord : ∀ slot, tableGet (s.clearHold n).passStore.table slot =
      if n = slot then (tableGet s.passStore.table n).bind MeterRecord.cleared
      else tableGet s.passStore.table slot := clearHold_record s n
  refine ⟨?_, ?_, ?_, fun slot => ?_⟩
  · rw [honly]
    exact h.record
  · rw [honly]
    exact h.entries
  · rw [honly]
    exact h.tills
  · rw [hrecord]
    split
    next heq =>
      subst heq
      obtain hkept | ⟨r, hr, hcleared⟩ := h.table n
      · rw [hkept]
        cases hslot : tableGet x.table n with
        | none => exact .inl rfl
        | some r => exact .inr ⟨r, rfl, rfl⟩
      · rw [hcleared]
        exact .inr ⟨r, hr, cleared_bind_cleared r⟩
    next => exact h.table slot

theorem cutHolds_holdsCut (s : State) : s.passStore.holdsCut s.cutHolds.passStore := by
  unfold State.cutHolds
  have hfold : ∀ (x : PassStore) (l : List (Nat × MeterRecord)) (t : State), x.holdsCut t.passStore →
      x.holdsCut (l.foldl (fun t p => if t.freeBit then t.drawn.clearHold p.1 else t.drawn) t).passStore := fun x l => by
    induction l with
    | nil => exact fun t h => h
    | cons p l ih =>
      intro t h
      rw [List.foldl_cons]
      refine ih _ ?_
      split
      · exact clearHold_holdsCut (s := t.drawn) h p.1
      · exact h
  exact hfold _ _ s (.refl _)

/-- From `x`, before the pass, to `y` some claims of the pass are made, and after the last some holds may be cut. -/
def PassStore.cutAfter (x y : PassStore) (n : Nat) : Prop :=
  y = x.claims (passClaims.take n) ∨ n = passClaims.length ∧ (x.claims (passClaims.take n)).holdsCut y

/-- A cut leaves the first of some claims made; when all are, holds may be cut. -/
theorem cutClaims_passStore (l : List (Counter × PassClaim)) : ∀ s : State,
    ∃ n, n ≤ l.length ∧ ((cutClaims l s).passStore = s.passStore.claims (l.take n) ∨
      n = l.length ∧ (s.passStore.claims (l.take n)).holdsCut (cutClaims l s).passStore) := by
  induction l with
  | nil => exact fun s => ⟨0, Nat.le_refl _, .inr ⟨rfl, cutHolds_holdsCut s⟩⟩
  | cons p l ih =>
    intro s
    cases hbit : s.freeBit with
    | false =>
      refine ⟨0, Nat.zero_le _, .inl ?_⟩
      rw [cutClaims, hbit]
      rfl
    | true =>
      obtain ⟨n, hn, hcut⟩ := ih (s.drawn.passClaim p.1 p.2)
      have hnext : cutClaims (p :: l) s = cutClaims l (s.drawn.passClaim p.1 p.2) := by
        rw [cutClaims, hbit]
        rfl
      have hclaims : (s.drawn.passClaim p.1 p.2).passStore.claims (l.take n) =
          s.passStore.claims ((p :: l).take (n + 1)) := by
        rw [passStore_passClaim]
        rfl
      rw [hclaims] at hcut
      rw [hnext]
      exact ⟨n + 1, Nat.succ_le_succ hn, hcut.imp id fun ⟨hlast, hholds⟩ => ⟨congrArg Nat.succ hlast, hholds⟩⟩

/-- What the pass found, which a cut goes back to. -/
theorem unpass_passStore {table : List (Nat × MeterRecord)} {f : FloatStore} {tills : PerCounter Till}
    (htable : s.adir.before = some table) (hfloat : s.flu.before = some f) (htills : s.tlu.before = some tills) :
    s.unpass.passStore = ⟨table, f.record, f.entries, tills⟩ := by
  show PassStore.mk (s.adir.before.getD s.adir.table) ((s.flu.before.map FloatStore.record).getD s.flu.record)
    ((s.flu.before.map FloatStore.entries).getD s.flu.entries) (s.tlu.before.getD s.tlu.tills) = _
  rw [htable, hfloat, htills]
  rfl

theorem wiped_passStore (s : State) (f : Atc → Atc) : (s.wipe.mapAtc f).passStore = s.passStore := rfl

theorem hold_passStore (s : State) (b : Bool) : (s.hold b).passStore = s.leaveUp.cutStore.passStore := by
  rw [State.hold, wiped_passStore]

/-- A cut of the pass leaves the store as some of its claims leave what it found. -/
theorem hold_cutAfter (hphase : s.atc.phase = .recovering) (hadir : s.adir.before.isSome = true)
    (hflu : s.flu.before.isSome = true) (htlu : s.tlu.before.isSome = true) (b : Bool) :
    ∃ n, n ≤ passClaims.length ∧ s.unpass.passStore.cutAfter (s.hold b).passStore n := by
  obtain ⟨table, htable⟩ := Option.isSome_iff_exists.1 hadir
  obtain ⟨f, hf⟩ := Option.isSome_iff_exists.1 hflu
  obtain ⟨tills, htills⟩ := Option.isSome_iff_exists.1 htlu
  obtain ⟨hbtable, hbf, hbtills⟩ := cutBegun_before s.leaveUp
  rw [leaveUp_adir, htable] at hbtable
  rw [leaveUp_flu, hf] at hbf
  rw [leaveUp_tlu, htills] at hbtills
  have hfound : s.leaveUp.cutBegun.unpass.passStore = s.unpass.passStore :=
    (unpass_passStore hbtable hbf hbtills).trans (unpass_passStore htable hf htills).symm
  have hbegun : s.leaveUp.cutBegun.atc.phase = .recovering := by rw [cutBegun_phase, leaveUp_atc, hphase]
  have hpass : s.leaveUp.cutStore = (cutClaims passClaims s.leaveUp.cutBegun.unpass).endPass := by
    rw [cutStore_eq, State.cutPass, if_pos hbegun]
  obtain ⟨n, hn, hcut⟩ := cutClaims_passStore passClaims s.leaveUp.cutBegun.unpass
  rw [hfound] at hcut
  rw [hold_passStore, hpass]
  have hend : ∀ t : State, t.endPass.passStore = t.passStore := fun _ => rfl
  rw [hend]
  exact ⟨n, hn, hcut⟩

/-- The claims of the pass, in order, are those of all entries. -/
theorem passClaims_eq : passClaims = claimsOf Counter.all := rfl

/-- A pass that begins on what a cut of the pass left ends as the pass would have, but for holds cut. -/
theorem visits_of_cutAfter {x y : PassStore} {n : Nat} (h : x.cutAfter y n) :
    (x.visits Counter.all).holdsCut (y.visits Counter.all) := by
  obtain rfl | ⟨rfl, hcut⟩ := h
  · rw [passClaims_eq, visits_take]
    exact .refl _
  · rw [List.take_length, passClaims_eq, claims_claimsOf] at hcut
    have hfree : ∀ c, y.entries.get c = .free := fun c => by
      rw [hcut.entries, visits_entries, if_pos (Counter.mem_all c)]
    rw [visits_free hfree]
    exact hcut

end Sys2Proof.Machine
end

section
/-! PROOF. The recovery pass that a start makes, and a start after a cut of it (R67, R68, R70); the statement on the pass. -/

namespace Sys2Proof.Machine

variable {s t u : State}

/-! ### The pass of a start -/

/-- The part that a start without a clear leaves. -/
def State.restarted (s : State) : State := (s.started false).enterRecovering

theorem recovering_begin (s : State) :
    s.recovering.beginPass.passStore = s.passStore ∧ s.recovering.beginPass.adir.before = some s.adir.table ∧
      s.recovering.beginPass.flu.before = some ⟨s.flu.record, s.flu.entries⟩ ∧
      s.recovering.beginPass.tlu.before = some s.tlu.tills := by
  rw [State.recovering, startTfu_only]
  exact ⟨rfl, rfl, rfl, rfl⟩

theorem started_passStore (s : State) (strap : Bool) : (s.started strap).passStore = s.passStore := by
  rw [started_eq]
  rfl

/-- A start visits every entry. -/
theorem restarted_passStore (s : State) : s.restarted.passStore = s.passStore.visits Counter.all := by
  rw [State.restarted, enterRecovering_passStore, (recovering_begin _).1, started_passStore]

/-- Entering RECOVERING keeps what the pass found (R70). -/
theorem enterRecovering_before (s : State) :
    s.enterRecovering.adir.before = some s.adir.table ∧
      s.enterRecovering.flu.before = some ⟨s.flu.record, s.flu.entries⟩ ∧
      s.enterRecovering.tlu.before = some s.tlu.tills := by
  obtain ⟨-, hadir, hflu, htlu⟩ := recovering_begin s
  have hpass := enterRecovering_passes s
  have honly := hpass.only
  have htills := hpass.tillsBefore
  generalize s.enterRecovering = t at honly htills ⊢
  refine ⟨?_, ?_, htills.trans htlu⟩
  · rw [honly]
    exact hadir
  · rw [honly]
    exact hflu

theorem restarted_atc (s : State) : s.restarted.atc.held = none ∧ s.restarted.atc.phase = .recovering ∧
    s.restarted.atc.mark = s.atc.mark := by
  rw [State.restarted, enterRecovering_atc, started_eq]
  exact ⟨rfl, rfl, rfl⟩

theorem restarted_unpass (s : State) : s.restarted.unpass.passStore = s.passStore := by
  obtain ⟨hadir, hflu, htlu⟩ := enterRecovering_before (s.started false)
  rw [State.restarted, unpass_passStore hadir hflu htlu, started_eq]
  rfl

theorem restarted_entry (s : State) (c : Counter) : s.restarted.flu.entries.get c = .free := by
  rw [State.restarted, enterRecovering_free]

theorem restarted_record (s : State) :
    s.restarted.flu.record = Counter.all.foldl (fun r c => (s.flu.entries.get c).recordAfter c r) s.flu.record := by
  rw [← passStore_record, restarted_passStore, visits_record (by decide)]
  rfl

theorem restarted_slot (s : State) (slot : Nat) :
    s.restarted.record slot =
      tableGet (Counter.all.foldl (fun table c => (s.flu.entries.get c).tableAfter c table) s.adir.table) slot := by
  rw [State.record, ← passStore_table, restarted_passStore, visits_table (by decide)]
  rfl

theorem restarted_till (s : State) (c : Counter) :
    s.restarted.till c = (s.flu.entries.get c).tillAfter (s.till c) := by
  rw [State.till, ← passStore_tills, restarted_passStore, visits_tills (by decide), if_pos (Counter.mem_all c)]
  rfl

theorem restarted_lastConsumed (s : State) (c : Counter) :
    s.restarted.flu.record.lastConsumed.get c =
      (s.flu.entries.get c).consumedAfter (s.flu.record.lastConsumed.get c) := by
  rw [restarted_record, foldl_lastConsumed, if_pos (Counter.mem_all c)]

/-- What the visit of an entry tells stays set to the end of the pass. -/
theorem restarted_reaches (s : State) (c : Counter) :
    ∃ u : State, u.flu.entries.get c = s.flu.entries.get c ∧ u.till c = s.till c ∧
      (State.recoverEntry c u).passes s.restarted := by
  obtain ⟨u, hentry, htill, hpass⟩ :=
    visits_reaches (by decide) (Counter.mem_all c) (s.started false).recovering.beginPass
  obtain ⟨hstore, -, -, -⟩ := recovering_begin (s.started false)
  rw [started_passStore] at hstore
  refine ⟨u, ?_, ?_, ?_⟩
  · rw [hentry, ← passStore_entries, hstore]
    rfl
  · rw [htill, State.till, ← passStore_tills, hstore]
    rfl
  · rw [State.restarted, enterRecovering_eq]
    exact hpass

/-! ### A cut of the pass, and the start after it -/

/-- A cut holds a running part in reset, with the mark as it is. -/
theorem exec_cut_running {cut : Instr} (hcut : cut = .powerLoss ∨ cut = .resetNLow) (hheld : s.atc.held = none)
    (he : exec cut s = .next t) :
    ∃ b, t.passStore = (s.hold b).passStore ∧ t.atc.held.isSome = true ∧ t.atc.mark = s.atc.mark := by
  obtain rfl | rfl := hcut
  · obtain rfl := Host.Outcome.next.inj ((exec_powerLoss_running hheld).symm.trans he)
    refine ⟨true, rfl, rfl, ?_⟩
    show (s.hold true).atc.mark = _
    rw [hold_atc]
  · obtain rfl := Host.Outcome.next.inj ((exec_resetNLow_running hheld).symm.trans he)
    refine ⟨false, rfl, rfl, ?_⟩
    rw [hold_atc]

/-- The pass of a start after a cut of the pass ends as the pass cut would have, but for holds cut. -/
theorem restarted_of_cut {cut : Instr} (hcut : cut = .powerLoss ∨ cut = .resetNLow)
    (he : exec cut s.restarted = .next t) : s.restarted.passStore.holdsCut t.restarted.passStore := by
  obtain ⟨hheld, hphase, -⟩ := restarted_atc s
  obtain ⟨hadir, hflu, htlu⟩ := enterRecovering_before (s.started false)
  obtain ⟨b, hstore, -, -⟩ := exec_cut_running hcut hheld he
  obtain ⟨n, -, hafter⟩ := hold_cutAfter hphase (by rw [State.restarted, hadir]; rfl) (by rw [State.restarted, hflu]; rfl)
    (by rw [State.restarted, htlu]; rfl) b
  rw [restarted_unpass, ← hstore] at hafter
  rw [restarted_passStore, restarted_passStore]
  exact visits_of_cutAfter hafter

/-- The end of the pass clears the holds that a cut had cleared, and the others. -/
theorem recoveryDone_of_holdsCut (h : s.passStore.holdsCut t.passStore)
    (hs : s.atc.held = none ∧ s.atc.phase = .recovering) (ht : t.atc.held = none ∧ t.atc.phase = .recovering)
    (hsok : s.adir.ok) (htok : t.adir.ok) :
    ∃ d e, exec .recoveryDone t = .next d ∧ exec .recoveryDone s = .next e ∧
      (∀ slot, d.record slot = e.record slot) ∧ d.flu.record = e.flu.record ∧ d.flu.entries = e.flu.entries ∧
      ∀ k, d.till k = e.till k := by
  obtain ⟨e, hexec, honly, -⟩ := exec_recoveryDone_ends hs.1 hs.2
  obtain ⟨d, hexec', honly', -⟩ := exec_recoveryDone_ends ht.1 ht.2
  refine ⟨d, e, hexec', hexec, fun slot => ?_, ?_, ?_, fun k => ?_⟩
  · have hd : d.record slot = (t.record slot).bind MeterRecord.cleared := by
      rw [honly']
      exact tableGet_clearHolds htok.rising slot
    have he : e.record slot = (s.record slot).bind MeterRecord.cleared := by
      rw [honly]
      exact tableGet_clearHolds hsok.rising slot
    rw [hd, he]
    obtain hsame | ⟨r, hr, hcleared⟩ := h.table slot
    · exact congrArg (Option.bind · MeterRecord.cleared) hsame
    · rw [show t.record slot = r.cleared from hcleared, show s.record slot = some r from hr, Option.bind_some]
      exact cleared_bind_cleared r
  · rw [honly', honly]
    exact h.record
  · rw [honly', honly]
    exact h.entries
  · rw [honly', honly]
    exact congrArg (PerCounter.get · k) h.tills

end Sys2Proof.Machine

namespace Sys2Proof.Proofs

open Sys2Proof Sys2Proof.Machine

/-- Settles O13: each entry's visit is its own, each part is skipped by its mark, and a pass begun again makes the rest. -/
theorem theRecoveryPassVisitsEachEntry : Obligations.TheRecoveryPassVisitsEachEntry := by
  refine ⟨fun s c sale hheld hmark hentry => ⟨s.restarted, exec_partStart_recovers hheld hmark, restarted_entry s c, ?_, ?_,
      fun hnone => ?_⟩,
    fun s c i hheld hmark hentry => ⟨s.restarted, exec_partStart_recovers hheld hmark, restarted_entry s c,
      fun r hr halone => ?_, ?_, ?_, fun hnew hclosed => ?_, ?_⟩,
    fun s hheld hmark => ⟨s.restarted, exec_partStart_recovers hheld hmark, ?_, ?_, ?_, fun c hfree => ?_,
      fun slot hother => ?_⟩,
    fun s a b cut hheld hmark hok hcut ha hb => ?_⟩
  · rw [restarted_till, hentry, Entry.tillAfter, Till.storing]
    cases (s.till c).outcome <;> rfl
  · rw [restarted_lastConsumed, hentry]
    rfl
  · obtain ⟨u, huentry, hutill, hpass⟩ := restarted_reaches s c
    exact hpass.mono _ (recoverEntry_issuing (huentry.trans hentry) (hutill ▸ hnone))
  · rw [restarted_slot]
    exact foldl_tableAfter_slot (fun c => s.flu.entries.get c) hentry (by decide) (Counter.mem_all c) halone _ hr
  · rw [restarted_lastConsumed, hentry]
    rfl
  · rw [restarted_till, hentry, Entry.tillAfter, Till.storing]
    rw [if_pos (by rw [storesOutcome]; exact Bool.or_true _), tillPart]
    rfl
  · obtain ⟨u, huentry, hutill, hpass⟩ := restarted_reaches s c
    exact hpass.mono _ ((recoverEntry_sealed (huentry.trans hentry)).2 (hutill ▸ hnew) (hutill ▸ hclosed))
  · obtain ⟨u, huentry, -, hpass⟩ := restarted_reaches s c
    exact hpass.mono _ (recoverEntry_sealed (huentry.trans hentry)).1
  · rw [restarted_record, (foldl_figures _ (by decide) _).1]
    refine congrArg (fun l : List Nat => s.flu.record.consumed + l.sum) (List.map_congr_left fun c _ => ?_)
    cases s.flu.entries.get c <;> rfl
  · rw [restarted_record, (foldl_figures _ (by decide) _).2.1]
  · rw [restarted_record, (foldl_figures _ (by decide) _).2.2]
  · rw [restarted_till, hfree]
    rfl
  · rw [restarted_slot]
    exact foldl_tableAfter_other (fun c => s.flu.entries.get c) (fun c _ i hi => hother c i hi) _
  · obtain rfl : s.restarted = a := Host.Outcome.next.inj ((exec_partStart_recovers hheld hmark).symm.trans ha)
    obtain ⟨hrun, hphase, hkept⟩ := restarted_atc s
    obtain ⟨-, -, hbheld, hbmark⟩ := exec_cut_running hcut hrun hb
    have hc := exec_partStart_recovers hbheld (hbmark.trans (hkept.trans hmark))
    obtain ⟨hcrun, hcphase, -⟩ := restarted_atc b
    have haok := exec_adirOk hok ha
    obtain ⟨d, e, hd, he, hrest⟩ := recoveryDone_of_holdsCut (restarted_of_cut hcut hb) ⟨hrun, hphase⟩ ⟨hcrun, hcphase⟩ haok
      (exec_adirOk (exec_adirOk haok hb) hc)
    exact ⟨b.restarted, d, e, hc, hd, he, hrest⟩

end Sys2Proof.Proofs
end

section
/-! PROOF. What the pass found of the store, which no command of a part in RECOVERING changes (R70). -/

namespace Sys2Proof.Machine

variable {s t u : State}

/-- From `s` to `t` what the recovery pass found of the store is kept. -/
structure State.sameFound (s t : State) : Prop where
  adir : t.adir.before = s.adir.before
  flu : t.flu.before = s.flu.before
  tlu : t.tlu.before = s.tlu.before

theorem State.sameFound.refl (s : State) : s.sameFound s := ⟨rfl, rfl, rfl⟩

theorem State.sameFound.trans (h : s.sameFound t) (k : t.sameFound u) : s.sameFound u :=
  ⟨k.adir.trans h.adir, k.flu.trans h.flu, k.tlu.trans h.tlu⟩

theorem State.front.sameFound (h : s.front t) : s.sameFound t :=
  ⟨congrArg Adir.before h.adir, congrArg Flu.before h.flu, h.tillsBefore⟩

/-- A change that leaves ADIR, FLU and TLU. -/
theorem sameFound_of_eq (hadir : t.adir = s.adir) (hflu : t.flu = s.flu) (htlu : t.tlu = s.tlu) : s.sameFound t :=
  ⟨congrArg Adir.before hadir, congrArg Flu.before hflu, congrArg Tlu.before htlu⟩

theorem sameFound_ite {p : Prop} [Decidable p] (ht : s.sameFound t) (hu : s.sameFound u) :
    s.sameFound (if p then t else u) := by
  split
  · exact ht
  · exact hu

/-! ### Winding a context back (R102, R114, R115) -/

theorem releaseHold_sameFound (s : State) (h : Holder) : s.sameFound (s.releaseHold h) := by
  unfold State.releaseHold
  split
  · exact .refl s
  · split
    · exact .refl s
    · dsimp only
      split
      · split
        · exact ⟨rfl, rfl, rfl⟩
        · split <;> exact ⟨rfl, rfl, rfl⟩
      · exact .refl s

theorem ctxReply_sameFound (s : State) (h : Holder) (y : Reply) : s.sameFound (s.ctxReply h y) := by
  constructor <;> simp

theorem refuseHeld_sameFound (s : State) (h : Holder) (y : Reply) : s.sameFound (s.refuseHeld h y) :=
  (releaseHold_sameFound s h).trans (ctxReply_sameFound _ h y)

theorem endStopped_sameFound (s : State) (h : Holder) : s.sameFound (s.endStopped h) := refuseHeld_sameFound s h _

theorem windBack_sameFound (s : State) (h : Holder) (m : StopMark) : s.sameFound (s.windBack h m) := by
  unfold State.windBack
  dsimp only
  split
  · exact .refl s
  · split
    · cases h with
      | counter c => exact ⟨rfl, rfl, rfl⟩
      | office =>
        refine State.sameFound.trans ?_ (endStopped_sameFound _ _)
        exact ⟨rfl, rfl, rfl⟩
    · exact ⟨rfl, rfl, rfl⟩

theorem cancelCtx_sameFound (s : State) (h : Holder) : s.sameFound (s.cancelCtx h) := by
  unfold State.cancelCtx
  split
  · exact .refl s
  · refine State.sameFound.trans ?_ (ctxReply_sameFound _ _ _)
    exact ⟨rfl, rfl, rfl⟩
  · exact windBack_sameFound s h _
  · exact ⟨rfl, rfl, rfl⟩

theorem engineNotice_sameFound (s : State) (h : Holder) : s.sameFound (State.engineNotice h s) :=
  sameFound_ite (windBack_sameFound s h _) (.refl s)

theorem abandon_sameFound (s : State) (h : Holder) (w : CtxState) : s.sameFound (s.abandon h w) := by
  cases h with
  | counter c => exact sameFound_ite (cancelCtx_sameFound s _) (.refl s)
  | office =>
    show s.sameFound (s.abandonOffice w)
    unfold State.abandonOffice
    split
    · exact ⟨rfl, rfl, rfl⟩
    · exact ⟨rfl, rfl, rfl⟩
    · exact cancelCtx_sameFound s _

/-! ### Claims on FLU (R52) -/

theorem completeFloat_sameFound (s : State) (k : FloatClaim) : s.sameFound (s.completeFloat k) := by
  refine ⟨by simp [State.completeFloat, watchFloat], ?_, by simp [State.completeFloat, watchFloat]⟩
  rw [← complete_before s.flu k]
  simp [State.completeFloat, watchFloat]

theorem answered_sameFound (s : State) (code : AnswerCode) (echo detail : List Byte) :
    s.sameFound (s.answered code echo detail) := sameFound_of_eq (by simp) (by simp) (by simp)

theorem raise_sameFound (s : State) (b : Status) : s.sameFound (s.raise b) := ⟨rfl, rfl, rfl⟩

theorem tillPartClaim_sameFound (s : State) (c : Counter) : s.sameFound (s.tillPartClaim c) := by
  refine ⟨by simp, ?_, by simp⟩
  have hsettle := settleTill_flu s c
  unfold State.tillPartClaim
  split
  · rfl
  · dsimp only
    generalize s.settleTill c = t at hsettle
    rw [← hsettle]
    split <;> rfl

theorem takeFloat_sameFound (s : State) (k : FloatClaim) : s.sameFound (s.takeFloat k) := by
  have hstart : s.sameFound (s.mapFlu fun f => { f with writing := some k }) := ⟨rfl, rfl, rfl⟩
  match k with
  | .reserve c sale =>
    unfold State.takeFloat
    dsimp only
    split
    · exact hstart
    · exact sameFound_ite (endStopped_sameFound s _) (refuseHeld_sameFound s _ _)
  | .release c =>
    unfold State.takeFloat
    dsimp only
    split
    · exact hstart
    · constructor <;> simp
    · exact endStopped_sameFound s _
  | .seal c tokens =>
    unfold State.takeFloat
    dsimp only
    split
    · exact hstart
    · exact .refl s
  | .floatPart c =>
    unfold State.takeFloat
    dsimp only
    split
    · exact sameFound_ite (tillPartClaim_sameFound s c) hstart
    · exact .refl s
  | .free c => exact sameFound_ite hstart (.refl s)
  | .grant n a =>
    show s.sameFound (s.takeGrant n a)
    unfold State.takeGrant
    split
    · exact ((completeFloat_sameFound s _).trans (raise_sameFound _ _)).trans (answered_sameFound _ _ _ _)
    · exact answered_sameFound s _ _ _
  | .recall n a =>
    show s.sameFound (s.takeRecall n a)
    unfold State.takeRecall
    split
    · exact (completeFloat_sameFound s _).trans (answered_sameFound _ _ _ _)
    · exact answered_sameFound s _ _ _
  | .terms ceiling lowMark vendCap =>
    show s.sameFound (s.takeTerms ceiling lowMark vendCap)
    unfold State.takeTerms
    split
    · exact (completeFloat_sameFound s _).trans (answered_sameFound _ _ _ _)
    · exact answered_sameFound s _ _ _

theorem drainFloat_sameFound (n : Nat) : ∀ s : State, s.sameFound (drainFloat n s) := by
  induction n with
  | zero => exact .refl
  | succ n ih =>
    intro s
    unfold drainFloat
    split
    · refine State.sameFound.trans ?_ (ih _)
      refine State.sameFound.trans ?_ (takeFloat_sameFound _ _)
      exact ⟨rfl, rfl, rfl⟩
    · exact .refl s

theorem pumpFloat_sameFound (s : State) : s.sameFound s.pumpFloat := by
  obtain ⟨n, m, hpump⟩ := pumpFloat_spec s
  rw [hpump]
  exact (drainFloat_sameFound n s).trans ⟨rfl, rfl, rfl⟩

theorem markStores_sameFound (s t : State) : t.sameFound (s.markStores t) :=
  ⟨by simp, by simp, by simp⟩

theorem foldl_sameFound {α : Type} (f : State → α → State) (hf : ∀ (t : State) a, t.sameFound (f t a)) (l : List α) :
    ∀ s : State, s.sameFound (l.foldl f s) := by
  induction l with
  | nil => exact .refl
  | cons a l ih => exact fun s => (hf s a).trans (ih _)

/-! ### The blocks' resets and the window's words -/

theorem mapRgi_sameFound (s : State) (f : Rgi → Rgi) : s.sameFound (s.mapRgi f) := ⟨rfl, rfl, rfl⟩

theorem refuse_sameFound (s : State) : s.sameFound s.refuse := (refuse_front s).sameFound

theorem ringReset_sameFound (s : State) : s.sameFound s.ringReset := by
  unfold State.ringReset
  dsimp only
  refine State.sameFound.trans ?_ (markStores_sameFound s _)
  refine State.sameFound.trans ?_ (pumpFloat_sameFound _)
  refine State.sameFound.trans ?_ (enterStopped_front _).sameFound
  refine State.sameFound.trans ?_ (clearBits_front _ _ _).sameFound
  refine State.sameFound.trans ?_ (mapRgi_sameFound _ _)
  refine State.sameFound.trans ?_ (foldl_sameFound _ (fun t h => abandon_sameFound t h _) _ _)
  refine State.sameFound.trans ?_ (foldl_sameFound _ (fun t h => (detach_front t h).sameFound) _ _)
  refine State.sameFound.trans ?_ (mapRgi_sameFound _ _)
  exact sameFound_of_eq (by simp) (by simp) (by simp)

theorem engineReset_sameFound (s : State) : s.sameFound s.engineReset := by
  unfold State.engineReset
  refine State.sameFound.trans ?_ (markStores_sameFound s _)
  refine State.sameFound.trans ?_ (pumpFloat_sameFound _)
  refine State.sameFound.trans ?_ (foldl_sameFound _ (fun t h => engineNotice_sameFound t h) _ _)
  exact ⟨rfl, rfl, rfl⟩

theorem engineRun_sameFound (s : State) : s.sameFound s.engineRun := sameFound_ite ⟨rfl, rfl, rfl⟩ (.refl s)

theorem linkReset_sameFound (s : State) : s.sameFound s.linkReset := sameFound_of_eq (by simp) (by simp) (by simp)

theorem writeCancel_sameFound (s : State) (v : Word) : s.sameFound (s.writeCancel v) := by
  unfold State.writeCancel
  split
  · exact ((cancelCtx_sameFound s _).trans (pumpFloat_sameFound _)).trans (markStores_sameFound s _)
  · exact refuse_sameFound s

theorem writeLinkEnable_sameFound (s : State) (v : Word) : s.sameFound (s.writeLinkEnable v) := by
  unfold State.writeLinkEnable
  dsimp only
  split
  · split <;> exact sameFound_of_eq (by simp) (by simp) (by simp)
  · split
    · split <;> exact sameFound_of_eq (by simp) (by simp) (by simp)
    · exact refuse_sameFound s

theorem writeBlockControl_sameFound (s : State) (v : Word) : s.sameFound (s.writeBlockControl v) := by
  unfold State.writeBlockControl
  split
  · exact .refl s
  · exact ringReset_sameFound s
  · exact engineReset_sameFound s
  · exact engineRun_sameFound s
  · exact linkReset_sameFound s
  · exact ⟨rfl, rfl, rfl⟩
  · exact refuse_sameFound s

theorem writeWord_sameFound (s : State) (index : Nat) (v : Word) : s.sameFound (s.writeWord index v) := by
  have henable (b : Block) : s.sameFound (s.setEnable b v) := ⟨rfl, rfl, rfl⟩
  have hstatus (b : Block) : s.sameFound (s.writeStatus b v) := (writeStatus_front s b v).sameFound
  unfold State.writeWord
  split
  · exact (writeControl_front s v).sameFound
  · exact hstatus .ring
  · exact sameFound_ite (mapRgi_sameFound s _) (refuse_sameFound s)
  · exact writeCancel_sameFound s v
  · exact writeLinkEnable_sameFound s v
  · exact hstatus .vend
  · exact hstatus .float
  · exact hstatus .tariff
  · exact hstatus .time
  · exact hstatus .till
  · exact hstatus .link
  · exact henable .ring
  · exact henable .vend
  · exact henable .float
  · exact henable .tariff
  · exact henable .time
  · exact henable .till
  · exact henable .link
  · exact ⟨rfl, rfl, rfl⟩
  · exact writeBlockControl_sameFound s v
  · exact refuse_sameFound s

/-! ### The line and the clock -/

/-- The commands of the line and of the clock leave the stores that the pass writes. -/
theorem moveClock_sameFound (s : State) (f : Tke → Tke) : s.sameFound (moveClock f s) := by
  rw [moveClock_only]
  exact ⟨rfl, rfl, rfl⟩

theorem raiseIf_sameFound (s : State) (p : Bool) (b : Status) : s.sameFound (s.raiseIf p b) :=
  sameFound_ite (raise_sameFound s b) (.refl s)

theorem enterDetect_sameFound (s : State) : s.sameFound s.enterDetect := sameFound_of_eq (by simp) (by simp) (by simp)

theorem detectLook_sameFound (s : State) : s.sameFound s.detectLook := sameFound_of_eq (by simp) (by simp) (by simp)

theorem startTx_sameFound (s : State) : s.sameFound s.startTx := sameFound_of_eq (by simp) (by simp) (by simp)

theorem enterSlip_sameFound (s : State) : s.sameFound s.enterSlip := sameFound_of_eq (by simp) (by simp) (by simp)

theorem mapUlc_sameFound (s : State) (f : Ulc → Ulc) : s.sameFound (s.mapUlc f) := ⟨rfl, rfl, rfl⟩

/-! ### A command of a part in RECOVERING -/

theorem whenInService_idle (f : State → State) (h : s.inService = false) : whenInService f s = .next s := by
  rw [whenInService, h]
  rfl

theorem whenLive_sameFound {f : State → State} (he : whenLive f s = .next t) (hf : s.sameFound (f s)) :
    s.sameFound t := by
  rw [← Host.Outcome.next.inj he]
  exact sameFound_ite hf (.refl s)

/-- Before the pass has ended a command that does not move the start phase keeps what the pass found. -/
theorem exec_sameFound {c : Instr} (hc : movesPhase c = false) (hservice : s.inService = false)
    (he : exec c s = .next t) : s.sameFound t := by
  cases hfront : atFront c with
  | true => exact (exec_front hfront he).sameFound
  | false =>
    cases c with
    | vbakLoss | vbakReturn =>
      rw [← Host.Outcome.next.inj he]
      exact ⟨rfl, rfl, rfl⟩
    | windowWrite p v =>
      change execWindowWrite p v s = _ at he
      refine whenLive_sameFound he ?_
      cases p with
      | index => exact mapRgi_sameFound s _
      | data => exact writeWord_sameFound s _ v
      | summary => exact refuse_sameFound s
    | cancel v => exact whenLive_sameFound (f := fun s => _) he (writeCancel_sameFound s v)
    | linkEnable v => exact whenLive_sameFound (f := fun s => _) he (writeLinkEnable_sameFound s v)
    | floatLowwaterRead =>
      rw [← Host.Outcome.next.inj he]
      exact sameFound_ite (.refl s) (sameFound_ite ⟨rfl, rfl, rfl⟩ (mapRgi_sameFound s _))
    | ringReset => exact whenLive_sameFound he (ringReset_sameFound s)
    | engineReset => exact whenLive_sameFound he (engineReset_sameFound s)
    | engineRun => exact whenLive_sameFound he (engineRun_sameFound s)
    | linkReset => exact whenLive_sameFound he (linkReset_sameFound s)
    | clockAdvance =>
      rw [← Host.Outcome.next.inj he]
      split
      · split
        · exact (moveClock_sameFound s _).trans (raiseIf_sameFound _ _ _)
        · exact ⟨rfl, rfl, rfl⟩
      · exact .refl s
    | minutesSinceUpTick =>
      rw [← Host.Outcome.next.inj he]
      refine sameFound_ite ?_ (.refl s)
      refine State.sameFound.trans ?_ (raiseIf_sameFound _ _ _)
      exact ⟨rfl, rfl, rfl⟩
    | rateWindowEnd n =>
      refine whenLive_sameFound (f := fun s => _) he ?_
      refine State.sameFound.trans ?_ (detectLook_sameFound _)
      exact sameFound_ite (mapUlc_sameFound s _) (sameFound_of_eq (by simp) (by simp) (by simp))
    | carrierLoss =>
      rw [← Host.Outcome.next.inj he]
      exact sameFound_ite ((mapUlc_sameFound s _).trans (enterDetect_sameFound _)) (mapUlc_sameFound s _)
    | carrierGain =>
      rw [← Host.Outcome.next.inj he]
      exact sameFound_ite ((mapUlc_sameFound s _).trans (detectLook_sameFound _)) (mapUlc_sameFound s _)
    | parcelReceive l =>
      have hwf : parcelWf l = true := wf_of_next he
      change execParcelReceive l s = _ at he
      rw [execParcelReceive, if_pos hwf] at he
      exact whenLive_sameFound (f := fun s => _) he (sameFound_of_eq (by simp) (by simp) (by simp))
    | serviceModeWritten =>
      refine whenLive_sameFound (f := fun s => _) he ?_
      split
      · exact .refl s
      · exact sameFound_of_eq (by simp) (by simp) (by simp)
    | trainingTimeout | slipTimeout =>
      exact whenLive_sameFound (f := fun s => _) he (sameFound_ite (enterDetect_sameFound s) (.refl s))
    | silenceTimeout =>
      exact whenLive_sameFound (f := fun s => _) he (sameFound_ite (enterSlip_sameFound s) (.refl s))
    | idleParcelSend =>
      refine whenLive_sameFound (f := fun s => _) he ?_
      split
      · exact sameFound_ite (mapUlc_sameFound s _) (.refl s)
      · exact .refl s
    | upwardEntrySent =>
      refine whenLive_sameFound (f := fun s => _) he ?_
      split
      · exact (mapUlc_sameFound s _).trans (startTx_sameFound _)
      · exact .refl s
    | initBlockReadDone b =>
      have hwf : initBlockWf b = true := wf_of_next he
      change execInitBlockReadDone b s = _ at he
      rw [execInitBlockReadDone, if_pos hwf] at he
      rw [← Host.Outcome.next.inj ((whenInService_idle (fun s => _) hservice).symm.trans he)]
      exact .refl s
    | powerLoss | resetNLow | partStart | clearEnd | recoveryDone => cases hc
    | init | start | stop | demand | ringFaultClear | busFaultClear | statusWrite | enableWrite
    | summaryEnableWrite | linesReset | initBlockReadError | pollTimerExpiry | ringLook | badRequestKind
    | busFault | ringFault | tillOpen | tillPause | tillResume | tillClose | tillRead | outcomeTake | lineSet
    | lineRead | clockRead | holdTimeout | drwInChange | levelCounted | pulseEnd | stuckTimerExpiry
    | longTimerExpiry => cases hfront
    | _ =>
      rw [← Host.Outcome.next.inj ((whenInService_idle (fun s => _) hservice).symm.trans he)]
      exact .refl s

/-! ### What the pass found is kept (R70) -/

theorem passKept_of_held (h : s.atc.held ≠ none) : s.passKept := fun hnone => absurd hnone h

theorem passKept_of_phase (h : s.atc.phase ≠ .recovering) : s.passKept := fun _ hphase => absurd hphase h

theorem State.sameFound.passKept (h : s.sameFound t) (hheld : t.atc.held = s.atc.held) (hphase : t.atc.phase = s.atc.phase)
    (hs : s.passKept) : t.passKept := by
  unfold State.passKept
  rw [h.adir, h.flu, h.tlu, hheld, hphase]
  exact hs

theorem enterRecovering_passKept (s : State) : s.enterRecovering.passKept := by
  obtain ⟨hadir, hflu, htlu⟩ := enterRecovering_before s
  intro _ _
  rw [hadir, hflu, htlu]
  exact ⟨rfl, rfl, rfl⟩

theorem exec_passKept {c : Instr} (h : s.passKept) (he : exec c s = .next t) : t.passKept := by
  cases hc : movesPhase c with
  | false =>
    have hkeeps := exec_keeps hc he
    by_cases hphase : s.atc.phase = .recovering
    · have hservice : s.inService = false := by
        simp [State.inService, hphase]
      exact (exec_sameFound hc hservice he).passKept hkeeps.held hkeeps.phase h
    · exact passKept_of_phase (by rwa [hkeeps.phase])
  | true =>
    rcases movesPhase_cases hc with hcut | hstart | rfl
    · exact exec_cut hcut h (fun b => passKept_of_held (by simp [hold_held])) (fun u f _ _ hf => passKept_of_held hf) he
    · rcases exec_start_cases hstart he with rfl | ⟨-, hstarted⟩
      · exact h
      · rcases hstarted with ⟨strap, ht⟩ | ⟨strap, ht⟩ | ht <;> rw [ht]
        · exact passKept_of_phase (by rintro ⟨⟩)
        · exact enterRecovering_passKept _
        · exact enterRecovering_passKept _
    · rcases exec_recoveryDone_cases he with rfl | ⟨-, -, hfront⟩
      · exact h
      · refine passKept_of_phase ?_
        rw [hfront.phase, recovered_eq]
        rintro ⟨⟩

theorem step_passKept (h : s.passKept) (hs : step s = .next t) : t.passKept := by
  refine step_invariant (P := State.passKept) exec_passKept (fun {s} h => ?_) (fun _ h => h) h hs
  have hsame : s.sameFound s.nextPart := sameFound_of_eq (by simp) (by simp) (by simp)
  exact hsame.passKept (congrArg Atc.held (nextPart_atc s)) (congrArg Atc.phase (nextPart_atc s)) h

end Sys2Proof.Machine
end

section
/-! PROOF. What a cut leaves of each write under way (R204, R146; log entry 6): the old content or the new. -/

namespace Sys2Proof.Machine

variable {s t u : State}

theorem perCounter_eq_fill {α : Type} {p : PerCounter α} {a : α} (h : ∀ c, p.get c = a) : p = PerCounter.fill a := by
  obtain ⟨c0, c1, c2, c3, c4, c5, c6, c7⟩ := p
  have h0 : c0 = a := h .c0
  have h1 : c1 = a := h .c1
  have h2 : c2 = a := h .c2
  have h3 : c3 = a := h .c3
  have h4 : c4 = a := h .c4
  have h5 : c5 = a := h .c5
  have h6 : c6 = a := h .c6
  have h7 : c7 = a := h .c7
  rw [h0, h1, h2, h3, h4, h5, h6, h7]
  rfl

/-! ### Record writes (R204) -/

/-- A slot's record after some writes are cut is the one before, or the old content of one of them. -/
theorem foldl_cutWrite_record (slot : Nat) (l : List RecordWrite) : ∀ s : State,
    (l.foldl State.cutWrite s).record slot = s.record slot ∨
      ∃ w ∈ l, w.settled = false ∧ w.slot = slot ∧ (l.foldl State.cutWrite s).record slot = some w.old := by
  induction l with
  | nil => exact fun s => .inl rfl
  | cons w l ih =>
    intro s
    obtain hrest | ⟨w', hw', hsettled, hslot, hold⟩ := ih (s.cutWrite w)
    · have hone : (s.cutWrite w).record slot = s.record slot ∨
          w.settled = false ∧ w.slot = slot ∧ (s.cutWrite w).record slot = some w.old := by
        unfold State.cutWrite
        split
        · exact .inl rfl
        next hsettled =>
          split
          · have hput : (s.drawn.putRecord w.slot w.old).record slot =
                if w.slot = slot then some w.old else s.record slot := tableGet_tableSet _ _ _ _
            rw [hput]
            split
            next hslot => exact .inr ⟨by simpa using hsettled, hslot, rfl⟩
            next => exact .inl rfl
          · exact .inl rfl
      rw [List.foldl_cons, hrest]
      exact hone.imp id fun hw => ⟨w, List.mem_cons_self, hw⟩
    · exact .inr ⟨w', List.mem_cons_of_mem w hw', hsettled, hslot, hold⟩

theorem cutWrites_record (s : State) (slot : Nat) :
    s.cutWrites.record slot = s.record slot ∨
      ∃ w ∈ s.adir.writes, w.settled = false ∧ w.slot = slot ∧ s.cutWrites.record slot = some w.old := by
  have hfold : s.cutWrites.record slot = (s.adir.writes.reverse.foldl State.cutWrite s).record slot := rfl
  rw [hfold]
  refine (foldl_cutWrite_record slot _ s).imp id fun ⟨w, hw, hrest⟩ => ⟨w, List.mem_reverse.1 hw, hrest⟩

/-! ### FLU's write (R204) -/

theorem cutFloat_store (s : State) :
    (s.cutFloat.flu.record = s.flu.record ∧ s.cutFloat.flu.entries = s.flu.entries) ∨
      ∃ k, s.flu.writing = some k ∧ s.cutFloat.flu.record = (s.flu.complete k).record ∧
        s.cutFloat.flu.entries = (s.flu.complete k).entries := by
  unfold State.cutFloat
  split
  · exact .inl ⟨rfl, rfl⟩
  next k hwriting =>
    split
    · exact .inr ⟨k, hwriting, rfl, rfl⟩
    · exact .inl ⟨rfl, rfl⟩

/-! ### The outcomes that one event stored in several tills (R146) -/

/-- From `s` to `t` each outcome's store that may be under way leaves its old outcome or its new. -/
structure State.storesCut (s t : State) : Prop where
  only : t.tlu = { s.tlu with tills := t.tlu.tills }
  till : ∀ c, t.till c = s.till c ∨
    ∃ w, s.tlu.storing.get c = some w ∧ w.settled = false ∧ t.till c = { s.till c with outcome := w.old }

theorem State.storesCut.refl (s : State) : s.storesCut s := ⟨rfl, fun _ => .inl rfl⟩

theorem mapTill_till (s : State) (c d : Counter) (f : Till → Till) :
    (s.mapTill c f).till d = if d = c then f (s.till c) else s.till d := PerCounter.get_set _ _ _ _

theorem cutStoring_storesCut (h : s.storesCut t) (c : Counter) : s.storesCut (State.cutStoring c t) := by
  have hstoring : t.tlu.storing = s.tlu.storing := by rw [h.only]
  unfold State.cutStoring
  split
  · exact h
  next w hw =>
    split
    · exact h
    next hsettled =>
      split
      · refine ⟨?_, fun d => ?_⟩
        · show ({ t.tlu with tills := _ } : Tlu) = _
          rw [h.only]
          rfl
        · have htill : (t.drawn.writeOutcome c w.old).till d =
              if d = c then { t.till c with outcome := w.old } else t.till d := mapTill_till t.drawn c d _
          rw [htill]
          split
          next hd =>
            subst hd
            refine .inr ⟨w, hstoring ▸ hw, by simpa using hsettled, ?_⟩
            obtain hsame | ⟨w', -, -, hcut⟩ := h.till d
            · rw [hsame]
            · rw [hcut]
          next => exact h.till d
      · exact ⟨h.only, h.till⟩

theorem forCounters_storesCut (s : State) : s.storesCut (forCounters State.cutStoring s) :=
  forCounters_keeps (P := s.storesCut) _ (fun c _ ht => cutStoring_storesCut ht c) s (.refl s)

/-- Some outcome that no read has found missing keeps its store. -/
def State.storeKept (s t : State) : Prop :=
  ∃ c w, s.tlu.storing.get c = some w ∧ w.readOld = false ∧ (t.till c).outcome = (s.till c).outcome

/-- What a cut of the stores leaves of the tills: the old outcomes or the new, with one new at least. -/
theorem cutStores_spec_tills (s : State) :
    s.cutStores.tlu = { s.tlu with tills := s.cutStores.tlu.tills, storing := PerCounter.fill none } ∧
      (∀ c, s.cutStores.till c = s.till c ∨
        ∃ w, s.tlu.storing.get c = some w ∧ w.settled = false ∧ s.cutStores.till c = { s.till c with outcome := w.old }) ∧
      ((∃ c w, s.tlu.storing.get c = some w ∧ w.readOld = false) → s.storeKept s.cutStores) := by
  have hfold := forCounters_storesCut s
  have honly := hfold.only
  have htills := hfold.till
  unfold State.cutStores
  dsimp only
  generalize forCounters State.cutStoring s = u at honly htills ⊢
  split
  next hkept =>
    refine ⟨?_, htills, fun _ => ?_⟩
    · show ({ u.tlu with storing := _ } : Tlu) = _
      rw [honly]
      rfl
    · obtain ⟨c, -, hc⟩ := List.any_eq_true.1 hkept
      rw [Bool.and_eq_true, decide_eq_true_eq] at hc
      obtain ⟨hread, hsame⟩ := hc
      cases hw : s.tlu.storing.get c with
      | none =>
        rw [hw] at hread
        cases hread
      | some w =>
        rw [hw] at hread
        exact ⟨c, w, hw, by simpa using hread, hsame⟩
  next => exact ⟨rfl, fun c => .inl rfl, fun ⟨c, w, hw, hread⟩ => ⟨c, w, hw, hread, rfl⟩⟩

end Sys2Proof.Machine
end

section
/-! PROOF. What a cut leaves of the tills and of ULC's record, and that it leaves no write under way (R146, R181, R204); the
statement on cuts. -/

namespace Sys2Proof.Machine

variable {s t u : State}

/-! ### The writes under way of a till (R146) -/

/-- A till's record `x` becomes `t` when its part, closing and removing writes, as `s` has them, are cut. -/
def State.tillCut (s : State) (c : Counter) (x t : Till) : Prop :=
  ∃ y z, (y = x ∨ ∃ p, s.tlu.part.get c = some p ∧ p.settled = false ∧ y = p.old) ∧
    (z = y ∨ ∃ old, s.tlu.closing.get c = some old ∧ z = { y with state := old }) ∧
    (t = z ∨ ∃ o, s.tlu.removing.get c = some o ∧ s.ulc.noneTold = false ∧ t = { z with outcome := some o })

/-- With no part and no removal under way a cut of the till leaves its outcome. -/
theorem State.tillCut.outcome {c : Counter} {x y : Till} (h : s.tillCut c x y) (hpart : s.tlu.part.get c = none)
    (hremoving : s.tlu.removing.get c = none) : y.outcome = x.outcome := by
  obtain ⟨v, z, hv, hz, hy⟩ := h
  obtain rfl : v = x := hv.resolve_right fun ⟨p, hp, _⟩ => by rw [hpart] at hp; cases hp
  obtain rfl : y = z := hy.resolve_right fun ⟨o, ho, _⟩ => by rw [hremoving] at ho; cases ho
  obtain rfl | ⟨old, -, rfl⟩ := hz <;> rfl

/-- From `s` to `t` the till of a counter and its writes under way are as they were. -/
structure State.sameTill (s t : State) (c : Counter) : Prop where
  till : t.till c = s.till c
  part : t.tlu.part.get c = s.tlu.part.get c
  closing : t.tlu.closing.get c = s.tlu.closing.get c
  removing : t.tlu.removing.get c = s.tlu.removing.get c

theorem State.sameTill.trans {c : Counter} (h : s.sameTill t c) (k : t.sameTill u c) : s.sameTill u c :=
  ⟨k.till.trans h.till, k.part.trans h.part, k.closing.trans h.closing, k.removing.trans h.removing⟩

/-- No write of a counter's till is under way. -/
structure State.tillIdle (s : State) (c : Counter) : Prop where
  part : s.tlu.part.get c = none
  closing : s.tlu.closing.get c = none
  removing : s.tlu.removing.get c = none

theorem State.sameTill.idle {c : Counter} (h : s.sameTill t c) (hs : s.tillIdle c) : t.tillIdle c :=
  ⟨h.part.trans hs.part, h.closing.trans hs.closing, h.removing.trans hs.removing⟩

theorem State.sameTill.tillCut {c : Counter} {x : Till} (h : s.sameTill t c) (hulc : t.ulc = s.ulc)
    (ht : t.tillCut c (t.till c) x) : s.tillCut c (s.till c) x := by
  unfold State.tillCut at ht
  rw [h.till, h.part, h.closing, h.removing, hulc] at ht
  exact ht

/-- A draw, or a write of the counter's till: what each stage of the cut of a till makes. -/
structure State.tillStage (s t : State) (c : Counter) : Prop where
  only : t.tlu = { s.tlu with tills := t.tlu.tills }
  ulc : t.ulc = s.ulc
  other : ∀ d, d ≠ c → t.till d = s.till d

theorem State.tillStage.refl (s : State) (c : Counter) : s.tillStage s c := ⟨rfl, rfl, fun _ _ => rfl⟩

theorem State.tillStage.trans {c : Counter} (h : s.tillStage t c) (k : t.tillStage u c) : s.tillStage u c where
  only := by rw [k.only, h.only]
  ulc := k.ulc.trans h.ulc
  other := fun d hd => (k.other d hd).trans (h.other d hd)

theorem tillStage_drawn (s : State) (c : Counter) : s.tillStage s.drawn c := ⟨rfl, rfl, fun _ _ => rfl⟩

theorem tillStage_mapTill (s : State) (c : Counter) (f : Till → Till) : s.tillStage (s.drawn.mapTill c f) c :=
  ⟨rfl, rfl, fun d hd => (mapTill_till s.drawn c d f).trans (if_neg hd)⟩

theorem drawn_mapTill_till (s : State) (c : Counter) (f : Till → Till) : (s.drawn.mapTill c f).till c = f (s.till c) :=
  (mapTill_till s.drawn c c f).trans (if_pos rfl)

/-- The cut of a till's part write under way. -/
def State.cutPart (s : State) (c : Counter) : State :=
  match s.tlu.part.get c with
  | none => s
  | some p => if p.settled then s else if s.freeBit then s.drawn.mapTill c fun _ => p.old else s.drawn

/-- The cut of a TILL_CLOSE under way. -/
def State.cutClosing (s : State) (c : Counter) : State :=
  match s.tlu.closing.get c with
  | none => s
  | some old => if s.freeBit then s.drawn.mapTill c fun t => { t with state := old } else s.drawn

/-- The cut of an OUTCOME_TAKE under way. -/
def State.cutRemoving (s : State) (c : Counter) : State :=
  match s.tlu.removing.get c with
  | none => s
  | some o => if s.ulc.noneTold then s else if s.freeBit then s.drawn.writeOutcome c (some o) else s.drawn

theorem cutTill_eq (c : Counter) (s : State) :
    State.cutTill c s = (((s.cutPart c).cutClosing c).cutRemoving c).mapTlu fun t =>
      { t with part := t.part.set c none, closing := t.closing.set c none, removing := t.removing.set c none } := rfl

theorem cutPart_spec (s : State) (c : Counter) :
    s.tillStage (s.cutPart c) c ∧ ((s.cutPart c).till c = s.till c ∨
      ∃ p, s.tlu.part.get c = some p ∧ p.settled = false ∧ (s.cutPart c).till c = p.old) := by
  unfold State.cutPart
  split
  · exact ⟨.refl s c, .inl rfl⟩
  next p hp =>
    split
    · exact ⟨.refl s c, .inl rfl⟩
    next hsettled =>
      split
      · exact ⟨tillStage_mapTill s c _, .inr ⟨p, hp, by simpa using hsettled, drawn_mapTill_till s c _⟩⟩
      · exact ⟨tillStage_drawn s c, .inl rfl⟩

theorem cutClosing_spec (s : State) (c : Counter) :
    s.tillStage (s.cutClosing c) c ∧ ((s.cutClosing c).till c = s.till c ∨
      ∃ old, s.tlu.closing.get c = some old ∧ (s.cutClosing c).till c = { s.till c with state := old }) := by
  unfold State.cutClosing
  split
  · exact ⟨.refl s c, .inl rfl⟩
  next old hold =>
    split
    · exact ⟨tillStage_mapTill s c _, .inr ⟨old, hold, drawn_mapTill_till s c _⟩⟩
    · exact ⟨tillStage_drawn s c, .inl rfl⟩

theorem cutRemoving_spec (s : State) (c : Counter) :
    s.tillStage (s.cutRemoving c) c ∧ ((s.cutRemoving c).till c = s.till c ∨
      ∃ o, s.tlu.removing.get c = some o ∧ s.ulc.noneTold = false ∧
        (s.cutRemoving c).till c = { s.till c with outcome := some o }) := by
  unfold State.cutRemoving
  split
  · exact ⟨.refl s c, .inl rfl⟩
  next o ho =>
    split
    · exact ⟨.refl s c, .inl rfl⟩
    next htold =>
      split
      · exact ⟨tillStage_mapTill s c _, .inr ⟨o, ho, by simpa using htold, drawn_mapTill_till s c _⟩⟩
      · exact ⟨tillStage_drawn s c, .inl rfl⟩

/-- What the cut of a till leaves of it, and that it leaves the other tills. -/
theorem cutTill_spec (c : Counter) (s : State) :
    s.tillCut c (s.till c) ((State.cutTill c s).till c) ∧ (State.cutTill c s).tillIdle c ∧
      (∀ d, d ≠ c → s.sameTill (State.cutTill c s) d) ∧ (State.cutTill c s).ulc = s.ulc ∧
      (State.cutTill c s).tlu.storing = s.tlu.storing := by
  obtain ⟨hpart, hparted⟩ := cutPart_spec s c
  obtain ⟨hclosing, hclosed⟩ := cutClosing_spec (s.cutPart c) c
  obtain ⟨hremoving, hremoved⟩ := cutRemoving_spec ((s.cutPart c).cutClosing c) c
  have hstage := (hpart.trans hclosing).trans hremoving
  rw [cutTill_eq]
  rw [hpart.only] at hclosed
  rw [(hpart.trans hclosing).only, (hpart.trans hclosing).ulc] at hremoved
  generalize ((s.cutPart c).cutClosing c).cutRemoving c = w at hremoved hstage ⊢
  refine ⟨⟨_, _, hparted, hclosed, hremoved⟩, ⟨?_, ?_, ?_⟩, fun d hd => ⟨hstage.other d hd, ?_, ?_, ?_⟩, hstage.ulc, ?_⟩
  · exact PerCounter.get_set_self _ _ _
  · exact PerCounter.get_set_self _ _ _
  · exact PerCounter.get_set_self _ _ _
  · refine (PerCounter.get_set_ne _ hd _).trans ?_
    rw [hstage.only]
  · refine (PerCounter.get_set_ne _ hd _).trans ?_
    rw [hstage.only]
  · refine (PerCounter.get_set_ne _ hd _).trans ?_
    rw [hstage.only]
  · show w.tlu.storing = _
    rw [hstage.only]

/-- What the cuts of some tills leave of them, and that they leave the others. -/
theorem foldl_cutTill {l : List Counter} (h : l.Nodup) : ∀ s : State,
    (∀ c ∈ l, s.tillCut c (s.till c) ((l.foldl (fun s c => State.cutTill c s) s).till c) ∧
      (l.foldl (fun s c => State.cutTill c s) s).tillIdle c) ∧
    (∀ c, c ∉ l → s.sameTill (l.foldl (fun s c => State.cutTill c s) s) c) ∧
    (l.foldl (fun s c => State.cutTill c s) s).ulc = s.ulc ∧
    (l.foldl (fun s c => State.cutTill c s) s).tlu.storing = s.tlu.storing := by
  induction l with
  | nil =>
    exact fun s => ⟨fun c hc => absurd hc List.not_mem_nil, fun c _ => ⟨rfl, rfl, rfl, rfl⟩, rfl, rfl⟩
  | cons c l ih =>
    obtain ⟨hnot, hrest⟩ := List.nodup_cons.1 h
    intro s
    obtain ⟨hcut, hidle, hother, hulc, hstoring⟩ := cutTill_spec c s
    obtain ⟨htail, hothers, hulcs, hstorings⟩ := ih hrest (State.cutTill c s)
    rw [List.foldl_cons]
    refine ⟨fun d hd => ?_, fun d hd => ?_, hulcs.trans hulc, hstorings.trans hstoring⟩
    · by_cases heq : d = c
      · rw [heq]
        have hsame := hothers c hnot
        exact ⟨by rw [hsame.till]; exact hcut, hsame.idle hidle⟩
      · obtain ⟨hdcut, hdidle⟩ := htail d ((List.mem_cons.1 hd).resolve_left heq)
        exact ⟨(hother d heq).tillCut hulc hdcut, hdidle⟩
    · obtain ⟨hne, hin⟩ := not_or.1 fun hor => hd (List.mem_cons.2 hor)
      exact (hother d hne).trans (hothers d hin)

/-- What the cuts of the tills leave. -/
theorem forCounters_cutTill (s : State) :
    (∀ c, s.tillCut c (s.till c) ((forCounters State.cutTill s).till c) ∧ (forCounters State.cutTill s).tillIdle c) ∧
      (forCounters State.cutTill s).ulc = s.ulc ∧ (forCounters State.cutTill s).tlu.storing = s.tlu.storing := by
  obtain ⟨hall, -, hulc, hstoring⟩ := foldl_cutTill (l := Counter.all) (by decide) s
  exact ⟨fun c => hall c (Counter.mem_all c), hulc, hstoring⟩

/-! ### ULC's record (R181) -/

theorem cutRecord_mode (s : State) :
    s.cutRecord.ulc.mode = s.ulc.mode ∨ s.ulc.recordWrite = some s.cutRecord.ulc.mode := by
  unfold State.cutRecord
  split
  · exact .inl rfl
  next m hm =>
    split
    · exact .inr hm
    · exact .inl rfl

end Sys2Proof.Machine
end

section
/-! PROOF. A cut leaves each store record with its old content or its new, and no write under way (R70, R204); the statement on
it. -/

namespace Sys2Proof.Machine

variable {s t u : State}

/-! ### The writes under way, together -/

/-- No record write and no till write is under way. -/
structure State.writesCut (s : State) : Prop where
  writes : s.adir.writes = []
  waiting : s.adir.waiting = []
  part : s.tlu.part = PerCounter.fill none
  closing : s.tlu.closing = PerCounter.fill none
  removing : s.tlu.removing = PerCounter.fill none
  storing : s.tlu.storing = PerCounter.fill none

/-- The part before the cut of the tills. -/
def State.cutFirst (s : State) : State := s.cutWrites.cutTfu.cutFloat

theorem cutFirst_tlu (s : State) : s.cutFirst.tlu = s.tlu := by
  rw [State.cutFirst, cutFloat_tlu, cutTfu_tlu, cutWrites_tlu]

theorem cutFirst_ulc (s : State) : s.cutFirst.ulc = s.ulc := by
  have hfloat : ∀ u : State, u.cutFloat.ulc = u.ulc := fun u => by
    unfold State.cutFloat
    split
    · rfl
    · split <;> rfl
  rw [State.cutFirst, hfloat, cutTfu_spec, cutWrites_spec]

theorem cutStores_ulc (s : State) : s.cutStores.ulc = s.ulc := by
  obtain ⟨l, d, h⟩ := cutStores_spec s
  rw [h]

theorem cutBegun_eq (s : State) : s.cutBegun = (forCounters State.cutTill s.cutFirst.cutStores).cutRecord := rfl

theorem cutBegun_adir (s : State) : s.cutBegun.adir = s.cutWrites.adir := by
  rw [cutBegun_eq, cutRecord_adir, forCounters_adir _ _ cutTill_adir, cutStores_adir, State.cutFirst, cutFloat_adir,
    cutTfu_adir]

theorem cutBegun_flu (s : State) : s.cutBegun.flu = s.cutFirst.flu := by
  rw [cutBegun_eq, cutRecord_flu, forCounters_flu _ _ cutTill_flu, cutStores_flu]

theorem cutBegun_tlu (s : State) : s.cutBegun.tlu = (forCounters State.cutTill s.cutFirst.cutStores).tlu := by
  rw [cutBegun_eq, cutRecord_tlu]

theorem cutBegun_record (s : State) (slot : Nat) :
    s.cutBegun.record slot = s.record slot ∨
      ∃ w ∈ s.adir.writes, w.settled = false ∧ w.slot = slot ∧ s.cutBegun.record slot = some w.old := by
  have hsame : s.cutBegun.record slot = s.cutWrites.record slot := by rw [State.record, cutBegun_adir]; rfl
  rw [hsame]
  exact cutWrites_record s slot

theorem cutBegun_store (s : State) :
    (s.cutBegun.flu.record = s.flu.record ∧ s.cutBegun.flu.entries = s.flu.entries) ∨
      ∃ k, s.flu.writing = some k ∧ s.cutBegun.flu.record = (s.flu.complete k).record ∧
        s.cutBegun.flu.entries = (s.flu.complete k).entries := by
  have hcut := cutFloat_store s.cutWrites.cutTfu
  rw [cutTfu_flu, cutWrites_flu] at hcut
  rw [cutBegun_flu]
  exact hcut

/-- What a cut leaves of the tills: first the stores of one event, then each till's own writes. -/
theorem cutBegun_tills (s : State) :
    (∀ c, ∃ x, (x = s.till c ∨
        ∃ w, s.tlu.storing.get c = some w ∧ w.settled = false ∧ x = { s.till c with outcome := w.old }) ∧
      s.tillCut c x (s.cutBegun.till c)) ∧
    ((∀ c, s.tlu.part.get c = none ∧ s.tlu.removing.get c = none) →
      (∃ c w, s.tlu.storing.get c = some w ∧ w.readOld = false) → s.storeKept s.cutBegun) := by
  obtain ⟨honly, hstores, hkept⟩ := cutStores_spec_tills s.cutFirst
  obtain ⟨htills, -, -⟩ := forCounters_cutTill s.cutFirst.cutStores
  have htlu : s.cutFirst.tlu = s.tlu := cutFirst_tlu s
  have hulc : s.cutFirst.cutStores.ulc = s.ulc := (cutStores_ulc _).trans (cutFirst_ulc s)
  have htill : ∀ c, s.cutFirst.till c = s.till c := fun c => by rw [State.till, htlu]; rfl
  have hbegun : ∀ c, s.cutBegun.till c = (forCounters State.cutTill s.cutFirst.cutStores).till c := fun c => by
    rw [State.till, cutBegun_tlu]
    rfl
  have hcut : ∀ c, s.tillCut c (s.cutFirst.cutStores.till c) (s.cutBegun.till c) := fun c => by
    obtain ⟨hc, -⟩ := htills c
    unfold State.tillCut at hc ⊢
    rw [honly, hulc, htlu, ← hbegun] at hc
    exact hc
  refine ⟨fun c => ⟨_, ?_, hcut c⟩, fun hidle hread => ?_⟩
  · have hc := hstores c
    rw [htlu, htill] at hc
    exact hc
  · rw [htlu] at hkept
    obtain ⟨c, w, hw, hwread, houtcome⟩ := hkept hread
    rw [htlu] at hw
    rw [htill] at houtcome
    obtain ⟨hpart, hremoving⟩ := hidle c
    exact ⟨c, w, hw, hwread, ((hcut c).outcome hpart hremoving).trans houtcome⟩

theorem cutBegun_mode (s : State) : s.cutBegun.ulc.mode = s.ulc.mode ∨ s.ulc.recordWrite = some s.cutBegun.ulc.mode := by
  obtain ⟨-, hulc, -⟩ := forCounters_cutTill s.cutFirst.cutStores
  have hmode := cutRecord_mode (forCounters State.cutTill s.cutFirst.cutStores)
  rw [hulc, cutStores_ulc, cutFirst_ulc] at hmode
  rw [cutBegun_eq]
  exact hmode

theorem cutBegun_writesCut (s : State) : s.cutBegun.writesCut := by
  obtain ⟨honly, -, -⟩ := cutStores_spec_tills s.cutFirst
  obtain ⟨htills, -, hstoring⟩ := forCounters_cutTill s.cutFirst.cutStores
  refine ⟨by rw [cutBegun_adir]; rfl, by rw [cutBegun_adir]; rfl, ?_, ?_, ?_, ?_⟩
  · rw [cutBegun_tlu]
    exact perCounter_eq_fill fun c => (htills c).2.part
  · rw [cutBegun_tlu]
    exact perCounter_eq_fill fun c => (htills c).2.closing
  · rw [cutBegun_tlu]
    exact perCounter_eq_fill fun c => (htills c).2.removing
  · rw [cutBegun_tlu, hstoring, honly]

/-! ### The pass leaves no write under way -/

theorem passClaim_writesCut (h : s.writesCut) (c : Counter) (k : PassClaim) : (s.passClaim c k).writesCut := by
  have hpass := passes_passClaim s c k
  obtain ⟨hpart, hclosing, hremoving, hstoring⟩ := hpass.quiet ⟨h.part, h.closing, h.removing, h.storing⟩
  have honly := hpass.only
  refine ⟨?_, ?_, hpart, hclosing, hremoving, hstoring⟩
  · rw [honly]
    exact h.writes
  · rw [honly]
    exact h.waiting

theorem clearHold_writesCut (h : s.writesCut) (slot : Nat) : (s.clearHold slot).writesCut := by
  unfold State.clearHold
  split
  · exact h
  · split <;> exact ⟨h.writes, h.waiting, h.part, h.closing, h.removing, h.storing⟩

theorem drawn_writesCut (h : s.writesCut) : s.drawn.writesCut :=
  ⟨h.writes, h.waiting, h.part, h.closing, h.removing, h.storing⟩

theorem cutHolds_writesCut (h : s.writesCut) : s.cutHolds.writesCut := by
  unfold State.cutHolds
  generalize s.adir.table = l
  induction l generalizing s with
  | nil => exact h
  | cons p l ih =>
    rw [List.foldl_cons]
    refine ih ?_
    split
    · exact clearHold_writesCut (drawn_writesCut h) _
    · exact drawn_writesCut h

theorem cutClaims_writesCut (l : List (Counter × PassClaim)) (h : s.writesCut) : (cutClaims l s).writesCut := by
  induction l generalizing s with
  | nil => exact cutHolds_writesCut h
  | cons p l ih =>
    unfold cutClaims
    split
    · exact ih (passClaim_writesCut (drawn_writesCut h) _ _)
    · exact drawn_writesCut h

/-- The volatile state wiped leaves no write under way where the cut left none. -/
theorem wipe_storeQuiet (h : s.writesCut) (f : Atc → Atc) : (s.endPass.wipe.mapAtc f).storeQuiet :=
  ⟨h.writes, h.waiting, rfl, rfl, rfl, h.part, h.closing, h.removing, h.storing, rfl, rfl, rfl, rfl⟩

theorem hold_storeQuiet (s : State) (b : Bool) : (s.hold b).storeQuiet := by
  have hbegun := cutBegun_writesCut s.leaveUp
  rw [State.hold, cutStore_eq, State.cutPass]
  refine wipe_storeQuiet ?_ _
  split
  · refine cutClaims_writesCut _ ?_
    exact ⟨hbegun.writes, hbegun.waiting, hbegun.part, hbegun.closing, hbegun.removing, hbegun.storing⟩
  · exact hbegun

/-! ### What a cut leaves of the store -/

theorem hold_not_recovering (hphase : s.atc.phase ≠ .recovering) (b : Bool) :
    s.hold b = s.leaveUp.cutBegun.endPass.wipe.mapAtc fun a => { a with held := some ⟨b⟩ } := by
  have hbegun : s.leaveUp.cutBegun.atc.phase ≠ .recovering := by rwa [cutBegun_phase, leaveUp_atc]
  rw [State.hold, cutStore_eq, State.cutPass, if_neg hbegun]

theorem leaveUp_only (s : State) : s.leaveUp = { s with tke := s.leaveUp.tke } := by
  unfold State.leaveUp
  split <;> rfl

/-- Out of RECOVERING a cut leaves each store record old or new. -/
theorem hold_eachOldOrNew (hphase : s.atc.phase ≠ .recovering) (b : Bool) : eachOldOrNew s (s.hold b) := by
  have hpoint := hold_point s b
  have hquiet := hold_storeQuiet s b
  have hrecord := cutBegun_record s.leaveUp
  have hstore := cutBegun_store s.leaveUp
  obtain ⟨htills, hkept⟩ := cutBegun_tills s.leaveUp
  have hmode := cutBegun_mode s.leaveUp
  rw [hold_not_recovering hphase] at hpoint hquiet ⊢
  generalize s.leaveUp.cutBegun = u at hpoint hquiet hrecord hstore htills hkept hmode ⊢
  rw [leaveUp_only] at hrecord hstore htills hkept hmode
  refine ⟨hrecord, hpoint, hstore, fun c => ?_, hkept, hmode, hquiet⟩
  obtain ⟨x, hx, y, z, hrest⟩ := htills c
  exact ⟨x, y, z, hx, hrest⟩

/-- In RECOVERING a cut leaves the store as the pass left it after some of its claims. -/
theorem hold_passCut (hphase : s.atc.phase = .recovering) (hheld : s.atc.held = none) (hkept : s.passKept) (b : Bool) :
    passCut s (s.hold b) := by
  obtain ⟨hadir, hflu, htlu⟩ := hkept hheld hphase
  obtain ⟨n, hn, hcut⟩ := hold_cutAfter hphase hadir hflu htlu b
  have hafter : (s.passAfter n).passStore = s.unpass.passStore.claims (passClaims.take n) := passStore_claims _ _
  have hpoint := hold_point s b
  have hquiet := hold_storeQuiet s b
  unfold PassStore.cutAfter at hcut
  rw [← hafter] at hcut
  generalize s.hold b = t at hcut hpoint hquiet ⊢
  obtain hsame | ⟨hlast, hholds⟩ := hcut
  · exact ⟨n, hn, fun slot => .inl (congrArg (fun x : PassStore => tableGet x.table slot) hsame),
      congrArg PassStore.record hsame,
      congrArg PassStore.entries hsame, fun c => congrArg (fun x : PassStore => x.tills.get c) hsame, hpoint, hquiet⟩
  · exact ⟨n, hn, fun slot => (hholds.table slot).imp id fun hcleared => ⟨hlast, hcleared⟩, hholds.record, hholds.entries,
      fun c => congrArg (PerCounter.get · c) hholds.tills, hpoint, hquiet⟩

end Sys2Proof.Machine

namespace Sys2Proof.Proofs

open Sys2Proof Sys2Proof.Machine

/-- Settles O11: each write under way is cut by itself, and a cut of the pass stops it between its claims. -/
theorem aCutLeavesEachRecordOldOrNew : Obligations.ACutLeavesEachRecordOldOrNew := by
  refine ⟨fun s hheld hok => ⟨fun hphase => ⟨⟨_, exec_powerLoss_running hheld, ?_⟩,
      ⟨_, exec_resetNLow_running hheld, hold_eachOldOrNew hphase false⟩⟩,
    fun hphase hkept => ⟨⟨_, exec_powerLoss_running hheld, ?_⟩,
      ⟨_, exec_resetNLow_running hheld, hold_passCut hphase hheld hkept false⟩⟩⟩, fun s t => step_passKept⟩
  · exact hold_eachOldOrNew hphase true
  · exact hold_passCut hphase hheld hkept true

end Sys2Proof.Proofs
end
